-- ==== Sys2Proof/Word.lean ====
section
/-!
DEFINITION. Word.lean: the machine words of Zenhus (spec/01 R14) and their plainest arithmetic.
-/
namespace Sys2Proof

/-- A scalar or control register (spec/01 R14). -/
abbrev Word := BitVec 64
/-- One slot's half of a vector register (spec/01 R14, R20). -/
abbrev VWord := BitVec 128
/-- One slot's half of a predicate register: one bit a byte lane (spec/01 R15). -/
abbrev Pred := BitVec 16
/-- The unit of instruction storage (spec/03, first sentence). -/
abbrev Half := BitVec 16
/-- The unit of memory. -/
abbrev Byte := BitVec 8

end Sys2Proof
end

