-- ==== Sys2Proof/Machine/Elem.lean ====
section
/-!
DEFINITION. Machine/Elem.lean: the element types of spec/02 R34, their sizes and the type groups of spec/07 R148.
-/
namespace Sys2Proof.Machine

/-- The sixteen element types, by their ET code (spec/02 R34). -/
inductive ET where
  | int8 | n8 | int16 | n16 | int32 | n32 | int12 | ci12 | ci16 | ci32 | fp32 | fp16 | bf16 | cf16 | e4m3 | e5m2
  deriving DecidableEq, Repr

/-- The element type that a 4-bit code names (spec/02 R34). -/
def ET.ofCode : Nat → ET
  | 0 => .int8 | 1 => .n8 | 2 => .int16 | 3 => .n16 | 4 => .int32 | 5 => .n32 | 6 => .int12 | 7 => .ci12
  | 8 => .ci16 | 9 => .ci32 | 10 => .fp32 | 11 => .fp16 | 12 => .bf16 | 13 => .cf16 | 14 => .e4m3 | _ => .e5m2

/-- The ET code of a type (spec/02 R34). -/
def ET.code : ET → Nat
  | .int8 => 0 | .n8 => 1 | .int16 => 2 | .n16 => 3 | .int32 => 4 | .n32 => 5 | .int12 => 6 | .ci12 => 7
  | .ci16 => 8 | .ci32 => 9 | .fp32 => 10 | .fp16 => 11 | .bf16 => 12 | .cf16 => 13 | .e4m3 => 14 | .e5m2 => 15

/-- Lane width in a vector register, in bits (spec/02 R34). -/
def ET.width : ET → Nat
  | .int8 | .n8 | .e4m3 | .e5m2 => 8
  | .int16 | .n16 | .int12 | .fp16 | .bf16 => 16
  | .int32 | .n32 | .ci12 | .ci16 | .fp32 | .cf16 => 32
  | .ci32 => 64

/-- Memory size of one element in bytes; CI12 takes 3 (spec/02 R36) and INT12, packed in pairs, is given as 1: its
elements are addressed by groups of 3 bytes (spec/07 R166). -/
def ET.msize : ET → Nat
  | .int8 | .n8 | .e4m3 | .e5m2 | .int12 => 1
  | .int16 | .n16 | .fp16 | .bf16 => 2
  | .int32 | .n32 | .ci16 | .fp32 | .cf16 => 4
  | .ci12 => 3
  | .ci32 => 8

/-- INT of spec/07 R148. -/
def ET.isInt : ET → Bool
  | .int8 | .n8 | .int16 | .n16 | .int32 | .n32 | .int12 => true
  | _ => false

/-- CINT of spec/07 R148. -/
def ET.isCint : ET → Bool
  | .ci12 | .ci16 | .ci32 => true
  | _ => false

/-- FLT of spec/07 R148. -/
def ET.isFlt : ET → Bool
  | .fp32 | .fp16 | .bf16 => true
  | _ => false

/-- FP8 of spec/07 R148. -/
def ET.isFp8 : ET → Bool
  | .e4m3 | .e5m2 => true
  | _ => false

/-- Integer types that are read as signed (spec/02 R35). -/
def ET.isSigned : ET → Bool
  | .int8 | .int16 | .int32 | .int12 | .ci12 | .ci16 | .ci32 => true
  | _ => false

/-- Types with two parts, I and Q (spec/02 R37). -/
def ET.isComplex : ET → Bool
  | .ci12 | .ci16 | .ci32 | .cf16 => true
  | _ => false

/-- INT12 and CI12 keep each part sign-extended in a 16-bit container (spec/02 R36). -/
def ET.is12 : ET → Bool
  | .int12 | .ci12 => true
  | _ => false

/-- The container width of one part: half the lane for a complex type. -/
def ET.partWidth (t : ET) : Nat := if t.isComplex then t.width / 2 else t.width

/-- The value width of one part: 12 bits in the 16-bit container of INT12 and CI12 (spec/02 R36). -/
def ET.valueWidth (t : ET) : Nat := if t.is12 then 12 else t.partWidth

/-- The real type of one part. -/
def ET.part : ET → ET
  | .ci12 => .int12 | .ci16 => .int16 | .ci32 => .int32 | .cf16 => .fp16 | t => t

end Sys2Proof.Machine
end

