-- ==== Sys2Proof/Syntax.lean ====
section
/-!
DEFINITION. Syntax.lean: the instructions and device events of Zenhus, one constructor for each row of
spec/opcode_table.json, in the table's order.  A thread instruction carries the operand fields of its halfword chain
(spec/03 R58, R61); a device event carries what the spec lets vary from outside the machine.
-/
namespace Sys2Proof

/-- The PXM prefix: scope, order, cache policy and burst length (spec/03 R61). -/
structure Pxm where
  scope : BitVec 3
  ord   : BitVec 1
  cp    : BitVec 2
  bl    : BitVec 4
  deriving DecidableEq, Repr

/-- The PXV prefix: element types and predicate mode (spec/03 R61). -/
structure Pxv where
  et   : BitVec 4
  zm   : BitVec 1
  pinv : BitVec 1
  et2  : BitVec 4
  deriving DecidableEq, Repr

/-- The PXR prefix: third register, operand selector and governing predicate (spec/03 R61). -/
structure Pxr where
  c   : BitVec 5
  sel : BitVec 2
  pg  : BitVec 3
  deriving DecidableEq, Repr

/-- The operand fields of one chain: fields A and B of the base halfword (spec/03 R58) and the prefixes that stand
before it, the PXI payloads in fetch order (spec/03 R59, R62). -/
structure Opnd where
  a : BitVec 5
  b : BitVec 5
  m : Option Pxm
  v : Option Pxv
  r : Option Pxr
  i : List (BitVec 10)
  deriving DecidableEq, Repr


/-- Who writes a device register: an agent at M, or the supervisor of a partition (spec/14 R328, spec/15 R331). -/
inductive Writer where
  | m
  | s (part : Nat)
  deriving DecidableEq, Repr

/-- A block of words that comes from outside the device. -/
abbrev Words := List (BitVec 64)
/-- Bytes that come from outside the device. -/
abbrev Bytes := List (BitVec 8)

/-- What a post from another package brings: its eight words and the poison of each, and the position, die, command number
and class of its sender (spec/17 R383, R387, R394). -/
structure RingPost where
  words  : Words
  poison : BitVec 8
  pos    : Nat
  die    : Nat
  num    : Nat
  urg    : Bool
  deriving DecidableEq, Repr

/-- What a chunk of an ALLRED brings: its eight words, and the terms of its sender's command (spec/17 R388, R389). -/
structure RingChunk where
  words : Words
  terms : List Nat
  deriving DecidableEq, Repr

/-- The steps of the machine: 188 thread instructions and 99 device events (spec/opcode_table.json, spec/95). -/
inductive Instr where
  | add (o : Opnd)
  | sub (o : Opnd)
  | mul (o : Opnd)
  | mulh (o : Opnd)
  | div (o : Opnd)
  | divn (o : Opnd)
  | rem (o : Opnd)
  | remn (o : Opnd)
  | and (o : Opnd)
  | or (o : Opnd)
  | xor (o : Opnd)
  | shl (o : Opnd)
  | shr (o : Opnd)
  | sar (o : Opnd)
  | min (o : Opnd)
  | max (o : Opnd)
  | slt (o : Opnd)
  | sltn (o : Opnd)
  | mov (o : Opnd)
  | addI (o : Opnd)
  | andI (o : Opnd)
  | orI (o : Opnd)
  | xorI (o : Opnd)
  | shlI (o : Opnd)
  | shrI (o : Opnd)
  | sarI (o : Opnd)
  | sltI (o : Opnd)
  | sltnI (o : Opnd)
  | li (o : Opnd)
  | bfx (o : Opnd)
  | bfi (o : Opnd)
  | clz (o : Opnd)
  | popc (o : Opnd)
  | sextB (o : Opnd)
  | sextH (o : Opnd)
  | sextW (o : Opnd)
  | zextB (o : Opnd)
  | zextH (o : Opnd)
  | zextW (o : Opnd)
  | jr (o : Opnd)
  | callr (o : Opnd)
  | ret (o : Opnd)
  | padJ (o : Opnd)
  | padC (o : Opnd)
  | padH (o : Opnd)
  | padL (o : Opnd)
  | lea (o : Opnd)
  | lrec (o : Opnd)
  | ldb (o : Opnd)
  | ldbn (o : Opnd)
  | ldh (o : Opnd)
  | ldhn (o : Opnd)
  | ldw (o : Opnd)
  | ldwn (o : Opnd)
  | ldd (o : Opnd)
  | stb (o : Opnd)
  | sth (o : Opnd)
  | stw (o : Opnd)
  | std (o : Opnd)
  | beq (o : Opnd)
  | bne (o : Opnd)
  | blt (o : Opnd)
  | bge (o : Opnd)
  | bltn (o : Opnd)
  | bgen (o : Opnd)
  | bp (o : Opnd)
  | jmp (o : Opnd)
  | call (o : Opnd)
  | vadd (o : Opnd)
  | vsub (o : Opnd)
  | vmul (o : Opnd)
  | vmin (o : Opnd)
  | vmax (o : Opnd)
  | vand (o : Opnd)
  | vor (o : Opnd)
  | vxor (o : Opnd)
  | vshl (o : Opnd)
  | vshr (o : Opnd)
  | vshlI (o : Opnd)
  | vshrI (o : Opnd)
  | vcmul (o : Opnd)
  | vmac (o : Opnd)
  | vfma (o : Opnd)
  | vdot (o : Opnd)
  | vcmac (o : Opnd)
  | vsel (o : Opnd)
  | vcmp (o : Opnd)
  | vwhile (o : Opnd)
  | vshuf (o : Opnd)
  | vzip (o : Opnd)
  | vunzip (o : Opnd)
  | vredAdd (o : Opnd)
  | vredMin (o : Opnd)
  | vredMax (o : Opnd)
  | vld (o : Opnd)
  | vst (o : Opnd)
  | vlds (o : Opnd)
  | vsts (o : Opnd)
  | vldx (o : Opnd)
  | vmovsToG (o : Opnd)
  | vmovsToV (o : Opnd)
  | vtunp (o : Opnd)
  | vabs (o : Opnd)
  | vneg (o : Opnd)
  | vsat (o : Opnd)
  | vbcast (o : Opnd)
  | vcvt (o : Opnd)
  | vwidth (o : Opnd)
  | gang (o : Opnd)
  | ungang (o : Opnd)
  | vrcp (o : Opnd)
  | vrsq (o : Opnd)
  | vexp2 (o : Opnd)
  | vlog2 (o : Opnd)
  | vsincos (o : Opnd)
  | stbind (o : Opnd)
  | stbindc (o : Opnd)
  | stbindn (o : Opnd)
  | ststat (o : Opnd)
  | stunbind (o : Opnd)
  | cpy (o : Opnd)
  | cpy2 (o : Opnd)
  | cpyg (o : Opnd)
  | cpys (o : Opnd)
  | cpyt (o : Opnd)
  | inpop (o : Opnd)
  | inpeek (o : Opnd)
  | tdef (o : Opnd)
  | tstate (o : Opnd)
  | trel (o : Opnd)
  | mma (o : Opnd)
  | mmac (o : Opnd)
  | mtern (o : Opnd)
  | mlda (o : Opnd)
  | msta (o : Opnd)
  | mzero (o : Opnd)
  | mwait (o : Opnd)
  | mstat (o : Opnd)
  | fencex (o : Opnd)
  | fencexCopy (o : Opnd)
  | fencexMatrix (o : Opnd)
  | amo (o : Opnd)
  | lr (o : Opnd)
  | sc (o : Opnd)
  | waitrs (o : Opnd)
  | tadd (o : Opnd)
  | topen (o : Opnd)
  | tclose (o : Opnd)
  | tskip (o : Opnd)
  | tdrain (o : Opnd)
  | gsub (o : Opnd)
  | gunsub (o : Opnd)
  | gstat (o : Opnd)
  | gflush (o : Opnd)
  | bar (o : Opnd)
  | arrive (o : Opnd)
  | arriveRlx (o : Opnd)
  | bwait (o : Opnd)
  | bjoin (o : Opnd)
  | bleave (o : Opnd)
  | bstat (o : Opnd)
  | wake (o : Opnd)
  | sleep (o : Opnd)
  | fence (o : Opnd)
  | ifence (o : Opnd)
  | salloc (o : Opnd)
  | sfree (o : Opnd)
  | sop (o : Opnd)
  | swait (o : Opnd)
  | phasec (o : Opnd)
  | phasex (o : Opnd)
  | send (o : Opnd)
  | recv (o : Opnd)
  | launch (o : Opnd)
  | launchW (o : Opnd)
  | larm (o : Opnd)
  | ldisarm (o : Opnd)
  | lwait (o : Opnd)
  | trap (o : Opnd)
  | crd (o : Opnd)
  | cwr (o : Opnd)
  | eret (o : Opnd)
  | wfi (o : Opnd)
  | yield (o : Opnd)
  | halt (o : Opnd)
  | rng (o : Opnd)
  | time (o : Opnd)
  | plbinv (o : Opnd)
  | handlerFrameGrant (core : Nat)
  | loadDataReturn (frame seq : Nat)
  | lateOutcomeTrap (frame : Nat)
  | checkerRetry (frame : Nat)
  | coreRetire (frame : Nat)
  | packageFatal
  | icacheFillInstall (cluster line : Nat)
  | freezeRequest (core : Nat)
  | bankGrant (cluster bank : Nat)
  | waitrsWatchReport (frame seq : Nat)
  | l1mapWrite (w : Writer) (cluster : Nat) (v : BitVec 64)
  | l1mapChange (cluster : Nat)
  | streamGeneratorRead (frame unit : Nat)
  | streamStorePerform (frame unit : Nat)
  | copyTake (tile : Nat) (urg : Bool)
  | copyBurstCheck (tile : Nat) (urg ok : Bool)
  | copyCompletion (tile : Nat) (urg : Bool)
  | commandStallTimeout (tile : Nat) (matrix urg : Bool) (place : Nat)
  | fillLastWrite (tile : Nat) (matrix urg : Bool)
  | readerEnd (tile : Nat) (matrix urg : Bool)
  | matrixTake (tile : Nat) (urg : Bool)
  | matrixStepCheckFail (tile : Nat) (urg again : Bool) (block : Nat)
  | matrixCompletion (tile : Nat) (urg : Bool)
  | barrierArrival (place : Nat)
  | phaseCompletion (place : Nat)
  | wakeDelivery (place : Nat)
  | ticketArrival (frame slot : Nat)
  | ticketRepresent (frame slot : Nat)
  | ticketApplication (window elem : Nat)
  | ticketGapTimeout (window : Nat)
  | glazeInitialCopy (tile entry : Nat)
  | glazeBatchTimeout (tile entry : Nat)
  | glazeBatchApply (tile entry : Nat)
  | sliceGrant (frame seq part : Nat)
  | l2MissFill (slice line : Nat)
  | pageWalk (slice page : Nat) (crumb : Bool)
  | plbMissWalk (frame va : Nat)
  | hbmWriteAccept (frame seq part : Nat)
  | hostStoreComplete (frame seq part : Nat) (ok : Bool)
  | l2Scrub (slice line : Nat) (bad : List Nat)
  | meshLoadWindow (die load : Nat)
  | fresumeRetry (w : Writer) (die fid : Nat)
  | fresumeAbandon (w : Writer) (die fid : Nat)
  | l2opClean (w : Writer) (die part : Nat)
  | l2opFlush (w : Writer) (die part : Nat)
  | l2opUnpin (w : Writer) (die part : Nat)
  | l2opXinv (w : Writer) (die part : Nat)
  | l2opEnd (die part : Nat)
  | registerWrite (w : Writer) (addr : Nat) (v : BitVec 64)
  | lkill (w : Writer) (v : BitVec 64)
  | rectReset (w : Writer) (rect : Nat)
  | rectResetRelease (rect : Nat) (failed : List Nat)
  | uncorrectableStateError (cluster : Nat)
  | tctlRel (w : Writer) (tag : Nat)
  | tctlInvalidate (w : Writer) (tag : Nat) (v : BitVec 64)
  | hostPost (fn offset : Nat) (data : Words) (damaged : Bool)
  | unitPost (place : Nat)
  | templateFire (tag : Nat)
  | scheduleDecision (die : Nat)
  | launchPlacement (entry : Nat)
  | deadlineMiss (entry : Nat)
  | launchCompletion (entry : Nat)
  | channelItemArrival (place : Nat)
  | prstGo (w : Writer) (part : Nat)
  | lcreq (w : Writer) (v : BitVec 64)
  | packageReset
  | hbmScrubEnd
  | attestationRequest (nonce : BitVec 256)
  | imageLoadRequest (slot : Nat) (places : List Nat)
  | qreqSet (w : Writer) (cluster : Nat) (v : BitVec 64)
  | qreqClear (w : Writer) (cluster : Nat) (v : BitVec 64)
  | quiesceComplete (cluster : Nat)
  | save (w : Writer) (cluster : Nat) (v : BitVec 64)
  | ckg (w : Writer) (cluster : Nat) (v : BitVec 64)
  | railg (w : Writer) (cluster : Nat) (v : BitVec 64)
  | cwake (w : Writer) (cluster : Nat)
  | wakeRestoreComplete (cluster : Nat)
  | thermalStep (level tj : Nat)
  | thermalShutdown
  | d2dModuleFail (module : Nat)
  | ringConfig (die tag : Nat)
  | ringConfirm (agree : Bool)
  | ringSend (die tag : Nat)
  | allred (die tag : Nat)
  | ringQuery (die tag : Nat)
  | ringPostReceive (die tag : Nat) (data : RingPost) (damaged : Bool)
  | ringCommandComplete (die job : Nat) (answer : Nat)
  | flitNakReplay (die : Nat)
  | laneFailure (die : Nat) (receive : Bool) (lane : Nat)
  | allredTimeout (die job : Nat)
  | allredAbort (die job : Nat)
  | illegalInstruction (frame : Nat) (chain : List (BitVec 16))
  | instructionFetchFault (frame addr cause : Nat)
  | waitrsReread (frame seq : Nat)
  | d2dFlitReplay
  | ringLinkUp (die : Nat)
  | reduceChunkArrival (die job chunk : Nat) (final : Bool) (data : RingChunk) (poison : BitVec 8) (flags flel : Nat) (engfail : Bool)
  | hostMailboxWrite (offset : Nat) (data : Bytes)
  | hostReadComplete (frame seq part : Nat) (ok : Bool) (data : BitVec 64)
  deriving DecidableEq, Repr

end Sys2Proof
end

