-- ==== Sys2Proof/Machine/Form.lean ====
section
/-!
DEFINITION. Machine/Form.lean: the encoding tables: each instruction's page, major and minor code, the prefix kinds it
takes (spec/03 R63, R70–R73) and the reserved-field and permitted-value checks its entry makes on the chain (check 5 of
spec/03 R67).  The decoder and the encoder both read this one table.
-/
namespace Sys2Proof

/-- Concatenates PXI payloads with `k` low bits from the base (spec/03 R59): the unsigned value. -/
def Opnd.payload (i : List (BitVec 10)) (low : Nat) (k : Nat) : Nat :=
  (i.foldl (fun acc p => acc * 1024 + p.toNat) 0) * 2 ^ k + low

/-- Sign-extends the low `n` bits of `x` to an integer; 0 bits give 0 (spec/00 R11). -/
def sextNat (x n : Nat) : Int :=
  let y := x % 2 ^ n
  if n = 0 then 0 else if y < 2 ^ (n - 1) then (y : Int) else (y : Int) - (2 ^ n : Nat)

/-- RI immediate read unsigned (spec/03 R59). -/
def Opnd.uimm (o : Opnd) : Nat := Opnd.payload o.i o.b.toNat 5
/-- RI immediate, sign-extended (spec/03 R59). -/
def Opnd.simm (o : Opnd) : Int := sextNat o.uimm (5 + 10 * o.i.length)
/-- MEM offset or conditional-branch displacement: the PXI payloads alone (spec/03 R59). -/
def Opnd.poff (o : Opnd) : Int := sextNat (Opnd.payload o.i 0 0) (10 * o.i.length)
/-- BR displacement: the PXI payloads, then A, then B (spec/03 R59). -/
def Opnd.bdisp (o : Opnd) : Int :=
  sextNat (Opnd.payload o.i (o.a.toNat * 32 + o.b.toNat) 10) (10 + 10 * o.i.length)

/-- Element type, INT32 by default (spec/03 R61). -/
def Opnd.et (o : Opnd) : Machine.ET := match o.v with | some v => .ofCode v.et.toNat | none => .int32
/-- Second element type code, 0 by default. -/
def Opnd.et2 (o : Opnd) : Nat := match o.v with | some v => v.et2.toNat | none => 0
/-- Zeroing predication. -/
def Opnd.zm (o : Opnd) : Bool := match o.v with | some v => v.zm == 1#1 | none => false
/-- Inverted governing predicate. -/
def Opnd.pinv (o : Opnd) : Bool := match o.v with | some v => v.pinv == 1#1 | none => false
/-- Third register or number. -/
def Opnd.c (o : Opnd) : BitVec 5 := match o.r with | some r => r.c | none => 0
/-- PXR.SEL. -/
def Opnd.sel (o : Opnd) : Nat := match o.r with | some r => r.sel.toNat | none => 0
/-- Governing predicate number. -/
def Opnd.pg (o : Opnd) : Nat := match o.r with | some r => r.pg.toNat | none => 0
/-- PXM.SCOPE, system by default. -/
def Opnd.scope (o : Opnd) : Nat := match o.m with | some m => m.scope.toNat | none => 6
/-- PXM.ORD: a strong access. -/
def Opnd.strong (o : Opnd) : Bool := match o.m with | some m => m.ord == 1#1 | none => false
/-- PXM.CP. -/
def Opnd.cp (o : Opnd) : Nat := match o.m with | some m => m.cp.toNat | none => 0
/-- PXM.BL: burst length minus one, 0 for a single access. -/
def Opnd.bl (o : Opnd) : Nat := match o.m with | some m => m.bl.toNat | none => 0
/-- The urgent queue bit of an engine command, PXR.SEL [5] (spec/03 R72). -/
def Opnd.urg (o : Opnd) : Bool := o.sel % 2 == 1
/-- A PXR prefix stands in the chain. -/
def Opnd.hasR (o : Opnd) : Bool := o.r.isSome

namespace Machine

/-- Whether an instruction takes a prefix kind: not at all, optionally, or always (spec/03 R63). -/
inductive Take where
  | no | may | must
  deriving DecidableEq, Repr

/-- What a breach found in the operand fields records in DETAIL [4:3] (spec/03 R65). -/
inductive Bad where
  | reserved   -- 0b10: a nonzero reserved field
  | value      -- 0b11: a value not permitted
  deriving DecidableEq, Repr

/-- The type groups of spec/07 R148 that the page-1 instructions permit. -/
inductive EtGroup where
  | addSub | mul | minMax | any | shl | mac | flt | cmul | dot | cf16
  deriving DecidableEq, Repr

/-- The permitted element types of spec/07 R148. -/
def EtGroup.permits : EtGroup → ET → Bool
  | .addSub, t => t.isInt || t.isCint || t.isFlt || t == .cf16
  | .mul, t => t.isInt || t.isFlt
  | .minMax, t => t.isInt || t.isFlt
  | .any, _ => true
  | .shl, t => t.isInt || t.isCint
  | .mac, t => t.isInt
  | .flt, t => t.isFlt
  | .cmul, t => t.isCint || t == .cf16
  | .dot, t => t == .int8 || t == .n8 || t == .int16 || t == .n16 || t == .e4m3 || t == .e5m2 || t == .fp16 || t == .bf16
  | .cf16, t => t == .cf16

/-- The first breach of two checks; a reserved field is reported before a value (log 3). -/
def Bad.first (r v : Bool) : Option Bad := if r then some .reserved else if v then some .value else none

/-- A breach already found, else the value breach `v`; a reserved field stands first. -/
def Bad.orValue (x : Option Bad) (v : Bool) : Option Bad :=
  match x with
  | some b => some b
  | none => if v then some .value else none

/-- RET, the pads and other instructions that require A = 0 (spec/04 R107 and the entries of page 3). -/
def aZeroBad (o : Opnd) : Option Bad := Bad.first (o.a ≠ 0) false
/-- Pages 0 and 3: SEL and PG of a PXR are zero (spec/03 R61, spec/04 R88). -/
def scalarBad (o : Opnd) : Option Bad := Bad.first (o.sel ≠ 0 || o.pg ≠ 0) false
/-- A PXR accepted only with every field 0 (MWAIT, spec/11 R262; TCLOSE, GUNSUB and GSTAT, spec/13). -/
def pxrZeroBad (o : Opnd) : Option Bad := Bad.first false (o.c ≠ 0 || o.sel ≠ 0 || o.pg ≠ 0)
/-- BFX and BFI (spec/04 R92). -/
def bitFieldBad (x : Bool) (o : Opnd) : Option Bad :=
  let u := o.uimm
  Bad.orValue (scalarBad o)
    (u % 64 + (u / 64 % 64 + 1) > 64 || (!x && u / 4096 % 2 == 1) || u / 8192 ≠ 0)
/-- Scalar accesses, LR, SC and WAITRS: BL is 0 and SCOPE is assigned (spec/04 R97, spec/09 R214). -/
def memBad (o : Opnd) : Option Bad := Bad.first false (o.bl ≠ 0 || o.scope == 7)
/-- The PXV and PXR fields of an element-wise page-1 instruction with types `g` (spec/07 R148, R150). -/
def arithBad (g : EtGroup) (o : Opnd) : Option Bad :=
  Bad.first false (!g.permits o.et || o.et2 ≠ 0 || o.sel == 3)
/-- ZM must be zero (spec/07 R149). -/
def noZmBad (x : Option Bad) (o : Opnd) : Option Bad := Bad.orValue x o.zm
/-- SEL is not permitted here (spec/07 R150). -/
def noSelBad (x : Option Bad) (o : Opnd) : Option Bad := Bad.orValue x (o.sel ≠ 0)
/-- VCMP (spec/07 R148, R161): LT and LE take no complex type. -/
def cmpBad (o : Opnd) : Option Bad :=
  let t := o.et
  let cplx := t.isCint || t == .cf16
  Bad.first false (o.et2 ≠ 0 || o.sel == 3 || (cplx && o.a.toNat / 8 ≥ 2))
/-- An instruction that is not governed: PG, PINV and ZM are zero, and SEL is not permitted (spec/07 R149, R150). -/
def ungovernedBad (o : Opnd) : Option Bad :=
  Bad.first false (o.pg ≠ 0 || o.pinv || o.zm || o.sel ≠ 0 || o.et2 ≠ 0)
/-- VWHILE (spec/07 R162). -/
def whileBad (o : Opnd) : Option Bad := if o.a.toNat / 8 ≠ 0 then some .reserved else ungovernedBad o
/-- VWIDTH (spec/07 R163): every field of a PXR is zero. -/
def widthBad (o : Opnd) : Option Bad := Bad.orValue (ungovernedBad o) (o.c ≠ 0)
/-- VLD and VST (spec/07 R149, R166): C is zero, and a burst is not governed and not packed. -/
def vldBad (store : Bool) (o : Opnd) : Option Bad :=
  Bad.first (o.c ≠ 0)
    (o.et2 ≠ 0 || o.sel ≠ 0 || o.scope == 7 || (store && o.zm) ||
      (o.bl ≠ 0 && (o.zm || o.pinv || o.pg ≠ 0 || o.et.is12)))
/-- VLDS, VSTS and VLDX (spec/07 R148, R167). -/
def stridedBad (store : Bool) (o : Opnd) : Option Bad :=
  Bad.first false (o.et.is12 || o.et2 ≠ 0 || o.sel ≠ 0 || o.scope == 7 || o.bl ≠ 0 || (store && o.zm))
/-- VSHL and VSHR by an immediate (spec/07 R156). -/
def shiftImmBad (o : Opnd) : Option Bad :=
  Bad.orValue (noSelBad (arithBad .shl o) o) (o.uimm > 0xFFFF)
/-- VTUNP: the part lies in 0 to 5w/8 − 1 (spec/07 R171). -/
def tunpBad (o : Opnd) : Option Bad :=
  let t := o.et
  Bad.first false ((t ≠ .int8 && t ≠ .int16 && t ≠ .int32) || o.et2 ≠ 0 || o.sel ≠ 0 || o.uimm ≥ 5 * t.width / 8)
/-- VSAT: ET2 is a real integer type (spec/07 R148). -/
def satBad (o : Opnd) : Option Bad :=
  Bad.first false (!(o.et.isInt || o.et.isCint) || !(ET.ofCode o.et2).isInt || o.sel ≠ 0)
/-- VBCAST: SEL 0b10 alone names a g source (spec/07 R172). -/
def bcastBad (o : Opnd) : Option Bad := Bad.first false (o.et2 ≠ 0 || (o.sel ≠ 0 && o.sel ≠ 2))
/-- VCVT: both real or both complex (spec/07 R148). -/
def cvtBad (o : Opnd) : Option Bad :=
  let real (t : ET) := t.isInt || t.isFlt || t.isFp8
  let cplx (t : ET) := t.isCint || t == .cf16
  let d := o.et
  let s := ET.ofCode o.et2
  Bad.first false (!((real d && real s) || (cplx d && cplx s)) || o.sel ≠ 0)
/-- STBIND (spec/08): A [4:2] is zero, and SEL and PG are 0. -/
def stbindBad (o : Opnd) : Option Bad := Bad.first (o.a.toNat / 4 ≠ 0) (o.sel ≠ 0 || o.pg ≠ 0)
/-- A [4:k] is zero (STUNBIND, spec/08). -/
def unitBad (k : Nat) (o : Opnd) : Option Bad := Bad.first (o.a.toNat / 2 ^ k ≠ 0) false
/-- STBINDC: channel 0 to 63 (spec/08). -/
def stbindcBad (o : Opnd) : Option Bad := Bad.first (o.a.toNat / 4 ≠ 0) (o.uimm > 63)
/-- STBINDN: A [4:3] zero, side 0 or 1 (spec/08). -/
def stbindnBad (o : Opnd) : Option Bad := Bad.first (o.a.toNat / 8 ≠ 0) (o.uimm > 1)
/-- STSTAT: unit 0 to 3 (spec/08). -/
def ststatBad (o : Opnd) : Option Bad := Bad.first false (o.uimm > 3)
/-- The copy commands (spec/10 R241): `pair` when g(C + 1) is read. -/
def copyBad (pair : Bool) (o : Opnd) : Option Bad :=
  Bad.first (o.pg ≠ 0) (o.scope == 7 || o.sel ≥ 2 || (pair && o.c == 31))
/-- An accumulator number that no queue permits (spec/11 R242). -/
def accBad (n : Nat) : Bool := !(n ≤ 3 || n == 8 || n == 9)
/-- The operand pairs of spec/11 R244. -/
def pairOk (tern : Bool) (et et2 : Nat) : Bool :=
  let same := et2 == 0 || et2 == et
  if tern then et == 0 && et2 == 0
  else if et == 0 || et == 0xB || et == 0xC || et == 7 || et == 0xD then same
  else if et == 0xE || et == 0xF then et2 == 0 || et2 == 0xE || et2 == 0xF
  else false
/-- MMA, MMAC and MTERN (spec/11 R242, R257); the pair is checked after the queue (`State.mmaIssue`).  PXR [6] = 1
is a value that is not permitted: spec/11, before R257, gives it DETAIL [4:3] = 0b11. -/
def mmaBad (o : Opnd) : Option Bad :=
  Bad.first (o.pg ≠ 0) (o.sel ≥ 2 || accBad o.a.toNat || o.zm || o.pinv)
/-- MLDA and MSTA (spec/11 R242, R260): an MLDA has ORD = 0. -/
def mldaBad (load : Bool) (o : Opnd) : Option Bad :=
  Bad.first (o.pg ≠ 0) (o.sel ≥ 2 || accBad o.a.toNat || o.bl ≠ 0 || o.scope == 7 || (load && o.strong))
/-- MZERO (spec/11 R261). -/
def mzeroBad (o : Opnd) : Option Bad := Bad.first (o.pg ≠ 0 || o.c ≠ 0) (o.sel ≥ 2 || accBad o.a.toNat)
/-- MSTAT: every field of a PXR is zero (spec/11 R263); a nonzero PG is a reserved field, as in every matrix instruction (spec/11,
before R257), and MWAIT alone is given another kind (R262). -/
def mstatBad (o : Opnd) : Option Bad := Bad.first (o.pg ≠ 0) (o.c ≠ 0 || o.sel ≠ 0)
/-- MWAIT (spec/11 R262). -/
def mwaitBad (o : Opnd) : Option Bad := Bad.orValue (pxrZeroBad o) (accBad o.a.toNat && o.a ≠ 31)
/-- The element types that an AMO function permits; `none` for the 64-bit functions, which take no PXV (spec/09 R211). -/
def amoTypes (fn : Nat) (t : ET) : Bool :=
  let i := t == .int16 || t == .n16 || t == .int32 || t == .n32
  let f := t == .fp16 || t == .bf16 || t == .fp32
  if fn == 0 || fn == 1 || fn == 7 then i || f || t == .ci16 || t == .cf16
  else if fn == 2 || fn == 3 then i || f
  else i
/-- AMO (spec/09 R210). -/
def amoBad (o : Opnd) : Option Bad :=
  let fn := o.b.toNat
  Bad.first (o.sel ≠ 0 || o.pg ≠ 0)
    (o.bl ≠ 0 || o.scope == 7 || o.zm || o.pinv || o.et2 ≠ 0 ||
      (if fn ≥ 16 then o.v.isSome else !amoTypes fn o.et) ||
      ((fn == 7 || fn == 0x19) && o.a == 31))
/-- TADD (spec/13): the ticketed types, and no predicate field. -/
def taddBad (o : Opnd) : Option Bad :=
  let t := o.et
  Bad.first (o.sel ≠ 0 || o.pg ≠ 0)
    (!(t == .int32 || t == .n32 || t == .ci16 || t.isFlt || t == .cf16) || o.et2 ≠ 0 || o.zm || o.pinv || o.bl ≠ 0 || o.scope == 7)
/-- FENCE: SCOPE alone (spec/12 R278). -/
def fenceBad (o : Opnd) : Option Bad :=
  Bad.first (o.a ≠ 0) (o.strong || o.cp ≠ 0 || o.bl ≠ 0 || o.scope == 7)
/-- TRAP: a 16-bit code (spec/05 R121). -/
def trapBad (o : Opnd) : Option Bad := Bad.first (o.a ≠ 0) (o.uimm > 0xFFFF)
/-- CRD and CWR: a control-register number that R21 does not reserve (spec/01 R21). -/
def creBad (n : BitVec 5) : Option Bad := Bad.first false (n == 0xF || n.toNat ≥ 0x14)

/-- One row of the opcode maps (spec/03 R70–R73): its codes, the prefix kinds it takes, and the breach that this
instruction's own operand fields hold. -/
structure Form where
  page  : Nat
  major : Nat
  /-- the code in field B of an RF instruction -/
  minor : Option Nat
  pxi : Take
  pxr : Take
  pxv : Take
  pxm : Take
  bad : Option Bad
  deriving DecidableEq, Repr


/-- The row of the opcode maps that an instruction has, with the check of its own fields; a device event has none. -/
def form : Instr → Option Form
  | .add o => some ⟨0, 0x01, none, .no, .may, .no, .no, scalarBad o⟩
  | .sub o => some ⟨0, 0x02, none, .no, .may, .no, .no, scalarBad o⟩
  | .mul o => some ⟨0, 0x03, none, .no, .may, .no, .no, scalarBad o⟩
  | .mulh o => some ⟨0, 0x04, none, .no, .may, .no, .no, scalarBad o⟩
  | .div o => some ⟨0, 0x05, none, .no, .may, .no, .no, scalarBad o⟩
  | .divn o => some ⟨0, 0x06, none, .no, .may, .no, .no, scalarBad o⟩
  | .rem o => some ⟨0, 0x07, none, .no, .may, .no, .no, scalarBad o⟩
  | .remn o => some ⟨0, 0x08, none, .no, .may, .no, .no, scalarBad o⟩
  | .and o => some ⟨0, 0x09, none, .no, .may, .no, .no, scalarBad o⟩
  | .or o => some ⟨0, 0x0A, none, .no, .may, .no, .no, scalarBad o⟩
  | .xor o => some ⟨0, 0x0B, none, .no, .may, .no, .no, scalarBad o⟩
  | .shl o => some ⟨0, 0x0C, none, .no, .may, .no, .no, scalarBad o⟩
  | .shr o => some ⟨0, 0x0D, none, .no, .may, .no, .no, scalarBad o⟩
  | .sar o => some ⟨0, 0x0E, none, .no, .may, .no, .no, scalarBad o⟩
  | .min o => some ⟨0, 0x0F, none, .no, .may, .no, .no, scalarBad o⟩
  | .max o => some ⟨0, 0x10, none, .no, .may, .no, .no, scalarBad o⟩
  | .slt o => some ⟨0, 0x11, none, .no, .may, .no, .no, scalarBad o⟩
  | .sltn o => some ⟨0, 0x12, none, .no, .may, .no, .no, scalarBad o⟩
  | .mov _ => some ⟨0, 0x13, none, .no, .no, .no, .no, none⟩
  | .addI o => some ⟨0, 0x14, none, .may, .may, .no, .no, scalarBad o⟩
  | .andI o => some ⟨0, 0x15, none, .may, .may, .no, .no, scalarBad o⟩
  | .orI o => some ⟨0, 0x16, none, .may, .may, .no, .no, scalarBad o⟩
  | .xorI o => some ⟨0, 0x17, none, .may, .may, .no, .no, scalarBad o⟩
  | .shlI o => some ⟨0, 0x18, none, .may, .may, .no, .no, scalarBad o⟩
  | .shrI o => some ⟨0, 0x19, none, .may, .may, .no, .no, scalarBad o⟩
  | .sarI o => some ⟨0, 0x1A, none, .may, .may, .no, .no, scalarBad o⟩
  | .sltI o => some ⟨0, 0x1B, none, .may, .may, .no, .no, scalarBad o⟩
  | .sltnI o => some ⟨0, 0x1C, none, .may, .may, .no, .no, scalarBad o⟩
  | .li _ => some ⟨0, 0x1D, none, .may, .no, .no, .no, none⟩
  | .bfx o => some ⟨0, 0x1E, none, .may, .may, .no, .no, bitFieldBad true o⟩
  | .bfi o => some ⟨0, 0x1F, none, .may, .must, .no, .no, bitFieldBad false o⟩
  | .clz o => some ⟨0, 0x20, some 0, .no, .may, .no, .no, scalarBad o⟩
  | .popc o => some ⟨0, 0x20, some 1, .no, .may, .no, .no, scalarBad o⟩
  | .sextB o => some ⟨0, 0x20, some 2, .no, .may, .no, .no, scalarBad o⟩
  | .sextH o => some ⟨0, 0x20, some 3, .no, .may, .no, .no, scalarBad o⟩
  | .sextW o => some ⟨0, 0x20, some 4, .no, .may, .no, .no, scalarBad o⟩
  | .zextB o => some ⟨0, 0x20, some 5, .no, .may, .no, .no, scalarBad o⟩
  | .zextH o => some ⟨0, 0x20, some 6, .no, .may, .no, .no, scalarBad o⟩
  | .zextW o => some ⟨0, 0x20, some 7, .no, .may, .no, .no, scalarBad o⟩
  | .jr _ => some ⟨0, 0x21, some 0, .no, .no, .no, .no, none⟩
  | .callr _ => some ⟨0, 0x21, some 1, .no, .no, .no, .no, none⟩
  | .ret o => some ⟨0, 0x21, some 2, .no, .no, .no, .no, aZeroBad o⟩
  | .padJ o => some ⟨0, 0x21, some 4, .no, .no, .no, .no, aZeroBad o⟩
  | .padC o => some ⟨0, 0x21, some 5, .no, .no, .no, .no, aZeroBad o⟩
  | .padH o => some ⟨0, 0x21, some 6, .no, .no, .no, .no, aZeroBad o⟩
  | .padL o => some ⟨0, 0x21, some 7, .no, .no, .no, .no, aZeroBad o⟩
  | .lea _ => some ⟨0, 0x22, none, .may, .no, .no, .no, none⟩
  | .lrec _ => some ⟨0, 0x23, none, .may, .no, .no, .no, none⟩
  | .ldb o => some ⟨0, 0x24, none, .may, .no, .no, .may, memBad o⟩
  | .ldbn o => some ⟨0, 0x25, none, .may, .no, .no, .may, memBad o⟩
  | .ldh o => some ⟨0, 0x26, none, .may, .no, .no, .may, memBad o⟩
  | .ldhn o => some ⟨0, 0x27, none, .may, .no, .no, .may, memBad o⟩
  | .ldw o => some ⟨0, 0x28, none, .may, .no, .no, .may, memBad o⟩
  | .ldwn o => some ⟨0, 0x29, none, .may, .no, .no, .may, memBad o⟩
  | .ldd o => some ⟨0, 0x2A, none, .may, .no, .no, .may, memBad o⟩
  | .stb o => some ⟨0, 0x2B, none, .may, .no, .no, .may, memBad o⟩
  | .sth o => some ⟨0, 0x2C, none, .may, .no, .no, .may, memBad o⟩
  | .stw o => some ⟨0, 0x2D, none, .may, .no, .no, .may, memBad o⟩
  | .std o => some ⟨0, 0x2E, none, .may, .no, .no, .may, memBad o⟩
  | .beq _ => some ⟨0, 0x2F, none, .must, .no, .no, .no, none⟩
  | .bne _ => some ⟨0, 0x30, none, .must, .no, .no, .no, none⟩
  | .blt _ => some ⟨0, 0x31, none, .must, .no, .no, .no, none⟩
  | .bge _ => some ⟨0, 0x32, none, .must, .no, .no, .no, none⟩
  | .bltn _ => some ⟨0, 0x33, none, .must, .no, .no, .no, none⟩
  | .bgen _ => some ⟨0, 0x34, none, .must, .no, .no, .no, none⟩
  | .bp _ => some ⟨0, 0x35, none, .may, .no, .no, .no, none⟩
  | .jmp _ => some ⟨0, 0x36, none, .may, .no, .no, .no, none⟩
  | .call _ => some ⟨0, 0x37, none, .may, .no, .no, .no, none⟩
  | .vadd o => some ⟨1, 0x01, none, .no, .may, .may, .no, arithBad .addSub o⟩
  | .vsub o => some ⟨1, 0x02, none, .no, .may, .may, .no, arithBad .addSub o⟩
  | .vmul o => some ⟨1, 0x03, none, .no, .may, .may, .no, arithBad .mul o⟩
  | .vmin o => some ⟨1, 0x04, none, .no, .may, .may, .no, arithBad .minMax o⟩
  | .vmax o => some ⟨1, 0x05, none, .no, .may, .may, .no, arithBad .minMax o⟩
  | .vand o => some ⟨1, 0x06, none, .no, .may, .may, .no, arithBad .any o⟩
  | .vor o => some ⟨1, 0x07, none, .no, .may, .may, .no, arithBad .any o⟩
  | .vxor o => some ⟨1, 0x08, none, .no, .may, .may, .no, arithBad .any o⟩
  | .vshl o => some ⟨1, 0x09, none, .no, .may, .may, .no, arithBad .shl o⟩
  | .vshr o => some ⟨1, 0x0A, none, .no, .may, .may, .no, arithBad .shl o⟩
  | .vshlI o => some ⟨1, 0x1E, none, .may, .may, .may, .no, shiftImmBad o⟩
  | .vshrI o => some ⟨1, 0x1F, none, .may, .may, .may, .no, shiftImmBad o⟩
  | .vcmul o => some ⟨1, 0x0B, none, .no, .may, .may, .no, arithBad .cmul o⟩
  | .vmac o => some ⟨1, 0x0C, none, .no, .must, .may, .no, arithBad .mac o⟩
  | .vfma o => some ⟨1, 0x0D, none, .no, .must, .may, .no, arithBad .flt o⟩
  | .vdot o => some ⟨1, 0x0E, none, .no, .must, .may, .no, arithBad .dot o⟩
  | .vcmac o => some ⟨1, 0x0F, none, .no, .must, .may, .no, arithBad .cmul o⟩
  | .vsel o => some ⟨1, 0x10, none, .no, .must, .may, .no, noZmBad (arithBad .any o) o⟩
  | .vcmp o => some ⟨1, 0x11, none, .no, .must, .may, .no, cmpBad o⟩
  | .vwhile o => some ⟨1, 0x12, none, .no, .must, .may, .no, whileBad o⟩
  | .vshuf o => some ⟨1, 0x13, none, .no, .must, .may, .no, noSelBad (arithBad .any o) o⟩
  | .vzip o => some ⟨1, 0x14, none, .no, .must, .may, .no, noSelBad (arithBad .any o) o⟩
  | .vunzip o => some ⟨1, 0x15, none, .no, .must, .may, .no, noSelBad (arithBad .any o) o⟩
  | .vredAdd o => some ⟨1, 0x16, none, .no, .may, .may, .no, noZmBad (arithBad .addSub o) o⟩
  | .vredMin o => some ⟨1, 0x17, none, .no, .may, .may, .no, noZmBad (arithBad .minMax o) o⟩
  | .vredMax o => some ⟨1, 0x18, none, .no, .may, .may, .no, noZmBad (arithBad .minMax o) o⟩
  | .vld o => some ⟨1, 0x19, none, .may, .may, .may, .may, vldBad false o⟩
  | .vst o => some ⟨1, 0x1A, none, .may, .may, .may, .may, vldBad true o⟩
  | .vlds o => some ⟨1, 0x1B, none, .may, .must, .may, .may, stridedBad false o⟩
  | .vsts o => some ⟨1, 0x1C, none, .may, .must, .may, .may, stridedBad true o⟩
  | .vldx o => some ⟨1, 0x1D, none, .may, .must, .may, .may, stridedBad false o⟩
  | .vmovsToG o => some ⟨1, 0x20, none, .may, .must, .may, .no, ungovernedBad o⟩
  | .vmovsToV o => some ⟨1, 0x21, none, .may, .must, .may, .no, ungovernedBad o⟩
  | .vtunp o => some ⟨1, 0x22, none, .may, .must, .may, .no, tunpBad o⟩
  | .vabs o => some ⟨1, 0x23, some 0, .no, .may, .may, .no, noSelBad (arithBad .minMax o) o⟩
  | .vneg o => some ⟨1, 0x23, some 1, .no, .may, .may, .no, noSelBad (arithBad .addSub o) o⟩
  | .vsat o => some ⟨1, 0x23, some 2, .no, .may, .may, .no, satBad o⟩
  | .vbcast o => some ⟨1, 0x23, some 3, .no, .may, .may, .no, bcastBad o⟩
  | .vcvt o => some ⟨1, 0x23, some 4, .no, .may, .may, .no, cvtBad o⟩
  | .vwidth o => some ⟨1, 0x23, some 5, .no, .may, .may, .no, widthBad o⟩
  | .gang o => some ⟨1, 0x23, some 6, .no, .no, .no, .no, aZeroBad o⟩
  | .ungang o => some ⟨1, 0x23, some 7, .no, .no, .no, .no, aZeroBad o⟩
  | .vrcp o => some ⟨1, 0x24, some 0, .no, .may, .may, .no, noSelBad (arithBad .flt o) o⟩
  | .vrsq o => some ⟨1, 0x24, some 1, .no, .may, .may, .no, noSelBad (arithBad .flt o) o⟩
  | .vexp2 o => some ⟨1, 0x24, some 2, .no, .may, .may, .no, noSelBad (arithBad .flt o) o⟩
  | .vlog2 o => some ⟨1, 0x24, some 3, .no, .may, .may, .no, noSelBad (arithBad .flt o) o⟩
  | .vsincos o => some ⟨1, 0x24, some 4, .no, .may, .may, .no, noSelBad (arithBad .cf16 o) o⟩
  | .stbind o => some ⟨2, 0x01, none, .no, .must, .no, .no, stbindBad o⟩
  | .stbindc o => some ⟨2, 0x02, none, .may, .no, .no, .no, stbindcBad o⟩
  | .stbindn o => some ⟨2, 0x03, none, .may, .no, .no, .no, stbindnBad o⟩
  | .ststat o => some ⟨2, 0x04, none, .may, .no, .no, .no, ststatBad o⟩
  | .stunbind o => some ⟨2, 0x05, some 0, .no, .no, .no, .no, unitBad 2 o⟩
  | .cpy o => some ⟨2, 0x06, none, .no, .must, .no, .may, copyBad false o⟩
  | .cpy2 o => some ⟨2, 0x07, none, .no, .must, .no, .may, copyBad true o⟩
  | .cpyg o => some ⟨2, 0x08, none, .no, .must, .no, .may, copyBad true o⟩
  | .cpys o => some ⟨2, 0x09, none, .no, .must, .no, .may, copyBad true o⟩
  | .cpyt o => some ⟨2, 0x0A, none, .no, .must, .no, .may, copyBad true o⟩
  | .inpop _ => some ⟨2, 0x0B, some 0, .no, .no, .no, .no, none⟩
  | .inpeek _ => some ⟨2, 0x0B, some 1, .no, .no, .no, .no, none⟩
  | .tdef o => some ⟨2, 0x0C, none, .no, .must, .no, .no, scalarBad o⟩
  | .tstate _ => some ⟨2, 0x0D, none, .no, .no, .no, .no, none⟩
  | .trel o => some ⟨2, 0x0E, none, .no, .no, .no, .no, aZeroBad o⟩
  | .mma o => some ⟨2, 0x0F, none, .no, .must, .may, .no, mmaBad o⟩
  | .mmac o => some ⟨2, 0x10, none, .no, .must, .may, .no, mmaBad o⟩
  | .mtern o => some ⟨2, 0x11, none, .no, .must, .may, .no, mmaBad o⟩
  | .mlda o => some ⟨2, 0x12, none, .no, .may, .no, .may, mldaBad true o⟩
  | .msta o => some ⟨2, 0x13, none, .no, .may, .no, .may, mldaBad false o⟩
  | .mzero o => some ⟨2, 0x14, some 0, .no, .may, .no, .no, mzeroBad o⟩
  | .mwait o => some ⟨2, 0x14, some 1, .no, .may, .no, .no, mwaitBad o⟩
  | .mstat o => some ⟨2, 0x14, some 2, .no, .may, .no, .no, mstatBad o⟩
  | .fencex o => some ⟨2, 0x15, some 0, .no, .no, .no, .no, aZeroBad o⟩
  | .fencexCopy o => some ⟨2, 0x15, some 1, .no, .no, .no, .no, aZeroBad o⟩
  | .fencexMatrix o => some ⟨2, 0x15, some 2, .no, .no, .no, .no, aZeroBad o⟩
  | .amo o => some ⟨3, 0x01, none, .no, .must, .may, .may, amoBad o⟩
  | .lr o => some ⟨3, 0x02, none, .no, .no, .no, .may, memBad o⟩
  | .sc o => some ⟨3, 0x03, none, .no, .no, .no, .may, memBad o⟩
  | .waitrs o => some ⟨3, 0x04, none, .no, .no, .no, .may, memBad o⟩
  | .tadd o => some ⟨3, 0x05, none, .no, .must, .may, .may, taddBad o⟩
  | .topen o => some ⟨3, 0x06, none, .no, .must, .no, .no, scalarBad o⟩
  | .tclose o => some ⟨3, 0x07, none, .no, .may, .no, .no, pxrZeroBad o⟩
  | .tskip o => some ⟨3, 0x08, none, .no, .must, .no, .no, scalarBad o⟩
  | .tdrain o => some ⟨3, 0x09, none, .no, .may, .no, .no, scalarBad o⟩
  | .gsub o => some ⟨3, 0x0A, none, .no, .must, .no, .no, scalarBad o⟩
  | .gunsub o => some ⟨3, 0x0B, none, .no, .may, .no, .no, pxrZeroBad o⟩
  | .gstat o => some ⟨3, 0x0C, none, .no, .may, .no, .no, pxrZeroBad o⟩
  | .gflush o => some ⟨3, 0x0D, some 0, .no, .no, .no, .no, aZeroBad o⟩
  | .bar _ => some ⟨3, 0x0E, some 0, .no, .no, .no, .no, none⟩
  | .arrive _ => some ⟨3, 0x0E, some 1, .no, .no, .no, .no, none⟩
  | .arriveRlx _ => some ⟨3, 0x0E, some 2, .no, .no, .no, .no, none⟩
  | .bwait _ => some ⟨3, 0x0E, some 3, .no, .no, .no, .no, none⟩
  | .bjoin _ => some ⟨3, 0x0E, some 4, .no, .no, .no, .no, none⟩
  | .bleave _ => some ⟨3, 0x0E, some 5, .no, .no, .no, .no, none⟩
  | .bstat _ => some ⟨3, 0x0F, none, .no, .no, .no, .no, none⟩
  | .wake _ => some ⟨3, 0x10, none, .no, .no, .no, .no, none⟩
  | .sleep _ => some ⟨3, 0x11, some 0, .no, .no, .no, .no, none⟩
  | .fence o => some ⟨3, 0x11, some 1, .no, .no, .no, .may, fenceBad o⟩
  | .ifence o => some ⟨3, 0x11, some 2, .no, .no, .no, .no, aZeroBad o⟩
  | .salloc _ => some ⟨3, 0x12, none, .no, .no, .no, .no, none⟩
  | .sfree _ => some ⟨3, 0x13, none, .no, .no, .no, .no, none⟩
  | .sop o => some ⟨3, 0x14, none, .no, .must, .no, .no, scalarBad o⟩
  | .swait _ => some ⟨3, 0x15, none, .no, .no, .no, .no, none⟩
  | .phasec o => some ⟨3, 0x16, some 0, .no, .no, .no, .no, aZeroBad o⟩
  | .phasex o => some ⟨3, 0x16, some 1, .no, .no, .no, .no, aZeroBad o⟩
  | .send _ => some ⟨3, 0x17, none, .no, .no, .no, .no, none⟩
  | .recv _ => some ⟨3, 0x18, none, .no, .no, .no, .no, none⟩
  | .launch _ => some ⟨3, 0x19, none, .no, .no, .no, .no, none⟩
  | .launchW _ => some ⟨3, 0x1A, none, .no, .no, .no, .no, none⟩
  | .larm o => some ⟨3, 0x1B, none, .no, .must, .no, .no, scalarBad o⟩
  | .ldisarm _ => some ⟨3, 0x1C, none, .no, .no, .no, .no, none⟩
  | .lwait _ => some ⟨3, 0x1D, none, .no, .no, .no, .no, none⟩
  | .trap o => some ⟨3, 0x1E, none, .may, .no, .no, .no, trapBad o⟩
  | .crd o => some ⟨3, 0x1F, none, .no, .no, .no, .no, creBad o.b⟩
  | .cwr o => some ⟨3, 0x20, none, .no, .no, .no, .no, creBad o.a⟩
  | .eret o => some ⟨3, 0x21, some 0, .no, .no, .no, .no, aZeroBad o⟩
  | .wfi o => some ⟨3, 0x21, some 1, .no, .no, .no, .no, aZeroBad o⟩
  | .yield o => some ⟨3, 0x21, some 2, .no, .no, .no, .no, aZeroBad o⟩
  | .halt o => some ⟨3, 0x21, some 3, .no, .no, .no, .no, aZeroBad o⟩
  | .rng _ => some ⟨3, 0x21, some 4, .no, .no, .no, .no, none⟩
  | .time _ => some ⟨3, 0x21, some 5, .no, .no, .no, .no, none⟩
  | .plbinv _ => some ⟨3, 0x21, some 6, .no, .no, .no, .no, none⟩
  | _ => none

/-- The operand fields of a thread instruction. -/
def opnd : Instr → Option Opnd
  | .add o => some o
  | .sub o => some o
  | .mul o => some o
  | .mulh o => some o
  | .div o => some o
  | .divn o => some o
  | .rem o => some o
  | .remn o => some o
  | .and o => some o
  | .or o => some o
  | .xor o => some o
  | .shl o => some o
  | .shr o => some o
  | .sar o => some o
  | .min o => some o
  | .max o => some o
  | .slt o => some o
  | .sltn o => some o
  | .mov o => some o
  | .addI o => some o
  | .andI o => some o
  | .orI o => some o
  | .xorI o => some o
  | .shlI o => some o
  | .shrI o => some o
  | .sarI o => some o
  | .sltI o => some o
  | .sltnI o => some o
  | .li o => some o
  | .bfx o => some o
  | .bfi o => some o
  | .clz o => some o
  | .popc o => some o
  | .sextB o => some o
  | .sextH o => some o
  | .sextW o => some o
  | .zextB o => some o
  | .zextH o => some o
  | .zextW o => some o
  | .jr o => some o
  | .callr o => some o
  | .ret o => some o
  | .padJ o => some o
  | .padC o => some o
  | .padH o => some o
  | .padL o => some o
  | .lea o => some o
  | .lrec o => some o
  | .ldb o => some o
  | .ldbn o => some o
  | .ldh o => some o
  | .ldhn o => some o
  | .ldw o => some o
  | .ldwn o => some o
  | .ldd o => some o
  | .stb o => some o
  | .sth o => some o
  | .stw o => some o
  | .std o => some o
  | .beq o => some o
  | .bne o => some o
  | .blt o => some o
  | .bge o => some o
  | .bltn o => some o
  | .bgen o => some o
  | .bp o => some o
  | .jmp o => some o
  | .call o => some o
  | .vadd o => some o
  | .vsub o => some o
  | .vmul o => some o
  | .vmin o => some o
  | .vmax o => some o
  | .vand o => some o
  | .vor o => some o
  | .vxor o => some o
  | .vshl o => some o
  | .vshr o => some o
  | .vshlI o => some o
  | .vshrI o => some o
  | .vcmul o => some o
  | .vmac o => some o
  | .vfma o => some o
  | .vdot o => some o
  | .vcmac o => some o
  | .vsel o => some o
  | .vcmp o => some o
  | .vwhile o => some o
  | .vshuf o => some o
  | .vzip o => some o
  | .vunzip o => some o
  | .vredAdd o => some o
  | .vredMin o => some o
  | .vredMax o => some o
  | .vld o => some o
  | .vst o => some o
  | .vlds o => some o
  | .vsts o => some o
  | .vldx o => some o
  | .vmovsToG o => some o
  | .vmovsToV o => some o
  | .vtunp o => some o
  | .vabs o => some o
  | .vneg o => some o
  | .vsat o => some o
  | .vbcast o => some o
  | .vcvt o => some o
  | .vwidth o => some o
  | .gang o => some o
  | .ungang o => some o
  | .vrcp o => some o
  | .vrsq o => some o
  | .vexp2 o => some o
  | .vlog2 o => some o
  | .vsincos o => some o
  | .stbind o => some o
  | .stbindc o => some o
  | .stbindn o => some o
  | .ststat o => some o
  | .stunbind o => some o
  | .cpy o => some o
  | .cpy2 o => some o
  | .cpyg o => some o
  | .cpys o => some o
  | .cpyt o => some o
  | .inpop o => some o
  | .inpeek o => some o
  | .tdef o => some o
  | .tstate o => some o
  | .trel o => some o
  | .mma o => some o
  | .mmac o => some o
  | .mtern o => some o
  | .mlda o => some o
  | .msta o => some o
  | .mzero o => some o
  | .mwait o => some o
  | .mstat o => some o
  | .fencex o => some o
  | .fencexCopy o => some o
  | .fencexMatrix o => some o
  | .amo o => some o
  | .lr o => some o
  | .sc o => some o
  | .waitrs o => some o
  | .tadd o => some o
  | .topen o => some o
  | .tclose o => some o
  | .tskip o => some o
  | .tdrain o => some o
  | .gsub o => some o
  | .gunsub o => some o
  | .gstat o => some o
  | .gflush o => some o
  | .bar o => some o
  | .arrive o => some o
  | .arriveRlx o => some o
  | .bwait o => some o
  | .bjoin o => some o
  | .bleave o => some o
  | .bstat o => some o
  | .wake o => some o
  | .sleep o => some o
  | .fence o => some o
  | .ifence o => some o
  | .salloc o => some o
  | .sfree o => some o
  | .sop o => some o
  | .swait o => some o
  | .phasec o => some o
  | .phasex o => some o
  | .send o => some o
  | .recv o => some o
  | .launch o => some o
  | .launchW o => some o
  | .larm o => some o
  | .ldisarm o => some o
  | .lwait o => some o
  | .trap o => some o
  | .crd o => some o
  | .cwr o => some o
  | .eret o => some o
  | .wfi o => some o
  | .yield o => some o
  | .halt o => some o
  | .rng o => some o
  | .time o => some o
  | .plbinv o => some o
  | _ => none

/-- The instruction that a major and minor code select on page 0 (spec/03 R70). -/
def selectPage0 (major minor : Nat) : Option (Opnd → Instr) :=
  match major with
  | 0x01 => some .add
  | 0x02 => some .sub
  | 0x03 => some .mul
  | 0x04 => some .mulh
  | 0x05 => some .div
  | 0x06 => some .divn
  | 0x07 => some .rem
  | 0x08 => some .remn
  | 0x09 => some .and
  | 0x0A => some .or
  | 0x0B => some .xor
  | 0x0C => some .shl
  | 0x0D => some .shr
  | 0x0E => some .sar
  | 0x0F => some .min
  | 0x10 => some .max
  | 0x11 => some .slt
  | 0x12 => some .sltn
  | 0x13 => some .mov
  | 0x14 => some .addI
  | 0x15 => some .andI
  | 0x16 => some .orI
  | 0x17 => some .xorI
  | 0x18 => some .shlI
  | 0x19 => some .shrI
  | 0x1A => some .sarI
  | 0x1B => some .sltI
  | 0x1C => some .sltnI
  | 0x1D => some .li
  | 0x1E => some .bfx
  | 0x1F => some .bfi
  | 0x20 =>
    match minor with
    | 0x00 => some .clz
    | 0x01 => some .popc
    | 0x02 => some .sextB
    | 0x03 => some .sextH
    | 0x04 => some .sextW
    | 0x05 => some .zextB
    | 0x06 => some .zextH
    | 0x07 => some .zextW
    | _ => none
  | 0x21 =>
    match minor with
    | 0x00 => some .jr
    | 0x01 => some .callr
    | 0x02 => some .ret
    | 0x04 => some .padJ
    | 0x05 => some .padC
    | 0x06 => some .padH
    | 0x07 => some .padL
    | _ => none
  | 0x22 => some .lea
  | 0x23 => some .lrec
  | 0x24 => some .ldb
  | 0x25 => some .ldbn
  | 0x26 => some .ldh
  | 0x27 => some .ldhn
  | 0x28 => some .ldw
  | 0x29 => some .ldwn
  | 0x2A => some .ldd
  | 0x2B => some .stb
  | 0x2C => some .sth
  | 0x2D => some .stw
  | 0x2E => some .std
  | 0x2F => some .beq
  | 0x30 => some .bne
  | 0x31 => some .blt
  | 0x32 => some .bge
  | 0x33 => some .bltn
  | 0x34 => some .bgen
  | 0x35 => some .bp
  | 0x36 => some .jmp
  | 0x37 => some .call
  | _ => none

/-- The instruction that a major and minor code select on page 1 (spec/03 R71). -/
def selectPage1 (major minor : Nat) : Option (Opnd → Instr) :=
  match major with
  | 0x01 => some .vadd
  | 0x02 => some .vsub
  | 0x03 => some .vmul
  | 0x04 => some .vmin
  | 0x05 => some .vmax
  | 0x06 => some .vand
  | 0x07 => some .vor
  | 0x08 => some .vxor
  | 0x09 => some .vshl
  | 0x0A => some .vshr
  | 0x0B => some .vcmul
  | 0x0C => some .vmac
  | 0x0D => some .vfma
  | 0x0E => some .vdot
  | 0x0F => some .vcmac
  | 0x10 => some .vsel
  | 0x11 => some .vcmp
  | 0x12 => some .vwhile
  | 0x13 => some .vshuf
  | 0x14 => some .vzip
  | 0x15 => some .vunzip
  | 0x16 => some .vredAdd
  | 0x17 => some .vredMin
  | 0x18 => some .vredMax
  | 0x19 => some .vld
  | 0x1A => some .vst
  | 0x1B => some .vlds
  | 0x1C => some .vsts
  | 0x1D => some .vldx
  | 0x1E => some .vshlI
  | 0x1F => some .vshrI
  | 0x20 => some .vmovsToG
  | 0x21 => some .vmovsToV
  | 0x22 => some .vtunp
  | 0x23 =>
    match minor with
    | 0x00 => some .vabs
    | 0x01 => some .vneg
    | 0x02 => some .vsat
    | 0x03 => some .vbcast
    | 0x04 => some .vcvt
    | 0x05 => some .vwidth
    | 0x06 => some .gang
    | 0x07 => some .ungang
    | _ => none
  | 0x24 =>
    match minor with
    | 0x00 => some .vrcp
    | 0x01 => some .vrsq
    | 0x02 => some .vexp2
    | 0x03 => some .vlog2
    | 0x04 => some .vsincos
    | _ => none
  | _ => none

/-- The instruction that a major and minor code select on page 2 (spec/03 R72). -/
def selectPage2 (major minor : Nat) : Option (Opnd → Instr) :=
  match major with
  | 0x01 => some .stbind
  | 0x02 => some .stbindc
  | 0x03 => some .stbindn
  | 0x04 => some .ststat
  | 0x05 =>
    match minor with
    | 0x00 => some .stunbind
    | _ => none
  | 0x06 => some .cpy
  | 0x07 => some .cpy2
  | 0x08 => some .cpyg
  | 0x09 => some .cpys
  | 0x0A => some .cpyt
  | 0x0B =>
    match minor with
    | 0x00 => some .inpop
    | 0x01 => some .inpeek
    | _ => none
  | 0x0C => some .tdef
  | 0x0D => some .tstate
  | 0x0E => some .trel
  | 0x0F => some .mma
  | 0x10 => some .mmac
  | 0x11 => some .mtern
  | 0x12 => some .mlda
  | 0x13 => some .msta
  | 0x14 =>
    match minor with
    | 0x00 => some .mzero
    | 0x01 => some .mwait
    | 0x02 => some .mstat
    | _ => none
  | 0x15 =>
    match minor with
    | 0x00 => some .fencex
    | 0x01 => some .fencexCopy
    | 0x02 => some .fencexMatrix
    | _ => none
  | _ => none

/-- The instruction that a major and minor code select on page 3 (spec/03 R73). -/
def selectPage3 (major minor : Nat) : Option (Opnd → Instr) :=
  match major with
  | 0x01 => if minor < 8 || (16 ≤ minor && minor < 26) then some .amo else none
  | 0x02 => some .lr
  | 0x03 => some .sc
  | 0x04 => some .waitrs
  | 0x05 => some .tadd
  | 0x06 => some .topen
  | 0x07 => some .tclose
  | 0x08 => some .tskip
  | 0x09 => some .tdrain
  | 0x0A => some .gsub
  | 0x0B => some .gunsub
  | 0x0C => some .gstat
  | 0x0D =>
    match minor with
    | 0x00 => some .gflush
    | _ => none
  | 0x0E =>
    match minor with
    | 0x00 => some .bar
    | 0x01 => some .arrive
    | 0x02 => some .arriveRlx
    | 0x03 => some .bwait
    | 0x04 => some .bjoin
    | 0x05 => some .bleave
    | _ => none
  | 0x0F => some .bstat
  | 0x10 => some .wake
  | 0x11 =>
    match minor with
    | 0x00 => some .sleep
    | 0x01 => some .fence
    | 0x02 => some .ifence
    | _ => none
  | 0x12 => some .salloc
  | 0x13 => some .sfree
  | 0x14 => some .sop
  | 0x15 => some .swait
  | 0x16 =>
    match minor with
    | 0x00 => some .phasec
    | 0x01 => some .phasex
    | _ => none
  | 0x17 => some .send
  | 0x18 => some .recv
  | 0x19 => some .launch
  | 0x1A => some .launchW
  | 0x1B => some .larm
  | 0x1C => some .ldisarm
  | 0x1D => some .lwait
  | 0x1E => some .trap
  | 0x1F => some .crd
  | 0x20 => some .cwr
  | 0x21 =>
    match minor with
    | 0x00 => some .eret
    | 0x01 => some .wfi
    | 0x02 => some .yield
    | 0x03 => some .halt
    | 0x04 => some .rng
    | 0x05 => some .time
    | 0x06 => some .plbinv
    | _ => none
  | _ => none

/-- The instruction that page, major and minor code select (spec/03 R58, R62). -/
def select (page major minor : Nat) : Option (Opnd → Instr) :=
  match page with
  | 0 => selectPage0 major minor
  | 1 => selectPage1 major minor
  | 2 => selectPage2 major minor
  | _ => selectPage3 major minor

/-- Majors that a page assigns (spec/03 R70–R73). -/
def majorAssigned (page major : Nat) : Bool :=
  1 ≤ major && major ≤ (match page with | 0 => 0x37 | 1 => 0x24 | 2 => 0x15 | _ => 0x21)

/-- The prefix halfwords of a chain: PXP on pages 1–3, then the kinds present (spec/03 R62). -/
def chainPrefixes (page : Nat) (o : Opnd) : Nat :=
  (if page = 0 then 0 else 1) + (if o.m.isSome then 1 else 0) + (if o.v.isSome then 1 else 0) +
    (if o.r.isSome then 1 else 0) + o.i.length

/-- Whether presence of a prefix kind agrees with what the row takes. -/
def Take.ok (t : Take) (present : Bool) : Bool :=
  match t with
  | .no => !present
  | .may => true
  | .must => present

/-- Checks 2 to 5 of spec/03 R67 on a chain in the order of R62, for a row `f` and its operand fields. -/
def Form.admits (f : Form) (o : Opnd) : Bool :=
  f.pxi.ok (o.i ≠ []) && f.pxr.ok o.r.isSome && f.pxv.ok o.v.isSome && f.pxm.ok o.m.isSome &&
    decide (chainPrefixes f.page o ≤ 4) && (match f.minor with | some k => o.b.toNat == k | none => true) &&
    f.bad.isNone

end Machine
end Sys2Proof
end

