-- ==== Sys2Proof/WellFormed.lean ====
section
/-!
DEFINITION. WellFormed.lean: what an instruction's fields must obey to have an encoding (spec/03 R58–R65).
-/
namespace Sys2Proof

/-- A thread instruction is well formed when its prefixes are those its row takes, at most four with PXP (spec/03
R62, R63), field B holds its minor code, and its own fields hold nothing reserved and no value that its entry does not
permit (spec/03 R65).  An AMO has an assigned function code (spec/09 R211).  Device events have no encoding. -/
def Instr.wf (i : Instr) : Bool :=
  match Machine.form i, Machine.opnd i with
  | some f, some o =>
    f.admits o && (Machine.select f.page f.major o.b.toNat).isSome
  | _, _ => false

/-- The instruction is one of the opcode maps, so that words encode it. -/
def Instr.hasWords (i : Instr) : Bool := (Machine.form i).isSome

/-- Well-formedness as a proposition. -/
abbrev Instr.WellFormed (i : Instr) : Prop := i.wf = true

end Sys2Proof
end

