-- ==== Sys2Proof/Decode.lean ====
section
/-!
DEFINITION. Decode.lean: chains of halfwords to instructions, with the named rejections of spec/03 R64–R67, and the
encoder (spec/03 R58–R62).
-/
namespace Sys2Proof

open Machine

/-- Major opcode of a halfword, [15:10] (spec/03 R58). -/
def Half.major (h : Half) : Nat := h.toNat / 1024
/-- Payload or fields A and B, [9:0]. -/
def Half.low (h : Half) : BitVec 10 := h.setWidth 10
/-- Prefix majors are 0x38 to 0x3F (spec/03 R57). -/
def Half.isPfx (h : Half) : Bool := h.major ≥ 0x38

/-- Why a chain is no instruction. -/
inductive DecErr where
  /-- more halfwords are needed: the chain has not reached its base -/
  | short
  /-- trap 0x02: reason of spec/03 R64, position of the offending halfword, and that halfword -/
  | chain (reason pos : Nat) (h : Half)
  /-- trap 0x01: DETAIL [4:3] of spec/03 R65 -/
  | illegal (kind : Nat)
  deriving DecidableEq, Repr

/-- The prefix payloads read so far, the rank of the last prefix kind (spec/03 R62) and the halfwords passed. -/
structure Chain where
  p : Option (BitVec 10)
  m : Option (BitVec 10)
  v : Option (BitVec 10)
  r : Option (BitVec 10)
  i : List (BitVec 10)
  rank : Nat
  deriving DecidableEq, Repr

/-- No prefix read yet. -/
def Chain.empty : Chain := ⟨none, none, none, none, [], 0⟩

/-- Place of a prefix kind in the order PXP, PXM, PXV, PXR, PXI (spec/03 R62), from 1. -/
def pfxRank (major : Nat) : Nat :=
  match major with
  | 0x3A => 1 | 0x3B => 2 | 0x3C => 3 | 0x39 => 4 | 0x38 => 5 | _ => 6

/-- The kind stands in the chain already. -/
def Chain.has (c : Chain) (major : Nat) : Bool :=
  match major with
  | 0x3A => c.p.isSome | 0x3B => c.m.isSome | 0x3C => c.v.isSome | 0x39 => c.r.isSome | _ => false

/-- Adds a prefix. -/
def Chain.add (c : Chain) (major : Nat) (x : BitVec 10) : Chain :=
  match major with
  | 0x3A => { c with p := some x, rank := 1 }
  | 0x3B => { c with m := some x, rank := 2 }
  | 0x3C => { c with v := some x, rank := 3 }
  | 0x39 => { c with r := some x, rank := 4 }
  | _ => { c with i := c.i ++ [x], rank := 5 }

/-- The chain checks of one prefix halfword at position `pos`, in the order of the reason codes (spec/03 R64). -/
def pfxReason (c : Chain) (pos : Nat) (h : Half) : Option Nat :=
  let mj := h.major
  if pos ≥ 4 then some 1
  else if c.has mj then some 2
  else if mj < 0x3D && pfxRank mj < c.rank then some 3
  else if mj ≥ 0x3D then some 4
  else if mj == 0x3A && h.toNat % 4 == 0 then some 5
  else none

/-- Check 2 of spec/03 R67: reads prefixes up to the base halfword. -/
def parseChain : List Half → Nat → Chain → Except DecErr (Chain × Half × Nat)
  | [], _, _ => .error .short
  | h :: t, pos, c =>
    if h.isPfx then
      match pfxReason c pos h with
      | some r => .error (.chain r pos h)
      | none => parseChain t (pos + 1) (c.add h.major h.low)
    else .ok (c, h, pos)

/-- Fields of a PXM payload (spec/03 R61). -/
def Pxm.ofBits (x : BitVec 10) : Pxm := ⟨x.extractLsb' 0 3, x.extractLsb' 3 1, x.extractLsb' 4 2, x.extractLsb' 6 4⟩
/-- Fields of a PXV payload. -/
def Pxv.ofBits (x : BitVec 10) : Pxv := ⟨x.extractLsb' 0 4, x.extractLsb' 4 1, x.extractLsb' 5 1, x.extractLsb' 6 4⟩
/-- Fields of a PXR payload. -/
def Pxr.ofBits (x : BitVec 10) : Pxr := ⟨x.extractLsb' 0 5, x.extractLsb' 5 2, x.extractLsb' 7 3⟩
/-- Payload of a PXM. -/
def Pxm.bits (p : Pxm) : BitVec 10 := p.bl ++ p.cp ++ p.ord ++ p.scope
/-- Payload of a PXV. -/
def Pxv.bits (p : Pxv) : BitVec 10 := p.et2 ++ p.pinv ++ p.zm ++ p.et
/-- Payload of a PXR. -/
def Pxr.bits (p : Pxr) : BitVec 10 := p.pg ++ p.sel ++ p.c

/-- The operand fields of a chain. -/
def Chain.opnd (c : Chain) (h : Half) : Opnd :=
  ⟨h.extractLsb' 5 5, h.extractLsb' 0 5, c.m.map Pxm.ofBits, c.v.map Pxv.ofBits, c.r.map Pxr.ofBits, c.i⟩

/-- The page that PXP selects (spec/03 R62). -/
def Chain.page (c : Chain) : Nat := match c.p with | some x => x.toNat % 4 | none => 0

/-- Positions of the prefix kinds of a chain that stands in the order of spec/03 R62. -/
def Chain.posM (c : Chain) : Nat := if c.p.isSome then 1 else 0
/-- Position of PXV. -/
def Chain.posV (c : Chain) : Nat := c.posM + (if c.m.isSome then 1 else 0)
/-- Position of PXR. -/
def Chain.posR (c : Chain) : Nat := c.posV + (if c.v.isSome then 1 else 0)
/-- Position of the first PXI. -/
def Chain.posI (c : Chain) : Nat := c.posR + (if c.r.isSome then 1 else 0)

/-- A PXM, PXV, PXR or PXI halfword. -/
def pfxHalf (major : Nat) (x : BitVec 10) : Half := BitVec.ofNat 6 major ++ x

/-- Check 4 of spec/03 R67: kinds not taken (reason 6, at the first such halfword), then kinds required (reason 7, at
the base). -/
def takeErr (f : Form) (c : Chain) (base : Half) (pos : Nat) : Option DecErr :=
  match f.pxm, c.m with
  | .no, some x => some (.chain 6 c.posM (pfxHalf 0x3B x))
  | _, _ =>
  match f.pxv, c.v with
  | .no, some x => some (.chain 6 c.posV (pfxHalf 0x3C x))
  | _, _ =>
  match f.pxr, c.r with
  | .no, some x => some (.chain 6 c.posR (pfxHalf 0x39 x))
  | _, _ =>
  match f.pxi, c.i with
  | .no, x :: _ => some (.chain 6 c.posI (pfxHalf 0x38 x))
  | _, _ =>
  if (f.pxm == .must && c.m.isNone) || (f.pxv == .must && c.v.isNone) || (f.pxr == .must && c.r.isNone) ||
      (f.pxi == .must && c.i.isEmpty) then some (.chain 7 pos base) else none

/-- Checks 3 to 5 of spec/03 R67 on a chain whose structure is sound. -/
def decodeBase (c : Chain) (base : Half) (pos : Nat) : Except DecErr Instr :=
  let o := c.opnd base
  match select c.page base.major o.b.toNat with
  | none => .error (.illegal (if majorAssigned c.page base.major then 1 else 0))
  | some mk =>
    let i := mk o
    match form i with
    | none => .error (.illegal 0)
    | some f =>
      match takeErr f c base pos with
      | some e => .error e
      | none =>
        if c.p.any (fun x => x.toNat / 4 != 0) then .error (.illegal 2)
        else match f.bad with
          | some .reserved => .error (.illegal 2)
          | some .value => .error (.illegal 3)
          | none => .ok i

/-- The instruction that a list of halfwords, in fetch order, begins with, and how many of them it takes
(spec/03 R57, R67 checks 2 to 5). -/
def decode (hs : List Half) : Except DecErr (Instr × Nat) :=
  match parseChain hs 0 Chain.empty with
  | .error e => .error e
  | .ok (c, base, pos) =>
    match decodeBase c base pos with
    | .error e => .error e
    | .ok i => .ok (i, pos + 1)

/-- Takes halfwords from memory order until the base is among them: at most five are fetched (spec/03 R67 check 1). -/
def chainHalves : List Half → Nat → List Half
  | [], _ => []
  | h :: t, k => if k = 0 then [] else if h.isPfx then h :: chainHalves t (k - 1) else [h]

/-- The halfwords of a thread instruction, in fetch order (spec/03 R58–R62); a device event has none. -/
def encode (i : Instr) : List Half :=
  match form i, opnd i with
  | some f, some o =>
    (if f.page = 0 then [] else [pfxHalf 0x3A (BitVec.ofNat 10 f.page)]) ++
    (match o.m with | some x => [pfxHalf 0x3B x.bits] | none => []) ++
    (match o.v with | some x => [pfxHalf 0x3C x.bits] | none => []) ++
    (match o.r with | some x => [pfxHalf 0x39 x.bits] | none => []) ++
    o.i.map (pfxHalf 0x38) ++
    [BitVec.ofNat 6 f.major ++ o.a ++ o.b]
  | _, _ => []

/-- Length of a thread instruction in halfwords, prefixes included. -/
def halfLen (i : Instr) : Nat := (encode i).length

/-- The halfwords of an opcode-table word.  The table writes a 32-bit row with its first fetched halfword, the
prefix, in the high half (log 1); a 16-bit row is one halfword.  Zero operand words follow. -/
def tableHalves (nbits w : Nat) : List Half :=
  if nbits ≤ 16 then [BitVec.ofNat 16 w, 0, 0, 0, 0]
  else
    let hi : Half := BitVec.ofNat 16 (w / 65536)
    let lo : Half := BitVec.ofNat 16 w
    if hi.isPfx then [hi, lo, 0, 0, 0] else [lo, hi, 0, 0, 0]

/-- The instruction that the decoder reads from an opcode-table word. -/
def decodeTableWord (nbits w : Nat) : Option Instr :=
  match decode (tableHalves nbits w) with
  | .ok (i, _) => some i
  | .error _ => none

end Sys2Proof
end

