-- ==== Sys2Proof/Config.lean ====
section
/-!
DEFINITION. Config.lean: what the spec leaves open or to the builder of a part.  Every constant here is opaque: nothing in
Lean can evaluate it, so whatever is proved holds for each of its values (log 7, log 11).
-/
namespace Sys2Proof.Config

/-- A value that the spec leaves open, drawn with the counter `fresh` of State (log 7). -/
opaque freeValue : Nat → Word
/-- The context that is a partition's supervisor context (spec/14 R306; the spec names none: log 7). -/
opaque supervisorContext : Nat → Fin 256
/-- SHAKE256 of a byte string, so many bytes (spec/03 R85, spec/16 R369; log 11). -/
opaque shake256 : List Byte → Nat → List Byte
/-- Falcon-1024 verification: public key, message, signature (spec/16 R369; log 11). -/
opaque falconVerify : List Byte → List Byte → List Byte → Bool
/-- Falcon-1024 signature under the device's identity key (spec/16 R372; log 11). -/
opaque falconSign : List Byte → List Byte
/-- The 24-byte device identifier of the fuses (spec/16 R371). -/
opaque deviceId : BitVec 192
/-- The 32-byte SHAKE256 hash of the vendor root key that the fuses hold (spec/16 R371). -/
opaque vendorKeyHash : List Byte
/-- The vendor root key and the owner key (spec/16 R369, R371). -/
opaque vendorKey : List Byte
/-- The owner key. -/
opaque ownerKey : List Byte
/-- The firmware in the flash of the board, and its signature (spec/16 R371). -/
opaque firmware : List Byte
/-- The signature of the firmware. -/
opaque firmwareSig : List Byte
/-- What the boot ROM answers to a fetch of the management core beyond its SRAM (spec/16 R366; log 8). -/
opaque bootRom : Nat → Byte
/-- Which 4 KiB page of the management core's SRAM function 0's mailbox window maps (spec/16 R362; the spec names none). -/
opaque mailboxPage : Nat → Nat

end Sys2Proof.Config
end

