-- ==== Sys2Proof/Machine/State.lean ====
section
/-!
DEFINITION. Machine/State.lean: everything the spec gives the machine, as plain data (INVENTORY.md, State), and what the
model keeps to say who moves next.  Keys: core k is physical cluster × 1,024 + tile × 16 + core-in-tile for k < 16,384
(spec/15 R331), 16,384 + d is the dispatch core of die d and 16,386 the management core; a frame key is 5 × core + frame,
the urgent frame being frame 4; a tile key is core div 16, or 1,024 + (core − 16,384) for the instruction cache of a core
outside the tiles.
-/
namespace Sys2Proof.Machine

/-- A sparse map: entries in strictly rising key order; an absent key holds the type's default (log 2). -/
abbrev SMap (α : Type) := List (Nat × α)

/-- Privilege levels, ascending (spec/01 R17). -/
inductive Priv where
  | u | s | m
  deriving DecidableEq, Repr

/-- What a frame holds (spec/01 R18, spec/06 R146). -/
inductive FKind where
  /-- slots 0–3 of a tile core -/
  | slot
  /-- the urgent frame holding the thread of an urgent launch -/
  | urgent
  /-- the urgent frame serving a trapped thread of the named frame (spec/05 R114) -/
  | handler (served : Nat)
  /-- a thread of a dispatch core -/
  | dispatch
  /-- a thread of the management core -/
  | mgmt
  deriving DecidableEq, Repr

/-- Whether a frame issues (spec/06 R127). -/
inductive FStat where
  /-- no thread or context -/
  | free
  /-- may issue -/
  | ready
  /-- stopped while a handler serves its trap (spec/05 R114) -/
  | trapped
  /-- parked with a trap recorded until the urgent frame frees (spec/05 R115) -/
  | parkTrap
  /-- parked for a page fault (spec/05 R118) -/
  | parkPage
  /-- an odd slot whose state a gang keeps (spec/01 R20) -/
  | gangOdd
  /-- an odd slot stopped until the even slot's trap is disposed of (spec/05 R113) -/
  | gangStop
  deriving DecidableEq, Repr

/-- What a stream unit is bound to (spec/08 R177). -/
inductive UKind where
  | unbound | gen | chan | nbr
  deriving DecidableEq, Repr

/-- One store of a write stream: program-order number, element number, address, size in bytes, data, and whether the data
has come: the offering load may still be outstanding (spec/08 R180). -/
structure UStore where
  seq   : Nat
  elem  : Nat
  addr  : Nat
  size  : Nat
  data  : Word
  ready : Bool
  deriving DecidableEq, Repr

/-- A stream unit (spec/08 R177–R190). -/
structure Unit where
  kind   : UKind
  /-- generator: DIR = 1; neighbour: FWD -/
  dir    : Bool
  et     : Nat
  count  : Nat
  stride : Int
  base   : Nat
  /-- next element not yet taken or offered -/
  next   : Nat
  /-- generator of a read stream: next element to read -/
  ahead  : Nat
  /-- read stream: elements read and not yet taken, oldest first -/
  data   : List Word
  /-- write stream: registers offered, oldest first, each the stores still to be performed -/
  stores : List (List UStore)
  /-- PHASE in force at each queued register (spec/08 R182) -/
  phases : List Word
  /-- FAULT: underlying cause and element address (spec/08 R182) -/
  fault  : Option (Nat × Nat)
  /-- channel id, or side of a neighbour unit -/
  id     : Nat
  /-- channel unit: unread bytes of the current item -/
  item   : List Byte
  /-- program-order number of the instruction that bound it -/
  seq    : Nat
  deriving DecidableEq, Repr

/-- A unit that is bound to nothing. -/
def Unit.none : Unit := ⟨.unbound, false, 0, 0, 0, 0, 0, 0, [], [], [], Option.none, 0, [], 0⟩

/-- A late outcome that has been reported to a thread (spec/04 R100). -/
structure Late where
  /-- program-order number of the access -/
  seq    : Nat
  idx    : Nat
  cause  : Nat
  addr   : Nat
  detail : Nat
  deriving DecidableEq, Repr

/-- A ticketed update (spec/13 R283–R285). -/
structure Upd where
  frame  : Nat
  launch : Nat
  urg    : Bool
  /-- effective address as issued, its coherence location, page size and cache policy -/
  va     : Nat
  loc    : Nat
  crumb  : Bool
  cp     : Nat
  /-- element type code; a skip carries none -/
  et     : Nat
  skip   : Bool
  ticket : Nat
  value  : Word
  arith  : Word
  /-- random words drawn at issue (spec/02 R55) -/
  rnd    : List (BitVec 32)
  strong : Bool
  seq    : Nat
  /-- logical thread id of the issuing thread -/
  ltid   : Nat
  /-- the window and element, once accepted -/
  window : Nat
  elem   : Nat
  /-- its unit has refused it, or its page has a fault record -/
  refused : Bool
  /-- a fault record holds it -/
  held    : Bool
  deriving DecidableEq, Repr

/-- An engine command as issued (spec/10 R231, R241; spec/11 R257–R261). -/
inductive COp where
  | cpy | cpy2 | cpyg | cpys | cpyt | mma | mmac | mtern | mlda | msta | mzero
  deriving DecidableEq, Repr

/-- The command's captured registers and state (spec/01 R23, spec/10 R232, spec/11 R257). -/
structure Cmd where
  serial : Nat
  op     : COp
  frame  : Nat
  launch : Option Nat
  urg    : Bool
  a      : Word
  b      : Word
  c      : Word
  x      : Word
  /-- accumulator number of a matrix command -/
  acc    : Nat
  et     : Nat
  et2    : Nat
  scope  : Nat
  strong : Bool
  cp     : Nat
  bl     : Nat
  arith  : Word
  phase  : Word
  priv   : Priv
  region : List Word
  /-- key, logical thread id and first counter value of the words drawn at issue (spec/02 R54, R55) -/
  seed   : Word
  ltid   : Nat
  ctr    : Nat
  /-- whose rights the engine checks: partition, logical cluster, a handler frame, the span of the thread's stack -/
  part   : Nat
  lcl    : Nat
  hand   : Bool
  stack  : Nat × Nat
  /-- writes below this number were ordered before it by a FENCEX for its engine (spec/08 R196) -/
  fenced : Nat := 0
  deriving DecidableEq, Repr

/-- The frame's record of a matrix command it issued (spec/11 R262, spec/08 INPOP). -/
structure CmdRec where
  serial : Nat
  acc    : Nat
  done   : Bool
  /-- for each flag that the command set, the lowest element that has it, with all its flags (spec/05 R119) -/
  flags  : List (Nat × Nat)
  err    : Bool
  tag    : Nat
  merged : Bool
  popped : Bool
  deriving DecidableEq, Repr

/-- Register state of a kernel's header, kept with a thread (spec/03 R82). -/
structure KHdr where
  arith    : Word
  nomatrix : Bool
  guard    : Bool
  urgok    : Bool
  threads  : Nat
  stack    : Nat
  deadline : Nat
  barscope : Word
  /-- legacy switches of the image (spec/16 R374) -/
  errata   : Nat
  /-- declared channels: id, slots, role -/
  chans    : List (Nat × Nat × Nat)
  deriving DecidableEq, Repr

/-- A register frame: one thread's architectural state (spec/01 R14) and what the core keeps for it. -/
structure Frame where
  kind    : FKind
  stat    : FStat
  frozen  : Bool
  /-- an even slot that runs a ganged pair (spec/01 R20) -/
  gang    : Bool
  g       : Vector Word 32
  v       : Vector VWord 32
  p       : Vector Pred 8
  pc      : BitVec 48
  priv    : Priv
  rngc    : BitVec 48
  arith   : Word
  flags   : Word
  faultel : Word
  tcause  : Word
  taddr   : Word
  tretpc  : Word
  tvec    : Word
  phase   : Word
  seed    : Word
  wake    : Word
  region  : List Word
  /-- logical thread id, logical tile, logical cluster (spec/01 R26) -/
  ltid    : Nat
  ltile   : Nat
  lcl     : Nat
  /-- pending-launch store entry that the thread belongs to -/
  launch  : Option Nat
  /-- partition of the thread -/
  part    : Nat
  /-- kind of landing pad that the next instruction must be (spec/03 R67 check 6) -/
  pad     : Option Nat
  /-- the span of the thread's stack: base and length (spec/15 R332) -/
  stack   : Nat × Nat
  /-- instruction buffer: aligned 16-byte blocks, oldest first (spec/06 R130) -/
  ibuf    : List (Nat × List Byte)
  units   : Vector Unit 4
  late    : List Late
  /-- unresolved fault records that the thread waits for (spec/05 R118) -/
  fids    : List Nat
  /-- number of instructions issued: the program-order number of the next access -/
  seq     : Nat
  /-- ticket slots (spec/13 R285) -/
  tickets : List (Option Upd)
  cmds    : List CmdRec
  /-- fold of the values that ARITH has held (spec/15 R347) -/
  sig     : Word
  /-- a BAR that has arrived and acts as BWAIT: its slot (spec/12 R273) -/
  barHold : Option Nat
  /-- element of a TSKIP in progress, progress of another instruction that holds, or the mark of a GANG that waits for its
  partner (spec/06 R137) -/
  prog    : Nat
  /-- flags of atomics that have returned, one entry each in the order of return, with the trap enables of the ARITH under
  which the atomic issued: they merge at the next boundary (spec/09 R210, spec/01 R23) -/
  amoFlags : List (Nat × Nat)
  /-- the wait a fetch or instruction has begun, by CK cycle, for a hold that a time ends -/
  since   : Nat
  /-- writes below these numbers are ordered before its later commands to the copy engine, and to the matrix engine
  (spec/08 R196) -/
  fenceC  : Nat
  fenceM  : Nat
  /-- engine commands that the machine had issued when the context took the frame: those of the context have this serial number
  or a later one (spec/08 R195) -/
  born    : Nat
  deriving DecidableEq, Repr

/-- A frame that holds no context: every register zero (spec/01 R33). -/
def Frame.empty (k : FKind) : Frame :=
  { kind := k, stat := .free, frozen := false, gang := false,
    g := Vector.replicate 32 0, v := Vector.replicate 32 0, p := Vector.replicate 8 0,
    pc := 0, priv := .u, rngc := 0, arith := 0, flags := 0, faultel := 0, tcause := 0, taddr := 0, tretpc := 0,
    tvec := 0, phase := 0, seed := 0, wake := 0, region := List.replicate 4 0, ltid := 0, ltile := 0, lcl := 0,
    launch := none, part := 0, pad := none, stack := (0, 0), ibuf := [], units := Vector.replicate 4 Unit.none,
    late := [], fids := [], seq := 0, tickets := List.replicate 4 none, cmds := [], sig := 0, barHold := none, prog := 0,
    amoFlags := [], since := 0, fenceC := 0, fenceM := 0, born := 0 }

/-- An inbox entry, and the command it reports (spec/08 R194). -/
structure Entry where
  word   : Word
  serial : Option Nat
  deriving DecidableEq, Repr

/-- One part of a core's inbox: entries in arrival order and the pending poison event (spec/08 R194, R195). -/
structure Inbox where
  entries : List Entry
  pending : Option Entry
  deriving DecidableEq, Repr

/-- A core (spec/06): what its frames share. -/
structure CoreSt where
  /-- slot that issued most recently (spec/06 R126) -/
  last    : Nat
  /-- retired by a second mismatch (spec/06 R144) -/
  retired : Bool
  /-- the frame whose instruction is being retried (spec/06 R143) -/
  retry   : Option Nat
  /-- corrected mismatches (spec/06 R143) -/
  checks  : Nat
  /-- parked traps, oldest first, by frame key (spec/05 R115) -/
  parked  : List Nat
  /-- launch entry of an urgent launch that waits for the urgent frame (spec/05 R115) -/
  waitUrg : Option Nat
  /-- launch entry whose placement froze slots 0–3 (spec/06 R140) -/
  freeze  : Option Nat
  copyN   : List Cmd
  copyU   : List Cmd
  matN    : List Cmd
  matU    : List Cmd
  inN     : Inbox
  inU     : Inbox
  /-- PLB: granule number, rights word of the decision (spec/14 R308), oldest first -/
  plb     : List (Nat × Nat)
  /-- CK count at core reset, from which CYCLE counts (spec/01 R30) -/
  ckBase  : Nat
  deriving DecidableEq, Repr

/-- An empty inbox part. -/
def Inbox.empty : Inbox := ⟨[], none⟩

/-- A core right after reset.  The rotation of spec/06 R126 has no stated start: slot 3 is taken as the last issuer, so
that slot 0 stands first (log 4). -/
def CoreSt.empty : CoreSt :=
  { last := 3, retired := false, retry := none, checks := 0, parked := [], waitUrg := none, freeze := none,
    copyN := [], copyU := [], matN := [], matU := [], inN := .empty, inU := .empty, plb := [], ckBase := 0 }

/-- State of a tile-table descriptor (spec/10 R225). -/
inductive DState where
  | empty | filling | ready | draining
  deriving DecidableEq, Repr

/-- A tile-table descriptor (spec/10 R223–R226). -/
structure Desc where
  st      : DState
  defd    : Bool
  err     : Bool
  readers : Nat
  base    : Nat
  shape   : Word
  /-- urgent range: the frame that owns it -/
  owner   : Option Nat
  deriving DecidableEq, Repr

/-- A descriptor after reset. -/
def Desc.none : Desc := ⟨.empty, false, false, 0, 0, 0, Option.none⟩

/-- Where a current engine command stands. -/
inductive JStage where
  /-- waits for a descriptor (spec/10 R228) -/
  | waiting
  /-- takes its bursts or steps -/
  | running
  /-- every access is made; a fill or reader has still to end -/
  | ending
  /-- ended with a status; its completion is still to come -/
  | ended
  /-- complete, its entry held until the inbox has room (spec/08 R195) -/
  | posting
  deriving DecidableEq, Repr

/-- A command that an engine has taken (spec/10 R230, spec/11 R249). -/
structure Job where
  cmd    : Cmd
  stage  : JStage
  /-- copy: bytes or elements done; matrix: steps done -/
  pos    : Nat
  /-- one check of the present burst or step has failed (spec/10 R237, spec/11 R253) -/
  retry  : Bool
  status : Nat
  aux    : Nat
  poison : Bool
  /-- writes to the highest destination word of a strong copy, kept to the end: address, bytes, data, poison, and the
  command's unit that they belong to (spec/10 R239) -/
  last   : List (Nat × Nat × Word × Bool × Nat)
  /-- bytes that a copy has read and not yet written, each with the poison of its word (spec/10 R234): those of whole read
  bursts, or of an element its four index bytes and what has been read of its data -/
  buf    : List (Byte × Bool)
  /-- CK cycle at which it began to wait -/
  since  : Nat
  /-- descriptors it reads, and the one it fills -/
  reads  : List Nat
  fills  : Option Nat
  flags  : List (Nat × Nat)
  /-- result words of a matrix command, ready to be written -/
  out    : List (BitVec 32)
  deriving DecidableEq, Repr

/-- One channel of an engine (spec/10 R230, spec/11 R249). -/
structure Channel where
  cur  : Option Job
  wait : List Job
  /-- core served last -/
  last : Nat
  deriving DecidableEq, Repr

/-- A channel after reset; the rotation begins at core 0 (log 4). -/
def Channel.empty : Channel := ⟨none, [], 15⟩

/-- Format of an accumulator (spec/11 R243). -/
inductive AFmt where
  | int32 | fp32 | ci32 | cfp32
  deriving DecidableEq, Repr

/-- State of an accumulator (spec/11 R243). -/
inductive AState where
  | clear | held | poisoned
  deriving DecidableEq, Repr

/-- A matrix-engine accumulator: format, shape and its words, row by row (spec/11 R243). -/
structure Accum where
  st  : AState
  fmt : AFmt
  m   : Nat
  n   : Nat
  w   : List (BitVec 32)
  deriving DecidableEq, Repr

/-- A CLEAR accumulator: every word is zero and no format is held. -/
def Accum.clear : Accum := ⟨.clear, .int32, 0, 0, []⟩

/-- State of a Glaze entry (spec/13 R297). -/
inductive GState where
  | free | sync | active | closing | dead
  deriving DecidableEq, Repr

/-- One batch: block of the publisher span, bytes by offset in it (spec/13 R299), words of the block that carry poison
(spec/14 R322), and whether it is the last block of an initial copy (spec/13 R297). -/
structure Batch where
  block : Nat
  bytes : SMap Byte
  bad   : List Nat
  last  : Bool
  /-- CK cycle of its first update -/
  since : Nat
  deriving DecidableEq, Repr

/-- A Glaze entry (spec/13 R295). -/
structure GEntry where
  st     : GState
  owner  : Nat
  launch : Option Nat
  /-- publisher and subscriber spans: storage keys of their bases, and bytes -/
  pub    : Nat
  sub    : Nat
  len    : Nat
  /-- addresses as GSUB named them -/
  subVa  : Nat
  /-- logical cluster of the publisher span (spec/13 GSTAT) -/
  pcl    : Nat
  /-- blocks of the initial copy already read -/
  copied : Nat
  /-- CK cycle of its GSUB -/
  since  : Nat
  opened : Option Batch
  /-- batches sent and not yet applied, oldest first -/
  sent   : List Batch
  deriving DecidableEq, Repr

/-- A free Glaze entry. -/
def GEntry.none : GEntry := ⟨.free, 0, Option.none, 0, 0, 0, 0, 0, 0, 0, Option.none, []⟩

/-- A tile (spec/00 R2). -/
structure Tile where
  descs   : SMap Desc
  glaze   : SMap GEntry
  copyN   : Channel
  copyU   : Channel
  matN    : Channel
  matU    : Channel
  /-- engines marked failed (spec/10 R237, spec/11 R253) -/
  copyFailed : Bool
  matFailed  : Bool
  /-- corrected checks of the matrix engine, at most 255 (spec/11 R263) -/
  chk     : Nat
  /-- rotation count of the duplicated column (spec/11 R253) -/
  rot     : Nat
  /-- pending updates of the Praline unit, in order of acceptance (spec/13 R285) -/
  pend    : List Upd
  /-- instruction-cache lines: line address, 64 bytes, stamp of last use (spec/06 R132) -/
  icache  : List (Nat × List Byte × Nat)
  /-- excluded from placement (spec/06 R144, spec/10 R237) -/
  excluded : Bool
  deriving DecidableEq, Repr

/-- A tile after reset. -/
def Tile.empty : Tile :=
  { descs := [], glaze := [], copyN := .empty, copyU := .empty, matN := .empty, matU := .empty, copyFailed := false,
    matFailed := false, chk := 0, rot := 0, pend := [], icache := [], excluded := false }

/-- What an access does when it is granted (spec/04 R99, spec/09 R210, R214). -/
inductive AOp where
  | load | store
  /-- AMO with its function code and element type -/
  | amo (fn et : Nat)
  | lr | sc | waitrs
  deriving DecidableEq, Repr

/-- Where an access goes. -/
inductive Tgt where
  /-- a bank of the L1 of a physical cluster: the L1 offset -/
  | l1 (pcl off : Nat)
  /-- the translated global space: the virtual address -/
  | glob (va : Nat)
  /-- the device-register window -/
  | reg (addr : Nat)
  /-- the message aperture, read -/
  | post (addr : Nat)
  deriving DecidableEq, Repr

/-- Stage of one access. -/
inductive Stage where
  /-- waits at its bank, slice or unit -/
  | waiting
  /-- waits for the line (spec/14 R314) -/
  | filling
  /-- parked on a fault record (spec/14 R311) -/
  | held (fid : Nat)
  /-- granted at its slice: awaits the HBM or the host port (spec/14 R314, R320) -/
  | granted
  /-- WAITRS: its watch is set (spec/09 R214) -/
  | watching
  /-- WAITRS: its watch has been hit and reports -/
  | reported
  /-- WAITRS that found no watch free: it re-reads every 64 CK cycles -/
  | polling
  /-- performed, with the value returned -/
  | performed
  /-- ended with a late cause: 0x06, 0x0B or 0x11 -/
  | failed (cause : Nat)
  deriving DecidableEq, Repr

/-- One access of at most eight bytes that an issued instruction makes (spec/04 R99, spec/07 R169). -/
structure Part where
  /-- element number, for the order of strong accesses and of late outcomes -/
  elem  : Nat
  /-- address of the element or word, for TADDR -/
  va    : Nat
  /-- address of the first byte accessed -/
  base  : Nat
  /-- cycles of its port that it leaves after the first access of the instruction (spec/09 R205, R208) -/
  lag   : Nat
  /-- address, size in bytes and byte mask of the storage accessed -/
  tgt   : Tgt
  /-- Crumb page size of its address (spec/01 R31) -/
  crumb : Bool
  size  : Nat
  mask  : BitVec 8
  data  : Word
  data2 : Word
  stage : Stage
  /-- value returned -/
  val   : Word
  /-- a fault record has held it: the accesses of its thread to the page are performed in program order (spec/04 R100,
  spec/14 R311) -/
  kept  : Bool := false
  deriving DecidableEq, Repr

/-- Where the data of an access goes when it returns. -/
inductive Ret where
  /-- a store: nothing returns -/
  | none
  /-- a g register: number, bytes, sign-extended -/
  | g (rd size : Nat) (signed : Bool)
  /-- an AMO: register, bytes, element type code -/
  | amo (rd size : Nat) (signed : Bool)
  /-- SC: the result 0 or 1 -/
  | sc (rd : Nat)
  /-- vector elements: first register, number of registers, for each element its bit position in the registers, its
  lane width, its first memory bit (address × 8 and up), its memory bits, and 0 for a plain copy, 1 for INT12, 2 for CI12,
  3 for a plain copy out of the element's own access; and the lanes that are zeroed: bit position and width -/
  | v (rd regs : Nat) (elems : List (Nat × Nat × Nat × Nat × Nat)) (zero : List (Nat × Nat))
  deriving DecidableEq, Repr

/-- An issued memory instruction whose accesses are outstanding (spec/04 R98–R101). -/
structure Acc where
  frame  : Nat
  seq    : Nat
  op     : AOp
  strong : Bool
  scope  : Nat
  cp     : Nat
  /-- urgent class at a bank (spec/09 R207) -/
  urg    : Bool
  /-- nominal order at a bank: CK cycle at which it left the core -/
  stamp  : Nat
  arith  : Word
  rnd    : List (BitVec 32)
  /-- a ganged thread issued it: its vector registers are 256 bits wide (spec/01 R20) -/
  gang   : Bool
  /-- register number that DETAIL [6:2] of a late outcome holds (spec/04 R100, spec/07 R168, spec/09 R210) -/
  areg   : Nat
  /-- flags set when it issued, that join those of its return: RNGW of an AMO (spec/02 R54) -/
  fl0    : Nat
  ret    : Ret
  parts  : List Part
  deriving DecidableEq, Repr

/-- A reservation of LR: the frame, the word's storage location, and the bank or slice that keeps it
(spec/09 R213); oldest first. -/
structure Resv where
  frame : Nat
  loc   : Nat
  unit  : Nat
  deriving DecidableEq, Repr

/-- An arrival at a barrier that has left or waits to leave its core (spec/12 R266, R272): the instance by launch, slot and
scope unit, the thread and the phase. -/
structure Arr where
  frame   : Nat
  seq     : Nat
  launch  : Option Nat
  slot    : Nat
  unit    : Nat
  thr     : Nat
  phase   : Nat
  release : Bool
  /-- sequence number at which the odd slot of a gang stood, for that thread's own earlier accesses -/
  odd     : Option Nat
  /-- it had left its core when a freeze came (spec/12 R270) -/
  left    : Bool
  deriving DecidableEq, Repr

/-- What a barrier instance holds of one thread (spec/12 R265–R267): its next phase, the phases for which its arrival has been
counted (those of C and later are kept), and the phases it is a member of: from `lo` on, below `hi` when that is given. -/
structure BThr where
  np  : Nat
  cnt : List Nat
  lo  : Nat
  hi  : Option Nat
  deriving DecidableEq, Repr

/-- A thread of the domain at launch start. -/
def BThr.start : BThr := ⟨0, [], 0, none⟩

/-- A barrier instance (spec/12 R264, R265): its launch (none for the dispatch and management cores, spec/12 R269),
slot, scope unit, phase counter, threads that differ from the start, and one more than the CK cycle of the last release
arrival counted for phase C and for phase C + 1 (spec/13 R301). -/
structure BInst where
  launch : Option Nat
  slot   : Nat
  unit   : Nat
  c      : Nat
  thr    : SMap BThr
  rel    : Nat
  relUp  : Nat
  deriving DecidableEq, Repr

/-- A wake on its way (spec/12 R275): its sender, and the target by launch and logical thread id, or by core and slot
where there is no launch.  The launch is the one that the entry held when the wake was sent: its generation number. -/
structure WakeMsg where
  frame  : Nat
  seq    : Nat
  launch : Option Nat
  gen    : Nat
  core   : Nat
  ltid   : Nat
  mask   : BitVec 32
  /-- sequence number at which the odd slot of a gang stood, for that thread's own earlier accesses -/
  odd    : Option Nat
  deriving DecidableEq, Repr

/-- An open ticket window (spec/13 R281–R283, R292). -/
structure Window where
  launch  : Nat
  owner   : Nat
  urg     : Bool
  /-- the base as its coherence location, and its address -/
  loc     : Nat
  va      : Nat
  et      : Nat
  nelm    : Nat
  ntm1    : Nat
  tlim    : Nat
  ctr     : SMap Nat
  /-- elements that hold a pending update: CK cycle from which the gap limit counts, moved on by the cycles in which a
  thread of the launch is frozen (spec/13 R289) -/
  gap     : SMap Nat
  /-- WFLAGS and WFAULTEL: for each flag, the lowest element that has it, with its flags -/
  wflags  : List (Nat × Nat)
  /-- backing array: die, offset in the overflow area and bytes reserved (spec/13 R287) -/
  die     : Nat
  ofs     : Nat
  bytes   : Nat
  part    : Nat
  deriving DecidableEq, Repr

/-- A cluster (spec/00 R2, spec/09). -/
structure Cluster where
  /-- L1MAP in force and a value that waits (spec/09 R198, R199) -/
  l1map   : Word
  l1pend  : Option Word
  /-- bank pointers (spec/09 R207) -/
  bankPtr : SMap Nat
  /-- line fills in flight: line address, with the page size and partition of the first miss in its low bits, and recipient
  tiles (spec/06 R133) -/
  fills   : List (Nat × List Nat)
  /-- waiting misses: line address, tile -/
  misses  : List (Nat × Nat)
  /-- neighbour links: words queued, keyed core-in-cluster × 2 + (1 eastward, 0 westward), by the link that arrives
  at the core (spec/08 R184) -/
  links   : SMap (List VWord)
  deriving DecidableEq, Repr

/-- A cluster after reset (spec/09 R198: L1MAP 0x410). -/
def Cluster.empty : Cluster :=
  { l1map := 0x410, l1pend := none, bankPtr := [], fills := [], misses := [], links := [] }

/-- Replacement class of an L2 line (spec/14 R314). -/
inductive LClass where
  | normal | evict | retain | pinned
  deriving DecidableEq, Repr

/-- Directory entry of a line held in a home slice; its data stand in the memory (spec/14 R313–R315). -/
structure Line where
  la    : Nat
  /-- physical address under which it was filled -/
  pa    : Nat
  way   : Nat
  dirty : Bool
  cls   : LClass
  stamp : Nat
  deriving DecidableEq, Repr

/-- A leaf translation: page base, Crumb size, leaf entry (spec/14 R309, R310). -/
structure Xlat where
  page  : Nat
  crumb : Bool
  leaf  : Word
  deriving DecidableEq, Repr

/-- An L2 slice (spec/14 R310, R313). -/
structure Slice where
  lines : List Line
  xlat  : List Xlat
  /-- walk cache: 2 MiB page number, level-2 entry -/
  walk  : List (Nat × Word)
  /-- pending updates of the slice's Praline unit -/
  pend  : List Upd
  deriving DecidableEq, Repr

/-- A slice after reset. -/
def Slice.empty : Slice := ⟨[], [], [], []⟩

/-- An unresolved fault record (spec/14 R311). -/
structure FaultRec where
  fid    : Nat
  slice  : Nat
  page   : Nat
  crumb  : Bool
  /-- the context whose accesses it holds, and the launch and frame of the first (spec/14 R311) -/
  ctx    : Nat
  launch : Option Nat
  part   : Nat
  frame  : Nat
  words  : List Word
  posted : Bool
  deriving DecidableEq, Repr

/-- State of a pending-launch entry (spec/15 R341). -/
inductive LState where
  | free | armed | pending | placed | closing | done
  deriving DecidableEq, Repr

/-- An entry of a die's pending-launch store (spec/15 R341). -/
structure LEntry where
  st     : LState
  gen    : Nat
  pkt    : List Word
  hdr    : KHdr
  /-- header address of the image; its code, pool and digest come from the loaded-image list -/
  image  : Nat
  ctx    : Nat
  part   : Nat
  mapv   : Nat
  map    : Word
  stk    : Word
  ptab   : Word
  region : List Word
  threads : Nat
  tiles  : Nat
  urgent : Bool
  disp   : Bool
  exact  : Bool
  rt     : Bool
  abort  : Bool
  fence  : Nat
  stream : Nat
  ckind  : Nat
  ctag   : Nat
  arrival : Nat
  d      : Nat
  late   : Bool
  tstart : Nat
  g5     : Word
  /-- tag that armed or fired it, and the slot of the firing message -/
  tag    : Option (Nat × Nat)
  /-- frames of its threads that have not halted -/
  live   : List Nat
  halted : Nat
  status : Nat
  cause  : Nat
  killed : Bool
  flags  : Nat
  fltid  : Option Nat
  sigs   : List (Nat × Word)
  /-- it has been placed: its tiles are its own -/
  started : Bool
  record : List Word
  posting : Bool
  deriving DecidableEq, Repr

/-- Header of a kernel that declares nothing (spec/03 R80 defaults). -/
def KHdr.none : KHdr := ⟨0xE0, false, false, false, 4, 4, 0, 0, 0, []⟩

/-- A free entry. -/
def LEntry.none : LEntry :=
  { st := .free, gen := 0, pkt := [], hdr := .none, image := 0, ctx := 0, part := 0, mapv := 0, map := 0, stk := 0,
    ptab := 0, region := List.replicate 4 0, threads := 0, tiles := 0, urgent := false, disp := false, exact := false,
    rt := false, abort := false, fence := 0, stream := 0, ckind := 0, ctag := 0, arrival := 0, d := 0, late := false,
    tstart := 0, g5 := 0, tag := Option.none, live := [], halted := 0, status := 0, cause := 0, killed := false,
    flags := 0, fltid := Option.none, sigs := [], started := false, record := [], posting := false }

/-- A dataflow channel of a physical cluster (spec/15 R349). -/
structure Chan where
  launch : Option Nat
  slots  : Nat
  next   : Nat
  /-- items held: sequence number, 64 bytes -/
  items  : List (Nat × List Byte)
  /-- slot of an item that a stream unit holds is still taken -/
  taken  : Nat
  deriving DecidableEq, Repr

/-- A channel that no launch holds. -/
def Chan.none : Chan := ⟨Option.none, 0, 0, [], 0⟩

/-- An item on its way (spec/15 R355). -/
structure Item where
  frame : Nat
  seq   : Nat
  pcl   : Nat
  lcl   : Nat
  chan  : Nat
  num   : Nat
  data  : List Byte
  deriving DecidableEq, Repr

/-- A synchronisation variable (spec/15 R352). -/
structure SVar where
  used    : Bool
  value   : Word
  part    : Nat
  /-- frames whose SWAIT waits on it -/
  waiters : List Nat
  deriving DecidableEq, Repr

/-- A variable that no partition holds. -/
def SVar.none : SVar := ⟨false, 0, 0, []⟩

/-- A held message of a tag: its slot and the launch it fired (spec/15 R334, R341). -/
structure Msg where
  slot  : Nat
  fired : Option Nat
  deriving DecidableEq, Repr

/-- A tag's held messages in the order of their arrival, the slot written last, DROP, and the armed template
(spec/15 R331 TCTL, R334). -/
structure Tag where
  msgs  : List Msg
  last  : Option Nat
  drop  : Nat
  armed : Option Nat
  deriving DecidableEq, Repr

/-- A tag after reset. -/
def Tag.none : Tag := ⟨[], Option.none, 0, Option.none⟩

/-- A post that a unit of the device has made and that waits for a slot (spec/15 R409). -/
structure UPost where
  tag   : Nat
  part  : Nat
  words : List Word
  /-- launch entry whose record it is, and the word that takes the TIME of the posting -/
  entry : Option Nat
  tend  : Option Nat
  deriving DecidableEq, Repr

/-- A loaded image (spec/03 R84, R85; spec/16 R373): header address, partition, CODE and POOL addresses and the first
eight bytes of its digest, and its kernel headers. -/
structure Image where
  addr    : Nat
  part    : Nat
  code    : Nat
  pool    : Nat
  /-- bytes from one copy of the pool to the next: copy T is that of tile index T, and
  copy 64 + T that of an urgent launch's (spec/09 R203) -/
  poolLen : Nat
  digest  : Word
  errata  : Nat
  /-- the L1MAP for which the BASE of each tile-sequential record is written (spec/09 R203) -/
  map     : Word
  kernels : List (Nat × KHdr)
  /-- L1 records: place (interleaved or not), length, log2 alignment, offset, initial contents -/
  l1recs  : List (Bool × Nat × Nat × Nat × List Byte)
  deriving DecidableEq, Repr


/-- Power state of a cluster (spec/16 R375). -/
inductive PState where
  | on | quiescing | quiet | saved | clkoff | off | waking
  deriving DecidableEq, Repr

/-- Power handshake of a cluster: state, completed wakes, whether L1 was lost while off, and whether a built-in test of
its tiles is due at the next wake (spec/16 R375, R376). -/
structure Power where
  st    : PState
  wakes : Nat
  lost  : Bool
  test  : Bool
  deriving DecidableEq, Repr

/-- A cluster that is on. -/
def Power.on : Power := ⟨.on, 0, false, false⟩

/-- Who posted the message in a slot (spec/17 R386: the slot records the poster's context): its launch and that entry's
generation, its level and frame, its partition, and its context's rights, map and REGION values. -/
structure Poster where
  launch : Option Nat
  gen    : Nat
  priv   : Priv
  urg    : Bool
  part   : Nat
  /-- every right holds: a thread of the management core -/
  all    : Bool
  table  : Nat
  map    : Word
  mapv   : Nat
  region : List Word
  /-- ALLREDs with the GROUP and MEMBERS of this one that were posted to the command tags of the die before it
  (spec/17 R388) -/
  nth    : Nat
  deriving DecidableEq, Repr

/-- Stage of a ring command (spec/17 R384–R391). -/
inductive RStage where
  | running | ended
  deriving DecidableEq, Repr

/-- A ring command that its engine has taken (spec/17 R385). -/
structure RJob where
  tag    : Nat
  slot   : Nat
  part   : Nat
  words  : List Word
  who    : Poster
  /-- TIME at the take -/
  since  : Nat
  stage  : RStage
  status : Nat
  /-- elements or bytes written -/
  aux    : Nat
  /-- chunks that this member has combined, and chunks whose final values it has written -/
  passed : List Nat
  chunks : List Nat
  flags  : Nat
  flel   : Option Nat
  poison : Bool
  /-- sequence number of the command (spec/17 R383) -/
  num    : Nat
  deriving DecidableEq, Repr

/-- A ring message that leaves the package (spec/17 R387–R389, R394, R395): destination position (16: round the ring, or back
to a sender), route, real-time class, kind (0 token, 1 post, 2 answer to a post, 3 partial chunk, 4 final chunk, 5 abort,
6 mismatch, 7 engine failure), header fields and words. -/
structure RMsg where
  dest  : Nat
  east  : Bool
  urg   : Bool
  kind  : Nat
  head  : List Nat
  words : List Word
  deriving DecidableEq, Repr

/-- A ring port: lanes in use and spares used each way, good lanes, and the link state (spec/17 R380–R383, R392). -/
structure Port where
  rxw    : Nat
  rxsp   : Nat
  txw    : Nat
  txsp   : Nat
  rxbad  : List Nat
  txbad  : List Nat
  up     : Bool
  replays : Nat
  /-- messages that wait for a flit slot, in the order of their making (spec/17 R381) -/
  queue  : List RMsg
  /-- the receiver's last room bit of each virtual channel: message normal and real-time, reduce normal and real-time -/
  room   : BitVec 4
  /-- sequence number of the next flit sent, and of the next flit expected -/
  txSeq  : BitVec 12
  rxSeq  : BitVec 12
  /-- replay buffer: flits sent and not yet acknowledged, oldest first, at most 512 -/
  buf    : List (BitVec 12 × RMsg)
  deriving DecidableEq, Repr

/-- A flit that leaves a port: its sequence number, the room bits of this end for the opposite direction, and its message
(spec/17 R381). -/
structure Flit where
  seq  : BitVec 12
  room : BitVec 4
  msg  : RMsg
  deriving DecidableEq, Repr

/-- A port after package reset (spec/17 R392). -/
def Port.reset : Port := ⟨16, 0, 16, 0, [], [], false, 0, [], 15#4, 0, 0, []⟩

/-- A die's ring engine (spec/17). -/
structure Ring where
  jobs   : List RJob
  /-- partition served last (spec/17 R384) -/
  last   : Nat
  /-- ALLREDs posted to the command tags of the die, for a GROUP and MEMBERS value (spec/17 R388) -/
  counts : SMap Nat
  port   : Port
  /-- commands taken: the sequence number of the next one (spec/17 R383) -/
  taken  : Nat
  /-- posts received that were accepted or refused: sender's position, its engine's die and its command's number -/
  got    : List (Nat × Nat × Nat)
  deriving DecidableEq, Repr

/-- A ring engine after package reset. -/
def Ring.reset : Ring := ⟨[], 7, [], .reset, 0, []⟩

/-- The value that a word had before a launch wrote to it, which the reads of a command may still see while nothing orders the
write before the command (spec/08 R196). -/
structure Unfenced where
  /-- number of the write: FENCEX orders those below its mark -/
  num    : Nat
  /-- coherence location of the word -/
  loc    : Nat
  old    : Word
  /-- the queue whose command wrote it: its later commands see the write (spec/10 R239, spec/11 R254) -/
  queue  : Option Nat
  /-- launch that wrote it -/
  launch : Nat
  deriving DecidableEq, Repr

/-- Why the package accepts nothing more (spec/16 R367, R377). -/
inductive Halt where
  | fatal | thermal
  deriving DecidableEq, Repr

/-- One turn of the model's scheduler: which agent moves (log 5). -/
inductive Turn where
  /-- the frame issues its next instruction -/
  | issue (frame : Nat)
  /-- the frame's fetch of its next sequential block (spec/06 R130) -/
  | prefetch (frame : Nat)
  /-- a device event takes place -/
  | event (i : Instr)
  /-- a thread's register store is performed -/
  | regStore (frame seq : Nat)
  /-- CK and FK cycles pass -/
  | time (ck fk : Nat)
  /-- an uncorrectable error of ECC in the word at a storage key (spec/14 R321) -/
  | softError (key : Nat)
  /-- an error of ECC that a die corrects (spec/14 R321) -/
  | corrected (die : Nat)
  /-- a check value of the line at a storage key fails where a die verifies it (spec/14 R323, spec/16 R358) -/
  | badLine (die key : Nat)
  /-- the check value of a line of data on its way to a thread fails where its receiver verifies it: the load or atomic that it
  answers, and the line's address (spec/14 R323) -/
  | badReturn (frame seq line : Nat)
  /-- the same of the data that the current command of a tile's copy engine has read -/
  | badBurst (tile : Nat) (urg : Bool)
  /-- the same of a store's line at the host port, before the data leave -/
  | badHostStore (frame seq place : Nat)
  /-- the same of a message's line at a ring port, before it leaves: its place in the port's queue -/
  | badRingLine (die place : Nat)
  /-- a port sends its next flit (spec/17 R381) -/
  | flit (die : Nat)
  /-- the receiver has acknowledged a port's oldest flits, `n` of them -/
  | flitAck (die n : Nat)
  /-- a flit has come in at a port, with the sequence number and the room bits of its header -/
  | flitIn (die : Nat) (seq : BitVec 12) (room : BitVec 4)
  /-- a link of the ring that is none of this package's own, from a position eastward, goes down or comes up
  (spec/17 R383, R392) -/
  | farLink (link : Nat) (up : Bool)
  /-- a ring engine begins a chunk that its member starts (spec/17 R389) -/
  | startChunk (die job chunk : Nat)
  deriving DecidableEq, Repr

/-- The whole machine. -/
structure State where
  /-- turns still to come; when it is empty the model's own rule says who moves (log 5) -/
  tape     : List Turn
  /-- turns taken by the model's own rule: the place of its rotations (log 5) -/
  turn     : Nat
  /-- the frame whose instruction executes -/
  cur      : Nat
  /-- cycles since package reset, and the cycles that each step takes (log 6) -/
  ck       : Nat
  fk       : Nat
  ckRate   : Nat
  fkRate   : Nat
  /-- free values drawn so far (log 7) -/
  fresh    : Nat
  frames   : SMap Frame
  cores    : SMap CoreSt
  tiles    : SMap Tile
  clusters : SMap Cluster
  power    : SMap Power
  accums   : SMap Accum
  mem      : List Host.Cell
  poison   : SMap Bool
  accs     : List Acc
  resvs    : List Resv
  barriers : List BInst
  arrs     : List Arr
  /-- words whose earlier values the engines may still read, in the order of their writes, and the number of the next write
  (spec/08 R196) -/
  unfenced : List Unfenced
  olds     : Nat
  wakes    : List WakeMsg
  windows  : SMap Window
  slices   : SMap Slice
  faults   : List FaultRec
  fids     : Nat
  regs     : SMap Word
  launches : SMap LEntry
  arrivals : SMap Nat
  /-- launches that the present round of the weighted rotation of background launches has chosen, by die × 16 + partition
  (spec/15 R342) -/
  share    : SMap Nat
  chans    : SMap Chan
  items    : List Item
  svars    : SMap SVar
  tags     : SMap Tag
  posters  : SMap Poster
  uposts   : List UPost
  images   : List Image
  /-- public keys of each partition's list (spec/16 R373) -/
  keys     : SMap (List (List Byte))
  /-- launches that a decision has chosen to place (spec/15 R342) -/
  placing  : List Nat
  /-- serial number of the next engine command -/
  serials  : Nat
  /-- life-cycle state, scrub in progress, firmware verified and its digest (spec/16 R369–R371) -/
  life     : Nat
  wipe     : Bool
  fwOk     : Bool
  fwDigest : List Byte
  /-- the identity private key is held (spec/16 R370) -/
  idKey    : Bool
  /-- die-to-die modules out of use (spec/16 R358) -/
  d2dBad   : List Nat
  halt     : Option Halt
  /-- count of check-value mismatches of each die (spec/14 R323), and of corrected errors -/
  integrity : SMap Nat
  /-- what the last measurement of each die chose: two-phase routing (spec/14 R326) -/
  twoPhase : SMap Bool
  /-- ERR bits of the HBMSLOT registers, by die × 8 + partition: spec/14 R318 names them and R329 gives them no place in the
  register -/
  slotErr  : SMap Bool
  /-- reports made to a partition's supervisor beside records and posts, for which the spec gives no form: partition, kind
  (1 a retired core, 2 a failed copy engine, 3 a failed matrix engine), core or tile (spec/06 R144, spec/10 R237,
  spec/11 R253; log 29) -/
  notices  : List (Nat × Nat × Nat)
  /-- ring: position, n, configured and confirmed (spec/17 R379) -/
  ringPos  : Nat
  ringN    : Nat
  ringSet  : Bool
  ringCfg  : Bool
  /-- links of the ring elsewhere that are down, by the position at their west end (spec/17 R383, R392) -/
  farDown  : List Nat
  ring     : SMap Ring
  /-- what leaves the package: MSI-X vectors fired, ring messages, stores to host pages, attestation reports, in order -/
  msi      : List (Nat × Nat)
  ringOut  : List Flit
  hostOut  : List (Nat × Nat × Word)
  reports  : List (List Byte)
  deriving DecidableEq, Repr

/-- Why a step stops the machine. -/
inductive Fault where
  /-- raised by `step` and every meaning while the package accepts nothing more: after a fatal event (spec/16 R367) or a
  thermal shutdown (spec/16 R377), until a package reset.  Safe: the spec gives the machine no further step. -/
  | stopped
  deriving DecidableEq, Repr

/-- Why the model gives no meaning. -/
inductive Refusal where
  /-- raised by an arm of the dispatch alone: the instruction has no meaning yet.  Safe: nothing is claimed of it. -/
  | notModelled (mnemonic : String)
  deriving DecidableEq, Repr

/-- The machine right after a package reset: nothing runs, every register holds the value that the spec states for reset
or that a log entry names, memory lists nothing, and the scrub of the HBM runs (spec/16 R360, R370).  No program is
loaded: threads come to run by launches and by firmware (log 8). -/
def State.reset : State :=
  { tape := [], turn := 0, cur := 0, ck := 0, fk := 0, ckRate := 1, fkRate := 1, fresh := 0,
    frames := [], cores := [], tiles := [], clusters := [], power := [], accums := [], mem := [], poison := [],
    accs := [], resvs := [], barriers := [], arrs := [], unfenced := [], olds := 0, wakes := [], windows := [], slices := [], faults := [],
    fids := 0, regs := [], launches := [], arrivals := [], share := [], chans := [], items := [], svars := [],
    tags := [], posters := [], uposts := [], images := [], keys := [], placing := [], serials := 0,
    life := 0, wipe := true, fwOk := false, fwDigest := List.replicate 64 0, idKey := false, d2dBad := [],
    halt := none, integrity := [], twoPhase := [], slotErr := [], notices := [],
    ringPos := 0, ringN := 0, ringSet := false, ringCfg := false, farDown := [], ring := [], msi := [], ringOut := [], hostOut := [], reports := [] }

end Sys2Proof.Machine
end

