-- ==== Sys2Proof/Machine/Map.lean ====
section
/-!
DEFINITION. Machine/Map.lean: reading and writing the sparse maps of State, whose entries stand in strictly rising key
order (log 2).
-/
namespace Sys2Proof.Machine

/-- The entry of a key, if it is listed. -/
def look {α : Type} : SMap α → Nat → Option α
  | [], _ => none
  | (k, x) :: t, n => if n = k then some x else if n < k then none else look t n

/-- The entry of a key, or the default. -/
def lookD {α : Type} (m : SMap α) (n : Nat) (d : α) : α := (look m n).getD d

/-- Sets the entry of a key. -/
def put {α : Type} : SMap α → Nat → α → SMap α
  | [], n, x => [(n, x)]
  | (k, y) :: t, n, x =>
    if n = k then (n, x) :: t else if n < k then (n, x) :: (k, y) :: t else (k, y) :: put t n x

/-- Drops the entry of a key. -/
def drop {α : Type} : SMap α → Nat → SMap α
  | [], _ => []
  | (k, y) :: t, n => if n = k then t else if n < k then (k, y) :: t else (k, y) :: drop t n

/-- Sets the entry of a key, or drops it when it equals the default: the canonical form of memory. -/
def putCanon {α : Type} [DecidableEq α] (d : α) (m : SMap α) (n : Nat) (x : α) : SMap α :=
  if x = d then drop m n else put m n x

/-- Keys stand in strictly rising order. -/
def sorted {α : Type} : SMap α → Bool
  | [] => true
  | [_] => true
  | (k, _) :: (k', y) :: t => decide (k < k') && sorted ((k', y) :: t)

/-- Replaces the `n`th element of a list; a list too short is left alone. -/
def setAt {α : Type} (l : List α) (n : Nat) (x : α) : List α := l.set n x

/-- Drops the `n`th element of a list. -/
def dropAt {α : Type} : List α → Nat → List α
  | [], _ => []
  | _ :: t, 0 => t
  | h :: t, n + 1 => h :: dropAt t n

/-- Sets a truth value, listing only true entries. -/
def putFlag (m : SMap Bool) (n : Nat) (b : Bool) : SMap Bool := if b then put m n true else drop m n

/-- The first element that satisfies a test, with its place. -/
def findAt {α : Type} (p : α → Bool) : List α → Nat → Option (Nat × α)
  | [], _ => none
  | h :: t, n => if p h then some (n, h) else findAt p t (n + 1)

/-- Changes the elements that satisfy a test. -/
def updWhere {α : Type} (p : α → Bool) (f : α → α) (l : List α) : List α := l.map fun x => if p x then f x else x

/-- Changes every entry of a map. -/
def mapVals {α : Type} (f : Nat → α → α) (m : SMap α) : SMap α := m.map fun (k, x) => (k, f k x)

end Sys2Proof.Machine
end

