-- ==== Sys2Proof/Machine/Regs.lean ====
section
/-!
DEFINITION. Machine/Regs.lean: the pieces of State under their keys, and a frame's registers: every read and write of a
g, v or p register goes through here (spec/01 R14, R20).
-/
namespace Sys2Proof.Machine

/-- Core of a frame key. -/
def coreOf (f : Nat) : Nat := f / 5
/-- Slot of a frame key: 0–3, or 4 for the urgent frame. -/
def slotOf (f : Nat) : Nat := f % 5
/-- A core of a tile (spec/15 R331: k < 16,384). -/
def isTileCore (k : Nat) : Bool := k < 16384
/-- The management core. -/
def mgmtCore : Nat := 16386
/-- Tile key of a core; a core outside the tiles has a key of its own for its instruction cache. -/
def tileOf (k : Nat) : Nat := if k < 16384 then k / 16 else 1024 + (k - 16384)
/-- Physical cluster of a core; a core outside the tiles has a key of its own for its fetches. -/
def clusterOf (k : Nat) : Nat := if k < 16384 then k / 1024 else 16 + (k - 16384)
/-- Die of a core (spec/00 R3): the management core lies on D0. -/
def dieOf (k : Nat) : Nat := if k < 16384 then k / 8192 else if k = 16385 then 1 else 0
/-- Tile index within the cluster, T of spec/09 R197. -/
def tileInCluster (tile : Nat) : Nat := tile % 64

/-- What kind of context a frame key has before one is placed in it. -/
def frameKind0 (f : Nat) : FKind :=
  if coreOf f = mgmtCore then .mgmt else if coreOf f ≥ 16384 then .dispatch
  else if slotOf f = 4 then .urgent else .slot

/-- A frame by its key. -/
def State.frame (s : State) (f : Nat) : Frame := lookD s.frames f (.empty (frameKind0 f))
/-- Writes a frame. -/
def State.setFrame (s : State) (f : Nat) (x : Frame) : State := { s with frames := put s.frames f x }
/-- Changes a frame. -/
def State.updFrame (s : State) (f : Nat) (u : Frame → Frame) : State := s.setFrame f (u (s.frame f))
/-- A core. -/
def State.core (s : State) (k : Nat) : CoreSt := lookD s.cores k .empty
/-- Writes a core. -/
def State.setCore (s : State) (k : Nat) (x : CoreSt) : State := { s with cores := put s.cores k x }
/-- Changes a core. -/
def State.updCore (s : State) (k : Nat) (u : CoreSt → CoreSt) : State := s.setCore k (u (s.core k))
/-- A tile. -/
def State.tile (s : State) (t : Nat) : Tile := lookD s.tiles t .empty
/-- Writes a tile. -/
def State.setTile (s : State) (t : Nat) (x : Tile) : State := { s with tiles := put s.tiles t x }
/-- Changes a tile. -/
def State.updTile (s : State) (t : Nat) (u : Tile → Tile) : State := s.setTile t (u (s.tile t))
/-- A cluster. -/
def State.cluster (s : State) (c : Nat) : Cluster := lookD s.clusters c .empty
/-- Writes a cluster. -/
def State.setCluster (s : State) (c : Nat) (x : Cluster) : State := { s with clusters := put s.clusters c x }
/-- Changes a cluster. -/
def State.updCluster (s : State) (c : Nat) (u : Cluster → Cluster) : State := s.setCluster c (u (s.cluster c))
/-- Power state of a cluster. -/
def State.pow (s : State) (c : Nat) : Power := lookD s.power c .on
/-- An L2 slice, by package number. -/
def State.slice (s : State) (n : Nat) : Slice := lookD s.slices n .empty
/-- Writes a slice. -/
def State.setSlice (s : State) (n : Nat) (x : Slice) : State := { s with slices := put s.slices n x }
/-- A pending-launch entry, by die × 256 + entry. -/
def State.entry (s : State) (e : Nat) : LEntry := lookD s.launches e .none
/-- Writes an entry. -/
def State.setEntry (s : State) (e : Nat) (x : LEntry) : State := { s with launches := put s.launches e x }
/-- Changes an entry. -/
def State.updEntry (s : State) (e : Nat) (u : LEntry → LEntry) : State := s.setEntry e (u (s.entry e))
/-- A ticket window. -/
def State.window (s : State) (w : Nat) : Option Window := look s.windows w
/-- A dataflow channel of a physical cluster. -/
def State.chan (s : State) (pcl c : Nat) : Chan := lookD s.chans (pcl * 64 + c) .none
/-- Writes a channel. -/
def State.setChan (s : State) (pcl c : Nat) (x : Chan) : State := { s with chans := put s.chans (pcl * 64 + c) x }
/-- A tag. -/
def State.tag (s : State) (t : Nat) : Tag := lookD s.tags t .none
/-- Writes a tag. -/
def State.setTag (s : State) (t : Nat) (x : Tag) : State := { s with tags := put s.tags t x }
/-- An accumulator: core × 6, then a0–a3, a8, a9 (spec/11 R242). -/
def State.accum (s : State) (k n : Nat) : Accum := lookD s.accums (k * 6 + if n ≥ 8 then n - 4 else n) .clear
/-- Writes an accumulator. -/
def State.setAccum (s : State) (k n : Nat) (x : Accum) : State :=
  { s with accums := put s.accums (k * 6 + if n ≥ 8 then n - 4 else n) x }

/-- g register: g0 reads zero (spec/01 R14). -/
def Frame.gr (x : Frame) (n : Nat) : Word := if n = 0 then 0 else x.g.getD n 0
/-- Writes a g register: a write of g0 is discarded (spec/01 R14). -/
def Frame.setGr (x : Frame) (n : Nat) (w : Word) : Frame := if n = 0 then x else { x with g := x.g.setIfInBounds n w }
/-- One slot's half of a vector register. -/
def Frame.vr (x : Frame) (n : Nat) : VWord := x.v.getD n 0
/-- Writes one slot's half of a vector register. -/
def Frame.setVr (x : Frame) (n : Nat) (w : VWord) : Frame := { x with v := x.v.setIfInBounds n w }
/-- One slot's half of a predicate: p0 reads all-true (spec/01 R14). -/
def Frame.pr (x : Frame) (n : Nat) : Pred := if n = 0 then BitVec.allOnes 16 else x.p.getD n 0
/-- Writes one slot's half of a predicate: a write of p0 is discarded. -/
def Frame.setPr (x : Frame) (n : Nat) (w : Pred) : Frame := if n = 0 then x else { x with p := x.p.setIfInBounds n w }

/-- The executing frame. -/
def State.me (s : State) : Frame := s.frame s.cur
/-- Changes the executing frame. -/
def State.updMe (s : State) (u : Frame → Frame) : State := s.updFrame s.cur u
/-- g register of the executing frame. -/
def State.g (s : State) (n : Nat) : Word := s.me.gr n
/-- Writes a g register of the executing frame. -/
def State.setG (s : State) (n : Nat) (w : Word) : State := s.updMe (·.setGr n w)

/-- VWIDTH in bytes: 16, or 32 for a ganged pair (spec/01 R20, spec/00 R4). -/
def Frame.vbytes (x : Frame) : Nat := if x.gang then 32 else 16
/-- The odd slot of a ganged even slot. -/
def oddOf (f : Nat) : Nat := f + 1

/-- A vector register of a slot, or of a pair of slots as a gang has it: the odd slot holds the upper half
(spec/01 R20). -/
def State.vregOf (s : State) (f n : Nat) (gang : Bool) : Nat :=
  if gang then ((s.frame (oddOf f)).vr n).toNat * 2 ^ 128 + ((s.frame f).vr n).toNat else ((s.frame f).vr n).toNat
/-- Writes a vector register of a slot or of a pair. -/
def State.setVregOf (s : State) (f n : Nat) (w : Nat) (gang : Bool) : State :=
  let s' := s.updFrame f (·.setVr n (BitVec.ofNat 128 w))
  if gang then s'.updFrame (oddOf f) (·.setVr n (BitVec.ofNat 128 (w / 2 ^ 128))) else s'
/-- A vector register of a thread as one number of VWIDTH bits (spec/01 R20). -/
def State.vreg (s : State) (f n : Nat) : Nat := s.vregOf f n (s.frame f).gang
/-- Writes a vector register of a thread. -/
def State.setVreg (s : State) (f n : Nat) (w : Nat) : State := s.setVregOf f n w (s.frame f).gang
/-- A predicate of a thread as one number, a bit for each byte lane of VWIDTH (spec/01 R15, R20). -/
def State.preg (s : State) (f n : Nat) : Nat :=
  let x := s.frame f
  if x.gang then ((s.frame (oddOf f)).pr n).toNat * 2 ^ 16 + (x.pr n).toNat else (x.pr n).toNat
/-- Writes a predicate of a thread. -/
def State.setPreg (s : State) (f n : Nat) (w : Nat) : State :=
  let s' := s.updFrame f (·.setPr n (BitVec.ofNat 16 w))
  if (s.frame f).gang then s'.updFrame (oddOf f) (·.setPr n (BitVec.ofNat 16 (w / 2 ^ 16))) else s'

/-- The thread whose trap registers, identity, PHASE, FLAGS and FAULTEL a frame names: the served thread for a handler
frame, else itself (spec/01 R22). -/
def State.named (s : State) (f : Nat) : Nat :=
  match (s.frame f).kind with
  | .handler t => t
  | _ => f

/-- TIME in ticks of 64 FK cycles (spec/01 R30). -/
def State.time (s : State) : Nat := s.fk / 64

end Sys2Proof.Machine
end

