-- ==== Sys2Proof/Machine/Register.lean ====
section
/-!
DEFINITION. Machine/Register.lean: the device-register window (spec/16 R359): which address names which register, who may
read and write it, its field types and what a read returns (spec/14 R328, R329; spec/15 R331; spec/16 R360, R361;
spec/09 R198).
-/
namespace Sys2Proof.Machine

/-- The device registers by name. -/
inductive Reg where
  | lcstate | lcreq | mevt | therm | hostnak | mhstk
  | prst (p : Nat) | msimap (p k : Nat)
  | tbase (d : Nat) | fresume (d : Nat) | meshctl (d : Nat) | meshqos (d : Nat)
  | l2ways (d p : Nat) | hbmslot (d p : Nat) | pralovf (d p : Nat) | pinbyp (d p : Nat)
  | l2opbase (d p : Nat) | l2oplen (d p : Nat) | l2op (d p : Nat)
  | hvec (p : Nat) | hstk (p : Nat) | pmisc (p : Nat) | lkillReg
  | ctl (n : Nat) | map (n : Nat) | stk (n : Nat) | ptab (n : Nat) | region (n i : Nat)
  | rect (r : Nat) | rectrst (r : Nat) | stream (n : Nat) | tbuf (t : Nat) | tctl (t : Nat)
  | l1map (c : Nat) | chksel (c : Nat) | chkcnt (c : Nat) | cpwrctl (c : Nat) | cpwrst (c : Nat) | cwakeReg (c : Nat)
  deriving DecidableEq, Repr

/-- Base of the device-register window. -/
def regWindow : Nat := 0xFF00000000
/-- Base of a die's memory control block (spec/14 R328). -/
def dieBlock (d : Nat) : Nat := 0xFF01000000 + d * 0x100000
/-- Base of the scheduling control block (spec/15 R331). -/
def schedBlock : Nat := 0xFF02000000
/-- Base of a cluster control block (spec/16 R359). -/
def clusterBlock (c : Nat) : Nat := 0xFF03000000 + c * 0x1000

/-- Address of a register. -/
def Reg.addr : Reg → Nat
  | .lcstate => regWindow | .lcreq => regWindow + 8 | .mevt => regWindow + 0x10 | .therm => regWindow + 0x18
  | .hostnak => regWindow + 0x20 | .mhstk => regWindow + 0x28
  | .prst p => regWindow + 0x100 + 8 * p | .msimap p k => regWindow + 0x200 + 8 * (64 * p + k)
  | .tbase d => dieBlock d | .fresume d => dieBlock d + 8 | .meshctl d => dieBlock d + 0x10
  | .meshqos d => dieBlock d + 0x18
  | .l2ways d p => dieBlock d + 0x40 + 8 * p | .hbmslot d p => dieBlock d + 0x80 + 8 * p
  | .pralovf d p => dieBlock d + 0xC0 + 8 * p | .pinbyp d p => dieBlock d + 0x100 + 8 * p
  | .l2opbase d p => dieBlock d + 0x200 + 0x20 * p | .l2oplen d p => dieBlock d + 0x208 + 0x20 * p
  | .l2op d p => dieBlock d + 0x210 + 0x20 * p
  | .hvec p => schedBlock + 0x20 * p | .hstk p => schedBlock + 0x20 * p + 8
  | .pmisc p => schedBlock + 0x20 * p + 0x10 | .lkillReg => schedBlock + 0x100
  | .ctl n => schedBlock + 0x1000 + 0x40 * n | .map n => schedBlock + 0x1008 + 0x40 * n
  | .stk n => schedBlock + 0x1010 + 0x40 * n | .ptab n => schedBlock + 0x1018 + 0x40 * n
  | .region n i => schedBlock + 0x1020 + 0x40 * n + 8 * i
  | .rect r => schedBlock + 0x5000 + 8 * r | .rectrst r => schedBlock + 0x5080 + 8 * r
  | .stream n => schedBlock + 0x5100 + 8 * n
  | .tbuf t => schedBlock + 0x10000 + 0x10 * t | .tctl t => schedBlock + 0x10008 + 0x10 * t
  | .l1map c => clusterBlock c | .chksel c => clusterBlock c + 8 | .chkcnt c => clusterBlock c + 0x10
  | .cpwrctl c => clusterBlock c + 0x100 | .cpwrst c => clusterBlock c + 0x108 | .cwakeReg c => clusterBlock c + 0x110

/-- The register of the package control block at an offset (spec/16 R360). -/
def pkgReg (o : Nat) : Option Reg :=
  if o % 8 ≠ 0 then none
  else if o = 0 then some .lcstate else if o = 8 then some .lcreq else if o = 0x10 then some .mevt
  else if o = 0x18 then some .therm else if o = 0x20 then some .hostnak else if o = 0x28 then some .mhstk
  else if 0x100 ≤ o ∧ o < 0x140 then some (.prst ((o - 0x100) / 8))
  else if 0x200 ≤ o ∧ o < 0x1200 then some (.msimap ((o - 0x200) / 512) ((o - 0x200) / 8 % 64))
  else none

/-- The register of a die memory control block at an offset (spec/14 R328). -/
def dieReg (d o : Nat) : Option Reg :=
  if o % 8 ≠ 0 then none
  else if o = 0 then some (.tbase d) else if o = 8 then some (.fresume d) else if o = 0x10 then some (.meshctl d)
  else if o = 0x18 then some (.meshqos d)
  else if 0x40 ≤ o ∧ o < 0x80 then some (.l2ways d ((o - 0x40) / 8))
  else if 0x80 ≤ o ∧ o < 0xC0 then some (.hbmslot d ((o - 0x80) / 8))
  else if 0xC0 ≤ o ∧ o < 0x100 then some (.pralovf d ((o - 0xC0) / 8))
  else if 0x100 ≤ o ∧ o < 0x140 then some (.pinbyp d ((o - 0x100) / 8))
  else if 0x200 ≤ o ∧ o < 0x300 then
    let p := (o - 0x200) / 0x20
    match (o - 0x200) % 0x20 with
    | 0 => some (.l2opbase d p) | 8 => some (.l2oplen d p) | 16 => some (.l2op d p) | _ => none
  else none

/-- The register of the scheduling control block at an offset (spec/15 R331). -/
def schedReg (o : Nat) : Option Reg :=
  if o % 8 ≠ 0 then none
  else if o < 0x100 then
    match o % 0x20 with
    | 0 => some (.hvec (o / 0x20)) | 8 => some (.hstk (o / 0x20)) | 16 => some (.pmisc (o / 0x20)) | _ => none
  else if o = 0x100 then some .lkillReg
  else if 0x1000 ≤ o ∧ o < 0x5000 then
    let n := (o - 0x1000) / 0x40
    match (o - 0x1000) % 0x40 with
    | 0 => some (.ctl n) | 8 => some (.map n) | 16 => some (.stk n) | 24 => some (.ptab n)
    | k => some (.region n ((k - 32) / 8))
  else if 0x5000 ≤ o ∧ o < 0x5080 then some (.rect ((o - 0x5000) / 8))
  else if 0x5080 ≤ o ∧ o < 0x5100 then some (.rectrst ((o - 0x5080) / 8))
  else if 0x5100 ≤ o ∧ o < 0x5300 then some (.stream ((o - 0x5100) / 8))
  else if 0x10000 ≤ o ∧ o < 0x20000 then
    if o % 16 = 0 then some (.tbuf ((o - 0x10000) / 16)) else some (.tctl ((o - 0x10000) / 16))
  else none

/-- The register of a cluster control block at an offset (spec/16 R361). -/
def clusterReg (c o : Nat) : Option Reg :=
  if o = 0 then some (.l1map c) else if o = 8 then some (.chksel c) else if o = 0x10 then some (.chkcnt c)
  else if o = 0x100 then some (.cpwrctl c) else if o = 0x108 then some (.cpwrst c)
  else if o = 0x110 then some (.cwakeReg c) else none

/-- The register that an address names (spec/16 R359). -/
def Reg.ofAddr (a : Nat) : Option Reg :=
  if a < regWindow then none
  else if a < regWindow + 0x1200 then pkgReg (a - regWindow)
  else if dieBlock 0 ≤ a ∧ a < dieBlock 1 then dieReg 0 (a - dieBlock 0)
  else if dieBlock 1 ≤ a ∧ a < dieBlock 2 then dieReg 1 (a - dieBlock 1)
  else if schedBlock ≤ a ∧ a < schedBlock + 0x20000 then schedReg (a - schedBlock)
  else if clusterBlock 0 ≤ a ∧ a < clusterBlock 16 then
    clusterReg ((a - clusterBlock 0) / 0x1000) ((a - clusterBlock 0) % 0x1000)
  else none

/-- Ones from bit `lo` to bit `hi`. -/
def ones (hi lo : Nat) : Nat := 2 ^ (hi + 1) - 2 ^ lo

/-- The RW bits of a register. -/
def Reg.rw : Reg → Nat
  | .therm => ones 9 0 | .mhstk => ones 47 4 | .msimap _ _ => 0x8FFF
  | .tbase _ => ones 51 12 | .meshctl _ => ones 17 0 | .meshqos _ => ones 31 0
  | .l2ways _ _ => 0xFFFF | .hbmslot _ _ => ones 63 0 | .pralovf _ _ => ones 11 0 + ones 47 21
  | .l2opbase _ _ => ones 47 10 | .l2oplen _ _ => ones 40 10
  | .hvec _ => ones 47 1 | .hstk _ => ones 47 10 | .pmisc _ => ones 19 0
  | .ctl _ => ones 3 0 + ones 31 16 | .map _ => ones 63 0 | .stk _ => ones 47 10 | .ptab _ => ones 47 3
  | .region _ _ => ones 1 0 + ones 47 10
  | .rect _ => ones 10 0 + ones 15 15 | .stream _ => ones 15 0
  | .tbuf _ => ones 47 0 | .tctl _ => ones 6 0
  | .chksel _ => ones 9 0 | .cpwrctl _ => ones 4 0
  | _ => 0

/-- The W1C bits that the register word itself holds. -/
def Reg.w1c : Reg → Nat
  | .lcreq => ones 63 63 | .mevt => ones 7 0 | .hostnak => ones 31 0 | .fresume _ => ones 63 63
  | .pinbyp _ _ => ones 47 0 | .l2op _ _ => ones 62 62 | .lkillReg => ones 63 63 | .rect _ => ones 62 62
  | .cpwrctl _ => ones 31 31 | _ => 0

/-- Reset value of the stored word. -/
def Reg.reset : Reg → Word
  | .therm => 520 | .meshctl _ => 0x20C0 | .meshqos _ => 0x11111111 | .l2ways _ _ => 0xFFFF
  | .pmisc _ => 0x1000 | .cpwrctl _ => 16 | _ => 0

/-- The stored word of a register. -/
def State.reg (s : State) (r : Reg) : Word := lookD s.regs r.addr r.reset
/-- Writes the stored word of a register. -/
def State.setReg (s : State) (r : Reg) (w : Word) : State := { s with regs := put s.regs r.addr w }
/-- A field of the stored word. -/
def State.regField (s : State) (r : Reg) (hi lo : Nat) : Nat := (s.reg r).toNat / 2 ^ lo % 2 ^ (hi + 1 - lo)
/-- Sets bits of the stored word. -/
def State.setRegBits (s : State) (r : Reg) (m : Nat) : State := s.setReg r (s.reg r ||| BitVec.ofNat 64 m)
/-- Clears bits of the stored word. -/
def State.clearRegBits (s : State) (r : Reg) (m : Nat) : State := s.setReg r (s.reg r &&& ~~~ BitVec.ofNat 64 m)

/-- The word that a write leaves: RW bits taken, W1C bits cleared, the others kept (spec/00 R9). -/
def mergeWrite (old v : Word) (rw w1c : Nat) : Word :=
  let m := BitVec.ofNat 64 rw
  let c := BitVec.ofNat 64 w1c
  ((old &&& ~~~ m) ||| (v &&& m)) &&& ~~~ (c &&& v)

/-- A tag is owned by the partition of its TCTL (spec/15 R331). -/
def State.tagPart (s : State) (t : Nat) : Nat := s.regField (.tctl t) 2 0
/-- A rectangle is in force (spec/15 R331). -/
def State.rectValid (s : State) (r : Nat) : Bool := s.regField (.rect r) 15 15 == 1
/-- Partition of a rectangle. -/
def State.rectPart (s : State) (r : Nat) : Nat := s.regField (.rect r) 10 8
/-- A physical cluster lies in a rectangle (spec/15 R331). -/
def State.inRect (s : State) (r c : Nat) : Bool :=
  let x := c % 4
  let y := c / 4
  s.regField (.rect r) 1 0 ≤ x && x ≤ s.regField (.rect r) 3 2 && s.regField (.rect r) 5 4 ≤ y &&
    y ≤ s.regField (.rect r) 7 6
/-- A cluster lies in a valid rectangle of a partition. -/
def State.clusterOwned (s : State) (c p : Nat) : Bool :=
  (List.range 16).any fun r => s.rectValid r && s.rectPart r == p && s.inRect r c

/-- Whether a supervisor of partition `p` may read the register (spec/14 R305, R328; spec/15 R331; spec/16 R360, R361;
log 14). -/
def State.sReads (s : State) (p : Nat) : Reg → Bool
  | .lcstate | .therm | .tbase _ | .fresume _ | .meshctl _ | .meshqos _ | .lkillReg => true
  | .prst q | .msimap q _ | .l2ways _ q | .hbmslot _ q | .pralovf _ q | .pinbyp _ q | .l2opbase _ q | .l2oplen _ q
  | .l2op _ q | .hvec q | .hstk q | .pmisc q => q == p
  | .ctl n | .map n | .stk n | .ptab n | .region n _ => s.regField (.ctl n) 3 1 == p
  | .rect r => !s.rectValid r || s.rectPart r == p
  | .rectrst r => s.rectValid r && s.rectPart r == p
  | .stream n => s.regField (.stream n) 14 12 == p
  | .tbuf t | .tctl t => s.tagPart t == p
  | .l1map c => s.clusterOwned c p
  | _ => false

/-- Whether a supervisor of partition `p` may write the register. -/
def State.sWrites (s : State) (p : Nat) : Reg → Bool
  | .fresume _ | .lkillReg => true
  | .prst q | .msimap q _ | .pralovf _ q | .l2opbase _ q | .l2oplen _ q | .l2op _ q => q == p
  | .ctl n | .map n | .stk n | .ptab n | .region n _ => s.regField (.ctl n) 3 1 == p
  | .rectrst r => s.rectValid r && s.rectPart r == p
  | .stream n => s.regField (.stream n) 14 12 == p
  | .tbuf t | .tctl t => s.tagPart t == p
  | .l1map c => s.clusterOwned c p
  | _ => false

/-- The writer may write the register: an agent at M every register that exists. -/
def State.mayWrite (s : State) (w : Writer) (r : Reg) : Bool :=
  match w with
  | .m => true
  | .s p => s.sWrites p r

/-- The writer may read the register. -/
def State.mayRead (s : State) (w : Writer) (r : Reg) : Bool :=
  match w with
  | .m => true
  | .s p => s.sReads p r

/-- Code of a power state (spec/16 R361 CPWRST). -/
def PState.code : PState → Nat
  | .on => 0 | .quiescing => 1 | .quiet => 2 | .saved => 3 | .clkoff => 4 | .off => 5 | .waking => 6

/-- Handle of an entry (spec/15 R341): entry, die, generation. -/
def handleOf (e gen : Nat) : Nat := e % 256 + e / 256 % 2 * 256 + gen % 65536 * 65536

/-- Two-phase routing is in force on a die: FORCE2 and FORCED override the measurement (spec/14 R326). -/
def State.twoPhaseNow (s : State) (d : Nat) : Bool :=
  if s.regField (.meshctl d) 16 16 = 1 then true
  else if s.regField (.meshctl d) 17 17 = 1 then false
  else lookD s.twoPhase d false

/-- What a read of a register returns: the stored RW and W1C fields and the read-only fields of the machine's state;
RSV and WO fields read zero (spec/00 R9). -/
def State.readReg (s : State) (r : Reg) : Word :=
  let w := s.reg r
  match r with
  | .lcstate => BitVec.ofNat 64 (s.life % 4 + if s.wipe then 4 else 0)
  | .meshctl d => w ||| BitVec.ofNat 64 (if s.twoPhaseNow d then 2 ^ 18 else 0)
  | .tctl t =>
    let x := s.tag t
    let armh := match x.armed with | some e => handleOf e (s.entry e).gen | none => 0
    w ||| BitVec.ofNat 64 (x.msgs.length * 256 + x.drop * 65536 + (if x.armed.isSome then 2 ^ 24 else 0) + armh * 2 ^ 32)
  | .l1map c =>
    let x := s.cluster c
    (x.l1map &&& BitVec.ofNat 64 (ones 6 0 + ones 13 8 + ones 30 30)) |||
      BitVec.ofNat 64 (if x.l1pend.isSome then 2 ^ 31 else 0)
  | .chkcnt c => BitVec.ofNat 64 (s.core (c * 1024 + s.regField (.chksel c) 9 0)).checks
  | .cpwrst c => BitVec.ofNat 64 ((s.pow c).st.code + (s.pow c).wakes * 2 ^ 32)
  | _ => w

end Sys2Proof.Machine
end

