-- ==== Sys2Proof/Machine/Address.lean ====
section
/-!
DEFINITION. Machine/Address.lean: the L1 map and banks (spec/09 R198–R202), the windows of the address map (spec/14 R305),
contexts and rights (spec/14 R306, R307), page sizes (spec/01 R31), homes of lines (spec/14 R313).
-/
namespace Sys2Proof.Machine

/-- IROWS of an L1MAP value (spec/09 R198). -/
def irows (m : Word) : Nat := m.toNat % 128 * 16
/-- UROWS of an L1MAP value. -/
def urows (m : Word) : Nat := m.toNat / 256 % 64 * 16
/-- IB, the bytes of the interleaved band (spec/09 R200). -/
def ibOf (m : Word) : Nat := irows m * 32768
/-- TSPAN, the bytes of one tile in the tile-sequential band. -/
def tspanOf (m : Word) : Nat := (1024 - irows m - urows m) * 512
/-- UB, the start of the urgent band. -/
def ubOf (m : Word) : Nat := (1024 - urows m) * 32768
/-- USPAN, the bytes of one tile in the urgent band. -/
def uspanOf (m : Word) : Nat := urows m * 512

/-- Bank and row of an L1 offset: tile, bank in the tile, row (spec/09 R200). -/
def bankOf (m : Word) (o : Nat) : Nat × Nat × Nat :=
  if o < ibOf m then
    let n := o / 8 % 4096
    (n / 64, n % 64, o / 32768)
  else if o < ubOf m then
    let q := o - ibOf m
    let t := q % tspanOf m
    (q / tspanOf m, t / 8 % 64, irows m + t / 512)
  else
    let q := o - ubOf m
    let t := q % uspanOf m
    (q / uspanOf m, t / 8 % 64, 1024 - urows m + t / 512)

/-- Cluster bank number N = T × 64 + B (spec/09 R197). -/
def bankNumber (m : Word) (o : Nat) : Nat := let (t, b, _) := bankOf m o; t * 64 + b

/-- The map in force in a physical cluster. -/
def State.l1mapOf (s : State) (pcl : Nat) : Word := (s.cluster pcl).l1map
/-- The offset lies in the urgent band. -/
def State.urgentBand (s : State) (pcl o : Nat) : Bool := ubOf (s.l1mapOf pcl) ≤ o

/-- Bytes of one cluster's L1 (32 MiB). -/
def l1Bytes : Nat := 0x2000000
/-- Start of the translated global space (spec/14 R305). -/
def globBase : Nat := 0x10000000000
/-- The message aperture (spec/14 R305, spec/15 R333). -/
def apBase : Nat := 0xF000000000

/-- Window of an address (spec/14 R305). -/
inductive Win where
  | own (off : Nat)
  | lcl (c off : Nat)
  | aperture (off : Nat)
  | dev
  | glob
  | none
  deriving DecidableEq, Repr

/-- The window in which an address lies. -/
def windowOf (ea : Nat) : Win :=
  if ea < l1Bytes then .own ea
  else if 0x100000000 ≤ ea ∧ ea < 0x100000000 + 16 * l1Bytes then
    .lcl ((ea - 0x100000000) / l1Bytes) ((ea - 0x100000000) % l1Bytes)
  else if apBase ≤ ea ∧ ea < apBase + 2 ^ 32 then .aperture (ea - apBase)
  else if regWindow ≤ ea ∧ ea < regWindow + 2 ^ 32 then .dev
  else if globBase ≤ ea ∧ ea < 2 ^ 48 then .glob
  else .none

/-- A context's rights and map, as an access uses them (spec/14 R306). -/
structure Ctx where
  /-- every right holds: a thread of the management core -/
  all   : Bool
  table : Nat
  map   : Word
  mapv  : Nat
  part  : Nat
  deriving DecidableEq, Repr

/-- The context of a number, from its registers as they stand (spec/15 R330, R331). -/
def State.ctxOfNumber (s : State) (n : Nat) : Ctx :=
  { all := false, table := s.regField (.ptab n) 47 3 * 8, map := s.reg (.map n), mapv := s.regField (.ctl n) 31 16,
    part := s.regField (.ctl n) 3 1 }

/-- The supervisor context of a partition (spec/14 R306). -/
def State.supCtx (s : State) (p : Nat) : Ctx := { s.ctxOfNumber (Config.supervisorContext p) with part := p }

/-- The context under which an entry's threads run (spec/15 R330). -/
def State.launchCtx (s : State) (e : Nat) : Ctx :=
  let x := s.entry e
  { all := false, table := x.ptab.toNat, map := x.map, mapv := x.mapv, part := x.part }

/-- The context whose rights a frame uses (spec/14 R306). -/
def State.ctxOf (s : State) (f : Nat) : Ctx :=
  let x := s.frame f
  if coreOf f = mgmtCore then { all := true, table := 0, map := 0, mapv := 0, part := 8 }
  else match x.kind with
    | .handler _ | .dispatch => s.supCtx x.part
    | _ => match x.launch with
      | some e => s.launchCtx e
      | none => { all := false, table := 0, map := 0, mapv := 0, part := x.part }

/-- The logical cluster of a frame: that of the served thread for a handler frame (spec/01 R22). -/
def State.lclOf (s : State) (f : Nat) : Nat := (s.frame (s.named f)).lcl

/-- The physical cluster that a context's map gives a logical cluster (spec/14 R305). -/
def Ctx.pcl (c : Ctx) (n : Nat) : Option Nat :=
  if c.all then some n
  else if c.mapv.testBit n then some (c.map.toNat / 16 ^ n % 16) else none

/-- Physical cluster and offset of an L1 address, and the logical cluster whose rights it needs (spec/09 R201,
spec/14 R305). -/
def State.l1Place (s : State) (f : Nat) (ea : Nat) : Option (Nat × Nat × Nat) :=
  match windowOf ea with
  | .own o => if isTileCore (coreOf f) then some (clusterOf (coreOf f), o, s.lclOf f) else none
  | .lcl c o => ((s.ctxOf f).pcl c).map fun p => (p, o, c)
  | _ => none

/-- The REGION register that decides the page size of a global address: Crumb or 2 MiB (spec/01 R31). -/
def crumbOf (region : List Word) (va : Nat) : Bool :=
  let hit := region.find? fun w =>
    let n := w.toNat
    let lo := n / 2 ^ 21 % 2 ^ 27 * 2 ^ 21
    let len := (n / 1024 % 2048 + 1) * 2 ^ 21
    n.testBit 0 && lo ≤ va && va < min (lo + len) (2 ^ 48)
  match hit with
  | some w => w.toNat.testBit 1
  | none => false

/-- Home slice of a line, by package number (spec/14 R313). -/
def homeSlice (va : Nat) : Nat :=
  let la := va / 64 % 2 ^ 42
  ((List.range 7).foldl (fun h i => h ^^^ (la / 64 ^ i % 64)) 0)
/-- Set of a line in its slice: LA [16:6], address [22:12]. -/
def setOf (va : Nat) : Nat := va / 4096 % 2048
/-- The die on which a slice lies. -/
def sliceDie (sl : Nat) : Nat := sl / 32

/-- Storage key of the bytes of the mem list: L1 of the clusters (log 2). -/
def l1Key (pcl off : Nat) : Nat := pcl * l1Bytes + off
/-- Bytes of lines held in L2, by virtual address; also the coherence location of every global byte. -/
def l2Key (va : Nat) : Nat := 2 ^ 48 + va
/-- HBM, by physical address. -/
def hbmKey (pa : Nat) : Nat := 2 ^ 49 + pa
/-- The management core's SRAM. -/
def sramKey (o : Nat) : Nat := 2 ^ 53 + o

/-- What an access needs (spec/14 R306). -/
inductive Need where
  | r | w | rw | x
  deriving DecidableEq, Repr

/-- Rights bits 1 read, 2 write, 4 execute that satisfy a need. -/
def Need.ok (n : Need) (bits : Nat) : Bool :=
  match n with
  | .r => bits.testBit 0
  | .w => bits.testBit 1
  | .rw => bits.testBit 0 && bits.testBit 1
  | .x => bits.testBit 2

/-- The access writes. -/
def Need.writes : Need → Bool
  | .w | .rw => true
  | _ => false

/-- A protection entry as its word: rights and span, none when it is not in force or malformed (spec/14 R307). -/
def protEntry (w : Word) : Option (Nat × Nat × Nat) :=
  let n := w.toNat
  let lg := n / 256 % 64
  let base := n / 2 ^ 21 % 2 ^ 27 * 2 ^ 21
  if n.testBit 0 && n / 16 % 16 == 0 && n / 2 ^ 14 % 128 == 0 && n / 2 ^ 48 == 0 && 21 ≤ lg && lg ≤ 40 &&
      base % 2 ^ lg == 0 then
    some (n / 2 % 8, base, 2 ^ lg)
  else none

/-- A CTX region value as loaded: bits [9:2] and [63:48] are reserved (spec/01 R31). -/
def regionMask (w : Word) : Word := w &&& 0x0000FFFFFFFFFC03#64

end Sys2Proof.Machine
end

