-- ==== Sys2Proof/Machine/Arith.lean ====
section
/-!
DEFINITION. Machine/Arith.lean: number formats and arithmetic rules of spec/02: exact values, the one rounding of
`round_arith`, overflow, subnormals, NaNs and flags (R38–R46), narrowing of integers (R47), conversions (R48), exact sums
and complex products (R49, R52, R53), ternary bytes (R50), the random number generator (R54), and the special functions'
exact values (spec/07 R174).
-/
namespace Sys2Proof.Machine

/-- FLAGS bits (spec/01 R24). -/
def fNV : Nat := 1
/-- FLAGS.DZ. -/
def fDZ : Nat := 2
/-- FLAGS.OF. -/
def fOF : Nat := 4
/-- FLAGS.UF. -/
def fUF : Nat := 8
/-- FLAGS.NX. -/
def fNX : Nat := 16
/-- FLAGS.SAT. -/
def fSAT : Nat := 32
/-- FLAGS.TRI. -/
def fTRI : Nat := 64
/-- FLAGS.RNGW. -/
def fRNGW : Nat := 128

/-- The choices of ARITH (spec/01 R23). -/
structure AR where
  rnd   : Nat
  ftz   : Bool
  daz   : Bool
  f8sat : Bool
  isat  : Bool
  nanc  : Bool
  te    : Nat
  exact : Bool
  deriving DecidableEq, Repr

/-- Reads ARITH (spec/01 R23). -/
def AR.ofWord (w : BitVec 64) : AR :=
  let n := w.toNat
  { rnd := n % 8, ftz := n.testBit 3, daz := n.testBit 4, f8sat := n.testBit 5, isat := n.testBit 6,
    nanc := n.testBit 7, te := n / 256 % 256, exact := n.testBit 16 }

/-- Stochastic rounding is in force. -/
def AR.stoch (a : AR) : Bool := a.rnd == 4

/-- A floating-point format: exponent bits, mantissa bits, bias, and whether it is E4M3 (spec/02 R38). -/
structure Fmt where
  eb   : Nat
  mb   : Nat
  bias : Nat
  e4m3 : Bool
  deriving DecidableEq, Repr

/-- FP32. -/
def fmt32 : Fmt := ⟨8, 23, 127, false⟩
/-- The format of a floating type, of the parts of CF16, FP32 for any other. -/
def fmtOf : ET → Fmt
  | .fp16 | .cf16 => ⟨5, 10, 15, false⟩
  | .bf16 => ⟨8, 7, 127, false⟩
  | .e4m3 => ⟨4, 3, 7, true⟩
  | .e5m2 => ⟨5, 2, 15, false⟩
  | _ => fmt32

/-- Width of a format in bits. -/
def Fmt.width (f : Fmt) : Nat := 1 + f.eb + f.mb
/-- Exponent of the last place of a subnormal. -/
def Fmt.qmin (f : Fmt) : Int := 1 - (f.bias : Int) - f.mb
/-- Exponent of the smallest normal value. -/
def Fmt.emin (f : Fmt) : Int := 1 - (f.bias : Int)
/-- Sign bit of a pattern. -/
def Fmt.signBit (f : Fmt) : Nat := 2 ^ (f.eb + f.mb)
/-- Pattern of the largest finite value. -/
def Fmt.maxBits (f : Fmt) : Nat := if f.e4m3 then 0x7E else (2 ^ f.eb - 1) * 2 ^ f.mb - 1
/-- Pattern of +∞ (not E4M3). -/
def Fmt.infBits (f : Fmt) : Nat := (2 ^ f.eb - 1) * 2 ^ f.mb
/-- The canonical NaN (spec/02 R38). -/
def Fmt.canon (f : Fmt) : Nat := if f.e4m3 then 0x7F else f.infBits + 2 ^ (f.mb - 1)
/-- A pattern with a sign. -/
def Fmt.signed (f : Fmt) (neg : Bool) (b : Nat) : Nat := if neg then f.signBit + b else b

/-- An exact real number (−1)^neg × (m + δ) × 2^e, where 0 < δ < 1 when `st` holds and δ = 0 otherwise. -/
structure Ex where
  neg : Bool
  m   : Nat
  e   : Int
  st  : Bool
  deriving DecidableEq, Repr

/-- A NaN operand: sign, mantissa and its width, and whether it signals (spec/02 R44). -/
structure NaN where
  neg : Bool
  frac : Nat
  mb  : Nat
  sig : Bool
  deriving DecidableEq, Repr

/-- An operand read from a floating-point pattern. -/
inductive Val where
  | nan (n : NaN)
  | inf (neg : Bool)
  | fin (x : Ex)
  deriving DecidableEq, Repr

/-- What an operation gives before rounding. -/
inductive Exact where
  /-- an invalid operation: the canonical NaN, with NV (spec/02 R44 rule 1) -/
  | invalid
  | nan (n : NaN)
  | inf (neg : Bool)
  | fin (x : Ex)
  deriving DecidableEq, Repr

/-- Reads a pattern under DAZ (spec/02 R38, R43). -/
def unpack (f : Fmt) (daz : Bool) (bits : Nat) : Val :=
  let b := bits % 2 ^ f.width
  let neg := b ≥ f.signBit
  let r := b % f.signBit
  let e := r / 2 ^ f.mb
  let m := r % 2 ^ f.mb
  if f.e4m3 && r == 0x7F then .nan ⟨neg, m, f.mb, false⟩
  else if !f.e4m3 && e == 2 ^ f.eb - 1 then
    if m == 0 then .inf neg else .nan ⟨neg, m, f.mb, m < 2 ^ (f.mb - 1)⟩
  else if e == 0 then
    if daz then .fin ⟨neg, 0, 0, false⟩ else .fin ⟨neg, m, f.qmin, false⟩
  else .fin ⟨neg, 2 ^ f.mb + m, f.qmin + (e : Int) - 1, false⟩

/-- The value is a NaN that signals. -/
def Val.isSig : Val → Bool
  | .nan n => n.sig
  | _ => false
/-- The value is a NaN. -/
def Val.isNan : Val → Bool
  | .nan _ => true
  | _ => false
/-- The value is an infinity. -/
def Val.isInf : Val → Bool
  | .inf _ => true
  | _ => false
/-- The value is a zero. -/
def Val.isZero : Val → Bool
  | .fin x => x.m == 0 && !x.st
  | _ => false
/-- Sign of a value. -/
def Val.neg : Val → Bool
  | .nan n => n.neg
  | .inf s => s
  | .fin x => x.neg

/-- A NaN result in a format: from an operand, quietened, the top mantissa bits kept (spec/02 R44 rules 2 and 3). -/
def nanBits (f : Fmt) (a : AR) (n : NaN) : Nat :=
  if a.nanc then f.canon
  else if f.e4m3 then f.signed n.neg 0x7F
  else
    let frac := if f.mb ≥ n.mb then n.frac * 2 ^ (f.mb - n.mb) else n.frac / 2 ^ (n.mb - f.mb)
    let q := 2 ^ (f.mb - 1)
    let frac := if frac / q % 2 == 1 then frac else frac + q
    f.signed n.neg (f.infBits + frac % 2 ^ f.mb)

/-- The overflow results of spec/02 R42. -/
def overflowBits (f : Fmt) (fp8 : Bool) (a : AR) (neg : Bool) : Nat :=
  let mx := f.signed neg f.maxBits
  let top := if f.e4m3 then (if a.nanc then f.canon else f.signed neg 0x7F) else f.signed neg f.infBits
  if fp8 && a.f8sat then mx
  else match a.rnd with
    | 1 => mx
    | 2 => if neg then top else mx
    | 3 => if neg then mx else top
    | _ => top

/-- Rounds the magnitude (m + δ) × 2^e at the last place q: the integer quotient, and whether anything is lost
(spec/02 R40, R41).  `w` is the event's random word. -/
def roundAt (a : AR) (x : Ex) (q : Int) (w : Nat) : Nat × Bool :=
  if q ≤ x.e then (x.m * 2 ^ (x.e - q).toNat, x.st)
  else
    let k := (q - x.e).toNat
    let lo := x.m / 2 ^ k
    let rem := x.m % 2 ^ k
    let inex := rem ≠ 0 || x.st
    let up := match a.rnd with
      | 0 => 2 * rem > 2 ^ k || (2 * rem == 2 ^ k && (x.st || lo % 2 == 1))
      | 2 => x.neg && inex
      | 3 => !x.neg && inex
      | 4 => inex && rem * 2 ^ 24 / 2 ^ k > w % 2 ^ 24
      | _ => false
    (if up then lo + 1 else lo, inex)

/-- Bits needed to write a number: 0 for 0. -/
def bitLen (n : Nat) : Nat := if n = 0 then 0 else Nat.log2 n + 1

/-- `round_arith` of a finite exact value: the pattern and its flags (spec/02 R40–R43, R45). -/
def roundFin (f : Fmt) (a : AR) (x : Ex) (w : Nat) : Nat × Nat :=
  if x.m == 0 && !x.st then (f.signed x.neg 0, 0)
  else
    let fp8 := f.mb < 7
    let qu := x.e + (bitLen x.m : Int) - 1 - f.mb
    let q := if qu < f.qmin then f.qmin else qu
    let (r, inex) := roundAt a x q w
    let qmax := f.qmin + (2 ^ f.eb : Nat) - (if f.e4m3 then 2 else 3)
    let maxR := if f.e4m3 then 14 else 2 ^ (f.mb + 1) - 1
    -- r × 2^q compared with the largest finite value
    let ovf :=
      if a.rnd == 4 then
        -- any exact magnitude above the largest finite value
        (q > qmax) || (q == qmax &&
          (let k := (q - x.e).toNat
           if q ≤ x.e then x.m * 2 ^ (x.e - q).toNat > maxR
           else x.m / 2 ^ k > maxR || (x.m / 2 ^ k == maxR && inex)))
      else
        (q > qmax) || (q == qmax && r > maxR)
    if ovf then (overflowBits f fp8 a x.neg, fOF ||| fNX)
    else
      let bits := (q - f.qmin).toNat * 2 ^ f.mb + r
      let (ru, _) := roundAt a x qu w
      let tiny := qu < f.qmin && decide (ru * 2 ^ 0 < 2 ^ (f.emin - qu).toNat)
      let sub := r < 2 ^ f.mb && q == f.qmin
      if a.ftz && sub && r ≠ 0 then (f.signed x.neg 0, fUF ||| fNX)
      else (f.signed x.neg bits, (if inex then fNX else 0) ||| (if tiny && inex then fUF else 0))

/-- The delivered pattern and flags of an operation (spec/02 R40–R45); `sig` tells that an operand NaN signals. -/
def finish (f : Fmt) (a : AR) (w : Nat) (r : Exact) (sig : Bool) : Nat × Nat :=
  let nv := if sig then fNV else 0
  match r with
  | .invalid => (f.canon, fNV)
  | .nan n => (nanBits f a n, nv)
  | .inf s =>
    if f.e4m3 then
      ((if a.f8sat then f.signed s f.maxBits else if a.nanc then f.canon else f.signed s 0x7F), fNV)
    else (f.signed s f.infBits, nv)
  | .fin x => let (b, fl) := roundFin f a x w; (b, fl ||| nv)

/-- Signed integer n × 2^e as an exact value; a zero takes the given sign. -/
def Ex.ofInt (n e : Int) (zneg : Bool) : Ex :=
  if n = 0 then ⟨zneg, 0, 0, false⟩ else ⟨n < 0, n.natAbs, e, false⟩

/-- Signed mantissa of an exact value brought to exponent `e` (no more than its own). -/
def Ex.at (x : Ex) (e : Int) : Int :=
  let m : Int := (x.m * 2 ^ (x.e - e).toNat : Nat)
  if x.neg then -m else m

/-- Least exponent of a list of exact values. -/
def minExp (l : List Ex) : Int := l.foldl (fun e x => if x.m = 0 then e else if x.e < e then x.e else e) 4096

/-- Exact sum, with the sign of a zero sum by spec/02 R46. -/
def sumEx (a : AR) (l : List Ex) : Ex :=
  let e := minExp l
  let n := l.foldl (fun acc x => if x.m = 0 then acc else acc + x.at e) (0 : Int)
  let allNeg := l.all fun x => x.m == 0 && x.neg
  let allPos := l.all fun x => x.m == 0 && !x.neg
  .ofInt n e (if allNeg then true else if allPos then false else a.rnd == 2)

/-- Exact product of two finite values. -/
def mulEx (x y : Ex) : Ex := ⟨x.neg != y.neg, x.m * y.m, if x.m * y.m = 0 then 0 else x.e + y.e, false⟩

/-- A term of an exact sum. -/
inductive Term where
  | bad            -- 0 × ∞
  | skip           -- a NaN takes part
  | inf (neg : Bool)
  | fin (x : Ex)
  deriving DecidableEq, Repr

/-- A product as a term, negated when `neg`. -/
def prodTerm (neg : Bool) (x y : Val) : Term :=
  match x, y with
  | .nan _, _ => .skip
  | _, .nan _ => .skip
  | .inf s, z => if z.isZero then .bad else .inf ((s != z.neg) != neg)
  | z, .inf s => if z.isZero then .bad else .inf ((s != z.neg) != neg)
  | .fin p, .fin q => let r := mulEx p q; .fin { r with neg := r.neg != neg }

/-- An addend as a term. -/
def addTerm : Val → Term
  | .nan _ => .skip
  | .inf s => .inf s
  | .fin x => .fin x

/-- The exact sum of terms, with special values by spec/02 R44–R46 and R53: `order` lists the operands in the NaN order
of R44. The second component tells that an operand NaN signals. -/
def evalSum (a : AR) (order : List Val) (ts : List Term) : Exact × Bool :=
  let sig := order.any Val.isSig
  let bad := ts.any fun t => t == .bad
  let pinf := ts.any fun t => t == .inf false
  let ninf := ts.any fun t => t == .inf true
  if bad || (pinf && ninf) then (.invalid, sig)
  else match order.find? Val.isNan with
    | some (.nan n) => (.nan n, sig)
    | _ =>
      if pinf then (.inf false, sig) else if ninf then (.inf true, sig)
      else (.fin (sumEx a (ts.filterMap fun t => match t with | .fin x => some x | _ => none)), sig)

/-- a + b or a − b, rounded once. -/
def fpAdd (f : Fmt) (a : AR) (w : Nat) (sub : Bool) (x y : Nat) : Nat × Nat :=
  let p := unpack f a.daz x
  let q := unpack f a.daz y
  let q' := if sub then (match q with | .inf s => .inf (!s) | .fin z => .fin { z with neg := !z.neg } | n => n) else q
  let (r, sig) := evalSum a [p, q] [addTerm p, addTerm q']
  finish f a w r sig

/-- a × b, rounded once. -/
def fpMul (f : Fmt) (a : AR) (w : Nat) (x y : Nat) : Nat × Nat :=
  let p := unpack f a.daz x
  let q := unpack f a.daz y
  let (r, sig) := match prodTerm false p q with
    | .bad => (Exact.invalid, false)
    | .inf s => (.inf s, false)
    | .fin z => (.fin z, false)
    | .skip => evalSum a [p, q] []
  finish f a w r sig

/-- acc + Σ products, rounded once to `fd` (spec/02 R52, lane-exact order): operands `ps` in format `fs`, the
accumulator in `fd`. -/
def fpDot (fs fd : Fmt) (a : AR) (w : Nat) (acc : Nat) (ps : List (Nat × Nat)) : Nat × Nat :=
  let vs := ps.map fun (x, y) => (unpack fs a.daz x, unpack fs a.daz y)
  let ac := unpack fd a.daz acc
  let order := (vs.flatMap fun (x, y) => [x, y]) ++ [ac]
  let ts := (vs.map fun (x, y) => prodTerm false x y) ++ [addTerm ac]
  let (r, sig) := evalSum a order ts
  finish fd a w r sig

/-- A key that orders finite values and infinities by value, zero signs included (spec/07 R154: −0 is less than +0). -/
def fpLess (p q : Val) : Bool :=
  match p, q with
  | .inf s, .inf t => s && !t
  | .inf s, _ => s
  | _, .inf t => !t
  | .fin x, .fin y =>
    let e := minExp [x, y]
    let a := if x.m = 0 then 0 else x.at e
    let b := if y.m = 0 then 0 else y.at e
    a < b || (a == b && x.m == 0 && y.m == 0 && x.neg && !y.neg)
  | _, _ => false

/-- Two values are equal, −0 equal to +0 (spec/07 R161). -/
def fpEq (p q : Val) : Bool :=
  match p, q with
  | .inf s, .inf t => s == t
  | .fin x, .fin y =>
    let e := minExp [x, y]
    (if x.m = 0 then 0 else x.at e) == (if y.m = 0 then 0 else y.at e)
  | _, _ => false

/-- VMIN and VMAX on floating types: exact, DAZ on the operands, the NaN of R44 (spec/07 R154, spec/02 R43). -/
def fpMinMax (f : Fmt) (a : AR) (max : Bool) (x y : Nat) : Nat × Nat :=
  let p := unpack f a.daz x
  let q := unpack f a.daz y
  let bits (v : Val) (b : Nat) : Nat := if v.isZero then f.signed v.neg 0 else b % 2 ^ f.width
  if p.isNan || q.isNan then
    let (r, sig) := evalSum a [p, q] []
    finish f a 0 r sig
  else
    let pick := if max then fpLess p q else fpLess q p
    (if pick then bits q y else bits p x, 0)

/-- Conversion between floating formats (spec/02 R39–R44).  DEDUCED: FTZ acts on the result of a widening conversion too, a
subnormal one being flushed with UF and NX: R39 names two exceptions to its exactness and R43 lets FTZ act at every
rounding point (notes/assumptions/13.md). -/
def fpCvt (fs fd : Fmt) (a : AR) (w : Nat) (x : Nat) : Nat × Nat :=
  let p := unpack fs a.daz x
  let r : Exact := match p with | .nan n => .nan n | .inf s => .inf s | .fin z => .fin z
  finish fd a w r p.isSig

/-- An integer as a floating value, rounded once (spec/02 R48). -/
def intToFp (fd : Fmt) (a : AR) (w : Nat) (v : Int) : Nat × Nat := finish fd a w (.fin (.ofInt v 0 false)) false

/-- A floating value as an integer in lo to hi (spec/02 R48). -/
def fpToInt (fs : Fmt) (a : AR) (w : Nat) (lo hi : Int) (x : Nat) : Int × Nat :=
  match unpack fs a.daz x with
  | .nan _ => (0, fNV)
  | .inf s => (if s then lo else hi, fNV)
  | .fin z =>
    let (r, inex) := roundAt a z 0 w
    let v : Int := if z.neg then -(r : Int) else r
    if v < lo then (lo, fNV) else if hi < v then (hi, fNV) else (v, if inex then fNX else 0)

/-- Least value of an integer of n bits. -/
def intMin (signed : Bool) (n : Nat) : Int := if signed then -(2 ^ (n - 1) : Nat) else 0
/-- Greatest value of an integer of n bits. -/
def intMax (signed : Bool) (n : Nat) : Int := if signed then (2 ^ (n - 1) : Nat) - 1 else (2 ^ n : Nat) - 1

/-- The low n bits of an integer. -/
def truncInt (v : Int) (n : Nat) : Nat := (v % (2 ^ n : Nat)).toNat

/-- Clamps to an integer format; tells whether it clamped (spec/00 R11). -/
def satInt (signed : Bool) (n : Nat) (v : Int) : Int × Bool :=
  if v < intMin signed n then (intMin signed n, true)
  else if intMax signed n < v then (intMax signed n, true) else (v, false)

/-- `narrow` of spec/02 R47: the value that the format then holds, and the SAT flag. -/
def narrowInt (isat signed : Bool) (n : Nat) (v : Int) : Int × Nat :=
  if isat then let (r, c) := satInt signed n v; (r, if c then fSAT else 0)
  else
    let t := truncInt v n
    (if signed && t ≥ 2 ^ (n - 1) then (t : Int) - (2 ^ n : Nat) else t, 0)

/-- Reads one part of a type from its container bits (spec/02 R35, R36). -/
def partVal (t : ET) (bits : Nat) : Int :=
  let n := t.valueWidth
  let x := bits % 2 ^ n
  if t.isSigned && x ≥ 2 ^ (n - 1) then (x : Int) - (2 ^ n : Nat) else x

/-- Writes a value into its container, sign-extended for INT12 and CI12 (spec/02 R36). -/
def partBits (t : ET) (v : Int) : Nat := truncInt v t.partWidth

/-- Narrows a value to a part of a type and writes the container (spec/02 R36, R47). -/
def narrowPart (a : AR) (t : ET) (v : Int) : Nat × Nat :=
  let (r, fl) := narrowInt a.isat t.isSigned t.valueWidth v
  (partBits t r, fl)

/-- Complex multiply(-accumulate), one part: floating (spec/02 R49).  `im` picks the imaginary part. -/
def cfPart (fs fd : Fmt) (a : AR) (w : Nat) (im : Bool) (p q x y : Nat) (acc : Option Nat) : Nat × Nat :=
  let vp := unpack fs a.daz p
  let vq := unpack fs a.daz q
  let vx := unpack fs a.daz x
  let vy := unpack fs a.daz y
  let va := acc.map fun b => unpack fd a.daz b
  let order := [vp, vq, vx, vy] ++ va.toList
  let ts := (if im then [prodTerm false vp vy, prodTerm false vq vx]
             else [prodTerm false vp vx, prodTerm true vq vy]) ++ va.toList.map addTerm
  let (r, sig) := evalSum a order ts
  finish fd a w r sig

/-- Trits of a TR5 byte (spec/02 R50), and whether its code is 243 to 255. -/
def decodeTr5 (b : Nat) : List Int × Bool :=
  if b ≥ 243 then ([0, 0, 0, 0, 0], true)
  else
    let step (x : Nat) : Nat × Int := let q := x * 171 / 512; (q, ((x - 3 * q : Nat) : Int) - 1)
    let (x1, t0) := step b
    let (x2, t1) := step x1
    let (x3, t2) := step x2
    let (x4, t3) := step x3
    let (_, t4) := step x4
    ([t0, t1, t2, t3, t4], false)

/-- `zrng` of spec/02 R54. -/
def zrng (key : BitVec 64) (l c : Nat) : BitVec 64 :=
  let x0 : BitVec 64 := (BitVec.ofNat 64 (l % 65536) <<< 48) ||| BitVec.ofNat 64 (c % 2 ^ 48)
  let round (p : BitVec 64 × BitVec 64) : BitVec 64 × BitVec 64 :=
    let x := (p.1 ^^^ p.2) * 0xA5C39E1B74D26F0B#64
    (x ^^^ (x >>> 32), p.2 + 0x6B471D95C3E82A51#64)
  (round (round (round (round (x0, key))))).1

/-- Integer square root by bits, from `fuel` bits down: the largest r with r² ≤ n. -/
def sqrtBits (n : Nat) : Nat → Nat → Nat
  | 0, r => r
  | k + 1, r => let t := r + 2 ^ k; sqrtBits n k (if t * t ≤ n then t else r)

/-- Fixed-point places of the special functions (log 12). -/
def spPlaces : Nat := 256

/-- Σ (−1)^i z^(2i+1)/(2i+1), or without the signs: arctangent and inverse hyperbolic tangent of z / 2^spPlaces, in
fixed point. -/
def atanSeries (alt : Bool) (z : Nat) (terms : Nat) : Int :=
  let one := 2 ^ spPlaces
  let z2 := z * z / one
  ((List.range terms).foldl (fun (p : Int × Nat) (i : Nat) =>
    let t : Int := p.2 / (2 * i + 1)
    (if alt && i % 2 == 1 then p.1 - t else p.1 + t, p.2 * z2 / one)) (0, z)).1

/-- ln 2 in fixed point: 2 artanh(1/3). -/
def fixLn2 : Nat := (2 * atanSeries false (2 ^ spPlaces / 3) 90).toNat
/-- π in fixed point: 16 arctan(1/5) − 4 arctan(1/239). -/
def fixPi : Nat := (16 * atanSeries true (2 ^ spPlaces / 5) 60 - 4 * atanSeries true (2 ^ spPlaces / 239) 20).toNat

/-- e^t for t / 2^spPlaces in [0, 1), in fixed point. -/
def fixExp (t : Nat) : Nat :=
  let one := 2 ^ spPlaces
  ((List.range 70).foldl (fun (p : Nat × Nat) i => (p.1 + p.2, p.2 * t / one / (i + 1))) (0, one)).1

/-- sin or cos of t / 2^spPlaces, in fixed point. -/
def fixTrig (cos : Bool) (t : Nat) : Int :=
  let one := 2 ^ spPlaces
  let t2 := t * t / one
  ((List.range 40).foldl (fun (p : Int × Nat) (i : Nat) =>
    let k := if cos then 2 * i else 2 * i + 1
    (if i % 2 == 1 then p.1 - p.2 else p.1 + p.2, p.2 * t2 / one / ((k + 1) * (k + 2)))) (0, if cos then one else t)).1

/-- A positive fixed-point number that is known not to be exact: its low 16 places are dropped as guard. -/
def Ex.ofFix (neg : Bool) (v : Nat) (e : Int) : Ex := ⟨neg, v / 65536, e - spPlaces + 16, true⟩

/-- 1 / x for finite nonzero x. -/
def exRcp (x : Ex) : Ex :=
  let k := bitLen x.m + 90
  let q := 2 ^ k / x.m
  ⟨x.neg, q, -x.e - k, q * x.m ≠ 2 ^ k⟩

/-- 1 / √x for finite positive x. -/
def exRsq (x : Ex) : Ex :=
  let odd := x.e % 2 ≠ 0
  let m := if odd then 2 * x.m else x.m
  let e := if odd then x.e - 1 else x.e
  let k := bitLen m + 90
  let r := sqrtBits (2 ^ (2 * k) / m) (k + 1) 0
  ⟨false, r, -(e / 2) - k, r * r * m ≠ 2 ^ (2 * k)⟩

/-- 2^x for finite x. -/
def exExp2 (x : Ex) : Ex :=
  if x.m = 0 then ⟨false, 1, 0, false⟩
  else if x.e + (bitLen x.m : Int) > 11 then ⟨false, 2 ^ 90, if x.neg then -4096 else 4096, true⟩
  else
    let n := x.at (if x.e < 0 then x.e else 0)          -- x = n × 2^(-s)
    let s := if x.e < 0 then (-x.e).toNat else 0
    let k := n / (2 ^ s : Nat)
    let fr := (n % (2 ^ s : Nat)).toNat
    if fr = 0 then ⟨false, 1, k, false⟩
    else .ofFix false (fixExp (fr * 2 ^ spPlaces / 2 ^ s * fixLn2 / 2 ^ spPlaces)) k

/-- log₂ x for finite positive x. -/
def exLog2 (x : Ex) : Ex :=
  let l := bitLen x.m
  let k := x.e + (l : Int) - 1
  if x.m = 2 ^ (l - 1) then .ofInt k 0 false
  else
    let one := 2 ^ spPlaces
    let y := x.m * one / 2 ^ (l - 1)
    let z := (y - one) * one / (y + one)
    let ln := (2 * atanSeries false z 90).toNat
    let v := k * (one : Int) + (ln * one / fixLn2 : Nat)
    if v < 0 then .ofFix true (v.natAbs) 0 else .ofFix false v.toNat 0

/-- cos(2πx) and sin(2πx) for finite x (spec/07 R174); an exact zero of sin has the sign of x. -/
def exSinCos (x : Ex) : Ex × Ex :=
  let n := x.at (if x.e < 0 then x.e else 0)
  let s := if x.e < 0 then (-x.e).toNat else 0
  let d := 2 ^ s
  let t := if x.m = 0 then 0 else (n % (d : Nat)).toNat     -- fraction of a turn, t / d
  let quad := 4 * t / d
  let r := 4 * t - quad * d                                 -- quarter fraction, r / d
  let one : Ex := ⟨false, 1, 0, false⟩
  let zero : Ex := ⟨false, 0, 0, false⟩
  let neg (y : Ex) : Ex := { y with neg := !y.neg }
  if r = 0 then
    let sz : Ex := { zero with neg := x.neg }
    match quad with
    | 0 => (one, sz)
    | 1 => (zero, one)
    | 2 => (neg one, sz)
    | _ => (zero, neg one)
  else
    let ang := r * fixPi / (2 * d)
    let c := Ex.ofFix false (fixTrig true ang).toNat 0
    let sn := Ex.ofFix false (fixTrig false ang).toNat 0
    match quad with
    | 0 => (c, sn)
    | 1 => (neg sn, c)
    | 2 => (neg c, neg sn)
    | _ => (sn, neg c)

end Sys2Proof.Machine
end

