-- ==== Sys2Proof/Machine/Memory.lean ====
section
/-!
DEFINITION. Machine/Memory.lean: bytes and poison of every store of the package, what a granted write does besides
(reservations, watches, Glaze updates, poison events), translation (spec/14 R309–R311) and the L2 lines (R313–R315).
-/
namespace Sys2Proof.Machine

/-- One byte of storage: zero when unlisted (log 10). -/
def State.byte (s : State) (k : Nat) : Byte := lookD s.mem k 0
/-- Sets one byte of storage, keeping memory canonical: the one primitive through which memory changes. -/
def State.setByte (s : State) (k : Nat) (b : Byte) : State := { s with mem := putCanon 0 s.mem k b }

/-- `n` bytes from key `k`, little-endian (spec/00 R8). -/
def State.readN (s : State) (k : Nat) : Nat → Nat
  | 0 => 0
  | n + 1 => (s.byte k).toNat + 256 * s.readN (k + 1) n

/-- The word or shorter value of `n` bytes at a key. -/
def State.readW (s : State) (k n : Nat) : Word := BitVec.ofNat 64 (s.readN k n)

/-- Writes the bytes of `v` whose mask bits are set, from key `k` up. -/
def State.writeN (s : State) (k : Nat) (v mask : Nat) : Nat → State
  | 0 => s
  | n + 1 =>
    let s' := if mask % 2 = 1 then s.setByte k (BitVec.ofNat 8 v) else s
    s'.writeN (k + 1) (v / 256) (mask / 2) n

/-- A list of bytes from a key. -/
def State.readBytes (s : State) (k n : Nat) : List Byte := (List.range n).map fun i => s.byte (k + i)
/-- Writes a list of bytes from a key. -/
def State.writeBytes (s : State) (k : Nat) : List Byte → State
  | [] => s
  | b :: t => (s.setByte k b).writeBytes (k + 1) t
/-- Sets `n` bytes from a key to zero. -/
def State.zeroBytes (s : State) (lo hi : Nat) : State :=
  { s with mem := s.mem.filter fun c => !(lo ≤ c.1 && c.1 < hi) }

/-- Poison of the word that holds a byte (spec/14 R322). -/
def State.poisoned (s : State) (k : Nat) : Bool := lookD s.poison (k / 8) false
/-- Sets the poison of the word that holds a byte. -/
def State.setPoison (s : State) (k : Nat) (b : Bool) : State := { s with poison := putFlag s.poison (k / 8) b }
/-- Clears the poison of a span. -/
def State.clearPoison (s : State) (lo hi : Nat) : State :=
  { s with poison := s.poison.filter fun c => !(lo / 8 ≤ c.1 && c.1 < (hi + 7) / 8) }

/-- Bytes as a little-endian number. -/
def leNat : List Byte → Nat
  | [] => 0
  | b :: t => b.toNat + 256 * leNat t
/-- The low `n` bytes of a number. -/
def leBytes : Nat → Nat → List Byte
  | 0, _ => []
  | n + 1, v => BitVec.ofNat 8 v :: leBytes n (v / 256)

/-! ### The inbox (spec/08 R194, R195) -/

/-- Entries that a part of the inbox holds: two for the urgent frame, six for slots 0–3. -/
def inboxCap (urg : Bool) : Nat := if urg then 2 else 6
/-- The part of the inbox that serves a frame. -/
def CoreSt.inbox (c : CoreSt) (urg : Bool) : Inbox := if urg then c.inU else c.inN
/-- Writes a part of the inbox. -/
def CoreSt.setInbox (c : CoreSt) (urg : Bool) (x : Inbox) : CoreSt := if urg then { c with inU := x } else { c with inN := x }
/-- A poison event enters its part, or the pending register, or sets LOST there (spec/08 R195). -/
def Inbox.poison (x : Inbox) (cap : Nat) (e : Entry) : Inbox :=
  match x.pending with
  | some p => { x with pending := some { p with word := p.word ||| 32 } }
  | none => if x.entries.length < cap then { x with entries := x.entries ++ [e] } else { x with pending := some e }

/-- A poison event of KIND 0x3 goes to the writing frame (spec/14 R322); a core outside the tiles has no inbox
(spec/06 R146). -/
def State.poisonEvent (s : State) (f : Option Nat) (va : Nat) : State :=
  match f with
  | none => s
  | some f =>
    if !isTileCore (coreOf f) then s
    else
      let urg := slotOf f == 4
      let w := 3 + (if urg then 16 else slotOf f * 64) + va / 8 * 8 % 2 ^ 48 * 65536
      s.updCore (coreOf f) fun c => c.setInbox urg ((c.inbox urg).poison (inboxCap urg) ⟨BitVec.ofNat 64 w, none⟩)

/-! ### What a granted write does besides -/

/-- Coherence location of a part's bytes: the L1 key, or the virtual address. -/
def Tgt.loc : Tgt → Nat
  | .l1 p o => l1Key p o
  | .glob va => l2Key va
  | .reg a => 2 ^ 54 + a
  | .post a => 2 ^ 54 + a

/-- A write to the word ends every reservation of it (spec/09 R213). -/
def State.breakResv (s : State) (loc : Nat) : State :=
  { s with resvs := s.resvs.filter fun r => r.loc / 8 ≠ loc / 8 }

/-- A write to the word makes every watch of it report (spec/09 R214). -/
def State.hitWatches (s : State) (loc : Nat) : State :=
  { s with accs := s.accs.map fun a => if a.op = .waitrs then
      { a with parts := a.parts.map fun p =>
          if p.stage = .watching ∧ p.tgt.loc / 8 = loc / 8 then { p with stage := .reported } else p } else a }

/-- Adds bytes to a Glaze entry's batches: merge, or send and open anew, and send a full batch (spec/13 R299).  `bad` says
that the word which holds them is poisoned (spec/14 R322), `last` that the initial copy ends with them. -/
def GEntry.update (g : GEntry) (ck off : Nat) (bs : List (Nat × Byte)) (bad : List Nat) (last : Bool) : GEntry :=
  let blk := off / 64
  let add (m : SMap Byte) := bs.foldl (fun m (i, b) => put m (i % 64) b) m
  let g1 := match g.opened with
    | some b => if b.block = blk then g else { g with opened := Option.none, sent := g.sent ++ [b] }
    | Option.none => g
  let ws := (bs.map fun p => p.1 % 64 / 8).eraseDups
  let cur : Batch := match g1.opened with
    | some b => { b with bytes := add b.bytes, bad := (b.bad.filter fun w => !ws.contains w) ++ bad, last := b.last || last }
    | Option.none => ⟨blk, add [], bad, last, ck⟩
  if cur.bytes.length ≥ 64 then { g1 with opened := Option.none, sent := g1.sent ++ [cur] } else { g1 with opened := some cur }

/-- The entry forwards every write of its publisher span: it is SYNC or ACTIVE (spec/13 R298). -/
def GEntry.forwards (g : GEntry) : Bool := g.st == .active || g.st == .sync

/-- Every Glaze entry whose publisher span holds written bytes takes an update (spec/13 R298). -/
def State.glazeNote (s : State) (key : Nat) (bs : List (Nat × Byte)) : State :=
  { s with tiles := mapVals (fun _ t =>
      { t with glaze := mapVals (fun _ g =>
          if g.pub ≤ key ∧ key < g.pub + g.len ∧ g.forwards then
            g.update s.ck (key - g.pub) (bs.map fun (k, b) => (k - g.pub, b))
              (if s.poisoned key then [(key - g.pub) % 64 / 8] else []) false
          else g) t.glaze }) s.tiles }

/-- The newest batch that holds a word of the publisher span carries its poison. -/
def GEntry.markBad (g : GEntry) (off : Nat) : GEntry :=
  let w := off % 64 / 8
  let mark (b : Batch) : Batch := if b.block = off / 64 then { b with bad := if b.bad.contains w then b.bad else b.bad ++ [w] } else b
  match g.opened with
  | some b => if b.block = off / 64 then { g with opened := some (mark b) } else g
  | Option.none => { g with sent := match g.sent.reverse with
      | b :: t => (mark b :: t).reverse
      | [] => [] }

/-- An L1 word is written poisoned: so are the updates that forward it (spec/14 R322). -/
def State.poisonL1 (s : State) (key : Nat) : State :=
  { s.setPoison key true with tiles := mapVals (fun _ t =>
      { t with glaze := mapVals (fun _ g =>
          if g.pub ≤ key ∧ key < g.pub + g.len ∧ g.forwards then g.markBad (key - g.pub) else g) t.glaze }) s.tiles }

/-- Bytes of a masked write, with their keys. -/
def maskedBytes (k v mask : Nat) : Nat → List (Nat × Byte)
  | 0 => []
  | n + 1 => (if mask % 2 = 1 then [(k, BitVec.ofNat 8 v)] else []) ++ maskedBytes (k + 1) (v / 256) (mask / 2) n

/-- A write of a launch leaves the word's earlier value where an engine may still read it (spec/08 R196; log 35). -/
def State.noteOld (s : State) (launch : Option Nat) (key loc : Nat) : State :=
  let k := key / 8 * 8
  match launch with
  | some e =>
    if s.poisoned k then s
    else { s with unfenced := s.unfenced ++ [⟨s.olds, loc / 8 * 8, s.readW k 8, none, e⟩], olds := s.olds + 1 }
  | none => s

/-- The launch for which a frame writes. -/
def State.launchOf (s : State) (who : Option Nat) : Option Nat := who.bind fun f => (s.frame f).launch

/-- The writes from number `n` on are those of a command of a queue. -/
def State.ownOlds (s : State) (n q : Nat) : State :=
  { s with unfenced := s.unfenced.map fun u => if n ≤ u.num then { u with queue := some q } else u }

/-- Every engine sees the writes from number `n` on: they fill a descriptor, which orders them (spec/10 R229). -/
def State.settleOlds (s : State) (n : Nat) : State :=
  { s with unfenced := s.unfenced.filter fun u => !s.unfenced.any fun w => n ≤ w.num && w.loc == u.loc }

/-- Performs a write of `size` bytes (within one word) at storage key `key` and coherence location `loc`: the bytes under
the mask, the word's poison (spec/14 R322), reservations, watches and Glaze updates. `who` receives a poison event, which
carries the address `va`. -/
def State.performWrite (s : State) (who : Option Nat) (va key loc size : Nat) (data : Word) (mask : Nat) : State :=
  let full := size = 8 ∧ mask % 256 = 255
  let was := s.poisoned key
  let s1 := (s.noteOld (s.launchOf who) key loc).writeN key data.toNat mask size
  let s2 := if full then (if was then s1.setPoison key false else s1)
            else if was ∧ mask % 2 ^ size ≠ 0 then s1.poisonEvent who va else s1
  let s3 := (s2.breakResv loc).hitWatches loc
  if key < 2 ^ 48 then s3.glazeNote key (maskedBytes key data.toNat mask size) else s3

/-- A unit has written the words of a span of an L1: reservations of them end, watches of them report, and the Glaze entries
whose publisher spans hold them take updates (spec/09 R213, R214; spec/13 R298). -/
def State.noteSpan (s : State) (key len : Nat) : State :=
  let inside (loc : Nat) : Bool := decide (key / 8 ≤ loc / 8 ∧ loc / 8 < (key + len + 7) / 8)
  let s1 : State :=
    { s with resvs := s.resvs.filter (fun r => !inside r.loc),
             accs := s.accs.map fun a => if a.op = .waitrs then
               { a with parts := a.parts.map fun p => if p.stage = .watching ∧ inside p.tgt.loc then { p with stage := .reported } else p }
               else a }
  if s1.tiles.any fun t => t.2.glaze.any fun g => g.2.forwards && g.2.pub < key + len && key < g.2.pub + g.2.len then
    (List.range ((len + 7) / 8)).foldl (fun s i => s.glazeNote (key + 8 * i)
      ((List.range 8).map fun b => (key + 8 * i + b, s.byte (key + 8 * i + b)))) s1
  else s1

/-- A write that the host port performs at a global location ends reservations of its word and makes watches of it report. -/
def State.noteHost (s : State) (va : Nat) : State := (s.breakResv (l2Key va)).hitWatches (l2Key va)

/-! ### Translation (spec/14 R309–R311) -/

/-- Why a walk fails: reason, level (Crumb 3), address and value of the entry (spec/14 R310, R311). -/
structure WalkErr where
  reason : Nat
  level  : Nat
  tadr   : Nat
  tval   : Word
  deriving DecidableEq, Repr

/-- Bytes of HBM (spec/14 R309): 384 GB. -/
def hbmBytes : Nat := 384000000000

/-- A word of HBM, none when poisoned. -/
def State.hbmWord (s : State) (pa : Nat) : Option Word :=
  if s.poisoned (hbmKey pa) then none else some (s.readW (hbmKey pa) 8)

/-- The next table or page address of an entry. -/
def entryPa (e : Word) : Nat := e.toNat / 1024 % 2 ^ 42 * 1024
/-- Reserved bits of an entry are zero. -/
def entryRsv (e : Word) : Bool := e.toNat / 32 % 32 == 0 && e.toNat / 2 ^ 52 == 0
/-- CA of an entry. -/
def entryCa (e : Word) : Nat := e.toNat / 4 % 4
/-- HOST of an entry. -/
def entryHost (e : Word) : Bool := e.toNat.testBit 4
/-- LEAF of an entry. -/
def entryLeaf (e : Word) : Bool := e.toNat.testBit 1

/-- Checks of one entry at a level 0, 1, 2 or 3 (Crumb), in the order of the reasons of spec/14 R310; poison first, since
a poisoned word has no value. -/
def entryReason (lvl : Nat) (crumb : Bool) (e : Word) : Option Nat :=
  let leaf := entryLeaf e
  if !e.toNat.testBit 0 then some 1
  else if lvl == 2 && leaf == crumb then some 2
  else if !entryRsv e || (lvl < 2 && leaf) || (lvl == 3 && !leaf) || (!leaf && entryCa e ≠ 0) ||
      (leaf && entryCa e == 3) || (leaf && lvl == 2 && entryPa e % 2 ^ 21 ≠ 0) then some 3
  else if leaf && !entryHost e && entryPa e + (if lvl == 2 then 2 ^ 21 else 1024) > hbmBytes then some 4
  else none

/-- One step of a walk: reads the entry at `pa`. -/
def State.walkEntry (s : State) (lvl : Nat) (crumb : Bool) (pa : Nat) : Except WalkErr Word :=
  match s.hbmWord pa with
  | none => .error ⟨5, lvl, pa, 0⟩
  | some e =>
    match entryReason lvl crumb e with
    | some r => .error ⟨r, lvl, pa, e⟩
    | none => .ok e

/-- Index of a level in an address (spec/14 R309). -/
def walkIndex (va lvl : Nat) : Nat :=
  match lvl with
  | 0 => va / 2 ^ 39 % 512 | 1 => va / 2 ^ 30 % 512 | 2 => va / 2 ^ 21 % 512 | _ => va / 1024 % 2048

/-- The walk of a page, from the walk cache of the slice where it holds the level-2 entry: the level-2 entry and the
leaf. -/
def State.walk (s : State) (sl va : Nat) (crumb : Bool) : Except WalkErr (Word × Word) :=
  let root := s.regField (.tbase (sliceDie sl)) 51 12 * 4096
  let cached := (s.slice sl).walk.find? fun p => p.1 == va / 2 ^ 21 && (entryReason 2 crumb p.2).isNone
  let l2 : Except WalkErr Word :=
    match cached with
    | some p => .ok p.2
    | none => do
      let e0 ← s.walkEntry 0 crumb (root + 8 * walkIndex va 0)
      let e1 ← s.walkEntry 1 crumb (entryPa e0 + 8 * walkIndex va 1)
      s.walkEntry 2 crumb (entryPa e1 + 8 * walkIndex va 2)
  match l2 with
  | .error x => .error x
  | .ok e2 =>
    if crumb then
      match s.walkEntry 3 crumb (entryPa e2 + 8 * walkIndex va 3) with
      | .error x => .error x
      | .ok e3 => .ok (e2, e3)
    else .ok (e2, e2)

/-- Base of the page that holds an address. -/
def pageOf (va : Nat) (crumb : Bool) : Nat := if crumb then va / 1024 * 1024 else va / 2 ^ 21 * 2 ^ 21
/-- The physical address of a byte under a leaf. -/
def leafPa (e : Word) (va : Nat) (crumb : Bool) : Nat :=
  if crumb then entryPa e + va % 1024 else entryPa e / 2 ^ 21 * 2 ^ 21 + va % 2 ^ 21

/-- The cached leaf of a page (spec/14 R310). -/
def Slice.leaf (x : Slice) (va : Nat) (crumb : Bool) : Option Word :=
  (x.xlat.find? fun t => t.page == pageOf va crumb && t.crumb == crumb).map (·.leaf)

/-- Adds to the end of a list that holds at most `cap`, dropping the oldest. -/
def pushCap {α : Type} (cap : Nat) (l : List α) (x : α) : List α :=
  let l' := l ++ [x]
  l'.drop (l'.length - cap)

/-- Installs a leaf and its level-2 entry in the caches of a slice, 512 and 64 entries (spec/14 R310). -/
def State.installLeaf (s : State) (sl va : Nat) (crumb : Bool) (e2 leaf : Word) : State :=
  let x := s.slice sl
  let w := if x.walk.any (fun p => p.1 == va / 2 ^ 21) then x.walk else pushCap 64 x.walk (va / 2 ^ 21, e2)
  s.setSlice sl { x with xlat := pushCap 512 x.xlat ⟨pageOf va crumb, crumb, leaf⟩, walk := w }

/-- The leaf of a page, cached or by a walk. -/
def State.translate (s : State) (sl va : Nat) (crumb : Bool) : State × Except WalkErr Word :=
  match (s.slice sl).leaf va crumb with
  | some e => (s, .ok e)
  | none =>
    match s.walk sl va crumb with
    | .error x => (s, .error x)
    | .ok (e2, e) => (s.installLeaf sl va crumb e2 e, .ok e)

/-! ### L2 lines (spec/14 R313–R315) -/

/-- The line of an address in its home slice. -/
def State.lineOf (s : State) (va : Nat) : Option Line := (s.slice (homeSlice va)).lines.find? fun l => l.la == va / 64

/-- Changes the line of an address. -/
def State.updLine (s : State) (va : Nat) (u : Line → Line) : State :=
  let sl := homeSlice va
  let x := s.slice sl
  s.setSlice sl { x with lines := updWhere (fun l => l.la == va / 64) u x.lines }

/-- Copies the 64 bytes and the poison of a line between two storage keys. -/
def State.copyLine (s : State) (src dst : Nat) : State :=
  let s1 := s.writeBytes dst (s.readBytes src 64)
  (List.range 8).foldl (fun t i => t.setPoison (dst + 8 * i) (s.poisoned (src + 8 * i))) s1

/-- Empties the L2 bytes of a line. -/
def State.dropLineBytes (s : State) (la : Nat) : State :=
  (s.zeroBytes (l2Key (la * 64)) (l2Key (la * 64) + 64)).clearPoison (l2Key (la * 64)) (l2Key (la * 64) + 64)

/-- Writes a line back to HBM when it is dirty. -/
def State.writeBack (s : State) (sl : Nat) (l : Line) : State :=
  if l.dirty then
    let s1 := s.copyLine (l2Key (l.la * 64)) (hbmKey l.pa)
    let x := s1.slice sl
    s1.setSlice sl { x with lines := updWhere (fun m => m.la == l.la) (fun m => { m with dirty := false }) x.lines }
  else s

/-- Evicts a line: writes it back and removes it. -/
def State.evict (s : State) (sl : Nat) (l : Line) : State :=
  let s1 := (s.writeBack sl l).dropLineBytes l.la
  let x := s1.slice sl
  s1.setSlice sl { x with lines := x.lines.filter fun m => m.la ≠ l.la }

/-- The class that a fill takes from the page and the policy (spec/14 R314). -/
def fillClass (ca cp : Nat) : LClass :=
  match cp with
  | 1 => .evict | 2 => .retain | _ => if ca = 1 then .pinned else .normal

/-- The ways a miss of a partition may fill. DEDUCED: an agent of none of the eight partitions (the management core's)
has no mask of its own and may fill every way (spec/14 R315; notes/assumptions/26.md). -/
def State.wayMask (s : State) (sl part : Nat) : Nat :=
  if part < 8 then s.regField (.l2ways (sliceDie sl) part) 15 0 else 0xFFFF

/-- The victim among the ways of a partition's mask: an invalid way, or the line to evict (spec/14 R315). -/
def State.victim (s : State) (sl va part : Nat) : Option (Nat × Option Line) :=
  let mask := s.wayMask sl part
  let ways := (List.range 16).filter mask.testBit
  let lines := (s.slice sl).lines.filter fun l => setOf (l.la * 64) == setOf va && ways.contains l.way
  match ways.find? fun w => !lines.any fun l => l.way == w with
  | some w => some (w, none)
  | none =>
    let pick (c : LClass) : Option Line :=
      lines.foldl (fun b l => if l.cls ≠ c then b else match b with
        | some m => if l.stamp < m.stamp then some l else b
        | none => some l) none
    match pick .evict with
    | some l => some (l.way, some l)
    | none => match pick .normal with
      | some l => some (l.way, some l)
      | none => (pick .retain).map fun l => (l.way, some l)

/-- Counts an access served uncached for want of a way that holds no PINNED line (spec/14 R315, R329 PINBYP). -/
def State.countPinByp (s : State) (sl part : Nat) : State :=
  let r := Reg.pinbyp (sliceDie sl) part
  let n := (s.reg r).toNat
  if part ≥ 8 ∨ s.wayMask sl part = 0 then s
  else s.setReg r (BitVec.ofNat 64 (min (n + 1) (2 ^ 48 - 1)))

/-- Fills the line of an address under a leaf, when a way can be had (spec/14 R315): tells whether it was. -/
def State.fillLine (s : State) (va part cp : Nat) (crumb : Bool) (leaf : Word) : State × Bool :=
  let sl := homeSlice va
  match s.victim sl va part with
  | none => (s.countPinByp sl part, false)
  | some (w, v) =>
    let s1 := match v with | some l => s.evict sl l | none => s
    let pa := leafPa leaf (va / 64 * 64) crumb
    let s2 := s1.copyLine (hbmKey pa) (l2Key (va / 64 * 64))
    let x := s2.slice sl
    let l : Line := ⟨va / 64, pa, w, false, fillClass (entryCa leaf) cp, s.ck⟩
    (s2.setSlice sl { x with lines := x.lines ++ [l] }, true)

/-- A hit: the stamp of last use, and the class that the policy sets on a line that is not PINNED (spec/14 R314). -/
def State.touchLine (s : State) (va cp : Nat) : State :=
  s.updLine va fun l =>
    let c : LClass := if l.cls = .pinned then .pinned else if cp = 1 then .evict else if cp = 2 then .retain else l.cls
    { l with stamp := s.ck, cls := c }

/-- Where the bytes of a global access stand once it may be performed. -/
inductive Home where
  /-- a storage key: the line in L2, or HBM for an uncached access -/
  | key (k : Nat)
  /-- a host page: bus address -/
  | host (pa : Nat)
  deriving DecidableEq, Repr

/-- Brings a global address to where it can be performed: hit, fill, or uncached (spec/14 R314, R315). -/
def State.reach (s : State) (va part cp : Nat) (crumb : Bool) : State × Except WalkErr Home :=
  match s.lineOf va with
  | some _ => (s.touchLine va cp, .ok (.key (l2Key va)))
  | none =>
    match s.translate (homeSlice va) va crumb with
    | (s1, .error x) => (s1, .error x)
    | (s1, .ok e) =>
      if entryHost e then (s1, .ok (.host (leafPa e va crumb)))
      else if entryCa e = 2 ∨ cp = 3 then (s1, .ok (.key (hbmKey (leafPa e va crumb))))
      else
        match s1.fillLine va part cp crumb e with
        | (s2, true) => (s2, .ok (.key (l2Key va)))
        | (s2, false) => (s2, .ok (.key (hbmKey (leafPa e va crumb))))

/-- The page of a global address is at hand at its home slice: its line is held there, or its translation is found; otherwise why
it is not. -/
def State.pageHand (s : State) (va : Nat) (crumb : Bool) : State × Option WalkErr :=
  match s.lineOf va with
  | some _ => (s, none)
  | none => match s.translate (homeSlice va) va crumb with
    | (s1, .ok _) => (s1, none)
    | (s1, .error e) => (s1, some e)

/-- Marks the line of an address dirty, when it is held. -/
def State.markDirty (s : State) (va : Nat) : State := s.updLine va fun l => { l with dirty := true }

/-- Draws a free value (log 7). -/
def State.draw (s : State) : State × Word := ({ s with fresh := s.fresh + 1 }, Config.freeValue s.fresh)

/-- Writes of a unit into a HOST page leave for the host, when the host port completes them: a free value tells whether it does
(spec/16 R365; log 7). -/
def State.toHost (s : State) (l : List (Nat × Nat × Word)) : State × Bool :=
  let (s1, v) := s.draw
  if v.getLsbD 0 then (s1, false) else ({ s1 with hostOut := s1.hostOut ++ l }, true)

/-! ### Accesses that units of the device make at once (log 5): engines, walks, packet reads and slot writes -/

/-- Result of a unit's access. -/
inductive UErr where
  | fault (e : WalkErr)
  | poison
  | dead
  deriving DecidableEq, Repr

/-- A unit reads up to eight bytes of the global space; a host page gives a free value (log 7). -/
def State.globRead (s : State) (va n part cp : Nat) (crumb : Bool) : State × Except UErr Word :=
  match s.reach va part cp crumb with
  | (s1, .error x) => (s1, .error (.fault x))
  | (s1, .ok (.host _)) => let (s2, v) := s1.draw; (s2, .ok (v &&& BitVec.ofNat 64 (2 ^ (8 * n) - 1)))
  | (s1, .ok (.key k)) => if s1.poisoned k then (s1, .error .poison) else (s1, .ok (s1.readW k n))

/-- A unit writes up to eight bytes of one word of the global space. -/
def State.globWrite (s : State) (who : Option Nat) (va n part cp : Nat) (crumb : Bool) (data : Word) (mask : Nat) :
    State × Option UErr :=
  match s.reach va part cp crumb with
  | (s1, .error x) => (s1, some (.fault x))
  | (s1, .ok (.host b)) => ({ s1 with hostOut := s1.hostOut ++ [(b, n, data)] }, none)
  | (s1, .ok (.key k)) => ((s1.performWrite who va k (l2Key va) n data mask).markDirty va, none)

/-- The cluster answers its neighbours: it is on and no reset of its rectangle runs (spec/15 R348, spec/16 R376). -/
def State.clusterLive (s : State) (pcl : Nat) : Bool :=
  (s.pow pcl).st == .on &&
    !(List.range 16).any fun r => s.rectValid r && s.inRect r pcl && s.regField (.rectrst r) 1 1 == 1

end Sys2Proof.Machine
end

