-- ==== Sys2Proof/Machine/Rights.lean ====
section
/-!
DEFINITION. Machine/Rights.lean: the PLB and the walk of the protection table (spec/14 R306–R308), checks 2 and 3 of
spec/04 R98 on an address, and the phase guard's home window (spec/09 R219, R220).
-/
namespace Sys2Proof.Machine

/-- Key of a PLB entry: the table it came from and the first 2 MiB granule of its domain (spec/14 R308). -/
def plbKey (table va : Nat) : Nat := table / 8 * 2 ^ 28 + va / 2 ^ 21
/-- Key of the header that a frame holds of its context's table. -/
def hdrKey (table slot : Nat) : Nat := table / 8 * 2 ^ 28 + 2 ^ 27 + slot
/-- The key names a header. -/
def isHdrKey (k : Nat) : Bool := (k / 2 ^ 27) % 2 == 1
/-- The table address of a key. -/
def keyTable (k : Nat) : Nat := k / 2 ^ 28 * 8

/-- Adds a PLB entry: at most 64 that are no headers, the oldest dropped (spec/14 R308; log 15). -/
def plbAdd (l : List (Nat × Nat)) (k v : Nat) : List (Nat × Nat) :=
  let l1 := l ++ [(k, v)]
  if isHdrKey k then l1
  else if (l1.filter fun e => !isHdrKey e.1).length ≤ 64 then l1
  else match l1.find? fun e => !isHdrKey e.1 with
    | some e => l1.erase e
    | none => l1

/-- Installs a PLB entry or header in a core. -/
def State.plbInstall (s : State) (core k v : Nat) : State := s.updCore core fun c => { c with plb := plbAdd c.plb k v }

/-- The value that a core's PLB holds under a key. -/
def State.plbLook (s : State) (core k : Nat) : Option Nat := ((s.core core).plb.find? fun e => e.1 == k).map (·.2)

/-- Value of a PLB entry: rights, and log2 of the granules of its domain. -/
def plbValue (bits lg : Nat) : Nat := bits % 8 + 8 * lg

/-- The rights of the PLB entry whose domain holds an address (spec/14 R308). -/
def State.plbHit (s : State) (core table va : Nat) : Option Nat :=
  ((s.core core).plb.find? fun e => !isHdrKey e.1 && keyTable e.1 == table / 8 * 8 &&
    e.1 % 2 ^ 27 ≤ va / 2 ^ 21 && va / 2 ^ 21 < e.1 % 2 ^ 27 + 2 ^ (e.2 / 8)).map fun e => e.2 % 8

/-- Reads a word of a protection table, as a load at S (spec/14 R308). -/
def State.tableWord (s : State) (f a : Nat) : State × Option Word :=
  match s.globRead a 8 (s.frame f).part 0 (crumbOf (s.frame f).region a) with
  | (s1, .ok w) => (s1, some w)
  | (s1, .error _) => (s1, none)

/-- The header of the table of a frame's context is due: the context has started on the core and no instruction of it has
issued yet (spec/14 R308). -/
def State.headerDue (s : State) (f : Nat) : Bool :=
  let x := s.frame f
  x.launch.isSome && x.seq == 0 && !(s.ctxOf f).all && !s.wipe && (s.plbLook (coreOf f) (hdrKey (s.ctxOf f).table (slotOf f))).isNone

/-- The header of the table of a frame's context, read when it is not held. -/
def State.tableHeader (s : State) (f : Nat) : State × Option Nat :=
  let t := (s.ctxOf f).table
  match s.plbLook (coreOf f) (hdrKey t (slotOf f)) with
  | some h => (s, some h)
  | none =>
    match s.tableWord f t with
    | (s1, some w) => (s1.plbInstall (coreOf f) (hdrKey t (slotOf f)) w.toNat, some w.toNat)
    | (s1, none) => (s1, none)

/-- What a walk of the table finds for an address: a failed read, no entry, or the rights of the first entry whose
domain holds it, with log2 of the 2 MiB granules that its PLB entry covers. -/
inductive ScanRes where
  | failed | absent | found (bits lg : Nat)
  deriving DecidableEq, Repr

/-- Log2 of the granules around an address that an entry of 2 ^ `lg` bytes decides, past the domains of entries before it:
all of its own domain when none of them lies inside (log 15). -/
def decidedSpan (va lg : Nat) (low : List (Nat × Nat)) : Nat :=
  (((List.range (lg - 20)).map fun i => lg - i).find? fun k =>
    low.all fun d => d.1 + d.2 ≤ va / 2 ^ k * 2 ^ k || va / 2 ^ k * 2 ^ k + 2 ^ k ≤ d.1).getD 21 - 21

/-- Scans the entries in ascending index (spec/14 R307, R308); `low` are the domains of the entries scanned. -/
def State.scanTable (s : State) (f va a : Nat) (low : List (Nat × Nat)) : Nat → State × ScanRes
  | 0 => (s, .absent)
  | n + 1 =>
    match s.tableWord f a with
    | (s1, none) => (s1, .failed)
    | (s1, some w) =>
      match protEntry w with
      | some (bits, base, len) =>
        if base ≤ va ∧ va < base + len then (s1, .found bits (decidedSpan va len.log2 low))
        else s1.scanTable f va (a + 8) (low ++ [(base, len)]) n
      | none => s1.scanTable f va (a + 8) low n

/-- Rights of a frame's context at a global address, through the PLB; none when the walk itself fails
(spec/14 R306–R308). -/
def State.globRights (s : State) (f va : Nat) : State × Option Nat :=
  let c := s.ctxOf f
  if c.all then (s, some 7)
  else
    match s.plbHit (coreOf f) c.table va with
    | some b => (s, some b)
    | none =>
      match s.tableHeader f with
      | (s1, none) => (s1, none)
      | (s1, some h) =>
        match s1.scanTable f va (c.table + 8) [] (h / 2 ^ 40 % 256) with
        | (s2, .failed) => (s2, none)
        | (s2, .absent) => (s2, some 0)
        | (s2, .found b lg) =>
          (s2.plbInstall (coreOf f) (plbKey c.table (va / 2 ^ (21 + lg) * 2 ^ (21 + lg))) (plbValue b lg), some b)

/-- Rights of a frame's context in the L1 of a logical cluster, or in the aperture (`c = 16`). -/
def State.hdrRights (s : State) (f c : Nat) : State × Option Nat :=
  if (s.ctxOf f).all then (s, some 3)
  else match s.tableHeader f with
    | (s1, none) => (s1, none)
    | (s1, some h) => (s1, some (h / 4 ^ c % 4))

/-- A trap of an address check: cause and DETAIL. -/
abbrev Denial := Nat × Nat

/-- Turns rights into the outcome of check 3. -/
def rightsOutcome (need : Need) (r : State × Option Nat) : State × Option Denial :=
  match r with
  | (s, none) => (s, some (0x05, 0x100))
  | (s, some b) => (s, if need.ok b then none else some (0x05, 0))

/-- Who a frame is to the device registers. -/
def State.writerOf (s : State) (f : Nat) : Writer :=
  let x := s.frame f
  if coreOf f = mgmtCore ∨ x.priv = .m then .m else .s x.part

/-- What kind of access is checked: a plain LDD or STD of 8 bytes may name a device register; a plain load may read a
post line; atomics may name neither (spec/14 R305, spec/15 R333, spec/09 R209). -/
inductive AKind where
  | plain | atomic | other
  deriving DecidableEq, Repr

/-- Checks 2 and 3 of spec/04 R98 on one address of an access of `size` bytes. -/
def State.checkAddr (s : State) (f ea size : Nat) (need : Need) (k : AKind) : State × Option Denial :=
  match windowOf ea with
  | .dev =>
    if (s.frame f).priv = .u then (s, some (0x10, 0))
    else if k ≠ .plain ∨ size ≠ 8 then (s, some (0x05, 0))
    else match Reg.ofAddr ea with
      | none => (s, some (0x05, 0))
      | some r =>
        let ok := if need.writes then s.mayWrite (s.writerOf f) r else s.mayRead (s.writerOf f) r
        (s, if ok then none else some (0x05, 0))
  | .none => (s, some (0x05, 0))
  | .aperture o =>
    if k = .atomic ∨ need.writes ∨ o ≥ 64 * 4096 then (s, some (0x05, 0)) else rightsOutcome need (s.hdrRights f 16)
  | .glob => rightsOutcome need (s.globRights f ea)
  | .own _ | .lcl _ _ =>
    match s.l1Place f ea with
    | none => (s, some (0x05, 0))
    | some (p, o, c) =>
      if s.urgentBand p o ∧ slotOf f ≠ 4 then (s, some (0x05, 0))
      else rightsOutcome need (s.hdrRights f c)

/-- Checks of every byte of an access whose bytes may lie in two granules or bands: its first and its last byte
(spec/04 R98; a CI12 element of 3 bytes alone can straddle). -/
def State.checkSpan (s : State) (f ea size : Nat) (need : Need) (k : AKind) : State × Option Denial :=
  match s.checkAddr f ea size need k with
  | (s1, some d) => (s1, some d)
  | (s1, none) =>
    if size ≤ 1 ∨ ea % 8 + size ≤ 8 then (s1, none) else s1.checkAddr f (ea + size - 1) size need k

/-- Home window of a frame, as spans of addresses (spec/09 R219). -/
def State.homeSpans (s : State) (f : Nat) : List (Nat × Nat) :=
  let x := s.frame f
  if !isTileCore (coreOf f) then [(x.stack.1, x.stack.1 + x.stack.2)]
  else
    let m := s.l1mapOf (clusterOf (coreOf f))
    let t := tileInCluster (tileOf (coreOf f))
    let (lo, hi) := if slotOf f = 4 then (ubOf m + t * uspanOf m, ubOf m + (t + 1) * uspanOf m)
                    else (ibOf m + t * tspanOf m, ibOf m + (t + 1) * tspanOf m)
    let w := 0x100000000 + s.lclOf f * l1Bytes
    [(x.stack.1, x.stack.1 + x.stack.2), (lo, hi), (w + lo, w + hi)]

/-- The lowest of `n` bytes from `ea` that lies outside the home window. -/
def outsideHome (spans : List (Nat × Nat)) (ea : Nat) : Nat → Option Nat
  | 0 => none
  | n + 1 => if spans.any (fun p => p.1 ≤ ea && ea < p.2) then outsideHome spans (ea + 1) n else some ea

/-- The phase guard is on for a store of a frame (spec/09 R220): EN and CUR are 1 and the store is issued at U. -/
def guardOn (phase : Word) (p : Priv) : Bool := phase.toNat % 4 == 3 && p == .u

/-- Check 4 of spec/04 R98: the lowest byte that the phase guard forbids. -/
def State.guardBreach (s : State) (f ea size : Nat) : Option Nat :=
  let x := s.frame f
  if guardOn x.phase x.priv then outsideHome (s.homeSpans f) ea size else none

end Sys2Proof.Machine
end

