-- ==== Sys2Proof/Machine/StreamUnit.lean ====
section
/-!
DEFINITION. Machine/StreamUnit.lean: what an instruction does with the bound stream registers it names (spec/01 R16,
spec/07 R151, spec/08 R178–R186): whether each supplies or accepts a register now, and the take and the offer.
-/
namespace Sys2Proof.Machine

/-- Sign-extends an `n`-bit value into `w` bits. -/
def sextBits (v n w : Nat) : Nat := truncInt (sextNat v n) w

/-- A memory element as its lane: plain, INT12 or CI12 (spec/02 R36). -/
def laneOf (kind v : Nat) : Nat :=
  match kind with
  | 1 => sextBits v 12 16
  | 2 => sextBits (v % 4096) 12 16 + sextBits (v / 4096) 12 16 * 65536
  | _ => v

/-- A lane as its memory element: the low 12 bits of each part of CI12 (spec/02 R36). -/
def memOf (t : ET) (v : Nat) : Nat :=
  match t with
  | .ci12 => v % 4096 + v / 65536 % 4096 * 4096
  | .int12 => v % 4096
  | _ => v

/-- Lanes of `w` bits, lowest first, as one register value. -/
def lanesNat (w : Nat) : List Nat → Nat
  | [] => 0
  | x :: t => x % 2 ^ w + 2 ^ w * lanesNat w t
/-- One lane of a register value. -/
def laneAt (v w e : Nat) : Nat := v / 2 ^ (w * e) % 2 ^ w

/-- The bound unit behind a vector register (spec/01 R16). -/
def Frame.unitAt (x : Frame) (r : Nat) : Option Unit :=
  if r < 28 then none else match x.units[r - 28]? with
    | some u => if u.kind = .unbound then none else some u
    | none => none

/-- Replaces a stream unit of a frame. -/
def State.setUnit (s : State) (f n : Nat) (u : Unit) : State := s.updFrame f fun x => { x with units := x.units.setIfInBounds n u }

/-- Elements of a unit in one register (spec/08 R179). -/
def Frame.unitElems (x : Frame) (u : Unit) : Nat := x.vbytes * 8 / (ET.ofCode u.et).width

/-! ### Neighbour links (spec/08 R184–R186) -/

/-- Column of a core in its row of four. -/
def columnOf (core : Nat) : Nat := core % 4
/-- Key of the link that arrives at a core on the flow of a side: 1 west (eastward), 0 east (westward). -/
def inLink (core side : Nat) : Nat := core % 1024 * 2 + side
/-- A neighbour stands at the far end of the incoming link. -/
def hasIn (core side : Nat) : Bool := if side = 1 then columnOf core ≠ 0 else columnOf core ≠ 3
/-- A neighbour stands at the far end of the outgoing link. -/
def hasOut (core side : Nat) : Bool := if side = 1 then columnOf core ≠ 3 else columnOf core ≠ 0
/-- Key of the outgoing link. -/
def outLink (core side : Nat) : Nat := inLink (if side = 1 then core + 1 else core - 1) side
/-- Words in a link. -/
def State.linkWords (s : State) (core key : Nat) : List VWord := lookD (s.cluster (clusterOf core)).links key []
/-- Writes a link. -/
def State.setLinkWords (s : State) (core key : Nat) (l : List VWord) : State :=
  s.updCluster (clusterOf core) fun c => { c with links := putCanon [] c.links key l }
/-- Pushes words onto the outgoing link of a flow. -/
def State.pushLink (s : State) (core side : Nat) (ws : List VWord) : State :=
  s.setLinkWords core (outLink core side) (s.linkWords core (outLink core side) ++ ws)

/-- The item of a channel that `k` items stand before, in order of sequence numbers (spec/08 R183). -/
def Chan.ready (c : Chan) (k : Nat := 0) : Option (List Byte) :=
  (c.items.find? fun p => p.1 == (c.next + k) % 2 ^ 32).map (·.2)

/-- Units below unit `n` that the same instruction reads and that take an item of the same channel: its own item is the one after
theirs (spec/08 R183).  DEDUCED: the lower unit takes its item first (notes/assumptions/18.md). -/
def Frame.takersBefore (x : Frame) (reads : List Nat) (n : Nat) (u : Unit) : Nat :=
  ((List.range n).filter fun m => reads.contains (28 + m) && match x.unitAt (28 + m) with
    | some w => w.kind == .chan && w.id == u.id && w.item.isEmpty
    | none => false).length

/-! ### May the instruction issue -/

/-- What the stream registers of an instruction answer: go on, hold it back, or trap 0x0E with unit, reason and
DETAIL [15:8]. -/
inductive VRes where
  | ok | hold
  | trap (unit reason hi : Nat)
  deriving DecidableEq, Repr

/-- A hold stands before a trap, and a lower unit before a higher (log 18). -/
def VRes.join (a b : VRes) : VRes :=
  match a, b with
  | .hold, _ => .hold
  | _, .hold => .hold
  | .trap u r h, _ => .trap u r h
  | .ok, r => r

/-- One unit, read and written as told (spec/08 R177–R186); `k` lower units take an item of its channel first. -/
def State.unitTest (s : State) (f n : Nat) (u : Unit) (rd wr : Bool) (k : Nat := 0) : VRes :=
  let x := s.frame f
  let core := coreOf f
  match u.kind with
  | .unbound => .ok
  | .gen =>
    let k := min (x.unitElems u) (u.count - u.next)
    if !rd && !wr then .ok
    else if rd && !wr && !u.dir && u.next < u.count && u.data.length ≥ k then .ok
    else match u.fault with
      | some (c, _) => .trap n 4 c
      | none =>
        if (rd && u.dir) || (wr && !u.dir) then .trap n 1 0
        else if rd then if u.next ≥ u.count then .trap n 2 0 else .hold
        else if u.next ≥ u.count then .trap n 3 0 else if u.stores.length ≥ 4 then .hold else .ok
  | .chan =>
    if wr then .trap n 1 0
    else if rd && u.item.isEmpty && ((s.chan (clusterOf core) u.id).ready k).isNone then .hold else .ok
  | .nbr =>
    let k := if x.gang then 2 else 1
    if (rd && !hasIn core u.id) || (wr && !hasOut core u.id) then .trap n 10 0
    else
      let push := (if rd && u.dir && hasOut core u.id then k else 0) + (if wr then k else 0)
      if rd && (s.linkWords core (inLink core u.id)).length < k then .hold
      else if push ≠ 0 && (s.linkWords core (outLink core u.id)).length + push > 4 then .hold
      else .ok

/-- All four units of a frame, for an instruction that reads and writes these vector registers. -/
def State.streamTest (s : State) (f : Nat) (reads writes : List Nat) : VRes :=
  [0, 1, 2, 3].foldl (fun r n =>
    match (s.frame f).unitAt (28 + n) with
    | some u => r.join (s.unitTest f n u (reads.contains (28 + n)) (writes.contains (28 + n))
        ((s.frame f).takersBefore reads n u))
    | none => r) .ok

/-! ### The value of a read -/

/-- The register that a bound unit supplies next, when `k` lower units take an item of its channel first.  DEDUCED: a gang's read of an item
of which 16 bytes are left has zeros above them (notes/assumptions/18.md). -/
def State.peekUnit (s : State) (f : Nat) (u : Unit) (k : Nat := 0) : Nat :=
  let x := s.frame f
  let core := coreOf f
  match u.kind with
  | .unbound => 0
  | .gen =>
    let t := ET.ofCode u.et
    lanesNat t.width ((u.data.take (x.unitElems u)).map fun v => laneOf (if t = .ci12 then 2 else 0) v.toNat)
  | .chan =>
    let bs := if u.item.isEmpty then ((s.chan (clusterOf core) u.id).ready k).getD [] else u.item
    leNat8 (bs.take x.vbytes)
  | .nbr => lanesNat 128 (((s.linkWords core (inLink core u.id)).take (if x.gang then 2 else 1)).map BitVec.toNat)
where
  /-- Bytes as a little-endian number. -/
  leNat8 : List Byte → Nat
    | [] => 0
    | b :: t => b.toNat + 256 * leNat8 t

/-- A vector register as a source of an instruction that reads `reads`: the bound unit's value, or the register
(spec/01 R16). -/
def State.srcV (s : State) (f r : Nat) (reads : List Nat := []) : Nat :=
  match (s.frame f).unitAt r with
  | some u => s.peekUnit f u ((s.frame f).takersBefore reads (r - 28) u)
  | none => s.vreg f r

/-- What a destination of a slot, or of a pair as a gang has it, holds before the instruction: nothing for a bound unit,
whose inactive elements are offered as zero (spec/07 R151). -/
def State.oldVOf (s : State) (f r : Nat) (gang : Bool) : Nat :=
  match (s.frame f).unitAt r with
  | some _ => 0
  | none => s.vregOf f r gang
/-- What a destination of a thread holds before the instruction. -/
def State.oldV (s : State) (f r : Nat) : Nat := s.oldVOf f r (s.frame f).gang

/-! ### Taking and offering -/

/-- Takes the next register of unit `n` (spec/08 R178, R180, R183, R185, R186).  DEDUCED: where a gang's unit holds only the
16 bytes that single reads have left, they are the low bytes, the high ones are zero, and the slot frees
(notes/assumptions/18.md). -/
def State.takeUnit (s : State) (f n : Nat) (u : Unit) : State :=
  let x := s.frame f
  let core := coreOf f
  match u.kind with
  | .unbound => s
  | .gen =>
    let k := min (x.unitElems u) (u.count - u.next)
    s.setUnit f n { u with next := u.next + k, data := u.data.drop k }
  | .chan =>
    let c := clusterOf core
    let ch := s.chan c u.id
    let fresh := u.item.isEmpty
    let bs := if fresh then ch.ready.getD [] else u.item
    let rest := bs.drop x.vbytes
    let ch1 : Chan := if fresh ∧ ch.ready.isSome then
        { ch with items := ch.items.filter (fun p => p.1 ≠ ch.next), next := (ch.next + 1) % 2 ^ 32, taken := ch.taken + 1 } else ch
    let ch2 : Chan := if rest.isEmpty ∧ !bs.isEmpty then { ch1 with taken := ch1.taken - 1 } else ch1
    (s.setChan c u.id ch2).setUnit f n { u with item := rest }
  | .nbr =>
    let k := if x.gang then 2 else 1
    let l := s.linkWords core (inLink core u.id)
    let s1 := s.setLinkWords core (inLink core u.id) (l.drop k)
    if u.dir && hasOut core u.id then s1.pushLink core u.id (l.take k) else s1

/-- Takes one value of every bound unit among the registers read (spec/07 R151). -/
def State.takeUnits (s : State) (f : Nat) (reads : List Nat) : State :=
  [0, 1, 2, 3].foldl (fun s n =>
    if reads.contains (28 + n) then
      match (s.frame f).unitAt (28 + n) with
      | some u => s.takeUnit f n u
      | none => s
    else s) s

/-- The stores of one element, one for each aligned 8-byte word that it lies in; `ready` tells whether its value is
known. -/
def elemStores (seq elem addr size v : Nat) (ready : Bool) : List UStore :=
  if addr % 8 + size ≤ 8 then [⟨seq, elem, addr, size, BitVec.ofNat 64 v, ready⟩]
  else
    let k := 8 - addr % 8
    [⟨seq, elem, addr, k, BitVec.ofNat 64 (v % 256 ^ k), ready⟩,
     ⟨seq, elem, addr + k, size - k, BitVec.ofNat 64 (v / 256 ^ k), ready⟩]

/-- Address of element `i` of a generator (spec/08 R179). -/
def Unit.elemAddr (u : Unit) (i : Nat) : Nat := (((u.base : Int) + i * u.stride) % (2 ^ 64 : Nat)).toNat

/-- The stores of `k` elements of a generator from element `lo` on, whose values are the lanes of `v`. -/
def Unit.storesOf (u : Unit) (seq lo k v : Nat) (ready : Bool) : List UStore :=
  let t := ET.ofCode u.et
  (List.range k).flatMap fun i =>
    elemStores seq (lo + i) (u.elemAddr (lo + i)) t.msize (memOf t (laneAt v t.width i)) ready

/-- Queues a register's stores in a write stream, under the PHASE in force (spec/08 R179, R180, R182). -/
def State.queueStores (s : State) (f n : Nat) (u : Unit) (seq v : Nat) (ready : Bool) : State :=
  let k := min ((s.frame f).unitElems u) (u.count - u.next)
  s.setUnit f n { u with next := u.next + k, stores := u.stores ++ [u.storesOf seq u.next k v ready],
                         phases := u.phases ++ [(s.frame (s.named f)).phase] }

/-- Pushes a register, of a pair of slots as a gang has it, on the outgoing link of a neighbour unit (spec/08 R185). -/
def State.pushUnit (s : State) (f : Nat) (u : Unit) (v : Nat) (gang : Bool) : State :=
  s.pushLink (coreOf f) u.id ((List.range (if gang then 2 else 1)).map fun i => BitVec.ofNat 128 (laneAt v 128 i))

/-- Offers a register to unit `n` (spec/08 R179, R180, R185). -/
def State.offerUnit (s : State) (f n : Nat) (u : Unit) (seq v : Nat) : State :=
  match u.kind with
  | .gen => s.queueStores f n u seq v true
  | .nbr => s.pushUnit f u v (s.frame f).gang
  | _ => s

/-- A vector register as a destination: the bound unit, or the register. -/
def State.dstV (s : State) (f r seq v : Nat) : State :=
  match (s.frame f).unitAt r with
  | some u => s.offerUnit f (r - 28) u seq v
  | none => s.setVreg f r v

/-! ### Offers by loads: the register is offered when the load issues, and its value comes with the data -/

/-- A load into a bound write stream queues its stores at its issue, in program order (spec/08 R180, R182). -/
def State.reserveV (s : State) (f r seq : Nat) : State :=
  match (s.frame f).unitAt r with
  | some u => if u.kind = .gen then s.queueStores f (r - 28) u seq 0 false else s
  | none => s

/-- The value comes of a register that a load has offered. -/
def Unit.fill (u : Unit) (seq v : Nat) : Unit :=
  { u with stores := u.stores.map fun r => match r with
      | h :: _ => if h.seq = seq ∧ !h.ready then u.storesOf seq h.elem ((r.map (·.elem)).eraseDups.length) v true else r
      | [] => r }

/-- The offer of a load that has failed is withdrawn, as if it had not been made: no later one stands behind it, since a
later instruction that names the register waits for the load (spec/04 R100).  DEDUCED (notes/assumptions/18.md). -/
def Unit.withdraw (u : Unit) (seq : Nat) : Unit :=
  let gone := u.stores.filter fun r => r.any fun st => st.seq == seq && !st.ready
  let n := gone.length
  if n = 0 then u
  else { u with stores := u.stores.filter (fun r => !(r.any fun st => st.seq == seq && !st.ready)),
                phases := u.phases.take (u.phases.length - n),
                next := u.next - (gone.flatMap fun r => (r.map (·.elem)).eraseDups).length }

/-- The data of a load comes to a destination of a slot, or of a pair as a gang has it: the stores queued for it, the link,
or the register. -/
def State.loadV (s : State) (f r seq v : Nat) (gang : Bool) : State :=
  match (s.frame f).unitAt r with
  | some u => match u.kind with
    | .gen => s.setUnit f (r - 28) (u.fill seq v)
    | .nbr => s.pushUnit f u v gang
    | _ => s
  | none => s.setVregOf f r v gang

/-- A load to a bound unit has failed. -/
def State.withdrawV (s : State) (f r seq : Nat) : State :=
  match (s.frame f).unitAt r with
  | some u => s.setUnit f (r - 28) (u.withdraw seq)
  | none => s

end Sys2Proof.Machine
end

