-- ==== Sys2Proof/Machine/Access.lean ====
section
/-!
DEFINITION. Machine/Access.lean: issued accesses on their way (spec/04 R98–R101): which may be performed, what each does
when its bank or slice grants it (spec/09 R209–R214), and how its data and late outcomes come back (spec/04 R100,
spec/07 R168).
-/
namespace Sys2Proof.Machine

/-- The access has ended. -/
def Part.done (p : Part) : Bool :=
  match p.stage with
  | .performed | .failed _ => true
  | _ => false

/-- The access ended with a late cause. -/
def Part.cause (p : Part) : Option Nat :=
  match p.stage with
  | .failed c => some c
  | _ => none

/-- Every access of the instruction has ended. -/
def Acc.done (a : Acc) : Bool := a.parts.all Part.done
/-- The instruction writes memory. -/
def Acc.writes (a : Acc) : Bool :=
  match a.op with
  | .store | .amo _ _ | .sc => true
  | _ => false

/-- Two accesses name a common byte (spec/04 R101). -/
def Part.overlaps (p q : Part) : Bool :=
  p.tgt.loc < q.tgt.loc + q.size && q.tgt.loc < p.tgt.loc + p.size

/-- The two accesses are to the same page (spec/04 R100 item 4). -/
def Part.samePage (p q : Part) : Bool :=
  match p.tgt, q.tgt with
  | .glob a, .glob b => p.crumb == q.crumb && pageOf a p.crumb == pageOf b p.crumb
  | _, _ => false

/-- An earlier access `q` of instruction `b` keeps back access `p` of instruction `a` of the same thread (spec/04 R100,
R101; spec/09 R217; spec/15 R334).  An access that a fault record has held keeps back the later ones to its page until it is
performed, also after the resolution (spec/14 R311). -/
def blocks (a b : Acc) (p q : Part) : Bool :=
  !q.done &&
    (a.strong || b.strong || p.overlaps q ||
     (q.kept && p.samePage q) ||
     (match q.tgt with | .post _ => b.op == .store | _ => false))

/-- A store that a write stream of the thread has queued before the access keeps it back: one to a byte of it in the own
L1, or any when the access is strong (spec/08 R180, spec/09 R217). -/
def Frame.streamBlocks (x : Frame) (seq : Nat) (strong : Bool) (place : Option (Nat × Nat)) : Bool :=
  x.units.toList.any fun u => u.stores.any fun r => r.any fun st =>
    st.seq < seq && (strong || match place with
      | some (lo, n) => st.addr < lo + n && lo < st.addr + st.size
      | none => false)

/-- A ticketed update of the thread, earlier than the access, has not been accepted yet: a strong access waits for it, and every
access waits for a strong one (spec/09 R217, spec/13 R285, R291). -/
def Frame.updWaits (x : Frame) (seq : Nat) (strong : Bool) : Bool := x.tickets.any fun t => match t with
  | some u => u.seq < seq && (strong || u.strong)
  | none => false

/-- A part may be performed now: nothing earlier of its thread keeps it back. -/
def State.eligible (s : State) (a : Acc) (i : Nat) : Bool :=
  match a.parts[i]? with
  | none => false
  | some p =>
    (match p.stage with
      | .waiting | .filling => true
      | .held fid => !s.faults.any fun r => r.fid == fid
      | _ => false) &&
    s.accs.all (fun b => b.frame ≠ a.frame || b.seq ≥ a.seq || b.parts.all fun q => !blocks a b p q) &&
    (a.parts.take i).all (fun q => q.done || !(a.strong || p.overlaps q)) &&
    !(s.frame a.frame).streamBlocks a.seq a.strong (match p.tgt with
      | .l1 pcl o => if clusterOf (coreOf a.frame) = pcl then some (o, p.size) else none
      | _ => none) &&
    !(s.frame a.frame).updWaits a.seq a.strong

/-- The instruction's record by frame and number. -/
def State.accOf (s : State) (f seq : Nat) : Option Acc := s.accs.find? fun a => a.frame == f && a.seq == seq

/-- Replaces one access of an instruction. -/
def State.setPart (s : State) (f seq i : Nat) (p : Part) : State :=
  { s with accs := updWhere (fun a => a.frame == f && a.seq == seq) (fun a => { a with parts := a.parts.set i p }) s.accs }

/-- Drops the record of an instruction. -/
def State.dropAcc (s : State) (f seq : Nat) : State :=
  { s with accs := s.accs.filter fun a => !(a.frame == f && a.seq == seq) }

/-- A late outcome has been reported to a thread (spec/04 R100). -/
def State.report (s : State) (f : Nat) (l : Late) : State := s.updFrame f fun x => { x with late := x.late ++ [l] }

/-- DETAIL of a late outcome: [0] late, [1] store, [6:2] destination register, or A of a vector store (spec/04 R100,
spec/07 R168, spec/09 R210). -/
def Acc.lateDetail (a : Acc) : Nat := 1 + (if a.op = .store then 2 else 0) + a.areg * 4

/-- The late outcome of an ended instruction: that of its lowest element that failed (spec/07 R168). -/
def Acc.lateOf (a : Acc) : Option Late :=
  let failed := a.parts.filter fun p => p.cause.isSome
  let low := failed.foldl (fun (b : Option Part) p => match b with
    | some q => if p.elem < q.elem then some p else b
    | none => some p) none
  low.map fun p => ⟨a.seq, 0, p.cause.getD 0, p.va, a.lateDetail⟩

/-- A store that has ended leaves its record; a failure among its accesses is reported. -/
def State.settle (s : State) (f seq : Nat) : State :=
  match s.accOf f seq with
  | none => s
  | some a =>
    if a.ret = .none ∧ a.op ≠ .waitrs ∧ a.done then
      let s1 := s.dropAcc f seq
      match a.lateOf with
      | some l => s1.report f l
      | none => s1
    else s

/-- One arithmetic part of an AMO: INT by R47, floats by one rounding (spec/09 R211, R212). -/
def amoPart (fn : Nat) (t : ET) (ar : AR) (w : Nat) (old x : Nat) : Nat × Nat :=
  let pt := t.part
  let fl := pt.isFlt || t == .cf16
  let a := if ar.exact then { ar with isat := false, nanc := true } else ar
  match fn with
  | 1 =>
    if fl then fpAdd (fmtOf pt) ar w false old x
    else narrowPart a pt (partVal pt old + partVal pt x)
  | 2 => if fl then fpMinMax (fmtOf pt) a false old x
         else (if partVal pt old ≤ partVal pt x then old else x, 0)
  | 3 => if fl then fpMinMax (fmtOf pt) a true old x
         else (if partVal pt x ≤ partVal pt old then old else x, 0)
  | 4 => (old &&& x, 0)
  | 5 => (old ||| x, 0)
  | 6 => (old ^^^ x, 0)
  | _ => (x, 0)

/-- The new word of an AMO and its flags; none when a compare-and-swap writes nothing (spec/09 R211). -/
def amoNew (fn et : Nat) (arith : Word) (rnd : List (BitVec 32)) (old x rep : Nat) : Option Nat × Nat :=
  let ar := AR.ofWord arith
  let t := ET.ofCode et
  let s (v : Nat) : Int := sextNat v 64
  let w (i : Nat) := (rnd.getD i 0).toNat
  match fn with
  | 7 | 0x19 => (if old = x then some rep else none, 0)
  | 0x10 => (some x, 0)
  | 0x11 => (some ((old + x) % 2 ^ 64), 0)
  | 0x12 => (some (if s old ≤ s x then old else x), 0)
  | 0x13 => (some (if s x ≤ s old then old else x), 0)
  | 0x14 => (some (min old x), 0)
  | 0x15 => (some (max old x), 0)
  | 0x16 => (some (old &&& x), 0)
  | 0x17 => (some (old ||| x), 0)
  | 0x18 => (some (old ^^^ x), 0)
  | _ =>
    if t.isComplex && fn == 1 then
      let k := 2 ^ t.partWidth
      let (r0, f0) := amoPart fn t ar (w 0) (old % k) (x % k)
      let (r1, f1) := amoPart fn t ar (w 1) (old / k % k) (x / k % k)
      (some (r0 + r1 * k), f0 ||| f1)
    else
      let (r, fl) := amoPart fn t ar (w 0) old x
      (some r, fl)

/-- The unit that keeps reservations and watches for an access: bank, or slice (spec/09 R213, R214). -/
def State.resvUnit (s : State) (t : Tgt) : Nat :=
  match t with
  | .l1 p o => p * 4096 + bankNumber (s.l1mapOf p) o
  | .glob va => 65536 + homeSlice va
  | _ => 0
/-- Reservations and watches that a unit keeps. -/
def resvCap (u : Nat) : Nat := if u < 65536 then 4 else 64

/-- Sets a reservation: a frame holds one, and a full table evicts its oldest (spec/09 R213). -/
def State.reserve (s : State) (f loc u : Nat) : State :=
  let l := s.resvs.filter fun r => r.frame ≠ f
  let mine := l.filter fun r => r.unit == u
  let l := if mine.length < resvCap u then l else match mine with
    | r :: _ => l.erase r
    | [] => l
  { s with resvs := l ++ [⟨f, loc, u⟩] }

/-- Ends a frame's reservation. -/
def State.unreserve (s : State) (f : Nat) : State := { s with resvs := s.resvs.filter fun r => r.frame ≠ f }

/-- Watches that stand at a unit. -/
def State.watchCount (s : State) (u : Nat) : Nat :=
  (s.accs.filter fun a => a.op == .waitrs &&
    a.parts.any fun p => p.stage == .watching && s.resvUnit p.tgt == u).length

/-- Performs a part at storage key `key`, in one grant (spec/04 R99, spec/09 R209–R214, spec/14 R322). -/
def State.performPart (s : State) (a : Acc) (p : Part) (key : Nat) : State × Part :=
  let loc := p.tgt.loc
  let bad := s.poisoned key
  match a.op with
  | .store => (s.performWrite (some a.frame) p.va key loc p.size p.data p.mask.toNat, { p with stage := .performed })
  | .load =>
    if bad then (s, { p with stage := .failed 0x0B })
    else (s, { p with stage := .performed, val := s.readW key p.size })
  | .lr =>
    if bad then (s, { p with stage := .failed 0x0B })
    else (s.reserve a.frame loc (s.resvUnit p.tgt), { p with stage := .performed, val := s.readW key p.size })
  | .sc =>
    let held := s.resvs.any fun r => r.frame == a.frame && r.loc == loc
    let s1 := s.unreserve a.frame
    if bad then (s1, { p with stage := .failed 0x0B })
    else if held then
      (s1.performWrite (some a.frame) p.va key loc 8 p.data 255, { p with stage := .performed, val := 0 })
    else (s1, { p with stage := .performed, val := 1 })
  | .waitrs =>
    if bad then (s, { p with stage := .failed 0x0B })
    else
      let v := s.readW key 8
      if v ≠ p.data then (s, { p with stage := .performed, val := v })
      else
        let u := s.resvUnit p.tgt
        (s, { p with stage := if s.watchCount u < resvCap u then .watching else .polling })
  | .amo fn et =>
    if bad then (s, { p with stage := .failed 0x0B })
    else
      let old := s.readW key p.size
      let k := 2 ^ (8 * p.size)
      let (new, fl) := amoNew fn et a.arith a.rnd old.toNat (p.data.toNat % k) (p.data2.toNat % k)
      let s1 := match new with
        | some v => s.performWrite (some a.frame) p.va key loc p.size (BitVec.ofNat 64 v) (2 ^ p.size - 1)
        | none => s
      (s1, { p with stage := .performed, val := old, data2 := BitVec.ofNat 64 fl })

/-- Performs a part and puts it back. -/
def State.performAt (s : State) (a : Acc) (i : Nat) (p : Part) (key : Nat) : State :=
  let (s1, q) := s.performPart a p key
  (s1.setPart a.frame a.seq i q).settle a.frame a.seq

/-- A part ends with a late cause. -/
def State.failPart (s : State) (a : Acc) (i : Nat) (p : Part) (cause : Nat) : State :=
  (s.setPart a.frame a.seq i { p with stage := .failed cause }).settle a.frame a.seq

/-- A part takes another stage. -/
def State.stagePart (s : State) (a : Acc) (i : Nat) (p : Part) (st : Stage) : State :=
  s.setPart a.frame a.seq i { p with stage := st }

/-! ### Banks (spec/09 R204–R207) -/

/-- Cycles from the leave cycle to the nominal bank cycle: the latency class in the own cluster (spec/09 R204), the
outbound time of spec/14 R408 elsewhere. -/
def State.bankDelay (s : State) (core pcl off : Nat) : Nat :=
  if clusterOf core = pcl then
    let t := tileInCluster (tileOf core)
    let (b, _, _) := bankOf (s.l1mapOf pcl) off
    if b = t then 0 else if b / 4 = t / 4 then 1 else 2
  else if dieOf core = pcl / 8 then 12 else 37

/-- Requester number at a bank (spec/09 R207). -/
def requester (core pcl : Nat) : Nat := if clusterOf core = pcl then core % 1024 else 1216

/-- A waiting access at a bank: the instruction, the place of the part, its nominal cycle and requester. -/
structure BankReq where
  acc  : Acc
  i    : Nat
  p    : Part
  nom  : Nat
  req  : Nat
  deriving DecidableEq, Repr

/-- The accesses that wait at a bank of a cluster, their nominal cycle reached, and may be performed (spec/09 R207). -/
def State.bankWaiters (s : State) (pcl bank : Nat) : List BankReq :=
  s.accs.flatMap fun a => (List.range a.parts.length).filterMap fun i =>
    match a.parts[i]? with
    | some p => match p.tgt with
      | .l1 c o =>
        if c = pcl ∧ bankNumber (s.l1mapOf pcl) o = bank ∧ a.stamp + p.lag + s.bankDelay (coreOf a.frame) pcl o ≤ s.ck ∧
            s.eligible a i then
          some ⟨a, i, p, a.stamp + p.lag + s.bankDelay (coreOf a.frame) pcl o, requester (coreOf a.frame) pcl⟩
        else none
      | _ => none
    | none => none

/-- First at or after the pointer, counting upward and wrapping from 1,216 to 0. -/
def afterPtr (ptr req : Nat) : Nat := (req + 1217 - ptr) % 1217

/-- One waiter goes before another: urgent class, then nominal cycle, then the bank's pointer (spec/09 R207). -/
def BankReq.before (ptr : Nat) (x y : BankReq) : Bool :=
  if x.acc.urg ≠ y.acc.urg then x.acc.urg
  else if x.nom ≠ y.nom then x.nom < y.nom
  else afterPtr ptr x.req < afterPtr ptr y.req

/-- The waiter that a bank grants. -/
def pickBank (ptr : Nat) : List BankReq → Option BankReq
  | [] => none
  | x :: t => match pickBank ptr t with
    | some y => if y.before ptr x then some y else some x
    | none => some x

/-- The bank's pointer. -/
def State.bankPtr (s : State) (pcl bank : Nat) : Nat := lookD (s.cluster pcl).bankPtr bank 0

/-! ### Return of data -/

/-- Reads `n` memory bits from bit address `ba` out of the values that the parts returned. -/
def partsBits (ps : List Part) (ba n : Nat) : Nat :=
  (List.range ((n + ba % 8 + 7) / 8)).foldl (fun acc j =>
    let a := ba / 8 + j
    let b := match ps.find? fun p => p.base ≤ a && a < p.base + p.size with
      | some p => p.val.toNat / 256 ^ (a - p.base) % 256
      | none => 0
    acc + b * 256 ^ j) 0 / 2 ^ (ba % 8) % 2 ^ n

/-- Sets `w` bits at `lo` in a register value. -/
def setBitsNat (x lo w v : Nat) : Nat := x - x / 2 ^ lo % 2 ^ w * 2 ^ lo + v % 2 ^ w * 2 ^ lo

/-- The value of register `r` of a load's destination after its lanes: bit positions are register × 256 + bit. -/
def State.loadedV (s : State) (a : Acc) (rd r : Nat) (elems : List (Nat × Nat × Nat × Nat × Nat)) (zero : List (Nat × Nat)) :
    Nat :=
  let v0 := s.oldVOf a.frame (rd + r) a.gang
  let from' (pos w kind : Nat) : List Part := if kind = 3 then a.parts.filter fun p => p.elem == pos / w else a.parts
  let v1 := elems.foldl (fun v (pos, w, ba, n, kind) =>
    if pos / 256 = r then setBitsNat v (pos % 256) w (laneOf kind (partsBits (from' pos w kind) ba n)) else v) v0
  zero.foldl (fun v (pos, w) => if pos / 256 = r then setBitsNat v (pos % 256) w 0 else v) v1

/-- A value of `size` bytes extended to a register (spec/04 R97, spec/09 R210). -/
def extend (v size : Nat) (signed : Bool) : Word :=
  if signed then BitVec.ofInt 64 (sextNat v (8 * size)) else BitVec.ofNat 64 v

/-- TE of an ARITH value (spec/01 R23). -/
def trapEnables (arith : Word) : Nat := arith.toNat / 256 % 256

/-- The flags of an atomic come with its old value: they wait, with the trap enables under which it issued, for the next
boundary of the thread (spec/09 R210, spec/01 R23). -/
def State.amoReturn (s : State) (a : Acc) (fl : Nat) : State :=
  if fl = 0 then s else s.updFrame a.frame fun x => { x with amoFlags := x.amoFlags ++ [(trapEnables a.arith, fl)] }

/-- Writes the destination registers of a load-like instruction whose accesses were all performed. -/
def State.deliver (s : State) (a : Acc) : State :=
  let v0 := match a.parts with | p :: _ => p.val.toNat | [] => 0
  match a.ret with
  | .none => s
  | .g rd size sg => s.updFrame a.frame (·.setGr rd (extend v0 size sg))
  | .sc rd => s.updFrame a.frame (·.setGr rd (BitVec.ofNat 64 v0))
  | .amo rd size sg =>
    let fl := match a.parts with | p :: _ => p.data2.toNat | [] => 0
    (s.updFrame a.frame (·.setGr rd (extend v0 size sg))).amoReturn a (fl ||| a.fl0)
  | .v rd n elems zero =>
    (List.range n).foldl (fun t r => t.loadV a.frame (rd + r) a.seq (s.loadedV a rd r elems zero) a.gang) s

/-- What a failed load leaves: an offer to a stream is withdrawn, and the flags set at issue stand (spec/02 R54). -/
def State.undeliver (s : State) (a : Acc) : State :=
  match a.ret with
  | .v rd n _ _ => (List.range n).foldl (fun t r => t.withdrawV a.frame (rd + r) a.seq) s
  | _ => s.amoReturn a a.fl0

/-- What a load of the device-register window or of a post line returns (spec/15 R333). -/
def State.ioRead (s : State) (t : Tgt) : Word :=
  match t with
  | .reg a => match Reg.ofAddr a with
    | some r => s.readReg r
    | none => 0
  | .post a => if (a - apBase) % 64 < 8 then s.readReg (.tctl ((a - apBase) / 64)) else 0
  | _ => 0

/-- The bytes of a word that a read of part of it selects. -/
def subWord (w : Word) (a size : Nat) : Word := BitVec.ofNat 64 (w.toNat / 256 ^ (a % 8) % 256 ^ size)

/-- Performs the register and aperture reads of an instruction that may be performed (spec/14 R408). -/
def State.readIo (s : State) (a : Acc) : State :=
  (List.range a.parts.length).foldl (fun s i =>
    match s.accOf a.frame a.seq with
    | none => s
    | some b => match b.parts[i]? with
      | none => s
      | some p => match p.tgt with
        | .reg _ => if b.op = .load ∧ s.eligible b i then
            s.setPart b.frame b.seq i { p with stage := .performed, val := s.ioRead p.tgt } else s
        | .post x => if b.op = .load ∧ s.eligible b i then
            s.setPart b.frame b.seq i
              { p with stage := .performed, val := subWord (s.ioRead p.tgt) x p.size } else s
        | _ => s) s

/-- A load-like instruction returns: its registers are written, or, when an access failed, keep their values and the
late outcome is reported (spec/04 R100, spec/07 R168). -/
def State.returnAcc (s : State) (a : Acc) : State :=
  let s1 := s.dropAcc a.frame a.seq
  match a.lateOf with
  | some l => (s1.undeliver a).report a.frame l
  | none => s1.deliver a

/-- Accesses of a frame that have not ended. -/
def State.pendingOf (s : State) (f : Nat) : List Acc := s.accs.filter fun a => a.frame == f

/-- Every access of a frame that an instruction before number `seq` made has been performed (spec/09 R217): loads, stores,
atomics, write-stream elements and ticketed updates (spec/12 R278, spec/13 R285).  One that failed has left its record. -/
def State.earlierDone (s : State) (f seq : Nat) : Bool :=
  s.accs.all (fun a => a.frame ≠ f || a.seq ≥ seq || a.parts.all fun p => p.stage == .performed) &&
  (s.frame f).units.toList.all (fun u => u.stores.all fun r => r.all fun st => st.seq ≥ seq) &&
  (s.frame f).tickets.all fun t => match t with
    | some u => u.seq ≥ seq
    | none => true

/-- As `State.earlierDone`, and when the instruction was one of a gang also the accesses that the thread of the odd slot made
before its own number `odd` (spec/01 R20, spec/12 R269, R277). -/
def State.gangDone (s : State) (f seq : Nat) (odd : Option Nat) : Bool :=
  s.earlierDone f seq && match odd with | some q => s.earlierDone (oddOf f) q | none => true

/-- The accesses that a release arrival orders are performed (spec/12 R271, R272). -/
def State.arrOrdered (s : State) (a : Arr) : Bool := !a.release || a.left || s.gangDone a.frame a.seq a.odd

/-! ### Accesses that units make in an L1 -/

/-- The bank of an L1 offset has granted a requester: its pointer moves past it (spec/09 R207). -/
def State.bankTook (s : State) (pcl off req : Nat) : State :=
  s.updCluster pcl fun c => { c with bankPtr := put c.bankPtr (bankNumber c.l1map off) (if req + 1 > 1216 then 0 else req + 1) }

/-- No access that waits at the bank of an L1 offset goes before one that a unit presents there now (spec/09 R207). -/
def State.bankYields (s : State) (pcl off req : Nat) (urg : Bool) : Bool :=
  let b := bankNumber (s.l1mapOf pcl) off
  let ptr := s.bankPtr pcl b
  (s.bankWaiters pcl b).all fun w =>
    if w.acc.urg ≠ urg then urg
    else if w.nom ≠ s.ck then decide (s.ck < w.nom)
    else decide (afterPtr ptr req < afterPtr ptr w.req)

/-- The banks of all these words would grant a unit now: it presents its accesses in the turn in which they do, and else
waits (spec/09 R207; log 5). -/
def State.banksYield (s : State) (pcl : Nat) (offs : List Nat) (req : Nat) (urg : Bool) : Bool :=
  s.accs.isEmpty || offs.all fun o => s.bankYields pcl o req urg

/-- The banks of the eight words of a line would grant a unit now. -/
def State.lineYields (s : State) (pcl off req : Nat) (urg : Bool) : Bool :=
  s.banksYield pcl ((List.range 8).map fun i => off + 8 * i) req urg

/-- A unit reads bytes of one word of an L1. -/
def State.l1Read (s : State) (pcl off n : Nat) : Except UErr Word :=
  if s.poisoned (l1Key pcl off) then .error .poison else .ok (s.readW (l1Key pcl off) n)

/-- A unit writes bytes of one word of an L1, as requester `req` of its bank. -/
def State.l1Write (s : State) (who : Option Nat) (va pcl off n req : Nat) (data : Word) (mask : Nat) : State :=
  (s.performWrite who va (l1Key pcl off) (l1Key pcl off) n data mask).bankTook pcl off req

end Sys2Proof.Machine
end

