-- ==== Sys2Proof/Machine/Kill.lean ====
section
/-!
DEFINITION. Machine/Kill.lean: the end of contexts: what the urgent frame leaves (spec/01 R18, spec/08 R195, spec/10 R240,
spec/11 R255), the resumption of frozen slots (spec/06 R142), and the kill of a launch (spec/15 R346).
-/
namespace Sys2Proof.Machine

/-- Frame key of a slot of a core. -/
def frameKey (core slot : Nat) : Nat := core * 5 + slot
/-- The urgent (or handler) frame of a core. -/
def urgentKey (core : Nat) : Nat := core * 5 + 4

/-- What an access of an ended context that its home slice has accepted sends to a host page: a store its bytes, an atomic its
new value over a free old one (log 7), an SC its word while its reservation stands (spec/15 R346 item 3). -/
def State.endHost (s : State) (a : Acc) (p : Part) (b : Nat) : State :=
  let send (s : State) (n : Nat) (w : Word) : State := { s with hostOut := s.hostOut ++ [(b, n, w)] }.noteHost p.va
  match a.op with
  | .store => send s p.size p.data
  | .sc => if s.resvs.any fun r => r.frame == a.frame && r.loc == p.tgt.loc then send s 8 p.data else s
  | .amo fn et =>
    let (s1, v) := s.draw
    let k := 2 ^ (8 * p.size)
    match (amoNew fn et a.arith a.rnd (v.toNat % k) (p.data.toNat % k) (p.data2.toNat % k)).1 with
    | some n => send s1 p.size (BitVec.ofNat 64 n)
    | none => s1
  | _ => s

/-- Performs an access of an ended context that its home slice has accepted and that still awaits the HBM or the host port: a
store goes to the line where the slice holds it, and a translation that has left the slice is walked again
(spec/15 R346 item 3, spec/14 R314, R320). -/
def State.endAccess (s : State) (a : Acc) (p : Part) : State :=
  match p.stage, p.tgt with
  | .granted, .glob va =>
    let write (s : State) (key : Nat) : State :=
      s.performWrite (some a.frame) p.va key (l2Key va) p.size p.data p.mask.toNat
    if (s.lineOf va).isSome ∧ a.op = .store then (write s (l2Key va)).markDirty va
    else match s.translate (homeSlice va) va p.crumb with
      | (s1, .ok e) =>
        if entryHost e then s1.endHost a p (leafPa e va p.crumb)
        else if a.op = .store then write s1 (hbmKey (leafPa e va p.crumb)) else s1
      | (s1, .error _) => s1
  | _, _ => s

/-- Performs what the targets have accepted of a frame's accesses, and drops the others. -/
def State.endAccesses (s : State) (f : Nat) : State :=
  let s1 := (s.pendingOf f).foldl (fun s a => a.parts.foldl (fun s p => s.endAccess a p) s) s
  { s1 with accs := s1.accs.filter fun a => a.frame ≠ f }

/-- The open window of a launch that holds a location (spec/13 R281). -/
def State.windowAt (s : State) (e loc : Nat) : Option (Nat × Window) :=
  s.windows.find? fun w => w.2.launch == e && w.2.loc ≤ loc && loc < w.2.loc + w.2.nelm * (ET.ofCode w.2.et).msize

/-- Poisons the word that holds the element of an update that is discarded, when it is one (spec/13 R293). -/
def State.poisonUpd (s : State) (u : Upd) : State :=
  if (s.windowAt u.launch u.loc).isNone then s
  else if u.loc < 2 ^ 48 then s.setPoison u.loc true
  else match s.reach (u.loc - 2 ^ 48) (s.entry u.launch).part u.cp u.crumb with
    | (s1, .ok (.key k)) => (s1.setPoison k true).markDirty (u.loc - 2 ^ 48)
    | (s1, _) => s1

/-- A wake of an ended thread: it stays when it has left its core. -/
def State.leftWake (s : State) (f : Nat) (w : WakeMsg) : Option WakeMsg :=
  if w.frame ≠ f then some w else if s.gangDone f w.seq w.odd then some { w with seq := 0, odd := none } else none

/-- Discards what a frame has under way outside its accesses: arrivals, wakes and items that have not left, and waiters. -/
def State.dropMessages (s : State) (f : Nat) : State :=
  { s with arrs := s.arrs.filter (fun a => a.frame ≠ f),
           wakes := s.wakes.filterMap (s.leftWake f),
           items := s.items.filter (fun i => i.frame ≠ f),
           svars := mapVals (fun _ v => { v with waiters := v.waiters.filter (· ≠ f) }) s.svars }

/-- Frees the channel slot of an item that a stream unit still holds (spec/08 R189). -/
def State.freeItem (s : State) (f : Nat) (u : Unit) : State :=
  if u.kind = .chan ∧ u.item ≠ [] then
    let c := clusterOf (coreOf f)
    let x := s.chan c u.id
    s.setChan c u.id { x with taken := x.taken - 1 }
  else s

/-- Unbinds every unit of a frame without waiting (spec/08 R189). -/
def State.unbindAll (s : State) (f : Nat) : State :=
  let s1 := (s.frame f).units.toList.foldl (fun s u => s.freeItem f u) s
  s1.updFrame f fun x => { x with units := Vector.replicate 4 Unit.none }

/-- Discards the context of a frame: nothing of it survives (spec/01 R18), its reservation ends, and no retry of its
instruction is left to come (spec/06 R144). -/
def State.clearFrame (s : State) (f : Nat) : State :=
  { s with frames := drop s.frames f,
           resvs := s.resvs.filter (fun r => r.frame ≠ f),
           cores := mapVals (fun _ c => { c with retry := c.retry.filter (· ≠ f) }) s.cores }

/-- The first phase that an ended thread of a core outside the tiles has no counted arrival for: an arrival of it that no
instance has counted ends with it. -/
def State.leavesAt (s : State) (f : Nat) (b : BInst) (t : Nat) (x : BThr) : Nat :=
  (s.arrs.filter fun a => a.frame == f && a.launch.isNone && a.slot == b.slot && a.unit == b.unit && a.thr == t).foldl
    (fun m a => min m a.phase) x.np

/-- A thread that ends without a HALT on a core outside the tiles leaves the domain of the core's barrier instances: no phase
waits for it, and the arrivals that have been counted stand (spec/12 R268, R269). -/
def State.leaveDomain (s : State) (f : Nat) : State :=
  let t := (s.frame f).ltid
  if isTileCore (coreOf f) ∨ slotOf f ≥ 4 then s
  else { s with barriers := updWhere (fun b => b.launch.isNone && b.unit == coreOf f) (fun b => match look b.thr t with
    | some x => { b with thr := put b.thr t { x with hi := some (s.leavesAt f b t x) } }
    | none => b) s.barriers }

/-- Ends a thread as a kill does (spec/15 R346 items 1 and 3). -/
def State.endThread (s : State) (f : Nat) : State :=
  ((((s.leaveDomain f).dropMessages f).endAccesses f).unbindAll f).clearFrame f

/-- a8 and a9 of a core become CLEAR (spec/11 R255). -/
def State.clearUrgentAccs (s : State) (core : Nat) : State := (s.setAccum core 8 .clear).setAccum core 9 .clear

/-- Frees the urgent frame of a core when its context ends: inbox part, a8 and a9, owned descriptors
(spec/08 R195, spec/10 R240, spec/11 R255). -/
def State.freeUrgent (s : State) (core : Nat) : State :=
  let f := urgentKey core
  let s1 := s.endThread f
  let s2 := s1.updCore core fun c => { c with inU := Inbox.empty }
  let s3 := s2.clearUrgentAccs core
  if isTileCore core then
    s3.updTile (tileOf core) fun t =>
      { t with descs := t.descs.filter fun d => !(d.1 ≥ 56 && d.2.owner == some f) }
  else s3

/-- A WAITRS of a frozen slot reads again after resumption (spec/09 R214): only a late outcome stands. -/
def Acc.readAgain (a : Acc) : Acc :=
  if a.op = .waitrs then
    { a with parts := a.parts.map fun p => match p.stage with
        | .performed | .watching | .reported | .polling => { p with stage := .waiting }
        | _ => p }
  else a

/-- Slots 0–3 of a core are candidates for issue again (spec/06 R142). -/
def State.resumeSlots (s : State) (core : Nat) : State :=
  let s1 := [0, 1, 2, 3].foldl (fun s k => s.updFrame (frameKey core k) fun x => { x with frozen := false }) s
  { s1 with accs := updWhere (fun a => coreOf a.frame == core && slotOf a.frame < 4) Acc.readAgain s1.accs }.updCore core
    fun c => { c with freeze := none }

/-- Physical tiles of a launch (spec/15 R338). -/
def LEntry.tileKeys (x : LEntry) : List Nat :=
  (List.range x.tiles).map fun t => x.map.toNat / 16 ^ (t / 64) % 16 * 64 + t % 64
/-- Cores of a launch on tiles. -/
def LEntry.cores (x : LEntry) : List Nat := x.tileKeys.flatMap fun t => (List.range 16).map fun c => t * 16 + c
/-- Physical clusters of a launch. -/
def LEntry.pcls (x : LEntry) : List Nat := (x.tileKeys.map (· / 64)).eraseDups

/-- Frames that hold a context of the launch. -/
def State.framesOf (s : State) (e : Nat) : List Nat :=
  (s.frames.filter fun p => p.2.launch == some e).map (·.1)

/-- A job that does not belong to the launch stays. -/
def Channel.purge (c : Channel) (e : Nat) : Channel :=
  { c with cur := match c.cur with
             | some j => if j.cmd.launch = some e then none else some j
             | none => none,
           wait := c.wait.filter fun j => j.cmd.launch ≠ some e }

/-- Removes the launch's commands and engine state from a tile; a descriptor of the urgent range that a handler frame owns
stays (spec/10 R240, spec/11 R255). -/
def Tile.purge (t : Tile) (e : Nat) (urg mine : Bool) : Tile :=
  { t with copyN := t.copyN.purge e, copyU := t.copyU.purge e, matN := t.matN.purge e, matU := t.matU.purge e,
           descs := if mine then t.descs.filter (fun d => if urg then d.1 < 56 || d.2.owner.isSome else d.1 ≥ 56) else t.descs }

/-- Removes the launch's queued commands from a core, and what its context held there; the urgent part of the inbox ends
with the context of the urgent frame (`State.freeUrgent`). -/
def CoreSt.purge (c : CoreSt) (e : Nat) (urg mine : Bool) : CoreSt :=
  let f (l : List Cmd) := l.filter fun x => x.launch ≠ some e
  { c with copyN := f c.copyN, copyU := f c.copyU, matN := f c.matN, matU := f c.matU,
           inN := if mine && !urg then .empty else c.inN,
           waitUrg := if c.waitUrg = some e then none else c.waitUrg }

/-- Discards the launch's updates in a list of pending updates. -/
def purgeUpds (l : List Upd) (e : Nat) : List Upd := l.filter fun u => u.launch ≠ e

/-- Every update of a launch that a unit holds or a ticket slot keeps (spec/13 R293). -/
def State.updsOf (s : State) (e : Nat) : List Upd :=
  (s.tiles.flatMap fun t => t.2.pend.filter fun u => u.launch == e) ++
  (s.slices.flatMap fun x => x.2.pend.filter fun u => u.launch == e) ++
  (s.frames.flatMap fun x => x.2.tickets.filterMap fun o => match o with
    | some u => if u.launch = e then some u else none
    | none => none)

/-- Purges the windows of a launch and poisons the words of discarded updates (spec/13 R293). -/
def State.purgePraline (s : State) (e : Nat) : State :=
  let s1 := (s.updsOf e).foldl (fun s u => s.poisonUpd u) s
  { s1 with tiles := mapVals (fun _ t => { t with pend := purgeUpds t.pend e }) s1.tiles,
            slices := mapVals (fun _ x => { x with pend := purgeUpds x.pend e }) s1.slices,
            frames := mapVals (fun _ x => { x with tickets := x.tickets.map fun o => match o with
              | some u => if u.launch = e then none else some u
              | none => none }) s1.frames,
            windows := s1.windows.filter fun w => w.2.launch ≠ e }

/-- Poisons the subscriber words that a discarded batch would have written (spec/13 R303). -/
def State.poisonBatch (s : State) (sub : Nat) (b : Batch) : State :=
  b.bytes.foldl (fun s p => s.setPoison (sub + b.block * 64 + p.1) true) s

/-- Purges a Glaze entry, poisoning what its batches would have written. -/
def State.purgeEntry (s : State) (g : GEntry) : State :=
  (g.sent ++ g.opened.toList).foldl (fun s b => s.poisonBatch g.sub b) s

/-- Purges the Glaze entries of a launch (spec/13 R303). -/
def State.purgeGlaze (s : State) (e : Nat) : State :=
  let es := s.tiles.flatMap fun t => (t.2.glaze.filter fun g => g.2.launch == some e).map (·.2)
  let s1 := es.foldl (fun s g => s.purgeEntry g) s
  { s1 with tiles := mapVals (fun _ t => { t with glaze := t.glaze.filter fun g => g.2.launch ≠ some e }) s1.tiles }

/-- Empties the link queues of the cores of a launch (spec/08 R189). -/
def State.clearLinks (s : State) (cores : List Nat) : State :=
  { s with clusters := mapVals (fun c x =>
      { x with links := x.links.filter fun l => !cores.contains (c * 1024 + l.1 / 2) }) s.clusters }

/-- Clears the accumulators of the slots of cores when a launch ends; those of an urgent frame end with its context
(spec/11 R255, `State.freeUrgent`). -/
def State.clearAccums (s : State) (cores : List Nat) (urg : Bool) : State :=
  { s with accums := s.accums.filter fun a => urg || !(cores.contains (a.1 / 6) && a.1 % 6 < 4) }

/-- The fault records of a launch end with it; one that an access of another launch of the same context has joined is that
launch's from now on (spec/14 R311). -/
def State.dropFaults (s : State) (e : Nat) : List FaultRec :=
  s.faults.filterMap fun r =>
    if r.launch ≠ some e then some r
    else (s.frames.find? fun p => p.2.launch != some e && p.2.fids.contains r.fid).map fun p =>
      { r with launch := p.2.launch, frame := p.1 }

/-- Releases the launch's channels, barriers and fault records (spec/12 R268, spec/14 R311, spec/15 R349). -/
def State.dropLaunchState (s : State) (e : Nat) : State :=
  { s with chans := s.chans.filter (fun c => c.2.launch ≠ some e),
           barriers := s.barriers.filter (fun b => b.launch ≠ some e),
           faults := s.dropFaults e,
           unfenced := s.unfenced.filter (fun u => u.launch ≠ e),
           placing := s.placing.filter (· ≠ e) }

/-- Victims of an urgent launch resume (spec/06 R142). -/
def State.releaseFreeze (s : State) (e : Nat) : State :=
  (s.cores.filter fun c => c.2.freeze == some e).foldl (fun s c => s.resumeSlots c.1) s

/-- The ARITH folds of the threads of frames that are no handler frames (spec/15 R347). -/
def State.sigsOf (s : State) (fs : List Nat) : List (Nat × Word) :=
  fs.filterMap fun f =>
    let x := s.frame f
    match x.kind with
    | .handler _ => none
    | _ => some (x.ltid, x.sig)

/-- The record of a launch takes a thread's FAULTEL when one is held: the lowest such logical thread id (spec/15 R345). -/
def LEntry.noteEl (y : LEntry) (x : Frame) : LEntry :=
  if x.faultel.toNat.testBit 40 then
    { y with fltid := some (match y.fltid with | some l => min l x.ltid | Option.none => x.ltid) }
  else y

/-- Frees a pending-launch entry; its generation number stays (spec/15 R341). -/
def State.freeEntry (s : State) (e : Nat) : State := s.setEntry e { LEntry.none with gen := (s.entry e).gen }

/-- Frees the template that a tag has armed (spec/15 R341). -/
def State.disarm (s : State) (e : Nat) : State :=
  { s with tags := mapVals (fun _ t => if t.armed = some e then { t with armed := none } else t) s.tags }.freeEntry e

/-- The partition of the rectangle in force that holds a cluster. -/
def State.clusterPart (s : State) (c : Nat) : Nat :=
  match (List.range 16).find? fun r => s.rectValid r && s.inRect r c with
  | some r => s.rectPart r
  | none => 8

/-- A report to the supervisor of the partition that holds a tile's cluster: kind 1 a retired core, 2 a failed copy engine,
3 a failed matrix engine (spec/06 R144, spec/10 R237, spec/11 R253; log 29). -/
def State.notify (s : State) (cluster kind n : Nat) : State :=
  { s with notices := s.notices ++ [(s.clusterPart cluster, kind, n)] }

/-- The ring engine of a die. -/
def State.ringOf (s : State) (die : Nat) : Ring := lookD s.ring die .reset
/-- Writes a ring engine. -/
def State.setRing (s : State) (die : Nat) (r : Ring) : State := { s with ring := put s.ring die r }

/-- The members of a command and its KIND, as they stand in it (spec/17 R385). -/
def RJob.kind (j : RJob) : Nat := (j.words.getD 0 0).toNat % 256
/-- MEMBERS. -/
def RJob.members (j : RJob) : Nat := (j.words.getD 5 0).toNat % 65536
/-- URG: the real-time class. -/
def RJob.urg (j : RJob) : Bool := (j.words.getD 0 0).toNat.testBit 24

/-- A message waits at the port of a direction, D1's leading east and D0's west, for a flit slot (spec/17 R381). -/
def State.portSend (s : State) (east : Bool) (m : RMsg) : State :=
  let d := if east then 1 else 0
  let r := s.ringOf d
  s.setRing d { r with port := { r.port with queue := r.port.queue ++ [m] } }

/-- What names the collective of a command: die, GROUP, MEMBERS and its number (spec/17 R388). -/
def RJob.head (j : RJob) : List Nat := [j.tag % 2, (j.words.getD 3 0).toNat / 2 ^ 32 % 65536, j.members, j.who.nth]

/-- The port of a direction is up: D1's leads east, D0's west. -/
def State.portUp (s : State) (east : Bool) : Bool := (s.ringOf (if east then 1 else 0)).port.up

/-- The link of the ring from a position eastward is up: the own ones by the ports, the others as the ring has told
(spec/17 R383). -/
def State.linkUp (s : State) (i : Nat) : Bool :=
  if i = s.ringPos then s.portUp true
  else if (i + 1) % s.ringN = s.ringPos then s.portUp false
  else !s.farDown.contains i

/-- Links of the configured ring that are down (spec/17 R383, R392). -/
def State.linksDown (s : State) : Nat :=
  if s.ringCfg then ((List.range s.ringN).filter fun i => !s.linkUp i).length else 0

/-- A message to every other member goes round the ring: eastward, or both ways when a link is down (spec/17 R383,
R395). -/
def State.sendRound (s : State) (kind : Nat) (j : RJob) : State :=
  let ways := if s.linksDown = 0 then [true] else [true, false].filter s.portUp
  ways.foldl (fun s e => s.portSend e ⟨16, e, j.urg, kind, j.head, []⟩) s

/-- A member withdraws from a collective: an abort goes round the ring (spec/17 R395). -/
def State.sendAbort (s : State) (j : RJob) : State := s.sendRound 5 j

/-- A poster's context is that of a live launch. -/
def Poster.is (w : Poster) (e gen : Nat) : Bool := w.launch == some e && w.gen == gen

/-- A kill removes the launch's ring commands that have not started, and withdraws its running ALLREDs (spec/17 R395). -/
def State.ringKill (s : State) (e : Nat) : State :=
  let gen := (s.entry e).gen
  let drops (j : RJob) : Bool := j.who.is e gen && j.kind == 2 && j.stage == .running
  let perDie (s : State) (d : Nat) : State :=
    let r := s.ringOf d
    let gone := r.jobs.filter drops
    if gone.isEmpty then s
    else gone.foldl State.sendAbort (s.setRing d { r with jobs := r.jobs.filter fun j => !drops j })
  let perTag (s : State) (t : Nat) : State :=
    let mine (m : Msg) : Bool :=
      !((s.ringOf (t % 2)).jobs.any fun j => j.tag == t && j.slot == m.slot) &&
        (match look s.posters (t * 64 + m.slot) with | some w => w.is e gen | none => false)
    if (s.tag t).msgs.any mine then s.setTag t { s.tag t with msgs := (s.tag t).msgs.filter fun m => !mine m } else s
  (((List.range 16).map fun i => 0xF80 + i).foldl perTag (perDie (perDie s 0) 1))

/-- The launch has been placed and has not ended: its tiles are its own (spec/15 R339, R341). -/
def LEntry.resident (x : LEntry) : Bool := x.started && (x.st == .placed || x.st == .closing)

/-- Kills a launch with a status and a cause for its record (spec/15 R345, R346): steps 1 to 5; the entry then stands in
CLOSING with its record still to be posted.  A template is disarmed. -/
def State.killLaunch (s : State) (e status cause : Nat) : State :=
  let x := s.entry e
  if x.st = .armed then s.disarm e
  else if x.killed ∨ x.posting ∨ x.st = .free ∨ x.st = .done then s
  else
    let fs := s.framesOf e
    let cores := if x.resident then x.cores else []
    let tiles := if x.resident then x.tileKeys else []
    let s0 := (s.purgePraline e).ringKill e
    let s1 := fs.foldl (fun s f =>
      if slotOf f = 4 then s.freeUrgent (coreOf f) else s.endThread f) s0
    let s2 := { s1 with cores := mapVals (fun k c =>
        { c.purge e x.urgent (cores.contains k) with parked := c.parked.filter fun f => !fs.contains f }) s1.cores,
                        tiles := mapVals (fun k t => t.purge e x.urgent (tiles.contains k)) s1.tiles }
    let s3 := ((s2.purgeGlaze e).clearLinks cores).clearAccums cores x.urgent
    let s4 := (s3.dropLaunchState e).releaseFreeze e
    s4.updEntry e fun y =>
      { fs.foldl (fun y f => y.noteEl (s.frame f)) y with
          st := .closing, killed := true, status := status, cause := cause, live := [], sigs := y.sigs ++ s.sigsOf fs }

end Sys2Proof.Machine
end

