-- ==== Sys2Proof/Machine/Ops.lean ====
section
/-!
DEFINITION. Machine/Ops.lean: the operations that every meaning shares: the outcome of a step, moving past an instruction,
taking a trap (spec/05 R109–R120) and returning from one (R122), and the illegal-instruction record (spec/03 R65).
-/
namespace Sys2Proof.Machine

/-- The outcome of a step of this machine. -/
abbrev Out := Host.Outcome State Fault Refusal

/-- A step takes place unless the package accepts nothing more (spec/16 R367, R377). -/
def State.act (s : State) (t : State) : Out :=
  match s.halt with
  | some _ => .fault .stopped
  | none => .next t

/-- The program counter after an instruction of `n` halfwords. -/
def pcAfter (pc : BitVec 48) (n : Nat) : BitVec 48 := pc + BitVec.ofNat 48 (2 * n)

/-- The executing thread moves past its instruction: the next instruction of the frame has the next program-order
number. -/
def State.advance (s : State) (n : Nat) : State :=
  s.updMe fun x => { x with pc := pcAfter x.pc n, seq := x.seq + 1, since := 0, prog := 0 }

/-- The executing thread goes to a target and refetches (spec/06 R131). -/
def State.jumpTo (s : State) (t : Nat) : State :=
  s.updMe fun x => { x with pc := BitVec.ofNat 48 t, seq := x.seq + 1, ibuf := [], since := 0, prog := 0 }

/-! ### Taking a trap -/

/-- What a trap records (spec/05 R110): cause, DETAIL, TADDR, and the trap point. -/
structure Trap where
  cause  : Nat
  detail : Nat
  addr   : Word
  retpc  : BitVec 48
  deriving DecidableEq, Repr

/-- TCAUSE (spec/01 R25). -/
def tcauseWord (cause detail : Nat) (gsplit : Bool) : Word :=
  BitVec.ofNat 64 (cause % 256 + (if gsplit then 256 else 0) + detail % 65536 * 65536)

/-- A WAITRS or SWAIT that is held back at a boundary at which a trap is taken begins again later (spec/09 R214,
spec/06 R127). -/
def State.dropWaits (s : State) (f : Nat) : State :=
  { s with accs := s.accs.filter (fun a => !(a.frame == f && a.op == .waitrs)),
           svars := mapVals (fun _ v => { v with waiters := v.waiters.filter (· ≠ f) }) s.svars }

/-- Writes a frame's trap registers and ends its reservation (spec/05 R109, spec/09 R213). -/
def State.recordTrap (s : State) (f : Nat) (t : Trap) (gsplit : Bool) : State :=
  ((s.updFrame f fun x =>
    { x with tcause := tcauseWord t.cause t.detail gsplit, taddr := t.addr, tretpc := t.retpc.setWidth 64 }).unreserve
      f).dropWaits f

/-- Splits a gang: each slot keeps its halves (spec/01 R20). -/
def State.splitGang (s : State) (f : Nat) (odd : FStat) : State :=
  (s.updFrame f fun x => { x with gang := false }).updFrame (oddOf f) fun x => { x with stat := odd }

/-- Re-forms a gang (spec/05 R113). -/
def State.joinGang (s : State) (f : Nat) : State :=
  (s.updFrame f fun x => { x with gang := true }).updFrame (oddOf f) fun x => { x with stat := .gangOdd }

/-- The handler stack of a core (spec/15 R331, R332). -/
def State.handlerStack (s : State) (core part : Nat) : Nat :=
  if core = mgmtCore then s.regField .mhstk 47 4 * 16
  else s.regField (.hstk part) 47 10 * 1024 + (core + 1) * (s.regField (.pmisc part) 19 16 + 1) * 1024

/-- The handler frame that serves a thread (spec/05 R114, spec/01 R22). -/
def State.handlerFrame (s : State) (f : Nat) : Frame :=
  let t := s.frame f
  { Frame.empty (.handler f) with
      stat := .ready, priv := .s, pc := BitVec.ofNat 48 (t.tvec.toNat / 2 * 2), pad := some 2,
      g := (Vector.replicate 32 (0 : Word)).set 2 (BitVec.ofNat 64 (s.handlerStack (coreOf f) t.part)), arith := 0xE0,
      region := t.region, launch := t.launch, part := t.part, ltid := t.ltid, ltile := t.ltile, lcl := t.lcl,
      born := s.serials }

/-- A context starts in a slot of a core: the header of its table is read anew (spec/14 R308). -/
def State.dropHeader (s : State) (f : Nat) : State :=
  s.updCore (coreOf f) fun c =>
    { c with plb := c.plb.filter fun e => !(isHdrKey e.1 && e.1 % 2 ^ 27 == slotOf f) }

/-- The handler frame of the thread's core starts (spec/05 R114); a8 and a9 become CLEAR (spec/11 R255). -/
def State.enterHandler (s : State) (f : Nat) : State :=
  (((s.updFrame f fun x => { x with stat := .trapped }).setFrame (urgentKey (coreOf f)) (s.handlerFrame f)).dropHeader
    (urgentKey (coreOf f))).clearUrgentAccs (coreOf f)

/-- The urgent frame of a core holds no context and none waits for it. -/
def State.urgentFree (s : State) (core : Nat) : Bool :=
  (s.frame (urgentKey core)).stat == .free && (s.core core).waitUrg.isNone && (s.core core).parked.isEmpty

/-- A thread of slots 0–3 takes a trap that a handler serves, or parks with it (spec/05 R113–R115). -/
def State.trapThread (s : State) (f : Nat) (t : Trap) : State :=
  let g := (s.frame f).gang
  let s1 := s.recordTrap f t g
  let s2 := if g then s1.splitGang f .gangStop else s1
  if s2.urgentFree (coreOf f) then s2.enterHandler f
  else (s2.updFrame f fun x => { x with stat := .parkTrap }).updCore (coreOf f) fun c => { c with parked := c.parked ++ [f] }

/-- A thread of the management core whose handler faulted ends, and MEVT.MHF names its slot (spec/05 R116). -/
def State.endMgmtServed (s : State) (f : Nat) : State :=
  (s.endThread f).setRegBits .mevt (2 ^ (4 + slotOf f))

/-- The handler frame itself traps: it is discarded and the served thread's launch killed, or the served thread of the
management core ended (spec/05 R116). -/
def State.handlerFault (s : State) (hf served : Nat) (cause : Nat) : State :=
  let s1 := s.freeUrgent (coreOf hf)
  match (s.frame served).launch with
  | some e => s1.killLaunch e 0x03 cause
  | none => s1.endMgmtServed served

/-- Takes a trap in a frame (spec/05 R109–R120): the one operation through which every trap goes.  DEDUCED: a park for a
page fault keeps the gang of a ganged thread and records GSPLIT 0, since spec/05 R113 disposes of a split by ERET, HALT or
the end of the launch alone; a page fault of a handler frame is recorded in that frame's own trap registers, which nothing
reads, since TCAUSE, TADDR and TRETPC name the served thread's there (spec/01 R22; notes/assumptions/26.md). -/
def State.takeTrap (s : State) (f : Nat) (t : Trap) : State :=
  let x := s.frame f
  match x.kind with
  | .urgent => match x.launch with
    | some e => s.killLaunch e 0x04 t.cause
    | none => s.freeUrgent (coreOf f)
  | .handler served =>
    if t.cause = 0x06 then (s.recordTrap f t false).updFrame f fun y => { y with stat := .parkPage }
    else s.handlerFault f served t.cause
  | _ =>
    if t.cause = 0x06 then (s.recordTrap f t false).updFrame f fun y => { y with stat := .parkPage }
    else s.trapThread f t

/-- The executing instruction traps at itself. -/
def State.trap (s : State) (cause detail : Nat) (addr : Word) : State :=
  s.takeTrap s.cur ⟨cause, detail, addr, s.me.pc⟩

/-- The executing instruction has retired and a trap is taken at the boundary after it (spec/05 R111). -/
def State.trapAfter (s : State) (cause detail : Nat) (addr : Word) : State :=
  s.takeTrap s.cur ⟨cause, detail, addr, s.me.pc⟩

/-! ### The illegal-instruction record -/

/-- TADDR of spec/03 R65: the base halfword and the three prefixes nearest it. -/
def chainWord (hs : List Half) : Word :=
  match hs.reverse with
  | [] => 0
  | b :: ps => b.setWidth 64 ||| (((ps.getD 0 0).setWidth 64) <<< 16) ||| (((ps.getD 1 0).setWidth 64) <<< 32) |||
      (((ps.getD 2 0).setWidth 64) <<< 48)

/-- DETAIL of spec/03 R65: the prefix count and the kind of breach. -/
def illegalDetail (prefixes kind : Nat) : Nat := prefixes + kind * 8

/-- Trap 0x01 of a chain. -/
def State.trapIllegal (s : State) (hs : List Half) (kind : Nat) : State :=
  s.trap 0x01 (illegalDetail (hs.length - 1) kind) (chainWord hs)

/-- Trap 0x01 for a value not permitted in an instruction (DETAIL [4:3] = 0b11). -/
def State.illegalValue (s : State) (i : Instr) : State := s.trapIllegal (encode i) 3

/-- Trap 0x01 for a value found at execution, with its own TADDR (spec/03 R65, last paragraph). -/
def State.illegalAddr (s : State) (i : Instr) (addr : Word) : State :=
  s.trap 0x01 (illegalDetail ((encode i).length - 1) 3) addr

/-- Trap 0x10 of an instruction that the level does not permit (spec/01 R17, spec/05 R110). -/
def State.privTrap (s : State) (i : Instr) : State := s.trap 0x10 0x0001 (chainWord (encode i))

/-! ### Return from a handler (spec/05 R122) -/

/-- ERET: the served thread resumes at TRETPC, its gang re-formed when GSPLIT still stands, and the handler frame is
discarded.  DEDUCED: a GSPLIT that a handler sets on a thread whose trap split no gang forms none (notes/assumptions/26.md).
A served thread whose core is frozen stays frozen by its own mark (spec/06 R141). -/
def State.eret (s : State) (hf t : Nat) : State :=
  let x := s.frame t
  let split := x.tcause.toNat.testBit 8
  let oddStop := (s.frame (oddOf t)).stat == .gangStop
  let s1 := s.freeUrgent (coreOf hf)
  let s2 := s1.updFrame t fun y =>
    { y with stat := .ready, pc := BitVec.ofNat 48 (y.tretpc.toNat / 2 * 2), ibuf := [], pad := none, prog := 0, since := 0 }
  if slotOf t % 2 = 0 ∧ slotOf t < 4 ∧ oddStop then
    if split then s2.joinGang t else s2.updFrame (oddOf t) fun y => { y with stat := .ready }
  else s2

/-! ### Kinds of frames and cores -/

/-- The executing frame is a handler frame. -/
def State.inHandler (s : State) : Bool := match s.me.kind with | .handler _ => true | _ => false
/-- The executing frame is the urgent frame of a tile core. -/
def State.inUrgent (s : State) : Bool := slotOf s.cur == 4
/-- The executing core. -/
def State.myCore (s : State) : Nat := coreOf s.cur
/-- The executing core lies in a tile. -/
def State.onTile (s : State) : Bool := isTileCore s.myCore

end Sys2Proof.Machine
end

