-- ==== Sys2Proof/Machine/Flags.lean ====
section
/-!
DEFINITION. Machine/Flags.lean: how FLAGS and FAULTEL take an instruction's flags and when an arithmetic trap follows
(spec/01 R24, spec/05 R119), the draws of the random number generator (spec/02 R54, R55), and the end of an
instruction that has flags.
-/
namespace Sys2Proof.Machine

/-- Flags by element in ascending logical id: (element, flags). -/
abbrev ElemFlags := List (Nat × Nat)

/-- The OR of the elements' flags. -/
def orFlags (l : ElemFlags) : Nat := l.foldl (fun a p => a ||| p.2) 0

/-- The lowest element that has one of the flags of `m`. -/
def lowestWith (l : ElemFlags) (m : Nat) : Option (Nat × Nat) :=
  l.foldl (fun b p => if p.2 &&& m = 0 then b else match b with
    | some q => if p.1 < q.1 then some p else b
    | none => some p) none

/-- The flags of one element, of all its entries. -/
def flagsAt (l : ElemFlags) (e : Nat) : Nat := orFlags (l.filter fun p => p.1 == e)

/-- For each flag, the lowest element that has it, with all that element's flags: all that a record of flags need keep. -/
def compressFlags (l : ElemFlags) : ElemFlags :=
  ((List.range 8).filterMap fun b => (lowestWith l (2 ^ b)).map fun p => (p.1, flagsAt l p.1)).eraseDups

/-- FAULTEL word (spec/01 R24). -/
def faultelWord (elem flag : Nat) (eng : Bool) : Word :=
  BitVec.ofNat 64 (elem % 2 ^ 32 + flag % 256 * 2 ^ 32 + 2 ^ 40 + (if eng then 2 ^ 41 else 0))

/-- FLAGS and FAULTEL after an instruction's flags (spec/01 R24); a handler frame's flags are those of the served thread
(spec/01 R22). -/
def State.mergeFlags (s : State) (f : Nat) (l : ElemFlags) (eng : Bool) : State :=
  match lowestWith l 255 with
  | none => s
  | some (e, _) =>
    let fl := flagsAt l e
    s.updFrame (s.named f) fun x =>
      { x with flags := x.flags ||| BitVec.ofNat 64 (orFlags l),
               faultel := if x.faultel.toNat.testBit 40 then x.faultel else faultelWord e fl eng }

/-- The arithmetic trap that flags raise under trap enables: cause, DETAIL, TADDR (spec/01 R24, spec/05 R110, R119). -/
def arithTrapOf (te : Nat) (l : ElemFlags) (eng : Bool) : Option (Nat × Nat × Word) :=
  let en := orFlags l &&& te
  if en = 0 then none
  else
    let e := match lowestWith l en with | some p => p.1 | none => 0
    some (if en = fTRI then 0x09 else 0x08, en + (if eng then 256 else 0), BitVec.ofNat 64 e)

/-- The arithmetic trap that flags raise under a frame's ARITH.TE. -/
def State.arithTrap (s : State) (f : Nat) (l : ElemFlags) (eng : Bool) : Option (Nat × Nat × Word) :=
  arithTrapOf (trapEnables (s.frame f).arith) l eng

/-- The end of an instruction of `n` halfwords with flags: FLAGS and FAULTEL are updated; an enabled flag traps and the
destination is not written; otherwise the destination is written and the thread moves on (spec/01 R24, spec/05 R119).
DEDUCED: SAT of a narrowed broadcast traps as every flag does (notes/assumptions/13.md). -/
def State.retire (s : State) (n : Nat) (l : ElemFlags) (write : State → State) : State :=
  let s1 := s.mergeFlags s.cur l false
  match s1.arithTrap s.cur l false with
  | some (c, d, a) => s1.trap c d a
  | none => (write s1).advance n

/-- The end of an instruction that retires with its full effect before its flags are taken (spec/05 R111): flags of a
command of an engine or of a window. -/
def State.observe (s : State) (l : ElemFlags) (eng : Bool) : State :=
  let s1 := s.mergeFlags s.cur l eng
  match s1.arithTrap s.cur l eng with
  | some (c, d, a) => s1.trapAfter c d a
  | none => s1

/-- The flags of the atomic that has returned first are merged, as those of one instruction (element 0), with the trap that
they raise when one is enabled in the ARITH under which the atomic issued (spec/09 R210, spec/01 R23, R24, spec/05 R119). -/
def State.takeAmo (s : State) (f : Nat) : State × Option Trap :=
  let x := s.frame f
  match x.amoFlags with
  | [] => (s, none)
  | (te, fl) :: rest =>
    ((s.updFrame f fun y => { y with amoFlags := rest }).mergeFlags f [(0, fl)] false,
     (arithTrapOf te [(0, fl)] false).map fun (c, d, a) => ⟨c, d, a, x.pc⟩)

/-- At a boundary those of one atomic are merged and trap; those of the next follow at the same boundary, or after the
trap. -/
def State.mergeAmo (s : State) (f : Nat) : State :=
  match s.takeAmo f with
  | (s1, some t) => s1.takeTrap f t
  | (s1, none) => s1

/-- Draws `k` words of a frame's generator, in order; with them the index of the word at which RNGW is set, when the
counter wraps: the first word after the wrap, or the last word before it when none follows (spec/02 R54; log 13). -/
def State.drawRng (s : State) (f k : Nat) : State × List (BitVec 64) × Option Nat :=
  let x := s.frame f
  let c := x.rngc.toNat
  let l := (s.frame (s.named f)).ltid
  let ws := (List.range k).map fun i => zrng x.seed l ((c + i) % 2 ^ 48)
  let wrap := if k = 0 ∨ c + k < 2 ^ 48 then none else some (min (2 ^ 48 - c) (k - 1))
  (if k = 0 then s else s.updFrame f fun y => { y with rngc := BitVec.ofNat 48 (c + k) }, ws, wrap)

/-- Draws `k` words of the executing thread when its rounding is stochastic, else none (spec/02 R55). -/
def State.drawStoch (s : State) (k : Nat) : State × List (BitVec 64) × Option Nat :=
  if (AR.ofWord s.me.arith).stoch then s.drawRng s.cur k else (s, [], none)

/-- Adds a flag to one element. -/
def addFlag (l : ElemFlags) (e fl : Nat) : ElemFlags := if fl = 0 then l else l ++ [(e, fl)]

/-- The RNGW flag of an instruction, at an element. -/
def rngwFlag (w : Option Nat) (e : Nat → Nat) : ElemFlags :=
  match w with
  | some i => [(e i, fRNGW)]
  | none => []

end Sys2Proof.Machine
end

