-- ==== Sys2Proof/Machine/Operands.lean ====
section
/-!
DEFINITION. Machine/Operands.lean: which registers an instruction names (spec/06 R128) and the interlock on destinations
of outstanding loads (spec/04 R100); the two- and three-address operand forms (spec/04 R88).
-/
namespace Sys2Proof

/-- Register number of field A. -/
def Opnd.ra (o : Opnd) : Nat := o.a.toNat
/-- Register number of field B. -/
def Opnd.rb (o : Opnd) : Nat := o.b.toNat
/-- Register number of field C. -/
def Opnd.rc (o : Opnd) : Nat := o.c.toNat
/-- Registers A and B. -/
def Opnd.ab (o : Opnd) : List Nat := [o.ra, o.rb]
/-- Register C of a three-address form. -/
def Opnd.cr (o : Opnd) : List Nat := if o.hasR then [o.rc] else []
/-- Vector register A, and B where no g register stands in its place (spec/07 R150). -/
def Opnd.vab (o : Opnd) : List Nat := if o.sel = 1 then [o.ra] else [o.ra, o.rb]
/-- Vector register B. -/
def Opnd.vb (o : Opnd) : List Nat := if o.sel = 1 then [] else [o.rb]
/-- Vector register C. -/
def Opnd.vcr (o : Opnd) : List Nat := if o.hasR ∧ o.sel ≠ 2 then [o.rc] else []
/-- The g register that SEL names. -/
def Opnd.selG (o : Opnd) : List Nat := if o.sel = 1 then [o.rb] else if o.sel = 2 then [o.rc] else []

/-- Halfwords of an instruction of the page with these operand fields, prefixes included (spec/03 R58–R62). -/
def Opnd.halves (o : Opnd) (page : Nat) : Nat :=
  1 + (if page = 0 then 0 else 1) + (if o.m.isSome then 1 else 0) + (if o.v.isSome then 1 else 0) +
    (if o.r.isSome then 1 else 0) + o.i.length

/-- The sign-extended immediate as a register value (spec/04 R88). -/
def Opnd.immW (o : Opnd) : Word := BitVec.ofInt 64 o.simm
/-- POS of a bit-field immediate (spec/04 R92). -/
def Opnd.pos (o : Opnd) : Nat := o.uimm % 64
/-- LEN of a bit-field immediate (spec/04 R92). -/
def Opnd.len (o : Opnd) : Nat := o.uimm / 64 % 64 + 1

namespace Machine

/-- The g registers that an instruction reads or writes. -/
def gUse : Instr → List Nat
  | .add o => o.ab ++ o.cr
  | .sub o => o.ab ++ o.cr
  | .mul o => o.ab ++ o.cr
  | .mulh o => o.ab ++ o.cr
  | .div o => o.ab ++ o.cr
  | .divn o => o.ab ++ o.cr
  | .rem o => o.ab ++ o.cr
  | .remn o => o.ab ++ o.cr
  | .and o => o.ab ++ o.cr
  | .or o => o.ab ++ o.cr
  | .xor o => o.ab ++ o.cr
  | .shl o => o.ab ++ o.cr
  | .shr o => o.ab ++ o.cr
  | .sar o => o.ab ++ o.cr
  | .min o => o.ab ++ o.cr
  | .max o => o.ab ++ o.cr
  | .slt o => o.ab ++ o.cr
  | .sltn o => o.ab ++ o.cr
  | .mov o => o.ab
  | .addI o => [o.ra] ++ o.cr
  | .andI o => [o.ra] ++ o.cr
  | .orI o => [o.ra] ++ o.cr
  | .xorI o => [o.ra] ++ o.cr
  | .shlI o => [o.ra] ++ o.cr
  | .shrI o => [o.ra] ++ o.cr
  | .sarI o => [o.ra] ++ o.cr
  | .sltI o => [o.ra] ++ o.cr
  | .sltnI o => [o.ra] ++ o.cr
  | .li o => [o.ra]
  | .bfx o => [o.ra] ++ o.cr
  | .bfi o => [o.ra, o.rc]
  | .clz o => [o.ra] ++ o.cr
  | .popc o => [o.ra] ++ o.cr
  | .sextB o => [o.ra] ++ o.cr
  | .sextH o => [o.ra] ++ o.cr
  | .sextW o => [o.ra] ++ o.cr
  | .zextB o => [o.ra] ++ o.cr
  | .zextH o => [o.ra] ++ o.cr
  | .zextW o => [o.ra] ++ o.cr
  | .jr o => [o.ra]
  | .callr o => [1, o.ra]
  | .ret _ => [1]
  | .lea o => o.ab
  | .lrec o => o.ab
  | .ldb o => o.ab
  | .ldbn o => o.ab
  | .ldh o => o.ab
  | .ldhn o => o.ab
  | .ldw o => o.ab
  | .ldwn o => o.ab
  | .ldd o => o.ab
  | .stb o => o.ab
  | .sth o => o.ab
  | .stw o => o.ab
  | .std o => o.ab
  | .beq o => o.ab
  | .bne o => o.ab
  | .blt o => o.ab
  | .bge o => o.ab
  | .bltn o => o.ab
  | .bgen o => o.ab
  | .call _ => [1]
  | .vadd o => o.selG
  | .vsub o => o.selG
  | .vmul o => o.selG
  | .vmin o => o.selG
  | .vmax o => o.selG
  | .vand o => o.selG
  | .vor o => o.selG
  | .vxor o => o.selG
  | .vshl o => o.selG
  | .vshr o => o.selG
  | .vcmul o => o.selG
  | .vmac o => o.selG
  | .vfma o => o.selG
  | .vdot o => o.selG
  | .vcmac o => o.selG
  | .vsel o => o.selG
  | .vcmp o => o.selG
  | .vredAdd o => o.selG
  | .vredMin o => o.selG
  | .vredMax o => o.selG
  | .vwhile o => [o.rb, o.rc]
  | .vshuf o => o.selG
  | .vzip o => o.selG
  | .vunzip o => o.selG
  | .vld o => [o.rb]
  | .vst o => [o.rb]
  | .vlds o => [o.rb, o.rc]
  | .vsts o => [o.rb, o.rc]
  | .vldx o => [o.rb]
  | .vmovsToG o => [o.ra]
  | .vmovsToV o => [o.rc]
  | .vbcast o => if o.sel = 2 then [o.rc] else []
  | .vwidth o => [o.ra]
  | .stbind o => [o.rb, o.rc]
  | .ststat o => [o.ra]
  | .cpy o => [o.ra, o.rb, o.rc]
  | .cpy2 o => [o.ra, o.rb, o.rc, o.rc + 1]
  | .cpyg o => [o.ra, o.rb, o.rc, o.rc + 1]
  | .cpys o => [o.ra, o.rb, o.rc, o.rc + 1]
  | .cpyt o => [o.ra, o.rb, o.rc, o.rc + 1]
  | .inpop o => [o.ra]
  | .inpeek o => [o.ra]
  | .tdef o => [o.ra, o.rb, o.rc]
  | .tstate o => o.ab
  | .trel o => [o.rb]
  | .mma o => [o.rb, o.rc]
  | .mmac o => [o.rb, o.rc]
  | .mtern o => [o.rb, o.rc]
  | .mlda o => [o.rb, o.rc]
  | .msta o => [o.rb, o.rc]
  | .mstat o => [o.ra]
  | .amo o => [o.ra, o.rc] ++ (if o.rb = 7 ∨ o.rb = 0x19 then [o.ra + 1] else [])
  | .lr o => o.ab
  | .sc o => o.ab
  | .waitrs o => o.ab
  | .tadd o => [o.ra, o.rb, o.rc]
  | .topen o => [o.ra, o.rb, o.rc]
  | .tclose o => o.ab
  | .tskip o => [o.ra, o.rb, o.rc]
  | .tdrain o => o.ab ++ o.cr
  | .gsub o => [o.ra, o.rb, o.rc]
  | .gunsub o => o.ab
  | .gstat o => o.ab
  | .bstat o => [o.ra]
  | .wake o => o.ab
  | .sleep o => o.ab
  | .salloc o => o.ab
  | .sfree o => o.ab
  | .sop o => [o.ra, o.rb, o.rc]
  | .swait o => o.ab
  | .send o => o.ab
  | .recv o => o.ab
  | .launch o => o.ab
  | .launchW o => o.ab
  | .larm o => [o.ra, o.rb, o.rc]
  | .ldisarm o => o.ab
  | .lwait o => o.ab
  | .crd o => [o.ra]
  | .cwr o => [o.rb]
  | .rng o => [o.ra]
  | .time o => [o.ra]
  | .plbinv o => [o.ra]
  | _ => []

/-- The v registers that an instruction reads or writes; a burst moves `wpr` words of each register (spec/07 R166). -/
def vUse (wpr : Nat) : Instr → List Nat
  | .vadd o => o.vab ++ o.vcr
  | .vsub o => o.vab ++ o.vcr
  | .vmul o => o.vab ++ o.vcr
  | .vmin o => o.vab ++ o.vcr
  | .vmax o => o.vab ++ o.vcr
  | .vand o => o.vab ++ o.vcr
  | .vor o => o.vab ++ o.vcr
  | .vxor o => o.vab ++ o.vcr
  | .vshl o => o.vab ++ o.vcr
  | .vshr o => o.vab ++ o.vcr
  | .vshlI o => [o.ra] ++ (if o.hasR then [o.rc] else [])
  | .vshrI o => [o.ra] ++ (if o.hasR then [o.rc] else [])
  | .vcmul o => o.vab ++ o.vcr
  | .vmac o => o.vab ++ o.vcr
  | .vfma o => o.vab ++ o.vcr
  | .vdot o => o.vab ++ o.vcr
  | .vcmac o => o.vab ++ o.vcr
  | .vsel o => o.vab ++ o.vcr
  | .vcmp o => o.vb ++ o.vcr
  | .vshuf o => o.vab ++ o.vcr
  | .vzip o => o.vab ++ o.vcr
  | .vunzip o => o.vab ++ o.vcr
  | .vredAdd o => o.vab ++ o.vcr
  | .vredMin o => o.vab ++ o.vcr
  | .vredMax o => o.vab ++ o.vcr
  | .vld o => (List.range (max 1 ((o.bl + 1) / wpr))).map (o.ra + ·)
  | .vst o => (List.range (max 1 ((o.bl + 1) / wpr))).map (o.ra + ·)
  | .vlds o => [o.ra]
  | .vsts o => [o.ra]
  | .vldx o => [o.ra, o.rc]
  | .vmovsToG o => [o.rc]
  | .vmovsToV o => [o.ra]
  | .vtunp o => [o.ra] ++ (if o.hasR then [o.rc] else [])
  | .vabs o => o.ra :: (if o.hasR then [o.rc] else [])
  | .vneg o => o.ra :: (if o.hasR then [o.rc] else [])
  | .vsat o => o.ra :: (if o.hasR then [o.rc] else [])
  | .vbcast o => o.ra :: (if o.hasR ∧ o.sel = 0 then [o.rc] else [])
  | .vcvt o => o.ra :: (if o.hasR then [o.rc] else [])
  | .vrcp o => o.ra :: (if o.hasR then [o.rc] else [])
  | .vrsq o => o.ra :: (if o.hasR then [o.rc] else [])
  | .vexp2 o => o.ra :: (if o.hasR then [o.rc] else [])
  | .vlog2 o => o.ra :: (if o.hasR then [o.rc] else [])
  | .vsincos o => o.ra :: (if o.hasR then [o.rc] else [])
  | _ => []

/-- The g registers that an outstanding load of the thread will write. -/
def State.busyG (s : State) (f : Nat) : List Nat :=
  (s.pendingOf f).filterMap fun a => match a.ret with
    | .g rd _ _ | .amo rd _ _ | .sc rd => if rd = 0 then none else some rd
    | _ => none

/-- The v registers that a load will write. -/
def Acc.vdst (a : Acc) : List Nat :=
  match a.ret with
  | .v rd n _ _ => (List.range n).map (rd + ·)
  | _ => []

/-- The v registers that an outstanding load will write in the thread of a frame: its own loads, those that the odd slot of
its gang made before the gang formed, and those that a gang made before the odd slot left it (spec/01 R20). -/
def State.busyV (s : State) (f : Nat) : List Nat :=
  (s.accs.filter fun a => a.frame == f || ((s.frame f).gang && a.frame == oddOf f) ||
    (a.gang && oddOf a.frame == f)).flatMap Acc.vdst

/-- A CRD of FLAGS or FAULTEL waits for the flags of the thread's earlier atomics (spec/05 R125, spec/09 R210). -/
def State.flagsOwed (s : State) (f : Nat) (i : Instr) : Bool :=
  match i with
  | .crd o => (o.rb == 1 || o.rb == 2) && (s.pendingOf f).any fun a => match a.ret with
    | .amo _ _ _ => true
    | _ => false
  | _ => false

/-- The instruction waits for a register of an outstanding load (spec/04 R100 item 1, spec/06 R128), or for the flags of an
outstanding atomic. -/
def State.interlocked (s : State) (f : Nat) (i : Instr) : Bool :=
  (gUse i).any (fun r => (s.busyG f).contains r) || (vUse ((s.frame f).vbytes / 8) i).any (fun r => (s.busyV f).contains r) || s.flagsOwed f i

/-- First source of the RR forms (spec/04 R88). -/
def State.rrA (s : State) (o : Opnd) : Word := if o.hasR then s.g o.rb else s.g o.ra
/-- Second source of the RR forms. -/
def State.rrB (s : State) (o : Opnd) : Word := if o.hasR then s.g o.rc else s.g o.rb
/-- Source of the RI and unary forms. -/
def State.riA (s : State) (o : Opnd) : Word := if o.hasR then s.g o.rc else s.g o.ra
/-- A page-0 instruction that writes gA and goes on (spec/04 R86). -/
def State.setA (s : State) (o : Opnd) (w : Word) : State := (s.setG o.ra w).advance (o.halves 0)

end Machine
end Sys2Proof
end

