-- ==== Sys2Proof/Machine/EvMemory.lean ====
section
/-!
DEFINITION. Machine/EvMemory.lean: the events of the memory system: grants at banks and slices, returns, watches, walks,
fills, host completions, scrubbing, the L2 operations and the resolution of page faults (spec/09 R207–R214, spec/14
R308–R329, spec/06 R133).
-/
namespace Sys2Proof.Machine

/-! ### Posts of the device's units (spec/15 R409) -/

/-- The post needs a valid tag of the partition; otherwise it is discarded. -/
def State.tagValidFor (s : State) (tag part : Nat) : Bool :=
  s.regField (.tctl tag) 3 3 == 1 && s.tagPart tag == part

/-- A unit makes a post: it waits for a slot in the order of its making (spec/15 R409). -/
def State.makePost (s : State) (tag part : Nat) (words : List Word) (entry : Option Nat) : State :=
  if s.tagValidFor tag part then { s with uposts := s.uposts ++ [⟨tag, part, words, entry, entry.map fun _ => 5⟩] } else s

/-! ### Page faults (spec/14 R311, spec/05 R118) -/

/-- The frame's accesses and ticketed updates that FRESUME has let go but that are not yet performed. -/
def State.stillHeld (s : State) (f : Nat) : Bool :=
  (s.pendingOf f).any (fun a => a.op ≠ .waitrs && a.parts.any fun p => match p.stage with
    | .held _ | .filling | .granted => true
    | _ => false) ||
  ((s.frame f).tickets.any fun t => match t with
    | some u => u.held
    | none => false) ||
  s.tiles.any (fun t => t.2.pend.any fun u => u.held && u.frame == f) ||
  s.slices.any fun x => x.2.pend.any fun u => u.held && u.frame == f

/-- A parked thread resumes once no record holds it and its held accesses are performed (spec/05 R118). -/
def State.tryUnpark (s : State) (f : Nat) : State :=
  let x := s.frame f
  if x.stat = .parkPage ∧ x.fids = [] ∧ !s.stillHeld f then s.updFrame f fun y => { y with stat := .ready } else s

/-- KIND of a fault record: [0] store or atomic, [1] fetch, [2] Crumb size, [3] urgent context, [5:4] level. -/
def faultKind (wr fetch crumb urg : Bool) (level : Nat) : Nat :=
  (if wr then 1 else 0) + (if fetch then 2 else 0) + (if crumb then 4 else 0) + (if urg then 8 else 0) + level % 4 * 16

/-- The words of a fault record (spec/14 R311). -/
def faultWords (va fid ltid kind part : Nat) (e : WalkErr) : List Word :=
  [BitVec.ofNat 64 (va % 2 ^ 48),
   BitVec.ofNat 64 (fid % 2 ^ 32 + ltid % 65536 * 2 ^ 32 + e.reason % 256 * 2 ^ 48 + kind % 256 * 2 ^ 56),
   BitVec.ofNat 64 e.tadr, e.tval, BitVec.ofNat 64 (part % 256), 0, 0, 0]

/-- Whose access faults: its frame, context number (256 for the management core), launch, partition, whether its context is
urgent, and the logical thread id. -/
structure Faulter where
  frame  : Nat
  ctx    : Nat
  launch : Option Nat
  part   : Nat
  urg    : Bool
  ltid   : Nat
  deriving DecidableEq, Repr

/-- The number of the context whose rights a frame uses (spec/14 R306, spec/15 R330). -/
def State.ctxNumber (s : State) (f : Nat) : Nat :=
  let x := s.frame f
  if coreOf f = mgmtCore then 256
  else match x.kind, x.launch with
    | .slot, some e | .urgent, some e => (s.entry e).ctx
    | _, _ => Config.supervisorContext x.part

/-- A frame as the one whose access faults. -/
def State.faulter (s : State) (f : Nat) : Faulter :=
  let x := s.frame f
  ⟨f, s.ctxNumber f, x.launch, x.part, match x.kind with | .urgent => true | _ => false, (s.frame (s.named f)).ltid⟩

/-- The record of a page and context that a further fault joins. -/
def State.joinRecord (s : State) (page : Nat) (crumb : Bool) (ctx : Nat) : Option FaultRec :=
  s.faults.find? fun r => r.page == page && r.crumb == crumb && r.ctx == ctx

/-- Unresolved records that a slice holds; 16 at most (spec/14 R311). -/
def State.recordsAt (s : State) (sl : Nat) : Nat := (s.faults.filter fun r => r.slice == sl).length

/-- The fault id of the next record: 32 bits, unique among the unresolved records (spec/14 R311). -/
def State.nextFid (s : State) : Nat :=
  (((List.range (s.faults.length + 1)).map fun k => (s.fids + k) % 2 ^ 32).find? fun n =>
    !s.faults.any fun r => r.fid == n).getD 0

/-- A fault of an access to a page: it joins the record of the page and context, or a new record is posted to the
partition's fault target.  Answers the record, none when the slice holds 16 already. -/
def State.recordFault (s : State) (x : Faulter) (va : Nat) (crumb wr fetch : Bool) (e : WalkErr) : State × Option Nat :=
  let sl := homeSlice va
  match s.joinRecord (pageOf va crumb) crumb x.ctx with
  | some r => (s, some r.fid)
  | none =>
    if s.recordsAt sl ≥ 16 then (s, none)
    else
      let n := s.nextFid
      let ws := faultWords va n x.ltid (faultKind wr fetch crumb x.urg e.level) x.part e
      let r : FaultRec := ⟨n, sl, pageOf va crumb, crumb, x.ctx, x.launch, x.part, x.frame, ws, true⟩
      let s1 := { s with faults := s.faults ++ [r], fids := (n + 1) % 2 ^ 32 }
      (s1.makePost (s.regField (.pmisc x.part) 11 0) x.part ws none, some n)

/-- A fault of a frame's access to a page. -/
def State.faultRecord (s : State) (f va : Nat) (crumb wr fetch : Bool) (e : WalkErr) : State × Option Nat :=
  s.recordFault (s.faulter f) va crumb wr fetch e

/-- A frame waits for a record. -/
def State.waitRecord (s : State) (f fid : Nat) : State :=
  s.updFrame f fun x => { x with fids := if x.fids.contains fid then x.fids else x.fids ++ [fid] }

/-! ### Grants -/

/-- BANK_GRANT: the bank grants the access that stands first and performs it; the pointer moves past its requester
(spec/09 R207).  A request from outside a cluster that is off or fenced is answered by a negative acknowledgement
(spec/15 R348, spec/16 R376). -/
def execBankGrant (cluster bank : Nat) (s : State) : Out :=
  s.act <|
    match pickBank (s.bankPtr cluster bank) (s.bankWaiters cluster bank) with
    | none => s
    | some r =>
      match r.p.tgt with
      | .l1 p o =>
        if r.req = 1216 ∧ !s.clusterLive p then s.failPart r.acc r.i r.p 0x11
        else
          let s1 := s.updCluster cluster fun c => { c with bankPtr := put c.bankPtr bank (if r.req + 1 > 1216 then 0 else r.req + 1) }
          s1.performAt r.acc r.i r.p (l1Key p o)
      | _ => s

/-- A part of an instruction by place. -/
def State.partOf (s : State) (f seq i : Nat) : Option (Acc × Part) :=
  match s.accOf f seq with
  | some a => (a.parts[i]?).map fun p => (a, p)
  | none => none

/-- Performs a global access at a key; a write makes a held line dirty. -/
def State.performGlob (s : State) (a : Acc) (i : Nat) (p : Part) (va key : Nat) : State :=
  let s1 := s.performAt a i p key
  (if a.writes then s1.markDirty va else s1).tryUnpark a.frame

/-- SLICE_GRANT: the home slice serves an access: a hit is performed; an uncached load or atomic is performed in HBM; an
uncached store, and every access to a host page, is granted and awaits the HBM or the host port; a miss waits for its walk
and its fill (spec/14 R313–R316, R320, R408).  The scrub of the HBM holds every access (spec/16 R370). -/
def execSliceGrant (frame seq part : Nat) (s : State) : Out :=
  s.act <|
    match s.partOf frame seq part with
    | none => s
    | some (a, p) =>
      match p.tgt with
      | .glob va =>
        if s.wipe ∨ !s.eligible a part then s
        else
          match s.lineOf va with
          | some _ => (s.touchLine va a.cp).performGlob a part p va (l2Key va)
          | none =>
            match (s.slice (homeSlice va)).leaf va p.crumb with
            | none => s.stagePart a part p .filling
            | some e =>
              if entryHost e then s.stagePart a part p .granted
              else if entryCa e = 2 ∨ a.cp = 3 then
                if a.op = .store then s.stagePart a part p .granted
                else s.performGlob a part p va (hbmKey (leafPa e va p.crumb))
              else if (s.victim (homeSlice va) va (s.frame frame).part).isSome then s.stagePart a part p .filling
              else
                let s1 := s.countPinByp (homeSlice va) (s.frame frame).part
                if a.op = .store then s1.stagePart a part p .granted
                else s1.performGlob a part p va (hbmKey (leafPa e va p.crumb))
      | _ => s

/-- The first part of an instruction that waits for a line of a slice: its partition, policy and page size. -/
def State.fillWanted (s : State) (va : Nat) : Option (Nat × Nat × Bool) :=
  s.accs.findSome? fun a => (a.parts.find? fun p => p.stage == .filling && match p.tgt with
    | .glob v => v / 64 == va / 64
    | _ => false).map fun p => ((s.frame a.frame).part, a.cp, p.crumb)

/-- L2_MISS_FILL: a line that a miss waits for is filled under its translation (spec/14 R314, R315); `line` is the line
address, address [47:6]. -/
def execL2MissFill (slice line : Nat) (s : State) : Out :=
  s.act <|
    let va := line * 64
    if homeSlice va ≠ slice ∨ (s.lineOf va).isSome ∨ s.wipe then s
    else match s.fillWanted va with
      | none => s
      | some (part, cp, crumb) =>
        match (s.slice slice).leaf va crumb with
        | none => s
        | some e =>
          if entryHost e ∨ entryCa e = 2 ∨ cp = 3 ∨ (s.victim slice va part).isNone then s else (s.fillLine va part cp crumb e).1

/-- HBM_WRITE_ACCEPT: HBM accepts the write of an uncached store, which is performed then (spec/14 R320); when the line is
held, the store is performed there (R314). -/
def execHbmWriteAccept (frame seq part : Nat) (s : State) : Out :=
  s.act <|
    match s.partOf frame seq part with
    | none => s
    | some (a, p) =>
      match p.tgt, p.stage with
      | .glob va, .granted =>
        if (s.lineOf va).isSome then s.performGlob a part p va (l2Key va)
        else match (s.slice (homeSlice va)).leaf va p.crumb with
          | some e => if entryHost e then s else s.performGlob a part p va (hbmKey (leafPa e va p.crumb))
          | none => s.stagePart a part p .filling
      | _, _ => s

/-- The bus address of a granted access to a host page. -/
def State.hostAddr (s : State) (p : Part) : Option Nat :=
  match p.tgt, p.stage with
  | .glob va, .granted => match (s.slice (homeSlice va)).leaf va p.crumb with
    | some e => if entryHost e then some (leafPa e va p.crumb) else none
    | none => none
  | _, _ => none

/-- HOST_STORE_COMPLETE: the host port completes a store to a host page, or cannot (spec/14 R314, spec/16 R365). -/
def execHostStoreComplete (frame seq part : Nat) (ok : Bool) (s : State) : Out :=
  s.act <|
    match s.partOf frame seq part with
    | none => s
    | some (a, p) =>
      match s.hostAddr p with
      | none => s
      | some b =>
        if a.op ≠ .store then s
        else if ok then
          ((({ s with hostOut := s.hostOut ++ [(b, p.size, p.data)] }.noteHost p.va).setPart frame seq part
            { p with stage := .performed }).settle frame seq).tryUnpark frame
        else (s.failPart a part p 0x11).tryUnpark frame

/-- HOST_READ_COMPLETE: the host port returns the data of a load or atomic to a host page; an atomic's new value goes to
the host.  LR and SC hold their reservation at the home slice as everywhere (spec/09 R209, R213): a write of the host itself,
which no slice grants, ends none (log 17). -/
def execHostReadComplete (frame seq part : Nat) (ok : Bool) (data : Word) (s : State) : Out :=
  s.act <|
    match s.partOf frame seq part with
    | none => s
    | some (a, p) =>
      match s.hostAddr p with
      | none => s
      | some b =>
        if a.op = .store then s
        else if !ok then (s.failPart a part p 0x11).tryUnpark frame
        else
          let v := BitVec.ofNat 64 (data.toNat % 256 ^ p.size)
          let put (s : State) (q : Part) := (s.setPart frame seq part q).tryUnpark frame
          match a.op with
          | .amo fn et =>
            let k := 2 ^ (8 * p.size)
            let (new, fl) := amoNew fn et a.arith a.rnd v.toNat (p.data.toNat % k) (p.data2.toNat % k)
            let s1 := match new with
              | some n => { s with hostOut := s.hostOut ++ [(b, p.size, BitVec.ofNat 64 n)] }.noteHost p.va
              | none => s
            put s1 { p with stage := .performed, val := v, data2 := BitVec.ofNat 64 fl }
          | .lr => put (s.reserve frame p.tgt.loc (s.resvUnit p.tgt)) { p with stage := .performed, val := v }
          | .sc =>
            if s.resvs.any fun r => r.frame == frame && r.loc == p.tgt.loc then
              put ({ (s.unreserve frame) with hostOut := s.hostOut ++ [(b, 8, p.data)] }.noteHost p.va)
                { p with stage := .performed, val := 0 }
            else put (s.unreserve frame) { p with stage := .performed, val := 1 }
          | .waitrs => put s { p with stage := if v ≠ p.data then .performed else .polling, val := v }
          | _ => put s { p with stage := .performed, val := v }

/-- LOAD_DATA_RETURN: reads of the register window and of post lines are performed, and an instruction whose accesses have
all ended writes its registers or reports its late outcome (spec/04 R100, spec/07 R168). -/
def execLoadDataReturn (frame seq : Nat) (s : State) : Out :=
  s.act <|
    match s.accOf frame seq with
    | none => s
    | some a =>
      if a.ret = .none ∨ a.op = .waitrs then s
      else
        let s1 := s.readIo a
        match s1.accOf frame seq with
        | some b => if b.done then s1.returnAcc b else s1
        | none => s1

/-- The reported outcome whose access is earliest in program order (spec/05 R112), and the others. -/
def earliestLate : List Late → Option (Late × List Late)
  | [] => none
  | l :: t => match earliestLate t with
    | some (m, r) => if m.seq < l.seq then some (m, l :: r) else some (l, t)
    | none => some (l, [])

/-- A thread takes its earliest reported late outcome at the boundary at which it stands (spec/05 R112).  A page fault whose
record is resolved already parks the thread for no time. -/
def State.takeLate (s : State) (f : Nat) : State :=
  let x := s.frame f
  match earliestLate x.late with
  | none => s
  | some (l, rest) =>
    let s1 := s.updFrame f fun y => { y with late := rest }
    (s1.takeTrap f ⟨l.cause, l.detail, BitVec.ofNat 64 l.addr, x.pc⟩).tryUnpark f

/-- LATE_OUTCOME_TRAP: at its boundary a thread takes the earliest reported late outcome (spec/04 R100, spec/05 R112).  A
frozen thread takes none (spec/06 R141). -/
def execLateOutcomeTrap (frame : Nat) (s : State) : Out :=
  s.act <|
    let x := s.frame frame
    if x.stat ≠ .ready ∨ x.frozen then s else s.takeLate frame

/-- WAITRS_WATCH_REPORT: the watch reports a granted write, and the read is made again (spec/09 R214). -/
def execWaitrsWatchReport (frame seq : Nat) (s : State) : Out :=
  s.act <|
    match s.partOf frame seq 0 with
    | some (a, p) => if p.stage = .reported then s.stagePart a 0 p .waiting else s
    | none => s

/-- WAITRS_REREAD: a WAITRS that found its table full reads again (spec/09 R214). -/
def execWaitrsReread (frame seq : Nat) (s : State) : Out :=
  s.act <|
    match s.partOf frame seq 0 with
    | some (a, p) => if p.stage = .polling then s.stagePart a 0 p .waiting else s
    | none => s

/-! ### Walks -/

/-- The parts that wait for the walk of a page, in program order: frame, number, place. -/
def State.walkWaiters (s : State) (sl page : Nat) (crumb : Bool) : List (Nat × Nat × Nat) :=
  s.accs.flatMap fun a =>
    (List.range a.parts.length).filterMap fun i => match a.parts[i]? with
      | some p => match p.tgt, p.stage with
        | .glob va, .filling =>
          if p.crumb = crumb ∧ homeSlice va = sl ∧ pageOf va crumb = page then some (a.frame, a.seq, i) else none
        | _, _ => none
      | none => none

/-- A failed walk holds one waiting access: its record, its late outcome once for each instruction and record
(spec/04 R100 item 4, spec/14 R311). -/
def State.holdPart (s : State) (crumb : Bool) (e : WalkErr) (w : Nat × Nat × Nat) : State :=
  match s.partOf w.1 w.2.1 w.2.2 with
  | none => s
  | some (a, p) =>
    match s.faultRecord w.1 p.va crumb a.writes false e with
    | (s1, none) => s1
    | (s1, some fid) =>
      let s2 := s1.stagePart a w.2.2 { p with kept := true } (.held fid)
      if (s.frame w.1).fids.contains fid then s2
      else (s2.waitRecord w.1 fid).report w.1 ⟨a.seq, 0, 0x06, p.va, a.lateDetail⟩

/-- PAGE_WALK: a walk completes and its leaf is cached, or fails, and every access that waits for it is held
(spec/14 R310, R311). -/
def execPageWalk (slice page : Nat) (crumb : Bool) (s : State) : Out :=
  s.act <|
    if s.wipe ∨ ((s.slice slice).leaf page crumb).isSome ∨ pageOf page crumb ≠ page then s
    else match s.walk slice page crumb with
      | .ok (e2, e) => s.installLeaf slice page crumb e2 e
      | .error e => (s.walkWaiters slice page crumb).foldl (fun s w => s.holdPart crumb e w) s

/-- PLB_MISS_WALK: a core reads the protection table for an address and caches the entry (spec/14 R308). -/
def execPlbMissWalk (frame va : Nat) (s : State) : Out :=
  s.act (if windowOf va = .glob then (s.globRights frame va).1 else (s.tableHeader frame).1)

/-- A writer's partition owns what the record concerns; an agent at M owns all. -/
def Writer.owns (w : Writer) (part : Nat) : Bool := match w with | .m => true | .s p => p == part

/-- A write of FRESUME that names no unresolved record sets ERR (spec/14 R329). -/
def State.fresumeErr (s : State) (die : Nat) : State := s.setRegBits (.fresume die) (2 ^ 63)

/-- The accesses of a record's threads to its page that wait behind a held one are held with it (spec/04 R100 item 4). -/
def Acc.heldWith (a : Acc) (r : FaultRec) (fs : List Nat) : Acc :=
  if fs.contains a.frame && a.op != .waitrs then
    { a with parts := a.parts.map fun p => match p.tgt, p.stage with
        | .glob va, .waiting => if p.crumb = r.crumb ∧ pageOf va p.crumb = r.page then { p with stage := .held r.fid, kept := true } else p
        | _, _ => p }
  else a

/-- FRESUME with ACT = 0: every held access of the record walks again, and its threads resume once the held accesses are
performed (spec/14 R311, spec/05 R118). -/
def execFresumeRetry (_w : Writer) (die fid : Nat) (s : State) : Out :=
  s.act <|
    match s.faults.find? fun r => r.fid == fid with
    | none => s.fresumeErr die
    | some r =>
      let fs := (s.frames.filter fun p => p.2.fids.contains fid).map (·.1)
      let s1 := { s with faults := s.faults.filter (fun r => r.fid ≠ fid), accs := s.accs.map fun a => a.heldWith r fs }
      fs.foldl (fun s f => (s.updFrame f fun x => { x with fids := x.fids.erase fid }).tryUnpark f) s1

/-- FRESUME with ACT = 1: the held accesses are discarded and the launch of each is killed with PAGE_FAULT (spec/14 R311);
several launches of one context may have joined the record. -/
def execFresumeAbandon (_w : Writer) (die fid : Nat) (s : State) : Out :=
  s.act <|
    match s.faults.find? fun r => r.fid == fid with
    | none => s.fresumeErr die
    | some r =>
      let s1 := { s with faults := s.faults.filter fun q => q.fid ≠ fid }
      let who := (s.frames.filter fun p => p.2.fids.contains fid).map fun p => (p.1, p.2.launch)
      (((r.frame, r.launch) :: who).eraseDups).foldl (fun t x => match x.2 with
        | some e => t.killLaunch e 0x08 0
        | none => t.endThread x.1) s1

/-! ### Errors of storage (spec/14 R321–R323) -/

/-- Sets the poison of every word of a span of storage. -/
def State.poisonSpan (s : State) (lo n : Nat) : State := (List.range n).foldl (fun s i => s.setPoison (lo + 8 * i) true) s

/-- A count of a die rises by 1: mismatches of check values under the die's number, corrected errors under 2 more. -/
def State.countError (s : State) (k : Nat) : State := { s with integrity := put s.integrity k (lookD s.integrity k 0 + 1) }

/-- An uncorrectable error in the storage at a key poisons the words of its protected unit: a word of L1, 16 bytes of L2, a
line of HBM (spec/14 R321).  A clean line of L2 is refetched instead.  A partial write that follows finds its word poisoned,
which is what spec/14 R322 item 3 says of a word whose untouched bytes hold such an error. -/
def State.softError (s : State) (key : Nat) : State :=
  if key < 2 ^ 48 then s.setPoison key true
  else if key < 2 ^ 49 then
    let va := key - 2 ^ 48
    match s.lineOf va with
    | none => s
    | some l => if l.dirty then s.poisonSpan (key / 16 * 16) 2 else s.copyLine (hbmKey l.pa) (l2Key (va / 64 * 64))
  else if key < 2 ^ 53 then s.poisonSpan (key / 64 * 64) 8
  else s.setPoison key true

/-- A check value fails where a die verifies it: every word of the line is poisoned, and the die counts it once
(spec/14 R323; spec/16 R358 at the die-to-die link). -/
def State.badLine (s : State) (die key : Nat) : State := (s.poisonSpan (key / 64 * 64) 8).countError die

/-- Data that have left storage for a thread, a read of a host page among them, and are not yet in its registers: their line lies
at `line`. -/
def Part.inFlight (p : Part) (line : Nat) : Bool :=
  match p.tgt, p.stage with
  | .glob va, .performed => va / 64 == line / 64
  | .l1 pcl o, .performed => l1Key pcl o / 64 == line / 64
  | _, _ => false

/-- A check value fails at the core that receives a line: the words come poisoned, so that the load or atomic that reads them ends
0x0B, and the die counts it once (spec/14 R322, R323). -/
def State.badReturn (s : State) (f seq line : Nat) : State :=
  match s.accOf f seq with
  | none => s
  | some a =>
    if a.op = AOp.store ∨ (a.parts.all fun p => !p.inFlight line) then s
    else
      let spoil (p : Part) : Part := if p.inFlight line then { p with stage := .failed 0x0B } else p
      let accs := updWhere (fun b => b.frame == f && b.seq == seq) (fun b => { b with parts := b.parts.map spoil }) s.accs
      ({ s with accs := accs } : State).countError (dieOf (coreOf f))

/-- A check value fails at the host port before a store leaves it: the die counts it, and what the host page takes is a free value, for
it keeps no poison (spec/14 R323).  DESIGN CHOICE (notes/assumptions/7.md). -/
def State.badHostStore (s : State) (f seq i : Nat) : State :=
  match s.accOf f seq with
  | none => s
  | some a => match a.parts[i]? with
    | none => s
    | some p =>
      if a.op = .store ∧ p.stage = .granted then
        let (s1, v) := s.draw
        (s1.setPart f seq i { p with data := v }).countError 0
      else s

/-! ### Scrubbing, routing, L2 operations -/

/-- L2_SCRUB: the scrubber finds words of a line that cannot be corrected: a clean line is refetched, a dirty line's words
are poisoned (spec/14 R321). -/
def execL2Scrub (slice line : Nat) (bad : List Nat) (s : State) : Out :=
  s.act <|
    let va := line * 64
    if homeSlice va ≠ slice then s
    else match s.lineOf va with
      | none => s
      | some l =>
        if l.dirty then bad.foldl (fun s i => s.setPoison (l2Key va + i % 8 * 8) true) s
        else s.copyLine (hbmKey l.pa) (l2Key va)

/-- MESH_LOAD_WINDOW: at the end of a window of 1,024 FK cycles the highest link load decides the routing of new packets,
where MESHCTL does not override the measurement (spec/14 R326). -/
def execMeshLoadWindow (die load : Nat) (s : State) : Out :=
  s.act <|
    let thr := s.regField (.meshctl die) 7 0
    let hyst := s.regField (.meshctl die) 15 8
    let now := lookD s.twoPhase die false
    let v := if load > thr then true else if load + hyst < thr then false else now
    { s with twoPhase := putFlag s.twoPhase die v }

/-- The span of an L2OP: L2OPBASE and L2OPLEN of its partition (spec/14 R329). -/
def State.l2Span (s : State) (die part : Nat) : Nat × Nat :=
  let b := s.regField (.l2opbase die part) 47 10 * 1024
  (b, b + s.regField (.l2oplen die part) 40 10 * 1024)

/-- A line lies in a span. -/
def lineIn (sp : Nat × Nat) (l : Line) : Bool := sp.1 ≤ l.la * 64 && l.la * 64 < sp.2

/-- Drops the translations, and the walk-cache entries, that a span touches. -/
def Slice.dropXlat (x : Slice) (sp : Nat × Nat) (walkToo : Bool) : Slice :=
  let hit (lo n : Nat) := sp.1 < sp.2 && lo < sp.2 && sp.1 < lo + n
  { x with xlat := x.xlat.filter (fun t => !hit t.page (if t.crumb then 1024 else 2 ^ 21)),
           walk := if walkToo then x.walk.filter (fun p => !hit (p.1 * 2 ^ 21) (2 ^ 21)) else x.walk }

/-- Applies a step to every line of a span, slice by slice. -/
def State.overLines (s : State) (sp : Nat × Nat) (u : State → Nat → Line → State) : State :=
  s.slices.foldl (fun s p => (p.2.lines.filter (lineIn sp)).foldl (fun s l => u s p.1 l) s) s

/-- Starts an L2OP unless one runs: a write while BUSY is 1 sets ERR; a writer without the right changes nothing (spec/14
R328, R329). -/
def State.l2opStart (s : State) (w : Writer) (die part : Nat) (u : State → State) : State :=
  if !s.mayWrite w (.l2op die part) then s
  else if s.regField (.l2op die part) 63 63 = 1 then s.setRegBits (.l2op die part) (2 ^ 62)
  else u (s.setRegBits (.l2op die part) (2 ^ 63))

/-- L2OP CLEAN: writes back the dirty lines of the span. -/
def execL2opClean (w : Writer) (die part : Nat) (s : State) : Out :=
  s.act <| s.l2opStart w die part fun t => t.overLines (t.l2Span die part) State.writeBack

/-- L2OP FLUSH: writes back and invalidates the lines of the span, and drops its translations. -/
def execL2opFlush (w : Writer) (die part : Nat) (s : State) : Out :=
  s.act <| s.l2opStart w die part fun t =>
    let sp := t.l2Span die part
    let t1 := t.overLines sp State.evict
    { t1 with slices := mapVals (fun _ x => x.dropXlat sp false) t1.slices }

/-- L2OP UNPIN: PINNED lines of the span become NORMAL. -/
def execL2opUnpin (w : Writer) (die part : Nat) (s : State) : Out :=
  s.act <| s.l2opStart w die part fun t =>
    let sp := t.l2Span die part
    let unpin (l : Line) : Line := if lineIn sp l ∧ l.cls = .pinned then { l with cls := .normal } else l
    { t with slices := mapVals (fun _ x => { x with lines := x.lines.map unpin }) t.slices }

/-- L2OP XINV: drops the translations and walk-cache entries of the span. -/
def execL2opXinv (w : Writer) (die part : Nat) (s : State) : Out :=
  s.act <| s.l2opStart w die part fun t =>
    let sp := t.l2Span die part
    { t with slices := mapVals (fun _ x => x.dropXlat sp true) t.slices }

/-- L2OP_END: the operation has handled every line of its span, and BUSY clears (spec/14 R329). -/
def execL2opEnd (die part : Nat) (s : State) : Out :=
  s.act (s.clearRegBits (.l2op die part) (2 ^ 63))

/-! ### Instruction-cache fills (spec/06 R132, R133) -/

/-- Installs a line in a tile's instruction cache: 256 sets of two ways, the way used least recently replaced. -/
def Tile.install (t : Tile) (line : Nat) (bytes : List Byte) (stamp : Nat) : Tile :=
  if t.icache.any (fun l => l.1 == line) then t
  else
    let same := t.icache.filter fun l => l.1 / 64 % 256 == line / 64 % 256
    let old := same.foldl (fun (b : Option (Nat × List Byte × Nat)) l => match b with
      | some m => if l.2.2 < m.2.2 then some l else b
      | none => some l) none
    let rest := if same.length < 2 then t.icache else match old with
      | some o => t.icache.filter fun l => l.1 ≠ o.1
      | none => t.icache
    { t with icache := rest ++ [(line, bytes, stamp)] }

/-- Moves waiting misses into the fill unit while it keeps fewer than 32 fills (spec/06 R133).  A miss joins the fill of
its line that is in flight.  DEDUCED: also when it names the other page size, and the fill keeps that of the first miss
(notes/assumptions/28.md). -/
def Cluster.enrol (c : Cluster) : List (Nat × Nat) → Cluster
  | [] => c
  | (l, t) :: rest =>
    let c1 :=
      if c.fills.any (fun f => f.1 / 64 == l / 64) then
        { c with fills := updWhere (fun f => f.1 / 64 == l / 64) (fun f => (f.1, if f.2.contains t then f.2 else f.2 ++ [t])) c.fills }
      else if c.fills.length < 32 then { c with fills := c.fills ++ [(l, [t])] }
      else { c with misses := if c.misses.contains (l, t) then c.misses else c.misses ++ [(l, t)] }
    c1.enrol rest

/-- A line of the management core: its SRAM, or the boot ROM beyond it (spec/16 R366; log 8). -/
def State.mgmtLine (s : State) (a : Nat) : List Byte :=
  (List.range 64).map fun i => if a + i < 2 ^ 20 then s.byte (sramKey (a + i)) else Config.bootRom (a + i)

/-- Installs a line in the recipient tiles of a fill. -/
def State.installLine (s : State) (tiles : List Nat) (line : Nat) (bs : List Byte) : State :=
  tiles.foldl (fun s t => s.updTile t fun x => x.install line bs s.ck) s

/-- ICACHE_FILL_INSTALL: a fill reads 64 bytes from L2, for the partition of the first miss, and installs the line in every
recipient tile (spec/06 R133); a fill whose translation fails ends, and its frames meet the fault when they decode (R134).
A fill of the management core reads its SRAM or the boot ROM. -/
def execIcacheFillInstall (cluster line : Nat) (s : State) : Out :=
  s.act <|
    match (s.cluster cluster).fills.find? fun f => f.1 / 64 == line / 64 with
    | none => s
    | some (key, tiles) =>
      if s.wipe ∧ cluster ≠ clusterOf mgmtCore then s
      else
        let s0 := s.updCluster cluster fun c =>
          ({ c with fills := c.fills.filter (fun f => f.1 ≠ key), misses := [] }).enrol c.misses
        let line := line / 64 * 64
        if cluster = clusterOf mgmtCore then s0.installLine tiles line (s0.mgmtLine line)
        else match s0.reach line (key % 64 / 2) 0 (key % 2 == 1) with
        | (s1, .ok (.key k)) => s1.installLine tiles line (s1.readBytes k 64)
        | (s1, .ok (.host _)) =>
          let ws := (List.range 8).map fun i => Config.freeValue (s1.fresh + i)
          ({ s1 with fresh := s1.fresh + 8 } : State).installLine tiles line (ws.flatMap fun w => leBytes 8 w.toNat)
        | (s1, .error _) => s1

end Sys2Proof.Machine
end

