-- ==== Sys2Proof/Machine/FetchUnit.lean ====
section
/-!
DEFINITION. Machine/FetchUnit.lean: fetching instruction bytes: blocks through the instruction cache of the tile, the
execute right, and the frame's buffer (spec/06 R130–R136), and the two events that report a failing fetch or chain.
-/
namespace Sys2Proof.Machine

/-- What a fetch of one aligned 16-byte block gives. -/
inductive FRes where
  | block (b : List Byte)
  /-- a trap of the halfword: cause and DETAIL -/
  | trap (cause detail : Nat)
  /-- the line is on its way -/
  | wait
  deriving DecidableEq, Repr

/-- The line of an instruction cache that holds an address. -/
def State.icacheLine (s : State) (tile a : Nat) : Option (List Byte) :=
  ((s.tile tile).icache.find? fun l => l.1 == a / 64 * 64).map fun l => l.2.1

/-- A hit renews the line's stamp of last use. -/
def State.icacheTouch (s : State) (tile a : Nat) : State :=
  s.updTile tile fun t =>
    { t with icache := updWhere (fun l => l.1 == a / 64 * 64) (fun l => (l.1, l.2.1, s.ck)) t.icache }

/-- A frame asks the fill unit for the line of an address (spec/06 R133): the fill is kept under the line's address plus 1
for a Crumb page plus twice the partition.  The management core has a cache and fills of its own (spec/06 R146). -/
def State.requestFill (s : State) (f a : Nat) (crumb : Bool) : State :=
  let core := coreOf f
  s.updCluster (clusterOf core) fun c =>
    c.enrol [(a / 64 * 64 + (if crumb then 1 else 0) + 2 * (s.frame f).part, tileOf core)]

/-- The block of an address out of its line. -/
def lineBlock (l : List Byte) (a : Nat) : List Byte := (l.drop (a % 64 / 16 * 16)).take 16

/-- Fetches the block that holds address `a` for a frame (spec/06 R130–R134).  A miss whose page is at hand asks for a fill,
which alone reads L2 (spec/06 R133, `execIcacheFillInstall`). -/
def State.fetchBlock (s : State) (f a : Nat) : State × FRes :=
  let core := coreOf f
  if core = mgmtCore then
    match s.icacheLine (tileOf core) a with
    | some l => (s.icacheTouch (tileOf core) a, .block (lineBlock l a))
    | none => (s.requestFill f a false, .wait)
  else if windowOf a ≠ .glob then (s, .trap 0x05 0x80)
  else
    match s.globRights f a with
    | (s1, none) => (s1, .trap 0x05 0x180)
    | (s1, some b) =>
      if !Need.x.ok b then (s1, .trap 0x05 0x80)
      else
        match s1.icacheLine (tileOf core) a with
        | some l => (s1.icacheTouch (tileOf core) a, .block (lineBlock l a))
        | none =>
          if s1.wipe then (s1, .wait)
          else
            let x := s1.frame f
            let crumb := crumbOf x.region a
            match s1.pageHand a crumb with
            | (s2, some e) =>
              match s2.faultRecord f a crumb false true e with
              | (s3, some fid) => (s3.waitRecord f fid, .trap 0x06 0x80)
              | (s3, none) => (s3, .wait)
            | (s2, none) => (s2.requestFill f a crumb, .wait)

/-- The halfword at an address of a block. -/
def blockHalf (b : List Byte) (a : Nat) : Half := (b.getD (a % 16 + 1) 0) ++ (b.getD (a % 16) 0)

/-- What a fetch of one halfword gives. -/
inductive HRes where
  | half (h : Half)
  | trap (cause detail : Nat)
  | wait
  deriving DecidableEq, Repr

/-- Fetches one halfword into the buffer of a frame, which keeps two blocks (spec/06 R130). -/
def State.fetchHalf (s : State) (f a : Nat) : State × HRes :=
  match (s.frame f).ibuf.find? fun p => p.1 == a / 16 * 16 with
  | some p => (s, .half (blockHalf p.2 a))
  | none =>
    match s.fetchBlock f a with
    | (s1, .block b) =>
      (s1.updFrame f fun x => { x with ibuf := pushCap 2 x.ibuf (a / 16 * 16, b) }, .half (blockHalf b a))
    | (s1, .trap c d) => (s1, .trap c d)
    | (s1, .wait) => (s1, .wait)

/-- The next sequential block of a frame, which its buffer asks for when a slot is free: the buffer holds the block of the
program counter and not yet the one after it (spec/06 R130). -/
def Frame.nextBlock (x : Frame) : Option Nat :=
  let b := x.pc.toNat / 16 * 16
  if x.ibuf.any (fun p => p.1 == b) && !(x.ibuf.any fun p => p.1 == (b + 16) % 2 ^ 48) then some ((b + 16) % 2 ^ 48) else none

/-- The fetch of the next sequential block: it enters the buffer on a hit, a miss asks for its line, and a fault has no
effect unless the thread decodes the block (spec/06 R130, R134). -/
def State.prefetch (s : State) (f : Nat) : State :=
  let x := s.frame f
  let core := coreOf f
  match x.nextBlock with
  | none => s
  | some a =>
    if x.stat ≠ .ready ∨ x.frozen ∨ (s.core core).retired then s
    else
      let (s1, may) := if core = mgmtCore then (s, true) else if windowOf a ≠ .glob then (s, false)
        else match s.globRights f a with
          | (s1, some b) => (s1, Need.x.ok b)
          | (s1, none) => (s1, false)
      if !may then s1
      else match s1.icacheLine (tileOf core) a with
        | some l => (s1.icacheTouch (tileOf core) a).updFrame f fun x => { x with ibuf := pushCap 2 x.ibuf (a, lineBlock l a) }
        | none => if s1.wipe ∧ core ≠ mgmtCore then s1 else s1.requestFill f a (crumbOf x.region a)

/-- Result of fetching a chain: its halfwords, at most five (spec/03 R67 check 1). -/
inductive CRes where
  | chain (hs : List Half)
  | trap (cause detail addr : Nat)
  | wait
  deriving DecidableEq, Repr

/-- Fetches halfwords from `a` until the base, five at most; a later halfword is fetched only when the earlier ones are
prefixes. -/
def State.fetchChain (s : State) (f a : Nat) : Nat → State × CRes
  | 0 => (s, .chain [])
  | n + 1 =>
    match s.fetchHalf f (a % 2 ^ 48) with
    | (s1, .trap c d) => (s1, .trap c d (a % 2 ^ 48))
    | (s1, .wait) => (s1, .wait)
    | (s1, .half h) =>
      if h.isPfx then
        match s1.fetchChain f (a + 2) n with
        | (s2, .chain t) => (s2, .chain (h :: t))
        | (s2, r) => (s2, r)
      else (s1, .chain [h])

/-- ILLEGAL_INSTRUCTION: the chain at the frame's program counter is no instruction: trap 0x02 or 0x01 as the checks 2 to
5 of spec/03 R67 find. -/
def execIllegalInstruction (frame : Nat) (chain : List Half) (s : State) : Out :=
  s.act <|
    let pc := (s.frame frame).pc
    match decode chain with
    | .error (.chain r pos h) => s.takeTrap frame ⟨0x02, r + pos * 16, h.setWidth 64, pc⟩
    | .error (.illegal k) =>
      let hs := chainHalves chain 5
      s.takeTrap frame ⟨0x01, illegalDetail (hs.length - 1) k, chainWord hs, pc⟩
    | _ => s

/-- INSTRUCTION_FETCH_FAULT: the thread decodes a halfword that its fetch refuses (spec/06 R134): protection with
DETAIL [7] (and [8] when the walk of the table failed), or a page fault.  `cause` is the cause plus 256 × DETAIL [8]. -/
def execInstructionFetchFault (frame addr cause : Nat) (s : State) : Out :=
  s.act (s.takeTrap frame ⟨cause % 256, 0x80 + cause / 256 % 2 * 256, BitVec.ofNat 64 addr, (s.frame frame).pc⟩)

end Sys2Proof.Machine
end

