-- ==== Sys2Proof/Machine/Scalar.lean ====
section
/-!
DEFINITION. Machine/Scalar.lean: the scalar integer, bit-field, move and unary instructions of page 0 (spec/04 R86–R94).
-/
namespace Sys2Proof.Machine

/-- Shift left, 0 from 64 up (spec/04 R89). -/
def shlW (a b : Word) : Word := if b.toNat ≥ 64 then 0 else a <<< b.toNat
/-- Logical shift right, 0 from 64 up. -/
def shrW (a b : Word) : Word := if b.toNat ≥ 64 then 0 else a >>> b.toNat
/-- Arithmetic shift right, the sign from 64 up. -/
def sarW (a b : Word) : Word := a.sshiftRight (if b.toNat ≥ 64 then 63 else b.toNat)
/-- Bits [127:64] of the signed product (spec/04 R89). -/
def mulhW (a b : Word) : Word := BitVec.ofInt 64 (a.toInt * b.toInt / 2 ^ 64)
/-- Number of one bits among the low `k`. -/
def popCount (n : Nat) : Nat → Nat
  | 0 => 0
  | k + 1 => (if n.testBit k then 1 else 0) + popCount n k

/-- ADD: trunc(a + b, 64) (spec/04 R89). -/
def execAdd (o : Opnd) (s : State) : Out :=
  let a := s.rrA o
  let b := s.rrB o
  s.act (s.setA o (a + b))

/-- SUB: trunc(a − b, 64) (spec/04 R89). -/
def execSub (o : Opnd) (s : State) : Out :=
  let a := s.rrA o
  let b := s.rrB o
  s.act (s.setA o (a - b))

/-- MUL: trunc(a × b, 64) (spec/04 R89). -/
def execMul (o : Opnd) (s : State) : Out :=
  let a := s.rrA o
  let b := s.rrB o
  s.act (s.setA o (a * b))

/-- MULH: bits [127:64] of the exact s(a) × s(b) (spec/04 R89). -/
def execMulh (o : Opnd) (s : State) : Out :=
  let a := s.rrA o
  let b := s.rrB o
  s.act (s.setA o (mulhW a b))

/-- AND: bitwise AND (spec/04 R89). -/
def execAnd (o : Opnd) (s : State) : Out :=
  let a := s.rrA o
  let b := s.rrB o
  s.act (s.setA o (a &&& b))

/-- OR: bitwise OR (spec/04 R89). -/
def execOr (o : Opnd) (s : State) : Out :=
  let a := s.rrA o
  let b := s.rrB o
  s.act (s.setA o (a ||| b))

/-- XOR: bitwise XOR (spec/04 R89). -/
def execXor (o : Opnd) (s : State) : Out :=
  let a := s.rrA o
  let b := s.rrB o
  s.act (s.setA o (a ^^^ b))

/-- SHL: 0 when n(b) ≥ 64, else a × 2^n(b) (spec/04 R89). -/
def execShl (o : Opnd) (s : State) : Out :=
  let a := s.rrA o
  let b := s.rrB o
  s.act (s.setA o (shlW a b))

/-- SHR: 0 when n(b) ≥ 64, else the floor of n(a) / 2^n(b) (spec/04 R89). -/
def execShr (o : Opnd) (s : State) : Out :=
  let a := s.rrA o
  let b := s.rrB o
  s.act (s.setA o (shrW a b))

/-- SAR: the sign when n(b) ≥ 64, else the floor of s(a) / 2^n(b) (spec/04 R89). -/
def execSar (o : Opnd) (s : State) : Out :=
  let a := s.rrA o
  let b := s.rrB o
  s.act (s.setA o (sarW a b))

/-- MIN: the smaller of s(a), s(b) (spec/04 R89). -/
def execMin (o : Opnd) (s : State) : Out :=
  let a := s.rrA o
  let b := s.rrB o
  s.act (s.setA o (if a.sle b then a else b))

/-- MAX: the larger of s(a), s(b) (spec/04 R89). -/
def execMax (o : Opnd) (s : State) : Out :=
  let a := s.rrA o
  let b := s.rrB o
  s.act (s.setA o (if a.sle b then b else a))

/-- SLT: 1 when s(a) < s(b), else 0 (spec/04 R89). -/
def execSlt (o : Opnd) (s : State) : Out :=
  let a := s.rrA o
  let b := s.rrB o
  s.act (s.setA o (if a.slt b then 1 else 0))

/-- SLTN: 1 when n(a) < n(b), else 0 (spec/04 R89). -/
def execSltn (o : Opnd) (s : State) : Out :=
  let a := s.rrA o
  let b := s.rrB o
  s.act (s.setA o (if a.ult b then 1 else 0))

/-- Quotient, remainder and flags of a division (spec/04 R90). -/
def divide (signed : Bool) (a b : Word) : Word × Word × Nat :=
  if b = 0 then (BitVec.allOnes 64, a, fDZ)
  else if signed then (a.sdiv b, a.srem b, 0)
  else (a.udiv b, a.umod b, 0)

/-- A division: an enabled DZ traps and gA is not written (spec/04 R90). -/
def State.division (s : State) (o : Opnd) (signed rem : Bool) : State :=
  let (q, r, fl) := divide signed (s.rrA o) (s.rrB o)
  s.retire (o.halves 0) (addFlag [] 0 fl) (·.setG o.ra (if rem then r else q))

/-- DIV: the signed quotient (spec/04 R90). -/
def execDiv (o : Opnd) (s : State) : Out := s.act (s.division o true false)
/-- DIVN: the unsigned quotient (spec/04 R90). -/
def execDivn (o : Opnd) (s : State) : Out := s.act (s.division o false false)
/-- REM: the signed remainder (spec/04 R90). -/
def execRem (o : Opnd) (s : State) : Out := s.act (s.division o true true)
/-- REMN: the unsigned remainder (spec/04 R90). -/
def execRemn (o : Opnd) (s : State) : Out := s.act (s.division o false true)

/-- MOV: gA := gB (spec/04 R91). -/
def execMov (o : Opnd) (s : State) : Out := s.act (s.setA o (s.g o.rb))

/-- ADD with an immediate: trunc(a + b, 64) (spec/04 R88, R89). -/
def execAddI (o : Opnd) (s : State) : Out :=
  let a := s.riA o
  let b := o.immW
  s.act (s.setA o (a + b))

/-- AND with an immediate: bitwise AND (spec/04 R88, R89). -/
def execAndI (o : Opnd) (s : State) : Out :=
  let a := s.riA o
  let b := o.immW
  s.act (s.setA o (a &&& b))

/-- OR with an immediate: bitwise OR (spec/04 R88, R89). -/
def execOrI (o : Opnd) (s : State) : Out :=
  let a := s.riA o
  let b := o.immW
  s.act (s.setA o (a ||| b))

/-- XOR with an immediate: bitwise XOR (spec/04 R88, R89). -/
def execXorI (o : Opnd) (s : State) : Out :=
  let a := s.riA o
  let b := o.immW
  s.act (s.setA o (a ^^^ b))

/-- SHL by an immediate, read unsigned: 0 when n(b) ≥ 64, else a × 2^n(b) (spec/04 R88, R89). -/
def execShlI (o : Opnd) (s : State) : Out :=
  let a := s.riA o
  let b := BitVec.ofNat 64 o.uimm
  s.act (s.setA o (shlW a b))

/-- SHR by an immediate, read unsigned: 0 when n(b) ≥ 64, else the floor of n(a) / 2^n(b) (spec/04 R88, R89). -/
def execShrI (o : Opnd) (s : State) : Out :=
  let a := s.riA o
  let b := BitVec.ofNat 64 o.uimm
  s.act (s.setA o (shrW a b))

/-- SAR by an immediate, read unsigned: the sign when n(b) ≥ 64, else the floor of s(a) / 2^n(b) (spec/04 R88, R89). -/
def execSarI (o : Opnd) (s : State) : Out :=
  let a := s.riA o
  let b := BitVec.ofNat 64 o.uimm
  s.act (s.setA o (sarW a b))

/-- SLT with an immediate (spec/04 R88, R89). -/
def execSltI (o : Opnd) (s : State) : Out :=
  s.act (s.setA o (if (s.riA o).slt o.immW then 1 else 0))

/-- The legacy switches of the image whose launch the thread belongs to (spec/16 R374). -/
def State.errata (s : State) : Nat :=
  if s.inHandler then 0 else match s.me.launch with
    | some e => (s.entry e).hdr.errata
    | none => 0

/-- SLTN with an immediate: sign-extended first (spec/04 R89), or zero-extended under legacy switch 0 (spec/16 R374). -/
def execSltnI (o : Opnd) (s : State) : Out :=
  let b := if s.errata.testBit 0 then BitVec.ofNat 64 o.uimm else o.immW
  s.act (s.setA o (if (s.riA o).ult b then 1 else 0))

/-- LI: gA := the sign-extended immediate (spec/04 R91). -/
def execLi (o : Opnd) (s : State) : Out := s.act (s.setA o o.immW)

/-- BFX: extracts a field, sign-extended when SX is set (spec/04 R92, R93). -/
def execBfx (o : Opnd) (s : State) : Out :=
  let f := (s.riA o).toNat / 2 ^ (o.pos) % 2 ^ (o.len)
  s.act (s.setA o (if o.uimm.testBit 12 then BitVec.ofInt 64 (sextNat f (o.len)) else BitVec.ofNat 64 f))

/-- BFI: inserts the low bits of gC into a field of gA (spec/04 R92, R93). -/
def execBfi (o : Opnd) (s : State) : Out :=
  let mask := BitVec.ofNat 64 ((2 ^ (o.len) - 1) * 2 ^ (o.pos))
  s.act (s.setA o ((s.g o.ra &&& ~~~ mask) ||| ((s.g o.rc <<< o.pos) &&& mask)))

/-- CLZ: number of leading zero bits, 64 for 0 (spec/04 R94). -/
def execClz (o : Opnd) (s : State) : Out :=
  let a := s.riA o
  s.act (s.setA o (BitVec.ofNat 64 (64 - bitLen a.toNat)))

/-- POPC: number of one bits (spec/04 R94). -/
def execPopc (o : Opnd) (s : State) : Out :=
  let a := s.riA o
  s.act (s.setA o (BitVec.ofNat 64 (popCount a.toNat 64)))

/-- SEXT.B: sext(x, 8) (spec/04 R94). -/
def execSextB (o : Opnd) (s : State) : Out :=
  let a := s.riA o
  s.act (s.setA o ((a.setWidth 8).signExtend 64))

/-- SEXT.H: sext(x, 16) (spec/04 R94). -/
def execSextH (o : Opnd) (s : State) : Out :=
  let a := s.riA o
  s.act (s.setA o ((a.setWidth 16).signExtend 64))

/-- SEXT.W: sext(x, 32) (spec/04 R94). -/
def execSextW (o : Opnd) (s : State) : Out :=
  let a := s.riA o
  s.act (s.setA o ((a.setWidth 32).signExtend 64))

/-- ZEXT.B: zext(x, 8) (spec/04 R94). -/
def execZextB (o : Opnd) (s : State) : Out :=
  let a := s.riA o
  s.act (s.setA o ((a.setWidth 8).setWidth 64))

/-- ZEXT.H: zext(x, 16) (spec/04 R94). -/
def execZextH (o : Opnd) (s : State) : Out :=
  let a := s.riA o
  s.act (s.setA o ((a.setWidth 16).setWidth 64))

/-- ZEXT.W: zext(x, 32) (spec/04 R94). -/
def execZextW (o : Opnd) (s : State) : Out :=
  let a := s.riA o
  s.act (s.setA o ((a.setWidth 32).setWidth 64))

end Sys2Proof.Machine
end

