-- ==== Sys2Proof/Machine/Branch.lean ====
section
/-!
DEFINITION. Machine/Branch.lean: branches, jumps, calls, returns and landing pads (spec/04 R103–R108).
-/
namespace Sys2Proof.Machine

/-- The target of a displacement in halfwords from the first halfword of the executing instruction (spec/03 R60). -/
def State.target (s : State) (disp : Int) : Nat := (s.me.pc + BitVec.ofInt 48 (2 * disp)).toNat

/-- Takes a branch or goes on. -/
def State.condBranch (s : State) (n : Nat) (disp : Int) (take : Bool) : State :=
  if take then s.jumpTo (s.target disp) else s.advance n

/-- BEQ: branches when a == b (spec/04 R103). -/
def execBeq (o : Opnd) (s : State) : Out :=
  let a := s.g o.ra
  let b := s.g o.rb
  s.act (s.condBranch (o.halves 0) o.poff (decide (a = b)))

/-- BNE: branches when a != b (spec/04 R103). -/
def execBne (o : Opnd) (s : State) : Out :=
  let a := s.g o.ra
  let b := s.g o.rb
  s.act (s.condBranch (o.halves 0) o.poff (decide (a ≠ b)))

/-- BLT: branches when s(a) < s(b) (spec/04 R103). -/
def execBlt (o : Opnd) (s : State) : Out :=
  let a := s.g o.ra
  let b := s.g o.rb
  s.act (s.condBranch (o.halves 0) o.poff (decide (a.slt b = true)))

/-- BGE: branches when s(a) ≥ s(b) (spec/04 R103). -/
def execBge (o : Opnd) (s : State) : Out :=
  let a := s.g o.ra
  let b := s.g o.rb
  s.act (s.condBranch (o.halves 0) o.poff (decide (b.sle a = true)))

/-- BLTN: branches when n(a) < n(b) (spec/04 R103). -/
def execBltn (o : Opnd) (s : State) : Out :=
  let a := s.g o.ra
  let b := s.g o.rb
  s.act (s.condBranch (o.halves 0) o.poff (decide (a.ult b = true)))

/-- BGEN: branches when n(a) ≥ n(b) (spec/04 R103). -/
def execBgen (o : Opnd) (s : State) : Out :=
  let a := s.g o.ra
  let b := s.g o.rb
  s.act (s.condBranch (o.halves 0) o.poff (decide (b.ule a = true)))

/-- BP: branches on the byte-lane bits of a predicate: any, all, none, not all (spec/04 R104). -/
def execBp (o : Opnd) (s : State) : Out :=
  let w := s.me.vbytes
  let p := s.preg s.cur (o.ra % 8) % 2 ^ w
  let take := match o.ra / 8 with
    | 0 => decide (p ≠ 0)
    | 1 => decide (p = 2 ^ w - 1)
    | 2 => decide (p = 0)
    | _ => decide (p ≠ 2 ^ w - 1)
  s.act (s.condBranch (o.halves 0) o.simm take)

/-- JMP: a direct jump (spec/04 R105). -/
def execJmp (o : Opnd) (s : State) : Out := s.act (s.jumpTo (s.target o.bdisp))

/-- The link: the address after the instruction with the link mark (spec/04 R105, R106). -/
def State.link (s : State) (n : Nat) : Word := (pcAfter s.me.pc n).setWidth 64 ||| 1

/-- CALL: a direct call (spec/04 R105). -/
def execCall (o : Opnd) (s : State) : Out :=
  s.act ((s.setG 1 (s.link (o.halves 0))).jumpTo (s.target o.bdisp))

/-- The halfword that a target holds, through the fetch path, without the frame's buffer (spec/04 R107). -/
def State.fetchTarget (s : State) (t : Nat) : State × HRes :=
  match s.fetchBlock s.cur t with
  | (s1, .block b) => (s1, .half (blockHalf b t))
  | (s1, .trap c d) => (s1, .trap c d)
  | (s1, .wait) => (s1, .wait)

/-- JR and CALLR: the checks of the target, then the pad, then the jump (spec/04 R107); a target whose line is on its way
holds the branch back. -/
def State.indirect (s : State) (t : Word) (pad : Half) (kind : Nat) (go : State → State) : State :=
  if t.toNat ≥ 2 ^ 48 then s.trap 0x03 5 t
  else if t.toNat % 2 = 1 then s.trap 0x04 1 t
  else match s.fetchTarget t.toNat with
    | (s1, .trap c d) => s1.trap c d t
    | (s1, .wait) => s1
    | (s1, .half h) => if h ≠ pad then s1.trap 0x03 kind t else (go s1).jumpTo t.toNat

/-- JR: jumps to gA, which must hold PAD.J (spec/04 R107). -/
def execJr (o : Opnd) (s : State) : Out := s.act (s.indirect (s.g o.ra) 0x8404 0 id)

/-- CALLR: calls gA, which must hold PAD.C (spec/04 R107). -/
def execCallr (o : Opnd) (s : State) : Out :=
  s.act (s.indirect (s.g o.ra) 0x8405 1 (·.setG 1 (s.link (o.halves 0))))

/-- RET: jumps to g1 without its link mark, which must be set (spec/04 R106, R107). -/
def execRet (_o : Opnd) (s : State) : Out :=
  let g1 := s.g 1
  s.act (if g1.toNat % 2 = 0 then s.trap 0x03 4 g1
    else if g1.toNat ≥ 2 ^ 48 then s.trap 0x03 5 (g1 &&& ~~~ 1)
    else s.jumpTo (g1.toNat - 1))

/-- PAD.J in sequence has no effect (spec/04 R107, R108). -/
def execPadJ (o : Opnd) (s : State) : Out := s.act (s.advance (o.halves 0))
/-- PAD.C in sequence has no effect. -/
def execPadC (o : Opnd) (s : State) : Out := s.act (s.advance (o.halves 0))
/-- PAD.H in sequence has no effect. -/
def execPadH (o : Opnd) (s : State) : Out := s.act (s.advance (o.halves 0))
/-- PAD.L in sequence has no effect. -/
def execPadL (o : Opnd) (s : State) : Out := s.act (s.advance (o.halves 0))

end Sys2Proof.Machine
end

