-- ==== Sys2Proof/Machine/LoadStore.lean ====
section
/-!
DEFINITION. Machine/LoadStore.lean: address formation and the scalar loads and stores (spec/04 R95–R102): checks at issue
in the order of R98, then the access on its way (Machine/Access.lean).
-/
namespace Sys2Proof.Machine

/-- The effective address of a MEM form: gB plus the scaled offset, modulo 2^64 (spec/04 R95–R98). -/
def State.memEa (s : State) (o : Opnd) (scale : Nat) : Nat := (s.g o.rb + BitVec.ofInt 64 (scale * o.poff)).toNat

/-- LEA: the effective address itself (spec/04 R95). -/
def execLea (o : Opnd) (s : State) : Out := s.act (s.setA o (BitVec.ofNat 64 (s.memEa o 1)))

/-- Where an access of a frame goes. -/
def State.targetOf (s : State) (f ea : Nat) : Tgt :=
  match windowOf ea with
  | .dev => .reg ea
  | .aperture _ => .post ea
  | .own _ | .lcl _ _ => match s.l1Place f ea with
    | some (p, o, _) => .l1 p o
    | none => .glob ea
  | _ => .glob ea

/-- A single access of at most eight bytes that has not started. -/
def State.newPart (s : State) (f elem va base size : Nat) (mask : BitVec 8) (data data2 : Word) : Part :=
  { elem := elem, va := va, base := base, lag := 0, tgt := s.targetOf f base,
    crumb := crumbOf (s.frame f).region base, size := size, mask := mask, data := data,
    data2 := data2, stage := .waiting, val := 0 }

/-- Order, scope and policy of an access. -/
structure Mods where
  strong : Bool
  scope  : Nat
  cp     : Nat
  deriving DecidableEq, Repr

/-- The modifiers of a PXM (spec/03 R61). -/
def modsOf (o : Opnd) : Mods := ⟨o.strong, o.scope, o.cp⟩

/-- The executing thread's instruction puts its accesses on their way; it leaves the core now, or at commit five cycles
later (spec/06 R129, spec/09 R204).  `areg` is the register of its late outcomes, `fl0` the flags that its issue set. -/
def State.issueAcc (s : State) (op : AOp) (m : Mods) (commit : Bool) (rnd : List (BitVec 64)) (areg fl0 : Nat) (ret : Ret)
    (parts : List Part) : State :=
  let x := s.me
  let a : Acc :=
    { frame := s.cur, seq := x.seq, op := op, strong := m.strong, scope := m.scope, cp := m.cp, urg := s.inUrgent,
      stamp := s.ck + (if commit then 5 else 0), arith := x.arith,
      rnd := rnd.map (·.setWidth 32), gang := x.gang, areg := areg, fl0 := fl0, ret := ret, parts := parts }
  { s with accs := s.accs ++ [a] }

/-- Checks 1 to 4 of spec/04 R98 on one scalar access: the first that fails, as cause, DETAIL and TADDR. -/
def State.scalarCheck (s : State) (ea size : Nat) (need : Need) (k : AKind) (guard : Bool) :
    State × Option (Nat × Nat × Nat) :=
  if ea % size ≠ 0 then (s, some (0x04, 0, ea))
  else match s.checkAddr s.cur ea size need k with
    | (s1, some (c, d)) => (s1, some (c, d, ea))
    | (s1, none) =>
      if guard then match s1.guardBreach s.cur ea size with
        | some b => (s1, some (0x07, 0, b))
        | none => (s1, none)
      else (s1, none)

/-- A scalar load of `size` bytes (spec/04 R98, R99). -/
def State.load (s : State) (o : Opnd) (m : Mods) (ea size : Nat) (signed : Bool) : State :=
  match s.scalarCheck ea size .r .plain false with
  | (s1, some (c, d, a)) => s1.trap c d (BitVec.ofNat 64 a)
  | (s1, none) =>
    (s1.issueAcc .load m false [] o.ra 0 (.g o.ra size signed) [s1.newPart s.cur 0 ea ea size 0 0 0]).advance (o.halves 0)

/-- A scalar store of `size` bytes (spec/04 R98, R99). -/
def State.store (s : State) (o : Opnd) (m : Mods) (ea size : Nat) : State :=
  match s.scalarCheck ea size .w .plain true with
  | (s1, some (c, d, a)) => s1.trap c d (BitVec.ofNat 64 a)
  | (s1, none) =>
    (s1.issueAcc .store m true [] 0 0 .none
      [s1.newPart s.cur 0 ea ea size (BitVec.ofNat 8 (2 ^ size - 1)) (s.g o.ra) 0]).advance (o.halves 0)

/-- Weak, system scope, normal policy. -/
def Mods.default : Mods := ⟨false, 6, 0⟩

/-- LREC: an LDD of a record's BASE, offset scaled by 32 (spec/04 R96). -/
def execLrec (o : Opnd) (s : State) : Out := s.act (s.load o .default (s.memEa o 32) 8 false)

/-- LDB: a byte, sign-extended (spec/04 R97). -/
def execLdb (o : Opnd) (s : State) : Out := s.act (s.load o (modsOf o) (s.memEa o 1) 1 true)
/-- LDBN: a byte, zero-extended. -/
def execLdbn (o : Opnd) (s : State) : Out := s.act (s.load o (modsOf o) (s.memEa o 1) 1 false)
/-- LDH: two bytes, sign-extended. -/
def execLdh (o : Opnd) (s : State) : Out := s.act (s.load o (modsOf o) (s.memEa o 2) 2 true)
/-- LDHN: two bytes, zero-extended. -/
def execLdhn (o : Opnd) (s : State) : Out := s.act (s.load o (modsOf o) (s.memEa o 2) 2 false)
/-- LDW: four bytes, sign-extended. -/
def execLdw (o : Opnd) (s : State) : Out := s.act (s.load o (modsOf o) (s.memEa o 4) 4 true)
/-- LDWN: four bytes, zero-extended. -/
def execLdwn (o : Opnd) (s : State) : Out := s.act (s.load o (modsOf o) (s.memEa o 4) 4 false)
/-- LDD: eight bytes. -/
def execLdd (o : Opnd) (s : State) : Out := s.act (s.load o (modsOf o) (s.memEa o 8) 8 false)
/-- STB: one byte (spec/04 R97). -/
def execStb (o : Opnd) (s : State) : Out := s.act (s.store o (modsOf o) (s.memEa o 1) 1)
/-- STH: two bytes. -/
def execSth (o : Opnd) (s : State) : Out := s.act (s.store o (modsOf o) (s.memEa o 2) 2)
/-- STW: four bytes. -/
def execStw (o : Opnd) (s : State) : Out := s.act (s.store o (modsOf o) (s.memEa o 4) 4)
/-- STD: eight bytes. -/
def execStd (o : Opnd) (s : State) : Out := s.act (s.store o (modsOf o) (s.memEa o 8) 8)

end Sys2Proof.Machine
end

