-- ==== Sys2Proof/Machine/Atomic.lean ====
section
/-!
DEFINITION. Machine/Atomic.lean: AMO, LR, SC and WAITRS (spec/09 R209–R214); what the bank or slice does with them stands in
Machine/Access.lean.
-/
namespace Sys2Proof.Machine

/-- Size of an AMO's operand (spec/09 R210). -/
def amoSize (o : Opnd) : Nat := if o.rb ≥ 16 then 8 else o.et.msize
/-- The old value is sign-extended for INT16 and INT32 (spec/09 R210). -/
def amoSigned (o : Opnd) : Bool := o.rb < 16 && (o.et == .int16 || o.et == .int32)
/-- The function is a compare-and-swap. -/
def amoCas (o : Opnd) : Bool := o.rb == 7 || o.rb == 0x19
/-- A floating-point or CF16 addition: it rounds, and Exact mode refuses it (spec/09 R211, R212). -/
def amoFltAdd (o : Opnd) : Bool := o.rb == 1 && (o.et.isFlt || o.et == .cf16)

/-- AMO: the checks of R98 and R209, the draw of words, and the access on its way (spec/09 R210). -/
def execAmo (o : Opnd) (s : State) : Out :=
  let ea := (s.g o.rc).toNat
  s.act <|
    if (amoCas o && o.ra == 31) || ((AR.ofWord s.me.arith).exact && amoFltAdd o) then s.illegalValue (.amo o)
    else match s.scalarCheck ea (amoSize o) .rw .atomic true with
      | (s1, some (c, d, a)) => s1.trap c d (BitVec.ofNat 64 a)
      | (s1, none) =>
        let (s2, ws, wrap) := if amoFltAdd o then s1.drawStoch (if o.et = .cf16 then 2 else 1) else (s1, [], none)
        (s2.issueAcc (.amo o.rb o.et.code) (modsOf o) true ws o.ra (if wrap.isSome then fRNGW else 0)
          (.amo o.ra (amoSize o) (amoSigned o))
          [s2.newPart s.cur 0 ea ea (amoSize o) 0 (s.g o.ra) (s.g (o.ra + 1))]).advance (o.halves 3)

/-- LR: a load that sets the reservation in its grant (spec/09 R213, R214). -/
def execLr (o : Opnd) (s : State) : Out :=
  let ea := (s.g o.rb).toNat
  s.act <|
    match s.scalarCheck ea 8 .r .atomic false with
    | (s1, some (c, d, a)) => s1.trap c d (BitVec.ofNat 64 a)
    | (s1, none) =>
      (s1.issueAcc .lr (modsOf o) false [] o.ra 0 (.g o.ra 8 false) [s1.newPart s.cur 0 ea ea 8 0 0 0]).advance (o.halves 3)

/-- SC: stores gA when the frame's reservation of the word stands, and answers 0 or 1 (spec/09 R213, R214). -/
def execSc (o : Opnd) (s : State) : Out :=
  let ea := (s.g o.rb).toNat
  s.act <|
    match s.scalarCheck ea 8 .rw .atomic true with
    | (s1, some (c, d, a)) => s1.trap c d (BitVec.ofNat 64 a)
    | (s1, none) =>
      (s1.issueAcc .sc (modsOf o) true [] o.ra 0 (.sc o.ra) [s1.newPart s.cur 0 ea ea 8 255 (s.g o.ra) 0]).advance
        (o.halves 3)

/-- The WAITRS access of the executing instruction, when it is on its way. -/
def State.myWait (s : State) : Option (Acc × Part) :=
  match s.accOf s.cur s.me.seq with
  | some a => if a.op = .waitrs then match a.parts with | p :: _ => some (a, p) | [] => none else none
  | none => none

/-- WAITRS: reads the word under a watch until it differs from gA, and holds its thread meanwhile (spec/09 R214).  A read
that ends with a late cause is reported, and the thread takes it at this instruction. -/
def execWaitrs (o : Opnd) (s : State) : Out :=
  let ea := (s.g o.rb).toNat
  s.act <|
    match s.myWait with
    | some (a, p) =>
      match p.stage with
      | .performed => ((s.dropAcc a.frame a.seq).setG o.ra p.val).advance (o.halves 3)
      | .failed c => (s.dropAcc a.frame a.seq).report s.cur ⟨a.seq, 0, c, p.va, a.lateDetail⟩
      | _ => s
    | none =>
      match s.scalarCheck ea 8 .r .atomic false with
      | (s1, some (c, d, a)) => s1.trap c d (BitVec.ofNat 64 a)
      | (s1, none) =>
        s1.issueAcc .waitrs (modsOf o) false [] o.ra 0 .none [s1.newPart s.cur 0 ea ea 8 0 (s.g o.ra) 0]

end Sys2Proof.Machine
end

