-- ==== Sys2Proof/Machine/VecArith.lean ====
section
/-!
DEFINITION. Machine/VecArith.lean: the frame of the page-1 instructions (spec/07 R147–R152) and the element-wise
arithmetic, logic, shifts, multiplications, dot products and conversions (R154–R159, R172, R173).
-/
namespace Sys2Proof.Machine

/-- Elements of `w` bits in the executing thread's registers (spec/07 R147). -/
def State.lanes (s : State) (w : Nat) : Nat := s.me.vbytes * 8 / w

/-- The governing predicate of element `e` in lanes of `w` bits: its lowest byte lane, inverted by PINV
(spec/07 R149). -/
def State.active (s : State) (o : Opnd) (w e : Nat) : Bool := (s.preg s.cur o.pg).testBit (e * w / 8) != o.pinv

/-- The stream registers of the instruction let it issue, hold it back, or trap (spec/08 R178, R190). -/
def State.withStreams (s : State) (reads writes : List Nat) (go : State) : State :=
  match s.streamTest s.cur reads writes with
  | .hold => s
  | .trap u r h => s.trap 0x0E (r + h * 256) (BitVec.ofNat 64 u)
  | .ok => go

/-- Takes the streams read and writes a vector destination. -/
def State.commitV (s : State) (reads : List Nat) (r v : Nat) : State :=
  (s.takeUnits s.cur reads).dstV s.cur r s.me.seq v

/-! ### Sources (spec/07 R150) -/

/-- A g register as a broadcast element: trunc(g, w), each part of INT12 and CI12 narrowed from 16 bits. -/
def bcastElem (ar : AR) (t : ET) (g : Word) : Nat × Nat :=
  let v := g.toNat % 2 ^ t.width
  if t.is12 then
    let part (x : Nat) := narrowPart ar .int12 (sextNat x 16)
    let (p, f) := part (v % 65536)
    if t = .ci12 then let (q, h) := part (v / 65536); (p + q * 65536, f ||| h) else (p, f)
  else (v, 0)

/-- A source operand: a g register for every element, or a vector register. -/
inductive VSrc where
  | bc (v fl : Nat)
  | reg (v : Nat)
  deriving DecidableEq, Repr

/-- Element `e` of a source. -/
def VSrc.at (x : VSrc) (w e : Nat) : Nat := match x with | .bc v _ => v | .reg v => laneAt v w e
/-- Flags that every element using the source has. -/
def VSrc.fl : VSrc → Nat
  | .bc _ f => f
  | .reg _ => 0

/-- Vector registers that a two-source instruction reads. -/
def srcRegs (o : Opnd) : List Nat :=
  (if o.sel = 1 then [] else [if o.hasR then o.rb else o.ra]) ++ (if o.sel = 2 then [] else [if o.hasR then o.rc else o.rb])

/-- First source: vA, or vB with PXR, or gB (spec/07 R147, R150). -/
def State.src1 (s : State) (o : Opnd) (reads : List Nat := srcRegs o) : VSrc :=
  if o.sel = 1 then let (v, f) := bcastElem (AR.ofWord s.me.arith) o.et (s.g o.rb); .bc v f
  else .reg (s.srcV s.cur (if o.hasR then o.rb else o.ra) reads)
/-- Second source: vB, or vC with PXR, or gC. -/
def State.src2 (s : State) (o : Opnd) (reads : List Nat := srcRegs o) : VSrc :=
  if o.sel = 2 then let (v, f) := bcastElem (AR.ofWord s.me.arith) o.et (s.g o.rc); .bc v f
  else .reg (s.srcV s.cur (if o.hasR then o.rc else o.rb) reads)

/-- Register of the single source of a unary or shift-immediate form: vA, or vC with PXR. -/
def unReg (o : Opnd) : Nat := if o.hasR then o.rc else o.ra

/-! ### The frame of every element-wise instruction (spec/07 R149, R152) -/

/-- Results of the active elements: element, value, flags. -/
abbrev Lanes := List (Nat × Nat × Nat)

/-- The destination: active results, else zero under ZM, else the old value. -/
def assemble (w n old : Nat) (zm : Bool) (res : Lanes) : Nat :=
  lanesNat w ((List.range n).map fun e => match res.find? fun r => r.1 == e with
    | some r => r.2.1
    | none => if zm then 0 else laneAt old w e)

/-- An element-wise instruction over `n` elements of `w` bits, governed in lanes of `gw` bits: `parts` rounding events an
element in stochastic mode, all first parts before all second ones; `op` gives an element's bits and flags. -/
def State.vmap (s : State) (o : Opnd) (reads : List Nat) (n w gw parts : Nat) (op : Nat → List Nat → Nat × Nat) : State :=
  s.withStreams reads [o.ra] <|
    let acts := (List.range n).filter (s.active o gw)
    let k := acts.length
    let (s1, ws, wrap) := s.drawStoch (parts * k)
    let res : Lanes := acts.zipIdx.map fun (e, j) => (e, op e ((List.range parts).map fun p => (ws.getD (p * k + j) 0).toNat))
    let fl : ElemFlags := (res.filterMap fun r => if r.2.2 = 0 then none else some (r.1, r.2.2)) ++
      rngwFlag wrap fun i => acts.getD (i % k) 0
    let v := assemble w n (s.oldV s.cur o.ra) o.zm res
    s1.retire (o.halves 1) fl fun t => t.commitV reads o.ra v

/-- An element-wise instruction of two sources. -/
def State.vbin (s : State) (o : Opnd) (parts : Nat) (op : AR → ET → Nat → Nat → List Nat → Nat × Nat) : State :=
  let t := o.et
  let a := s.src1 o
  let b := s.src2 o
  s.vmap o (srcRegs o) (s.lanes t.width) t.width t.width parts fun e ws =>
    let (r, f) := op (AR.ofWord s.me.arith) t (a.at t.width e) (b.at t.width e) ws
    (r, f ||| a.fl ||| b.fl)

/-- An element-wise instruction of two sources and the accumulator vA. -/
def State.vacc (s : State) (o : Opnd) (parts : Nat) (op : AR → ET → Nat → Nat → Nat → List Nat → Nat × Nat) : State :=
  let t := o.et
  let reads := o.ra :: srcRegs o
  let a := s.src1 o reads
  let b := s.src2 o reads
  let c := s.srcV s.cur o.ra reads
  s.vmap o reads (s.lanes t.width) t.width t.width parts fun e ws =>
    let (r, f) := op (AR.ofWord s.me.arith) t (a.at t.width e) (b.at t.width e) (laneAt c t.width e) ws
    (r, f ||| a.fl ||| b.fl)

/-- An element-wise instruction of one source. -/
def State.vun (s : State) (o : Opnd) (parts : Nat) (op : AR → ET → Nat → List Nat → Nat × Nat) : State :=
  let t := o.et
  let x := s.srcV s.cur (unReg o)
  s.vmap o [unReg o] (s.lanes t.width) t.width t.width parts fun e ws =>
    op (AR.ofWord s.me.arith) t (laneAt x t.width e) ws

/-! ### Element operations -/

/-- Applies an operation to each part of an element: the first part with the first word (spec/02 R37).  DEDUCED:
the flags of both parts are set, NX of one beside NV of the other included (notes/assumptions/13.md). -/
def byParts (t : ET) (a b : Nat) (ws : List Nat) (f : ET → Nat → Nat → Nat → Nat × Nat) : Nat × Nat :=
  if t.isComplex then
    let k := 2 ^ t.partWidth
    let (r, g) := f t.part (a % k) (b % k) (ws.getD 0 0)
    let (q, h) := f t.part (a / k % k) (b / k % k) (ws.getD 1 0)
    (r + q * k, g ||| h)
  else f t a b (ws.getD 0 0)

/-- Rounding events of one element of an arithmetic operation: none for integers, two for a complex type. -/
def eventsOf (t : ET) : Nat := if t == .cf16 then 2 else if t.isFlt then 1 else 0

/-- Addition or subtraction, narrowed or rounded by part (spec/07 R154). -/
def elemAdd (sub : Bool) (ar : AR) (t : ET) (a b : Nat) (ws : List Nat) : Nat × Nat :=
  byParts t a b ws fun p x y w =>
    if p.isFlt then fpAdd (fmtOf p) ar w sub x y
    else narrowPart ar p (if sub then partVal p x - partVal p y else partVal p x + partVal p y)

/-- Multiplication (spec/07 R154). -/
def elemMul (ar : AR) (t : ET) (a b : Nat) (ws : List Nat) : Nat × Nat :=
  if t.isFlt then fpMul (fmtOf t) ar (ws.getD 0 0) a b else narrowPart ar t (partVal t a * partVal t b)

/-- Minimum or maximum (spec/07 R154). -/
def elemMinMax (max : Bool) (ar : AR) (t : ET) (a b : Nat) : Nat × Nat :=
  if t.isFlt then fpMinMax (fmtOf t) ar max a b
  else
    let x := partVal t a
    let y := partVal t b
    (partBits t (if max then (if x < y then y else x) else (if y < x then y else x)), 0)

/-- Bits as an element of an INT12 or CI12 destination: the low 12 bits of each part, sign-extended (spec/02 R36). -/
def canonElem (t : ET) (v : Nat) : Nat :=
  match t with
  | .int12 => sextBits v 12 16
  | .ci12 => sextBits v 12 16 + sextBits (v / 65536) 12 16 * 65536
  | _ => v

/-- The part shifted left, exactly, then narrowed: 64 places already move every bit out (spec/07 R156). -/
def shlPart (ar : AR) (p : ET) (x sh : Nat) : Nat × Nat := narrowPart ar p (partVal p x * (2 ^ min sh 64 : Nat))
/-- The part shifted right: floor(x / 2^s) (spec/07 R156). -/
def shrPart (p : ET) (x sh : Nat) : Nat × Nat := (partBits p (partVal p x / (2 ^ min sh 64 : Nat)), 0)

/-- One part of a complex product, with the accumulator's part when given (spec/07 R158, spec/02 R49). -/
def cmulPart (ar : AR) (t : ET) (im : Bool) (a b : Nat) (acc : Option Nat) (w : Nat) : Nat × Nat :=
  let k := 2 ^ t.partWidth
  let p := a % k
  let q := a / k % k
  let x := b % k
  let y := b / k % k
  let c := acc.map fun v => if im then v / k % k else v % k
  if t == .cf16 then cfPart (fmtOf .cf16) (fmtOf .cf16) ar w im p q x y c
  else
    let v (z : Nat) := partVal t.part z
    let r := if im then v p * v y + v q * v x else v p * v x - v q * v y
    narrowPart ar t.part (r + match c with | some z => v z | none => 0)

/-- A complex product (and accumulation). -/
def elemCmul (ar : AR) (t : ET) (a b : Nat) (acc : Option Nat) (ws : List Nat) : Nat × Nat :=
  let (r, f) := cmulPart ar t false a b acc (ws.getD 0 0)
  let (i, g) := cmulPart ar t true a b acc (ws.getD 1 0)
  (r + i * 2 ^ t.partWidth, f ||| g)

/-! ### The instructions of R154–R158 -/

/-- VADD (spec/07 R154). -/
def execVadd (o : Opnd) (s : State) : Out := s.act (s.vbin o (eventsOf o.et) (elemAdd false))
/-- VSUB (spec/07 R154). -/
def execVsub (o : Opnd) (s : State) : Out := s.act (s.vbin o (eventsOf o.et) (elemAdd true))
/-- VMUL (spec/07 R154). -/
def execVmul (o : Opnd) (s : State) : Out := s.act (s.vbin o (eventsOf o.et) elemMul)
/-- VMIN (spec/07 R154). -/
def execVmin (o : Opnd) (s : State) : Out := s.act (s.vbin o 0 fun ar t a b _ => elemMinMax false ar t a b)
/-- VMAX (spec/07 R154). -/
def execVmax (o : Opnd) (s : State) : Out := s.act (s.vbin o 0 fun ar t a b _ => elemMinMax true ar t a b)
/-- VAND (spec/07 R155). -/
def execVand (o : Opnd) (s : State) : Out := s.act (s.vbin o 0 fun _ t a b _ => (canonElem t (a &&& b), 0))
/-- VOR (spec/07 R155). -/
def execVor (o : Opnd) (s : State) : Out := s.act (s.vbin o 0 fun _ t a b _ => (canonElem t (a ||| b), 0))
/-- VXOR (spec/07 R155). -/
def execVxor (o : Opnd) (s : State) : Out := s.act (s.vbin o 0 fun _ t a b _ => (canonElem t (a ^^^ b), 0))
/-- VSHL by a register: the amount of each part is the part of the second source, read unsigned (spec/07 R156). -/
def execVshl (o : Opnd) (s : State) : Out := s.act (s.vbin o 0 fun ar t a b ws => byParts t a b ws fun p x y _ => shlPart ar p x y)
/-- VSHR by a register (spec/07 R156). -/
def execVshr (o : Opnd) (s : State) : Out := s.act (s.vbin o 0 fun _ t a b ws => byParts t a b ws fun p x y _ => shrPart p x y)
/-- VSHL by an immediate (spec/07 R156). -/
def execVshlI (o : Opnd) (s : State) : Out :=
  s.act (s.vun o 0 fun ar t a ws => byParts t a 0 ws fun p x _ _ => shlPart ar p x o.uimm)
/-- VSHR by an immediate (spec/07 R156). -/
def execVshrI (o : Opnd) (s : State) : Out :=
  s.act (s.vun o 0 fun _ t a ws => byParts t a 0 ws fun p x _ _ => shrPart p x o.uimm)
/-- VCMUL (spec/07 R158). -/
def execVcmul (o : Opnd) (s : State) : Out := s.act (s.vbin o (eventsOf o.et) fun ar t a b ws => elemCmul ar t a b none ws)
/-- VCMAC (spec/07 R158). -/
def execVcmac (o : Opnd) (s : State) : Out :=
  s.act (s.vacc o (eventsOf o.et) fun ar t a b c ws => elemCmul ar t a b (some c) ws)
/-- VMAC: one narrowing of the exact sum (spec/07 R157). -/
def execVmac (o : Opnd) (s : State) : Out :=
  s.act (s.vacc o 0 fun ar t a b c _ => narrowPart ar t (partVal t c + partVal t a * partVal t b))
/-- VFMA: one rounding of the exact sum (spec/07 R157). -/
def execVfma (o : Opnd) (s : State) : Out :=
  s.act (s.vacc o 1 fun ar t a b c ws => fpDot (fmtOf t) (fmtOf t) ar (ws.getD 0 0) c [(a, b)])

/-! ### Dot products (spec/07 R159) -/

/-- Accumulator type of VDOT. -/
def dotAcc : ET → ET
  | .int8 | .int16 => .int32
  | .n8 | .n16 => .n32
  | _ => .fp32

/-- One destination lane of VDOT: the exact sum of its products and the accumulator, narrowed or rounded once. -/
def elemDot (ar : AR) (t : ET) (acc : Nat) (ps : List (Nat × Nat)) (w : Nat) : Nat × Nat :=
  let d := dotAcc t
  if d == .fp32 then fpDot (fmtOf t) fmt32 ar w acc ps
  else narrowPart ar d (ps.foldl (fun v p => v + partVal t p.1 * partVal t p.2) (partVal d acc))

/-- VDOT (spec/07 R159). -/
def execVdot (o : Opnd) (s : State) : Out :=
  let t := o.et
  let m := 32 / t.width
  let reads := o.ra :: srcRegs o
  let a := s.src1 o reads
  let b := s.src2 o reads
  let c := s.srcV s.cur o.ra reads
  s.act <| s.vmap o reads (s.lanes 32) 32 32 (if dotAcc t == .fp32 then 1 else 0) fun j ws =>
    let ps := (List.range m).map fun k => (a.at t.width (m * j + k), b.at t.width (m * j + k))
    let (r, f) := elemDot (AR.ofWord s.me.arith) t (laneAt c 32 j) ps (ws.getD 0 0)
    (r, f ||| a.fl ||| b.fl)

/-! ### The unary group (spec/07 R172) -/

/-- VABS: the magnitude, narrowed; a floating value without its sign. -/
def elemAbs (ar : AR) (t : ET) (x : Nat) : Nat × Nat :=
  if t.isFlt then (x % 2 ^ (t.width - 1), 0) else narrowPart ar t (partVal t x).natAbs
/-- VNEG by part: the negation, narrowed; a floating part with its sign inverted. -/
def elemNeg (ar : AR) (t : ET) (x : Nat) (ws : List Nat) : Nat × Nat :=
  byParts t x 0 ws fun p v _ _ =>
    if p.isFlt then (v ^^^ 2 ^ (p.width - 1), 0) else narrowPart ar p (-partVal p v)
/-- VSAT by part: clamped to the second type, written in the lane of the first. -/
def elemSat (t d : ET) (x : Nat) (ws : List Nat) : Nat × Nat :=
  byParts t x 0 ws fun p v _ _ =>
    let (r, c) := satInt d.isSigned d.valueWidth (partVal p v)
    (partBits p r, if c then fSAT else 0)

/-- VABS (spec/07 R172). -/
def execVabs (o : Opnd) (s : State) : Out := s.act (s.vun o 0 fun ar t x _ => elemAbs ar t x)
/-- VNEG (spec/07 R172). -/
def execVneg (o : Opnd) (s : State) : Out := s.act (s.vun o 0 elemNeg)
/-- VSAT (spec/07 R172). -/
def execVsat (o : Opnd) (s : State) : Out := s.act (s.vun o 0 fun _ t x ws => elemSat t (ET.ofCode o.et2) x ws)
/-- VBCAST: element 0 of the source, or a g register, in every element (spec/07 R172). -/
def execVbcast (o : Opnd) (s : State) : Out :=
  let t := o.et
  let (v, f) := if o.sel = 2 then bcastElem (AR.ofWord s.me.arith) t (s.g o.rc)
                else (canonElem t (laneAt (s.srcV s.cur (unReg o)) t.width 0), 0)
  s.act (s.vmap o (if o.sel = 2 then [] else [unReg o]) (s.lanes t.width) t.width t.width 0 fun _ _ => (v, f))

/-! ### Conversions (spec/07 R173) -/

/-- One part converted from one real type to another (spec/02 R39–R44, R47, R48). -/
def convPart (ar : AR) (d t : ET) (x w : Nat) : Nat × Nat :=
  let fl (e : ET) := e.isFlt || e.isFp8
  if fl t && fl d then fpCvt (fmtOf t) (fmtOf d) ar w x
  else if fl t then
    let (v, f) := fpToInt (fmtOf t) ar w (intMin d.isSigned d.valueWidth) (intMax d.isSigned d.valueWidth) x
    (partBits d v, f)
  else if fl d then intToFp (fmtOf d) ar w (partVal t x)
  else narrowPart ar d (partVal t x)

/-- One element converted. -/
def convElem (ar : AR) (d t : ET) (x : Nat) (ws : List Nat) : Nat × Nat :=
  if t.isComplex then
    let k := 2 ^ t.partWidth
    let (r, f) := convPart ar d.part t.part (x % k) (ws.getD 0 0)
    let (q, g) := convPart ar d.part t.part (x / k % k) (ws.getD 1 0)
    (r + q * 2 ^ d.partWidth, f ||| g)
  else convPart ar d t x (ws.getD 0 0)

/-- Rounding events of one conversion: none between integers. -/
def cvtEvents (d t : ET) : Nat :=
  let fl (e : ET) := e.isFlt || e.isFp8 || e == .cf16
  if fl d || fl t then (if t.isComplex then 2 else 1) else 0

/-- VCVT: the predicate is read in the wider layout; a narrower destination's upper lanes are zeroed (spec/07 R173). -/
def execVcvt (o : Opnd) (s : State) : Out :=
  let d := o.et
  let t := ET.ofCode o.et2
  let x := s.srcV s.cur (unReg o)
  let wide := max d.width t.width
  s.act (s.vmap o [unReg o] (s.lanes wide) d.width wide (cvtEvents d t) fun e ws =>
    convElem (AR.ofWord s.me.arith) d t (laneAt x t.width e) ws)

end Sys2Proof.Machine
end

