-- ==== Sys2Proof/Machine/VecMisc.lean ====
section
/-!
DEFINITION. Machine/VecMisc.lean: selection, comparison, loop control, rearrangement, reduction, lane moves, ternary
decoding and ganging (spec/07 R160–R165, R170, R171, R176; spec/06 R137, R139).
-/
namespace Sys2Proof.Machine

/-! ### Selection and comparison -/

/-- VSEL: every element is written; a broadcast value flags the elements that take it (spec/07 R150, R160). -/
def execVsel (o : Opnd) (s : State) : Out :=
  let t := o.et
  let a := s.src1 o
  let b := s.src2 o
  let n := s.lanes t.width
  s.act <| s.withStreams (srcRegs o) [o.ra] <|
    let res : Lanes := (List.range n).map fun e =>
      let x := if s.active o t.width e then a else b
      (e, canonElem t (x.at t.width e), x.fl)
    let fl : ElemFlags := res.filterMap fun r => if r.2.2 = 0 then none else some (r.1, r.2.2)
    s.retire (o.halves 1) fl fun u => u.commitV (srcRegs o) o.ra (assemble t.width n 0 false res)

/-- One comparison: condition 0 EQ, 1 NE, 2 LT, 3 LE (spec/07 R161). -/
def elemCmp (ar : AR) (t : ET) (cond a b : Nat) : Bool × Nat :=
  if t.isFlt || t.isFp8 then
    let f := fmtOf t
    let p := unpack f ar.daz a
    let q := unpack f ar.daz b
    let nan := p.isNan || q.isNan
    let sig := p.isSig || q.isSig
    let eq := !nan && fpEq p q
    let lt := !nan && !fpEq p q && fpLess p q
    let r := match cond with | 0 => eq | 1 => !eq | 2 => lt | _ => lt || eq
    (r, if (cond ≥ 2 && nan) || sig then fNV else 0)
  else if t == .cf16 then
    let f := fmtOf t
    let v (x k : Nat) := unpack f ar.daz (x / 2 ^ (16 * k) % 65536)
    let same (k : Nat) := fpEq (v a k) (v b k)
    let eq := same 0 && same 1
    let sig := [0, 1].any fun k => (v a k).isSig || (v b k).isSig
    (if cond = 0 then eq else !eq, if sig then fNV else 0)
  else if t.isComplex then
    let k := 2 ^ t.partWidth
    let eq := partVal t.part (a % k) == partVal t.part (b % k) && partVal t.part (a / k) == partVal t.part (b / k)
    (if cond = 0 then eq else !eq, 0)
  else
    let x := partVal t a
    let y := partVal t b
    (match cond with | 0 => x == y | 1 => x != y | 2 => decide (x < y) | _ => decide (x ≤ y), 0)

/-- A predicate from one truth value for each element: every byte-lane bit of the element (spec/01 R15). -/
def predOf (w : Nat) (l : List Bool) : Nat := lanesNat (w / 8) (l.map fun b => if b then 2 ^ (w / 8) - 1 else 0)

/-- VCMP (spec/07 R161). -/
def execVcmp (o : Opnd) (s : State) : Out :=
  let t := o.et
  let a := s.src1 o
  let b := s.src2 o
  let n := s.lanes t.width
  let d := o.ra % 8
  let old := s.preg s.cur d
  s.act <| s.withStreams (srcRegs o) [] <|
    let res := (List.range n).map fun e =>
      if s.active o t.width e then
        let (r, f) := elemCmp (AR.ofWord s.me.arith) t (o.ra / 8) (a.at t.width e) (b.at t.width e)
        (r, f ||| a.fl ||| b.fl)
      else (!o.zm && old.testBit (e * t.width / 8), 0)
    let fl : ElemFlags := res.zipIdx.filterMap fun (r, e) => if r.2 = 0 then none else some (e, r.2)
    s.retire (o.halves 1) fl fun u => (u.takeUnits u.cur (srcRegs o)).setPreg u.cur d (predOf t.width (res.map (·.1)))

/-- VWHILE (spec/07 R162). -/
def execVwhile (o : Opnd) (s : State) : Out :=
  let w := o.et.width
  let i := (s.g o.rb).toInt
  let c := (s.g o.rc).toInt
  let p := predOf w ((List.range (s.lanes w)).map fun (e : Nat) => decide (i + e < c))
  s.act ((s.setPreg s.cur (o.ra % 8) p).advance (o.halves 1))

/-- VWIDTH (spec/07 R163). -/
def execVwidth (o : Opnd) (s : State) : Out :=
  s.act ((s.setG o.ra (BitVec.ofNat 64 (s.lanes o.et.width))).advance (o.halves 1))

/-! ### Rearrangement (spec/07 R164) -/

/-- The frame of the three rearrangements: `pick` names, for an element of the destination, its source: a lane of vB, a
lane of vC, or zero. -/
def State.vmove (s : State) (o : Opnd) (pick : Nat → Nat → (Nat → Nat) → Option (Bool × Nat)) : State :=
  let t := o.et
  let n := s.lanes t.width
  let b := s.srcV s.cur o.rb [o.rb, o.rc]
  let c := s.srcV s.cur o.rc [o.rb, o.rc]
  s.vmap o [o.rb, o.rc] n t.width t.width 0 fun e _ =>
    match pick n e (laneAt c t.width) with
    | some (true, i) => (canonElem t (laneAt b t.width i), 0)
    | some (false, i) => (canonElem t (laneAt c t.width i), 0)
    | none => (0, 0)

/-- VSHUF: the element of vB that vC names, zero beyond the last. -/
def execVshuf (o : Opnd) (s : State) : Out :=
  s.act (s.vmove o fun n e c => if c e < n then some (true, c e) else none)
/-- VZIP: the low halves interleaved. -/
def execVzip (o : Opnd) (s : State) : Out := s.act (s.vmove o fun _ e _ => some (e % 2 == 0, e / 2))
/-- VUNZIP: the even elements of each source. -/
def execVunzip (o : Opnd) (s : State) : Out :=
  s.act (s.vmove o fun n e _ => some (if e < n / 2 then (true, 2 * e) else (false, 2 * (e - n / 2))))

/-! ### Reduction (spec/07 R165) -/

/-- VRED: the accumulator and the active elements in ascending order, the accumulator's NaN last (spec/07 R152); the flags of a step are the element's, and the
random words of a step stand together, real part first (spec/02 R52, R55; log 13). -/
def State.vred (s : State) (o : Opnd) (parts : Nat) (op : AR → ET → Nat → Nat → List Nat → Nat × Nat) : State :=
  let t := o.et
  let a := s.src1 o
  let x := s.src2 o
  let acts := (List.range (s.lanes t.width)).filter (s.active o t.width)
  s.withStreams (srcRegs o) [o.ra] <|
    let (s1, ws, wrap) := s.drawStoch (parts * acts.length)
    let ar := AR.ofWord s.me.arith
    let (v, fl) := acts.zipIdx.foldl (fun (p : Nat × ElemFlags) (q : Nat × Nat) =>
      let w := (List.range parts).map fun i => (ws.getD (q.2 * parts + i) 0).toNat
      let (r, f) := op ar t (x.at t.width q.1) p.1 w
      (r, addFlag p.2 q.1 (f ||| a.fl ||| x.fl))) (a.at t.width 0, [])
    s1.retire (o.halves 1) (fl ++ rngwFlag wrap fun i => acts.getD (i / parts) 0) fun u =>
      u.commitV (srcRegs o) o.ra (v % 2 ^ t.width)

/-- VRED.ADD (spec/07 R165). -/
def execVredAdd (o : Opnd) (s : State) : Out := s.act (s.vred o (eventsOf o.et) (elemAdd false))
/-- VRED.MIN (spec/07 R165). -/
def execVredMin (o : Opnd) (s : State) : Out := s.act (s.vred o 0 fun ar t a b _ => elemMinMax false ar t a b)
/-- VRED.MAX (spec/07 R165). -/
def execVredMax (o : Opnd) (s : State) : Out := s.act (s.vred o 0 fun ar t a b _ => elemMinMax true ar t a b)

/-! ### Lane moves (spec/07 R170) -/

/-- The lane of a VMOVS exists (spec/07 R170). -/
def laneOk (o : Opnd) (n : Nat) : Bool := decide (0 ≤ o.simm) && decide (o.simm < n)

/-- VMOVS to a g register: signed integer types are sign-extended, INT12 from its low 12 bits (spec/07 R170). -/
def execVmovsToG (o : Opnd) (s : State) : Out :=
  let t := o.et
  let v := laneAt (s.srcV s.cur o.rc) t.width o.simm.toNat
  let x : Word := if t.isInt && t.isSigned then BitVec.ofInt 64 (partVal t v) else BitVec.ofNat 64 v
  s.act <|
    if !laneOk o (s.lanes t.width) then s.illegalValue (.vmovsToG o)
    else s.withStreams [o.rc] [] ((((s.takeUnits s.cur [o.rc])).setG o.ra x).advance (o.halves 1))

/-- VMOVS to a lane of a vector register; SAT is the flag of that lane (spec/07 R170, R150).  DEDUCED: a bound register
offers zero in its other lanes (notes/assumptions/18.md). -/
def execVmovsToV (o : Opnd) (s : State) : Out :=
  let t := o.et
  let n := s.lanes t.width
  let (x, f) := bcastElem (AR.ofWord s.me.arith) t (s.g o.rc)
  let lane := o.simm.toNat
  s.act <|
    if !laneOk o n then s.illegalValue (.vmovsToV o)
    else s.withStreams [] [o.ra] <|
      s.retire (o.halves 1) (addFlag [] lane f) fun u =>
        u.commitV [] o.ra (assemble t.width n (s.oldV s.cur o.ra) false [(lane, x, f)])

/-! ### Ternary decoding (spec/07 R171, spec/02 R50, R51) -/

/-- VTUNP: trits of part `part`; a byte over 242 decodes to zeros and sets TRI on its five elements, and the destination
is written before trap 0x09 (spec/02 R51). -/
def execVtunp (o : Opnd) (s : State) : Out :=
  let t := o.et
  let n := s.lanes t.width
  let x := s.srcV s.cur o.rc
  let acts := (List.range n).filter (s.active o t.width)
  let trit (i : Nat) : Nat × Nat := ((o.uimm * n + i) / 5, (o.uimm * n + i) % 5)
  let res : Lanes := acts.map fun i =>
    let (j, k) := trit i
    (i, truncInt ((decodeTr5 (laneAt x 8 j)).1.getD k 0) t.width, 0)
  let bad := ((acts.map fun i => (trit i).1).eraseDups).filter fun j => (decodeTr5 (laneAt x 8 j)).2
  let fl : ElemFlags := bad.flatMap fun j => (List.range 5).map fun k => (5 * j + k, fTRI)
  let write (u : State) : State := u.commitV [o.rc] o.ra (assemble t.width n (s.oldV s.cur o.ra) o.zm res)
  s.act <| s.withStreams [o.rc] [o.ra] <|
    let s1 := s.mergeFlags s.cur fl false
    match s1.arithTrap s.cur fl false with
    | some (c, d, a) => (write s1).trap c d a
    | none => (write s1).advance (o.halves 1)

/-! ### Ganging (spec/06 R137, R139; spec/01 R20) -/

/-- The partner slot of a slot of a tile core. -/
def partnerOf (f : Nat) : Nat := if slotOf f % 2 = 0 then f + 1 else f - 1

/-- A slot holds a thread that has not halted. -/
def Frame.alive (x : Frame) : Bool := x.stat != .free

/-- The gang forms: the even slot runs it from after its GANG, the odd slot keeps the address after its own.  DEDUCED: what
the odd slot still has outstanding stays its own: its loads complete in its registers, and its late outcomes are taken at
its first boundary after the gang splits (notes/assumptions/26.md). -/
def State.formGang (s : State) (even odd : Nat) (n : Nat) : State :=
  let step (x : Frame) : Frame := { x with pc := pcAfter x.pc n, seq := x.seq + 1, since := 0, prog := 0 }
  (s.updFrame even fun x => { step x with gang := true, stat := .ready }).updFrame odd fun x =>
    { step x with stat := .gangOdd }

/-- Mark of a thread that waits at GANG for its partner. -/
def gangMark : Nat := 2 ^ 40

/-- GANG: the rendezvous of spec/06 R137; the odd slot may have no bound unit (spec/08 R187).  DEDUCED: of several the
lowest is named in TADDR (notes/assumptions/18.md). -/
def execGang (o : Opnd) (s : State) : Out :=
  let f := s.cur
  let x := s.me
  let p := partnerOf f
  let y := s.frame p
  s.act <|
    if !s.onTile ∨ slotOf f = 4 ∨ x.gang ∨ !y.alive ∨ y.launch ≠ x.launch then s.illegalValue (.gang o)
    else if slotOf f % 2 = 1 ∧ (x.units.toList.any fun u => u.kind != .unbound) then
      s.trap 0x0E 0x0B (BitVec.ofNat 64 ((x.units.toList.findIdx fun u => u.kind != .unbound)))
    else if y.stat = .ready ∧ y.prog = gangMark then
      if slotOf f % 2 = 0 then s.formGang f p (o.halves 1) else s.formGang p f (o.halves 1)
    else s.updMe fun z => { z with prog := gangMark }

/-- UNGANG: both slots are ready at their own program counters (spec/06 R139). -/
def execUngang (o : Opnd) (s : State) : Out :=
  s.act <|
    if !s.me.gang then s.illegalValue (.ungang o)
    else (s.advance (o.halves 1)).splitGang s.cur .ready

end Sys2Proof.Machine
end

