-- ==== Sys2Proof/Machine/VecMem.lean ====
section
/-!
DEFINITION. Machine/VecMem.lean: vector loads and stores (spec/07 R166–R169, spec/09 R205, R208): the addresses of the
active elements, their checks, and the accesses they make.
-/
namespace Sys2Proof.Machine

/-- Modulo 2^64. -/
def trunc64 (a : Nat) : Nat := a % 2 ^ 64

/-- The checks of spec/04 R98 on elements in ascending order: the first failing check of the lowest failing element, as
cause, DETAIL and TADDR (spec/07 R168). -/
def State.vecCheck (s : State) (need : Need) (align : Nat) : List (Nat × Nat) → State × Option (Nat × Nat × Nat)
  | [] => (s, none)
  | (a, n) :: t =>
    if a % align ≠ 0 then (s, some (0x04, 0, a))
    else match s.checkSpan s.cur a n need .other with
      | (s1, some (c, d)) => (s1, some (c, d, a))
      | (s1, none) =>
        match if need.writes then s1.guardBreach s.cur a n else none with
        | some b => (s1, some (0x07, 0, b))
        | none => s1.vecCheck need align t

/-- One piece of memory that an instruction moves: lowest element, address, bytes, value. -/
structure Piece where
  elem : Nat
  addr : Nat
  size : Nat
  val  : Nat
  deriving DecidableEq, Repr

/-- Words that pieces touch, in their order, each with its lowest element and that element's address. -/
def wordsOf (ps : List Piece) : List (Nat × Nat × Nat) :=
  ps.foldl (fun l p => (List.range p.size).foldl (fun l i =>
    let w := (p.addr + i) / 8
    if l.any (fun x => x.1 == w) then l else l ++ [(w, p.elem, p.addr)]) l) []

/-- Byte mask and data of a word under the pieces. -/
def wordData (ps : List Piece) (w : Nat) : Nat × Nat :=
  ps.foldl (fun acc p => (List.range p.size).foldl (fun (m, d) i =>
    if (p.addr + i) / 8 = w then
      (m + 2 ^ ((p.addr + i) % 8), d + p.val / 256 ^ i % 256 * 256 ^ ((p.addr + i) % 8))
    else (m, d)) acc) (0, 0)

/-- One untorn access for each aligned word that holds bytes of the pieces (spec/07 R169); `els` are the bytes of each
element, which name the lowest element of a word. -/
def State.wordParts (s : State) (els ps : List Piece) : List Part :=
  (wordsOf els).map fun (w, e, va) =>
    let (m, d) := wordData ps w
    s.newPart s.cur e va (w * 8) 8 (BitVec.ofNat 8 m) (BitVec.ofNat 64 d) 0

/-- One access for each element, one port cycle apart (spec/07 R169, spec/09 R205). -/
def State.elemParts (s : State) (ps : List Piece) : List Part :=
  ps.zipIdx.map fun (p, j) =>
    { s.newPart s.cur p.elem p.addr p.addr p.size (BitVec.ofNat 8 (2 ^ p.size - 1)) (BitVec.ofNat 64 p.val) 0 with lag := j }

/-! ### Contiguous registers (spec/07 R166) -/

/-- Effective address of page-1 loads and stores: the offset is scaled by 16. -/
def State.vecEa (s : State) (o : Opnd) : Nat := s.memEa o 16

/-- Active elements of a contiguous access: both elements of an INT12 group follow the predicate of the even one. -/
def State.vecActs (s : State) (o : Opnd) : List Nat :=
  let t := o.et
  (List.range (s.lanes t.width)).filter fun e => s.active o t.width (if t = .int12 then e / 2 * 2 else e)

/-- Address and bytes of an element, for its checks.  DEDUCED: the second element of an INT12 group has the two bytes that hold it,
from the group's second byte on (notes/assumptions/18.md). -/
def elemSpan (t : ET) (ea e : Nat) : Nat × Nat :=
  match t with
  | .int12 => (trunc64 (ea + e / 2 * 3 + e % 2), 2)
  | .ci12 => (trunc64 (ea + 3 * e), 3)
  | _ => (trunc64 (ea + e * t.msize), t.msize)

/-- Alignment that a type demands: none of the packed ones (spec/07 R168). -/
def elemAlign (t : ET) : Nat := if t.is12 then 1 else t.msize

/-- The pieces of the active elements: an INT12 group is one piece of three bytes. -/
def vecPieces (t : ET) (ea v : Nat) (acts : List Nat) : List Piece :=
  match t with
  | .int12 => (acts.filter fun e => e % 2 = 0).map fun e =>
      ⟨e, trunc64 (ea + e / 2 * 3), 3, laneAt v 16 e % 4096 + laneAt v 16 (e + 1) % 4096 * 4096⟩
  | _ => acts.map fun e => ⟨e, trunc64 (ea + e * t.msize), t.msize, memOf t (laneAt v t.width e)⟩

/-- The bytes of each active element: the two elements of an INT12 group share their middle byte. -/
def vecElems (t : ET) (ea : Nat) (acts : List Nat) : List Piece :=
  acts.map fun e => ⟨e, (elemSpan t ea e).1, (elemSpan t ea e).2, 0⟩

/-- Where the loaded bits of an element go: bit position, lane width, memory bit, memory bits, kind. -/
def elemRet (t : ET) (ea e : Nat) : Nat × Nat × Nat × Nat × Nat :=
  match t with
  | .int12 => (e * 16, 16, trunc64 (ea + e / 2 * 3) * 8 + e % 2 * 12, 12, 1)
  | .ci12 => (e * 32, 32, trunc64 (ea + 3 * e) * 8, 24, 2)
  | _ => (e * t.width, t.width, trunc64 (ea + e * t.msize) * 8, t.msize * 8, 0)

/-- Lanes that ZM zeroes. -/
def State.zeroLanes (s : State) (o : Opnd) (acts : List Nat) : List (Nat × Nat) :=
  if o.zm then ((List.range (s.lanes o.et.width)).filter fun e => !acts.contains e).map fun e => (e * o.et.width, o.et.width)
  else []

/-- Issues a vector load whose checks pass; one into a bound write stream queues its stores now (spec/08 R180). -/
def State.issueVload (s : State) (o : Opnd) (ret : Ret) (parts : List Part) : State :=
  ((s.reserveV s.cur o.ra s.me.seq).issueAcc .load (modsOf o) false [] o.ra 0 ret parts).advance (o.halves 1)

/-- Issues a vector store whose checks pass; one that stores nothing makes no access. -/
def State.issueVstore (s : State) (o : Opnd) (parts : List Part) : State :=
  (if parts.isEmpty then s else s.issueAcc .store (modsOf o) true [] o.ra 0 .none parts).advance (o.halves 1)

/-- Traps with what a check found, else goes on. -/
def State.orTrap (r : State × Option (Nat × Nat × Nat)) (go : State → State) : State :=
  match r with
  | (s1, some (c, d, a)) => s1.trap c d (BitVec.ofNat 64 a)
  | (s1, none) => go s1

/-! ### Bursts (spec/07 R166, spec/09 R208) -/

/-- Words of a burst in one register. -/
def Frame.wpr (x : Frame) : Nat := x.vbytes / 8
/-- Registers of a burst. -/
def burstRegs (o : Opnd) (wpr : Nat) : Nat := max 1 ((o.bl + 1) / wpr)
/-- The burst has a permitted length and range (spec/07 R166). -/
def burstOk (o : Opnd) (wpr : Nat) : Bool := (o.bl + 1) % wpr == 0 && o.ra + burstRegs o wpr ≤ 32

/-- The lowest bound unit in the register range of a burst (spec/07 R151). -/
def State.burstUnit (s : State) (o : Opnd) : Option Nat :=
  ((List.range (burstRegs o s.me.wpr)).map (o.ra + ·)).find? fun r => (s.me.unitAt r).isSome

/-- The words of a burst: address and value. -/
def State.burstPieces (s : State) (o : Opnd) : List Piece :=
  let wpr := s.me.wpr
  (List.range (o.bl + 1)).map fun i =>
    ⟨i, trunc64 (s.vecEa o + 8 * i), 8, laneAt (s.vreg s.cur (o.ra + i / wpr)) 64 (i % wpr)⟩

/-- The accesses of a burst: the words of register i leave i cycles after the first. -/
def State.burstParts (s : State) (o : Opnd) : List Part :=
  (s.burstPieces o).map fun p =>
    { s.newPart s.cur p.elem p.addr p.addr 8 255 (BitVec.ofNat 64 p.val) 0 with lag := p.elem / s.me.wpr }

/-- A burst, whose meaning after its checks is `go`. -/
def State.burst (s : State) (i : Instr) (o : Opnd) (need : Need) (go : State → State) : State :=
  if !burstOk o s.me.wpr then s.illegalValue i
  else match s.burstUnit o with
    | some r => s.trap 0x0E 0x0C (BitVec.ofNat 64 (r - 28))
    | none => .orTrap (s.vecCheck need 8 ((s.burstPieces o).map fun p => (p.addr, 8))) go

/-- Where the words of a burst go. -/
def State.burstRet (s : State) (o : Opnd) : Ret :=
  let wpr := s.me.wpr
  .v o.ra (burstRegs o wpr) ((s.burstPieces o).map fun p =>
    (p.elem / wpr * 256 + p.elem % wpr * 64, 64, p.addr * 8, 64, 0)) []

/-- VLD: a register, or a burst of registers (spec/07 R166). -/
def execVld (o : Opnd) (s : State) : Out :=
  let t := o.et
  let ea := s.vecEa o
  s.act <|
    if o.bl ≠ 0 then s.burst (.vld o) o .r fun s1 => s1.issueVload o (s.burstRet o) (s.burstParts o)
    else
      let acts := s.vecActs o
      s.withStreams [] [o.ra] <|
        .orTrap (s.vecCheck .r (elemAlign t) (acts.map (elemSpan t ea))) fun s1 =>
          s1.issueVload o (.v o.ra 1 (acts.map (elemRet t ea)) (s.zeroLanes o acts))
            (s1.wordParts (vecElems t ea acts) (vecPieces t ea 0 acts))

/-- The post line that a store of eight words names as a whole (spec/15 R333). -/
def postLine (ea bl : Nat) : Option Nat :=
  match windowOf ea with
  | .aperture o => if bl = 7 ∧ o % 64 = 0 ∧ o < 64 * 4096 then some (o / 64) else none
  | _ => none

/-- Checks a post of a device thread: AW, the partition, and a valid tag that accepts posts of device threads
(spec/15 R333). -/
def State.postCheck (s : State) (f tag : Nat) : State × Option Denial :=
  match rightsOutcome .w (s.hdrRights f 16) with
  | (s1, some d) => (s1, some d)
  | (s1, none) =>
    let mine := coreOf f = mgmtCore ∨ s1.tagPart tag = (s1.frame f).part
    (s1, if mine ∧ s1.regField (.tctl tag) 3 3 = 1 ∧ s1.regField (.tctl tag) 6 6 = 1 then none else some (0x05, 0))

/-- A post: one store of a whole post line, under the phase guard (spec/09 R220), performed when its slot is written
(spec/15 R333, R334). -/
def State.post (s : State) (o : Opnd) (tag : Nat) : State :=
  if !burstOk o s.me.wpr then s.illegalValue (.vst o)
  else match s.burstUnit o with
    | some r => s.trap 0x0E 0x0C (BitVec.ofNat 64 (r - 28))
    | none => match s.postCheck s.cur tag with
      | (s1, some (c, d)) => s1.trap c d (BitVec.ofNat 64 (s.vecEa o))
      | (s1, none) => match s1.guardBreach s1.cur (s.vecEa o) 64 with
        | some b => s1.trap 0x07 0 (BitVec.ofNat 64 b)
        | none => s1.issueVstore o (s.burstParts o)

/-- VST: a register, or a burst of registers (spec/07 R166); a burst of a whole post line is a post. -/
def execVst (o : Opnd) (s : State) : Out :=
  let t := o.et
  let ea := s.vecEa o
  s.act <|
    if o.bl ≠ 0 then match postLine ea o.bl with
      | some tag => s.post o tag
      | none => s.burst (.vst o) o .w fun s1 => s1.issueVstore o (s.burstParts o)
    else
      let acts := s.vecActs o
      let v := s.srcV s.cur o.ra
      s.withStreams [o.ra] [] <|
        .orTrap (s.vecCheck .w (elemAlign t) (acts.map (elemSpan t ea))) fun s1 =>
          (s1.takeUnits s1.cur [o.ra]).issueVstore o (s1.wordParts (vecElems t ea acts) (vecPieces t ea v acts))

/-! ### Strided and indexed accesses (spec/07 R167) -/

/-- Address of element `e` under a signed stride. -/
def stridedAddr (ea : Nat) (stride : Int) (e : Nat) : Nat := (((ea : Int) + e * stride) % (2 ^ 64 : Nat)).toNat

/-- The pieces of a strided or indexed access. -/
def State.gatherPieces (s : State) (o : Opnd) (v : Nat) (addr : Nat → Nat) : List Piece :=
  let t := o.et
  ((List.range (s.lanes t.width)).filter (s.active o t.width)).map fun e => ⟨e, addr e, t.msize, laneAt v t.width e⟩

/-- A load of one access for each active element. -/
def State.gather (s : State) (o : Opnd) (reads : List Nat) (addr : Nat → Nat) : State :=
  let t := o.et
  let ps := s.gatherPieces o 0 addr
  s.withStreams reads [o.ra] <|
    .orTrap (s.vecCheck .r t.msize (ps.map fun p => (p.addr, p.size))) fun s1 =>
      (s1.takeUnits s1.cur reads).issueVload o
        (.v o.ra 1 (ps.map fun p => (p.elem * t.width, t.width, p.addr * 8, t.msize * 8, 3)) (s.zeroLanes o (ps.map (·.elem))))
        (s1.elemParts ps)

/-- VLDS: a stride in bytes from a g register. -/
def execVlds (o : Opnd) (s : State) : Out :=
  s.act (s.gather o [] (stridedAddr (s.vecEa o) (s.g o.rc).toInt))

/-- VLDX: an index vector, scaled by the memory size. -/
def execVldx (o : Opnd) (s : State) : Out :=
  let c := s.srcV s.cur o.rc
  s.act (s.gather o [o.rc] fun e => trunc64 (s.vecEa o + laneAt c o.et.width e * o.et.msize))

/-- VSTS: stores of the active elements at a stride. -/
def execVsts (o : Opnd) (s : State) : Out :=
  let t := o.et
  let ps := s.gatherPieces o (s.srcV s.cur o.ra) (stridedAddr (s.vecEa o) (s.g o.rc).toInt)
  s.act <| s.withStreams [o.ra] [] <|
    .orTrap (s.vecCheck .w t.msize (ps.map fun p => (p.addr, p.size))) fun s1 =>
      (s1.takeUnits s1.cur [o.ra]).issueVstore o (s1.elemParts ps)

end Sys2Proof.Machine
end

