-- ==== Sys2Proof/Machine/Special.lean ====
section
/-!
DEFINITION. Machine/Special.lean: the special functions (spec/07 R174, R175): the correctly rounded reference result, in
both values of EXACT, and the table of special operands.
-/
namespace Sys2Proof.Machine

/-- The result of an operand that is no ordinary one: a NaN, else what `inf` gives for an infinity and `fin` for a finite
value, each an exact value and its flags. -/
def special (f : Fmt) (ar : AR) (w x : Nat) (inf : Bool → Exact × Nat) (fin : Ex → Exact × Nat) : Nat × Nat :=
  match unpack f ar.daz x with
  | .nan n => finish f ar w (.nan n) n.sig
  | .inf s => let (r, fl) := inf s; let (b, g) := finish f ar w r false; (b, g ||| fl)
  | .fin z => let (r, fl) := fin z; let (b, g) := finish f ar w r false; (b, g ||| fl)

/-- +0 or −0 as an exact value. -/
def exZero (neg : Bool) : Exact := .fin ⟨neg, 0, 0, false⟩

/-- 1 / x. -/
def spRcp (ar : AR) (t : ET) (x : Nat) (ws : List Nat) : Nat × Nat :=
  special (fmtOf t) ar (ws.getD 0 0) x (fun s => (exZero s, 0))
    fun z => if z.m = 0 then (.inf z.neg, fDZ) else (.fin (exRcp z), 0)

/-- 1 / √x. -/
def spRsq (ar : AR) (t : ET) (x : Nat) (ws : List Nat) : Nat × Nat :=
  special (fmtOf t) ar (ws.getD 0 0) x (fun s => if s then (.invalid, 0) else (exZero false, 0))
    fun z => if z.m = 0 then (.inf z.neg, fDZ) else if z.neg then (.invalid, 0) else (.fin (exRsq z), 0)

/-- 2^x. -/
def spExp2 (ar : AR) (t : ET) (x : Nat) (ws : List Nat) : Nat × Nat :=
  special (fmtOf t) ar (ws.getD 0 0) x (fun s => (if s then exZero false else .inf false, 0))
    fun z => (.fin (exExp2 z), 0)

/-- log₂ x. -/
def spLog2 (ar : AR) (t : ET) (x : Nat) (ws : List Nat) : Nat × Nat :=
  special (fmtOf t) ar (ws.getD 0 0) x (fun s => if s then (.invalid, 0) else (.inf false, 0))
    fun z => if z.m = 0 then (.inf true, fDZ) else if z.neg then (.invalid, 0) else (.fin (exLog2 z), 0)

/-- cos(2πx) + i sin(2πx) of the FP16 real part: all cos events stand before all sin events. -/
def spSincos (ar : AR) (t : ET) (x : Nat) (ws : List Nat) : Nat × Nat :=
  let f := fmtOf t
  let part (sin : Bool) (w : Nat) : Nat × Nat :=
    special f ar w (x % 65536) (fun _ => (.invalid, 0)) fun z => (.fin (if sin then (exSinCos z).2 else (exSinCos z).1), 0)
  let (c, g) := part false (ws.getD 0 0)
  let (n, h) := part true (ws.getD 1 0)
  (c + n * 65536, g ||| h)

/-- VRCP (spec/07 R174). -/
def execVrcp (o : Opnd) (s : State) : Out := s.act (s.vun o 1 spRcp)
/-- VRSQ (spec/07 R174). -/
def execVrsq (o : Opnd) (s : State) : Out := s.act (s.vun o 1 spRsq)
/-- VEXP2 (spec/07 R174). -/
def execVexp2 (o : Opnd) (s : State) : Out := s.act (s.vun o 1 spExp2)
/-- VLOG2 (spec/07 R174). -/
def execVlog2 (o : Opnd) (s : State) : Out := s.act (s.vun o 1 spLog2)
/-- VSINCOS (spec/07 R174). -/
def execVsincos (o : Opnd) (s : State) : Out := s.act (s.vun o 2 spSincos)

end Sys2Proof.Machine
end

