-- ==== Sys2Proof/Machine/Stream.lean ====
section
/-!
DEFINITION. Machine/Stream.lean: the stream instructions, the inbox instructions and FENCEX (spec/08 R177–R196), and the two
events of address generators (R180, R182).
-/
namespace Sys2Proof.Machine

/-- A page-2 instruction exists on the cores of a tile alone (spec/06 R146). -/
def State.tileOnly (s : State) (i : Instr) (go : State) : State := if s.onTile then go else s.illegalValue i

/-- Trap 0x0E: unit number in TADDR, reason in DETAIL (spec/08 R190). -/
def State.streamTrap (s : State) (n reason : Nat) : State := s.trap 0x0E reason (BitVec.ofNat 64 n)

/-- The unit may be unbound now: its queued stores are performed and no load is on its way to it (spec/08 R189). -/
def State.unitIdle (s : State) (f n : Nat) : Bool :=
  match ((s.frame f).units[n]?) with
  | some u => u.stores.isEmpty && !(s.busyV f).contains (28 + n)
  | none => true

/-- Unbinds a unit: a channel unit frees its item's slot; the register reads zero afterwards (spec/08 R189, spec/01 R16). -/
def State.unbind (s : State) (f n : Nat) : State :=
  match ((s.frame f).units[n]?) with
  | some u => if u.kind = .unbound then s else ((s.freeItem f u).setUnit f n Unit.none).setVreg f (28 + n) 0
  | none => s

/-- Ends a binding and makes a new one, once the earlier one has drained.  The value that the register held is discarded:
zero takes its place, in both slots of a gang, and the odd slot reads that zero when the gang splits while the unit is
bound (spec/01 R16).  DEDUCED: the spec names no other value (notes/assumptions/18.md). -/
def State.rebind (s : State) (n halves : Nat) (u : Unit) : State :=
  if s.unitIdle s.cur n then (((s.unbind s.cur n).setVreg s.cur (28 + n) 0).setUnit s.cur n { u with seq := s.me.seq }).advance halves else s

/-! ### Address generators (spec/08 R179) -/

/-- The generator that a base and a configuration name. -/
def genUnit (base cfg : Word) : Unit :=
  let c := cfg.toNat
  { Unit.none with kind := .gen, dir := c.testBit 4, et := c % 16, count := c / 256 % 2 ^ 24,
                   stride := sextNat (c / 2 ^ 32) 32, base := base.toNat }

/-- The configuration is valid (spec/08 R179, reason 0x05). -/
def genValid (base cfg : Word) : Bool :=
  let c := cfg.toNat
  let t := ET.ofCode (c % 16)
  c / 32 % 8 == 0 && c / 256 % 2 ^ 24 ≠ 0 && t != .int12 &&
    (t == .ci12 || (base.toNat % t.msize == 0 && sextNat (c / 2 ^ 32) 32 % t.msize == 0))

/-- The span lies in the own cluster's L1 window: the first byte of the first element and the last byte of the last one
(reason 0x06). -/
def genInside (u : Unit) : Bool :=
  u.elemAddr 0 < l1Bytes && (u.elemAddr (u.count - 1) + (ET.ofCode u.et).msize - 1) < l1Bytes

/-- STBIND: binds an address generator (spec/08 R179). -/
def execStbind (o : Opnd) (s : State) : Out :=
  let n := o.ra
  let u := genUnit (s.g o.rb) (s.g o.rc)
  s.act <| s.tileOnly (.stbind o) <|
    if !genValid (s.g o.rb) (s.g o.rc) then s.streamTrap n 5
    else if !genInside u then s.streamTrap n 6
    else s.rebind n (o.halves 2) u

/-! ### Channels and neighbour flows -/

/-- The kernel header of the thread's launch declares the channel for receiving (spec/08 R183, spec/03 R82). -/
def State.declares (s : State) (f c role : Nat) : Bool :=
  match (s.frame f).launch with
  | some e => (s.entry e).hdr.chans.any fun (i, _, r) => i == c && r.testBit role
  | none => false

/-- STBINDC: binds the arrival queue of a channel (spec/08 R183). -/
def execStbindc (o : Opnd) (s : State) : Out :=
  s.act <| s.tileOnly (.stbindc o) <|
    if s.declares s.cur o.uimm 1 then s.rebind o.ra (o.halves 2) { Unit.none with kind := .chan, id := o.uimm }
    else s.streamTrap o.ra 7

/-- Another unit of the core holds the flow of a side (spec/08 R185). -/
def State.flowTaken (s : State) (f n side : Nat) : Bool :=
  (List.range 5).any fun k =>
    let g := coreOf f * 5 + k
    (List.range 4).any fun m => match (s.frame g).units[m]? with
      | some u => u.kind == .nbr && u.id == side && !(g == f && m == n)
      | none => false

/-- STBINDN: binds a neighbour flow; A holds FWD and the unit (spec/08 R185, R186). -/
def execStbindn (o : Opnd) (s : State) : Out :=
  let n := o.ra % 4
  s.act <| s.tileOnly (.stbindn o) <|
    if s.flowTaken s.cur n o.uimm then s.streamTrap n 8
    else s.rebind n (o.halves 2) { Unit.none with kind := .nbr, id := o.uimm, dir := o.ra.testBit 2 }

/-- STUNBIND: ends a binding, once it has drained (spec/08 R189). -/
def execStunbind (o : Opnd) (s : State) : Out :=
  s.act <| s.tileOnly (.stunbind o) <|
    if s.unitIdle s.cur o.ra then (s.unbind s.cur o.ra).advance (o.halves 2) else s

/-- FILL of STSTAT: registers in the queue, words in the link, or items waiting. -/
def State.unitFill (s : State) (f : Nat) (u : Unit) : Nat :=
  let n := (s.frame f).unitElems u
  match u.kind with
  | .unbound => 0
  | .gen => if u.dir then u.stores.length
            else u.data.length / n + (if u.ahead ≥ u.count ∧ u.data.length % n ≠ 0 then 1 else 0)
  | .chan => (s.chan (clusterOf (coreOf f)) u.id).items.length
  | .nbr => (s.linkWords (coreOf f) (inLink (coreOf f) u.id)).length

/-- The status word of a unit (spec/08, STSTAT). -/
def State.unitWord (s : State) (f : Nat) (u : Unit) : Word :=
  let kind := match u.kind with | .unbound => 0 | .gen => 1 | .chan => 2 | .nbr => 3
  let low := kind + (if u.dir then 4 else 0) + s.unitFill f u % 32 * 16
  match u.fault with
  | some (c, a) => BitVec.ofNat 64 (low + 8 + c % 128 * 512 + a % 2 ^ 48 * 65536)
  | none =>
    let rem := match u.kind with | .gen => u.count - u.next | .chan => u.item.length | _ => 0
    let id := match u.kind with | .chan | .nbr => u.id | _ => 0
    BitVec.ofNat 64 (low + rem % 2 ^ 24 * 65536 + id % 64 * 2 ^ 40)

/-- STSTAT: reads a unit's state. -/
def execStstat (o : Opnd) (s : State) : Out :=
  s.act <| s.tileOnly (.ststat o) <|
    (s.setG o.ra (s.unitWord s.cur (s.me.units.getD (o.uimm % 4) Unit.none))).advance (o.halves 2)

/-! ### FENCEX (spec/08 R196) -/

/-- Every store, AMO, SC, ticketed update and write-stream element of a frame is performed at its target; an atomic that has
failed is still to report its late outcome. -/
def State.storesDone (s : State) (f : Nat) : Bool :=
  (s.pendingOf f).all (fun a => !a.writes || a.parts.all fun p => p.stage == .performed) && (s.frame f).tickets.all (fun t => t.isNone) &&
    (s.frame f).units.toList.all fun u => u.stores.isEmpty

/-- Every write so far is ordered before the frame's later commands of the selected engines (spec/08 R196; log 35). -/
def State.orderStores (s : State) (f : Nat) (copy mat : Bool) : State :=
  s.updFrame f fun x => { x with fenceC := if copy then s.olds else x.fenceC, fenceM := if mat then s.olds else x.fenceM }

/-- FENCEX: waits until the thread's earlier stores are performed, and orders them for the selected engines. -/
def State.fencex (s : State) (i : Instr) (o : Opnd) (copy mat : Bool) : State :=
  s.tileOnly i <| if s.storesDone s.cur then (s.orderStores s.cur copy mat).advance (o.halves 2) else s

/-- FENCEX, all paths. -/
def execFencex (o : Opnd) (s : State) : Out := s.act (s.fencex (.fencex o) o true true)
/-- FENCEX.COPY. -/
def execFencexCopy (o : Opnd) (s : State) : Out := s.act (s.fencex (.fencexCopy o) o true false)
/-- FENCEX.MATRIX. -/
def execFencexMatrix (o : Opnd) (s : State) : Out := s.act (s.fencex (.fencexMatrix o) o false true)

/-! ### The inbox (spec/08 R194, R195) -/

/-- An entry belongs to a frame: URG and SLOT. -/
def entryFor (f : Nat) (e : Entry) : Bool :=
  e.word.toNat.testBit 4 == (slotOf f == 4) && (slotOf f == 4 || e.word.toNat / 64 % 4 == slotOf f)

/-- Removes the oldest entry of a frame; a pending poison event enters first (spec/08 R195). -/
def Inbox.take (x : Inbox) (f : Nat) : Option (Entry × Inbox) :=
  match findAt (entryFor f) x.entries 0 with
  | some (i, e) =>
    let rest := dropAt x.entries i
    some (e, match x.pending with
      | some p => ⟨rest ++ [p], none⟩
      | none => ⟨rest, none⟩)
  | none => none

/-- The executing frame's part of the inbox. -/
def State.myInbox (s : State) : Inbox := (s.core s.myCore).inbox s.inUrgent

/-- The record of a command, with a change. -/
def State.updCmd (s : State) (f serial : Nat) (u : CmdRec → CmdRec) : State :=
  s.updFrame f fun x => { x with cmds := updWhere (fun c => c.serial == serial) u x.cmds }

/-- Flags of a command that have not merged yet. -/
def State.cmdFlags (s : State) (f : Nat) (e : Entry) : ElemFlags :=
  match e.serial with
  | none => []
  | some n => match (s.frame f).cmds.find? fun c => c.serial == n with
    | some c => if c.merged then [] else c.flags
    | none => []

/-- What a popped completion raises once INPOP has retired: 0x0D for ERR, 0x11 for DEAD, else the arithmetic trap of the
command's flags (spec/08 INPOP, spec/10 R236, spec/11 R251). -/
def State.popOutcome (s : State) (e : Entry) : State :=
  let w := e.word.toNat
  let kind := w % 16
  if kind ≠ 1 ∧ kind ≠ 2 then s
  else
    let l := s.cmdFlags s.cur e
    let s1 := s.mergeFlags s.cur l true
    let s2 := match e.serial with
      | some n => s1.updCmd s.cur n fun c => { c with merged := true, popped := true }
      | none => s1
    let tag := BitVec.ofNat 64 (w / 65536 % 65536)
    if w.testBit 5 then s2.trapAfter 0x0D (kind - 1) tag
    else if kind = 1 ∧ w / 256 % 256 = 7 then s2.trapAfter 0x11 0 tag
    else match s2.arithTrap s.cur l true with
      | some (c, d, a) => s2.trapAfter c d a
      | none => s2

/-- INPOP: takes the oldest entry of the issuing frame, or waits for one. -/
def execInpop (o : Opnd) (s : State) : Out :=
  s.act <| s.tileOnly (.inpop o) <|
    match s.myInbox.take s.cur with
    | none => s
    | some (e, x) =>
      let s1 := s.updCore s.myCore fun c => c.setInbox s.inUrgent x
      ((s1.setG o.ra e.word).advance (o.halves 2)).popOutcome e

/-- INPEEK: reads that entry without taking it; 0 when there is none. -/
def execInpeek (o : Opnd) (s : State) : Out :=
  s.act <| s.tileOnly (.inpeek o) <|
    let w := match s.myInbox.take s.cur with | some (e, _) => e.word | none => 0
    (s.setG o.ra w).advance (o.halves 2)

/-! ### Events of address generators (spec/08 R180, R182) -/

/-- Nothing earlier of the thread keeps back a stream access at number `seq`: no earlier access to a byte of it, nor an
earlier strong one, a ticketed update among them, is still to be performed. -/
def State.streamClear (s : State) (f seq addr size : Nat) : Bool :=
  let pcl := clusterOf (coreOf f)
  ((s.pendingOf f).all fun a => a.seq ≥ seq || a.parts.all fun p => p.done || !(a.strong || match p.tgt with
    | .l1 q o => q == pcl && o < addr + size && addr < o + p.size
    | _ => false)) &&
  !(s.frame f).streamBlocks seq false (some (addr, size)) && !(s.frame f).updWaits seq false

/-- Bytes of the own L1 that a stream reads: none when a word of them is poisoned. -/
def State.streamRead (s : State) (pcl addr n : Nat) : Option Nat :=
  if s.poisoned (l1Key pcl addr) || s.poisoned (l1Key pcl (addr + n - 1)) then none else some (s.readN (l1Key pcl addr) n)

/-- Words that hold `n` bytes from an L1 offset on. -/
def wordsAt (a n : Nat) : List Nat := [a / 8 * 8, (a + n - 1) / 8 * 8].eraseDups

/-- The banks of words of the own L1 would grant the streams of a frame now: they stand there as its core's port, and in its
class (spec/08 R180, spec/09 R207). -/
def State.streamYields (s : State) (f : Nat) (offs : List Nat) : Bool :=
  s.banksYield (clusterOf (coreOf f)) offs (coreOf f % 1024) (slotOf f == 4)

/-- The banks of words of the own L1 have granted a frame's streams. -/
def State.streamTook (s : State) (f : Nat) (offs : List Nat) : State :=
  offs.foldl (fun s o => s.bankTook (clusterOf (coreOf f)) o (coreOf f % 1024)) s

/-- STREAM_GENERATOR_READ: a read stream reads its next element into the load-data queue, at most four registers ahead, once
the bank grants it; a check that fails or a poisoned element puts the unit in FAULT. -/
def execStreamGeneratorRead (frame unit : Nat) (s : State) : Out :=
  s.act <|
    let x := s.frame frame
    match x.units[unit]? with
    | none => s
    | some u =>
      let n := (ET.ofCode u.et).msize
      let a := u.elemAddr u.ahead
      if u.kind ≠ .gen ∨ u.dir ∨ u.fault.isSome ∨ u.ahead ≥ u.count ∨ u.data.length ≥ 4 * x.unitElems u ∨ x.frozen ∨
          !s.streamClear frame u.seq a n then s
      else match s.checkSpan frame a n .r .other with
        | (s1, some _) => s1.setUnit frame unit { u with fault := some (0x05, a) }
        | (s1, none) =>
          if !s1.streamYields frame (wordsAt a n) then s
          else match s1.streamRead (clusterOf (coreOf frame)) a n with
          | some v => (s1.streamTook frame (wordsAt a n)).setUnit frame unit
              { u with ahead := u.ahead + 1, data := u.data ++ [BitVec.ofNat 64 v] }
          | none => (s1.streamTook frame (wordsAt a n)).setUnit frame unit { u with fault := some (0x0B, a) }

/-- The leading stores of a register that go to one aligned word and name no byte twice. -/
def storeRun : List UStore → List UStore → List UStore
  | acc, [] => acc
  | acc, st :: t =>
    match acc with
    | [] => storeRun [st] t
    | h :: _ =>
      if st.addr / 8 = h.addr / 8 ∧ !acc.any (fun q => q.addr < st.addr + st.size && st.addr < q.addr + q.size) then
        storeRun (acc ++ [st]) t
      else acc

/-- The stores of a run that pass the checks of their elements, and the underlying cause and element of the first that
does not (spec/08 R182). -/
def State.runCheck (s : State) (f : Nat) (u : Unit) (ph : Word) : List UStore → State × List UStore × Option (Nat × UStore)
  | [] => (s, [], none)
  | st :: t =>
    let n := (ET.ofCode u.et).msize
    let a := u.elemAddr st.elem
    match s.checkSpan f a n .w .other with
    | (s1, some _) => (s1, [], some (0x05, st))
    | (s1, none) =>
      if guardOn ph (s1.frame f).priv ∧ (outsideHome (s1.homeSpans f) a n).isSome then (s1, [], some (0x07, st))
      else
        let (s2, l, e) := s1.runCheck f u ph t
        (s2, st :: l, e)

/-- Performs stores of one word as one untorn write. -/
def State.performRun (s : State) (f : Nat) (l : List UStore) : State :=
  match l with
  | [] => s
  | h :: _ =>
    let w := h.addr / 8
    let (m, d) := wordData (l.map fun st => ⟨st.elem, st.addr, st.size, st.data.toNat⟩) w
    let k := l1Key (clusterOf (coreOf f)) (w * 8)
    (s.performWrite (some f) h.addr k k 8 (BitVec.ofNat 64 d) m).streamTook f [w * 8]

/-- STREAM_STORE_PERFORM: a write stream performs the next word of its oldest register once its bank grants it; a refused element puts the unit in
FAULT, nothing later is stored, and the fault is a late outcome of the offering instruction. -/
def execStreamStorePerform (frame unit : Nat) (s : State) : Out :=
  s.act <|
    match (s.frame frame).units[unit]? with
    | none => s
    | some u =>
      match u.stores, u.phases with
      | reg :: regs, ph :: phs =>
        let run := storeRun [] reg
        if !run.all (fun st => st.ready && s.streamClear frame st.seq st.addr st.size) then s
        else
          let (s1, good, bad) := s.runCheck frame u ph run
          if !s1.streamYields frame (good.map fun st => st.addr / 8 * 8).eraseDups then s
          else
          let s2 := s1.performRun frame good
          match bad with
          | some (c, st) =>
            (s2.setUnit frame unit { u with stores := [], phases := [], fault := some (c, u.elemAddr st.elem) }).report frame
              ⟨st.seq, 0, 0x0E, unit, 4 + c * 256⟩
          | none =>
            let rest := reg.drop good.length
            s2.setUnit frame unit (if rest.isEmpty then { u with stores := regs, phases := phs }
                                   else { u with stores := rest :: regs })
      | _, _ => s

end Sys2Proof.Machine
end

