-- ==== Sys2Proof/Machine/TileTable.lean ====
section
/-!
DEFINITION. Machine/TileTable.lean: the tile table (spec/10 R223–R229) with its instructions, the command queues of a core
(spec/08 R191–R193), the accesses that an engine makes for a command (spec/10 R233, spec/14 R306), and the completion
entries (spec/08 R194, R195).
-/
namespace Sys2Proof.Machine

/-! ### Descriptors -/

/-- Descriptor `n` of a tile. -/
def Tile.desc (t : Tile) (n : Nat) : Desc := lookD t.descs n .none
/-- Changes a descriptor of a tile. -/
def State.updDesc (s : State) (tile n : Nat) (u : Desc → Desc) : State :=
  s.updTile tile fun t => { t with descs := put t.descs n (u (t.desc n)) }

/-- Fields of a shape (spec/10 R224). -/
def shapeEt (w : Word) : ET := ET.ofCode (w.toNat % 16)
/-- Rows. -/
def shapeRows (w : Word) : Nat := w.toNat / 16 % 256 + 1
/-- Elements per row. -/
def shapeCols (w : Word) : Nat := w.toNat / 4096 % 256 + 1
/-- Bytes from row to row. -/
def shapeStride (w : Word) : Nat := w.toNat / 2 ^ 20 % 65536
/-- Row length in bytes. -/
def shapeRow (w : Word) : Nat := shapeCols w * (shapeEt w).msize
/-- A valid shape. -/
def shapeOk (w : Word) : Bool :=
  shapeEt w != .int12 && w.toNat / 2 ^ 36 == 0 && shapeStride w % 8 == 0 && shapeRow w ≤ shapeStride w
/-- Bytes of the span. -/
def shapeSpan (w : Word) : Nat := (shapeRows w - 1) * shapeStride w + shapeRow w

/-- A placed urgent launch holds the urgent range of a tile (spec/10 R223). -/
def State.urgentHolds (s : State) (tile : Nat) : Bool :=
  s.launches.any fun p => p.2.urgent && p.2.resident && !p.2.disp && p.2.tileKeys.contains tile

/-- A frame may name the descriptor (spec/10 R223): in the urgent range, a handler frame its own and, while no urgent launch
holds the range, one that is not defined; an urgent launch every one that no handler frame owns. -/
def State.descAllowed (s : State) (f n : Nat) : Bool :=
  let d := (s.tile (tileOf (coreOf f))).desc n
  if slotOf f ≠ 4 then n < 56
  else if n < 56 ∨ n > 63 then false
  else match (s.frame f).kind with
    | .handler _ => if d.defd then d.owner == some f else !s.urgentHolds (tileOf (coreOf f))
    | _ => d.owner.isNone

/-- Goes on with a descriptor number that the frame may name; otherwise trap 0x01 with the number (spec/10 R223). -/
def State.withDesc (s : State) (i : Instr) (n : Word) (go : State) : State :=
  if s.descAllowed s.cur n.toNat then go else s.illegalAddr i n

/-- The lowest byte of a descriptor's span that may not be stored to, with the DETAIL of its trap (spec/10 TDEF, spec/04 R98
check 3, spec/09 R202, spec/14 R308). -/
def State.spanDenied (s : State) (f base len : Nat) : State × Option (Nat × Nat) :=
  match windowOf base with
  | .own _ =>
    match s.checkAddr f base 1 .w .other with
    | (s1, some (_, d)) => (s1, some (d, base))
    | (s1, none) =>
      let lim := if slotOf f = 4 then l1Bytes else ubOf (s.l1mapOf (clusterOf (coreOf f)))
      (s1, if base + len > lim then some (0, max base lim) else none)
  | _ => (s, some (0, base))

/-- The word of TSTATE (spec/10 R225). -/
def descWord (n : Nat) (d : Desc) : Word :=
  let st := match d.st with | .empty => 0 | .filling => 1 | .ready => 2 | .draining => 3
  BitVec.ofNat 64 (st + (if d.defd then 4 else 0) + (if d.err then 8 else 0) + (if n ≥ 56 then 16 else 0) +
    d.readers % 256 * 256 + d.shape.toNat % 2 ^ 36 * 65536)

/-- TSTATE: reads a descriptor. -/
def execTstate (o : Opnd) (s : State) : Out :=
  let n := s.g o.rb
  s.act <| s.tileOnly (.tstate o) <| s.withDesc (.tstate o) n <|
    (s.setG o.ra (descWord n.toNat ((s.tile (tileOf s.myCore)).desc n.toNat))).advance (o.halves 2)

/-- The TREL row of spec/10 R226. -/
def Desc.release (d : Desc) : Desc :=
  match d.st with
  | .ready => { d with st := if d.readers = 0 then .empty else .draining }
  | _ => d

/-- What a command that names a descriptor meets at its take (spec/10 R226). -/
inductive DTake where
  | nodef | wait | ok
  deriving DecidableEq, Repr

/-- A fill or a drain takes an EMPTY or a READY descriptor, a reader a READY one. -/
def Desc.take (d : Desc) (fill : Bool) : DTake :=
  match d.st with
  | .empty => if !d.defd then .nodef else if fill then .ok else .wait
  | .ready => if fill then .wait else .ok
  | _ => .wait

/-- The descriptor once a fill has taken it. -/
def Desc.filled (d : Desc) : Desc := { d with st := .filling, err := false }
/-- The descriptor once a reader, or a drain, has taken it. -/
def Desc.read (d : Desc) (drain : Bool) : Desc :=
  { d with st := if drain then .draining else d.st, readers := d.readers + 1 }
/-- The last write of a fill is performed: READY, with ERR when its status is not DONE. -/
def Desc.fillEnds (d : Desc) (ok : Bool) : Desc := if d.st = .filling then { d with st := .ready, err := !ok } else d
/-- A reader ends its reads. -/
def Desc.readEnds (d : Desc) : Desc :=
  { d with readers := d.readers - 1, st := if d.st = .draining ∧ d.readers ≤ 1 then .empty else d.st }

/-! ### Command queues (spec/08 R191–R193) -/

/-- A command queue of a core. -/
def CoreSt.queue (c : CoreSt) (mat urg : Bool) : List Cmd :=
  if mat then (if urg then c.matU else c.matN) else (if urg then c.copyU else c.copyN)
/-- Writes a command queue. -/
def CoreSt.setQueue (c : CoreSt) (mat urg : Bool) (l : List Cmd) : CoreSt :=
  if mat then (if urg then { c with matU := l } else { c with matN := l })
  else (if urg then { c with copyU := l } else { c with copyN := l })
/-- A channel of a tile's engine. -/
def Tile.channel (t : Tile) (mat urg : Bool) : Channel :=
  if mat then (if urg then t.matU else t.matN) else (if urg then t.copyU else t.copyN)
/-- Writes a channel. -/
def Tile.setChannel (t : Tile) (mat urg : Bool) (c : Channel) : Tile :=
  if mat then (if urg then { t with matU := c } else { t with matN := c })
  else (if urg then { t with copyU := c } else { t with copyN := c })
/-- Changes a channel of a tile's engine. -/
def State.updChannel (s : State) (tile : Nat) (mat urg : Bool) (u : Channel → Channel) : State :=
  s.updTile tile fun t => t.setChannel mat urg (u (t.channel mat urg))

/-- Every job of a channel. -/
def Channel.jobs (c : Channel) : List Job := c.cur.toList ++ c.wait

/-- The queue that a command's URG names is the frame's (spec/08 R191): otherwise trap 0x01 from a slot, and 0x13 from the
urgent frame. -/
def State.withQueue (s : State) (i : Instr) (urg : Bool) (go : State) : State :=
  if s.inUrgent = urg then go
  else if s.inUrgent then s.trap 0x13 0 (chainWord (encode i))
  else s.illegalValue i

/-- The command is the matrix engine's. -/
def COp.matrix : COp → Bool
  | .mma | .mmac | .mtern | .mlda | .msta | .mzero => true
  | .cpy | .cpy2 | .cpyg | .cpys | .cpyt => false

/-- Number of a queue of a core (spec/08 R191). -/
def queueKey (core : Nat) (mat urg : Bool) : Nat := core * 4 + (if mat then 2 else 0) + (if urg then 1 else 0)

/-- The executing thread's command with the state it captures (spec/01 R23). -/
def State.command (s : State) (op : COp) (o : Opnd) (a b c x : Word) : Cmd :=
  let f := s.me
  { serial := s.serials, op := op, frame := s.cur, launch := f.launch, urg := s.inUrgent, a := a, b := b, c := c, x := x,
    acc := o.ra, et := o.et.code, et2 := o.et2, scope := o.scope, strong := o.strong, cp := o.cp, bl := o.bl,
    arith := f.arith, phase := (s.frame (s.named s.cur)).phase, priv := f.priv, region := f.region, seed := f.seed,
    ltid := (s.frame (s.named s.cur)).ltid, ctr := f.rngc.toNat, part := f.part, lcl := s.lclOf s.cur,
    hand := s.inHandler, stack := f.stack,
    fenced := if op.matrix then f.fenceM else f.fenceC }

/-- Both entries of the executing frame's queue are taken, which holds a command back (spec/08 R192). -/
def State.queueFull (s : State) (mat : Bool) : Bool := ((s.core s.myCore).queue mat s.inUrgent).length ≥ 2

/-- A command takes its queue entry. -/
def State.enqueue (s : State) (mat : Bool) (c : Cmd) : State :=
  { s with serials := s.serials + 1 }.updCore s.myCore fun k =>
    k.setQueue mat s.inUrgent (k.queue mat s.inUrgent ++ [c])

/-- Commands that a frame has issued and whose completion is still to come: queued, taken or waiting. -/
def State.commandsOf (s : State) (f : Nat) : List Cmd :=
  let c := s.core (coreOf f)
  let t := s.tile (tileOf (coreOf f))
  let qs := c.copyN ++ c.copyU ++ c.matN ++ c.matU
  let js := t.copyN.jobs ++ t.copyU.jobs ++ t.matN.jobs ++ t.matU.jobs
  (qs ++ js.map (·.cmd)).filter fun x => x.frame == f

/-! ### Accesses of an engine (spec/10 R233, spec/14 R306, R311) -/

/-- The frame under whose rights a command's accesses are checked: that of the issuing thread at issue. -/
def Cmd.asFrame (c : Cmd) : Frame :=
  { Frame.empty (if c.hand then .dispatch else if c.urg then .urgent else .slot) with
      stat := .ready, priv := c.priv, phase := c.phase, region := c.region, launch := c.launch, part := c.part,
      lcl := c.lcl, ltid := c.ltid, stack := c.stack, arith := c.arith,
      fenceC := c.fenced, fenceM := c.fenced }

/-- Works under the rights of a command's issuing thread; what keeps back the accesses of the frame's own thread stands. -/
def State.asCmd {α : Type} (s : State) (c : Cmd) (go : State → State × α) : State × α :=
  let x0 := s.frame c.frame
  let (t0, a) := go (s.setFrame c.frame { c.asFrame with units := x0.units, tickets := x0.tickets })
  let t := if c.op = .cpyt then t0.settleOlds s.olds else t0
  match look s.frames c.frame with
  | some x => (t.setFrame c.frame x, a)
  | none => ({ t with frames := drop t.frames c.frame }, a)

/-- Why an engine's access does not take place. -/
inductive EErr where
  | fault | guard | dead
  /-- a page fault, the scrub of the HBM, or a bank that grants another first: the engine tries again (spec/14 R311,
  spec/09 R207) -/
  | hold
  deriving DecidableEq, Repr

/-- A page fault of an engine's access: its record is posted, and the access is held (spec/14 R311; log 19). -/
def State.engHold (s : State) (f ea : Nat) (wr : Bool) (e : WalkErr) : State :=
  (s.faultRecord f ea (crumbOf (s.frame f).region ea) wr false e).1

/-- A page that an access would touch has a record that is not resolved: the access stays held. -/
def State.engHeld (s : State) (f ea : Nat) : Bool :=
  let x := s.frame f
  let crumb := crumbOf x.region ea
  s.wipe || (s.joinRecord (pageOf ea crumb) crumb (s.ctxNumber f)).isSome

/-- Requester number of the copy engine of a frame's tile at a bank of a cluster (spec/09 R207). -/
def engReq (f pcl : Nat) : Nat := if clusterOf (coreOf f) = pcl then 1024 + tileInCluster (tileOf (coreOf f)) else 1216

/-- The writes of a word that a command need not see: those after the last one that a FENCEX has ordered for it, below its
`mark`, or that its own queue `q` has made (spec/08 R196, spec/04 R99). -/
def State.unseen (s : State) (mark q loc : Nat) : List Unfenced :=
  (s.unfenced.filter (·.loc == loc / 8 * 8)).foldl
    (fun l u => if u.num < mark ∨ u.queue = some q then [] else l ++ [u]) []

/-- What a command reads of a word, where that is not the word as it stands: the value before one of the writes that it need not
see, as a free value chooses (spec/08 R196; log 35). -/
def State.agedWord (s : State) (mark q loc : Nat) : State × Option Word :=
  match s.unseen mark q loc with
  | [] => (s, none)
  | l => let (s1, v) := s.draw; (s1, (l[v.toNat % (l.length + 1)]?).map (·.old))

/-- The copy engine's queue for a frame. -/
def copyQueue (f : Nat) : Nat := queueKey (coreOf f) false (slotOf f == 4)

/-- The copy engine reads `n` bytes of the word at storage key `k` for a frame. -/
def State.engTake (s : State) (f ea loc k n : Nat) : State × Except EErr (Nat × Bool) :=
  match s.agedWord (s.frame f).fenceC (copyQueue f) loc with
  | (s1, some w) => (s1, .ok ((subWord w ea n).toNat, s.poisoned k))
  | (s1, none) => (s1, .ok (s.readN k n, s.poisoned k))

/-- An engine reads `n` bytes of one word: the value, and whether the word is poisoned. -/
def State.engRead (s : State) (f cp ea n : Nat) : State × Except EErr (Nat × Bool) :=
  match s.checkAddr f ea n .r .other with
  | (s1, some _) => (s1, .error .fault)
  | (s1, none) =>
    match windowOf ea with
    | .glob =>
      if s1.engHeld f ea then (s1, .error .hold)
      else match s1.reach ea (s1.frame f).part cp (crumbOf (s1.frame f).region ea) with
        | (s2, .error e) => (s2.engHold f ea false e, .error .hold)
        | (s2, .ok (.host _)) => let (s3, v) := s2.draw; (s3, .ok (v.toNat % 256 ^ n, false))
        | (s2, .ok (.key k)) => s2.engTake f ea (l2Key ea) k n
    | .aperture _ => (s1, .ok ((subWord (s1.ioRead (.post ea)) ea n).toNat, false))
    | _ =>
      match s1.l1Place f ea with
      | some (p, o, _) =>
        if p ≠ clusterOf (coreOf f) ∧ !s1.clusterLive p then (s1, .error .dead)
        else if !s1.bankYields p o (engReq f p) (slotOf f == 4) then (s1, .error .hold)
        else (s1.bankTook p o (engReq f p)).engTake f ea (l1Key p o) (l1Key p o) n
      | none => (s1, .error .fault)

/-- Checks an engine's write of `n` bytes of one word: its rights, the guard under the captured PHASE, and a live
target. -/
def State.engMay (s : State) (f ea n : Nat) (guard : Bool) : State × Option EErr :=
  match s.checkAddr f ea n .w .other with
  | (s1, some _) => (s1, some .fault)
  | (s1, none) =>
    if guard ∧ (s1.guardBreach f ea n).isSome then (s1, some .guard)
    else match windowOf ea with
      | .glob =>
        if s1.engHeld f ea then (s1, some .hold)
        else if (s1.lineOf ea).isSome then (s1, none)
        else match s1.translate (homeSlice ea) ea (crumbOf (s1.frame f).region ea) with
          | (s2, .error e) => (s2.engHold f ea true e, some .hold)
          | (s2, .ok _) => (s2, none)
      | _ => match s1.l1Place f ea with
        | some (p, _, _) => (s1, if p ≠ clusterOf (coreOf f) ∧ !s1.clusterLive p then some .dead else none)
        | none => (s1, some .fault)

/-- An engine writes to a host page: a free value tells whether the host port completes the write (spec/16 R365, log 7). -/
def State.hostFails (s : State) (f ea : Nat) : State × Bool :=
  let crumb := crumbOf (s.frame f).region ea
  match (s.slice (homeSlice ea)).leaf ea crumb with
  | some e => if (s.lineOf ea).isNone && entryHost e then let (s1, v) := s.draw; (s1, v.getLsbD 0) else (s, false)
  | none => (s, false)

/-- A global write of an engine takes poison with it: the word in L2, or in HBM; a host page holds none (spec/14 R322,
spec/16 R365). -/
def State.poisonGlob (s : State) (f ea : Nat) : State :=
  let crumb := crumbOf (s.frame f).region ea
  match s.lineOf ea with
  | some _ => s.setPoison (l2Key ea) true
  | none => match (s.slice (homeSlice ea)).leaf ea crumb with
    | some e => if entryHost e then s else s.setPoison (hbmKey (leafPa e ea crumb)) true
    | none => s

/-- An engine writes `n` bytes of one word, which turns poisoned when a poisoned word gave a byte of it. -/
def State.engWrite (s0 : State) (f cp ea n : Nat) (data : Word) (bad : Bool) : State × Option EErr :=
  match windowOf ea with
  | .glob =>
    let (s, dead) := s0.hostFails f ea
    if dead then (s, some .dead)
    else match s.globWrite (some f) ea n (s.frame f).part cp (crumbOf (s.frame f).region ea) data (2 ^ n - 1) with
    | (s1, some (.fault e)) => (s1.engHold f ea true e, some .hold)
    | (s1, some _) => (s1, some .hold)
    | (s0, none) =>
      let s1 := s0.ownOlds s.olds (copyQueue f)
      (if bad then s1.poisonGlob f ea else s1, none)
  | _ => match s0.l1Place f ea with
    | some (p, o, _) =>
      if !s0.bankYields p o (engReq f p) (slotOf f == 4) then (s0, some .hold)
      else
      let s1 := (s0.l1Write (some f) ea p o n (engReq f p) data (2 ^ n - 1)).ownOlds s0.olds (copyQueue f)
      (if bad then s1.poisonL1 (l1Key p o) else s1, none)
    | none => (s0, some .fault)

/-- Pieces of a run of `n` bytes, one for each aligned word. -/
def wordRuns : Nat → Nat → Nat → List (Nat × Nat)
  | 0, _, _ => []
  | fuel + 1, a, n =>
    if n = 0 then [] else
      let k := min n (8 - a % 8)
      (a, k) :: wordRuns fuel (a + k) (n - k)

/-- Bytes that an engine has read, each with the poison of its word. -/
abbrev EBytes := List (Byte × Bool)

/-- Reads a run, up to the first access that fails. -/
def State.readRun (s : State) (f cp : Nat) : List (Nat × Nat) → State × EBytes × Option EErr
  | [] => (s, [], none)
  | (a, n) :: t =>
    match s.engRead f cp (trunc64 a) n with
    | (s1, .error e) => (s1, [], some e)
    | (s1, .ok (v, bad)) =>
      let (s2, l, e) := s1.readRun f cp t
      (s2, (leBytes n v).map (fun b => (b, bad)) ++ l, e)

/-- Writes kept to the end of a strong command. -/
abbrev Kept := List (Nat × Nat × Word × Bool × Nat)

/-- Why a command's accesses stop, and the unit of the command at which they do. -/
abbrev Stop := Option (EErr × Nat)

/-- Performs kept writes in their order, up to the first that does not take place: those left, and why. -/
def State.flushKept (s : State) (f cp : Nat) : Kept → State × Kept × Stop
  | [] => (s, [], none)
  | (a, n, d, bad, pos) :: t =>
    match s.engWrite f cp a n d bad with
    | (s1, none) => s1.flushKept f cp t
    | (s1, some e) => (s1, (a, n, d, bad, pos) :: t, some (e, pos))

/-- One write of a command, or, when the command is strong, its place among the writes kept for the highest word so far
(spec/10 R239). -/
def State.orderedWrite (s : State) (f cp : Nat) (strong : Bool) (kept : Kept) (pos a n : Nat) (d : Word) (bad : Bool) :
    State × Kept × Stop :=
  let now (s : State) : State × Kept × Stop :=
    let (s1, e) := s.engWrite f cp a n d bad
    (s1, kept, e.map fun x => (x, pos))
  if !strong then now s
  else match kept with
    | [] => (s, [(a, n, d, bad, pos)], none)
    | (a0, _) :: _ =>
      if a / 8 = a0 / 8 then (s, kept ++ [(a, n, d, bad, pos)], none)
      else if a / 8 > a0 / 8 then
        match s.flushKept f cp kept with
        | (s1, _, none) => (s1, [(a, n, d, bad, pos)], none)
        | (s1, rest, e) => (s1, rest, e)
      else now s

/-- Writes bytes to a run that begins at unit `pos` of its command, up to the first access that fails: the bytes written. -/
def State.writeRun (s : State) (f cp : Nat) (strong guard : Bool) (kept : Kept) (pos : Nat) (bs : EBytes) :
    List (Nat × Nat) → State × Kept × Nat × Stop
  | [] => (s, kept, 0, none)
  | (a, n) :: t =>
    let mine := bs.take n
    if mine.length < n then (s, kept, 0, none)
    else match s.engMay f (trunc64 a) n guard with
      | (s1, some e) => (s1, kept, 0, some (e, pos))
      | (s1, none) =>
        let d := BitVec.ofNat 64 (leNat (mine.map (·.1)))
        match s1.orderedWrite f cp strong kept pos (trunc64 a) n d (mine.any (·.2)) with
        | (s2, k2, some e) => (s2, k2, 0, some e)
        | (s2, k2, none) =>
          let (s3, k3, m, e) := s2.writeRun f cp strong guard k2 (pos + n) (bs.drop n) t
          (s3, k3, n + m, e)

/-! ### Completions (spec/08 R194, R195) -/

/-- NOTE of a command. -/
def Cmd.note (c : Cmd) : Bool :=
  match c.op with
  | .cpy | .cpy2 | .cpyg | .cpys | .cpyt => c.c.toNat.testBit 31
  | .mma | .mmac | .mtern => c.b.toNat.testBit 32
  | .mlda | .msta => c.c.toNat.testBit 20
  | .mzero => false
/-- TAG of a command. -/
def Cmd.tag (c : Cmd) : Nat :=
  match c.op with
  | .cpy | .cpy2 | .cpyg | .cpys | .cpyt => c.c.toNat / 2 ^ 32 % 65536
  | .mma | .mmac | .mtern => c.b.toNat / 65536 % 65536
  | .mlda | .msta => c.c.toNat / 2 ^ 48 % 65536
  | .mzero => 0

/-- The completion entry of a job. -/
def Job.entryWord (j : Job) (kind : Nat) : Word :=
  let f := j.cmd.frame
  BitVec.ofNat 64 (kind + (if j.cmd.urg then 16 else slotOf f % 4 * 64) + (if j.status = 8 then 32 else 0) +
    j.status % 256 * 256 + j.cmd.tag * 65536 + j.aux % 2 ^ 32 * 2 ^ 32)

/-- The context that issued the command may still take its completion: that of an urgent frame while it holds the frame, a
thread of a slot also after its HALT (spec/08 R195, spec/11 R255); a kill removes the commands of its context
(`State.killLaunch`). -/
def State.issuerLives (s : State) (c : Cmd) : Bool :=
  !c.urg || ((s.frame c.frame).stat != .free && decide ((s.frame c.frame).born ≤ c.serial))

/-- Posts a job's completion entry when one is due; none while its part is full. -/
def State.postEntry (s : State) (j : Job) (kind : Nat) : Option State :=
  let due := (j.status ≠ 0 || j.cmd.note) && s.issuerLives j.cmd && !(s.core (coreOf j.cmd.frame)).retired
  let x := (s.core (coreOf j.cmd.frame)).inbox j.cmd.urg
  if !due then some s
  else if x.entries.length ≥ inboxCap j.cmd.urg then none
  else some <| s.updCore (coreOf j.cmd.frame) fun c =>
    c.setInbox j.cmd.urg { x with entries := x.entries ++ [⟨j.entryWord kind, some j.cmd.serial⟩] }

/-! ### Channels -/

/-- Jobs that a wait area holds: completions that wait for room are not counted. -/
def Channel.waiting (c : Channel) : Nat := (c.wait.filter fun j => j.stage != .posting).length
/-- Jobs that a wait area can hold (spec/10 R230, spec/11 R249). -/
def waitCap (urg : Bool) : Nat := if urg then 1 else 4

/-- A frozen core's normal commands are not taken and do not go on (spec/08 R193, spec/10 R240). -/
def State.coreFrozen (s : State) (k : Nat) (urg : Bool) : Bool := !urg && (s.core k).freeze.isSome

/-- The core, and its oldest command, that a channel takes next: in rotation from the core served last, passing over a
core that has an incomplete command of the channel, or is frozen (spec/10 R230, spec/11 R249). -/
def State.nextTake (s : State) (tile : Nat) (mat urg : Bool) : Option (Nat × Cmd) :=
  let ch := (s.tile tile).channel mat urg
  (List.range 16).findSome? fun i =>
    let c := (ch.last + 1 + i) % 16
    let k := tile * 16 + c
    if s.coreFrozen k urg || ch.jobs.any (fun j => coreOf j.cmd.frame == k) then none
    else match (s.core k).queue mat urg with
      | x :: _ => some (c, x)
      | [] => none

/-- A new job of a command. -/
def Job.new (c : Cmd) (ck : Nat) : Job :=
  { cmd := c, stage := .waiting, pos := 0, retry := false, status := 0, aux := 0, poison := false, last := [], since := ck,
    buf := [], reads := [], fills := none, flags := [], out := [] }

/-- A job ends with a status: what it fills or reads still has to end. -/
def Job.finish (j : Job) (status aux : Nat) : Job :=
  { j with status := status, aux := aux, stage := if j.fills.isSome || !j.reads.isEmpty then .ending else .ended }

/-- The current job of a channel. -/
def State.curJob (s : State) (tile : Nat) (mat urg : Bool) : Option Job := ((s.tile tile).channel mat urg).cur
/-- Replaces the current job. -/
def State.setCur (s : State) (tile : Nat) (mat urg : Bool) (j : Option Job) : State :=
  s.updChannel tile mat urg fun c => { c with cur := j }

/-- The current job waits: it moves to the wait area, or stays current when that is full (spec/10 R230). -/
def State.parkJob (s : State) (tile : Nat) (mat urg : Bool) (j : Job) : State :=
  s.updChannel tile mat urg fun c =>
    if c.waiting < waitCap urg then { c with cur := none, wait := c.wait ++ [j] } else { c with cur := some j }

/-- The current command that only waits for room stands aside. -/
def Channel.aside (c : Channel) : Channel :=
  match c.cur with
  | some j => if j.stage = .posting then { c with cur := none, wait := c.wait ++ [j] } else c
  | none => c

/-- Takes a command out of its queue, as the channel's current job. -/
def State.takeCmd (s : State) (tile : Nat) (mat urg : Bool) (c : Nat) (x : Cmd) : State :=
  let s1 := s.updCore (tile * 16 + c) fun k => k.setQueue mat urg (k.queue mat urg).tail
  s1.updChannel tile mat urg fun ch => { ch with cur := some (Job.new x s.ck), last := c }

/-- An urgent channel that works on no command has one to take: no normal queue is taken from before it (spec/08 R192). -/
def State.urgentFirst (s : State) (tile : Nat) (mat urg : Bool) : Bool :=
  !urg && ((s.tile tile).channel mat true).aside.cur.isNone && (s.nextTake tile mat true).isSome

/-- A channel that works on no command resumes the first waiting one that is ready, or else takes the next one in rotation.
A command that waits as the current one goes on once it may, and stands aside once the wait area has room
(spec/10 R230, spec/11 R249). -/
def State.takeNext (s : State) (tile : Nat) (mat urg : Bool) (ready goes : Job → Bool) (start : State → Job → State) : State :=
  let s0 := s.updChannel tile mat urg Channel.aside
  let ch := (s0.tile tile).channel mat urg
  match ch.cur with
  | some j =>
    if j.stage ≠ .waiting then s
    else if goes j then start s j
    else if ch.waiting < waitCap urg then s.parkJob tile mat urg j
    else s
  | none =>
    match findAt ready ch.wait 0 with
    | some (i, j) => start (s0.updChannel tile mat urg fun c => { c with cur := some j, wait := dropAt c.wait i }) j
    | none =>
      if s.urgentFirst tile mat urg then s
      else match s.nextTake tile mat urg with
        | some (c, x) => start (s0.takeCmd tile mat urg c x) (Job.new x s.ck)
        | none => s

/-- A job leaves its channel. -/
def State.dropJob (s : State) (tile : Nat) (mat urg : Bool) (j : Job) : State :=
  s.updChannel tile mat urg fun c =>
    { c with cur := c.cur.filter fun k => k.cmd.serial ≠ j.cmd.serial,
             wait := c.wait.filter fun k => k.cmd.serial ≠ j.cmd.serial }

/-- Changes a job of a channel. -/
def State.updJob (s : State) (tile : Nat) (mat urg : Bool) (serial : Nat) (u : Job → Job) : State :=
  s.updChannel tile mat urg fun c =>
    { c with cur := c.cur.map fun k => if k.cmd.serial = serial then u k else k,
             wait := updWhere (fun k => k.cmd.serial == serial) u c.wait }

/-- A command that has ended completes with its effect and leaves its channel once its entry, when one is due, finds room;
otherwise one that has completed posts the entry that waited (spec/08 R195). -/
def State.completeJob (s : State) (tile : Nat) (mat urg : Bool) (effect : State → Job → State) : State :=
  let kind := if mat then 2 else 1
  let jobs := ((s.tile tile).channel mat urg).jobs
  match jobs.find? fun j => j.stage == .ended with
  | some j =>
    let s1 := effect s j
    match s1.postEntry j kind with
    | some t => t.dropJob tile mat urg j
    | none => s1.updJob tile mat urg j.cmd.serial fun k => { k with stage := .posting }
  | none =>
    match jobs.findSome? fun j => if j.stage = .posting then (s.postEntry j kind).map (·.dropJob tile mat urg j) else none with
    | some t => t
    | none => s

/-! ### The order of events at a descriptor (spec/10 R227) -/

/-- Descriptors that a command names for its take, each with whether it fills it (spec/10 R226, R232, spec/11 R245, R258). -/
def Cmd.descs (c : Cmd) : List (Nat × Bool) :=
  match c.op with
  | .cpyt => [(c.a.toNat, !c.c.toNat.testBit 28)]
  | .mlda => if c.c.toNat.testBit 19 then [(c.b.toNat % 64, false)] else []
  | .msta => if c.c.toNat.testBit 19 then [(c.b.toNat % 64, true)] else []
  | .mma | .mmac | .mtern => ([c.b.toNat % 64, c.b.toNat / 256 % 64].eraseDups).map fun n => (n, false)
  | _ => []

/-- What a descriptor of a tile answers to a command of an engine. -/
def State.descMeets (s : State) (tile : Nat) (d : Nat × Bool) : DTake := ((s.tile tile).desc d.1).take d.2

/-- The commands of a channel that wait and may be tried: the current one alone when it waits, none while another command
runs, and otherwise those of the wait area, but for a frozen core's (spec/10 R230, R240, spec/11 R249, R255). -/
def State.tried (s : State) (tile : Nat) (mat urg : Bool) : List Job :=
  let ch := ((s.tile tile).channel mat urg).aside
  match ch.cur with
  | some j => if j.stage = .waiting then [j] else []
  | none => ch.wait.filter fun j => j.stage == .waiting && !s.coreFrozen (coreOf j.cmd.frame) urg

/-- A waiting command of an engine will now be taken on a descriptor: that comes before a take of the other engine, when it is
the copy engine's, and before TREL and TDEF (spec/10 R227). -/
def State.descWanted (s : State) (mats : List Bool) (tile n : Nat) : Bool :=
  mats.any fun mat => [true, false].any fun urg => (s.tried tile mat urg).any fun j =>
    j.cmd.descs.any (·.1 == n) && j.cmd.descs.all fun d => s.descMeets tile d == .ok

/-- What a command meets at its take: a descriptor that is not defined, or a wait, or neither; a matrix command waits for a copy
command that comes first (spec/10 R226, R227, spec/11 R257). -/
def State.cmdMeets (s : State) (tile : Nat) (mat : Bool) (c : Cmd) : DTake :=
  let l := c.descs.map (s.descMeets tile)
  if l.any (· == .nodef) then .nodef
  else if l.any (· == .wait) ∨ (mat ∧ c.descs.any fun d => s.descWanted [false] tile d.1) then .wait
  else .ok

/-- TDEF: defines a descriptor once it is EMPTY. -/
def execTdef (o : Opnd) (s : State) : Out :=
  let n := s.g o.ra
  let b := s.g o.rb
  let c := s.g o.rc
  let tile := tileOf s.myCore
  s.act <| s.tileOnly (.tdef o) <| s.withDesc (.tdef o) n <|
    if !shapeOk c then s.illegalAddr (.tdef o) c
    else if b.toNat % 8 ≠ 0 then s.illegalAddr (.tdef o) b
    else match s.spanDenied s.cur b.toNat (shapeSpan c) with
      | (s1, some (d, a)) => s1.trap 0x05 d (BitVec.ofNat 64 a)
      | (s1, none) =>
        if ((s1.tile tile).desc n.toNat).st ≠ .empty ∨ s1.descWanted [false, true] tile n.toNat then s1
        else
          (s1.updDesc tile n.toNat fun d =>
            { d with shape := c, base := b.toNat, defd := true, err := false,
                     owner := if s.inHandler then some s.cur else none }).advance (o.halves 2)

/-- TREL: releases a descriptor; it waits while a fill runs. -/
def execTrel (o : Opnd) (s : State) : Out :=
  let n := s.g o.rb
  let tile := tileOf s.myCore
  s.act <| s.tileOnly (.trel o) <| s.withDesc (.trel o) n <|
    if ((s.tile tile).desc n.toNat).st = .filling ∨ s.descWanted [false, true] tile n.toNat then s
    else (s.updDesc tile n.toNat Desc.release).advance (o.halves 2)

end Sys2Proof.Machine
end

