-- ==== Sys2Proof/Machine/Copy.lean ====
section
/-!
DEFINITION. Machine/Copy.lean: the copy instructions (spec/10 R231, R238, R241) and the copy engine: its takes, its bursts
and its completions (R230–R240).
-/
namespace Sys2Proof.Machine

/-! ### The control word (spec/10 R231) -/

/-- COUNT. -/
def ctlCount (c : Word) : Nat := c.toNat % 2 ^ 24
/-- Element size of CPYG and CPYS. -/
def ctlSize (c : Word) : Nat := 2 ^ (c.toNat / 2 ^ 24 % 4)
/-- ROWS of CPY2. -/
def ctlRows (c : Word) : Nat := c.toNat / 2 ^ 48
/-- DIR of CPYT: a drain. -/
def ctlDrain (c : Word) : Bool := c.toNat.testBit 28
/-- CPYG or CPYS. -/
def COp.elems (op : COp) : Bool := op == .cpyg || op == .cpys

/-- COUNT, ESZ, DIR, ROWS and the reserved bits are valid for the command. -/
def ctlOk (op : COp) (c : Word) : Bool :=
  let n := c.toNat
  n / 2 ^ 26 % 4 == 0 && n / 2 ^ 29 % 4 == 0 && (ctlCount c == 0) == (op == .cpyt) &&
    (n / 2 ^ 24 % 4 == 0 || op.elems) && (!n.testBit 28 || op == .cpyt) && (ctlRows c ≠ 0) == (op == .cpy2)

/-- The lowest byte at or after `a` and below `stop` that no span holds; each span is passed once. -/
def lowOutside (spans : List (Nat × Nat)) (stop : Nat) : Nat → Nat → Option Nat
  | 0, a => if a < stop then some a else none
  | fuel + 1, a =>
    if a ≥ stop then none
    else match spans.find? fun p => p.1 ≤ a && a < p.2 with
      | some p => lowOutside spans stop fuel p.2
      | none => some a

/-- Start of row `r` under a stride, modulo 2^64 (spec/10 R232). -/
def rowAddr (base : Nat) (stride : Int) (r : Nat) : Nat := (((base : Int) + r * stride) % (2 ^ 64 : Nat)).toNat

/-- Destination ranges of CPY, CPY2 and CPYG: start and bytes. -/
def destRanges (op : COp) (a c x : Word) : List (Nat × Nat) :=
  match op with
  | .cpy => [(a.toNat, ctlCount c)]
  | .cpy2 => (List.range (ctlRows c)).map fun r => (rowAddr a.toNat (sextNat (x.toNat / 2 ^ 32) 32) r, ctlCount c)
  | .cpyg => [(a.toNat, ctlCount c * ctlSize c)]
  | _ => []

/-- The lowest destination byte outside the home window, while the guard is on (spec/10 R238). -/
def State.copyGuard (s : State) (op : COp) (a c x : Word) : Option Nat :=
  if guardOn s.me.phase s.me.priv then
    let sp := s.homeSpans s.cur
    ((destRanges op a c x).filterMap fun (lo, n) => lowOutside sp (lo + n) sp.length lo).foldl
      (fun (b : Option Nat) v => match b with | some w => some (min v w) | none => some v) none
  else none

/-- The first of the addresses that breaks its alignment (spec/10 R241). -/
def copyMisaligned (op : COp) (a b c x : Word) : Option Word :=
  if op.elems then [(a, ctlSize c), (b, ctlSize c), (x, 4)].findSome? fun (v, m) => if v.toNat % m ≠ 0 then some v else none
  else none

/-- Issue of a copy command (spec/10 R241): its checks, then its queue. -/
def State.copyIssue (s : State) (i : Instr) (op : COp) (o : Opnd) : State :=
  let a := s.g o.ra
  let b := s.g o.rb
  let c := s.g o.rc
  let x := if op = .cpy then 0 else s.g (o.rc + 1)
  s.tileOnly i <| s.withQueue i o.urg <|
    if !ctlOk op c then s.illegalAddr i c
    else if op = .cpyt ∧ x.toNat / 2 ^ 32 ≠ 0 then s.illegalAddr i x
    else if op = .cpyt ∧ !s.descAllowed s.cur a.toNat then s.illegalAddr i a
    else match copyMisaligned op a b c x with
      | some v => s.trap 0x04 0 v
      | none => match s.copyGuard op a c x with
        | some v => s.trap 0x07 0 (BitVec.ofNat 64 v)
        | none =>
          if s.queueFull false then s else (s.enqueue false (s.command op o a b c x)).advance (o.halves 2)

/-- CPY: a run of bytes. -/
def execCpy (o : Opnd) (s : State) : Out := s.act (s.copyIssue (.cpy o) .cpy o)
/-- CPY2: rows of bytes. -/
def execCpy2 (o : Opnd) (s : State) : Out := s.act (s.copyIssue (.cpy2 o) .cpy2 o)
/-- CPYG: a gather. -/
def execCpyg (o : Opnd) (s : State) : Out := s.act (s.copyIssue (.cpyg o) .cpyg o)
/-- CPYS: a scatter. -/
def execCpys (o : Opnd) (s : State) : Out := s.act (s.copyIssue (.cpys o) .cpys o)
/-- CPYT: a fill or a drain of a descriptor. -/
def execCpyt (o : Opnd) (s : State) : Out := s.act (s.copyIssue (.cpyt o) .cpyt o)

/-! ### What a command moves (spec/10 R232) -/

/-- Rows of a CPY, CPY2 or CPYT: their length and number, and where each row of the source and the destination starts. -/
structure CGeo where
  len  : Nat
  rows : Nat
  src  : Nat
  sstr : Int
  dst  : Nat
  dstr : Int
  deriving DecidableEq, Repr

/-- The rows of a command; `d` is the descriptor that a CPYT names. -/
def Cmd.geo (c : Cmd) (d : Desc) : CGeo :=
  match c.op with
  | .cpy2 => ⟨ctlCount c.c, ctlRows c.c, c.b.toNat, sextNat c.x.toNat 32, c.a.toNat, sextNat (c.x.toNat / 2 ^ 32) 32⟩
  | .cpyt =>
    let g : CGeo := ⟨shapeRow d.shape, shapeRows d.shape, c.b.toNat, sextNat c.x.toNat 32, d.base, shapeStride d.shape⟩
    if ctlDrain c.c then { g with src := g.dst, sstr := g.dstr, dst := g.src, dstr := g.sstr } else g
  | _ => ⟨ctlCount c.c, 1, c.b.toNat, 0, c.a.toNat, 0⟩

/-- Lowest and highest byte, plus one, of rows. -/
def bounding (base : Nat) (str : Int) (rows len : Nat) : Nat × Nat :=
  (List.range rows).foldl (fun (lo, hi) r => let a := rowAddr base str r; (min lo a, max hi (a + len)))
    (base, base + len)

/-- Storage that a range of addresses names: spans of L1 bytes and of translated addresses (spec/10 R232, overlap). -/
def State.storageOf (s : State) (f lo hi : Nat) : List (Nat × Nat) :=
  let cut (b n k : Nat) : List (Nat × Nat) :=
    if lo < b + n ∧ b < hi then [(k + (max lo b - b), k + (min hi (b + n) - b))] else []
  cut 0 l1Bytes (l1Key (clusterOf (coreOf f)) 0) ++
  ((List.range 16).flatMap fun c => match (s.ctxOf f).pcl c with
    | some p => cut (0x100000000 + c * l1Bytes) l1Bytes (l1Key p 0)
    | none => []) ++
  cut globBase (2 ^ 48 - globBase) (l2Key globBase)

/-- The bounding ranges of the two sides share a byte of storage. -/
def State.overlap (s : State) (f : Nat) (g : CGeo) : Bool :=
  let (l, h) := bounding g.src g.sstr g.rows g.len
  let (l', h') := bounding g.dst g.dstr g.rows g.len
  (s.storageOf f l h).any fun p => (s.storageOf f l' h').any fun q => p.1 < q.2 && q.1 < p.2

/-- Units of progress of a command: bytes, or elements. -/
def Cmd.total (c : Cmd) (g : CGeo) : Nat := if c.op.elems then ctlCount c.c else g.len * g.rows
/-- AUX of a position: byte, row or element (spec/10 R236). -/
def Cmd.auxAt (c : Cmd) (g : CGeo) (pos : Nat) : Nat :=
  match c.op with
  | .cpy2 | .cpyt => pos / max 1 g.len
  | _ => pos
/-- The engine checks the guard for a CPYS and for a CPYT (spec/10 R238). -/
def COp.engGuard (op : COp) : Bool := op == .cpys || op == .cpyt

/-- What a burst did: the writes kept, the bytes read and not yet written, the units moved, the first unit whose destination
word took poison, and why it stopped. -/
structure Burst where
  kept  : Kept
  buf   : EBytes
  moved : Nat
  bad   : Option Nat
  stop  : Stop
  deriving DecidableEq, Repr

/-- The byte that a command has written to an address, where its write is kept to the end. -/
def State.keptByte (s : State) (f : Nat) (kept : Kept) (a : Nat) : Option (Byte × Bool) :=
  kept.reverse.findSome? fun (ka, n, d, bad, _) =>
    ((List.range n).find? fun i => s.storageOf f (ka + i) (ka + i + 1) == s.storageOf f a (a + 1)).map fun i =>
      (BitVec.ofNat 8 (d.toNat / 256 ^ i), bad)

/-- Bytes read from an address on, as the command itself has left them (spec/10 R232). -/
def State.seen (s : State) (f : Nat) (kept : Kept) (a : Nat) (bs : EBytes) : EBytes :=
  if kept.isEmpty then bs else bs.zipIdx.map fun p => (s.keptByte f kept (trunc64 (a + p.2))).getD p.1

/-- The place, from `off` on, of the first access that writes a poisoned byte (spec/10 R236). -/
def badPiece : EBytes → List (Nat × Nat) → Nat → Option Nat
  | _, [], _ => none
  | bs, (_, n) :: t, off => if (bs.take n).any (·.2) then some off else badPiece (bs.drop n) t (off + n)

/-- Bytes of the burst at an address: up to the next 128-byte boundary and at most `c` words (spec/10 R234). -/
def burstLen (bl a left : Nat) : Nat :=
  let c := if bl = 0 then 16 else bl + 1
  min left (min (a / 8 * 8 + 8 * c) ((a / 128 + 1) * 128) - a)

/-- Read bursts of a run of `left` bytes from `src`, of which `buf` holds the first, until `need` bytes are read
(spec/10 R234). -/
def State.readBursts (s : State) (c : Cmd) (src left need : Nat) (buf : EBytes) : Nat → State × EBytes × Option EErr
  | 0 => (s, buf, none)
  | fuel + 1 =>
    if buf.length ≥ need then (s, buf, none)
    else
      let a := trunc64 (src + buf.length)
      let n := burstLen c.bl a (left - buf.length)
      match s.readRun c.frame c.cp (wordRuns (n + 1) a n) with
      | (s1, bs, none) => s1.readBursts c src left need (buf ++ bs) fuel
      | (s1, bs, some e) => (s1, buf ++ bs, some e)

/-- Writes `bs`, of which the command has read `buf`, to a run from its unit `pos` on. -/
def State.moveBytes (s : State) (c : Cmd) (kept : Kept) (buf : EBytes) (pos dst n : Nat) (er : Option EErr) : State × Burst :=
  let bs := buf.take n
  if bs.length < n ∧ er = some .hold then (s, ⟨kept, buf, 0, none, some (.hold, pos)⟩)
  else
    let pieces := wordRuns (bs.length + 1) dst bs.length
    let (s1, k, m, ew) := s.writeRun c.frame c.cp c.strong c.op.engGuard kept pos bs pieces
    let stop : Stop := if ew.isSome then ew else if bs.length < n then er.map fun e => (e, pos + bs.length) else none
    (s1, ⟨k, buf.drop m, m, badPiece (bs.take m) pieces 0, stop⟩)

/-- One write burst of a CPY, CPY2 or CPYT, with the read bursts that it needs. -/
def State.burstStep (s : State) (j : Job) (g : CGeo) : State × Burst :=
  let c := j.cmd
  let r := j.pos / g.len
  let i := j.pos % g.len
  let left := g.len - i
  let dst := trunc64 (rowAddr g.dst g.dstr r + i)
  let need := burstLen c.bl dst left
  let (s1, buf, er) := s.readBursts c (trunc64 (rowAddr g.src g.sstr r + i)) left need j.buf 17
  s1.moveBytes c j.last buf j.pos dst need er

/-- The index of the present element of a CPYG or CPYS, as four bytes, read from the own cluster's L1; a poisoned one has no
value, and a free value stands for it (log 7).  What an element has read stays while a later access of it waits. -/
def State.elemIndex (s : State) (j : Job) : State × Except EErr EBytes :=
  let c := j.cmd
  let ia := trunc64 (c.x.toNat + 4 * j.pos)
  if 4 ≤ j.buf.length then (s, .ok (j.buf.take 4))
  else match windowOf ia with
    | .own _ =>
      match s.engRead c.frame c.cp ia 4 with
      | (s1, .error e) => (s1, .error e)
      | (s1, .ok (v, bad)) =>
        let raw := s1.seen c.frame j.last ia ((leBytes 4 v).map fun b => (b, bad))
        if raw.any (·.2) then let (s2, w) := s1.draw; (s2, .ok ((leBytes 4 w.toNat).map fun b => (b, true)))
        else (s1, .ok raw)
    | _ => (s, .error .fault)

/-- One element of a CPYG or CPYS: its index, then its bytes.  DEDUCED: the window of the contiguous side, which spec/10 R233's
table gives in no row of its own, is that of the other sources for CPYS and of the other destinations for CPYG
(notes/assumptions/21.md). -/
def State.elemStep (s : State) (j : Job) : State × Burst :=
  let c := j.cmd
  let k := j.pos
  let f := c.frame
  let z := ctlSize c.c
  let stop (s : State) (buf : EBytes) (e : EErr) : State × Burst := (s, ⟨j.last, buf, 0, none, some (e, k)⟩)
  match s.elemIndex j with
  | (s1, .error e) => stop s1 [] e
  | (s1, .ok idx) =>
    let n := leNat (idx.map (·.1))
    let src := trunc64 (c.b.toNat + (if c.op = .cpyg then n else k) * z)
    let dst := trunc64 (c.a.toNat + (if c.op = .cpyg then k else n) * z)
    let got := j.buf.drop 4
    match s1.readRun f c.cp (wordRuns (z + 1) (src + got.length) (z - got.length)) with
    | (s2, bs, some e) => stop s2 (idx ++ got ++ s2.seen f j.last (src + got.length) bs) e
    | (s2, bs, none) =>
      let data := got ++ s2.seen f j.last (src + got.length) bs
      let (s3, b) := s2.moveBytes c j.last data k dst z none
      if b.moved = z then (s3, { b with buf := [], moved := 1, bad := if idx.any (·.2) ∨ b.bad.isSome then some 0 else none })
      else (s3, { b with buf := idx ++ data, moved := 0, bad := if b.bad.isSome then some 0 else none })

/-- Status of a stop. -/
def EErr.status : EErr → Nat
  | .fault => 1 | .guard => 3 | .dead => 7 | .hold => 0

/-- The descriptor that a command names. -/
def State.cmdDesc (s : State) (c : Cmd) : Desc := (s.tile (tileOf (coreOf c.frame))).desc c.a.toNat

/-- A copy command ends: the writes kept for its highest word are performed first; one that is held is tried again, and one
that fails gives the status, but for that of a failed engine. -/
def State.copyEnd (s : State) (tile : Nat) (urg : Bool) (j : Job) (status aux : Nat) : State :=
  let (s1, rest, e) := s.asCmd j.cmd fun t => t.flushKept j.cmd.frame j.cmd.cp j.last
  let fin (st a : Nat) : State := s1.setCur tile false urg (some ({ j with last := [], buf := [] }.finish st a))
  match e with
  | some (.hold, _) => s1.setCur tile false urg (some { j with last := rest, status := status, aux := aux })
  | some (x, pos) => if status = 8 then fin status aux else fin x.status (j.cmd.auxAt (j.cmd.geo (s.cmdDesc j.cmd)) pos)
  | none => fin status aux

/-- The command has moved everything: it ends DONE, or POISON. -/
def State.copyDone (s : State) (tile : Nat) (urg : Bool) (j : Job) (total : Nat) : State :=
  if j.poison then s.copyEnd tile urg j 2 j.aux
  else s.copyEnd tile urg j 0 (if j.cmd.op.elems then total * ctlSize j.cmd.c else total)

/-- The current copy command takes its next burst or element. -/
def State.copyStep (s : State) (tile : Nat) (urg : Bool) (j : Job) : State :=
  let g := j.cmd.geo (s.cmdDesc j.cmd)
  let total := j.cmd.total g
  if j.status ≠ 0 then s.copyEnd tile urg j j.status j.aux
  else if j.pos ≥ total then s.copyDone tile urg j total
  else
    let (s1, b) := s.asCmd j.cmd fun t => if j.cmd.op.elems then t.elemStep j else t.burstStep j g
    let aux := match b.bad with
      | some i => if j.poison then j.aux else j.cmd.auxAt g (j.pos + i)
      | none => j.aux
    let j1 : Job := { j with pos := j.pos + b.moved, last := b.kept, buf := b.buf, retry := false,
                             poison := j.poison || b.bad.isSome, aux := aux }
    match b.stop with
    | some (.hold, _) => s1.setCur tile false urg (some j1)
    | some (e, pos) => s1.copyEnd tile urg j1 e.status (j.cmd.auxAt g pos)
    | none => if j1.pos < total then s1.setCur tile false urg (some j1) else s1.copyDone tile urg j1 total

/-! ### Takes (spec/10 R230, R237) -/

/-- A command whose descriptor, if any, has accepted it begins, unless its ranges overlap (spec/10 R232). -/
def State.copyBegin (s : State) (tile : Nat) (urg : Bool) (j : Job) : State :=
  let (s1, o) := s.asCmd j.cmd fun t =>
    (t, !j.cmd.op.elems && t.overlap j.cmd.frame (j.cmd.geo (t.cmdDesc j.cmd)))
  s1.setCur tile false urg (some (if o then j.finish 5 0 else { j with stage := .running }))

/-- The current command meets its descriptor (spec/10 R226). -/
def State.copyStart (s : State) (tile : Nat) (urg : Bool) (j : Job) : State :=
  if (s.tile tile).copyFailed then s.setCur tile false urg (some (j.finish 8 0))
  else if j.cmd.op ≠ .cpyt then s.copyBegin tile urg j
  else
    let n := j.cmd.a.toNat
    let drain := ctlDrain j.cmd.c
    match s.cmdMeets tile false j.cmd with
    | .nodef => s.setCur tile false urg (some (j.finish 4 0))
    | .wait => s.parkJob tile false urg { j with stage := .waiting }
    | .ok =>
      if drain then (s.updDesc tile n (·.read true)).copyBegin tile urg { j with reads := [n] }
      else (s.updDesc tile n Desc.filled).copyBegin tile urg { j with fills := some n }

/-- A waiting copy command can go on: its core is not frozen, and its descriptor, when it waits for one, allows it. -/
def State.copyReady (s : State) (tile : Nat) (urg : Bool) (j : Job) : Bool :=
  !s.coreFrozen (coreOf j.cmd.frame) urg &&
    (j.stage == .running || (j.stage == .waiting && s.cmdMeets tile false j.cmd != .wait))

/-- COPY_TAKE: a channel resumes a waiting command, or else takes the next one in rotation (spec/10 R230). -/
def execCopyTake (tile : Nat) (urg : Bool) (s : State) : Out :=
  s.act <| s.takeNext tile false urg (s.copyReady tile urg) (s.copyReady tile urg) fun t j =>
    if j.stage = .running then t else t.copyStart tile urg j

/-- COPY_BURST_CHECK: the next burst of the current command is read and checked: a check that passes performs its writes; a
first mismatch repeats it; a second ends the command ENGFAIL, marks the engine failed and reports it (spec/10 R237).  A command of a
frozen core stops at this boundary (R240). -/
def execCopyBurstCheck (tile : Nat) (urg ok : Bool) (s : State) : Out :=
  s.act <|
    match s.curJob tile false urg with
    | none => s
    | some j =>
      if j.stage ≠ .running then s
      else if s.coreFrozen (coreOf j.cmd.frame) urg then s.parkJob tile false urg j
      else if ok then s.copyStep tile urg j
      else if !j.retry then s.setCur tile false urg (some { j with retry := true })
      else
        ((s.copyEnd tile urg j 8 (j.cmd.auxAt (j.cmd.geo (s.cmdDesc j.cmd)) j.pos)).updTile tile fun t =>
          { t with copyFailed := true, excluded := true }).notify (tile / 64) 2 tile

/-- COPY_COMPLETION: a command that has ended posts its entry when one is due and its part of the inbox has room, and leaves
its channel (spec/10 R236, spec/08 R195). -/
def execCopyCompletion (tile : Nat) (urg : Bool) (s : State) : Out :=
  s.act (s.completeJob tile false urg fun t _ => t)

end Sys2Proof.Machine
end

