-- ==== Sys2Proof/Machine/Matrix.lean ====
section
/-!
DEFINITION. Machine/Matrix.lean: the matrix instructions (spec/11 R242, R256–R263) and what the matrix engine computes:
block order over descriptors (R244–R248, spec/02 R52, R53), loads and stores of accumulators (R258–R260).
-/
namespace Sys2Proof.Machine

/-! ### Formats -/

/-- Complex accumulator formats. -/
def AFmt.complex : AFmt → Bool
  | .ci32 | .cfp32 => true
  | _ => false
/-- Integer accumulator formats. -/
def AFmt.int : AFmt → Bool
  | .int32 | .ci32 => true
  | _ => false
/-- Words of one element. -/
def AFmt.words (f : AFmt) : Nat := if f.complex then 2 else 1
/-- The format that AFMT names (spec/11 R258). -/
def AFmt.ofCode : Nat → Option AFmt
  | 1 => some .int32 | 2 => some .fp32 | 3 => some .ci32 | 4 => some .cfp32 | _ => none
/-- Element type of the memory format without conversion; CFP32 takes that of CI32 (spec/11 R259). -/
def AFmt.et : AFmt → ET
  | .int32 => .int32 | .fp32 => .fp32 | .ci32 | .cfp32 => .ci32
/-- The rows of spec/11 R259: the OET permitted for a format. -/
def AFmt.permits (f : AFmt) (t : ET) : Bool :=
  match f with
  | .int32 => t == .int8 || t == .n8 || t == .int16 || t == .n16 || t == .int32 || t == .n32
  | .fp32 => t == .fp32 || t == .fp16 || t == .bf16 || t == .e4m3 || t == .e5m2
  | .ci32 => t == .ci12 || t == .ci16 || t == .ci32
  | .cfp32 => t == .cf16

/-- The accumulator format of a pair, and the block of one step (spec/11 R244): rows and columns. -/
def pairFmt (et : ET) : AFmt × Nat × Nat :=
  match et with
  | .int8 => (.int32, 16, 16)
  | .ci12 => (.ci32, 8, 8)
  | .cf16 => (.cfp32, 8, 8)
  | _ => (.fp32, 16, 16)

/-- M, N and K of a shape word (spec/11 R257). -/
def mmaM (c : Word) : Nat := c.toNat % 32 + 1
/-- N. -/
def mmaN (c : Word) : Nat := c.toNat / 32 % 32 + 1
/-- K. -/
def mmaK (c : Word) : Nat := c.toNat / 1024 % 256 + 1
/-- Bytes of a row of trits. -/
def tritBytes (k : Nat) : Nat := (k + 4) / 5
/-- Groups of eight. -/
def groupsOf (k : Nat) : Nat := (k + 7) / 8

/-! ### Issue -/

/-- A launch whose header has NOMATRIX executes no matrix instruction (spec/11 R256). -/
def State.withMatrix (s : State) (i : Instr) (go : State) : State :=
  s.tileOnly i <|
    if (match s.me.launch with | some e => (s.entry e).hdr.nomatrix | none => false) then s.illegalValue i else go

/-- The accumulator number and its queue (spec/11 R242). -/
def State.withAcc (s : State) (i : Instr) (n : Nat) (urg : Bool) (go : State) : State :=
  if s.inUrgent ∧ !urg then s.trap 0x13 0 (chainWord (encode i))
  else if decide (n < 4) = urg ∨ s.inUrgent ≠ urg then s.illegalValue i
  else go

/-- A block of `n` counter values is taken; tells whether the counter wraps (spec/02 R54, R55). -/
def State.drawBlock (s : State) (n : Nat) : State × Bool :=
  let c := s.me.rngc.toNat
  (s.updMe fun x => { x with rngc := BitVec.ofNat 48 (c + n) }, decide (c + n ≥ 2 ^ 48))

/-- A matrix command is issued: it draws its words, takes its entry, and is recorded with its thread. -/
def State.matrixIssue (s : State) (op : COp) (o : Opnd) (b c : Word) (words : Nat) : State :=
  if s.queueFull true then s
  else
    let cmd := s.command op o 0 b c 0
    let (s1, wrap) := s.drawBlock words
    s1.retire (o.halves 2) (if wrap then [(0, fRNGW)] else []) fun t =>
      (t.enqueue true cmd).updMe fun x =>
        { x with cmds := x.cmds ++ [⟨cmd.serial, cmd.acc, false, [], false, cmd.tag, false, false⟩] }

/-- Words that an MMA or MMAC draws (spec/11 R248). -/
def mmaWords (arith : Word) (f : AFmt) (c : Word) : Nat :=
  if (AR.ofWord arith).stoch ∧ !f.int then 2 * groupsOf (mmaK c) * (mmaM c * mmaN c * f.words) else 0

/-- Issue of MMA, MMAC and MTERN (spec/11 R257). -/
def State.mmaIssue (s : State) (i : Instr) (op : COp) (o : Opnd) : State :=
  let b := s.g o.rb
  let c := s.g o.rc
  let f := (pairFmt o.et).1
  let ad := b.toNat % 64
  let bd := b.toNat / 256 % 64
  s.withMatrix i <| s.withAcc i o.ra o.urg <|
    if !pairOk (op == .mtern) o.et.code o.et2 then s.illegalValue i
    else if !s.descAllowed s.cur ad then s.illegalAddr i (BitVec.ofNat 64 ad)
    else if !s.descAllowed s.cur bd then s.illegalAddr i (BitVec.ofNat 64 bd)
    else if b.toNat / 64 % 4 ≠ 0 ∨ b.toNat / 2 ^ 14 % 4 ≠ 0 ∨ b.toNat / 2 ^ 33 ≠ 0 then s.illegalAddr i b
    else if c.toNat / 2 ^ 18 ≠ 0 ∨ (f.complex ∧ mmaN c > 16) then s.illegalAddr i c
    else s.matrixIssue op o b c (if op = .mtern then 0 else mmaWords s.me.arith f c)

/-- MMA: a product into an accumulator. -/
def execMma (o : Opnd) (s : State) : Out := s.act (s.mmaIssue (.mma o) .mma o)
/-- MMAC: a product added to an accumulator. -/
def execMmac (o : Opnd) (s : State) : Out := s.act (s.mmaIssue (.mmac o) .mmac o)
/-- MTERN: a ternary product added to an accumulator. -/
def execMtern (o : Opnd) (s : State) : Out := s.act (s.mmaIssue (.mtern o) .mtern o)

/-- Fields of the control word of MLDA and MSTA (spec/11 R258). -/
structure MCtl where
  afmt   : Nat
  conv   : Bool
  oet    : ET
  m      : Nat
  n      : Nat
  shape  : Bool
  desc   : Bool
  stride : Nat
  deriving DecidableEq, Repr

/-- Reads the control word. -/
def MCtl.ofWord (c : Word) : MCtl :=
  let n := c.toNat
  ⟨n % 8, n.testBit 3, ET.ofCode (n / 16 % 16), n / 256 % 32 + 1, n / 2 ^ 13 % 32 + 1, n.testBit 18, n.testBit 19,
    n / 2 ^ 32 % 65536⟩

/-- OET of an MSTA that rounds (spec/11 R259). -/
def roundedOet (t : ET) : Bool := t == .fp16 || t == .bf16 || t == .e4m3 || t == .e5m2 || t == .cf16
/-- The conversion rounds under stochastic rounding, and so draws words. -/
def MCtl.draws (c : MCtl) (arith : Word) : Bool := c.conv && roundedOet c.oet && (AR.ofWord arith).stoch

/-- The control word and base are permitted (spec/11 R258–R260).  DEDUCED: NM1 is held to the range of a complex format only where
SHAPE = 1 makes it the shape (notes/assumptions/21.md). -/
def mctlOk (load : Bool) (arith b w : Word) : Bool :=
  let c := MCtl.ofWord w
  let fits := match AFmt.ofCode c.afmt with
    | some f => f.permits c.oet
    | none => [AFmt.int32, .fp32, .ci32, .cfp32].any fun f => f.permits c.oet
  c.afmt ≤ 4 && w.toNat / 2 ^ 21 % 2048 == 0 && (c.conv || w.toNat / 16 % 16 == 0) && (!c.conv || (!load && fits)) &&
    !(c.shape && c.afmt > 2 && c.n > 16) && !(c.desc && (b.toNat / 64 ≠ 0 || c.stride ≠ 0)) &&
    (c.shape || !c.draws arith)

/-- Issue of MLDA and MSTA (spec/11 R260). -/
def State.mldaIssue (s : State) (i : Instr) (op : COp) (o : Opnd) : State :=
  let b := s.g o.rb
  let w := s.g o.rc
  let c := MCtl.ofWord w
  s.withMatrix i <| s.withAcc i o.ra o.urg <|
    if !mctlOk (op == .mlda) s.me.arith b w then s.illegalValue i
    else if c.desc ∧ !s.descAllowed s.cur (b.toNat % 64) then s.illegalAddr i (BitVec.ofNat 64 (b.toNat % 64))
    else s.matrixIssue op o b w
      (if op = .msta ∧ c.draws s.me.arith then c.m * c.n * (if c.oet = .cf16 then 2 else 1) else 0)

/-- MLDA: loads an accumulator. -/
def execMlda (o : Opnd) (s : State) : Out := s.act (s.mldaIssue (.mlda o) .mlda o)
/-- MSTA: stores an accumulator. -/
def execMsta (o : Opnd) (s : State) : Out := s.act (s.mldaIssue (.msta o) .msta o)
/-- MZERO: clears an accumulator. -/
def execMzero (o : Opnd) (s : State) : Out :=
  s.act <| s.withMatrix (.mzero o) <| s.withAcc (.mzero o) o.ra o.urg <| s.matrixIssue .mzero o 0 0 0

/-- The thread's commands that an MWAIT names (spec/11 R262). -/
def waitsFor (a : Nat) (c : CmdRec) : Bool := a == 31 || c.acc == a

/-- MWAIT: waits for the thread's commands on an accumulator and observes them. -/
def execMwait (o : Opnd) (s : State) : Out :=
  let i := Instr.mwait o
  let a := o.ra
  s.act <| s.withMatrix i <|
    if a ≠ 31 ∧ s.inUrgent ∧ a < 4 then s.trap 0x13 0 (chainWord (encode i))
    else if a ≠ 31 ∧ decide (a < 4) = s.inUrgent then s.illegalValue i
    else
      let mine := s.me.cmds.filter (waitsFor a)
      if mine.any (fun c => !c.done) then s
      else
        let fresh := mine.filter fun c => !c.merged
        let s1 := fresh.foldl (fun t c => t.mergeFlags t.cur c.flags true) s
        let s2 := (s1.updMe fun x =>
          { x with cmds := (updWhere (waitsFor a) (fun c => { c with merged := true }) x.cmds).filter fun c =>
              !waitsFor a c || (c.err && !c.popped) }).advance (o.halves 2)
        match mine.find? fun c => c.err && !c.popped with
        | some c => s2.trapAfter 0x0D 1 (BitVec.ofNat 64 c.tag)
        | none => match s2.arithTrap s2.cur (fresh.flatMap (·.flags)) true with
          | some (c, d, a) => s2.trapAfter c d a
          | none => s2

/-- Accumulators of a frame, in the order of ACCST. -/
def accNumbers (urg : Bool) : List Nat := if urg then [8, 9] else [0, 1, 2, 3]

/-- The word of MSTAT (spec/11 R263). -/
def State.mstatWord (s : State) (f : Nat) : Word :=
  let k := coreOf f
  let urg := slotOf f == 4
  let t := s.tile (tileOf k)
  let q := (s.core k).queue true urg
  let jobs := ((t.channel true urg).jobs.filter fun j => coreOf j.cmd.frame == k && j.stage != .posting)
  let st (n : Nat) : Nat :=
    if q.any (fun c => c.acc == n) || jobs.any (fun j => j.cmd.acc == n) then 2
    else match (s.accum k n).st with | .clear => 0 | .held => 1 | .poisoned => 3
  let accst := (accNumbers urg).zipIdx.foldl (fun w (n, i) => w + st n * 2 ^ (8 + 2 * i)) 0
  let waits := ((t.channel true urg).wait.filter fun j => coreOf j.cmd.frame == k && j.stage != .posting).length
  let busy (c : Channel) : Bool := c.cur.any fun j => j.stage != .posting
  BitVec.ofNat 64 ((if t.matFailed then 1 else 0) + (if busy t.matN then 2 else 0) +
    (if busy t.matU then 4 else 0) + q.length % 4 * 16 + accst + waits * 65536 + t.chk % 256 * 2 ^ 24)

/-- MSTAT: reads the engine and the frame's accumulators. -/
def execMstat (o : Opnd) (s : State) : Out :=
  s.act <| s.withMatrix (.mstat o) <| (s.setG o.ra (s.mstatWord s.cur)).advance (o.halves 2)

/-! ### Block order (spec/02 R52, R53) -/

/-- Elements of one part: integer values, exact. -/
def blockInt (a : AR) (acc : Nat) : List (List Int) → Nat × Nat
  | [] => (acc, 0)
  | g :: t =>
    let (v, fl) := narrowPart a .int32 (partVal .int32 acc + g.sum)
    let (r, fl') := blockInt a v t
    (r, fl ||| fl')

/-- One group of a floating part: its operands in the NaN order, and its terms. -/
abbrev FGroup := List Val × List Term

/-- The groups of a floating part: two rounding points a group, DAZ and FTZ at both (spec/02 R43); the accumulator's NaN
stands after the operands' in a complex format (spec/02 R49) and before them in a real one (R44). -/
def blockFp (a : AR) (cpx : Bool) (word : Nat → Nat) (acc : Nat) : Nat → List FGroup → Nat × Nat
  | _, [] => (acc, 0)
  | k, g :: t =>
    let (r, sig) := evalSum a g.1 g.2
    let (u, f1) := finish fmt32 a (word k) r sig
    let va := unpack fmt32 a.daz acc
    let vu := unpack fmt32 a.daz u
    let (r2, sig2) := evalSum a (if cpx then [vu, va] else [va, vu]) [addTerm va, addTerm vu]
    let (v, f2) := finish fmt32 a (word (k + 1)) r2 sig2
    let (w, f3) := blockFp a cpx word v (k + 2) t
    (w, f1 ||| f2 ||| f3)

/-- An element that sets NV never sets NX (spec/02 R45). -/
def nxUnlessNv (fl : Nat) : Nat := if fl &&& fNV = 0 then fl else fl - (fl &&& fNX)

/-- A floating part with its flags. -/
def blockPart (a : AR) (cpx : Bool) (word : Nat → Nat) (acc : Nat) (gs : List FGroup) : Nat × Nat :=
  let (v, fl) := blockFp a cpx word acc 0 gs
  (v, nxUnlessNv fl)

/-- Groups of eight. -/
def inGroups {α : Type} : Nat → List α → List (List α)
  | 0, _ => []
  | n + 1, l => if l.isEmpty then [] else l.take 8 :: inGroups n (l.drop 8)

/-- An operand block as read: raw elements row by row, and the address of its first poisoned word. -/
structure Block where
  cols : Nat
  el   : Array Nat
  bad  : Option Nat

/-- Element (r, c) of a block. -/
def Block.at (b : Block) (r c : Nat) : Nat := b.el.getD (r * b.cols + c) 0

/-- The queue of a matrix command. -/
def Cmd.matQueue (c : Cmd) : Nat := queueKey (coreOf c.frame) true c.urg

/-- The L1 as a matrix command may read it: a word with writes that it need not see may still have an earlier value, as a free
value chooses (spec/08 R196, spec/11 R254; log 35). -/
def State.agedView (s : State) (c : Cmd) : State :=
  s.unfenced.foldl (fun t u =>
    if u.loc ≥ 2 ^ 48 ∨ u ∉ s.unseen c.fenced c.matQueue u.loc then t
    else let (t1, v) := t.draw; if v.getLsbD 0 then t1.writeBytes u.loc (leBytes 8 u.old.toNat) else t1) s

/-- The words of spans of L1 bytes. -/
def spanWords (spans : List (Nat × Nat)) : List Nat :=
  spans.flatMap fun (a, n) => (List.range ((a + n + 7) / 8 - a / 8)).map fun i => (a / 8 + i) * 8

/-- The banks of words of the own L1 would grant a tile's matrix engine now (spec/09 R207). -/
def State.matrixYields (s : State) (tile : Nat) (offs : List Nat) (urg : Bool) : Bool :=
  s.banksYield (tile / 64) offs (1088 + tileInCluster tile) urg

/-- Words count as accesses of a tile's matrix engine at their banks (spec/09 R207). -/
def State.matrixTook (s : State) (tile : Nat) (offs : List Nat) : State :=
  offs.foldl (fun s o => s.bankTook (tile / 64) o (1088 + tileInCluster tile)) s

/-- Reads the block of a descriptor: poisoned bytes enter as zero (spec/11 R252). -/
def State.readBlock (s : State) (pcl : Nat) (d : Desc) : Block :=
  let t := shapeEt d.shape
  let n := t.msize
  let addr (i : Nat) := d.base + i / shapeCols d.shape * shapeStride d.shape + i % shapeCols d.shape * n
  let byte (a : Nat) : Nat := if s.poisoned (l1Key pcl a) then 0 else (s.byte (l1Key pcl a)).toNat
  let idx := List.range (shapeRows d.shape * shapeCols d.shape)
  ⟨shapeCols d.shape,
   (idx.map fun i => (List.range n).foldl (fun v j => v + byte (addr i + j) * 256 ^ j) 0).toArray,
   idx.findSome? fun i => (List.range n).findSome? fun j =>
     if s.poisoned (l1Key pcl (addr i + j)) then some ((addr i + j) / 8 * 8) else none⟩

/-- Real and imaginary bits of a raw complex element. -/
def rawParts (t : ET) (v : Nat) : Nat × Nat :=
  let l := laneOf (if t = .ci12 then 2 else 0) v
  (l % 2 ^ t.partWidth, l / 2 ^ t.partWidth % 2 ^ t.partWidth)

/-- What a product command computes of one output element: its words and its flags. -/
structure ElemOut where
  words : List Nat
  flags : Nat

/-- One output element of MMA, MMAC or MTERN (spec/11 R246): `a` and `b` list the operands by k, `acc` the accumulator's
words before, `word` the random words of a part. -/
def mmaElem (ar : AR) (ta tb : ET) (a b : List Nat) (acc : List Nat) (word : Nat → Nat → Nat) : ElemOut :=
  let f := (pairFmt ta).1
  let ps := a.zip b
  let n := ps.length + 1
  match f with
  | .int32 =>
    let (v, fl) := blockInt ar (acc.getD 0 0) (inGroups n (ps.map fun (x, y) => partVal ta x * partVal tb y))
    ⟨[v], fl⟩
  | .ci32 =>
    let qs := ps.map fun (x, y) =>
      let (p, q) := rawParts ta x
      let (u, w) := rawParts tb y
      (partVal .int12 p, partVal .int12 q, partVal .int12 u, partVal .int12 w)
    let (r, f0) := blockInt ar (acc.getD 0 0) (inGroups n (qs.map fun (p, q, u, w) => p * u - q * w))
    let (i, f1) := blockInt ar (acc.getD 1 0) (inGroups n (qs.map fun (p, q, u, w) => p * w + q * u))
    ⟨[r, i], f0 ||| f1⟩
  | .fp32 =>
    let vs := ps.map fun (x, y) => (unpack (fmtOf ta) ar.daz x, unpack (fmtOf tb) ar.daz y)
    let gs := (inGroups n vs).map fun g => (g.flatMap (fun (x, y) => [x, y]), g.map fun (x, y) => prodTerm false x y)
    let (v, fl) := blockPart ar false (word 0) (acc.getD 0 0) gs
    ⟨[v], fl⟩
  | .cfp32 =>
    let h := fmtOf .fp16
    let vs := ps.map fun (x, y) =>
      let (p, q) := rawParts ta x
      let (u, w) := rawParts tb y
      (unpack h ar.daz p, unpack h ar.daz q, unpack h ar.daz u, unpack h ar.daz w)
    let order (g : List (Val × Val × Val × Val)) := g.flatMap fun (p, q, u, w) => [p, q, u, w]
    let gr := (inGroups n vs).map fun g =>
      (order g, g.flatMap fun (p, q, u, w) => [prodTerm false p u, prodTerm true q w])
    let gi := (inGroups n vs).map fun g =>
      (order g, g.flatMap fun (p, q, u, w) => [prodTerm false p w, prodTerm false q u])
    let (r, f0) := blockPart ar true (word 0) (acc.getD 0 0) gr
    let (i, f1) := blockPart ar true (word 1) (acc.getD 1 0) gi
    ⟨[r, i], f0 ||| f1⟩

/-- The trits of a row of TR5 bytes as INT8 values, and the bytes that are not valid (spec/02 R50, R51). -/
def tritRow (bs : List Nat) : List Nat × List Nat :=
  (bs.flatMap fun b => (decodeTr5 b).1.map fun t => truncInt t 8,
   (bs.zipIdx.filter fun p => (decodeTr5 p.1).2).map (·.2))

/-- What a command computed: words row by row, flags by element, address of a poisoned word. -/
structure MatOut where
  words : List Nat
  flags : ElemFlags
  bad   : Option Nat

/-- The product of two blocks under a command (spec/11 R246–R248).  DEDUCED: of several poisoned words the first is the first of A's
block row by row, and then of B's (notes/assumptions/21.md). -/
def State.product (s : State) (c : Cmd) (da db : Desc) (acc : Accum) : MatOut :=
  let pcl := clusterOf (coreOf c.frame)
  let ar := AR.ofWord c.arith
  let ta := ET.ofCode c.et
  let tb := if c.et2 = 0 then ta else ET.ofCode c.et2
  let f := (pairFmt ta).1
  let m := mmaM c.c
  let n := mmaN c.c
  let k := mmaK c.c
  let ba := s.readBlock pcl da
  let bb := s.readBlock pcl db
  let tern := c.op == .mtern
  let kb := tritBytes k
  let rows := (List.range m).map fun r =>
    if tern then tritRow ((List.range kb).map fun j => ba.at r j) else ((List.range k).map fun j => ba.at r j, [])
  let keep := c.op ≠ .mma ∧ acc.st ≠ .clear
  let old (r j : Nat) : List Nat :=
    if keep then (List.range f.words).map fun p => (acc.w.getD ((r * n + j) * f.words + p) 0).toNat else [0, 0]
  let e := m * n * f.words
  let word (r j p i : Nat) : Nat :=
    (zrng c.seed c.ltid ((c.ctr + 2 * (i / 2 * e + (r * n + j) * f.words + p) + i % 2) % 2 ^ 48)).toNat % 2 ^ 32
  let cells := rows.zipIdx.flatMap fun (ra, r) => (List.range n).map fun j =>
    (r * n + j, mmaElem ar ta tb (ra.1.take k) ((List.range k).map fun q => bb.at q j) (old r j) (word r j))
  let base := if tern then 5 * m * kb else 0
  let trits := rows.zipIdx.flatMap fun (ra, r) => ra.2.flatMap fun j => (List.range 5).map fun q => (r * 5 * kb + 5 * j + q, fTRI)
  let fl := trits ++ (cells.filter fun x => x.2.flags ≠ 0).map fun x => (base + x.1, x.2.flags)
  ⟨cells.flatMap fun x => x.2.words, fl, match ba.bad with | some a => some a | none => bb.bad⟩

/-! ### MLDA and MSTA (spec/11 R258–R260) -/

/-- The geometry of an MLDA or MSTA: format, shape, element type in memory, element size, base, stride. -/
structure MGeo where
  fmt  : AFmt
  m    : Nat
  n    : Nat
  et   : ET
  esz  : Nat
  base : Nat
  rs   : Nat
  deriving DecidableEq, Repr

/-- Address of element `i`. -/
def MGeo.addr (g : MGeo) (i : Nat) : Nat := trunc64 (g.base + i / g.n * g.rs + i % g.n * g.esz)

/-- Format, shape and memory format of a command, or the status with which it ends at take (spec/11 R259, R260). -/
def mldaGeo (c : Cmd) (acc : Accum) (d : Desc) : Except Nat MGeo :=
  let w := MCtl.ofWord c.c
  let f? : Option AFmt := match AFmt.ofCode w.afmt with
    | some f => some f
    | none => if acc.st = .clear then none else some acc.fmt
  match f? with
  | none => .error 9
  | some f =>
    if !w.shape ∧ acc.st = .clear then .error 9
    else
      let m := if w.shape then w.m else acc.m
      let n := if w.shape then w.n else acc.n
      if m = 0 ∨ n = 0 ∨ (f.complex ∧ n > 16) then .error 9
      else if c.op = .msta ∧ acc.st ≠ .clear ∧ acc.fmt ≠ f then .error 10
      else if c.op = .msta ∧ acc.st ≠ .clear ∧ (acc.m ≠ m ∨ acc.n ≠ n) then .error 9
      else if w.conv ∧ !f.permits w.oet then .error 10
      else
        let t := if w.conv then w.oet else f.et
        let z := t.msize
        if w.desc then .ok ⟨f, m, n, t, z, d.base, shapeStride d.shape⟩
        else .ok ⟨f, m, n, t, z, c.b.toNat, if w.stride = 0 then n * z else w.stride⟩

/-- What a descriptor, a stride or an alignment makes of a command at its take (spec/11 R260): the status and AUX with
which it ends. -/
def mldaRefused (c : Cmd) (g : MGeo) (d : Desc) : Option (Nat × Nat) :=
  let w := MCtl.ofWord c.c
  if w.desc ∧ shapeEt d.shape ≠ g.et then some (10, 0)
  else if w.desc ∧ (shapeRows d.shape ≠ g.m ∨ shapeCols d.shape ≠ g.n) then some (9, 0)
  else if g.rs < g.n * g.esz then some (9, 0)
  else if g.et ≠ .ci12 ∧ (g.base % g.esz ≠ 0 ∨ g.rs % g.esz ≠ 0) then
    some (1, if g.base % g.esz ≠ 0 ∨ g.m = 1 then 0 else g.n)
  else none

/-- The check of an access of `n` bytes: own cluster's L1, rights, and for a store the guard. -/
def State.mldaMay (s : State) (f a n : Nat) (wr : Bool) : State × Option EErr :=
  match windowOf a with
  | .own _ =>
    match s.checkSpan f a n (if wr then .w else .r) .other with
    | (s1, some _) => (s1, some .fault)
    | (s1, none) => (s1, if wr ∧ (s1.guardBreach f a n).isSome then some .guard else none)
  | _ => (s, some .fault)

/-- The lowest element whose access fails, looking at `n` elements from `i`. -/
def State.mldaScan (s : State) (f : Nat) (g : MGeo) (wr : Bool) (i : Nat) : Nat → State × Option (Nat × EErr)
  | 0 => (s, none)
  | n + 1 =>
    match s.mldaMay f (g.addr i) g.esz wr with
    | (s1, some e) => (s1, some (i, e))
    | (s1, none) => s1.mldaScan f g wr (i + 1) n

/-- The words of an accumulator that MLDA loads, bit for bit, and the first poisoned word (spec/11 R252, R260). -/
def State.mldaRead (s : State) (pcl : Nat) (g : MGeo) : MatOut :=
  let word (i p : Nat) : Nat × Option Nat :=
    let a := g.addr i + 4 * p
    if s.poisoned (l1Key pcl a) then (0, some (a / 8 * 8)) else (s.readN (l1Key pcl a) 4, none)
  let l := (List.range (g.m * g.n)).flatMap fun i => (List.range g.fmt.words).map (word i)
  ⟨l.map (·.1), [], l.findSome? (·.2)⟩

/-- The bytes of one element of an MSTA and its flags (spec/11 R259): `word` gives the random word of a part. -/
def mstaElem (ar : AR) (g : MGeo) (conv : Bool) (ws : List Nat) (word : Nat → Nat) : Nat × Nat :=
  let r := ws.getD 0 0
  let i := ws.getD 1 0
  if !conv ∨ (g.fmt = .fp32 ∧ g.et = .fp32) then (if g.fmt.complex then r + i * 2 ^ 32 else r, 0)
  else match g.fmt with
    | .int32 => let (v, fl) := narrowPart ar g.et (partVal .int32 r); (v % 2 ^ g.et.width, fl)
    | .fp32 => fpCvt fmt32 (fmtOf g.et) ar (word 0) r
    | .ci32 =>
      let (a, f0) := narrowPart ar g.et.part (partVal .int32 r)
      let (b, f1) := narrowPart ar g.et.part (partVal .int32 i)
      (memOf g.et (a + b * 2 ^ g.et.partWidth), f0 ||| f1)
    | .cfp32 =>
      let (a, f0) := fpCvt fmt32 (fmtOf .fp16) ar (word 0) r
      let (b, f1) := fpCvt fmt32 (fmtOf .fp16) ar (word 1) i
      (a + b * 65536, f0 ||| f1)

/-- The accesses of one element of an MSTA, word by word, up to the first refused one (spec/11 R251): the pieces it writes of the
value `v`, and why it stopped. -/
def State.mstaRuns (s : State) (f i v : Nat) : List (Nat × Nat) → State × List Piece × Option EErr
  | [] => (s, [], none)
  | (a, n) :: t =>
    match s.mldaMay f (trunc64 a) n true with
    | (s1, some e) => (s1, [], some e)
    | (s1, none) =>
      let (s2, ps, e) := s1.mstaRuns f i (v / 256 ^ n) t
      (s2, ⟨i, trunc64 a, n, v % 256 ^ n⟩ :: ps, e)

/-- What an MSTA writes from element `i` on, up to the first refused access: the pieces, the flags of the elements written
whole, and why it stopped.  `acc` gives an element's words. -/
def State.mstaPieces (s : State) (c : Cmd) (g : MGeo) (acc : Nat → List Nat) (i : Nat) :
    Nat → State × List Piece × ElemFlags × Option (Nat × EErr)
  | 0 => (s, [], [], none)
  | n + 1 =>
    let parts := if g.fmt.complex then 2 else 1
    let rnd (p : Nat) : Nat := (zrng c.seed c.ltid ((c.ctr + i * parts + p) % 2 ^ 48)).toNat % 2 ^ 32
    let (v, fl) := mstaElem (AR.ofWord c.arith) g (MCtl.ofWord c.c).conv (acc i) rnd
    match s.mstaRuns c.frame i v (wordRuns (g.esz + 1) (g.addr i) g.esz) with
    | (s1, ps, some e) => (s1, ps, [], some (i, e))
    | (s1, ps, none) =>
      let (s2, qs, l, e) := s1.mstaPieces c g acc (i + 1) n
      (s2, ps ++ qs, if fl = 0 then l else (i, fl) :: l, e)

/-- Writes a command's pieces to the own L1, each word once under its byte mask; `bad` poisons every word written
(spec/11 R252). -/
def State.storePieces (s : State) (c : Cmd) (ps : List Piece) (bad : Bool) : State :=
  let p := clusterOf (coreOf c.frame)
  (wordsOf ps).foldl (fun s (w, _, va) =>
    let (m, d) := wordData ps w
    let s1 := (s.l1Write (some c.frame) va p (w * 8) 8 (1088 + tileInCluster (tileOf (coreOf c.frame))) (BitVec.ofNat 64 d)
      m).ownOlds s.olds c.matQueue
    if bad then s1.poisonL1 (l1Key p (w * 8)) else s1) s

end Sys2Proof.Machine
end

