-- ==== Sys2Proof/Machine/EvEngine.lean ====
section
/-!
DEFINITION. Machine/EvEngine.lean: the events of the engines: takes and completions of the matrix engine, failed checks, the
ends of fills and readers, and the stall limit (spec/10 R226–R228, spec/11 R249–R255).
-/
namespace Sys2Proof.Machine

/-- Descriptors that a product reads, each once (spec/11 R245). -/
def Cmd.operands (c : Cmd) : List Nat := [c.b.toNat % 64, c.b.toNat / 256 % 64].eraseDups

/-- Tile of a command's core. -/
def Cmd.tile (c : Cmd) : Nat := tileOf (coreOf c.frame)
/-- A descriptor of a command's tile. -/
def State.descOf (s : State) (c : Cmd) (n : Nat) : Desc := (s.tile c.tile).desc n
/-- The accumulator that a command names. -/
def State.accOfCmd (s : State) (c : Cmd) : Accum := s.accum (coreOf c.frame) c.acc

/-- TYPE and SHAPE of a product (spec/11 R257). -/
def State.productBad (s : State) (c : Cmd) : Option Nat :=
  let da := (s.descOf c (c.b.toNat % 64)).shape
  let db := (s.descOf c (c.b.toNat / 256 % 64)).shape
  let t := ET.ofCode c.et
  let ta := if c.op = .mtern then ET.n8 else t
  let tb := if c.et2 = 0 then t else ET.ofCode c.et2
  let k := mmaK c.c
  let acc := s.accOfCmd c
  if shapeEt da ≠ ta ∨ shapeEt db ≠ tb then some 10
  else if shapeRows da ≠ mmaM c.c ∨ shapeCols da ≠ (if c.op = .mtern then tritBytes k else k) ∨ shapeRows db ≠ k ∨
      shapeCols db ≠ mmaN c.c then some 9
  else if c.op = .mma ∨ acc.st = .clear then none
  else if acc.fmt ≠ (pairFmt t).1 then some 10
  else if acc.m ≠ mmaM c.c ∨ acc.n ≠ mmaN c.c then some 9
  else none

/-- Every operand of a product may be read. -/
def State.operandsMay (s : State) (c : Cmd) : State × Bool :=
  c.operands.foldl (fun (s, ok) n =>
    let (s1, e) := s.checkAddr c.frame (s.descOf c n).base 1 .r .other
    (s1, ok && e.isNone)) (s, true)

/-- A product meets its descriptors at its take (spec/11 R249, R257): it becomes a reader of both, or of neither. -/
def State.productStart (s : State) (tile : Nat) (urg : Bool) (j : Job) : State :=
  let c := j.cmd
  let set (s : State) (j : Job) := s.setCur tile true urg (some j)
  let meets := s.cmdMeets tile true c
  if meets = .nodef then set s (j.finish 4 0)
  else if meets = .wait then s.parkJob tile true urg { j with stage := .waiting }
  else match s.productBad c with
    | some st => set s (j.finish st 0)
    | none =>
      let (s1, ok) := s.asCmd c fun t => t.operandsMay c
      if !ok then set s1 (j.finish 1 0)
      else set (c.operands.foldl (fun s n => s.updDesc tile n (·.read false)) s1)
        { j with stage := .running, reads := c.operands }

/-- MLDA and MSTA at their take (spec/11 R260): an MLDA makes every check of its block here. -/
def State.mldaStart (s : State) (tile : Nat) (urg : Bool) (j : Job) : State :=
  let c := j.cmd
  let w := MCtl.ofWord c.c
  let n := c.b.toNat % 64
  let d := s.descOf c n
  let set (s : State) (j : Job) := s.setCur tile true urg (some j)
  match mldaGeo c (s.accOfCmd c) d with
  | .error st => set s (j.finish st 0)
  | .ok g =>
    let t := s.cmdMeets tile true c
    if t = .nodef then set s (j.finish 4 0)
    else if t = .wait then s.parkJob tile true urg { j with stage := .waiting }
    else
      let scan (s : State) (cnt : Nat) : State × Option (Nat × EErr) :=
        if c.op = .msta then (s, none) else s.asCmd c fun t => t.mldaScan c.frame g false 0 cnt
      match mldaRefused c g d with
      | some (st, aux) =>
        if st ≠ 1 then set s (j.finish st aux)
        else match scan s aux with
          | (s1, some (i, _)) => set s1 (j.finish 1 i)
          | (s1, none) => set s1 (j.finish 1 aux)
      | none =>
        match scan s (g.m * g.n) with
        | (s1, some (i, _)) => set s1 (j.finish 1 i)
        | (s1, none) =>
          let j1 : Job := { j with stage := .running }
          if !w.desc then set s1 j1
          else if c.op = .msta then set (s1.updDesc tile n Desc.filled) { j1 with fills := some n }
          else set (s1.updDesc tile n (·.read false)) { j1 with reads := [n] }

/-- A command at its take; a failed engine ends it (spec/11 R253). -/
def State.matrixStart (s : State) (tile : Nat) (urg : Bool) (j : Job) : State :=
  if (s.tile tile).matFailed then s.setCur tile true urg (some (j.finish 8 0))
  else match j.cmd.op with
    | .mzero => s.setCur tile true urg (some (j.finish 0 0))
    | .mlda | .msta => s.mldaStart tile urg j
    | _ => s.productStart tile urg j

/-- A waiting matrix command's descriptors let it go on. -/
def State.matrixGoes (s : State) (tile : Nat) (j : Job) : Bool := j.stage == .waiting && s.cmdMeets tile true j.cmd != .wait
/-- A command of the wait area can go on; a frozen core's stays there, while one that is current runs on (spec/11 R255). -/
def State.matrixReady (s : State) (tile : Nat) (urg : Bool) (j : Job) : Bool :=
  s.matrixGoes tile j && !s.coreFrozen (coreOf j.cmd.frame) urg

/-- MATRIX_TAKE: a channel resumes a waiting command, or else takes the next one in rotation (spec/11 R249). -/
def execMatrixTake (tile : Nat) (urg : Bool) (s : State) : Out :=
  s.act <| s.takeNext tile true urg (s.matrixReady tile urg) (s.matrixGoes tile) fun t j => t.matrixStart tile urg j

/-! ### The work of a command -/

/-- The array works for the urgent channel alone while that has a current command (spec/11 R249). -/
def State.arrayFree (s : State) (tile : Nat) (urg : Bool) : Bool :=
  urg || match (s.tile tile).matU.cur with
    | some j => j.stage == .posting
    | none => true

/-- A product is formed: its result, flags and status (spec/11 R246, R252). -/
def State.productRun (s : State) (j : Job) : Job :=
  let c := j.cmd
  let da := s.descOf c (c.b.toNat % 64)
  let db := s.descOf c (c.b.toNat / 256 % 64)
  let r := s.product c da db (s.accOfCmd c)
  let bad := r.bad.isSome || da.err || db.err
  let j1 : Job := { j with out := r.words.map (BitVec.ofNat 32), flags := compressFlags r.flags, poison := bad }
  if bad then { j1 with status := 2, aux := r.bad.getD 0 } else { j1 with status := 0, aux := mmaM c.c * mmaN c.c }

/-- The geometry of a running MLDA or MSTA. -/
def State.runGeo (s : State) (c : Cmd) : MGeo :=
  match mldaGeo c (s.accOfCmd c) (s.descOf c (c.b.toNat % 64)) with
  | .ok g => g
  | .error _ => ⟨.int32, 1, 1, .int32, 4, 0, 4⟩

/-- An MLDA reads its block (spec/11 R252, R260). -/
def State.mldaRun (s : State) (j : Job) : Job :=
  let c := j.cmd
  let g := s.runGeo c
  let r := s.mldaRead (clusterOf (coreOf c.frame)) g
  let err := (MCtl.ofWord c.c).desc && (s.descOf c (c.b.toNat % 64)).err
  let bad := r.bad.isSome || err
  let j1 : Job := { j with out := r.words.map (BitVec.ofNat 32), poison := bad }
  if bad then { j1 with status := 2, aux := r.bad.getD 0 } else { j1 with status := 0, aux := g.m * g.n }

/-- An MSTA writes its block, or its first `upTo` elements when its engine fails then (spec/11 R251, R252, R259, R260); it waits
while the bank of a word that it writes grants another access first (spec/09 R207). -/
def State.mstaRun (s : State) (j : Job) (upTo : Option Nat) : State × Job :=
  let c := j.cmd
  let g := s.runGeo c
  let count := match upTo with | some n => min n (g.m * g.n) | none => g.m * g.n
  let acc := s.accOfCmd c
  let elem (i : Nat) : List Nat :=
    if acc.st = .clear then [0, 0] else (List.range g.fmt.words).map fun p => (acc.w.getD (i * g.fmt.words + p) 0).toNat
  let bad := acc.st == .poisoned
  let (s1, ps, fl, e) := s.asCmd c fun t => t.mstaPieces c g elem 0 count
  if !s.matrixYields c.tile ((wordsOf ps).map fun p => p.1 * 8) c.urg then (s, j)
  else
  let s3 := s1.storePieces c ps bad
  let s2 := if j.fills.isSome then s3.settleOlds s1.olds else s3
  let j1 : Job := { j with flags := compressFlags fl }
  match e with
  | some (i, x) => (s2, j1.finish x.status i)
  | none => (s2, match upTo with
    | some n => j1.finish 8 n
    | none => if bad then j1.finish 2 0 else j1.finish 0 (g.m * g.n))

/-- Rows of L1 bytes that a running command reads. -/
def State.readSpans (s : State) (c : Cmd) : List (Nat × Nat) :=
  match c.op with
  | .mlda => let g := s.runGeo c; (List.range g.m).map fun r => (g.addr (r * g.n), g.n * g.esz)
  | .mma | .mmac | .mtern => c.operands.flatMap fun n =>
    let d := s.descOf c n
    (List.range (shapeRows d.shape)).map fun r => (d.base + r * shapeStride d.shape, shapeRow d.shape)
  | _ => []

/-- A running command does its work; its ends are still to come.  It waits while the bank of a word that it moves grants
another access first (spec/09 R207). -/
def State.matrixRun (s : State) (tile : Nat) (urg : Bool) (j : Job) : State :=
  match j.cmd.op with
  | .msta => let (s1, j1) := s.mstaRun j none; s1.setCur tile true urg (some j1)
  | op =>
    let ws := spanWords (s.readSpans j.cmd)
    if !s.matrixYields tile ws j.cmd.urg then s
    else
    let v := s.agedView j.cmd
    let k := if op = .mlda then v.mldaRun j else v.productRun j
    ({ s with fresh := v.fresh }.matrixTook tile ws).setCur tile true urg (some (k.finish k.status k.aux))

/-- The accumulator that a product leaves. -/
def productAcc (c : Cmd) (j : Job) (old : Accum) : Accum :=
  let keep := c.op ≠ .mma ∧ old.st = .poisoned
  ⟨if j.poison ∨ keep then .poisoned else .held, (pairFmt (ET.ofCode c.et)).1, mmaM c.c, mmaN c.c, j.out⟩

/-- An accumulator after ENGFAIL: POISONED, every word zero (spec/11 R251).  DEDUCED: in the shape of the product, and else in the shape
it had (notes/assumptions/21.md). -/
def failedAcc (c : Cmd) (old : Accum) : Accum :=
  match c.op with
  | .mma | .mmac | .mtern =>
    let f := (pairFmt (ET.ofCode c.et)).1
    ⟨.poisoned, f, mmaM c.c, mmaN c.c, List.replicate (mmaM c.c * mmaN c.c * f.words) 0⟩
  | _ => { old with st := .poisoned, w := old.w.map fun _ => 0 }

/-- The effect of a command that has ended: on its accumulator, and on its thread's record of it (spec/11 R251).  DEDUCED: one of
an urgent context that has ended leaves a8 and a9 CLEAR (spec/11 R255; notes/assumptions/21.md). -/
def State.matrixEffect (s : State) (j : Job) : State :=
  let c := j.cmd
  let k := coreOf c.frame
  let old := s.accOfCmd c
  let done := j.status = 0 ∨ j.status = 2
  let s1 :=
    if !s.issuerLives c then s
    else if j.status = 8 then s.setAccum k c.acc (failedAcc c old)
    else match c.op with
      | .mzero => s.setAccum k c.acc .clear
      | .mlda =>
        if j.status = 1 then s.setAccum k c.acc .clear
        else if done then
          let g := s.runGeo c
          s.setAccum k c.acc ⟨if j.poison then .poisoned else .held, g.fmt, g.m, g.n, j.out⟩
        else s
      | .msta => s
      | _ => if done then s.setAccum k c.acc (productAcc c j old) else s
  s1.updCmd c.frame c.serial fun r => { r with done := true, flags := j.flags, err := j.status == 8 }

/-- MATRIX_COMPLETION: a command that reads no descriptor does its work here; a command that has ended takes its effect on
the accumulator and posts its entry when one is due (spec/11 R251). -/
def execMatrixCompletion (tile : Nat) (urg : Bool) (s : State) : Out :=
  s.act <|
    let s1 : State := match s.curJob tile true urg with
      | some j => if j.stage = .running ∧ j.reads = [] ∧ s.arrayFree tile urg then s.matrixRun tile urg j else s
      | none => s
    s1.completeJob tile true urg State.matrixEffect

/-- First output element of an output block of a product, by its logical id (spec/11 R244, R247, R251). -/
def blockElem (c : Cmd) (block : Nat) : Nat :=
  let (_, mt, nt) := pairFmt (ET.ofCode c.et)
  let n := mmaN c.c
  let wide := (n + nt - 1) / nt
  let base := if c.op = .mtern then 5 * mmaM c.c * tritBytes (mmaK c.c) else 0
  base + block / wide * mt * n + block % wide * nt

/-- MATRIX_STEP_CHECK_FAIL: a check of a step, or of a burst, of the current command fails.  A repeat that passes is counted;
when it fails again the command ends ENGFAIL, and the engine is marked failed and reported (spec/11 R253); `block` is the
output block of the step, or the first element of the burst, before which the writes of an MSTA stand (R251). -/
def execMatrixStepCheckFail (tile : Nat) (urg again : Bool) (block : Nat) (s : State) : Out :=
  s.act <|
    match s.curJob tile true urg with
    | none => s
    | some j =>
      if j.stage ≠ .running ∨ !s.arrayFree tile urg then s
      else if !again then s.updTile tile fun t => { t with chk := min 255 (t.chk + 1) }
      else
        let (s1, j1) : State × Job := match j.cmd.op with
          | .mma | .mmac | .mtern => (s, j.finish 8 (blockElem j.cmd block))
          | .msta => s.mstaRun j (some block)
          | _ => (s, j.finish 8 block)
        if j1.stage = .running then s
        else ((s1.setCur tile true urg (some j1)).updTile tile fun t => { t with matFailed := true }).notify (tile / 64) 3 tile

/-! ### Ends of fills and readers, and the stall limit (spec/10 R226–R228) -/

/-- FILL_LAST_WRITE: the last write of a fill is performed, and its descriptor turns READY. -/
def execFillLastWrite (tile : Nat) (matrix urg : Bool) (s : State) : Out :=
  s.act <|
    match s.curJob tile matrix urg with
    | some j => match j.stage, j.fills with
      | .ending, some n =>
        (s.updDesc tile n (·.fillEnds (j.status == 0))).setCur tile matrix urg
          (some { j with fills := none, stage := .ended })
      | _, _ => s
    | none => s

/-- Steps of a product in a floating format, by which the rotation count advances (spec/11 R253). -/
def Cmd.steps (c : Cmd) : Nat :=
  let (f, mt, nt) := pairFmt (ET.ofCode c.et)
  if f.int then 0 else (mmaM c.c + mt - 1) / mt * ((mmaN c.c + nt - 1) / nt) * groupsOf (mmaK c.c)

/-- A reader ends its reads of every descriptor it holds. -/
def State.endReads (s : State) (tile : Nat) (matrix urg : Bool) (j : Job) : State :=
  (j.reads.foldl (fun s n => s.updDesc tile n Desc.readEnds) s).setCur tile matrix urg
    (some { j with reads := [], stage := if j.stage = .ending then .ended else j.stage })

/-- READER_END: a reader ends its reads: a product or an MLDA has its operands then, a drain has moved its rows. -/
def execReaderEnd (tile : Nat) (matrix urg : Bool) (s : State) : Out :=
  s.act <|
    match s.curJob tile matrix urg with
    | none => s
    | some j =>
      if j.reads = [] then s
      else if j.stage = .ending then s.endReads tile matrix urg j
      else if matrix ∧ j.stage = .running ∧ s.arrayFree tile urg then
        let s1 := s.matrixRun tile urg j
        match s1.curJob tile matrix urg with
        | some k =>
          if k.stage = .running then s
          else (s1.updTile tile fun t =>
            { t with rot := if j.cmd.op = .mlda then t.rot else (t.rot + j.cmd.steps) % 8 }).endReads tile matrix urg k
        | none => s1
      else s

/-- COMMAND_STALL_TIMEOUT: a command that has waited 2^24 CK cycles for a descriptor ends STALLED; `place` is its place in
the wait area, or beyond it for one that waits as the current command (spec/10 R228). -/
def execCommandStallTimeout (tile : Nat) (matrix urg : Bool) (place : Nat) (s : State) : Out :=
  s.act <|
    let ch := (s.tile tile).channel matrix urg
    let j? : Option Job := match ch.wait[place]? with | some j => some j | none => ch.cur
    match j? with
    | some j =>
      if j.stage = .waiting ∧ s.ck ≥ j.since + 2 ^ 24 then s.updJob tile matrix urg j.cmd.serial fun k => k.finish 6 0 else s
    | none => s

/-- A check value fails at a copy engine: the words that it has read are poisoned (spec/10 R236, spec/14 R323). -/
def State.badBurst (s : State) (tile : Nat) (urg : Bool) : State :=
  let go (c : Channel) : Channel := { c with cur := c.cur.map fun j => { j with buf := j.buf.map fun b => (b.1, true) } }
  let c := (s.tile tile).channel false urg
  if c.cur.all fun j => j.buf.isEmpty then s
  else (s.updTile tile fun t => if urg then { t with copyU := go t.copyU } else { t with copyN := go t.copyN }).countError (tile / 512)

end Sys2Proof.Machine
end

