-- ==== Sys2Proof/Machine/Barrier.lean ====
section
/-!
DEFINITION. Machine/Barrier.lean: barrier instances and their members (spec/12 R264–R274), wake registers (R275–R277),
FENCE (R278), and the events by which arrivals are counted, phases complete and wakes are delivered.
-/
namespace Sys2Proof.Machine

/-! ### Instances -/

/-- The member's record of a thread that has not acted: a member from phase 0 in the domain of a launch; on a dispatch or
management core a thread joins when it starts (spec/12 R265, R269). -/
def BInst.dflt (b : BInst) : BThr := if b.launch.isSome then .start else ⟨0, [], 0, some 0⟩
/-- What the instance holds of a thread. -/
def BInst.get (b : BInst) (t : Nat) : BThr := lookD b.thr t b.dflt
/-- Changes what the instance holds of a thread. -/
def BInst.upd (b : BInst) (t : Nat) (u : BThr → BThr) : BInst := { b with thr := put b.thr t (u (b.get t)) }

/-- The thread is a member of phase `q` (spec/12 R265). -/
def BThr.member (x : BThr) (q : Nat) : Bool := x.lo ≤ q && (match x.hi with | some h => q < h | none => true)
/-- The thread is a member of some phase at or after `c` (spec/12 R267). -/
def BThr.memberFrom (x : BThr) (c : Nat) : Bool := match x.hi with | some h => max x.lo c < h | none => true

/-- Scope of a slot under BARSCOPE (spec/03 R82): 0 tile, 1 group, 2 cluster, 3 die. -/
def scopeOf (barscope : Word) (slot : Nat) : Nat := barscope.toNat / 4 ^ slot % 4

/-- Launch, slot and scope unit of a thread's instance (spec/12 R264, R269). -/
def State.barKey (s : State) (f slot : Nat) : Option Nat × Nat × Nat :=
  let x := s.frame f
  match x.launch with
  | some e =>
    if isTileCore (coreOf f) then
      (some e, slot, match scopeOf (s.entry e).hdr.barscope slot with
        | 0 => x.ltile | 1 => x.ltile / 4 | 2 => x.ltile / 64 | _ => dieOf (coreOf f))
    else (none, slot, coreOf f)
  | none => (none, slot, coreOf f)

/-- The instance under a key: C = 0 and every thread as it started, when nothing has been written yet. -/
def State.inst (s : State) (k : Option Nat × Nat × Nat) : BInst :=
  match s.barriers.find? fun b => b.launch == k.1 && b.slot == k.2.1 && b.unit == k.2.2 with
  | some b => b
  | none => ⟨k.1, k.2.1, k.2.2, 0, [], 0, 0⟩

/-- Writes an instance. -/
def State.setInst (s : State) (b : BInst) : State :=
  let same (x : BInst) := x.launch == b.launch && x.slot == b.slot && x.unit == b.unit
  if s.barriers.any same then { s with barriers := updWhere same (fun _ => b) s.barriers }
  else { s with barriers := s.barriers ++ [b] }

/-- Threads in the domain of an instance of a launch (spec/12 R264): so many per core, sixteen cores a tile. -/
def State.domain (s : State) (e slot unit : Nat) : Nat :=
  let x := s.entry e
  let inUnit (lt : Nat) : Bool := match scopeOf x.hdr.barscope slot with
    | 0 => lt == unit | 1 => lt / 4 == unit | 2 => lt / 64 == unit
    | _ => x.map.toNat / 16 ^ (lt / 64) % 16 / 8 == unit
  ((List.range x.tiles).filter inUnit).length * 16 * (if x.urgent then 1 else x.threads)

/-- Members of phase C (spec/12 R266): threads that have not acted are members of every phase of a launch's instance. -/
def State.barMembers (s : State) (b : BInst) : Nat :=
  let listed := (b.thr.filter fun p => p.2.member b.c).length
  match b.launch with
  | some e => s.domain e b.slot b.unit - b.thr.length + listed
  | none => listed

/-- Arrivals counted for phase C. -/
def BInst.arrived (b : BInst) : Nat := (b.thr.filter fun p => p.2.member b.c && p.2.cnt.contains b.c).length

/-- The threads for which an instruction of a frame acts: both slots of a gang (spec/12 R269). -/
def State.barThreads (s : State) (f : Nat) : List Nat :=
  let x := s.frame f
  if x.gang then [x.ltid, (s.frame (oddOf f)).ltid] else [x.ltid]

/-! ### Arriving, joining, leaving -/

/-- One thread arrives for its own next phase: the arrival is on its way (spec/12 R266, R272). -/
def State.arriveOne (s : State) (f slot : Nat) (release : Bool) (t : Nat) : State :=
  let k := s.barKey f slot
  let b := s.inst k
  let q := (b.get t).np
  let s1 := s.setInst (b.upd t fun x => { x with np := q + 1 })
  let odd := if t = (s1.frame f).ltid then none else some (s1.frame (oddOf f)).seq
  { s1 with arrs := s1.arrs ++ [⟨f, (s1.frame f).seq, k.1, slot, k.2.2, t, q, release, odd, false⟩] }

/-- The threads of a frame that are members of their next phase. -/
def State.barActive (s : State) (f slot : Nat) : List Nat :=
  let b := s.inst (s.barKey f slot)
  (s.barThreads f).filter fun t => (b.get t).member (b.get t).np

/-- An arrival would be two phases ahead (spec/12 R266). -/
def State.barTooFar (s : State) (f slot : Nat) : Bool :=
  let b := s.inst (s.barKey f slot)
  (s.barActive f slot).any fun t => (b.get t).np > b.c + 1

/-- A BWAIT on the slot is held back (spec/12 R273). -/
def State.barWaits (s : State) (f slot : Nat) : Bool :=
  let b := s.inst (s.barKey f slot)
  (s.barThreads f).any fun t => b.c < (b.get t).np

/-- A barrier instruction in a handler frame raises 0x01 (spec/12 R269). -/
def State.barOnly (s : State) (i : Instr) (go : State) : State := if s.inHandler then s.illegalValue i else go

/-- The arrival part of ARRIVE, ARRIVE.RLX and BAR, then `fin` (spec/12 R273). -/
def State.arrive (s : State) (i : Instr) (slot : Nat) (release : Bool) (fin : State → State) : State :=
  s.barOnly i <|
    if s.barActive s.cur slot = [] then s.illegalValue i
    else if s.barTooFar s.cur slot then s
    else fin ((s.barActive s.cur slot).foldl (fun s t => s.arriveOne s.cur slot release t) s)

/-- ARRIVE: a release arrival (spec/12 R273). -/
def execArrive (o : Opnd) (s : State) : Out :=
  s.act <| s.arrive (.arrive o) o.ra true fun t => t.advance (o.halves 3)
/-- ARRIVE.RLX: an arrival without release. -/
def execArriveRlx (o : Opnd) (s : State) : Out :=
  s.act <| s.arrive (.arriveRlx o) o.ra false fun t => t.advance (o.halves 3)

/-- BAR: arrives, then waits as a BWAIT at the boundary after it (spec/12 R273). -/
def execBar (o : Opnd) (s : State) : Out :=
  s.act <| s.arrive (.bar o) o.ra true fun t =>
    (t.updMe fun x => { x with barHold := some o.ra }).advance (o.halves 3)

/-- BWAIT: holds until C has reached np (spec/12 R273). -/
def execBwait (o : Opnd) (s : State) : Out :=
  s.act <| s.barOnly (.bwait o) <| if s.barWaits s.cur o.ra then s else s.advance (o.halves 3)

/-- BJOIN of one thread (spec/12 R267). -/
def BInst.join (b : BInst) (members : Nat) (t : Nat) : BInst :=
  if (b.get t).memberFrom b.c then b
  else
    let q := if members = 0 then b.c else b.c + 1
    b.upd t fun _ => ⟨q, [], q, none⟩

/-- BJOIN for the threads of a frame. -/
def State.joinAll (s : State) (f slot : Nat) : State :=
  (s.barThreads f).foldl (fun s t =>
    let b := s.inst (s.barKey f slot)
    s.setInst (b.join (s.barMembers b) t)) s

/-- BLEAVE of one thread: it arrives for C when that is its next phase, and is a member of no phase from then on
(spec/12 R267). -/
def State.leaveOne (s : State) (f slot t : Nat) : State :=
  let k := s.barKey f slot
  let x := (s.inst k).get t
  if !x.memberFrom (s.inst k).c then s
  else
    let s1 := if x.np = (s.inst k).c ∧ x.member x.np then s.arriveOne f slot true t else s
    s1.setInst ((s1.inst k).upd t fun y => { y with hi := some y.np })

/-- BLEAVE for the threads of a frame. -/
def State.leaveAll (s : State) (f slot : Nat) : State := (s.barThreads f).foldl (fun s t => s.leaveOne f slot t) s

/-- BJOIN (spec/12 R267, R273). -/
def execBjoin (o : Opnd) (s : State) : Out :=
  s.act <| s.barOnly (.bjoin o) <| (s.joinAll s.cur o.ra).advance (o.halves 3)
/-- BLEAVE (spec/12 R267, R273). -/
def execBleave (o : Opnd) (s : State) : Out :=
  s.act <| s.barOnly (.bleave o) <| (s.leaveAll s.cur o.ra).advance (o.halves 3)

/-- The word of BSTAT for a thread (spec/12 R274). -/
def State.bstatWord (s : State) (f slot : Nat) : Word :=
  let k := s.barKey f slot
  let b := s.inst k
  let x := b.get (s.frame f).ltid
  let bit (p : Bool) (n : Nat) : Nat := if p then 2 ^ n else 0
  let sc := match (s.frame f).launch with | some e => scopeOf (s.entry e).hdr.barscope slot | none => 0
  BitVec.ofNat 64 (sc + bit (x.member b.c) 2 + bit (x.member (b.c + 1)) 3 + bit (x.member b.c && b.c < x.np) 4 +
    bit (x.member (b.c + 1) && b.c + 1 < x.np) 5 + b.c % 2 ^ 16 * 2 ^ 8 + s.barMembers b % 2 ^ 16 * 2 ^ 24 +
    b.arrived % 2 ^ 16 * 2 ^ 40)

/-- BSTAT (spec/12 R274). -/
def execBstat (o : Opnd) (s : State) : Out :=
  s.act <| s.barOnly (.bstat o) <| (s.setG o.ra (s.bstatWord s.cur o.rb)).advance (o.halves 3)

/-! ### The events of barriers -/

/-- The open batch of an entry is sent (spec/13 R299). -/
def GEntry.send (g : GEntry) : GEntry :=
  match g.opened with
  | some b => { g with opened := Option.none, sent := g.sent ++ [b] }
  | Option.none => g

/-- Sends every open batch of the entries that a launch owns (spec/13 R301). -/
def State.sendLaunch (s : State) (e : Nat) : State :=
  { s with tiles := mapVals (fun _ t =>
      { t with glaze := mapVals (fun _ g => if g.launch = some e then g.send else g) t.glaze }) s.tiles }

/-- An arrival has left its core: ARRIVE.RLX at commit, a release arrival once every earlier access of the thread is
performed, those of the odd slot of a gang before GANG among them; a frozen thread makes none (spec/12 R270–R272). -/
def State.arrLeaves (s : State) (a : Arr) : Bool :=
  s.arrOrdered a && (!a.release || a.left || !(s.frame a.frame).frozen)

/-- A freeze comes to slots 0–3 of a core: the arrivals that have left stand (spec/12 R270). -/
def State.markLeft (s : State) (core : Nat) : State :=
  { s with arrs := s.arrs.map fun a =>
      if coreOf a.frame = core ∧ slotOf a.frame < 4 ∧ s.arrLeaves a then { a with left := true } else a }

/-- Counts an arrival (spec/12 R266, spec/13 R301). -/
def State.countArr (s : State) (a : Arr) : State :=
  let b := s.inst (a.launch, a.slot, a.unit)
  let b1 := b.upd a.thr fun x => { x with cnt := a.phase :: x.cnt.filter (b.c ≤ ·) }
  let b2 := if !a.release then b1
            else if a.phase = b.c then { b1 with rel := s.ck + 1 } else { b1 with relUp := s.ck + 1 }
  let s1 := s.setInst b2
  match a.release, a.launch with
  | true, some e => s1.sendLaunch e
  | _, _ => s1

/-- BARRIER_ARRIVAL: the instance counts the arrival. -/
def execBarrierArrival (place : Nat) (s : State) : Out :=
  s.act <|
    match s.arrs[place]? with
    | none => s
    | some a => if s.arrLeaves a then { s.countArr a with arrs := dropAt s.arrs place } else s

/-- Every member of phase C has arrived, and there is one (spec/12 R266). -/
def State.phaseFull (s : State) (b : BInst) : Bool :=
  b.thr.any (fun p => p.2.member b.c) && b.thr.all (fun p => !p.2.member b.c || p.2.cnt.contains b.c) &&
    match b.launch with
    | some e => s.domain e b.slot b.unit == b.thr.length
    | none => true

/-- An entry owes updates, or blocks of its initial copy, of before a CK cycle. -/
def GEntry.owes (g : GEntry) (before : Nat) : Bool :=
  (g.st == .sync && g.since < before) || (g.sent ++ g.opened.toList).any fun b => b.since < before

/-- Updates of the launch's Glaze entries that a release arrival of the phase sent and that are not yet applied
(spec/13 R301). -/
def State.glazeOwes (s : State) (e rel : Nat) : Bool :=
  s.tiles.any fun t => t.2.glaze.any fun g => g.2.launch == some e && g.2.owes rel

/-- PHASE_COMPLETION: C becomes C + 1 (spec/12 R266, spec/13 R301). -/
def execPhaseCompletion (place : Nat) (s : State) : Out :=
  s.act <|
    match s.barriers[place]? with
    | none => s
    | some b =>
      let owes := match b.launch with | some e => s.glazeOwes e b.rel | none => false
      if s.phaseFull b ∧ !owes then
        { s with barriers := s.barriers.set place { b with c := b.c + 1, rel := b.relUp, relUp := 0 } }
      else s

/-! ### Wake registers (spec/12 R275–R277) -/

/-- WAKE: the bits are on their way to the target (spec/12 R275). -/
def execWake (o : Opnd) (s : State) : Out :=
  let a := (s.g o.ra).toNat
  let b := (s.g o.rb).toNat
  s.act <|
    if a / 2 ^ 16 ≠ 0 then s.illegalAddr (.wake o) (s.g o.ra)
    else if b / 2 ^ 32 ≠ 0 then s.illegalAddr (.wake o) (s.g o.rb)
    else
      let x := s.me
      let e := if s.onTile then x.launch else none
      let w : WakeMsg := ⟨s.cur, x.seq, e, (match e with | some n => (s.entry n).gen | none => 0), s.myCore, a, BitVec.ofNat 32 b,
        if x.gang then some (s.frame (oddOf s.cur)).seq else none⟩
      ({ s with wakes := s.wakes ++ [w] }).advance (o.halves 3)

/-- A frame holds a thread that a WAKE can name: started, not halted, and no odd slot of a gang. -/
def Frame.wakeable (x : Frame) : Bool :=
  (match x.kind with | .handler _ => false | _ => true) && x.stat ≠ .free && x.stat ≠ .gangOdd

/-- The frame of a WAKE's target: a thread of the launch that the sender belonged to. -/
def State.wakeTarget (s : State) (w : WakeMsg) : Option Nat :=
  match w.launch with
  | some e =>
    if (s.entry e).gen ≠ w.gen then none
    else (s.frames.find? fun p => p.2.launch == some e && p.2.ltid == w.ltid && p.2.wakeable).map (·.1)
  | none => if w.ltid < 4 ∧ (s.frame (frameKey w.core w.ltid)).wakeable then some (frameKey w.core w.ltid) else none

/-- WAKE_DELIVERY: the bits that left the sender after its earlier accesses were performed enter the target's WAKE, or
are discarded (spec/12 R275, R277). -/
def execWakeDelivery (place : Nat) (s : State) : Out :=
  s.act <|
    match s.wakes[place]? with
    | none => s
    | some w =>
      if !s.gangDone w.frame w.seq w.odd then s
      else
        let s1 := { s with wakes := dropAt s.wakes place }
        match s1.wakeTarget w with
        | some f => s1.updFrame f fun x => { x with wake := x.wake ||| w.mask.setWidth 64 }
        | none => s1

/-- SLEEP: takes the bits of its mask that are set, and holds until one is (spec/12 R276). -/
def execSleep (o : Opnd) (s : State) : Out :=
  let m := s.g o.ra
  let x := s.me.wake &&& m
  s.act <|
    if s.inHandler then s.illegalValue (.sleep o)
    else if m.toNat / 2 ^ 32 ≠ 0 then s.illegalAddr (.sleep o) m
    else if m = 0 then (s.setG o.ra 0).advance (o.halves 3)
    else if x = 0 then s
    else ((s.updMe fun y => { y with wake := y.wake &&& ~~~ x }).setG o.ra x).advance (o.halves 3)

/-- FENCE: holds until every earlier access of the thread is performed, in a gang those of both slots (spec/12 R278). -/
def execFence (o : Opnd) (s : State) : Out :=
  s.act <|
    if s.earlierDone s.cur s.me.seq ∧ (s.me.gang → s.earlierDone (oddOf s.cur) (s.frame (oddOf s.cur)).seq) then
      s.advance (o.halves 3)
    else s

end Sys2Proof.Machine
end

