-- ==== Sys2Proof/Machine/Ticket.lean ====
section
/-!
DEFINITION. Machine/Ticket.lean: Praline tickets: windows, ticketed updates, gaps and draining (spec/13 R280–R294), and the
events at the Praline units.
-/
namespace Sys2Proof.Machine

/-! ### Windows and units -/

/-- Memory size of a window's element (spec/13 R282). -/
def Window.esize (w : Window) : Nat := (ET.ofCode w.et).msize
/-- The element whose first byte stands at a location. -/
def Window.elemAt (w : Window) (loc : Nat) : Option Nat :=
  if (loc - w.loc) % w.esize = 0 then some ((loc - w.loc) / w.esize) else none
/-- Next-ticket counter of an element: 0 when the window opens (spec/13 R283). -/
def Window.counter (w : Window) (e : Nat) : Nat := lookD w.ctr e 0

/-- Home unit of a location: tile, or 65,536 + L2 slice (spec/13 R280). -/
def State.homeUnit (s : State) (loc : Nat) : Nat :=
  if loc < 2 ^ 48 then loc / l1Bytes * 64 + (bankOf (s.l1mapOf (loc / l1Bytes)) (loc % l1Bytes)).1
  else 65536 + homeSlice (loc - 2 ^ 48)
/-- Pending updates of a unit, in order of acceptance. -/
def State.pendAt (s : State) (u : Nat) : List Upd := if u < 65536 then (s.tile u).pend else (s.slice (u - 65536)).pend
/-- Writes the pending updates of a unit. -/
def State.setPend (s : State) (u : Nat) (l : List Upd) : State :=
  if u < 65536 then s.updTile u fun t => { t with pend := l }
  else s.setSlice (u - 65536) { s.slice (u - 65536) with pend := l }

/-- A pending entry of the class is free: 128 or 512 in a unit, 16 or 32 of them for urgent launches alone
(spec/13 R280). -/
def roomFor (unit : Nat) (urg : Bool) (l : List Upd) : Bool :=
  let cap := if unit < 65536 then 128 else 512
  let rsv := if unit < 65536 then 16 else 32
  let us := (l.filter (·.urg)).length
  let ns := l.length - us
  if urg then ns + us < cap else ns + max rsv us < cap

/-- A window has a pending update at an element. -/
def pendsFor (l : List Upd) (w e : Nat) : List Upd := l.filter fun u => u.window == w && u.elem == e
/-- Updates of a window that units hold. -/
def State.windowPending (s : State) (w : Nat) : Bool :=
  s.tiles.any (fun t => t.2.pend.any fun u => u.window == w) || s.slices.any fun x => x.2.pend.any fun u => u.window == w
/-- Updates in ticket slots that lie in a window. -/
def State.windowSlotted (s : State) (n : Nat) (w : Window) : Bool :=
  s.frames.any fun x => x.2.tickets.any fun t => match t with
    | some u => u.launch == w.launch && (match s.windowAt u.launch u.loc with | some (m, _) => m == n | none => false)
    | none => false

/-- Writes a window. -/
def State.setWindow (s : State) (n : Nat) (w : Window) : State := { s with windows := put s.windows n w }
/-- A window that is open in the launch. -/
def State.openIn (s : State) (e n : Nat) : Option Window :=
  match s.window n with
  | some w => if w.launch = e then some w else none
  | none => none

/-- Praline and Glaze instructions exist in the threads of launches on tiles alone (spec/13 R294). -/
def State.withLaunch (s : State) (i : Instr) (go : Nat → State) : State :=
  if s.inHandler ∨ !s.onTile then s.illegalValue i
  else match s.me.launch with
    | some e => go e
    | none => s.illegalValue i

/-- A TSKIP has sent some of its skip updates: no boundary stands between them. -/
def Frame.midSkip (x : Frame) : Bool := 0 < x.prog && x.prog ≤ 65536

/-- Place of a free ticket slot of a frame (spec/13 R285). -/
def Frame.freeTicket (x : Frame) : Option Nat := (findAt Option.isNone x.tickets 0).map (·.1)
/-- Writes a ticket slot. -/
def State.setTicket (s : State) (f n : Nat) (u : Option Upd) : State :=
  s.updFrame f fun x => { x with tickets := x.tickets.set n u }

/-! ### TADD and TSKIP -/

/-- Element types of a window (spec/13 R282). -/
def ticketEt (et : Nat) : Bool := [4, 5, 8, 10, 11, 12, 13].contains et

/-- A ticketed update of the executing thread. -/
def State.newUpd (s : State) (e ea : Nat) (skip : Bool) (et ticket : Nat) (value : Word) (rnd : List (BitVec 64))
    (m : Mods) : Upd :=
  let x := s.me
  { frame := s.cur, launch := e, urg := s.inUrgent, va := ea, loc := (s.targetOf s.cur ea).loc,
    crumb := crumbOf x.region ea, cp := m.cp, et := et, skip := skip, ticket := ticket, value := value, arith := x.arith,
    rnd := rnd.map (·.setWidth 32), strong := m.strong, seq := x.seq, ltid := x.ltid, window := 0, elem := 0,
    refused := false, held := false }

/-- Words that a TADD draws: one per part of a floating type in stochastic mode (spec/02 R55). -/
def taddWords (t : ET) : Nat := if t.isFlt then 1 else if t = .cf16 then 2 else 0

/-- TADD: the update takes a ticket slot and leaves for its home unit (spec/13 R285). -/
def execTadd (o : Opnd) (s : State) : Out :=
  let ea := (s.g o.rb).toNat
  let t := (s.g o.rc).toNat
  s.act <| s.withLaunch (.tadd o) fun e =>
    if t / 65536 ≠ 0 then s.illegalAddr (.tadd o) (s.g o.rc)
    else match s.scalarCheck ea o.et.msize .rw .other false with
      | (s1, some (c, d, a)) => s1.trap c d (BitVec.ofNat 64 a)
      | (s1, none) =>
        match s1.me.freeTicket with
        | none => s1
        | some n =>
          let (s2, ws, wrap) := s1.drawStoch (taddWords o.et)
          let u := s1.newUpd e ea false o.et.code t (s.g o.ra) ws (modsOf o)
          s2.retire (o.halves 3) (rngwFlag wrap fun _ => 0) fun s3 => s3.setTicket s3.cur n (some u)

/-- One skip update of a TSKIP takes a ticket slot. -/
def State.skipOne (s : State) (e ea ticket n : Nat) : State :=
  s.setTicket s.cur n (some (s.newUpd e (trunc64 ea) true 0 ticket 0 [] ⟨false, 6, 0⟩))

/-- Checks of a global span, one for each 2 MiB granule (spec/14 R307: no entry divides one). -/
def State.globSpanDenied (s : State) (f : Nat) (need : Need) (a fin : Nat) : Nat → State × Option (Nat × Nat)
  | 0 => (s, none)
  | n + 1 =>
    if a ≥ fin then (s, none)
    else match s.checkAddr f a 1 need .other with
      | (s1, some (_, d)) => (s1, some (d, a))
      | (s1, none) => s1.globSpanDenied f need (a / 2 ^ 21 * 2 ^ 21 + 2 ^ 21) fin n

/-- The rights of the elements of a TSKIP, R and W (spec/14 R306): DETAIL and the lowest address found to fail.  DEDUCED: they
are checked before the first skip update leaves, and trap 0x05, though the entry of TSKIP lists no such trap (log 23). -/
def State.skipDenied (s : State) (f ea len : Nat) : State × Option (Nat × Nat) :=
  match windowOf ea with
  | .glob => s.globSpanDenied f .rw ea (min (ea + len) (2 ^ 48)) 34
  | _ => match s.checkAddr f ea 1 .rw .other with
    | (s1, some (_, d)) => (s1, some (d, ea))
    | (s1, none) => (s1, none)

/-- Element size of the window of the launch that holds a TSKIP's address, and how many skip updates it sends: a single one
where no window holds it (spec/13, TSKIP). -/
def State.skipRun (s : State) (e ea n : Nat) : Nat × Nat :=
  match s.windowAt e (s.targetOf s.cur ea).loc with
  | some (_, w) => (w.esize, n)
  | none => (0, 1)

/-- The next skip update of a TSKIP.  The element size and the number are those found at its issue: while it sends the rest,
`since` holds the size. -/
def State.skipNext (s : State) (o : Opnd) (e ea t step total : Nat) : State :=
  match s.me.freeTicket with
  | none => s
  | some k =>
    let s1 := s.skipOne e (ea + s.me.prog * step) t k
    if s.me.prog + 1 ≥ total then s1.advance (o.halves 3)
    else s1.updMe fun x => { x with prog := x.prog + 1, since := step }

/-- TSKIP: one skip update for each element, one at a time as slots are free (spec/13 R289). -/
def execTskip (o : Opnd) (s : State) : Out :=
  let n := (s.g o.ra).toNat
  let ea := (s.g o.rb).toNat
  let t := (s.g o.rc).toNat
  s.act <| s.withLaunch (.tskip o) fun e =>
    if n = 0 ∨ n > 65536 then s.illegalAddr (.tskip o) (s.g o.ra)
    else if t / 65536 ≠ 0 then s.illegalAddr (.tskip o) (s.g o.rc)
    else if ea % 2 ≠ 0 then s.trap 0x04 0 (s.g o.rb)
    else if s.me.midSkip then s.skipNext o e ea t s.me.since n
    else
      let (step, total) := s.skipRun e ea n
      match s.skipDenied s.cur ea (max 1 (step * total)) with
      | (s1, some (d, a)) => s1.trap 0x05 d (BitVec.ofNat 64 a)
      | (s1, none) => s1.skipNext o e ea t step total

/-! ### TOPEN, TCLOSE, TDRAIN -/

/-- Fields of a control word (spec/13 R282). -/
def winEt (c : Word) : Nat := c.toNat % 16
/-- NELM. -/
def winNelm (c : Word) : Nat := c.toNat / 16 % 2 ^ 24 + 1
/-- NTM1. -/
def winNtm1 (c : Word) : Nat := c.toNat / 2 ^ 28 % 65536
/-- TLIM. -/
def winTlim (c : Word) : Nat := c.toNat / 2 ^ 44 % 256
/-- A valid element type and no reserved bit. -/
def winOk (c : Word) : Bool := ticketEt (winEt c) && c.toNat / 2 ^ 52 == 0

/-- The lowest byte of a window's span that breaks the bounds of R281 or the rights of a store: DETAIL and address
(spec/13, TOPEN). -/
def State.windowDenied (s : State) (f base len : Nat) : State × Option (Nat × Nat) :=
  match windowOf base with
  | .own _ | .lcl _ _ =>
    match s.checkAddr f base 1 .w .other with
    | (s1, some (_, d)) => (s1, some (d, base))
    | (s1, none) =>
      match s1.l1Place f base with
      | some (p, o, _) =>
        let lim := if slotOf f = 4 then l1Bytes else ubOf (s1.l1mapOf p)
        (s1, if o + len > lim then some (0, base + (lim - o)) else none)
      | none => (s1, some (0, base))
  | .glob =>
    match s.globSpanDenied f .w base (min (base + len) (2 ^ 48)) 34 with
    | (s1, some x) => (s1, some x)
    | (s1, none) => (s1, if base + len > 2 ^ 48 then some (0, 2 ^ 48) else none)
  | _ => (s, some (0, base))

/-- Spans reserved in the overflow area of a partition on a die: offset and end. -/
def State.reservedSpans (s : State) (die part : Nat) : List (Nat × Nat) :=
  (s.windows.filter fun w => w.2.die == die && w.2.part == part).map fun w => (w.2.ofs, w.2.ofs + w.2.bytes)

/-- A place for a backing array: the lowest contiguous free span (spec/13 R287, spec/14 R319). -/
def State.reserveSpan (s : State) (die part bytes : Nat) : Option Nat :=
  let size := s.regField (.pralovf die part) 11 0 * 2 ^ 21
  let sp := s.reservedSpans die part
  let fits (o : Nat) : Bool := o + bytes ≤ size && sp.all fun p => o + bytes ≤ p.1 || p.2 ≤ o
  ((0 :: sp.map (·.2)).filter fits).min?

/-- The lowest window number that is not open. -/
def State.freeWindow (s : State) : Option Nat := (List.range 256).find? fun n => (s.window n).isNone

/-- The status of a TOPEN, and the state after it (spec/13, TOPEN): OK 0, FULL 1, OVERLAP 2, NOSPACE 3. -/
def State.openWindow (s : State) (e base : Nat) (c : Word) : State × Nat :=
  let loc := (s.targetOf s.cur base).loc
  let len := winNelm c * (ET.ofCode (winEt c)).msize
  match s.freeWindow with
  | none => (s, 1)
  | some n =>
    if (s.windows.filter fun w => w.2.launch == e).length ≥ 8 then (s, 1)
    else if s.windows.any fun w => w.2.loc < loc + len && loc < w.2.loc + w.2.nelm * w.2.esize then (s, 2)
    else
      let die := dieOf s.myCore
      match s.reserveSpan die s.me.part (4 * winNelm c) with
      | none => (s, 3)
      | some o =>
        let w : Window :=
          { launch := e, owner := s.cur, urg := s.inUrgent, loc := loc, va := base, et := winEt c, nelm := winNelm c,
            ntm1 := winNtm1 c, tlim := winTlim c, ctr := [], gap := [], wflags := [], die := die, ofs := o,
            bytes := 4 * winNelm c, part := s.me.part }
        (s.setWindow n w, n * 256)

/-- TOPEN: opens a window (spec/13 R281, R282). -/
def execTopen (o : Opnd) (s : State) : Out :=
  let b := s.g o.rb
  let c := s.g o.rc
  s.act <| s.withLaunch (.topen o) fun e =>
    if !winOk c then s.illegalAddr (.topen o) c
    else if b.toNat % (ET.ofCode (winEt c)).msize ≠ 0 then s.trap 0x04 0 b
    else match s.windowDenied s.cur b.toNat (winNelm c * (ET.ofCode (winEt c)).msize) with
      | (s1, some (d, a)) => s1.trap 0x05 d (BitVec.ofNat 64 a)
      | (s1, none) =>
        let (s2, r) := s1.openWindow e b.toNat c
        (s2.setG o.ra (BitVec.ofNat 64 r)).advance (o.halves 3)

/-- TCLOSE: closes a window that holds nothing (spec/13, TCLOSE). -/
def execTclose (o : Opnd) (s : State) : Out :=
  let b := s.g o.rb
  s.act <| s.withLaunch (.tclose o) fun e =>
    match if b.toNat < 256 then s.openIn e b.toNat else none with
    | none => s.illegalAddr (.tclose o) b
    | some w =>
      if s.windowPending b.toNat ∨ s.windowSlotted b.toNat w then (s.setG o.ra 1).advance (o.halves 3)
      else ({ s with windows := drop s.windows b.toNat }.setG o.ra 0).advance (o.halves 3)

/-- First element and count that a TDRAIN names. -/
def drainRange (o : Opnd) (w : Window) (c : Word) : Nat × Nat :=
  if o.hasR then (c.toNat % 2 ^ 24, c.toNat / 2 ^ 24 % 2 ^ 24 + 1) else (0, w.nelm)

/-- Every element of a range has a counter of `b` or more (spec/13 R291). -/
def Window.drained (w : Window) (first count b : Nat) : Bool :=
  b == 0 || (w.ctr.filter fun p => first ≤ p.1 && p.1 < first + count && b ≤ p.2).length == count

/-- TDRAIN: holds until the range is drained below the bound; over the whole window and all its tickets it merges the
flag record (spec/13 R291, R292). -/
def execTdrain (o : Opnd) (s : State) : Out :=
  let a := s.g o.ra
  let b := (s.g o.rb).toNat
  let c := if o.hasR then s.g o.rc else 0
  s.act <| s.withLaunch (.tdrain o) fun e =>
    match if a.toNat < 256 then s.openIn e a.toNat else none with
    | none => s.illegalAddr (.tdrain o) a
    | some w =>
      let (first, count) := drainRange o w c
      if b > w.ntm1 + 1 then s.illegalAddr (.tdrain o) (s.g o.rb)
      else if c.toNat / 2 ^ 48 ≠ 0 ∨ first + count > w.nelm then s.illegalAddr (.tdrain o) c
      else if !w.drained first count b then s
      else
        let s1 := s.advance (o.halves 3)
        if first = 0 ∧ count = w.nelm ∧ b = w.ntm1 + 1 then s1.observe w.wflags true else s1

/-! ### The events at the units -/

/-- An update in a ticket slot ends with a late outcome: it is discarded and its slot frees (spec/13 R290). -/
def State.ticketFails (s : State) (f n : Nat) (u : Upd) (cause detail : Nat) : State :=
  (s.setTicket f n none).report f ⟨u.seq, 0, cause, u.va, detail⟩

/-- The unit accepts an update (spec/13 R285); the gap of its element begins to count when none was pending. -/
def State.acceptUpd (s : State) (f n : Nat) (u : Upd) (wn e : Nat) (w : Window) : State :=
  let unit := s.homeUnit u.loc
  let first := (pendsFor (s.pendAt unit) wn e).isEmpty
  let s1 := (s.setTicket f n none).setPend unit
    (s.pendAt unit ++ [{ u with window := wn, elem := e, refused := false, held := false }])
  let s2 := if first then s1.setWindow wn { w with gap := put w.gap e s.ck } else s1
  s2.tryUnpark f

/-- The page of a global update is at hand at its home slice; otherwise its fault is recorded and it stays in its slot
(spec/04 R100, spec/14 R311).  A skip touches no memory and walks no page (spec/13 R284). -/
def State.updPage (s : State) (f n : Nat) (u : Upd) : State × Bool :=
  if u.loc < 2 ^ 48 ∨ u.skip then (s, true)
  else
    let va := u.loc - 2 ^ 48
    match s.pageHand va u.crumb with
    | (s1, none) => (s1, true)
    | (s1, some e) =>
      match s1.faultRecord f va u.crumb true false e with
      | (s2, none) => (s2, false)
      | (s2, some fid) =>
        let s3 := s2.setTicket f n (some { u with refused := true, held := true })
        (if (s3.frame f).fids.contains fid then s3
         else (s3.waitRecord f fid).report f ⟨u.seq, 0, 0x06, u.va, 3⟩, false)

/-- An update that the unit can take is accepted once its page is at hand. -/
def State.admitUpd (s : State) (f n : Nat) (u : Upd) (wn e : Nat) (w : Window) : State :=
  match s.updPage f n u with
  | (s1, true) => s1.acceptUpd f n u wn e w
  | (s1, false) => s1

/-- The home unit judges an update (spec/13 R283, R285, R290). -/
def State.judgeUpd (s : State) (f n : Nat) (u : Upd) : State :=
  match s.windowAt u.launch u.loc with
  | none => s.ticketFails f n u 0x0C 4
  | some (wn, w) =>
    match w.elemAt u.loc with
    | none => s.ticketFails f n u 0x0C 4
    | some e =>
      let l := s.pendAt (s.homeUnit u.loc)
      if !u.skip ∧ u.et ≠ w.et then s.ticketFails f n u 0x0C (5 + wn * 256)
      else if u.ticket > w.ntm1 then s.ticketFails f n u 0x0C (3 + wn * 256)
      else if u.ticket < w.counter e ∨ (pendsFor l wn e).any (fun v => v.ticket == u.ticket) then
        s.ticketFails f n u 0x0C (2 + wn * 256)
      else if u.ticket = w.counter e ∨ roomFor (s.homeUnit u.loc) u.urg l then s.admitUpd f n u wn e w
      else s.setTicket f n (some { u with refused := true })

/-- A strong access of the thread before an update is not performed yet: nothing later of the thread is performed before it
(spec/09 R217). -/
def State.strongBefore (s : State) (f seq : Nat) : Bool := s.accs.any fun a => a.frame == f && a.strong && a.seq < seq && !a.done

/-- An update that has left its core reaches its home unit (spec/13 R285, R291). -/
def State.presentUpd (s : State) (f n : Nat) (u : Upd) : State :=
  let pcl := u.loc / l1Bytes
  if (u.strong ∧ !s.earlierDone f u.seq) ∨ s.strongBefore f u.seq then s
  else if u.loc < 2 ^ 48 ∧ pcl ≠ clusterOf (coreOf f) ∧ !s.clusterLive pcl then s.ticketFails f n u 0x11 3
  else if u.loc ≥ 2 ^ 48 ∧ s.wipe then s
  else s.judgeUpd f n u

/-- TICKET_ARRIVAL: an update reaches its home unit for the first time. -/
def execTicketArrival (frame slot : Nat) (s : State) : Out :=
  s.act <|
    match (s.frame frame).tickets.getD slot none with
    | some u => if u.refused then s else s.presentUpd frame slot u
    | none => s

/-- TICKET_REPRESENT: an update that was refused is presented again. -/
def execTicketRepresent (frame slot : Nat) (s : State) : Out :=
  s.act <|
    match (s.frame frame).tickets.getD slot none with
    | some u => if u.refused then s.presentUpd frame slot u else s
    | none => s

/-- The new value of an element and its flags (spec/13 R284). -/
def ticketNew (et : Nat) (arith : Word) (rnd : List (BitVec 32)) (old x : Nat) : Nat × Nat :=
  let t := ET.ofCode et
  let a := AR.ofWord arith
  let k := 2 ^ t.partWidth
  let one (i : Nat) : Nat × Nat :=
    let p := old / k ^ i % k
    let q := x / k ^ i % k
    if t.part.isFlt then fpAdd (fmtOf t.part) a (rnd.getD i 0).toNat false p q
    else narrowPart a t.part (partVal t.part p + partVal t.part q)
  let r0 := one 0
  if t.isComplex then let r1 := one 1; (r0.1 + r1.1 * k, r0.2 ||| r1.2) else r0

/-- The frame still holds the thread that issued an update. -/
def State.updIssuer (s : State) (u : Upd) : Option Nat :=
  let x := s.frame u.frame
  if x.launch = some u.launch ∧ x.stat ≠ .free then some u.frame else none

/-- Writes the element of an update, in one grant; a poisoned word stays poisoned (spec/14 R322). -/
def State.applyAt (s : State) (u : Upd) (key n : Nat) : State × Nat :=
  let (r, fl) := ticketNew u.et u.arith u.rnd (s.readN key n) (u.value.toNat % 256 ^ n)
  let s1 := if (s.updIssuer u).isNone then s.noteOld (some u.launch) key u.loc else s
  (s1.performWrite (s.updIssuer u) u.va key u.loc n (BitVec.ofNat 64 r) (2 ^ n - 1), fl)

/-- Applies an update to memory: its flags, or why its page cannot be had (spec/13 R284).  One whose HOST page the port cannot write
is a late 0x11 of its thread (spec/16 R365); DEDUCED: it sets no flag (notes/assumptions/23.md).  In an L1 it is an access of the
memory-side requester of its tile (spec/09 R207). -/
def State.applyUpd (s : State) (u : Upd) (n : Nat) : State × Except WalkErr Nat :=
  if u.skip then (s, .ok 0)
  else if u.loc < 2 ^ 48 then
    let (s1, fl) := s.applyAt u u.loc n
    (s1.bankTook (u.loc / l1Bytes) (u.loc % l1Bytes) (1152 + s.homeUnit u.loc % 64), .ok fl)
  else
    let va := u.loc - 2 ^ 48
    match s.reach va (s.entry u.launch).part u.cp u.crumb with
    | (s1, .ok (.key k)) => let (s2, fl) := s1.applyAt u k n; (s2.markDirty va, .ok fl)
    | (s1, .ok (.host b)) =>
      let (s2, v) := s1.draw
      let (r, fl) := ticketNew u.et u.arith u.rnd (v.toNat % 256 ^ n) (u.value.toNat % 256 ^ n)
      match s2.toHost [(b, n, BitVec.ofNat 64 r)] with
      | (s3, true) => (s3.noteHost va, .ok fl)
      | (s3, false) => (match s3.updIssuer u with
        | some f => s3.report f ⟨u.seq, 0, 0x11, u.va, 3⟩
        | none => s3, .ok 0)
    | (s1, .error e) => (s1, .error e)

/-- An update whose page fault is held at its slice: the context of the thread that issued it (spec/14 R311). -/
def State.updFaulter (s : State) (u : Upd) : Faulter :=
  ⟨u.frame, (s.entry u.launch).ctx, some u.launch, (s.entry u.launch).part, u.urg, u.ltid⟩

/-- An accepted update meets a page without a translation: it stays pending, held by a fault record that its thread, while it
runs, waits for (spec/14 R311). -/
def State.holdPending (s : State) (unit : Nat) (u : Upd) (e : WalkErr) : State :=
  let va := u.loc - 2 ^ 48
  match s.recordFault (s.updFaulter u) va u.crumb true false e with
  | (s1, none) => s1
  | (s1, some fid) =>
    let s2 := s1.setPend unit (updWhere (· == u) (fun v => { v with held := true }) (s1.pendAt unit))
    match s.updIssuer u with
    | none => s2
    | some f => if (s2.frame f).fids.contains fid then s2 else (s2.waitRecord f fid).report f ⟨u.seq, 0, 0x06, u.va, 3⟩

/-- The window after an application to an element: counter, flag record, gap count (spec/13 R283, R289, R292). -/
def Window.applied (w : Window) (e fl ck : Nat) (more : Bool) : Window :=
  { w with ctr := put w.ctr e (w.counter e + 1),
           wflags := if fl = 0 then w.wflags else compressFlags (w.wflags ++ [(e, fl)]),
           gap := if more then put w.gap e ck else drop w.gap e }

/-- The unit applies a pending update of a window's element (spec/13 R283, R284). -/
def State.applyPending (s : State) (window elem : Nat) (w : Window) (u : Upd) : State :=
  let unit := s.homeUnit (w.loc + elem * w.esize)
  let l := s.pendAt unit
  match s.applyUpd u w.esize with
  | (s1, .error r) => s1.holdPending unit u r
  | (s1, .ok fl) =>
    ((s1.setPend unit (l.erase u)).setWindow window
      (w.applied elem fl s.ck (pendsFor (l.erase u) window elem ≠ []))).tryUnpark u.frame

/-- TICKET_APPLICATION: the unit applies the update whose ticket is the element's counter (spec/13 R283, R284). -/
def execTicketApplication (window elem : Nat) (s : State) : Out :=
  s.act <|
    match s.window window with
    | none => s
    | some w =>
      let unit := s.homeUnit (w.loc + elem * w.esize)
      match (s.pendAt unit).find? fun u => u.window == window && u.elem == elem && u.ticket == w.counter elem with
      | none => s
      | some u =>
        if s.wipe ∧ u.loc ≥ 2 ^ 48 then s
        else if u.loc < 2 ^ 48 ∧ !u.skip ∧
            !s.bankYields (u.loc / l1Bytes) (u.loc % l1Bytes) (1152 + unit % 64) u.urg then s
        else s.applyPending window elem w u

/-! ### The updates that a retiring core has committed (spec/06 R144 item 2) -/

/-- The updates in the ticket slots of a core's frames are presented to their units once more. -/
def State.presentAll (s : State) (core : Nat) : State :=
  ((List.range 5).flatMap fun k => (List.range 4).map fun n => (core * 5 + k, n)).foldl (fun s p =>
    match (s.frame p.1).tickets.getD p.2 none with
    | some u => s.presentUpd p.1 p.2 u
    | none => s) s

/-- Updates that the units hold for the threads of a core. -/
def State.updsFrom (s : State) (core : Nat) : List Upd :=
  ((s.tiles.flatMap fun t => t.2.pend) ++ (s.slices.flatMap fun x => x.2.pend)).filter fun u => coreOf u.frame == core && !u.held

/-- Applies those of a core's updates whose tickets are due, `n` rounds of them. -/
def State.applyDue (s : State) (core : Nat) : Nat → State
  | 0 => s
  | n + 1 =>
    ((s.updsFrom core).foldl (fun s u => match s.window u.window with
      | some w => if u.ticket = w.counter u.elem then s.applyPending u.window u.elem w u else s
      | none => s) s).applyDue core n

/-- The updates that a core's threads have committed go on: presented, and applied as far as the order of tickets lets them, before
their launch ends (spec/06 R144 item 2).  DEDUCED: those whose turn has not come are discarded with the windows of the launch
(spec/13 R293; notes/assumptions/29.md). -/
def State.settleUpds (s : State) (core : Nat) : State :=
  let s1 := s.presentAll core
  s1.applyDue core (s1.updsFrom core).length

/-- The owner of a window still runs. -/
def State.ownerLives (s : State) (w : Window) : Bool :=
  let x := s.frame w.owner
  x.launch == some w.launch && x.stat != .free && (match x.kind with | .handler _ => false | _ => true)

/-- Elements of a window whose gap limit has been reached (spec/13 R289). -/
def Window.timedOut (w : Window) (ck : Nat) : List Nat :=
  if w.tlim = 0 then [] else (w.gap.filter fun g => g.2 + w.tlim * 4096 ≤ ck).map (·.1)

/-- TICKET_GAP_TIMEOUT: reports to the owner, or kills the launch when the owner has halted (spec/13 R289, R290). -/
def execTicketGapTimeout (window : Nat) (s : State) : Out :=
  s.act <|
    match s.window window with
    | none => s
    | some w =>
      match w.timedOut s.ck with
      | [] => s
      | e :: _ =>
        if s.ownerLives w then
          (s.setWindow window { w with gap := w.gap.map fun g => if g.2 + w.tlim * 4096 ≤ s.ck then (g.1, s.ck) else g }).report
            w.owner ⟨(s.frame w.owner).seq, 0, 0x0C, w.va + e * w.esize, 1 + window * 256⟩
        else s.killLaunch w.launch 0x06 0

/-- The gap counts of a launch pause while one of its threads is frozen (spec/13 R289). -/
def State.pauseGaps (s : State) (ck : Nat) : State :=
  let frozen (e : Nat) : Bool := s.frames.any fun x => x.2.launch == some e && x.2.frozen
  { s with windows := mapVals (fun _ w =>
      if w.gap ≠ [] ∧ frozen w.launch then { w with gap := w.gap.map fun g => (g.1, g.2 + ck) } else w) s.windows }

end Sys2Proof.Machine
end

