-- ==== Sys2Proof/Machine/Glaze.lean ====
section
/-!
DEFINITION. Machine/Glaze.lean: Glaze subscriptions (spec/13 R295–R304): their instructions and the events that copy,
batch and apply updates; what a granted write forwards stands in Machine/Memory.lean.
-/
namespace Sys2Proof.Machine

/-- An entry of a tile's Glaze table. -/
def State.glaze (s : State) (tile n : Nat) : GEntry := lookD (s.tile tile).glaze n .none
/-- Writes an entry; a FREE entry is dropped. -/
def State.setGlaze (s : State) (tile n : Nat) (g : GEntry) : State :=
  s.updTile tile fun t => { t with glaze := if g.st = .free then drop t.glaze n else put t.glaze n g }
/-- Every entry that is not FREE, with the physical tile that holds it. -/
def State.glazeAll (s : State) : List (Nat × GEntry) := s.tiles.flatMap fun t => t.2.glaze.map fun g => (t.1, g.2)

/-- Numbers of the frame's range (spec/13 R295). -/
def glazeRange (f : Nat) : List Nat := if slotOf f = 4 then [28, 29, 30, 31] else List.range 28

/-- Storage key of a span's base with the bytes that follow it up to the bound that R296 sets: the end of the cluster's L1,
or of what lies below the urgent band for a normal context. -/
def State.glazeSpan (s : State) (f base : Nat) : Option (Nat × Nat × Nat × Nat) :=
  (s.l1Place f base).map fun (p, o, c) =>
    (p, l1Key p o, (if slotOf f = 4 then l1Bytes else ubOf (s.l1mapOf p)) - o, c)

/-- Two spans of `len` bytes overlap. -/
def spansMeet (a la b lb : Nat) : Bool := a < b + lb && b < a + la

/-- Checks of R296, in the order of their reasons: reason and base concerned. -/
def State.glazeBreach (s : State) (f sub pub len : Nat) : Option (Nat × Nat) :=
  if sub % 64 ≠ 0 then some (1, sub)
  else if pub % 64 ≠ 0 then some (1, pub)
  else match s.glazeSpan f sub with
    | none => some (2, sub)
    | some (p, sk, room, _) =>
      if p ≠ clusterOf (coreOf f) ∨ room < len then some (2, sub)
      else match s.glazeSpan f pub with
        | none => some (3, pub)
        | some (q, pk, room', _) =>
          if q / 8 ≠ dieOf (coreOf f) ∨ room' < len then some (3, pub)
          else
            let onDie := s.glazeAll.filter fun g => g.1 / 512 == dieOf (coreOf f)
            let subMeets := onDie.any fun g => spansMeet sk len g.2.pub g.2.len ||
              (g.1 == tileOf (coreOf f) && spansMeet sk len g.2.sub g.2.len)
            let pubMeets := onDie.any fun g => spansMeet pk len g.2.sub g.2.len
            if spansMeet sk len pk len ∨ subMeets then some (4, sub)
            else if pubMeets then some (4, pub) else none

/-- Distinct publisher spans that a physical cluster's index holds (spec/13 R295). -/
def State.pubIndex (s : State) (pcl : Nat) : List (Nat × Nat) :=
  ((s.glazeAll.filter fun g => g.2.pub / l1Bytes == pcl).map fun g => (g.2.pub, g.2.len)).eraseDups

/-- The result of a GSUB whose checks hold: FULL 1, PFULL 2, or the entry. -/
def State.subscribe (s : State) (f sub pub len : Nat) (init : Bool) : State × Nat :=
  let tile := tileOf (coreOf f)
  match (glazeRange f).find? fun n => (s.glaze tile n).st == .free with
  | none => (s, 1)
  | some n =>
    match s.glazeSpan f sub, s.glazeSpan f pub with
    | some (_, sk, _, _), some (q, pk, _, c) =>
      let idx := s.pubIndex q
      if !idx.contains (pk, len) ∧ idx.length ≥ 128 then (s, 2)
      else
        (s.setGlaze tile n
          { st := if init then .sync else .active, owner := f, launch := (s.frame f).launch, pub := pk, sub := sk,
            len := len, subVa := sub, pcl := c, copied := 0, since := s.ck, opened := Option.none, sent := [] }, n * 256)
    | _, _ => (s, 1)

/-- GSUB: creates a subscription (spec/13 R296, R297). -/
def execGsub (o : Opnd) (s : State) : Out :=
  let a := s.g o.ra
  let b := (s.g o.rb).toNat
  let c := (s.g o.rc).toNat
  let len := (a.toNat % 65536 + 1) * 64
  s.act <| s.withLaunch (.gsub o) fun _ =>
    if a.toNat / 2 ^ 17 ≠ 0 then s.illegalAddr (.gsub o) a
    else match s.glazeBreach s.cur b c len with
      | some (r, x) => s.trap 0x12 r (BitVec.ofNat 64 x)
      | none =>
        match s.checkAddr s.cur b 1 .w .other with
        | (s1, some (_, d)) => s1.trap 0x05 d (BitVec.ofNat 64 b)
        | (s1, none) =>
          match s1.checkAddr s.cur c 1 .r .other with
          | (s2, some (_, d)) => s2.trap 0x05 d (BitVec.ofNat 64 c)
          | (s2, none) =>
            let (s3, r) := s2.subscribe s.cur b c len (a.toNat.testBit 16)
            (s3.setG o.ra (BitVec.ofNat 64 r)).advance (o.halves 3)

/-- An entry ends: its held batch is sent, and it is FREE once nothing sent is left; a DEAD entry is FREE at once
(spec/13 R297). -/
def GEntry.close (g : GEntry) : GEntry :=
  match g.st with
  | .sync | .active =>
    let g1 := g.send
    if g1.sent = [] then .none else { g1 with st := .closing }
  | .dead => .none
  | _ => g

/-- The owner of an entry, when it still runs: it receives the poison events of its batches (spec/14 R322). -/
def State.glazeOwner (s : State) (g : GEntry) : Option Nat :=
  if (s.frame g.owner).launch = g.launch ∧ (s.frame g.owner).stat ≠ .free then some g.owner else none

/-- Applies one word of a batch under its byte mask, as the memory-side requester of the subscriber's tile (spec/09 R207). -/
def State.applyWord (s : State) (tile : Nat) (g : GEntry) (b : Batch) (w : Nat) : State :=
  let bs := b.bytes.filter fun p => p.1 / 8 == w
  if bs = [] then s
  else
    let mask := bs.foldl (fun m p => m + 2 ^ (p.1 % 8)) 0
    let data := bs.foldl (fun d p => d + p.2.toNat * 256 ^ (p.1 % 8)) 0
    let k := g.sub + b.block * 64 + w * 8
    let va := g.subVa + b.block * 64 + w * 8
    let s1 := s.l1Write (s.glazeOwner g) va (k / l1Bytes) (k % l1Bytes) 8 (1152 + tileInCluster tile) (BitVec.ofNat 64 data) mask
    if b.bad.contains w then s1.setPoison k true else s1

/-- Applies a batch at the subscriber span (spec/13 R299). -/
def State.applyBatch (s : State) (tile : Nat) (g : GEntry) (b : Batch) : State :=
  (List.range 8).foldl (fun s w => s.applyWord tile g b w) s

/-- What a DEAD entry has sent is applied before it is FREE (spec/13 R297, R303). -/
def State.applyDead (s : State) (tile : Nat) (g : GEntry) : State :=
  if g.st = .dead then g.sent.foldl (fun s b => s.applyBatch tile g b) s else s

/-- Goes on with an entry number of the frame's range; otherwise trap 0x01 with the number (spec/13 R295). -/
def State.withEntry (s : State) (i : Instr) (n : Word) (go : GEntry → State) : State :=
  s.withLaunch i fun _ =>
    if (glazeRange s.cur).contains n.toNat then go (s.glaze (tileOf s.myCore) n.toNat) else s.illegalAddr i n

/-- GUNSUB: ends a subscription: 0, NOENTRY 1, or 2 when it was already CLOSING. -/
def execGunsub (o : Opnd) (s : State) : Out :=
  let n := s.g o.rb
  s.act <| s.withEntry (.gunsub o) n fun g =>
    let r := match g.st with | .free => 1 | .closing => 2 | _ => 0
    (((s.applyDead (tileOf s.myCore) g).setGlaze (tileOf s.myCore) n.toNat g.close).setG o.ra (BitVec.ofNat 64 r)).advance
      (o.halves 3)

/-- The word of GSTAT. -/
def gstatWord (n : Nat) (g : GEntry) : Word :=
  let st := match g.st with | .free => 0 | .sync => 1 | .active => 2 | .closing => 3 | .dead => 4
  let urg := if n ≥ 28 then 8 else 0
  if g.st = .free then BitVec.ofNat 64 urg
  else BitVec.ofNat 64 (st + urg + (if g.sent ≠ [] ∨ g.opened.isSome then 16 else 0) + (g.len / 64 - 1) % 65536 * 32 +
    g.pcl % 16 * 2 ^ 21 + g.pub % l1Bytes / 64 * 2 ^ 25 + g.sub % l1Bytes / 64 * 2 ^ 44)

/-- GSTAT: reads an entry. -/
def execGstat (o : Opnd) (s : State) : Out :=
  let n := s.g o.rb
  s.act <| s.withEntry (.gstat o) n fun g => (s.setG o.ra (gstatWord n.toNat g)).advance (o.halves 3)

/-- Sends every open batch of the package. -/
def State.sendAll (s : State) : State :=
  { s with tiles := mapVals (fun _ t => { t with glaze := mapVals (fun _ g => g.send) t.glaze }) s.tiles }

/-- GFLUSH: once the thread's earlier writes are granted, sends every open batch, and holds until every update and initial
copy of before then has been applied (spec/13 R302). -/
def execGflush (o : Opnd) (s : State) : Out :=
  let x := s.me
  s.act <| s.withLaunch (.gflush o) fun _ =>
    if x.since = 0 then
      if s.earlierDone s.cur x.seq then s.sendAll.updMe fun y => { y with since := s.ck + 1 } else s
    else if s.glazeAll.any fun g => g.2.owes x.since then s
    else s.advance (o.halves 3)

/-! ### Events -/

/-- Nothing answers a unit of a tile at a key of another cluster's L1 (spec/15 R348, spec/16 R376). -/
def State.glazeNak (s : State) (c key : Nat) : Bool := key / l1Bytes != c && !s.clusterLive (key / l1Bytes)

/-- Requester number of a tile's memory-side unit at a bank of a cluster: across clusters it comes by the network port
(spec/09 R207). -/
def memSideReq (tile pcl : Nat) : Nat := if tile / 64 = pcl then 1152 + tileInCluster tile else 1216

/-- The banks of words of an L1 would grant a Glaze entry of a tile now: urgent for an entry of the urgent range (spec/13 R295,
spec/09 R207). -/
def State.glazeYields (s : State) (tile entry key : Nat) (ws : List Nat) : Bool :=
  s.banksYield (key / l1Bytes) (ws.map fun w => key % l1Bytes + 8 * w) (memSideReq tile (key / l1Bytes)) (entry ≥ 28)

/-- Words of its block that a batch writes. -/
def Batch.words (b : Batch) : List Nat := (List.range 8).filter fun w => b.bytes.any fun p => p.1 / 8 == w

/-- GLAZE_INITIAL_COPY: one block of the publisher span is read and sent as one update (spec/13 R298).  DEDUCED: while the
publisher's cluster answers nothing, the read is repeated (log 23). -/
def execGlazeInitialCopy (tile entry : Nat) (s : State) : Out :=
  s.act <|
    let g := s.glaze tile entry
    let k := g.pub + g.copied * 64
    if g.st ≠ .sync ∨ g.copied * 64 ≥ g.len ∨ s.glazeNak (tile / 64) g.pub ∨ !s.glazeYields tile entry k (List.range 8) then s
    else
      let bs := (s.readBytes k 64).mapIdx fun i b => (g.copied * 64 + i, b)
      let bad := (List.range 8).filter fun w => s.poisoned (k + 8 * w)
      let g1 := g.update s.ck (g.copied * 64) bs bad (g.copied * 64 + 64 ≥ g.len)
      ((List.range 8).foldl (fun s w => s.bankTook (k / l1Bytes) (k % l1Bytes + 8 * w) (memSideReq tile (k / l1Bytes))) s).setGlaze
        tile entry { g1 with copied := g.copied + 1 }

/-- GLAZE_BATCH_TIMEOUT: an open batch is sent 32 CK cycles after its first update (spec/13 R299). -/
def execGlazeBatchTimeout (tile entry : Nat) (s : State) : Out :=
  s.act <|
    let g := s.glaze tile entry
    match g.opened with
    | some b => if s.ck ≥ b.since + 32 then s.setGlaze tile entry g.send else s
    | none => s

/-- The entry after its oldest sent batch has been applied (spec/13 R297). -/
def GEntry.applied (g : GEntry) (b : Batch) (rest : List Batch) : GEntry :=
  let g1 := { g with sent := rest }
  match g.st with
  | .closing => if rest = [] then .none else g1
  | .sync => if b.last then { g1 with st := .active } else g1
  | _ => g1

/-- GLAZE_BATCH_APPLY: the oldest sent batch of an entry is applied at the subscriber span (spec/13 R299, R300).  A batch from
another cluster to one that answers nothing is refused, and the owner takes 0x11 (spec/16 R376).  DEDUCED: the refused batch
is gone (log 23). -/
def execGlazeBatchApply (tile entry : Nat) (s : State) : Out :=
  s.act <|
    let g := s.glaze tile entry
    match g.sent with
    | [] => s
    | b :: rest =>
      if g.sub / l1Bytes ≠ g.pub / l1Bytes ∧ !s.clusterLive (g.sub / l1Bytes) then
        let s1 := s.setGlaze tile entry (g.applied b rest)
        match s.glazeOwner g with
        | some f => s1.report f ⟨(s.frame f).seq, 0, 0x11, g.subVa + b.block * 64, 3⟩
        | none => s1
      else if !s.glazeYields tile entry (g.sub + b.block * 64) b.words then s
      else (s.applyBatch tile g b).setGlaze tile entry (g.applied b rest)

end Sys2Proof.Machine
end

