-- ==== Sys2Proof/Machine/Post.lean ====
section
/-!
DEFINITION. Machine/Post.lean: tagged messages (spec/15 R333, R334, R409; spec/16 R363–R365): how a post is accepted into a
slot, by whom, and the events of tags.
-/
namespace Sys2Proof.Machine

/-! ### Writing under a partition's supervisor context -/

/-- Frame key that no core has: the device's own accesses are checked there. -/
def unitFrame : Nat := 5 * 20000

/-- REGION values of a context, as loaded into a frame (spec/01 R31). -/
def State.ctxRegions (s : State) (n : Nat) : List Word := (List.range 4).map fun i => regionMask (s.reg (.region n i))

/-- Works under the supervisor context of a partition (spec/14 R306); nothing of it is cached. -/
def State.asSup {α : Type} (s : State) (p : Nat) (go : State → State × α) : State × α :=
  let x : Frame :=
    { Frame.empty .dispatch with stat := .ready, priv := .s, part := p,
                                 region := s.ctxRegions (Config.supervisorContext p) }
  let (t, a) := go (s.setFrame unitFrame x)
  ({ t with frames := drop t.frames unitFrame, cores := drop t.cores (coreOf unitFrame) }, a)

/-- Outcome of a post. -/
inductive PostRes where
  | done
  /-- held: no slot is free, or the slot's memory does not answer or grant yet -/
  | full
  /-- the slot cannot be written -/
  | failed
  /-- the slot lies in a cluster that does not answer -/
  | fenced
  /-- the slot lies in a HOST page and the host port cannot complete the write -/
  | noHost
  deriving DecidableEq, Repr

/-- Writes eight words from an address under the rights of a frame: whole words, in one place of the memory; a poisoned line
takes no message (spec/15 R334), and `clears` tells a write that ends the poison (spec/14 R322). -/
def State.writeLine (s : State) (f a : Nat) (ws : List Word) (clears : Bool := false) : State × PostRes :=
  let each (go : State → Nat → Word → State) (s : State) : State :=
    ws.zipIdx.foldl (fun s w => go s w.2 w.1) s
  match s.checkAddr f a 8 .w .other with
  | (s1, some _) => (s1, .failed)
  | (s1, none) =>
    let bad (k : Nat) : Bool := !clears && (List.range 8).any fun i => s1.poisoned (k + 8 * i)
    match windowOf a with
    | .glob =>
      if s1.wipe then (s1, .full)
      else match s1.reach a (s1.frame f).part 0 (crumbOf (s1.frame f).region a) with
        | (s2, .error _) => (s2, .failed)
        | (s2, .ok (.host b)) => match s2.toHost (ws.zipIdx.map fun w => (b + 8 * w.2, 8, w.1)) with
          | (s3, true) => (s3, .done)
          | (s3, false) => (s3, .noHost)
        | (s2, .ok (.key k)) =>
          if bad k then (s2, .failed)
          else ((each (fun s i w => s.performWrite none (a + 8 * i) (k + 8 * i) (l2Key (a + 8 * i)) 8 w 255) s2).markDirty a,
            .done)
    | _ => match s1.l1Place f a with
      | some (p, o, _) =>
        if !s1.clusterLive p then (s1, .fenced)
        else if bad (l1Key p o) then (s1, .failed)
        else if !s1.lineYields p o 1216 false then (s1, .full)
        else (each (fun s i w => s.l1Write none (a + 8 * i) p (o + 8 * i) 8 1216 w 255) s1, .done)
      | none => (s1, .failed)

/-! ### Accepting a post -/

/-- Slots of a tag. -/
def State.tagSlots (s : State) (t : Nat) : Nat := s.regField (.tbuf t) 5 0 + 1
/-- Address of a slot (spec/15 R331 TBUF). -/
def State.slotAddr (s : State) (t k : Nat) : Nat := s.regField (.tbuf t) 47 6 * 64 + 64 * k
/-- The next free slot, from the one after the slot written last, while the tag holds fewer messages than it has slots
(spec/15 R334). -/
def State.freeSlot (s : State) (t : Nat) : Option Nat :=
  let x := s.tag t
  let n := s.tagSlots t
  let first := match x.last with | some l => l + 1 | none => 0
  if x.msgs.length ≥ n then none
  else ((List.range n).map fun i => (first + i) % n).find? fun k => !x.msgs.any fun m => m.slot == k

/-- DROP rises by one, to 255 at most. -/
def State.dropPost (s : State) (t : Nat) : State := s.setTag t { s.tag t with drop := min 255 ((s.tag t).drop + 1) }

/-- Vectors of a partition whose valid MSIMAP names the tag fire (spec/16 R364). -/
def State.fireMsi (s : State) (p t : Nat) : State :=
  let ks := (List.range 64).filter fun k => s.regField (.msimap p k) 15 15 == 1 && s.regField (.msimap p k) 11 0 == t
  { s with msi := s.msi ++ ks.map fun k => (p, k) }

/-- The tag is a ring command tag, which fires no launch (spec/17 R384). -/
def ringTag (t : Nat) : Bool := 0xF80 ≤ t && t < 0xF90

/-- An ALLRED posted to a command tag takes its number among those with its GROUP and MEMBERS on the die (spec/17 R388). -/
def State.numberPost (s : State) (t : Nat) (ws : List Word) (who : Poster) : State × Poster :=
  if ringTag t ∧ (ws.getD 0 0).toNat % 256 = 2 then
    let r := s.ringOf (t % 2)
    let key := (ws.getD 3 0).toNat / 2 ^ 32 % 65536 * 65536 + (ws.getD 5 0).toNat % 65536
    let n := lookD r.counts key 0
    (s.setRing (t % 2) { r with counts := put r.counts key (n + 1) }, { who with nth := n })
  else (s, who)

/-- Writes a message into the next free slot of a tag (spec/15 R334).  A post that no write of its slot answers is discarded, and
DROP counts those alone whose write fails as R334 says. -/
def State.acceptPost (s : State) (t : Nat) (ws : List Word) (who : Poster) : State × PostRes :=
  match s.freeSlot t with
  | none => (s, .full)
  | some k =>
    let p := s.tagPart t
    match s.asSup p fun u => u.writeLine unitFrame (s.slotAddr t k) ws with
    | (s1, .done) =>
      let x := s1.tag t
      let (s2, who2) := (s1.setTag t { x with msgs := x.msgs ++ [⟨k, none⟩], last := some k }).numberPost t ws who
      ((List.range 8).foldl (fun s q => s.fireMsi q t) { s2 with posters := put s2.posters ((t * 64) + k) who2 }, .done)
    | (s1, .failed) => (s1.dropPost t, .failed)
    | (s1, r) => (s1, r)

/-- The poster that a unit of the device is, or the host, or another package: no thread of this one. -/
def outsidePoster (p : Nat) (l : Priv) : Poster := ⟨none, 0, l, false, p, false, 0, 0, 0, List.replicate 4 0, 0⟩

/-- The poster that a frame is (spec/17 R386). -/
def State.posterOf (s : State) (f : Nat) (urg : Bool) : Poster :=
  let x := s.frame f
  let c := s.ctxOf f
  ⟨x.launch, match x.launch with | some e => (s.entry e).gen | none => 0, x.priv, urg, x.part, c.all, c.table, c.map, c.mapv,
    x.region, 0⟩

/-! ### Posts of threads -/

/-- The post of an instruction that may be performed: its accesses make one message (spec/15 R333, R334).  A slot in a cluster that
does not answer, or in a HOST page that cannot be written, is a late 0x11 (spec/16 R365, R376). -/
def State.devicePost (s : State) (a : Acc) (tag : Nat) : State :=
  let mark (st : Stage) (b : Acc) : Acc := { b with parts := b.parts.map fun p => { p with stage := st } }
  let done (s : State) (st : Stage) : State :=
    { s with accs := updWhere (fun b => b.frame == a.frame && b.seq == a.seq) (mark st) s.accs }.settle a.frame a.seq
  if s.regField (.tctl tag) 3 3 = 0 ∨ s.regField (.prst (s.tagPart tag)) 1 1 = 1 then done s .performed
  else match s.acceptPost tag (a.parts.map (·.data)) (s.posterOf a.frame a.urg) with
    | (s1, .done) => done s1 .performed
    | (s1, .full) => s1
    | (s1, .failed) => done s1 (.failed 0x05)
    | (s1, _) => done s1 (.failed 0x11)

/-! ### Posts of the host (spec/16 R363, R365) -/

/-- A host post is discarded, and HOSTNAK counts it. -/
def State.hostNak (s : State) : State :=
  s.setReg .hostnak (BitVec.ofNat 64 (min (2 ^ 32 - 1) (s.regField .hostnak 31 0 + 1)))

/-- Poisons words of a line, by their place in it (spec/14 R322). -/
def State.poisonWords (s : State) (f a : Nat) (ws : List Nat) : State :=
  let all (s : State) (k : Nat) : State := ws.foldl (fun s i => s.setPoison (k + 8 * i) true) s
  match windowOf a with
  | .glob => match s.reach a (s.frame f).part 0 (crumbOf (s.frame f).region a) with
    | (s1, .ok (.key k)) => all s1 k
    | (s1, _) => s1
  | _ => match s.l1Place f a with
    | some (p, o, _) => all s (l1Key p o)
    | none => s

/-- Poisons words of the slot that a post to a tag has just taken. -/
def State.poisonPost (s : State) (t : Nat) (ws : List Nat) : State :=
  match (s.tag t).last with
  | some k => (s.asSup (s.tagPart t) fun u => (u.poisonWords unitFrame (s.slotAddr t k) ws, ())).1
  | none => s

/-- HOST_POST: a write of the host to BAR0 of function fn: a whole aligned line of a tag of its partition that accepts host
posts is a post.  A line whose check value fails arrives with every word poisoned (spec/14 R323).  Without verified firmware
the port presents function 0 only (spec/16 R371). -/
def execHostPost (fn offset : Nat) (data : Words) (damaged : Bool) (s : State) : Out :=
  let p := fn - 1
  let t := offset / 64
  s.act <|
    if !s.fwOk ∧ fn ≠ 0 then s
    else if fn = 0 ∨ fn > 8 ∨ offset % 64 ≠ 0 ∨ t ≥ 4096 ∨ data.length ≠ 8 then s.hostNak
    else if s.tagPart t ≠ p ∨ s.regField (.tctl t) 4 4 = 0 then s.hostNak
    else if s.regField (.tctl t) 3 3 = 0 ∨ s.regField (.prst p) 1 1 = 1 then s
    else match s.acceptPost t data (outsidePoster p .u) with
      | (s1, .done) =>
        if damaged then (s1.countError 0).poisonPost t (List.range 8) else s1
      | (s1, .full) => if (s.freeSlot t).isNone then s1.dropPost t else s1
      | (s1, .fenced) => s1.hostNak.fireMsi p (s.regField (.pmisc p) 11 0)
      | (s1, _) => s1

end Sys2Proof.Machine
end

