-- ==== Sys2Proof/Machine/SyncEngine.lean ====
section
/-!
DEFINITION. Machine/SyncEngine.lean: the synchronisation engine (spec/15 R352, R353, R356) and dataflow channels (R349–R351,
R355).
-/
namespace Sys2Proof.Machine

/-- The instructions of spec/15 that no handler frame may execute (spec/15, Instruction entries). -/
def State.notHandler (s : State) (i : Instr) (go : State) : State := if s.inHandler then s.illegalValue i else go

/-! ### Synchronisation variables -/

/-- A variable by its handle: index and die. -/
def State.svar (s : State) (h : Nat) : SVar := lookD s.svars h .none
/-- Writes a variable; one that is free is dropped. -/
def State.setSvar (s : State) (h : Nat) (v : SVar) : State :=
  { s with svars := if v.used then put s.svars h v else drop s.svars h }

/-- SALLOC: a free variable of the die, or NOSLOT 1 (spec/15 R356).  DESIGN CHOICE: the one with the lowest index
(notes/assumptions/36.md). -/
def execSalloc (o : Opnd) (s : State) : Out :=
  s.act <| s.notHandler (.salloc o) <|
    let base := dieOf s.myCore * 4096
    match (List.range 4096).find? fun i => !(s.svar (base + i)).used with
    | some i =>
      ((s.setSvar (base + i) ⟨true, s.g o.rb, s.me.part, []⟩).setG o.ra (BitVec.ofNat 64 ((base + i) * 256))).advance (o.halves 3)
    | none => (s.setG o.ra 1).advance (o.halves 3)

/-- Goes on with the variable that gB names; a bit outside the handle and the function field, or a handle of no variable of
the partition, raises 0x01 with gB (spec/15 R356). -/
def State.withSvar (s : State) (i : Instr) (b : Word) (fn : Nat) (go : Nat → SVar → State) : State :=
  let n := b.toNat
  let h := n % 2 ^ 13
  let v := s.svar h
  if n / 2 ^ 20 ≠ 0 ∨ n / 2 ^ 13 % 8 ≠ 0 ∨ n / 2 ^ 16 % 16 ≥ fn ∨ !v.used ∨ v.part ≠ s.me.part then s.illegalAddr i b
  else go h v

/-- SFREE: frees a variable, or answers BUSY 3 when a SWAIT waits on it. -/
def execSfree (o : Opnd) (s : State) : Out :=
  s.act <| s.notHandler (.sfree o) <| s.withSvar (.sfree o) (s.g o.rb) 1 fun h v =>
    if v.waiters ≠ [] then (s.setG o.ra 3).advance (o.halves 3)
    else ((s.setSvar h SVar.none).setG o.ra 0).advance (o.halves 3)

/-- The function of a SOP: READ, ADD, SWAP, OR, AND, MAX, MIN. -/
def sopFn (fn : Nat) (old c : Word) : Word :=
  match fn with
  | 1 => old + c
  | 2 => c
  | 3 => old ||| c
  | 4 => old &&& c
  | 5 => if old.toInt ≤ c.toInt then c else old
  | 6 => if c.toInt ≤ old.toInt then c else old
  | _ => old

/-- SOP: one indivisible step on a variable; a strong access, held until every earlier access of the thread is performed
(spec/15 R352). -/
def execSop (o : Opnd) (s : State) : Out :=
  s.act <| s.notHandler (.sop o) <| s.withSvar (.sop o) (s.g o.rb) 7 fun h v =>
    if !s.earlierDone s.cur s.me.seq then s
    else ((s.setSvar h { v with value := sopFn ((s.g o.rb).toNat / 2 ^ 16 % 16) v.value (s.g o.rc) }).setG o.ra v.value).advance
      (o.halves 3)

/-- The condition of a SWAIT: EQ, NE, GE, LT, signed. -/
def swaitCond (c : Nat) (v a : Word) : Bool :=
  match c with
  | 0 => v == a
  | 1 => v != a
  | 2 => a.toInt ≤ v.toInt
  | _ => v.toInt < a.toInt

/-- SWAIT: holds until the variable meets the condition (spec/15 R356). -/
def execSwait (o : Opnd) (s : State) : Out :=
  s.act <| s.notHandler (.swait o) <| s.withSvar (.swait o) (s.g o.rb) 4 fun h v =>
    if swaitCond ((s.g o.rb).toNat / 2 ^ 16 % 16) v.value (s.g o.ra) then
      ((s.setSvar h { v with waiters := v.waiters.filter (· ≠ s.cur) }).setG o.ra v.value).advance (o.halves 3)
    else if v.waiters.contains s.cur then s
    else s.setSvar h { v with waiters := v.waiters ++ [s.cur] }

/-! ### Channels -/

/-- Logical clusters of a launch. -/
def LEntry.nlcl (x : LEntry) : Nat := (x.tiles + 63) / 64

/-- Trap 0x0F of a channel (spec/15 R350). -/
def chanDetail (reason lcl : Nat) : Nat := reason + lcl % 256 * 256

/-- The address of an item: checks of spec/15 R355 on gB, as the cause and DETAIL of a trap. -/
def State.itemCheck (s : State) (ea : Nat) (need : Need) : State × Option (Nat × Nat) :=
  if ea % 64 ≠ 0 then (s, some (0x04, 0))
  else match windowOf ea with
    | .own _ => s.checkAddr s.cur ea 8 need .other
    | _ => (s, some (0x05, 0))

/-- The words of an item in the own L1, none when one is poisoned. -/
def State.itemWords (s : State) (f ea : Nat) : Option (List Byte) :=
  match s.l1Place f ea with
  | some (p, o, _) =>
    if (List.range 8).any fun i => s.poisoned (l1Key p (o + 8 * i)) then none else some (s.readBytes (l1Key p o) 64)
  | none => none

/-- The banks of an item in the own L1 would grant the synchronisation engine now (spec/09 R207). -/
def State.itemYields (s : State) (f ea : Nat) : Bool :=
  match s.l1Place f ea with
  | some (p, o, _) => s.lineYields p o 1216 (slotOf f == 4)
  | none => true

/-- SEND: the item leaves for its channel once every earlier access of the thread is performed, and holds the thread's next
instruction until the channel accepts it (spec/15 R351, R355). -/
def execSend (o : Opnd) (s : State) : Out :=
  let a := (s.g o.ra).toNat
  let ea := (s.g o.rb).toNat
  let ch := a % 64
  let lcl := if a.testBit 12 then a / 256 % 16 else s.me.lcl
  s.act <| s.notHandler (.send o) <|
    if a / 64 % 4 ≠ 0 ∨ a / 2 ^ 13 % 2 ^ 19 ≠ 0 then s.illegalValue (.send o)
    else match s.itemCheck ea .r with
      | (s1, some (c, d)) => s1.trap c d (s.g o.rb)
      | (s1, none) =>
        match s1.me.launch with
        | none => s1.trap 0x0F (chanDetail 1 lcl) (BitVec.ofNat 64 ch)
        | some e =>
          if !s1.declares s1.cur ch 0 then s1.trap 0x0F (chanDetail 1 lcl) (BitVec.ofNat 64 ch)
          else if lcl ≥ (s1.entry e).nlcl then s1.trap 0x0F (chanDetail 4 lcl) (BitVec.ofNat 64 ch)
          else if !s1.earlierDone s1.cur s1.me.seq ∨ !s1.itemYields s1.cur ea then s1
          else
            let n := o.halves 3
            match s1.itemWords s1.cur ea with
            | none => (s1.report s1.cur ⟨s1.me.seq, 0, 0x0B, ea, 1⟩).advance n
            | some bs =>
              let it : Item :=
                ⟨s1.cur, s1.me.seq, (s1.entry e).map.toNat / 16 ^ lcl % 16, lcl, ch, a / 2 ^ 32, bs⟩
              { s1 with items := s1.items ++ [it] }.advance n

/-- A thread's SEND holds its next instruction. -/
def State.sendHolds (s : State) (f : Nat) : Bool := s.items.any fun i => i.frame == f

/-- The item leaves its sender's hold with a late outcome. -/
def State.itemFails (s : State) (place : Nat) (it : Item) (cause detail : Nat) : State :=
  { s with items := dropAt s.items place }.report it.frame ⟨it.seq, 0, cause, it.chan, detail⟩

/-- CHANNEL_ITEM_ARRIVAL: the channel accepts or discards an item, or the item waits for a slot (spec/15 R349). -/
def execChannelItemArrival (place : Nat) (s : State) : Out :=
  s.act <|
    match s.items[place]? with
    | none => s
    | some it =>
      let c := s.chan it.pcl it.chan
      if !s.clusterLive it.pcl then s.itemFails place it 0x11 3
      else if c.launch ≠ (s.frame it.frame).launch then { s with items := dropAt s.items place }
      else
        let ahead := (it.num + 2 ^ 32 - c.next) % 2 ^ 32
        if ahead ≥ 2 ^ 16 then s.itemFails place it 0x0F (chanDetail 2 it.lcl)
        else if c.items.any (fun i => i.1 == it.num) then s.itemFails place it 0x0F (chanDetail 3 it.lcl)
        else if c.items.length + c.taken < c.slots ∨ (ahead = 0 ∧ c.items.length + c.taken < c.slots + 1) then
          { s.setChan it.pcl it.chan { c with items := c.items ++ [(it.num, it.data)] } with items := dropAt s.items place }
        else s

/-- The unit of a frame that has a channel bound (spec/08 R183); DEDUCED: of several the lowest (notes/assumptions/18.md). -/
def Frame.chanUnit (x : Frame) (ch : Nat) : Option Nat :=
  (findAt (fun u => u.kind == .chan && u.id == ch) x.units.toList 0).map (·.1)

/-- Writes the eight words of an item in the own L1. -/
def State.putItem (s : State) (f ea : Nat) (bs : List Byte) : State :=
  match s.l1Place f ea with
  | some (p, o, _) => (List.range 8).foldl (fun s i =>
      s.l1Write (some f) (ea + 8 * i) p (o + 8 * i) 8 1216 (BitVec.ofNat 64 (leNat ((bs.drop (8 * i)).take 8))) 255) s
  | none => s

/-- RECV: takes the item whose sequence number is NEXT, and holds until it is there (spec/15 R355). -/
def execRecv (o : Opnd) (s : State) : Out :=
  let a := (s.g o.ra).toNat
  let ea := (s.g o.rb).toNat
  let ch := a % 64
  s.act <| s.notHandler (.recv o) <|
    if a / 64 ≠ 0 then s.illegalValue (.recv o)
    else match s.itemCheck ea .w with
      | (s1, some (c, d)) => s1.trap c d (s.g o.rb)
      | (s1, none) =>
        if !s1.declares s1.cur ch 1 then s1.trap 0x0F (chanDetail 1 s1.me.lcl) (BitVec.ofNat 64 ch)
        else match s1.me.chanUnit ch with
          | some n => s1.streamTrap n 9
          | none =>
            let pcl := clusterOf s1.myCore
            let c := s1.chan pcl ch
            match c.items.find? fun i => i.1 == c.next with
            | none => s1
            | some (num, bs) =>
              if !s1.earlierDone s1.cur s1.me.seq ∨ !s1.itemYields s1.cur ea then s1
              else
                let s2 := s1.setChan pcl ch
                  { c with items := c.items.filter (fun i => i.1 ≠ num), next := (c.next + 1) % 2 ^ 32 }
                ((s2.putItem s2.cur ea bs).setG o.ra (BitVec.ofNat 64 num)).advance (o.halves 3)

end Sys2Proof.Machine
end

