-- ==== Sys2Proof/Machine/System.lean ====
section
/-!
DEFINITION. Machine/System.lean: control registers (spec/01 R21–R31, spec/05 R123–R125), the software trap and the return
from a handler (spec/05 R121, R122), the phase instructions (spec/09 R221), IFENCE (spec/06 R136), PLBINV (spec/14 R308)
and the small system instructions WFI, YIELD, RNG and TIME (spec/15 R357).
-/
namespace Sys2Proof.Machine

/-! ### Control registers -/

/-- The control registers (spec/01 R21). -/
inductive CReg where
  | arith | flags | faultel | tcause | taddr | tretpc | tvec | threadid | tileid | clusterid | phase | seed | wake
  | time | cycle | region (i : Nat)
  deriving DecidableEq, Repr

/-- The register of a number; reserved numbers name none. -/
def CReg.ofNum : Nat → Option CReg
  | 0 => some .arith | 1 => some .flags | 2 => some .faultel | 3 => some .tcause | 4 => some .taddr | 5 => some .tretpc
  | 6 => some .tvec | 7 => some .threadid | 8 => some .tileid | 9 => some .clusterid | 10 => some .phase | 11 => some .seed
  | 12 => some .wake | 13 => some .time | 14 => some .cycle
  | 16 => some (.region 0) | 17 => some (.region 1) | 18 => some (.region 2) | 19 => some (.region 3)
  | _ => none

/-- Access of a level: read, write (spec/01 R21). -/
def CReg.access (r : CReg) (p : Priv) : Bool × Bool :=
  match r with
  | .arith | .flags | .faultel | .seed | .wake => (true, true)
  | .tcause | .taddr | .tretpc | .tvec => if p = .u then (false, false) else (true, true)
  | .threadid | .tileid | .clusterid | .time | .cycle => (true, false)
  | .phase | .region _ => (true, decide (p ≠ .u))

/-- The frame whose register a number names: the served thread's for the registers of spec/01 R22. -/
def State.cregFrame (s : State) (f : Nat) (r : CReg) : Nat :=
  match r with
  | .tcause | .taddr | .tretpc | .threadid | .tileid | .clusterid | .phase | .flags | .faultel => s.named f
  | _ => f

/-- Code of a level (spec/01 R26 PRIV). -/
def Priv.code : Priv → Nat
  | .u => 0 | .s => 1 | .m => 3

/-- THREADID as a frame reads it (spec/01 R26). -/
def State.threadId (s : State) (f : Nat) : Word :=
  let t := s.named f
  let x := s.frame t
  BitVec.ofNat 64 (x.ltid % 2 ^ 16 + (if slotOf t = 4 then 2 ^ 18 else slotOf t * 2 ^ 16) + (if x.gang then 2 ^ 19 else 0) +
    (s.frame f).priv.code * 2 ^ 20 + (if t = f then 0 else 2 ^ 22))

/-- TILEID as a frame reads it. -/
def State.tileId (s : State) (f : Nat) : Word :=
  let t := s.named f
  if isTileCore (coreOf t) then BitVec.ofNat 64 (coreOf t % 16 + (s.frame t).ltile % 1024 * 16) else 0

/-- CLUSTERID as a frame reads it: PCL reads 0 at U. -/
def State.clusterId (s : State) (f : Nat) : Word :=
  let t := s.named f
  if isTileCore (coreOf t) then
    BitVec.ofNat 64 ((s.frame t).lcl % 16 + if (s.frame f).priv = .u then 0 else clusterOf (coreOf t) * 2 ^ 16)
  else 0

/-- The value of a control register as a frame reads it (spec/05 R123). -/
def State.readCreg (s : State) (f : Nat) (r : CReg) : Word :=
  let x := s.frame (s.cregFrame f r)
  match r with
  | .arith => x.arith
  | .flags => x.flags
  | .faultel => x.faultel
  | .tcause => x.tcause
  | .taddr => x.taddr
  | .tretpc => x.tretpc
  | .tvec => x.tvec
  | .threadid => s.threadId f
  | .tileid => s.tileId f
  | .clusterid => s.clusterId f
  | .phase => x.phase
  | .seed => x.seed
  | .wake => x.wake
  | .time => BitVec.ofNat 64 s.time
  | .cycle => BitVec.ofNat 64 (s.ck - (s.core (coreOf f)).ckBase)
  | .region i => x.region.getD i 0

/-- One step of the reproducibility signature (spec/15 R347). -/
def sigMix (h x : Word) : Word :=
  let p := (h ^^^ x) * 0xA5C39E1B74D26F0B#64
  p ^^^ (p >>> 32)

/-- The value that a CWR leaves in ARITH: EXACT is unchanged at U (spec/05 R124). -/
def arithWritten (old v : Word) (p : Priv) : Word :=
  (v &&& (if p = .u then 0xFFFF#64 else 0x1FFFF#64)) ||| (if p = .u then old &&& 0x10000#64 else 0)

/-- A write of a control register: its field types (spec/00 R9) and special cases (spec/05 R124). -/
def CReg.write (r : CReg) (p : Priv) (v : Word) (x : Frame) : Frame :=
  match r with
  | .arith => let a := arithWritten x.arith v p; { x with arith := a, sig := sigMix x.sig a }
  | .flags => { x with flags := x.flags &&& ~~~ (v &&& 0xFF#64) }
  | .faultel => { x with faultel := v &&& 0x3FFFFFFFFFF#64 }
  | .tcause => { x with tcause := v &&& 0xFFFF01FF#64 }
  | .taddr => { x with taddr := v }
  | .tretpc => { x with tretpc := v &&& 0xFFFFFFFFFFFE#64 }
  | .tvec => { x with tvec := v &&& 0xFFFFFFFFFFFE#64 }
  | .phase => { x with phase := v &&& 3#64 }
  | .seed => { x with seed := v, rngc := 0 }
  | .wake => { x with wake := x.wake &&& ~~~ (v &&& 0xFFFFFFFF#64) }
  | .region i => { x with region := x.region.set i (regionMask v) }
  | .threadid | .tileid | .clusterid | .time | .cycle => x

/-- Trap 0x10 of a denied control register: TADDR its number, DETAIL 2 for a read and 3 for a write (spec/05 R110). -/
def State.cregDenied (s : State) (num detail : Nat) : State := s.trap 0x10 detail (BitVec.ofNat 64 num)

/-- CRD: reads a control register (spec/05 R123). -/
def execCrd (o : Opnd) (s : State) : Out :=
  s.act <|
    match CReg.ofNum o.rb with
    | none => s.illegalValue (.crd o)
    | some r =>
      if (r.access s.me.priv).1 then (s.setG o.ra (s.readCreg s.cur r)).advance (o.halves 3)
      else s.cregDenied o.rb 2

/-- CWR: writes a control register; a reserved RND raises 0x01 with the value (spec/01 R21, spec/05 R123, R124). -/
def execCwr (o : Opnd) (s : State) : Out :=
  let v := s.g o.rb
  s.act <|
    match CReg.ofNum o.ra with
    | none => s.illegalValue (.cwr o)
    | some r =>
      if !(r.access s.me.priv).2 then s.cregDenied o.ra 3
      else if r = .arith ∧ v.toNat % 8 > 4 then s.illegalAddr (.cwr o) v
      else (s.updFrame (s.cregFrame s.cur r) (r.write s.me.priv v)).advance (o.halves 3)

/-! ### Phases (spec/09 R221) -/

/-- Sets PHASE.CUR of the thread that the frame names. -/
def State.setPhase (s : State) (cur : Bool) : State :=
  s.updFrame (s.named s.cur) fun x => { x with phase := (x.phase &&& ~~~ 1#64) ||| (if cur then 1#64 else 0#64) }

/-- PHASEC: enters the compute phase. -/
def execPhasec (o : Opnd) (s : State) : Out := s.act ((s.setPhase true).advance (o.halves 3))
/-- PHASEX: enters the exchange phase. -/
def execPhasex (o : Opnd) (s : State) : Out := s.act ((s.setPhase false).advance (o.halves 3))

/-! ### Traps and returns -/

/-- TRAP: a software trap with a code (spec/05 R121). -/
def execTrap (o : Opnd) (s : State) : Out :=
  s.act (s.trap 0x80 (o.halves 3) (BitVec.ofNat 64 (o.uimm % 65536)))

/-- Commands that a frame has issued and that are not complete: an entry that waits for room counts as complete
(spec/10 R240, spec/11 R255). -/
def State.commandsOpen (s : State) (f : Nat) : Bool :=
  let c := s.core (coreOf f)
  let t := s.tile (tileOf (coreOf f))
  (c.copyN ++ c.copyU ++ c.matN ++ c.matU).any (fun x => x.frame == f) ||
    (t.copyN.jobs ++ t.copyU.jobs ++ t.matN.jobs ++ t.matU.jobs).any fun j => j.cmd.frame == f && j.stage != .posting

/-- Nothing of a frame is under way in memory: its accesses are done and its streams drained (spec/04 R100,
spec/08 R189). -/
def State.quietFrame (s : State) (f : Nat) : Bool :=
  (s.pendingOf f).isEmpty && (List.range 4).all (fun n => s.unitIdle f n) && (s.frame f).tickets.all Option.isNone

/-- ERET: returns to the served thread once nothing of the handler frame is under way (spec/05 R122, spec/08 R189,
spec/10 R240). -/
def execEret (o : Opnd) (s : State) : Out :=
  s.act <|
    if s.me.priv = .u then s.privTrap (.eret o)
    else match s.me.kind with
      | .handler t => if s.quietFrame s.cur ∧ !s.commandsOpen s.cur then s.eret s.cur t else s
      | _ => s.illegalValue (.eret o)

/-! ### WFI, YIELD, RNG, TIME (spec/15 R357) -/

/-- The condition that ends a WFI; on the cores outside the tiles WAKE.PEND alone (spec/06 R146). -/
def State.wfiEnds (s : State) : Bool :=
  s.me.wake != 0 || (s.onTile && !(s.myInbox.entries.isEmpty && s.myInbox.pending.isNone))

/-- WFI: holds until there is an inbox entry or a wake bit; consumes nothing. -/
def execWfi (o : Opnd) (s : State) : Out :=
  s.act <| s.notHandler (.wfi o) <| if s.wfiEnds then s.advance (o.halves 3) else s

/-- YIELD: leaves the next cycle to other frames, which has no effect on state. -/
def execYield (o : Opnd) (s : State) : Out := s.act <| s.notHandler (.yield o) <| s.advance (o.halves 3)

/-- RNG: the next random number (spec/02 R54). -/
def execRng (o : Opnd) (s : State) : Out :=
  s.act <|
    let (s1, ws, wrap) := s.drawRng s.cur 1
    s1.retire (o.halves 3) (rngwFlag wrap fun _ => 0) fun t => t.setG o.ra (ws.getD 0 0)

/-- TIME: the time base (spec/01 R30). -/
def execTime (o : Opnd) (s : State) : Out :=
  s.act ((s.setG o.ra (BitVec.ofNat 64 s.time)).advance (o.halves 3))

/-! ### IFENCE and PLBINV -/

/-- A fill to a tile is in flight or waits (spec/06 R133). -/
def State.fillsTo (s : State) (core : Nat) : Bool :=
  let c := s.cluster (clusterOf core)
  c.fills.any (fun f => f.2.contains (tileOf core)) || c.misses.any fun m => m.2 == tileOf core

/-- IFENCE: waits for the thread's stores and the tile's fills, then empties the tile's instruction cache and the frame's
buffer (spec/06 R136). -/
def execIfence (o : Opnd) (s : State) : Out :=
  s.act <|
    if !s.storesDone s.cur ∨ s.fillsTo s.myCore then s
    else
      let s1 := s.updTile (tileOf s.myCore) fun t => { t with icache := [] }
      let s2 := if s.me.gang then s1.updFrame (oddOf s.cur) fun x => { x with ibuf := [] } else s1
      (s2.updMe fun x => { x with ibuf := [] }).advance (o.halves 3)

/-- Drops the PLB entries and headers of a table, or all, from every core (spec/14 R308). -/
def State.dropPlb (s : State) (table : Nat) : State :=
  { s with cores := mapVals (fun _ c =>
      { c with plb := c.plb.filter fun e => !(table == 0 || keyTable e.1 == table) }) s.cores }

/-- Accesses that left their cores before a CK cycle are all performed; a WAITRS that watches has been (spec/09 R214). -/
def State.oldDone (s : State) (before : Nat) : Bool :=
  s.accs.all (fun a => a.stamp ≥ before || a.done || a.op == .waitrs) &&
    s.frames.all fun x => x.2.tickets.all Option.isNone

/-- PLBINV: drops cached rights, then waits for the accesses that used them (spec/14 R308). -/
def execPlbinv (o : Opnd) (s : State) : Out :=
  let a := s.g o.ra
  s.act <|
    if s.me.priv = .u then s.privTrap (.plbinv o)
    else if a.toNat % 8 ≠ 0 then s.illegalAddr (.plbinv o) a
    else if s.me.since = 0 then (s.dropPlb a.toNat).updMe fun x => { x with since := s.ck + 1 }
    else if s.oldDone s.me.since then s.advance (o.halves 3)
    else s

end Sys2Proof.Machine
end

