-- ==== Sys2Proof/Machine/Launch.lean ====
section
/-!
DEFINITION. Machine/Launch.lean: launch packets and their checks (spec/15 R335–R338), the pending-launch store (R341), the
instructions LAUNCH, LAUNCH.W, LARM, LDISARM and LWAIT (R354), and HALT (R357).
-/
namespace Sys2Proof.Machine

/-! ### Fields of a packet (spec/15 R335) -/

/-- A field of a packet: word, lowest bit, width. -/
def pktField (p : List Word) (w lo n : Nat) : Nat := (p.getD w 0).toNat / 2 ^ lo % 2 ^ n
/-- IMAGE. -/
def pktImage (p : List Word) : Nat := (p.getD 0 0).toNat
/-- KIDX. -/
def pktKidx (p : List Word) : Nat := pktField p 1 0 16
/-- TILES. -/
def pktTiles (p : List Word) : Nat := pktField p 1 16 16
/-- CTX. -/
def pktCtx (p : List Word) : Nat := pktField p 1 32 8
/-- RECT. -/
def pktRect (p : List Word) : Nat := pktField p 1 40 8
/-- SHAPE. -/
def pktShape (p : List Word) : Nat := pktField p 1 48 8
/-- STREAM [5:0]. -/
def pktStream (p : List Word) : Nat := pktField p 1 56 6
/-- SV. -/
def pktSv (p : List Word) : Bool := pktField p 1 63 1 == 1
/-- A bit of FLAGS. -/
def pktFlag (p : List Word) (b : Nat) : Bool := (p.getD 4 0).getLsbD b
/-- PART. -/
def pktPart (p : List Word) : Nat := pktField p 4 16 8
/-- CKIND. -/
def pktCkind (p : List Word) : Nat := pktField p 4 24 8
/-- CTAG. -/
def pktCtag (p : List Word) : Nat := pktField p 4 32 16
/-- Every field that must be zero is zero. -/
def pktZero (p : List Word) : Bool :=
  pktImage p / 2 ^ 48 == 0 && pktField p 1 62 1 == 0 && pktField p 4 11 5 == 0 && pktCtag p / 4096 == 0 &&
    pktField p 4 48 16 == 0 && p.getD 6 0 == 0 && p.getD 7 0 == 0

/-- Who enqueues or arms a packet: partition, level, own context, die. -/
structure Issuer where
  part : Nat
  priv : Priv
  ctx  : Option Nat
  die  : Nat
  deriving DecidableEq, Repr

/-- The executing thread as an issuer. -/
def State.issuer (s : State) : Issuer :=
  ⟨s.me.part, s.me.priv, s.me.launch.map fun e => (s.entry e).ctx, dieOf s.myCore⟩

/-- The image and the kernel header that a packet names. -/
def State.pktKernel (s : State) (p : List Word) : Option (Image × Nat × KHdr) :=
  match s.images.find? fun i => i.addr == pktImage p with
  | none => none
  | some i => (i.kernels[pktKidx p]?).map fun k => (i, k.1, k.2)

/-- Threads per core. -/
def pktThreads (p : List Word) (h : KHdr) : Nat := if pktShape p % 8 = 0 then h.threads else pktShape p % 8

/-- The effective deadline: `msg` is word 0 of the firing message (spec/15 R336). -/
def State.pktDeadline (s : State) (p : List Word) (h : KHdr) (msg : Nat) : Nat :=
  if pktFlag p 5 then msg
  else if pktFlag p 4 then s.time + (p.getD 3 0).toNat
  else if p.getD 3 0 ≠ 0 then (p.getD 3 0).toNat
  else if h.deadline ≠ 0 then s.time + h.deadline
  else 0

/-- The die whose store accepts the packet (spec/15 R338). -/
def State.pktDie (s : State) (p : List Word) (die : Nat) : Nat :=
  if pktFlag p 6 then die else s.regField (.map (pktCtx p)) 3 0 / 8

/-- The BADPKT list of spec/15 R337. `arm` permits MDL, and `msg` is the firing message's word when there is one. -/
def State.badPkt (s : State) (p : List Word) (arm : Bool) (msg : Option Nat) : Bool :=
  match s.pktKernel p with
  | none => true
  | some (_, _, h) =>
    let disp := pktFlag p 6
    let th := pktThreads p h
    !pktZero p || pktShape p / 8 != 0 || pktShape p % 8 > 4 ||
    (!disp && (pktTiles p == 0 || pktTiles p > 1024)) || pktCkind p > 2 || (pktFlag p 5 && !arm) ||
    (pktSv p && (!pktFlag p 5 || msg.isSome) && s.pktDeadline p h (msg.getD 0) == 0) ||
    (pktFlag p 2 && (!pktSv p || !h.urgok || th != 1 || disp)) || (pktFlag p 1 && !h.nomatrix) ||
    (disp && (pktTiles p != 0 || th > 1))

/-- The DENIED list of spec/15 R337, but for what it asks of the issuer, and a partition whose reset runs (spec/16 R368);
`die` is that of the accepting store. -/
def State.ctxDenied (s : State) (p : List Word) (die : Nat) : Bool :=
  let n := pktCtx p
  let st := pktStream p
  s.regField (.ctl n) 0 0 == 0 || s.regField (.ctl n) 3 1 != pktPart p ||
  (pktSv p && (s.regField (.stream st) 15 15 == 0 || s.regField (.stream st) 14 12 != pktPart p ||
    st / 32 != die)) ||
  s.regField (.prst (pktPart p)) 1 1 == 1

/-- The DENIED list for a packet that an issuer enqueues or arms. -/
def State.deniedPkt (s : State) (p : List Word) (w : Issuer) : Bool :=
  (pktPart p != w.part && w.priv != .m) || (w.priv == .u && w.ctx != some (pktCtx p)) || (pktFlag p 6 && w.priv == .u) ||
  s.ctxDenied p (s.pktDie p w.die)

/-- Logical clusters that a number of tiles needs. -/
def clustersFor (tiles : Nat) : Nat := (tiles + 63) / 64

/-- The bands of two maps lie alike for the tile-sequential copies of a launch. -/
def sameBands (m k : Word) (urg : Bool) : Bool :=
  if urg then ubOf m == ubOf k && uspanOf m == uspanOf k else ibOf m == ibOf k && tspanOf m == tspanOf k

/-- The L1 records of an image fit the bands of a cluster's map, and the copies of the pool name the places that its
tile-sequential records have under it (spec/09 R203; log 30). -/
def Image.fits (i : Image) (m : Word) (urg : Bool) : Bool :=
  (i.l1recs.all fun (inter, len, _, ofs, _) =>
    if inter then ofs + len ≤ ibOf m else ofs + len ≤ (if urg then uspanOf m else tspanOf m)) &&
  (i.l1recs.all (·.1) || sameBands i.map m urg)

/-- The NOFIT list of spec/15 R338 under a map of logical clusters, and the stopped dispatch core of spec/16 R367. -/
def State.noFit (s : State) (p : List Word) (i : Image) (h : KHdr) (die map mapv : Nat) : Bool :=
  let ls := List.range (if pktFlag p 6 then 0 else clustersFor (pktTiles p))
  let pcls := ls.map fun l => map / 16 ^ l % 16
  let r := pktRect p
  let urg := pktFlag p 2
  r > 15 || !s.rectValid r || s.rectPart r != pktPart p ||
  ls.any (fun l => !mapv.testBit l) || pcls.eraseDups.length != pcls.length ||
  pcls.any (fun c => !s.inRect r c || !i.fits (s.l1mapOf c) urg) ||
  h.chans.any (fun c => decide (c.1 ≥ 56) != urg) ||
  (pktFlag p 6 && (s.core (16384 + die)).retired)

/-- An urgent image with an interleaved record (spec/15 R338 URGL1). -/
def urgL1 (p : List Word) (i : Image) : Bool := pktFlag p 2 && i.l1recs.any (·.1)

/-- Status of a packet: OK 0, BADPKT 2, DENIED 3, URGL1 5, NOFIT 6. -/
def State.pktStatus (s : State) (p : List Word) (w : Issuer) (arm : Bool) (msg : Option Nat) : Nat :=
  if s.badPkt p arm msg then 2
  else if s.deniedPkt p w then 3
  else match s.pktKernel p with
    | some (i, _, h) =>
      if s.noFit p i h w.die (s.reg (.map (pktCtx p))).toNat (s.regField (.ctl (pktCtx p)) 31 16) then 6
      else if urgL1 p i then 5 else 0
    | none => 2

/-! ### The store (spec/15 R341) -/

/-- The lowest FREE entry of a die. -/
def State.freeEntryOf (s : State) (die : Nat) : Option Nat :=
  ((List.range 256).map fun i => die * 256 + i).find? fun e => (s.entry e).st == .free

/-- The next arrival number of a die. -/
def State.nextArrival (s : State) (die : Nat) : State × Nat :=
  let n := lookD s.arrivals die 0
  ({ s with arrivals := put s.arrivals die (n + 1) }, n)

/-- The entry of a packet: the context's map, stack area and REGION values as they stand (spec/15 R330). -/
def State.newEntry (s : State) (p : List Word) (st : LState) (msg : Nat) : LEntry :=
  let n := pktCtx p
  let base := LEntry.none
  match s.pktKernel p with
  | none => base
  | some (i, _, h) =>
    { base with
        st := st, pkt := p, hdr := { h with errata := i.errata }, image := i.addr, ctx := n, part := pktPart p,
        mapv := s.regField (.ctl n) 31 16, map := s.reg (.map n), stk := BitVec.ofNat 64 (s.regField (.stk n) 47 10 * 1024),
        ptab := BitVec.ofNat 64 (s.regField (.ptab n) 47 3 * 8), region := s.ctxRegions n, threads := pktThreads p h,
        tiles := pktTiles p, urgent := pktFlag p 2, disp := pktFlag p 6,
        exact := h.arith.getLsbD 16 || pktFlag p 0, rt := pktSv p, abort := pktFlag p 3, fence := pktField p 4 7 4,
        stream := pktStream p, ckind := pktCkind p, ctag := pktCtag p, d := s.pktDeadline p h msg }

/-- Allocates an entry: its generation number rises, and it takes the die's next arrival number. -/
def State.allocate (s : State) (die e : Nat) (x : LEntry) : State × Nat :=
  let (s1, n) := s.nextArrival die
  let gen := ((s.entry e).gen + 1) % 65536
  (s1.setEntry e { x with gen := gen, arrival := n }, handleOf e gen)

/-- The result of a launch instruction. -/
def launchWord (status handle : Nat) : Word := BitVec.ofNat 64 (status + handle * 2 ^ 32)

/-! ### Reading the packet -/

/-- What a read of 64 bytes gives. -/
inductive LineRead where
  | words (l : List Word)
  /-- the scrub of the HBM holds it -/
  | wait
  | poison
  | dead
  | page (e : WalkErr)
  deriving DecidableEq, Repr

/-- Reads a 64-byte line under the rights of a frame, checked already. -/
def State.readLine (s : State) (f a : Nat) : State × LineRead :=
  let get (s : State) (k : Nat) : LineRead :=
    if (List.range 8).any fun i => s.poisoned (k + 8 * i) then .poison
    else .words ((List.range 8).map fun i => s.readW (k + 8 * i) 8)
  match windowOf a with
  | .glob =>
    if s.wipe then (s, .wait)
    else match s.reach a (s.frame f).part 0 (crumbOf (s.frame f).region a) with
      | (s1, .error e) => (s1, .page e)
      | (s1, .ok (.host _)) =>
        ({ s1 with fresh := s1.fresh + 8 }, .words ((List.range 8).map fun i => Config.freeValue (s1.fresh + i)))
      | (s1, .ok (.key k)) => (s1, get s1 k)
  | .aperture o => (s, .words (s.readReg (.tctl (o / 64)) :: List.replicate 7 0))
  | _ => match s.l1Place f a with
    | some (p, o, _) =>
      if p ≠ clusterOf (coreOf f) ∧ !s.clusterLive p then (s, .dead) else (s, get s (l1Key p o))
    | none => (s, .dead)

/-- A page fault of an access that an instruction makes at its issue: the record is posted and the thread parks, to
issue the instruction again. -/
def State.parkAt (s : State) (va detail : Nat) (wr : Bool) (e : WalkErr) : State :=
  match s.faultRecord s.cur va (crumbOf s.me.region va) wr false e with
  | (s1, some fid) => (s1.waitRecord s1.cur fid).trap 0x06 detail (BitVec.ofNat 64 va)
  | (s1, none) => s1

/-- Goes on with the packet at an address (spec/15 R354 item 3). -/
def State.withPacket (s : State) (i : Instr) (n ea : Nat) (go : State → List Word → State) : State :=
  s.notHandler i <|
    if ea % 64 ≠ 0 then s.trap 0x04 0 (BitVec.ofNat 64 ea)
    else match s.checkAddr s.cur ea 8 .r .other with
      | (s1, some (c, d)) => s1.trap c d (BitVec.ofNat 64 ea)
      | (s1, none) =>
        if !s1.earlierDone s1.cur s1.me.seq then s1
        else match s1.readLine s1.cur ea with
          | (s2, .words p) => go s2 p
          | (s2, .wait) => s2
          | (s2, .poison) => (s2.report s2.cur ⟨s2.me.seq, 0, 0x0B, ea, 1⟩).advance n
          | (s2, .dead) => (s2.report s2.cur ⟨s2.me.seq, 0, 0x11, ea, 1⟩).advance n
          | (s2, .page e) => s2.parkAt ea 1 false e

/-! ### The instructions (spec/15 R354) -/

/-- The instruction answers. -/
def State.answer (s : State) (o : Opnd) (status handle : Nat) : State :=
  (s.setG o.ra (launchWord status handle)).advance (o.halves 3)

/-- LAUNCH: enqueues a packet. -/
def execLaunch (o : Opnd) (s : State) : Out :=
  s.act <| s.withPacket (.launch o) (o.halves 3) (s.g o.rb).toNat fun s p =>
    let st := s.pktStatus p s.issuer false none
    let die := s.pktDie p s.issuer.die
    if st ≠ 0 then s.answer o st 0
    else match s.freeEntryOf die with
      | none => s.answer o 1 0
      | some e => let (s1, h) := s.allocate die e (s.newEntry p .pending 0); s1.answer o 0 h

/-- Mark of a thread whose LAUNCH.W waits for an entry of a die. -/
def launchMark (die : Nat) : Nat := 2 ^ 41 + die

/-- Another thread has waited longer for an entry of the die (spec/15 R341). -/
def State.earlierWaits (s : State) (die : Nat) : Bool :=
  let x := s.me
  s.frames.any fun p => p.1 ≠ s.cur && p.2.prog == launchMark die && p.2.stat == .ready && !p.2.frozen &&
    (x.prog ≠ launchMark die || p.2.since < x.since || (p.2.since == x.since && p.1 < s.cur))

/-- LAUNCH.W: as LAUNCH, but waits for a free entry. -/
def execLaunchW (o : Opnd) (s : State) : Out :=
  s.act <| s.withPacket (.launchW o) (o.halves 3) (s.g o.rb).toNat fun s p =>
    let st := s.pktStatus p s.issuer false none
    let die := s.pktDie p s.issuer.die
    let hold := if s.me.prog = launchMark die then s else s.updMe fun x => { x with prog := launchMark die, since := s.ck + 1 }
    if st ≠ 0 then s.answer o st 0
    else match s.freeEntryOf die with
      | none => hold
      | some e =>
        if s.earlierWaits die then hold
        else let (s1, h) := s.allocate die e (s.newEntry p .pending 0); s1.answer o 0 h

/-- Goes on with a tag that is valid and of the issuer's partition; an issuer at M may name every partition's. -/
def State.withTag (s : State) (i : Instr) (w : Word) (go : Nat → State) : State :=
  let t := w.toNat
  if t ≥ 4096 ∨ s.regField (.tctl t) 3 3 = 0 ∨ (s.tagPart t ≠ s.me.part ∧ s.me.priv ≠ .m) then s.illegalAddr i w else go t

/-- LARM: arms a packet on a tag. -/
def execLarm (o : Opnd) (s : State) : Out :=
  s.act <| s.notHandler (.larm o) <| s.withTag (.larm o) (s.g o.rc) fun t =>
    s.withPacket (.larm o) (o.halves 3) (s.g o.rb).toNat fun s p =>
      let st := s.pktStatus p s.issuer true none
      let die := s.pktDie p s.issuer.die
      if st ≠ 0 then s.answer o st 0
      else if (s.tag t).armed.isSome ∨ ringTag t then s.answer o 4 0
      else match s.freeEntryOf die with
        | none => s.answer o 1 0
        | some e =>
          let (s1, h) := s.allocate die e { s.newEntry p .armed 0 with tag := some (t, 0) }
          (s1.setTag t { s1.tag t with armed := some e }).answer o 0 h

/-- LDISARM: frees the template of a tag: OK, or NOTARMED 7. -/
def execLdisarm (o : Opnd) (s : State) : Out :=
  s.act <| s.notHandler (.ldisarm o) <| s.withTag (.ldisarm o) (s.g o.rb) fun t =>
    match (s.tag t).armed with
    | some e => (s.disarm e).answer o 0 0
    | none => s.answer o 7 0

/-- The live entry that a handle names (spec/15 R341). -/
def State.entryOfHandle (s : State) (h : Nat) : Option Nat :=
  let e := h / 256 % 2 * 256 + h % 256
  if h / 512 % 128 = 0 ∧ (s.entry e).st ≠ .free ∧ (s.entry e).gen = h / 65536 % 65536 then some e else none

/-- LWAIT: holds until the launch is DONE and returns its record, or answers NOHANDLE 0xFF.  The record is a store of the thread:
it follows the earlier ones (spec/04 R101), and ends the poison of the line that it fills (spec/14 R322). -/
def execLwait (o : Opnd) (s : State) : Out :=
  let a := (s.g o.ra).toNat
  let n := o.halves 3
  s.act <| s.notHandler (.lwait o) <|
    if a % 64 ≠ 0 then s.trap 0x04 0 (s.g o.ra)
    else match if a = 0 then (s, none) else s.checkAddr s.cur a 8 .w .other with
      | (s1, some (c, d)) => s1.trap c d (s.g o.ra)
      | (s1, none) =>
        match s1.entryOfHandle ((s.g o.rb).toNat % 2 ^ 32) with
        | none => (s1.setG o.ra 0xFF).advance n
        | some e =>
          let x := s1.entry e
          if x.ckind ≠ 2 ∨ (x.part ≠ s1.me.part ∧ s1.me.priv ≠ .m) then (s1.setG o.ra 0xFF).advance n
          else if x.st ≠ .done ∨ (a ≠ 0 ∧ !s1.earlierDone s1.cur s1.me.seq) then s1
          else
            let fin (s : State) : State := ((s.freeEntry e).setG o.ra (x.record.getD 0 0)).advance n
            if a = 0 then fin s1
            else match s1.writeLine s1.cur a x.record true with
              | (s2, .done) => fin s2
              | (s2, .fenced) => fin (s2.report s2.cur ⟨s2.me.seq, 0, 0x11, a, 3⟩)
              | (s2, .noHost) => fin (s2.report s2.cur ⟨s2.me.seq, 0, 0x11, a, 3⟩)
              | (s2, .full) => s2
              | (s2, .failed) => match s2.reach a s2.me.part 0 (crumbOf s2.me.region a) with
                | (s3, .error e) => s3.parkAt a 3 true e
                | (s3, .ok _) => fin s3

/-! ### The end of threads (spec/15 R357, spec/12 R268, spec/05 R117) -/

/-- Nothing of a frame is still to be waited for at its HALT: its accesses are done, and those that its arrivals order; an
arrival itself is none of the waits of spec/04 R100 (spec/12 R268). -/
def State.haltReady (s : State) (f : Nat) : Bool :=
  s.quietFrame f && s.arrs.all (fun a => a.frame ≠ f || s.arrOrdered a) && !s.wakes.any (fun w => w.frame == f) &&
    !s.items.any (fun i => i.frame == f)

/-- HALT acts as a BLEAVE on every slot, and its arrivals are counted (spec/12 R268). -/
def State.leaveBarriers (s : State) (f : Nat) : State :=
  let s1 := (List.range 32).foldl (fun s n => s.leaveAll f n) s
  let mine := s1.arrs.filter fun a => a.frame == f
  mine.foldl State.countArr { s1 with arrs := s1.arrs.filter fun a => a.frame ≠ f }

/-- The record of a launch takes a thread that has halted: its flags, its FAULTEL, its ARITH fold (spec/15 R345, R347). -/
def LEntry.noteHalt (y : LEntry) (f : Nat) (x : Frame) : LEntry :=
  { y.noteEl x with live := y.live.filter (· ≠ f), halted := y.halted + 1, flags := y.flags ||| x.flags.toNat % 256,
                    sigs := y.sigs ++ [(x.ltid, x.sig)] }

/-- Every SYNC or ACTIVE Glaze entry of a launch goes to CLOSING, and a DEAD one to FREE (spec/13 R297, spec/15 R344). -/
def State.closeGlaze (s : State) (e : Nat) : State :=
  let mine := s.glazeAll.filter fun g => g.2.launch == some e
  let s1 := mine.foldl (fun s g => s.applyDead g.1 g.2) s
  { s1 with tiles := mapVals (fun _ t => { t with glaze := (t.glaze.map fun p =>
      if p.2.launch = some e then (p.1, p.2.close) else p).filter fun p => p.2.st ≠ .free }) s1.tiles }

/-- The launch is past its deadline (spec/15 R343). -/
def State.pastD (s : State) (x : LEntry) : Bool := x.rt && decide (s.time > x.d)

/-- Counts an overrun event of a stream: OVR stops at its maximum. -/
def State.countOverrun (s : State) (n : Nat) : State :=
  if s.regField (.stream n) 47 16 = 2 ^ 32 - 1 then s else s.setReg (.stream n) (s.reg (.stream n) + 0x10000)

/-- A real-time launch that has not completed becomes LATE at the first tick past D: an overrun event, and a kill with
ABORT_ON_MISS (spec/15 R343).  DEDUCED: one that has reached CLOSING in time is LATE and is not killed: the table of spec/15 R341
has the kill for PENDING and PLACED alone (notes/assumptions/29.md). -/
def State.missDeadline (s : State) (entry : Nat) : State :=
  let x := s.entry entry
  let live := x.st = .pending ∨ x.st = .placed ∨ (x.st = .closing ∧ !x.killed)
  if live ∧ !x.late ∧ s.pastD x then
    let ws := [BitVec.ofNat 64 (handleOf entry x.gen), BitVec.ofNat 64 x.d, BitVec.ofNat 64 s.time, 0, 0, 0, 0, 0]
    let s1 := s.setEntry entry { x with late := true }
    let s2 := (s1.makePost (s.regField (.stream x.stream) 11 0) x.part ws none).countOverrun x.stream
    if x.abort ∧ x.st ≠ .closing then s2.killLaunch entry 0x02 0 else s2
  else s

/-- The last thread of a placed launch has halted: the launch goes to CLOSING (spec/15 R341), or is killed when it was past D by then
with ABORT_ON_MISS set (R343). -/
def State.checkClosing (s : State) (e : Nat) : State :=
  let x := s.entry e
  if x.st = .placed ∧ x.live = [] then
    let t := s.missDeadline e
    if (t.entry e).st = .placed then (t.closeGlaze e).setEntry e { t.entry e with st := .closing } else t
  else s

/-- One thread ends by HALT: its record, its frame. -/
def State.finishThread (s : State) (f : Nat) : State :=
  let x := s.frame f
  let s1 := ((s.unbindAll f).dropMessages f).clearFrame f
  let s2 := if slotOf f = 4 then s1.freeUrgent (coreOf f) else s1
  match x.launch with
  | some e => (s2.updEntry e fun y => y.noteHalt f x).checkClosing e
  | none => s2

/-- A thread, with the odd slot of its gang, ends by HALT. -/
def State.haltThread (s : State) (f : Nat) (both : Bool) : State :=
  let s1 := s.leaveBarriers f
  if both then ((s1.leaveBarriers (oddOf f)).finishThread f).finishThread (oddOf f) else s1.finishThread f

/-- A served thread whose gang a trap has split ends with its odd slot (spec/05 R113). -/
def State.servedGang (s : State) (t : Nat) : Bool :=
  slotOf t % 2 == 0 && slotOf t < 4 && (s.frame (oddOf t)).stat == .gangStop

/-- A thread that ends has reported late outcomes or flags of atomics still to take (spec/04 R100 item 6, spec/09 R210). -/
def Frame.owesTrap (x : Frame) : Bool := x.late != [] || x.amoFlags != []

/-- What the odd slot of a gang owes is taken by the gang before it ends: DEDUCED (log 26). -/
def State.handOver (s : State) (f : Nat) : State :=
  let y := s.frame (oddOf f)
  (s.updFrame (oddOf f) fun x => { x with late := [], amoFlags := [] }).updFrame f fun x =>
    { x with late := x.late ++ y.late, amoFlags := x.amoFlags ++ y.amoFlags }

/-- A handler's HALT while the served thread owes a late outcome or flags: they are taken first, at its trap point, as its own
HALT takes them (spec/05 R117, spec/15 R357).  One that traps returns the thread to its trap point, where the trap is taken,
or is held by a freeze.  Flags that do not trap are merged, and the HALT goes on; so it does after a page fault, which is
recorded: nothing of the thread is still held, so that its park lasts for no time, and it resumes at the HALT. -/
def State.haltOwes (s : State) (hf t : Nat) : State :=
  let frozen := (s.frame t).frozen
  match earliestLate (s.frame t).late with
  | some (l, rest) =>
    if l.cause = 0x06 then
      (s.updFrame t fun y => { y with late := rest }).recordTrap t
        ⟨l.cause, l.detail, BitVec.ofNat 64 l.addr, BitVec.ofNat 48 (s.frame t).tretpc.toNat⟩ false
    else
      let s1 := s.eret hf t
      if frozen then s1 else s1.takeLate t
  | none => match s.takeAmo t with
    | (s1, none) => s1
    | (s1, some r) =>
      if frozen then s.eret hf t
      else
        let s2 := s1.eret hf t
        s2.takeTrap t { r with retpc := (s2.frame t).pc }

/-- HALT: ends the thread once nothing of it is under way (spec/15 R357); in a handler frame it ends the served thread
(spec/05 R117). -/
def execHalt (_o : Opnd) (s : State) : Out :=
  let f := s.cur
  s.act <|
    match s.me.kind with
    | .handler t =>
      let g := s.servedGang t
      if !(s.quietFrame f && !s.commandsOpen f && s.haltReady t && (!g || s.haltReady (oddOf t))) then s
      else if g ∧ (s.frame (oddOf t)).owesTrap then s.handOver t
      else if (s.frame t).owesTrap then s.haltOwes f t
      else (s.freeUrgent (coreOf f)).haltThread t g
    | _ =>
      let g := s.me.gang
      if !(s.haltReady f && (!g || s.haltReady (oddOf f))) then s
      else if g ∧ (s.frame (oddOf f)).owesTrap then s.handOver f
      else s.haltThread f g

end Sys2Proof.Machine
end

