-- ==== Sys2Proof/Machine/Schedule.lean ====
section
/-!
DEFINITION. Machine/Schedule.lean: the scheduler of a die (spec/15 R339–R345): ordering decisions, placement and the start
of threads (spec/01 R33), freezes (spec/06 R140), the grant of the urgent frame (spec/05 R115), deadlines, completion and
its record, fired templates, and the posts of the device's units (R409).
-/
namespace Sys2Proof.Machine

/-! ### What holds tiles, and what is placeable (spec/15 R339) -/

/-- A launch other than `e` holds its tiles: placed, ending, or chosen by a decision. -/
def State.holder (s : State) (e : Nat) (p : Nat × LEntry) : Bool :=
  p.1 ≠ e && (p.2.st == .placed || (p.2.st == .closing && p.2.resident && !p.2.posting) || s.placing.contains p.1)

/-- A tile takes no thread of a launch: it is excluded, or an engine of it has failed (spec/06 R144, spec/10 R237,
spec/11 R253). -/
def State.tileOut (s : State) (nomatrix : Bool) (t : Nat) : Bool :=
  let x := s.tile t
  x.excluded || x.copyFailed || (x.matFailed && !nomatrix)

/-- Spans of the interleaved band that an image's records take. -/
def Image.inter (i : Image) : List (Nat × Nat) := (i.l1recs.filter (·.1)).map fun (_, len, _, ofs, _) => (ofs, ofs + len)

/-- The image of an entry. -/
def State.imageOf (s : State) (x : LEntry) : Option Image := s.images.find? fun i => i.addr == x.image

/-- Interleaved spans of an entry. -/
def State.interOf (s : State) (x : LEntry) : List (Nat × Nat) := match s.imageOf x with | some i => i.inter | none => []

/-- Every cluster of the launch lets it be placed: on, no reset, no map that waits, its channels free, room for its
records beside those of others (spec/09 R199, R203; spec/15 R349; spec/16 R376). -/
def State.clustersTake (s : State) (e : Nat) (x : LEntry) : Bool :=
  let others := s.launches.filter (s.holder e)
  x.pcls.all fun c =>
    s.clusterLive c && (s.cluster c).l1pend.isNone && x.hdr.chans.all (fun h => (s.chan c h.1).launch.isNone) &&
    (match s.imageOf x with | some i => i.fits (s.l1mapOf c) x.urgent | none => false) &&
    others.all fun o => !o.2.pcls.contains c || (s.interOf o.2).all fun p => (s.interOf x).all fun q =>
      p.2 ≤ q.1 || q.2 ≤ p.1

/-- Every tile of the launch is free for it (spec/15 R339). -/
def State.tilesTake (s : State) (e : Nat) (x : LEntry) : Bool :=
  let tiles := x.tileKeys
  tiles.all (fun t => !s.tileOut x.hdr.nomatrix t) &&
    s.launches.all (fun o => !(s.holder e o && o.2.urgent == x.urgent && !o.2.disp && o.2.tileKeys.any tiles.contains)) &&
    s.frames.all fun p => p.2.stat == .free || !isTileCore (coreOf p.1) || !tiles.contains (tileOf (coreOf p.1)) ||
      (if x.urgent then p.2.kind ≠ .urgent else slotOf p.1 == 4)

/-- Launches that a dispatch core is to start. -/
def State.dispChosen (s : State) (die : Nat) : Nat :=
  (s.launches.filter fun o => s.placing.contains o.1 && o.2.disp && o.1 / 256 == die).length

/-- Free slots of the dispatch core of a die. -/
def State.dispFree (s : State) (die : Nat) : List Nat :=
  (List.range 4).filter fun k => (s.frame (frameKey (16384 + die) k)).stat == .free

/-- A launch of the real-time class, which it leaves at the first tick past D (spec/15 R343). -/
def State.rtNow (s : State) (x : LEntry) : Bool := x.rt && !x.late && !s.pastD x

/-- The launch is placeable (spec/15 R339; spec/16 R367, R370); one that its deadline is about to kill is not
(spec/15 R343). -/
def State.placeable (s : State) (e : Nat) : Bool :=
  let x := s.entry e
  let die := e / 256
  !s.wipe && !(x.abort && s.pastD x) &&
    (if x.disp then !(s.core (16384 + die)).retired && s.dispChosen die < (s.dispFree die).length + (if s.placing.contains e then 1 else 0)
     else s.clustersTake e x && s.tilesTake e x)

/-! ### Ordering (spec/15 R342) -/

/-- Inserts by a strict order, after its equals. -/
def insertBy {α : Type} (lt : α → α → Bool) (x : α) : List α → List α
  | [] => [x]
  | y :: t => if lt x y then x :: y :: t else y :: insertBy lt x t

/-- Sorts by a strict order; equals keep their places. -/
def sortBy {α : Type} (lt : α → α → Bool) (l : List α) : List α := l.foldl (fun r x => insertBy lt x r) []

/-- Real-time rank: D, stream, arrival. -/
def rtBefore (x y : Nat × LEntry) : Bool :=
  if x.2.d ≠ y.2.d then x.2.d < y.2.d
  else if x.2.stream ≠ y.2.stream then x.2.stream < y.2.stream
  else x.2.arrival < y.2.arrival

/-- The weight of a partition: 0 counts as 1 (spec/15 R331 SHARE). -/
def State.weight (s : State) (p : Nat) : Nat := max 1 (s.regField (.pmisc p) 15 12)

/-- Key of a partition's credit in the rotation of a die: each die's scheduler serves the partitions of its own store
(spec/15 R342). -/
def shareKey (die p : Nat) : Nat := die * 16 + p

/-- One round of the weighted rotation of a die: each partition in turn gives so many launches; what is left, and the order. -/
def State.shareRound (s : State) (die : Nat) (used : SMap Nat) (l : List (Nat × LEntry)) : List (Nat × LEntry) :=
  (List.range 9).flatMap fun p => (l.filter fun x => x.2.part == p).take (s.weight p - lookD used (shareKey die p) 0)

/-- Rounds until every background launch stands in the order. -/
def State.shareRounds (s : State) (die : Nat) (used : SMap Nat) (l : List (Nat × LEntry)) : Nat → List (Nat × LEntry)
  | 0 => l
  | n + 1 =>
    let r := s.shareRound die used l
    r ++ s.shareRounds die [] (l.filter fun x => !(r.any fun y => y.1 == x.1)) n

/-- PENDING entries of a die that no decision has chosen, in rank order. -/
def State.ranked (s : State) (die : Nat) : List (Nat × LEntry) :=
  let l := s.launches.filter fun p => p.1 / 256 == die && p.2.st == .pending && !s.placing.contains p.1
  let rt := l.filter fun p => s.rtNow p.2
  let bg := sortBy (fun x y => x.2.arrival < y.2.arrival) (l.filter fun p => !s.rtNow p.2)
  sortBy rtBefore rt ++ s.shareRounds die s.share bg (bg.length + 1)

/-- The clusters that a launch needs. -/
def LEntry.needs (x : LEntry) : List Nat := if x.disp then [] else x.pcls

/-- Uses one unit of a partition's share on a die. -/
def State.useShare (s : State) (die p : Nat) : State :=
  let n := lookD s.share (shareKey die p) 0 + 1
  { s with share := put s.share (shareKey die p) n }

/-- A new round of a die's rotation begins when no background launch that waits there has a share left. -/
def State.renewShare (s : State) (die : Nat) : State :=
  let bg := (s.ranked die).filter fun p => !s.rtNow p.2
  if bg.all fun p => lookD s.share (shareKey die p.2.part) 0 ≥ s.weight p.2.part then
    { s with share := s.share.filter fun c => c.1 / 16 ≠ die }
  else s

/-- Walks the ranks: chooses every placeable launch, under the reservation of clusters and the order of partitions. -/
def State.choose (s : State) (resv parts : List Nat) : List (Nat × LEntry) → State
  | [] => s
  | (e, x) :: t =>
    let bg := !s.rtNow x
    if s.placeable e ∧ x.needs.all (fun c => !resv.contains c) ∧ !(bg && parts.contains x.part) then
      let s1 := { s with placing := s.placing ++ [e] }
      (if bg then s1.useShare (e / 256) x.part else s1).choose resv parts t
    else s.choose (if bg then resv else resv ++ x.needs) (if bg then x.part :: parts else parts) t

/-- SCHEDULE_DECISION: the store's launches are ranked, and those that can be placed are chosen (spec/15 R342). -/
def execScheduleDecision (die : Nat) (s : State) : Out := s.act ((s.choose [] [] (s.ranked die)).renewShare die)

/-! ### Placement (spec/15 R339, R349; spec/01 R33) -/

/-- Base of a record's copy in a tile, or in the interleaved band. -/
def recordBase (m : Word) (urg inter : Bool) (tile ofs : Nat) : Nat :=
  if inter then ofs else if urg then ubOf m + tile % 64 * uspanOf m + ofs else ibOf m + tile % 64 * tspanOf m + ofs

/-- Copies a record's initial contents into one copy; the rest of its span is zero (spec/03 R84). -/
def State.copyRecord (s : State) (key len : Nat) (bs : List Byte) : State :=
  (((s.zeroBytes key (key + len)).clearPoison key (key + len)).writeBytes key (bs.take len)).noteSpan key len

/-- Copies the L1 records of a launch into every copy it uses (spec/03 R84, spec/09 R203). -/
def State.copyRecords (s : State) (x : LEntry) : State :=
  match s.imageOf x with
  | none => s
  | some i => i.l1recs.foldl (fun s (inter, len, _, ofs, bs) =>
      if inter then x.pcls.foldl (fun s c => s.copyRecord (l1Key c ofs) len bs) s
      else x.tileKeys.foldl (fun s t =>
        s.copyRecord (l1Key (t / 64) (recordBase (s.l1mapOf (t / 64)) x.urgent false t ofs)) len bs) s) s

/-- Sets up the declared channels in each cluster of the launch (spec/15 R349). -/
def State.setChannels (s : State) (e : Nat) (x : LEntry) : State :=
  x.pcls.foldl (fun s c => x.hdr.chans.foldl (fun s h => s.setChan c h.1 ⟨some e, h.2.1, 0, [], 0⟩) s) s

/-- Top of a thread's stack span (spec/15 R332). -/
def stackTop (stk f : Nat) : Nat :=
  let q := if isTileCore (coreOf f) then 5 * coreOf f + slotOf f else 81920 + 8 * dieOf (coreOf f) + slotOf f
  stk + (q + 1) * 65536

/-- A thread of a launch as it starts in a frame (spec/01 R33). -/
def State.startFrame (s : State) (e f ltile : Nat) : Frame :=
  let x := s.entry e
  let top := stackTop x.stk.toNat f
  let ar := x.hdr.arith ||| (if x.exact then 0x10000#64 else 0#64)
  let tile := isTileCore (coreOf f)
  let slot := if slotOf f = 4 then 0 else slotOf f
  let (code, pool) := match s.imageOf x with
    | some i => (i.code + (match i.kernels[pktKidx x.pkt]? with | some k => k.1 | none => 0),
                 i.pool + (if tile then (tileInCluster (tileOf (coreOf f)) + (if x.urgent then 64 else 0)) * i.poolLen else 0))
    | none => (0, 0)
  let g := ((((Vector.replicate 32 (0 : Word)).set 2 (BitVec.ofNat 64 top)).set 3 (BitVec.ofNat 64 pool)).set 4
    (x.pkt.getD 2 0)).set 5 x.g5
  { Frame.empty (if x.disp then .dispatch else if x.urgent then .urgent else .slot) with
      stat := .ready, g := g, pc := BitVec.ofNat 48 code, priv := if x.disp then .s else .u, arith := ar,
      tvec := s.reg (.hvec x.part), phase := if x.hdr.guard then 2 else 0, region := x.region,
      ltid := if tile then (ltile * 16 + coreOf f % 16) * 4 + slot else slotOf f, ltile := ltile, lcl := ltile / 64,
      launch := some e, part := x.part, pad := some 3, stack := (top - x.hdr.stack * 1024, x.hdr.stack * 1024),
      sig := sigMix 0 ar, born := s.serials }

/-- Starts a thread in a frame; in slots that an urgent launch has frozen it starts frozen (spec/06 R140, R142), and the urgent
frame finds a8 and a9 CLEAR (spec/11 R255). -/
def State.startThread (s : State) (e f ltile : Nat) : State :=
  let frz := slotOf f != 4 && (s.core (coreOf f)).freeze.isSome
  let s1 := (s.setFrame f { s.startFrame e f ltile with frozen := frz }).dropHeader f
  if slotOf f = 4 then s1.clearUrgentAccs (coreOf f) else s1

/-- A new thread takes a slot of an instance of a core outside the tiles: what an earlier thread of the slot still counts
for stands under a key of its own. -/
def BInst.vacate (b : BInst) (t : Nat) : BInst :=
  let live := b.thr.filter fun p => p.1 < 4 || p.2.memberFrom b.c
  let old := match look live t with
    | some x => if x.memberFrom b.c then [x] else []
    | none => []
  let key := ((List.range (live.length + 1)).map (· + 4)).find? fun k => !(live.any fun p => p.1 == k)
  { b with thr := old.foldl (fun m x => put m (key.getD 4) x) (drop live t) }

/-- A thread that starts on a core outside the tiles acts as if it had executed BJOIN on every slot (spec/12 R269). -/
def State.enterDomain (s : State) (f : Nat) : State :=
  (List.range 32).foldl (fun s n =>
    let b := (s.inst (none, n, coreOf f)).vacate (s.frame f).ltid
    s.setInst (b.join (s.barMembers b) (s.frame f).ltid)) s

/-- The frames of a launch on tiles, with their logical tiles: slots 0 to threads − 1, or the urgent frame. -/
def LEntry.frameList (x : LEntry) : List (Nat × Nat) :=
  x.tileKeys.zipIdx.flatMap fun (t, lt) => (List.range 16).flatMap fun c =>
    (if x.urgent then [4] else List.range x.threads).map fun k => (frameKey (t * 16 + c) k, lt)

/-- The entry once it is placed. -/
def LEntry.placed (x : LEntry) (time : Nat) (live : List Nat) : LEntry :=
  { x with st := .placed, started := true, tstart := time, live := live }

/-- LAUNCH_PLACEMENT: a chosen launch starts: its threads, or for an urgent launch its freeze requests (spec/15 R339–R341).
A launch that can no longer be placed waits for another decision. -/
def execLaunchPlacement (entry : Nat) (s : State) : Out :=
  s.act <|
    let x := s.entry entry
    if !s.placing.contains entry ∨ x.st ≠ .pending then s
    else
      let s1 := { s with placing := s.placing.erase entry }
      if !s.placeable entry then s1
      else if x.disp then
        match s.dispFree (entry / 256) with
        | k :: _ =>
          let f := frameKey (16384 + entry / 256) k
          ((s1.setEntry entry (x.placed s.time [f])).startThread entry f 0).enterDomain f
        | [] => s1
      else
        let fs := x.frameList
        let s2 := ((s1.copyRecords x).setChannels entry x).setEntry entry (x.placed s.time (fs.map (·.1)))
        if x.urgent then x.cores.foldl (fun s k => s.updCore k fun c => { c with waitUrg := some entry }) s2
        else fs.foldl (fun s p => s.startThread entry p.1 p.2) s2

/-- FREEZE_REQUEST: the request of a placed urgent launch reaches a core: slots 0–3 are frozen at their next boundary
(spec/06 R140). -/
def execFreezeRequest (core : Nat) (s : State) : Out :=
  s.act <|
    match (s.core core).waitUrg with
    | none => s
    | some e =>
      if (s.core core).freeze = some e then s
      else
        let s1 := (s.markLeft core).updCore core fun c => { c with freeze := some e }
        [0, 1, 2, 3].foldl (fun s k =>
          match look s.frames (frameKey core k) with
          | some x => (s.setFrame (frameKey core k) { x with frozen := true }).unreserve (frameKey core k)
          | none => s) s1

/-- Logical tile of a physical tile of a launch. -/
def LEntry.logical (x : LEntry) (t : Nat) : Nat := x.tileKeys.findIdx (· == t)

/-- HANDLER_FRAME_GRANT: a free urgent frame goes to the urgent launch that waits for the core, once its freeze has
reached the core, and otherwise to the oldest parked trap (spec/05 R115); a frozen thread takes no trap (spec/06 R141). -/
def execHandlerFrameGrant (core : Nat) (s : State) : Out :=
  s.act <|
    let c := s.core core
    let f := urgentKey core
    if (s.frame f).stat ≠ .free ∨ c.retired then s
    else match c.waitUrg with
      | some e =>
        if c.freeze ≠ some e then s
        else ((s.updCore core fun c => { c with waitUrg := none }).startThread e f ((s.entry e).logical (tileOf core)))
      | none => match c.parked with
        | t :: rest =>
          if (s.frame t).stat ≠ .parkTrap then s.updCore core fun c => { c with parked := rest }
          else if (s.frame t).frozen then s
          else (s.updCore core fun c => { c with parked := rest }).enterHandler t
        | [] => s

/-! ### Deadlines (spec/15 R343) -/

/-- DEADLINE_MISS (spec/15 R343); a completion and the posting of a record past D find the launch late as well. -/
def execDeadlineMiss (entry : Nat) (s : State) : Out := s.act (s.missDeadline entry)

/-! ### Completion (spec/15 R344, R345) -/

/-- A job or a queued command of the launch is not complete, in the copy or the matrix engine. -/
def State.engineOwes (s : State) (e : Nat) (mat : Bool) : Bool :=
  s.cores.any (fun c => [false, true].any fun u => (c.2.queue mat u).any fun x => x.launch == some e) ||
    s.tiles.any fun t => [false, true].any fun u => (t.2.channel mat u).jobs.any fun j =>
      j.cmd.launch == some e && j.stage != .posting

/-- Every item that the FENCE bits name has drained. -/
def State.fenceDrained (s : State) (e : Nat) (fence : Nat) : Bool :=
  (!fence.testBit 0 || !s.engineOwes e false) && (!fence.testBit 1 || !s.engineOwes e true) &&
    (!fence.testBit 2 || (s.updsOf e).isEmpty) &&
    (!fence.testBit 3 || s.glazeAll.all fun g => g.2.launch ≠ some e)

/-- The ARITH fold of a logical thread; one that never started contributes that of the header (spec/15 R347). -/
def LEntry.sigAt (x : LEntry) (l : Nat) : Word :=
  match x.sigs.find? fun p => p.1 == l with
  | some p => p.2
  | Option.none => sigMix 0 x.hdr.arith

/-- Logical ids of the launch's threads, in ascending order. -/
def LEntry.ltids (x : LEntry) : List Nat :=
  if x.disp then [match x.sigs with | p :: _ => p.1 | [] => 0]
  else (List.range (x.tiles * 16)).flatMap fun c => (List.range (if x.urgent then 1 else x.threads)).map fun k => c * 4 + k

/-- The reproducibility signature (spec/15 R347). -/
def State.signature (s : State) (x : LEntry) : Word :=
  let dg : Word := match s.imageOf x with | some i => i.digest | none => 0
  let s0 := sigMix (sigMix (sigMix (sigMix 0 (BitVec.ofNat 64 (pktKidx x.pkt))) (BitVec.ofNat 64 (pktTiles x.pkt)))
    (BitVec.ofNat 64 x.threads)) dg
  x.ltids.foldl (fun h l => sigMix h (x.sigAt l)) s0

/-- Threads that the launch has when placed. -/
def LEntry.total (x : LEntry) : Nat := if x.disp then 1 else x.tiles * 16 * (if x.urgent then 1 else x.threads)

/-- The completion record (spec/15 R345). -/
def State.recordOf (s : State) (e : Nat) (x : LEntry) : List Word :=
  let info := (if x.late then 1 else 0) + (if x.resident ∧ x.halted = x.total then 2 else 0)
  [BitVec.ofNat 64 (x.status % 256 + info * 256 + x.cause % 65536 * 65536 + handleOf e x.gen * 2 ^ 32),
   s.signature x, BitVec.ofNat 64 x.flags,
   BitVec.ofNat 64 (match x.fltid with | some l => l | none => 0xFFFFFFFF),
   BitVec.ofNat 64 x.tstart, BitVec.ofNat 64 s.time, BitVec.ofNat 64 x.d, x.pkt.getD 5 0]

/-- Releases the slot of the message that fired the launch (spec/15 R334). -/
def State.releaseFired (s : State) (e : Nat) : State :=
  { s with tags := mapVals (fun _ t => { t with msgs := t.msgs.filter fun m => m.fired ≠ some e }) s.tags }

/-- A Glaze entry that outlives its launch: its sent batches are still applied; a DEAD one is FREE (spec/13 R297). -/
def GEntry.detach (g : GEntry) (e : Nat) : GEntry :=
  if g.launch ≠ some e then g else if g.st = .dead then .none else { g with launch := Option.none }

/-- Items that FENCE does not name end at completion (spec/15 R344). -/
def State.endLaunch (s : State) (e : Nat) (x : LEntry) : State :=
  let cores := if x.resident && !x.disp then x.cores else []
  let tiles := if x.resident && !x.disp then x.tileKeys else []
  let s1 := (s.glazeAll.filter fun g => g.2.launch == some e).foldl (fun s g => s.applyDead g.1 g.2) (s.purgePraline e)
  let s2 := { s1 with cores := mapVals (fun k c => c.purge e x.urgent (cores.contains k)) s1.cores,
                      tiles := mapVals (fun k t =>
                        { t.purge e x.urgent (tiles.contains k) with
                            glaze := (mapVals (fun _ (g : GEntry) => g.detach e) t.glaze).filter fun g => g.2.st != GState.free })
                        s1.tiles }
  (((s2.clearLinks cores).clearAccums cores x.urgent).dropLaunchState e).releaseFreeze e

/-- LAUNCH_COMPLETION: the fence has drained, or the kill is done: the rest ends and the record is posted, kept or
discarded (spec/15 R344–R346). -/
def execLaunchCompletion (entry : Nat) (s0 : State) : Out :=
  s0.act <|
    let y := s0.entry entry
    let drained := if y.killed then !s0.engineOwes entry false && !s0.engineOwes entry true else s0.fenceDrained entry y.fence
    if y.st ≠ .closing ∨ y.posting ∨ !drained then s0
    else
      let s := s0.missDeadline entry
      let x := s.entry entry
      let s1 := (s.endLaunch entry x).releaseFired entry
      let rec' := s1.recordOf entry x
      if x.ckind = 2 then s1.setEntry entry { x with st := .done, record := rec' }
      else if x.ckind = 1 ∧ s1.tagValidFor x.ctag x.part then
        (s1.setEntry entry { x with posting := true, record := rec' }).makePost x.ctag x.part rec' (some entry)
      else s1.freeEntry entry

/-- The words of a unit's post as it takes its slot: TEND is the TIME then, and INFO of a launch's record tells whether the
launch is LATE by then (spec/15 R343, R345). -/
def State.postedWords (s : State) (u : UPost) : List Word :=
  let ws := match u.tend with | some i => u.words.set i (BitVec.ofNat 64 s.time) | none => u.words
  match u.entry with
  | some e => if (s.entry e).late then ws.set 0 (ws.getD 0 0 ||| 0x100#64) else ws
  | none => ws

/-- UNIT_POST: a unit's post takes a slot, once earlier posts to its tag have; the entry whose record it is becomes FREE
(spec/15 R345, R409). -/
def execUnitPost (place : Nat) (s : State) : Out :=
  s.act <|
    match s.uposts[place]? with
    | none => s
    | some u =>
      if (s.uposts.take place).any fun v => v.tag == u.tag then s
      else
        let t := match u.entry with | some e => s.missDeadline e | none => s
        let s0 := { t with uposts := dropAt t.uposts place }
        let free (s : State) : State := match u.entry with | some e => s.freeEntry e | none => s
        if !s.tagValidFor u.tag u.part then free s0
        else match s0.acceptPost u.tag (t.postedWords u) (outsidePoster u.part .m) with
          | (_, .full) => s
          | (s1, _) => free s1

/-! ### Fired launches (spec/15 R341) -/

/-- The oldest slot in slot order that has fired nothing. -/
def Tag.unfired (t : Tag) : Option Nat :=
  ((t.msgs.filter fun m => m.fired.isNone).map (·.slot)).min?

/-- Word 0 of a message, read under the supervisor context of the tag's partition; 0 when it cannot be read. -/
def State.messageWord (s : State) (t k : Nat) : State × Nat :=
  match s.asSup (s.tagPart t) fun u => u.readLine unitFrame (s.slotAddr t k) with
  | (s1, .words l) => (s1, (l.getD 0 0).toNat)
  | (s1, _) => (s1, 0)

/-- Status of a fired packet: 0; 0x0A when it fails R336 or R337, what that asks of the issuer apart, which LARM has answered;
0x0B when it fails R338 under the map that the template holds (spec/15 R330, R345). -/
def State.firedStatus (s : State) (x : LEntry) (die msg : Nat) : Nat :=
  if s.badPkt x.pkt true (some msg) || s.ctxDenied x.pkt die then 0x0A
  else match s.pktKernel x.pkt with
    | some (i, _, h) => if s.noFit x.pkt i h die x.map.toNat x.mapv || urgL1 x.pkt i then 0x0B else 0
    | none => 0x0A

/-- TEMPLATE_FIRE: a held message fires the armed template: a new entry, with D from the message and g5 its slot. -/
def execTemplateFire (tag : Nat) (s : State) : Out :=
  s.act <|
    match (s.tag tag).armed, (s.tag tag).unfired with
    | some tpl, some k =>
      let x := s.entry tpl
      let die := tpl / 256
      match s.freeEntryOf die with
      | none => s
      | some e =>
        let (s1, msg) := if pktFlag x.pkt 5 then s.messageWord tag k else (s, 0)
        let st := s1.firedStatus x die msg
        let d := match s1.pktKernel x.pkt with | some (_, _, h) => s1.pktDeadline x.pkt h msg | none => 0
        let y := { x with st := if st = 0 then .pending else .closing, d := d, g5 := BitVec.ofNat 64 (s1.slotAddr tag k),
                          tag := some (tag, k), killed := st ≠ 0, status := st }
        let (s2, _) := s1.allocate die e y
        s2.setTag tag { s2.tag tag with msgs := updWhere (fun m => m.slot == k) (fun m => { m with fired := some e }) (s2.tag tag).msgs }
    | _, _ => s

end Sys2Proof.Machine
end

