-- ==== Sys2Proof/Machine/EvCore.lean ====
section
/-!
DEFINITION. Machine/EvCore.lean: the checker (spec/06 R143, R144; spec/05 R120; spec/16 R367), the L1 map (spec/09 R198,
R199), and the reset of containment rectangles (spec/15 R348, spec/13 R293, R303).
-/
namespace Sys2Proof.Machine

/-! ### The checker -/

/-- CHECKER_RETRY: a first mismatch: the instruction is retried, and the core's count of corrected mismatches rises
(spec/06 R143).  A mismatch on the retry is CORE_RETIRE. -/
def execCheckerRetry (frame : Nat) (s : State) : Out :=
  s.act <|
    let k := coreOf frame
    let c := s.core k
    if c.retired ∨ c.retry = some frame ∨ (s.frame frame).stat = .free then s
    else s.setCore k { c with retry := some frame, checks := min (2 ^ 32 - 1) (c.checks + 1) }

/-- Launches with a thread on a core, or whose urgent thread waits for it; for a dispatch core also those that wait in its
die's store to run on it (spec/16 R367). -/
def State.launchesOn (s : State) (core : Nat) : List Nat :=
  ((s.frames.filter fun p => coreOf p.1 == core && p.2.stat != .free).filterMap (·.2.launch) ++
    (s.core core).waitUrg.toList ++
    (if isTileCore core then [] else
      (s.launches.filter fun p => p.2.disp && p.2.st == .pending && core == 16384 + p.1 / 256).map (·.1))).eraseDups

/-- Writes that a core's threads had committed and that are not performed yet. -/
def State.committed (s : State) (core : Nat) : List Acc :=
  (s.accs.filter fun a => coreOf a.frame == core && a.writes).map fun a =>
    { a with parts := a.parts.map fun p => if p.stage = .granted then { p with stage := .performed } else p }

/-- The jobs of a channel that a core issued. -/
def Channel.ofCore (c : Channel) (core : Nat) : Channel :=
  { c with cur := match c.cur with
             | some j => if coreOf j.cmd.frame = core then some j else none
             | none => none,
           wait := c.wait.filter fun j => coreOf j.cmd.frame = core }

/-- A channel takes back the jobs of a retired core. -/
def Channel.keep (c old : Channel) : Channel :=
  { c with cur := match old.cur with | some j => some j | none => c.cur, wait := old.wait ++ c.wait }

/-- Puts back what the retirement of a core does not end: its queued and taken commands with the descriptors and
accumulators they use, and the writes it had committed (spec/06 R144, spec/11 R255). -/
def State.keepCommands (s old : State) (core : Nat) : State :=
  let c := old.core core
  let t := old.tile (tileOf core)
  let s1 := s.updCore core fun d => { d with copyN := c.copyN, copyU := c.copyU, matN := c.matN, matU := c.matU }
  let s2 := s1.updTile (tileOf core) fun x =>
    { x with copyN := x.copyN.keep (t.copyN.ofCore core), copyU := x.copyU.keep (t.copyU.ofCore core),
             matN := x.matN.keep (t.matN.ofCore core), matU := x.matU.keep (t.matU.ofCore core), descs := t.descs }
  { s2 with accums := (old.accums.filter fun a => a.1 / 6 == core).foldl (fun m a => put m a.1 a.2) s2.accums,
            accs := s2.accs ++ old.committed core }

/-- A frame as the retirement of its core leaves it: ended, with TCAUSE 0x0A, the first halfword of the mismatching
instruction, DETAIL [0] in the issuing thread, and TRETPC its next instruction (spec/05 R110, R120).  DEDUCED: GSPLIT is zero,
a ganged thread's too: no trap splits the gang, the context ends (notes/assumptions/29.md). -/
def Frame.retired (x : Frame) (half : Half) (issued : Bool) : Frame :=
  { x with stat := .free, frozen := false, gang := false, launch := none, units := Vector.replicate 4 Unit.none, late := [],
           fids := [], tickets := List.replicate 4 none, cmds := [], barHold := none, prog := 0, amoFlags := [], since := 0,
           ibuf := [], tcause := tcauseWord 0x0A (if issued then 1 else 0) false, taddr := half.setWidth 64,
           tretpc := x.pc.setWidth 64 }

/-- The first halfword of the instruction at a frame's program counter, as its buffer or cache has it; a free value where
neither holds it any more. -/
def State.headHalf (s : State) (f : Nat) : Half :=
  let a := (s.frame f).pc.toNat
  match s.fetchHalf f a with
  | (_, .half h) => h
  | _ => (Config.freeValue s.fresh).setWidth 16

/-- A core retires by the mismatch of a frame's instruction: its launches end with CORE_RETIRED, every context of it ends with
TCAUSE 0x0A, its tile is excluded, and the core is reported (spec/06 R144, spec/05 R120).  A dispatch core stops and sets
MEVT; the management core takes the package with it (spec/16 R367). -/
def State.retireCore (s : State) (core frame : Nat) : State :=
  let half := s.headHalf frame
  let ended := (s.frames.filter fun p => coreOf p.1 == core && p.2.stat != .free).map fun p =>
    (p.1, p.2.retired half (p.1 == frame))
  let s0 := s.settleUpds core
  let s1 := (s0.launchesOn core).foldl (fun t e => t.killLaunch e 0x05 0) s0
  let own := (s1.frames.filter fun p => coreOf p.1 == core).map (·.1)
  let s2 := own.foldl (fun t f => t.endThread f) s1
  let s3 := ({ s2 with frames := ended.foldl (fun m p => put m p.1 p.2) s2.frames, fresh := s2.fresh + 1 } : State).updCore core
    fun c => { c with retired := true, retry := none, parked := [], waitUrg := none, freeze := none, inN := .empty, inU := .empty }
  if isTileCore core then
    ((s3.keepCommands s0 core).updTile (tileOf core) fun t => { t with excluded := true }).notify (clusterOf core) 1 core
  else if core = mgmtCore then { s3 with halt := some .fatal }
  else s3.setRegBits .mevt (2 ^ (core - 16384))

/-- CORE_RETIRE: a mismatch on the retry of the same instruction (spec/06 R144). -/
def execCoreRetire (frame : Nat) (s : State) : Out :=
  s.act (if (s.core (coreOf frame)).retry = some frame then s.retireCore (coreOf frame) frame else s)

/-- PACKAGE_FATAL: a mismatch on a retry of the management core: every core stops, and the package accepts nothing more
until a package reset (spec/16 R367). -/
def execPackageFatal (s : State) : Out :=
  s.act (if (s.core mgmtCore).retry.isSome then { s with halt := some .fatal } else s)

/-! ### The L1 map (spec/09 R198, R199) -/

/-- The cluster holds a context: a thread, a command, a Praline entry or a Glaze entry (spec/09 R199). -/
def State.clusterBusy (s : State) (c : Nat) : Bool :=
  s.frames.any (fun p => isTileCore (coreOf p.1) && clusterOf (coreOf p.1) == c && p.2.stat != .free) ||
    s.cores.any (fun p => isTileCore p.1 && clusterOf p.1 == c &&
      !(p.2.copyN ++ p.2.copyU ++ p.2.matN ++ p.2.matU).isEmpty) ||
    s.tiles.any fun p => p.1 < 1024 && p.1 / 64 == c &&
      (!(p.2.copyN.jobs ++ p.2.copyU.jobs ++ p.2.matN.jobs ++ p.2.matU.jobs).isEmpty || !p.2.pend.isEmpty ||
        !p.2.glaze.isEmpty)

/-- L1MAP_WRITE: the value waits, or is refused with ERR (spec/09 R198). -/
def execL1mapWrite (w : Writer) (cluster : Nat) (v : Word) (s : State) : Out :=
  s.act <|
    if !s.mayWrite w (.l1map cluster) ∨ cluster ≥ 16 then s
    else
      let ir := v.toNat % 128
      let ur := v.toNat / 256 % 64
      let s1 := if v.getLsbD 30 then s.updCluster cluster fun c => { c with l1map := c.l1map &&& ~~~ 0x40000000#64 } else s
      if ir > 64 ∨ ur > 32 ∨ ir + ur > 64 then s1.updCluster cluster fun c => { c with l1map := c.l1map ||| 0x40000000#64 }
      else s1.updCluster cluster fun c => { c with l1pend := some (BitVec.ofNat 64 (ir + ur * 256)) }

/-- Zeroes the L1 of a cluster. -/
def State.zeroL1 (s : State) (c : Nat) : State :=
  (s.zeroBytes (l1Key c 0) (l1Key c l1Bytes)).clearPoison (l1Key c 0) (l1Key c l1Bytes)

/-- L1MAP_CHANGE: a waiting value takes effect once the cluster holds no context: its L1 is zero, its bank pointers 0. -/
def execL1mapChange (cluster : Nat) (s : State) : Out :=
  s.act <|
    match (s.cluster cluster).l1pend with
    | none => s
    | some v =>
      if s.clusterBusy cluster then s
      else (s.zeroL1 cluster).updCluster cluster fun c =>
        { c with l1map := v ||| (c.l1map &&& 0x40000000#64), l1pend := none, bankPtr := [] }

/-! ### Reset of a containment rectangle (spec/15 R348) -/

/-- Clusters of a rectangle. -/
def State.rectClusters (s : State) (r : Nat) : List Nat := (List.range 16).filter fun c => s.inRect r c

/-- Launches with a context inside a set of clusters. -/
def State.launchesIn (s : State) (cs : List Nat) : List Nat :=
  (s.launches.filter fun p => p.2.resident && !p.2.disp && p.2.pcls.any cs.contains).map (·.1)

/-- A Glaze entry whose publisher's rectangle is reset is DEAD: its open batch is lost (spec/13 R303); the entry of a launch
whose completion has begun is FREE at once (R297). -/
def State.killPublisher (s : State) (tile n : Nat) (g : GEntry) : State :=
  let s1 := g.opened.toList.foldl (fun s b => s.poisonBatch g.sub b) s
  let s2 := s1.setGlaze tile n { g with st := .dead, opened := Option.none }
  let live : Bool := match g.launch with | some e => (s.entry e).st == .placed | none => false
  let s3 := if live then s2 else (s2.applyDead tile (s2.glaze tile n)).setGlaze tile n .none
  match s.glazeOwner g with
  | some f => s3.report f ⟨(s3.frame f).seq, 0, 0x12, g.subVa, 5 + n * 256⟩
  | none => match g.launch with
    | some e => s3.updEntry e fun y => if y.killed then y else { y with status := 7 }
    | none => s3

/-- Glaze entries outside a set of clusters whose publisher spans lie inside. -/
def State.killPublishers (s : State) (cs : List Nat) : State :=
  s.tiles.foldl (fun s t => t.2.glaze.foldl (fun s g =>
    if cs.contains (g.2.pub / l1Bytes) ∧ !cs.contains (t.1 / 64) ∧ g.2.st ≠ .dead then s.killPublisher t.1 g.1 g.2 else s) s) s

/-- Windows of owners outside whose elements lie inside are purged; the owner takes 0x11 (spec/13 R293). -/
def State.purgeWindowsIn (s : State) (cs : List Nat) : State :=
  (s.windows.filter fun w => w.2.loc < 2 ^ 48 && cs.contains (w.2.loc / l1Bytes)).foldl (fun s w =>
    let mine (u : Upd) : Bool := u.launch == w.2.launch && w.2.loc ≤ u.loc && u.loc < w.2.loc + w.2.nelm * w.2.esize
    let keep (l : List Upd) : List Upd := l.filter fun u => !mine u
    let s1 := { s with tiles := mapVals (fun _ t => { t with pend := keep t.pend }) s.tiles,
                       frames := mapVals (fun _ x => { x with tickets := x.tickets.map fun o => match o with
                         | some u => if mine u then none else some u
                         | none => none }) s.frames,
                       windows := drop s.windows w.1 }
    if s1.ownerLives w.2 then s1.report w.2.owner ⟨(s1.frame w.2.owner).seq, 0, 0x11, w.2.va, 1⟩ else s1) s

/-- A core of the rectangle after its reset: CYCLE begins anew (spec/01 R30); its count of corrected mismatches stands. -/
def CoreSt.afterReset (c : CoreSt) (ck : Nat) : CoreSt :=
  { CoreSt.empty with retired := c.retired, checks := c.checks, ckBase := ck }

/-- A tile of the rectangle after its reset, until its built-in test. -/
def Tile.afterReset (t : Tile) : Tile :=
  { Tile.empty with copyFailed := t.copyFailed, matFailed := t.matFailed, excluded := t.excluded }

/-- A cluster whose state stands in retention cells: its reset discards them without waking it (spec/16 R375, R376). -/
def PState.gated : PState → Bool
  | .saved | .clkoff | .off | .waking => true
  | .on | .quiescing | .quiet => false

/-- Clears everything inside a set of clusters. -/
def State.clearClusters (s : State) (cs : List Nat) : State :=
  let inC (k : Nat) : Bool := cs.contains k
  let s1 := cs.foldl State.zeroL1 s
  { s1 with
      tiles := mapVals (fun k t => if k < 1024 && inC (k / 64) then t.afterReset else t) s1.tiles,
      cores := cs.foldl (fun m c => (List.range 1024).foldl (fun m k =>
        let key := c * 1024 + k
        put m key ((lookD m key CoreSt.empty).afterReset s1.ck)) m) s1.cores,
      frames := s1.frames.filter fun p => !(isTileCore (coreOf p.1) && inC (clusterOf (coreOf p.1))),
      accums := s1.accums.filter fun a => !inC (a.1 / 6 / 1024),
      chans := s1.chans.filter fun c => !inC (c.1 / 64),
      resvs := s1.resvs.filter fun r => !(r.loc < 2 ^ 48 && inC (r.loc / l1Bytes)),
      unfenced := s1.unfenced.filter fun u => !(u.loc < 2 ^ 48 && inC (u.loc / l1Bytes)),
      clusters := mapVals (fun k c => if !inC k then c else if (s1.pow k).st.gated then .empty
        else { Cluster.empty with l1map := c.l1map, l1pend := c.l1pend }) s1.clusters,
      power := mapVals (fun k p => if inC k && p.st.gated then { p with lost := true, test := true } else p) s1.power }

/-- A kill of a context frees the templates that are armed with it (spec/15 R341; log 29). -/
def State.disarmCtx (s : State) (ctxs : List Nat) : State :=
  (s.launches.filter fun p => p.2.st == .armed && ctxs.contains p.2.ctx).foldl (fun s p => s.disarm p.1) s

/-- Starts the reset of a rectangle in force, unless one runs: fence, kill, reset (spec/15 R348). -/
def State.rectStart (s : State) (r : Nat) : State :=
  if !s.rectValid r ∨ s.regField (.rectrst r) 1 1 = 1 then s
  else
    let cs := s.rectClusters r
    let s1 := s.setRegBits (.rectrst r) 2
    let es := s1.launchesIn cs
    let s2 := (es.foldl (fun s e => s.killLaunch e 0x09 r) s1).disarmCtx (es.map fun e => (s1.entry e).ctx)
    ((s2.killPublishers cs).purgeWindowsIn cs).clearClusters cs

/-- RECT_RESET: GO is written to RECTRST. -/
def execRectReset (w : Writer) (rect : Nat) (s : State) : Out :=
  s.act (if rect < 16 ∧ s.mayWrite w (.rectrst rect) then s.rectStart rect else s)

/-- UNCORRECTABLE_STATE_ERROR: an error that no trap can report resets the rectangle that holds the cluster. -/
def execUncorrectableStateError (cluster : Nat) (s : State) : Out :=
  s.act <|
    match (List.range 16).find? fun r => s.rectValid r && s.inRect r cluster with
    | some r => s.rectStart r
    | none => s

/-- The built-in test of a tile has run: a tile that fails is excluded, and one that passes returns to placement with its
cores and engines (spec/15 R348, spec/06 R144). -/
def State.tileTested (s : State) (t : Nat) (ok : Bool) : State :=
  let s1 := s.updTile t fun x => { x with excluded := !ok, copyFailed := x.copyFailed && !ok, matFailed := x.matFailed && !ok }
  if !ok then s1
  else { s1 with cores := mapVals (fun k c => if isTileCore k && k / 16 == t then { c with retired := false } else c) s1.cores }

end Sys2Proof.Machine
end

