-- ==== Sys2Proof/Machine/EvDie.lean ====
section
/-!
DEFINITION. Machine/EvDie.lean: writes of device registers (spec/14 R328, R329; spec/15 R331; spec/16 R360, R361): the plain
register write, LKILL, and the two effects of a write to TCTL.
-/
namespace Sys2Proof.Machine

/-- The RW bits that a writer may set: CTL.PART and TCTL.PART at M only, and of STREAM a supervisor's EVTAG (spec/15
R331). -/
def Reg.rwFor (r : Reg) (w : Writer) : Nat :=
  match w, r with
  | .s _, .ctl _ => r.rw - ones 3 1
  | .s _, .tctl _ => r.rw - ones 2 0
  | .s _, .stream _ => ones 11 0
  | _, _ => r.rw

/-- The stored word after a plain write by field types (spec/00 R9). -/
def State.plainWrite (s : State) (w : Writer) (r : Reg) (v : Word) : State :=
  s.setReg r (mergeWrite (s.reg r) v (r.rwFor w) r.w1c)

/-- Two rectangles share a cluster. -/
def rectsMeet (a b : Nat) : Bool :=
  let f (w k : Nat) : Nat := w / 4 ^ k % 4
  f a 0 ≤ f b 1 && f b 0 ≤ f a 1 && f a 2 ≤ f b 3 && f b 2 ≤ f a 3

/-- A write of RECT is refused: X0 > X1, Y0 > Y1, or a valid rectangle that it would overlap (spec/15 R331). -/
def State.rectRefused (s : State) (r : Nat) (v : Word) : Bool :=
  let n := v.toNat
  n % 4 > n / 4 % 4 || n / 16 % 4 > n / 64 % 4 ||
    (n.testBit 15 && (List.range 16).any fun q => q != r && s.rectValid q && rectsMeet n (s.reg (.rect q)).toNat)

/-- Held messages of a tag are discarded and DROP cleared (spec/15 R331 TCTL.V). -/
def State.emptyTag (s : State) (t : Nat) : State := s.setTag t { s.tag t with msgs := [], drop := 0 }

/-- Releases the oldest held slot that fired no launch (spec/15 R331 TCTL.REL). -/
def State.releaseOldest (s : State) (t : Nat) : State :=
  match findAt (fun m => m.fired.isNone) (s.tag t).msgs 0 with
  | some (i, _) => s.setTag t { s.tag t with msgs := dropAt (s.tag t).msgs i }
  | none => s

/-- The effect of a write on a register that has no event of its own, or of the fields that none covers. -/
def State.writeReg (s : State) (w : Writer) (r : Reg) (v : Word) : State :=
  match r with
  | .rect n =>
    let s1 := s.setReg r (mergeWrite (s.reg r) v 0 r.w1c)
    if s1.rectRefused n v then s1.setRegBits r (2 ^ 62) else s1.plainWrite w r v
  | .hbmslot d p =>
    let clash := (List.range 8).any fun q => q != p && s.reg (.hbmslot d q) &&& v != 0
    if clash then { s with slotErr := putFlag s.slotErr (d * 8 + p) true } else s.plainWrite w r v
  | .l2op d p =>
    let s1 := s.plainWrite w r v
    if v.toNat % 8 > 4 ∨ (v.toNat % 8 ≠ 0 ∧ s.regField (.l2op d p) 63 63 = 1) then s1.setRegBits r (2 ^ 62) else s1
  | .chkcnt c =>
    let k := c * 1024 + s.regField (.chksel c) 9 0
    s.updCore k fun x => { x with checks := x.checks &&& (2 ^ 32 - 1 - v.toNat % 2 ^ 32) }
  | .tctl t =>
    let s1 := s.plainWrite w r v
    let s2 := if v.getLsbD 7 then s1.releaseOldest t else s1
    if s2.regField (.tctl t) 3 3 = 0 then s2.emptyTag t else s2
  | .cpwrctl _ => s.setReg r (mergeWrite (s.reg r) (v &&& (s.reg r ||| ~~~ 0xE#64)) 0x1E r.w1c)
  | .l1map c => if v.getLsbD 30 then s.updCluster c fun x => { x with l1map := x.l1map &&& ~~~ 0x40000000#64 } else s
  | _ => s.plainWrite w r v

/-- REGISTER_WRITE: a write of a device register by field types; writes that start something are events of their own. -/
def execRegisterWrite (w : Writer) (addr : Nat) (v : Word) (s : State) : Out :=
  s.act <|
    match Reg.ofAddr addr with
    | none => s
    | some r => if s.mayWrite w r then s.writeReg w r v else s

/-- The writer's partition owns an entry; an agent at M owns all. -/
def State.ownsEntry (s : State) (w : Writer) (e : Nat) : Bool := Writer.owns w (s.entry e).part

/-- LKILL: kills the live launch that the handle names, or sets ERR (spec/15 R331).  A write that clears ERR and names no
handle only clears it. -/
def execLkill (w : Writer) (v : Word) (s : State) : Out :=
  let s1 := s.plainWrite w .lkillReg v
  let h := v.toNat % 2 ^ 32
  s.act <|
    if v.getLsbD 63 ∧ h = 0 then s1
    else match s1.entryOfHandle h with
      | some e =>
        let st := (s1.entry e).st
        if s1.ownsEntry w e ∧ (st = .pending ∨ st = .placed ∨ st = .closing) then s1.killLaunch e 0x01 0
        else s1.setRegBits .lkillReg (2 ^ 63)
      | none => s1.setRegBits .lkillReg (2 ^ 63)

/-- TCTL_REL: REL is written: the oldest held slot that fired no launch is released. -/
def execTctlRel (w : Writer) (tag : Nat) (s : State) : Out :=
  s.act (if tag < 4096 ∧ s.mayWrite w (.tctl tag) then s.releaseOldest tag else s)

/-- TCTL_INVALIDATE: V is written 0: held messages are discarded and DROP cleared. -/
def execTctlInvalidate (w : Writer) (tag : Nat) (v : Word) (s : State) : Out :=
  s.act (if tag < 4096 ∧ s.mayWrite w (.tctl tag) ∧ v.getLsbD 3 = false then s.writeReg w (.tctl tag) v else s)

end Sys2Proof.Machine
end

