-- ==== Sys2Proof/Machine/EvPackage.lean ====
section
/-!
DEFINITION. Machine/EvPackage.lean: the package (spec/16): partition resets (R368), the life cycle, wipes and boot
(R369–R371), attestation (R372), image loading (R373, R374; spec/03 R81–R85), the power handshake (R375, R376), thermal
steps (R377), the die-to-die link (R358) and the firmware mailbox (R362).
-/
namespace Sys2Proof.Machine

/-! ### Partition reset (spec/16 R368) -/

/-- Ends an entry of a partition without a record. -/
def State.dismiss (s : State) (e : Nat) : State :=
  let x := s.entry e
  let s1 := match x.st with
    | .armed => s.disarm e
    | .placed | .closing => (s.killLaunch e 0x01 0).endLaunch e x
    | _ => s
  { s1 with uposts := s1.uposts.filter fun u => u.entry ≠ some e, placing := s1.placing.filter (· ≠ e) }.freeEntry e

/-- Entries of a partition that are not FREE. -/
def State.entriesOf (s : State) (p : Nat) : List Nat :=
  (s.launches.filter fun x => x.2.st != .free && x.2.part == p).map (·.1)

/-- Tags of a partition become invalid, their messages discarded. -/
def State.dropTags (s : State) (p : Nat) : State :=
  ((List.range 4096).filter fun t => s.tagPart t == p && (s.regField (.tctl t) 3 3 == 1 || !(s.tag t).msgs.isEmpty)).foldl
    (fun s t => (s.clearRegBits (.tctl t) 8).emptyTag t) s

/-- Rectangles in force of a partition. -/
def State.rectsOf (s : State) (p : Nat) : List Nat := (List.range 16).filter fun r => s.rectValid r && s.rectPart r == p

/-- BUSY of a partition's reset clears once no reset of its rectangles runs. -/
def State.prstEnd (s : State) (p : Nat) : State :=
  if s.regField (.prst p) 1 1 = 1 ∧ (s.rectsOf p).all (fun r => s.regField (.rectrst r) 1 1 == 0) then s.clearRegBits (.prst p) 2
  else s

/-- PRST_GO: resets a partition: entries, rectangles, variables, tags; the release of its last rectangle ends it. -/
def execPrstGo (w : Writer) (part : Nat) (s : State) : Out :=
  s.act <|
    if part ≥ 8 ∨ !s.mayWrite w (.prst part) ∨ s.regField (.prst part) 1 1 = 1 then s
    else
      let s1 := s.setRegBits (.prst part) 2
      let s2 := (s1.entriesOf part).foldl State.dismiss s1
      let s3 := (s2.rectsOf part).foldl State.rectStart s2
      let s4 := ({ s3 with svars := s3.svars.filter fun v => v.2.part ≠ part }.dropTags part)
      s4.prstEnd part

/-- COUNT of RECTRST rises by 1, to its maximum. -/
def State.countReset (s : State) (r : Nat) : State :=
  if s.regField (.rectrst r) 47 32 = 65535 then s else s.setReg (.rectrst r) (s.reg (.rectrst r) + 0x100000000#64)

/-- RECT_RESET_RELEASE: the tests have run, with the physical tiles that fail, and the fence lifts.  The tiles of a gated
cluster run theirs at the next wake (spec/16 R376). -/
def execRectResetRelease (rect : Nat) (failed : List Nat) (s : State) : Out :=
  s.act <|
    if s.regField (.rectrst rect) 1 1 ≠ 1 then s
    else
      let tiles := ((s.rectClusters rect).filter fun c => !(s.pow c).st.gated).flatMap fun c =>
        (List.range 64).map fun t => c * 64 + t
      ((tiles.foldl (fun s t => s.tileTested t (!failed.contains t)) s).clearRegBits (.rectrst rect) 2).countReset rect |>.prstEnd (s.rectPart rect)

/-! ### Life cycle, wipes, boot (spec/16 R369–R371) -/

/-- HBM keys. -/
def isHbmKey (k : Nat) : Bool := 2 ^ 49 ≤ k && k < 2 ^ 53

/-- Wipes every memory but HBM, whose scrub begins (spec/16 R370). -/
def State.wipeAll (s : State) : State :=
  { s with
      mem := s.mem.filter fun c => isHbmKey c.1, poison := s.poison.filter fun c => isHbmKey (c.1 * 8),
      tiles := mapVals (fun _ t => { t with descs := [], glaze := [], pend := [], icache := [] }) s.tiles,
      accums := [], slices := [], svars := [], windows := [], unfenced := [], wipe := true }

/-- The boot ROM verifies the firmware of the board's flash under the vendor root key, whose hash the fuses hold, and runs it
from the SRAM: slot 0 of the management core starts at M (spec/16 R371; log 8). -/
def State.boot (s : State) : State :=
  let dg := Config.shake256 Config.firmware 64
  if Config.shake256 Config.vendorKey 32 = Config.vendorKeyHash ∧ Config.falconVerify Config.vendorKey dg Config.firmwareSig then
    let s1 := { s with fwOk := true, fwDigest := dg }.writeBytes (sramKey 0) (Config.firmware.take (2 ^ 20))
    let x := Frame.empty .mgmt
    (s1.setFrame (frameKey mgmtCore 0) { x with stat := .ready, priv := .m, pad := some 3, part := 8, arith := 0xE0 }).enterDomain
      (frameKey mgmtCore 0)
  else { s with fwOk := false, fwDigest := dg }

/-- PACKAGE_RESET: everything returns to its reset state but the fuses, HBM, whose scrub begins, and what has already left
the package (spec/16 R370, R371).  A thermal shutdown needs a full power cycle (R377). -/
def execPackageReset (s : State) : Out :=
  match s.halt with
  | some .thermal => .fault .stopped
  | _ =>
    .next
      { State.reset with
          tape := s.tape, turn := s.turn, fresh := s.fresh, ckRate := s.ckRate, fkRate := s.fkRate,
          mem := s.mem.filter (fun c => isHbmKey c.1), poison := s.poison.filter (fun c => isHbmKey (c.1 * 8)),
          life := s.life, idKey := s.idKey, keys := s.keys, msi := s.msi, ringOut := s.ringOut, hostOut := s.hostOut,
          reports := s.reports }.boot

/-- HBM_SCRUB_END: HBM is zero, and WIPE clears. -/
def execHbmScrubEnd (s : State) : Out :=
  s.act (if s.wipe then { (s.zeroBytes (2 ^ 49) (2 ^ 53)).clearPoison (2 ^ 49) (2 ^ 53) with wipe := false } else s)

/-- Works at M, with every right, under the page sizes that REGION values give. -/
def State.asM {α : Type} (s : State) (p : Nat) (region : List Word) (go : State → State × α) : State × α :=
  let f := frameKey mgmtCore 0
  let x : Frame := { Frame.empty .mgmt with stat := .ready, priv := .m, part := p, region := region }
  let (t, a) := go (s.setFrame f x)
  match look s.frames f with
  | some y => (t.setFrame f y, a)
  | none => ({ t with frames := drop t.frames f }, a)

/-- The page sizes of a partition's supervisor. -/
def State.supRegions (s : State) (p : Nat) : List Word := s.ctxRegions (Config.supervisorContext p)

/-- REGION values that give an address, and the 4 GiB after it, one page size (spec/01 R31). -/
def regionsAt (a : Nat) (crumb : Bool) : List Word :=
  [BitVec.ofNat 64 (1 + (if crumb then 2 else 0) + 2047 * 1024 + a / 2 ^ 21 * 2 ^ 21)]

/-- Bytes at an address, as firmware reads them; fewer when a read fails. -/
def State.fwRead (s : State) (p a n : Nat) : State × List Byte :=
  let (s1, bs) := s.asM p (s.supRegions p) fun u =>
    let (t, l, _) := u.readRun (frameKey mgmtCore 0) 0 (wordRuns (n + 1) a n)
    (t, l)
  (s1, (bs.takeWhile fun b => !b.2).map (·.1))

/-- Firmware writes bytes at an address; tells whether every write took place. -/
def State.fwWrite (s : State) (p a : Nat) (region : List Word) (bs : List Byte) : State × Bool :=
  s.asM p region fun u =>
    let (t, _, _, e) := u.writeRun (frameKey mgmtCore 0) 0 false false [] 0 (bs.map fun b => (b, false))
      (wordRuns (bs.length + 1) a bs.length)
    (t, e.isNone)

/-- A little-endian field of a byte string. -/
def fieldAt (bs : List Byte) (off n : Nat) : Nat := leNat ((bs.drop off).take n)

/-- The token of a transition is good: its length, DEVID, TO, and the signatures that the transition needs
(spec/16 R369). -/
def tokenOk (life to_ : Nat) (bs : List Byte) : Bool :=
  let dg := Config.shake256 (bs.take 64) 64
  let sig0 := (bs.drop 0x40).take 1280
  let sig1 := (bs.drop 0x540).take 1280
  bs.length == 2624 && fieldAt bs 0 24 == Config.deviceId.toNat && fieldAt bs 0x18 8 == to_ && to_ == life + 1 &&
    match to_ with
    | 1 => Config.falconVerify Config.vendorKey dg sig0 && sig1.all (· == 0)
    | 2 => Config.falconVerify Config.ownerKey dg sig0 && sig1.all (· == 0)
    | 3 => Config.falconVerify Config.vendorKey dg sig0 && Config.falconVerify Config.ownerKey dg sig1
    | _ => false

/-- A write of LCREQ that names neither state nor token: it only clears ERR. -/
def lcreqClears (v : Word) : Bool := v.getLsbD 63 && v.toNat % 4 == 0 && v.toNat / 64 % 2 ^ 42 == 0

/-- The token that a write of LCREQ names lies in the translated global space, whose accesses the scrub holds
(spec/16 R370): the write is held with it. -/
def State.lcreqHeld (s : State) (v : Word) : Bool :=
  s.wipe && !lcreqClears v && windowOf (v.toNat / 64 % 2 ^ 42 * 64) == .glob

/-- LCREQ: a request for the next life-cycle state, with a signed token; otherwise ERR (spec/16 R369, R370).  A write that
clears ERR and names neither state nor token only clears it. -/
def execLcreq (w : Writer) (v : Word) (s : State) : Out :=
  let s1 := s.plainWrite w .lcreq v
  let to_ := v.toNat % 4
  let adr := v.toNat / 64 % 2 ^ 42 * 64
  s.act <|
    if w ≠ .m ∨ s.lcreqHeld v then s
    else if lcreqClears v then s1
    else
      let (s2, bs) := s1.fwRead 0 adr 2624
      if tokenOk s.life to_ bs then
        let s3 := { s2 with life := to_, idKey := to_ == 1 || (to_ == 2 && s2.idKey) }
        s3.wipeAll.boot
      else s2.setRegBits .lcreq (2 ^ 63)

/-! ### Attestation (spec/16 R372) -/

/-- ATTESTATION_REQUEST: firmware answers with a report and its signature under the identity key. -/
def execAttestationRequest (nonce : BitVec 256) (s : State) : Out :=
  s.act <|
    if !s.fwOk ∨ !s.idKey then s
    else
      let errata := s.images.foldl (fun a i => a ||| i.errata) 0
      let rep := leBytes 32 nonce.toNat ++ (s.fwDigest ++ List.replicate 64 0).take 64 ++ leBytes 1 (s.life % 4) ++
        leBytes 1 0xB0 ++ List.replicate 6 0 ++ leBytes 8 errata ++
        (Config.shake256 Config.ownerKey 64 ++ List.replicate 64 0).take 64 ++ List.replicate 16 0
      { s with reports := s.reports ++ [rep ++ Config.falconSign (Config.shake256 rep 64)] }

/-! ### Images (spec/03 R81–R85, spec/16 R373, R374) -/

/-- A section of an image: offset and size. -/
def sectionAt (bs : List Byte) (o : Nat) : Nat × Nat := (fieldAt bs o 4, fieldAt bs (o + 4) 4)

/-- Sections stand in order, each at a multiple of 64, within the image. -/
def sectionsOk (fin : Nat) : Nat → List (Nat × Nat) → Bool
  | _, [] => true
  | low, (o, n) :: t => low ≤ o && o % 64 == 0 && o + n ≤ fin && sectionsOk fin (o + n) t

/-- Bytes of a span are all zero. -/
def zeroSpan (bs : List Byte) (o n : Nat) : Bool := ((bs.drop o).take n).all (· == 0)

/-- A kernel header is well formed (spec/03 R82, R84).  DESIGN CHOICE: neither rule checks the value of ARITH.RND or the ranges of
THREADS and STACK, and the model accepts any (notes/assumptions/37.md). -/
def kernelOk (bs : List Byte) (o codeLen : Nat) : Bool :=
  let k := fieldAt bs (o + 0x1C) 4
  fieldAt bs (o + 0x10) 4 % 2 == 0 && fieldAt bs (o + 0x10) 4 < codeLen && fieldAt bs (o + 0x18) 4 / 2 ^ 17 == 0 &&
    k / 8 % 32 == 0 && k / 2 ^ 11 % 32 == 0 && k / 2 ^ 22 == 0 && zeroSpan bs (o + 0x50) 16 &&
    (List.range 8).all fun i => fieldAt bs (o + 0x30 + 4 * i) 4 / 2 ^ 12 == 0

/-- A kernel header. -/
def kernelAt (bs : List Byte) (o : Nat) : Nat × KHdr :=
  let k := fieldAt bs (o + 0x1C) 4
  (fieldAt bs (o + 0x10) 4,
   { arith := BitVec.ofNat 64 (fieldAt bs (o + 0x18) 4), guard := k.testBit 0, nomatrix := k.testBit 1, urgok := k.testBit 2,
     threads := k / 256 % 8, stack := k / 65536 % 64, deadline := fieldAt bs (o + 0x20) 8,
     barscope := BitVec.ofNat 64 (fieldAt bs (o + 0x28) 8), errata := 0,
     chans := ((List.range 8).map fun i => fieldAt bs (o + 0x30 + 4 * i) 4).filterMap fun c =>
       if c / 1024 % 4 = 0 then none else some (c % 64, c / 64 % 16 + 1, c / 1024 % 4) })

/-- A record of the pool: place, WR, CRUMB, PIN, length, log2 of its alignment, INIT, AUX (spec/03 R83). -/
structure PoolRec where
  place : Nat
  wr    : Bool
  crumb : Bool
  pin   : Bool
  len   : Nat
  al    : Nat
  init  : Nat
  aux   : Nat
  deriving DecidableEq, Repr

/-- The record lies in memory that the loader allocates in the global space. -/
def PoolRec.global (r : PoolRec) : Bool := r.place == 0 || r.place == 3

/-- The record at an offset. -/
def recordAt (bs : List Byte) (o : Nat) : PoolRec :=
  let a := fieldAt bs (o + 0x10) 4
  ⟨a % 8, a.testBit 3, a.testBit 4, a.testBit 5, fieldAt bs (o + 8) 8, a / 256 % 32, fieldAt bs (o + 0x14) 4, fieldAt bs (o + 0x18) 8⟩

/-- A record is well formed (spec/03 R83, R84).  DESIGN CHOICE: R84 does not check the range of ALIGN, and the model accepts any
(notes/assumptions/37.md). -/
def recordOk (bs : List Byte) (o dataLen : Nat) : Bool :=
  let a := fieldAt bs (o + 0x10) 4
  let r := recordAt bs o
  fieldAt bs o 8 == 0 && a / 64 % 4 == 0 && a / 2 ^ 13 == 0 && r.place ≤ 4 && (r.place == 4 || r.aux == 0) &&
    (r.init == 0xFFFFFFFF || r.init + r.len ≤ dataLen)

/-- The format checks of spec/03 R84.  DESIGN CHOICE: a breach of NKERN's range or of the section sizes of R81, which R84's list does not
name, is refused with them (notes/assumptions/37.md). -/
def imageOk (bs : List Byte) : Bool :=
  let nk := fieldAt bs 6 2
  let nr := fieldAt bs 8 2
  let (ko, kn) := sectionAt bs 0x10
  let (co, cn) := sectionAt bs 0x18
  let (po, pn) := sectionAt bs 0x20
  let (do_, dn) := sectionAt bs 0x28
  let (eo, en) := sectionAt bs 0x30
  let (so, sn) := sectionAt bs 0x38
  64 ≤ bs.length && fieldAt bs 0 4 == 0x524E4E4F && fieldAt bs 4 2 == 1 && 1 ≤ nk && nk ≤ 1024 && zeroSpan bs 0x0A 6 &&
    kn == nk * 96 && cn % 2 == 0 && pn == nr * 32 && en == 8 && sn == 1280 &&
    sectionsOk bs.length 64 [(ko, kn), (co, cn), (po, pn), (do_, dn), (eo, en), (so, sn)] &&
    (List.range nk).all (fun k => kernelOk bs (ko + 96 * k) cn) && (List.range nr).all fun r => recordOk bs (po + 32 * r) dn

/-- The image's signature verifies under a key: Falcon-1024 over the digest of what stands before SIG (spec/03 R85).  DESIGN CHOICE: the
digest has 64 bytes, a length that R85 does not give (notes/assumptions/37.md). -/
def imageSigned (bs : List Byte) (key : List Byte) : Bool :=
  let so := (sectionAt bs 0x38).1
  Config.falconVerify key (Config.shake256 (bs.take so) 64) ((bs.drop so).take 1280)

/-- Initial contents of a record: LENGTH bytes of DATA, or zeros. -/
def recordInit (bs : List Byte) (r : PoolRec) : List Byte :=
  if r.init = 0xFFFFFFFF then List.replicate r.len 0 else ((bs.drop ((sectionAt bs 0x28).1 + r.init)).take r.len)

/-- Where a load puts things: CODE, the pool copies, the L1MAP for which the records of tiles are placed, and a place for
each record. -/
structure Places where
  code : Nat
  pool : Nat
  map  : Word
  recs : List Nat
  deriving DecidableEq, Repr

/-- BASE of a record in a pool copy: copy T names the copies of tile T in the tile-sequential band, copy 64 + T those in the
urgent band (spec/03 R84, spec/09 R203). -/
def Places.base (p : Places) (r : PoolRec) (k t : Nat) : Nat :=
  let a := p.recs.getD k 0
  match r.place with
  | 1 => a
  | 2 => recordBase p.map (64 ≤ t) false t a
  | 4 => p.code + r.aux
  | _ => a

/-- Spans of which no two share a byte. -/
def disjointSpans : List (Nat × Nat) → Bool
  | [] => true
  | (a, n) :: t => (t.all fun (b, m) => n == 0 || m == 0 || a + n ≤ b || b + m ≤ a) && disjointSpans t

/-- The spans of the records of some places. -/
def Places.spans (p : Places) (rs : List PoolRec) (of : PoolRec → Bool) : List (Nat × Nat) :=
  ((rs.zip p.recs).filter fun (r, _) => of r).map fun (r, a) => (a, r.len)

/-- The allocation serves the image: a place for each record, aligned and of its own, and CODE at a multiple of 4,096 in the
global space (spec/03 R84, spec/09 R203). -/
def Places.ok (p : Places) (rs : List PoolRec) (codeLen : Nat) : Bool :=
  p.code % 4096 == 0 && windowOf p.code == .glob && windowOf p.pool == .glob && p.pool % 8 == 0 && p.recs.length == rs.length &&
    ((rs.zip p.recs).all fun (r, a) => a % 2 ^ r.al == 0 &&
      match r.place with | 0 | 3 => windowOf a == .glob | 1 | 2 => a < l1Bytes | _ => true) &&
    disjointSpans ((p.code, codeLen) :: (p.pool, 128 * 32 * rs.length) :: p.spans rs PoolRec.global) &&
    disjointSpans (p.spans rs (·.place == 1)) && disjointSpans (p.spans rs (·.place == 2))

/-- Bytes of a span, one in each block of `step`, from its first to its last. -/
def spanPoints (a n step : Nat) : List Nat :=
  if n = 0 then [] else (List.range ((a + n - 1) / step - a / step + 1)).map fun i => max a ((a / step + i) * step)

/-- A kernel context of a partition may write to an address: its protection table grants W (spec/14 R306, R307). -/
def State.kernelWrites (s : State) (p va : Nat) : Bool :=
  (List.range 256).any fun n =>
    s.regField (.ctl n) 0 0 == 1 && s.regField (.ctl n) 3 1 == p && n != (Config.supervisorContext p).val &&
    (s.asSup p fun u =>
      let t := s.regField (.ptab n) 47 3 * 8
      match u.tableWord unitFrame t with
      | (u1, some h) => match u1.scanTable unitFrame va (t + 8) [] (h.toNat / 2 ^ 40 % 256) with
        | (u2, .found b _) => (u2, Need.w.ok b)
        | (u2, _) => (u2, false)
      | (u1, none) => (u1, false)).2

/-- The page of an address is mapped at a size, and pinned where the record asks for it (spec/03 R83, spec/14 R309). -/
def State.mappedAs (s : State) (va : Nat) (crumb pin : Bool) : Bool :=
  match (s.translate (homeSlice va) va crumb).2 with
  | .ok e => !pin || entryCa e == 1
  | .error _ => false

/-- The memory that the loader allocates is mapped as the image asks: each global record at its page size, pinned where PIN is 1,
writable by kernels only where WR is 1; the pool is read-only to them (spec/03 R83, R84; log 30). -/
def State.placesServe (s : State) (part : Nat) (p : Places) (rs : List PoolRec) : Bool :=
  ((spanPoints p.pool (128 * 32 * rs.length) (2 ^ 21)).all fun a => !s.kernelWrites part a) &&
    (rs.zip p.recs).all fun (r, a) => !r.global ||
      ((spanPoints a r.len (if r.crumb then 1024 else 2 ^ 21)).all fun b => s.mappedAs b r.crumb r.pin) &&
      (r.wr || (spanPoints a r.len (2 ^ 21)).all fun b => !s.kernelWrites part b)

/-- The bytes of pool copy T, each record's BASE written. -/
def poolBytes (bs : List Byte) (p : Places) (rs : List PoolRec) (t : Nat) : List Byte :=
  let po := (sectionAt bs 0x20).1
  rs.zipIdx.flatMap fun (r, k) => leBytes 8 (p.base r k t) ++ (bs.drop (po + 32 * k + 8)).take 24

/-- Firmware performs several writes, each at a page size of its own or at the supervisor's, until one fails. -/
def State.fwWrites (s : State) (p : Nat) : List (Nat × List Byte × Option Bool) → State × Bool
  | [] => (s, true)
  | (a, bs, crumb) :: t =>
    match s.fwWrite p a (match crumb with | some c => regionsAt a c | none => s.supRegions p) bs with
    | (s1, true) => s1.fwWrites p t
    | (s1, false) => (s1, false)

/-- The writes of a load: CODE, the copies of the pool for each band, and the contents of records in global memory. -/
def loadWrites (bs : List Byte) (p : Places) (rs : List PoolRec) : List (Nat × List Byte × Option Bool) :=
  let (co, cn) := sectionAt bs 0x18
  (p.code, (bs.drop co).take cn, none) ::
    ((List.range 128).map fun t => (p.pool + t * (32 * rs.length), poolBytes bs p rs t, none)) ++
    (rs.zip p.recs).filterMap fun (r, a) => if r.global then some (a, recordInit bs r, some r.crumb) else none

/-- The loaded image (spec/03 R84). -/
def loadedImage (bs : List Byte) (addr part errata : Nat) (p : Places) (rs : List PoolRec) : Image :=
  let ko := (sectionAt bs 0x10).1
  { addr := addr, part := part, code := p.code, pool := p.pool, poolLen := 32 * rs.length,
    digest := BitVec.ofNat 64 (leNat ((Config.shake256 (bs.take (sectionAt bs 0x38).1) 64).take 8)), errata := errata, map := p.map,
    kernels := (List.range (fieldAt bs 6 2)).map fun k => kernelAt bs (ko + 96 * k),
    l1recs := (rs.zip p.recs).filterMap fun (r, a) =>
      if r.place = 1 ∨ r.place = 2 then some (r.place == 1, r.len, r.al, a, recordInit bs r) else none }

/-- Loads an image: the status of spec/16 R373, after the checks in their order. -/
def State.loadImage (s : State) (addr len part : Nat) (p : Places) : State × Nat :=
  let (s1, bs) := s.fwRead part addr len
  if bs.length < len ∨ !((lookD s.keys part []).take 8).any (imageSigned bs) then (s1, 2)
  else if !imageOk bs then (s1, 1)
  else
    let errata := fieldAt bs (sectionAt bs 0x30).1 8
    let rs := (List.range (fieldAt bs 8 2)).map fun r => recordAt bs ((sectionAt bs 0x20).1 + 32 * r)
    if errata / 4 ≠ 0 then (s1, 3)
    else if !p.ok rs (sectionAt bs 0x18).2 ∨ !s1.placesServe part p rs then (s1, 4)
    else match s1.fwWrites part (loadWrites bs p rs) with
      | (s2, true) =>
        ({ s2 with images := (s2.images.filter fun i => i.addr ≠ addr) ++ [loadedImage bs addr part errata p rs] }, 0)
      | (_, false) => (s1, 4)

/-- The tag on which firmware takes load requests (spec/16 R373). -/
def fwTag : Nat := 0xFFF

/-- IMAGE_LOAD_REQUEST: firmware serves the request that a slot of its tag holds, with the places that it allocates:
CODE, pool, L1MAP, and one for each record.  The reply goes to the requester's own tag; while the scrub of the HBM holds the
accesses of a load, the request waits (spec/16 R370). -/
def execImageLoadRequest (slot : Nat) (places : List Nat) (s : State) : Out :=
  s.act <|
    if !s.fwOk ∨ s.wipe ∨ !(s.tag fwTag).msgs.any (fun m => m.slot == slot) then s
    else match s.asSup (s.tagPart fwTag) fun u => u.readLine unitFrame (s.slotAddr fwTag slot) with
      | (s1, .words ws) =>
        let w (i : Nat) : Nat := (ws.getD i 0).toNat
        let part := w 2 % 8
        let p : Places := ⟨places.getD 0 0, places.getD 1 0, BitVec.ofNat 64 (places.getD 2 0), places.drop 3⟩
        let from_ := match look s1.posters (fwTag * 64 + slot) with | some x => x.part | none => 8
        let (s2, st) := if from_ ≠ part then (s1, 5) else s1.loadImage (w 0) (w 1) part p
        let s3 := s2.setTag fwTag { s2.tag fwTag with msgs := (s2.tag fwTag).msgs.filter fun m => m.slot ≠ slot }
        s3.makePost (w 3 % 4096) from_ [BitVec.ofNat 64 st, BitVec.ofNat 64 (if st = 0 then w 0 else 0), 0, 0, 0, 0, 0, 0] none
      | (s1, _) => s1

/-! ### Power (spec/16 R375, R376) -/

/-- Writes the power state of a cluster. -/
def State.setPow (s : State) (c : Nat) (p : Power) : State := { s with power := put s.power c p }

/-- A write of CPWRCTL (spec/16 R375). -/
def State.writeCpwr (s : State) (c : Nat) (v : Word) : State :=
  let r := Reg.cpwrctl c
  let p := s.pow c
  let sets (b : Nat) : Bool := v.getLsbD b && !(s.reg r).getLsbD b
  let clears (b : Nat) : Bool := !v.getLsbD b && (s.reg r).getLsbD b
  if (sets 1 ∧ p.st ≠ .quiet) ∨ (sets 2 ∧ p.st ≠ .saved) ∨ (sets 3 ∧ p.st ≠ .clkoff) then s.setRegBits r (2 ^ 31)
  else
    let s1 := s.setReg r (mergeWrite (s.reg r) v r.rw r.w1c)
    if sets 1 then s1.setPow c { p with st := .saved }
    else if sets 2 then s1.setPow c { p with st := .clkoff }
    else if sets 3 then s1.setPow c { p with st := .off, lost := p.lost || !v.getLsbD 4 }
    else if sets 0 ∧ p.st = .on then s1.setPow c { p with st := .quiescing }
    else if clears 0 ∧ (p.st = .quiescing ∨ p.st = .quiet) then s1.setPow c { p with st := .on }
    else s1

/-- A write of CPWRCTL by an agent at M. -/
def State.cpwrBy (s : State) (w : Writer) (c : Nat) (v : Word) (bit : Nat) (to1 : Bool) : State :=
  if w = .m ∧ c < 16 ∧ v.getLsbD bit = to1 then s.writeCpwr c v else s

/-- QREQ_SET: requests quiescence. -/
def execQreqSet (w : Writer) (cluster : Nat) (v : Word) (s : State) : Out := s.act (s.cpwrBy w cluster v 0 true)
/-- QREQ_CLEAR: withdraws the request. -/
def execQreqClear (w : Writer) (cluster : Nat) (v : Word) (s : State) : Out := s.act (s.cpwrBy w cluster v 0 false)
/-- SAVE: saves the retention state. -/
def execSave (w : Writer) (cluster : Nat) (v : Word) (s : State) : Out := s.act (s.cpwrBy w cluster v 1 true)
/-- CKG: gates the clock. -/
def execCkg (w : Writer) (cluster : Nat) (v : Word) (s : State) : Out := s.act (s.cpwrBy w cluster v 2 true)
/-- RAILG: switches the main rail off. -/
def execRailg (w : Writer) (cluster : Nat) (v : Word) (s : State) : Out := s.act (s.cpwrBy w cluster v 3 true)

/-- QUIESCE_COMPLETE: the cluster holds no context. -/
def execQuiesceComplete (cluster : Nat) (s : State) : Out :=
  let p := s.pow cluster
  s.act (if p.st = .quiescing ∧ !s.clusterBusy cluster then s.setPow cluster { p with st := .quiet } else s)

/-- CWAKE: GO is written to CWAKE. -/
def execCwake (w : Writer) (cluster : Nat) (s : State) : Out :=
  let p := s.pow cluster
  s.act (if w = .m ∧ (p.st = .saved ∨ p.st = .clkoff ∨ p.st = .off) then s.setPow cluster { p with st := .waking } else s)

/-- The tiles of a cluster run the built-in test that a reset left due; its outcome is a free value (log 7).  A failure resets
the rectangle that holds the cluster (spec/15 R348).  DEDUCED: a test within the reset of a rectangle only excludes its tile,
as step 3 of that reset says (log 29). -/
def State.wakeTests (s : State) (c : Nat) : State :=
  let (s1, v) := s.draw
  let s2 := (List.range 64).foldl (fun s t => s.tileTested (c * 64 + t) (!v.getLsbD t)) s1
  if v = 0 then s2
  else match (List.range 16).find? fun r => s2.rectValid r && s2.inRect r c with
    | some r => s2.rectStart r
    | none => s2

/-- WAKE_RESTORE_COMPLETE: the cluster is ON: its instruction caches are empty, and its L1 is zero unless it was kept.
DEDUCED: CYCLE of its cores has gone on, also while the rail was off (spec/01 R30 and spec/16 R375 say that it continues
while the clock is gated; notes/assumptions/6.md). -/
def execWakeRestoreComplete (cluster : Nat) (s : State) : Out :=
  let p := s.pow cluster
  s.act <|
    if p.st ≠ .waking then s
    else
      let r := Reg.cpwrctl cluster
      let s1 := if p.lost ∨ !(s.reg r).getLsbD 4 then s.zeroL1 cluster else s
      let s2 := { s1 with tiles := mapVals (fun k t => if k < 1024 ∧ k / 64 = cluster then { t with icache := [] } else t) s1.tiles }
      let s3 := (s2.clearRegBits r 15).setPow cluster ⟨.on, min (2 ^ 32 - 1) (p.wakes + 1), false, false⟩
      if p.test then s3.wakeTests cluster else s3

/-! ### Heat, the die-to-die link, the mailbox -/

/-- THERMAL_STEP: CK takes another step, and MEVT.THERM is set (spec/16 R377). -/
def execThermalStep (level tj : Nat) (s : State) : Out :=
  s.act <|
    if level > 2 then s
    else
      let w := (s.reg .therm).toNat % 2 ^ 16 + level * 2 ^ 16 + tj % 256 * 2 ^ 24
      (s.setReg .therm (BitVec.ofNat 64 w)).setRegBits .mevt 8

/-- THERMAL_SHUTDOWN: at 110 °C the rails switch off (spec/16 R377). -/
def execThermalShutdown (s : State) : Out := s.act { s with halt := some .thermal }

/-- D2D_MODULE_FAIL: a module is taken out of use; with the last one the package stops (spec/16 R358, R367). -/
def execD2dModuleFail (module : Nat) (s : State) : Out :=
  s.act <|
    if module ≥ 4 ∨ s.d2dBad.contains module then s
    else
      let s1 := { s with d2dBad := s.d2dBad ++ [module] }.setRegBits .mevt 4
      if s1.d2dBad.length = 4 then { s1 with halt := some .fatal } else s1

/-- D2D_FLIT_REPLAY: a replayed flit changes only timing (spec/16 R358). -/
def execD2dFlitReplay (s : State) : Out := s.act s

/-- HOST_MAILBOX_WRITE: a write of function 0 to its 4 KiB window of the management core's SRAM (spec/16 R362, R366). -/
def execHostMailboxWrite (offset : Nat) (data : Bytes) (s : State) : Out :=
  s.act <|
    if offset + data.length > 4096 then s
    else s.writeBytes (sramKey (Config.mailboxPage 0 % 256 * 4096 + offset)) data

end Sys2Proof.Machine
end

