-- ==== Sys2Proof/Machine/EvRing.lean ====
section
/-!
DEFINITION. Machine/EvRing.lean: the ring engines and ports (spec/17): configuration (R379), link events (R381–R383, R392),
the ring commands and their takes (R384–R386), SEND (R387), the all-reduce (R388–R390), completion (R391), check values
(R394) and what ends a command early (R395).
-/
namespace Sys2Proof.Machine

/-! ### The command (spec/17 R385) -/

/-- ET of an ALLRED. -/
def RJob.et (j : RJob) : ET := ET.ofCode (pktField j.words 0 16 8)
/-- The arithmetic of an ALLRED: ARITH without EXACT, which changes none of its rules (spec/02 R56). -/
def RJob.ar (j : RJob) : AR := AR.ofWord (BitVec.ofNat 64 (pktField j.words 0 32 16))
/-- SRC. -/
def RJob.src (j : RJob) : Nat := (j.words.getD 1 0).toNat
/-- DST. -/
def RJob.dst (j : RJob) : Nat := (j.words.getD 2 0).toNat
/-- ARG. -/
def RJob.arg (j : RJob) : Nat := pktField j.words 3 0 32
/-- Bytes of an element. -/
def RJob.size (j : RJob) : Nat := j.et.msize
/-- TOUT. -/
def RJob.tout (j : RJob) : Nat := pktField j.words 5 16 16
/-- Member positions in ascending order (spec/17 R389). -/
def RJob.order (j : RJob) : List Nat := (List.range 16).filter j.members.testBit
/-- Bytes of an ALLRED's vector. -/
def RJob.bytes (j : RJob) : Nat := j.arg * j.size
/-- Chunks of 64 bytes. -/
def RJob.count (j : RJob) : Nat := (j.bytes + 63) / 64
/-- Bytes of a chunk. -/
def RJob.len (j : RJob) (c : Nat) : Nat := min 64 (j.bytes - 64 * c)

/-- Element types of an ALLRED (spec/13 R282). -/
def ringEts : List Nat := [0x4, 0x5, 0x8, 0xA, 0xB, 0xC, 0xD]

/-- A field that the KIND does not use, or that is zero in every command, is not zero. -/
def ringNonzero (ws : List Word) : Bool :=
  let k := pktField ws 0 0 8
  let all := k == 2
  pktField ws 0 25 7 != 0 || pktField ws 3 60 4 != 0 || pktField ws 5 32 32 != 0 || ws.getD 6 0 != 0 || ws.getD 7 0 != 0 ||
  (!all && (pktField ws 0 8 16 != 0 || pktField ws 0 32 32 != 0 || ws.getD 2 0 != 0 || pktField ws 3 32 16 != 0 ||
    pktField ws 5 0 32 != 0)) ||
  (k ≥ 3 && ws.getD 1 0 != 0) ||
  (match k with
    | 1 => pktField ws 3 4 12 != 0 || pktField ws 3 28 4 != 0
    | 3 => pktField ws 3 0 32 != 0
    | 4 => pktField ws 3 8 24 != 0
    | _ => pktField ws 0 49 15 != 0)

/-- The BADCMD list of spec/17 R386, but for MEMBERS against the ring.  A COUNT outside 1 to 2^24, a position at or above n
and n = 1 count as it (log 20). -/
def badRing (ws : List Word) (w : Poster) : Bool :=
  let k := pktField ws 0 0 8
  ringNonzero ws || k == 0 || k > 4 || (pktField ws 0 24 1 == 1 && w.priv == .u && !w.urg) ||
  (k == 4 && (w.priv != .m || pktField ws 3 4 4 == 0 || pktField ws 3 0 4 > pktField ws 3 4 4)) ||
  (k == 2 && (pktField ws 0 8 8 > 2 || !ringEts.contains (pktField ws 0 16 8) ||
    (pktField ws 0 8 8 != 0 && (ET.ofCode (pktField ws 0 16 8)).isComplex) || pktField ws 0 32 3 ≥ 4 ||
    pktField ws 3 0 32 == 0 || pktField ws 3 0 32 > 2 ^ 24))

/-- MEMBERS holds two positions of the ring, its own among them. -/
def State.badMembers (s : State) (j : RJob) : Bool :=
  j.order.length < 2 || !j.members.testBit s.ringPos || j.members ≥ 2 ^ s.ringN

/-! ### Routes (spec/17 R383) -/

/-- The links that a message crosses on its way to a position, eastward or westward. -/
def State.pathLinks (s : State) (k : Nat) (east : Bool) : List Nat :=
  if east then (List.range ((k + s.ringN - s.ringPos) % s.ringN)).map fun i => (s.ringPos + i) % s.ringN
  else (List.range ((s.ringPos + s.ringN - k) % s.ringN)).map fun i => (k + i) % s.ringN

/-- The route to a position, when there is one: the shorter way, or the other when that crosses a link that is down. -/
def State.route (s : State) (k : Nat) : Option Bool :=
  let e := decide ((k + s.ringN - s.ringPos) % s.ringN ≤ s.ringN / 2)
  if k ≥ s.ringN then none
  else if (s.pathLinks k e).all s.linkUp then some e
  else if (s.pathLinks k (!e)).all s.linkUp then some (!e)
  else none

/-- A message for a position waits at the port of its route; none when it has no route. -/
def State.ringSend (s : State) (k : Nat) (urg : Bool) (kind : Nat) (head : List Nat) (ws : List Word) : Option State :=
  (s.route k).map fun e => s.portSend e ⟨k, e, urg, kind, head, ws⟩

/-! ### Takes (spec/17 R384, R386) -/

/-- Scratch entry that stands for a poster's context. -/
def scratchEntry : Nat := 512

/-- Works under the context of the poster of a command, of an urgent frame when it posted from one (spec/17 R386); nothing of it is
cached. -/
def State.asPoster {α : Type} (s : State) (w : Poster) (part : Nat) (go : State → State × α) : State × α :=
  if w.all then
    let (t, a) := go (s.setFrame (frameKey mgmtCore 0)
      { Frame.empty .mgmt with stat := .ready, priv := .m, part := part, region := w.region, fenceC := s.olds })
    match look s.frames (frameKey mgmtCore 0) with
    | some y => (t.setFrame (frameKey mgmtCore 0) y, a)
    | none => ({ t with frames := drop t.frames (frameKey mgmtCore 0) }, a)
  else
    let f := if w.urg then unitFrame + 4 else unitFrame
    let x : Frame :=
      { Frame.empty (if w.urg then .urgent else .slot) with
          stat := .ready, fenceC := s.olds, priv := w.priv, part := part, region := w.region, launch := some scratchEntry }
    let y : LEntry :=
      { LEntry.none with ptab := BitVec.ofNat 64 w.table, map := w.map, mapv := w.mapv, part := part }
    let (t, a) := go ((s.setEntry scratchEntry y).setFrame f x)
    ({ t with frames := drop t.frames f, cores := drop t.cores (coreOf unitFrame),
              launches := drop t.launches scratchEntry,
              unfenced := t.unfenced.filter fun u => u.launch ≠ scratchEntry }, a)

/-- The frame under which accesses of a poster are checked. -/
def Poster.frame (w : Poster) : Nat := if w.all then frameKey mgmtCore 0 else if w.urg then unitFrame + 4 else unitFrame

/-- The words of a held message; none when the slot cannot be read. -/
def State.ringWords (s : State) (t k : Nat) : List Word :=
  match (s.asSup (s.tagPart t) fun u => u.readLine unitFrame (s.slotAddr t k)).2 with
  | .words l => l
  | _ => List.replicate 8 0

/-- The next held message of a ring command tag that its engine has not taken. -/
def State.ringHead (s : State) (t : Nat) : Option Nat :=
  ((s.tag t).msgs.find? fun m => !(s.ringOf (t % 2)).jobs.any fun j => j.tag == t && j.slot == m.slot).map (·.slot)

/-- An engine runs an all-reduce of the class and partition of a tag's command. -/
def State.ringBusy (s : State) (t : Nat) (ws : List Word) : Bool :=
  pktField ws 0 0 8 == 2 && (s.ringOf (t % 2)).jobs.any fun j =>
    j.tag == t && j.kind == 2 && j.stage == .running && j.urg == (pktField ws 0 24 1 == 1)

/-- A tag has a command that may start. -/
def State.ringReady (s : State) (t : Nat) : Bool :=
  match s.ringHead t with
  | some k => !s.ringBusy t (s.ringWords t k)
  | none => false

/-- The tag from which the engine of a die takes next: one take per tag in turn. -/
def State.ringNext (s : State) (die : Nat) : Option Nat :=
  ((List.range 8).map fun i => 0xF80 + 2 * (((s.ringOf die).last + 1 + i) % 8) + die).find? s.ringReady

/-- The poster of a message. -/
def State.ringPoster (s : State) (t k : Nat) : Poster := (look s.posters (t * 64 + k)).getD (outsidePoster (s.tagPart t) .u)

/-- Ends a command with a status; its record is still to be posted. -/
def RJob.finish (j : RJob) (st : Nat) : RJob := { j with stage := .ended, status := st }

/-- The engine's rotation has served a tag (spec/17 R384). -/
def State.ringServed (s : State) (die tag : Nat) : State := s.setRing die { s.ringOf die with last := (tag - 0xF80) / 2 }

/-- Adds a command that the engine has taken. -/
def State.ringAdd (s : State) (die : Nat) (j : RJob) : State :=
  let r := s.ringOf die
  s.setRing die { r with jobs := r.jobs ++ [j], last := (j.tag - 0xF80) / 2, taken := r.taken + 1 }

/-- Changes a command by its place. -/
def State.setRJob (s : State) (die n : Nat) (j : RJob) : State :=
  let r := s.ringOf die
  s.setRing die { r with jobs := setAt r.jobs n j }

/-- A take: the tag's turn has come and its next command has a KIND that the event serves; the checks of R386 end it, or it
goes on. -/
def State.ringTake (s : State) (die tag : Nat) (serves : Nat → Bool) (go : State → RJob → State) : State :=
  if die > 1 ∨ s.ringNext die ≠ some tag then s
  else match s.ringHead tag with
    | none => s
    | some k =>
      let ws := s.ringWords tag k
      let who := s.ringPoster tag k
      let j : RJob := ⟨tag, k, (tag - 0xF80) / 2, ws, who, s.time, .running, 0, 0, [], [], 0, none, false, (s.ringOf die).taken⟩
      if !serves j.kind then s
      else if badRing ws who then s.ringAdd die (j.finish 1)
      else if j.kind ≤ 2 ∧ !s.ringCfg then s.ringAdd die (j.finish 4)
      else go s j

/-! ### CONFIG and QUERY (spec/17 R379, R392) -/

/-- RING_CONFIG: a CONFIG command sets pos and n; the ring is unconfigured until the token confirms it. -/
def execRingConfig (die tag : Nat) (s : State) : Out :=
  s.act <| s.ringTake die tag (· == 4) fun s j =>
    let t := { s with ringPos := j.arg % 16, ringN := j.arg / 16 % 16 + 1, ringSet := true, ringCfg := false }
    (t.portSend true ⟨16, true, j.urg, 0, [j.arg % 16, j.arg / 16 % 16 + 1], []⟩).ringAdd die (j.finish 0)

/-- RING_CONFIRM: the token has passed round the ring: the positions agree or disagree. -/
def execRingConfirm (agree : Bool) (s : State) : Out := s.act (if s.ringSet then { s with ringCfg := agree } else s)

/-- The state word of a port. -/
def Port.word (p : Port) : Word :=
  BitVec.ofNat 64 (p.rxw + p.rxsp * 2 ^ 5 + p.txw * 2 ^ 7 + p.txsp * 2 ^ 12 + (if p.up then 2 ^ 14 else 0) + p.replays * 2 ^ 16)

/-- The ring word. -/
def State.ringWord (s : State) : Word :=
  BitVec.ofNat 64 (s.ringPos + (s.ringN - 1) * 16 + (if s.ringCfg then 256 else 0) + (if s.linksDown = 1 then 512 else 0) +
    (if s.linksDown ≥ 2 then 1024 else 0))

/-- RING_QUERY: a QUERY ends at once; its record will hold the state words.  An unassigned KIND is taken here too, and ends
BADCMD. -/
def execRingQuery (die tag : Nat) (s : State) : Out :=
  s.act <| s.ringTake die tag (fun k => k == 3 || k == 0 || k > 4) fun s j => s.ringAdd die (j.finish 0)

/-! ### Posts of the ring (spec/17 R387) -/

/-- A ring post at its destination: discarded and refused, held, or accepted; with the words to poison.  A slot that cannot be
written refuses it (log 20). -/
def State.ringPost (s : State) (tag : Nat) (ws : List Word) (bad : List Nat) (w : Poster) : State × Option Bool :=
  if tag ≥ 4096 ∨ s.regField (.tctl tag) 3 3 = 0 ∨ s.regField (.tctl tag) 5 5 = 0 ∨ s.regField (.prst (s.tagPart tag)) 1 1 = 1 then
    (s, some false)
  else match s.acceptPost tag ws w with
    | (_, .full) => (s, none)
    | (s1, .done) => (if bad.isEmpty then s1 else s1.poisonPost tag bad, some true)
    | (s1, _) => (s1, some false)

/-- A SEND's post by its sender: position, die and number of the command (spec/17 R383). -/
abbrev SendId := Nat × Nat × Nat

/-- The post of a SEND has been accepted or refused before: it is a duplicate (spec/17 R383). -/
def State.ringGot (s : State) (i : SendId) : Bool := (s.ringOf 0).got.contains i || (s.ringOf 1).got.contains i

/-- RING_POST_RECEIVE: a post arrives from another package: it takes a slot, or is refused, and the sender is answered; a
duplicate is discarded.  A poisoned word arrives poisoned, and a line whose check value fails with every word poisoned
(spec/17 R383, R387, R394). -/
def execRingPostReceive (die tag : Nat) (data : RingPost) (damaged : Bool) (s : State) : Out :=
  let id : SendId := (data.pos, data.die, data.num)
  s.act <|
    if data.words.length ≠ 8 ∨ die > 1 ∨ s.ringGot id then s
    else
      let bad := (List.range 8).filter fun i => damaged || data.poison.getLsbD i
      match s.ringPost tag data.words bad (outsidePoster (s.tagPart tag) .u) with
      | (s1, some ok) =>
        let s2 := if damaged then s1.countError die else s1
        let r := s2.ringOf die
        let s3 := s2.setRing die { r with got := r.got ++ [id] }
        (s3.ringSend data.pos data.urg 2 [data.die, data.num, if ok then 0 else 9] []).getD s3
      | (s1, none) => s1

/-- Places, in words of eight bytes, that hold a poisoned byte. -/
def badWords (bs : EBytes) : List Nat := (List.range 8).filter fun i => ((bs.drop (8 * i)).take 8).any (·.2)

/-- Eight words of bytes. -/
def lineWords (bs : EBytes) : List Word :=
  (List.range 8).map fun i => BitVec.ofNat 64 (leNat (((bs.drop (8 * i)).take 8).map (·.1)))

/-- A command's SRC lies in the global space or in an L1 (spec/17 R386). -/
def RJob.srcOk (j : RJob) : Bool :=
  match windowOf j.src with
  | .glob | .own _ | .lcl _ _ => true
  | _ => false

/-- RING_SEND: a SEND reads its message and delivers it: here, when it names its own position, or by a port.  One that is held
gives its turn to the next tag (spec/17 R384). -/
def execRingSend (die tag : Nat) (s : State) : Out :=
  s.act <| s.ringTake die tag (· == 1) fun s j =>
    let f := j.who.frame
    let k := j.arg % 16
    let dtag := j.arg / 65536 % 4096
    let (s1, d, bs, e) := s.asPoster j.who j.part fun u =>
      match u.checkAddr f j.src 1 .r .other, u.checkAddr f (j.src + 63) 1 .r .other with
      | (u1, none), (_, none) => let (u2, l, e) := u1.readRun f 0 (wordRuns 9 j.src 64); (u2, false, l, e)
      | (u1, _), _ => (u1, true, [], none)
    let j1 : RJob := { j with poison := bs.any (·.2) }
    if d then s1.ringAdd die (j.finish 2)
    else if !j.srcOk then s1.ringAdd die (j.finish 3)
    else match e with
      | some .hold => s1.ringServed die tag
      | some _ => s1.ringAdd die (j.finish 3)
      | none =>
        if k = s1.ringPos then
          match s1.ringPost dtag (lineWords bs) (badWords bs) j.who with
          | (s2, some true) => s2.ringAdd die (j1.finish (if j1.poison then 10 else 0))
          | (s2, some false) => s2.ringAdd die (j.finish 9)
          | (_, none) => s1.ringServed die tag
        else match s1.ringSend k j.urg 1 ([dtag, s1.ringPos, die, j.num] ++ badWords bs) (lineWords bs) with
          | some s2 => s2.ringAdd die j1
          | none => s1.ringAdd die (j.finish 6)

/-! ### The all-reduce (spec/17 R388–R390) -/

/-- This member's place in the order of members. -/
def State.memberIdx (s : State) (j : RJob) : Nat := (j.order.findIdx? (· == s.ringPos)).getD 0
/-- The place of this member in the order of a chunk: 0 starts it, and M − 1 is its root. -/
def State.chunkStep (s : State) (j : RJob) (c : Nat) : Nat :=
  let m := j.order.length
  (s.memberIdx j + 2 * m - c % m - 1) % m
/-- The next member round the ring. -/
def State.nextMember (s : State) (j : RJob) : Nat := j.order.getD ((s.memberIdx j + 1) % j.order.length) 0

/-- One combine: the running value is operand a, this member's element operand b (spec/17 R390). -/
def RJob.combine (j : RJob) (a b : Nat) : Nat × Nat :=
  match pktField j.words 0 8 8 with
  | 0 => elemAdd false j.ar j.et a b []
  | 1 => elemMinMax false j.ar j.et a b
  | _ => elemMinMax true j.ar j.et a b

/-- Elements of a chunk's bytes. -/
def RJob.elems (j : RJob) (c : Nat) (bs : List Byte) : List Nat :=
  (List.range (j.len c / j.size)).map fun i => leNat ((bs.drop (i * j.size)).take j.size)

/-- A chunk as it travels: bytes with their poison, flags so far, and the lowest element that has any. -/
structure RChunk where
  bs    : EBytes
  flags : Nat
  flel  : Option Nat
  deriving DecidableEq, Repr

/-- The lower of two elements. -/
def minOpt : Option Nat → Option Nat → Option Nat
  | some a, some b => some (min a b)
  | some a, none => some a
  | none, b => b

/-- Combines the running values of a chunk with this member's; a poisoned operand word poisons the result word
(spec/17 R390, R394). -/
def RJob.merge (j : RJob) (c : Nat) (x : RChunk) (mine : EBytes) : RChunk :=
  let as := j.elems c (x.bs.map (·.1))
  let bs := j.elems c (mine.map (·.1))
  let rs := (as.zip bs).map fun p => j.combine p.1 p.2
  let bad := badWords x.bs ++ badWords mine
  let bytes := (rs.flatMap fun r => leBytes j.size r.1).zipIdx.map fun p => (p.1, bad.contains (p.2 / 8))
  let hit := (findAt (fun r : Nat × Nat => r.2 != 0) rs 0).map fun p => 64 * c / j.size + p.1
  ⟨bytes, rs.foldl (fun f r => f ||| r.2) x.flags, minOpt x.flel hit⟩

/-- What the members of a collective must agree on: OP, ET, ARITH and COUNT (spec/17 R388). -/
def RJob.terms (j : RJob) : List Nat := [pktField j.words 0 8 8, pktField j.words 0 16 8, pktField j.words 0 32 32, j.arg]

/-- Sends a chunk on to the next member, with the terms of the command: partial or final values. -/
def State.sendChunk (s : State) (j : RJob) (c : Nat) (final : Bool) (x : RChunk) : Option State :=
  let el := match x.flel with | some e => e | none => 2 ^ 32 - 1
  s.ringSend (s.nextMember j) j.urg (if final then 4 else 3) (j.head ++ j.terms ++ [c, x.flags, el] ++ badWords x.bs)
    (lineWords x.bs)

/-- Reads this member's bytes of a chunk. -/
def State.readChunk (s : State) (j : RJob) (c : Nat) : State × EBytes × Option EErr :=
  s.asPoster j.who j.part fun u =>
    let (u1, l, e) := u.readRun j.who.frame 0 (wordRuns (j.len c + 1) (j.src + 64 * c) (j.len c))
    (u1, l, e)

/-- Writes the final values of a chunk to DST. -/
def State.writeChunk (s : State) (j : RJob) (c : Nat) (bs : EBytes) : State × Option EErr :=
  s.asPoster j.who j.part fun u =>
    let (u1, _, _, e) := u.writeRun j.who.frame 0 false false [] 0 bs (wordRuns (j.len c + 1) (j.dst + 64 * c) (j.len c))
    (u1, e.map (·.1))

/-- A member's command ends early, and its partners are told: MISMATCH and ENGFAIL end theirs alike, any other end aborts them
(spec/17 R388, R394, R395). -/
def State.ringFail (s : State) (die n : Nat) (j : RJob) (st : Nat) : State :=
  (s.setRJob die n (j.finish st)).sendRound (if st = 5 then 6 else if st = 0x0B then 7 else 5) j

/-- The final values of a chunk reach this member, at place `d` of its order: they are written, and sent on unless the next member is
the root. -/
def State.finalChunk (s : State) (die n : Nat) (j : RJob) (c d : Nat) (x : RChunk) : State :=
  match s.writeChunk j c x.bs with
  | (s1, some .hold) => s1
  | (s1, some _) => s1.ringFail die n j 3
  | (s1, none) =>
    let j1 : RJob :=
      { j with chunks := j.chunks ++ [c], passed := if j.passed.contains c then j.passed else j.passed ++ [c],
               aux := j.aux + j.len c / j.size, flags := j.flags ||| x.flags, flel := minOpt j.flel x.flel,
               poison := j.poison || x.bs.any (·.2) }
    let j2 := if j1.chunks.length ≥ j1.count then j1.finish (if j1.poison then 10 else 0) else j1
    let s2 := s1.setRJob die n j2
    if d + 2 = j.order.length then s2
    else match s2.sendChunk j c true x with
      | some s3 => s3
      | none => s2.ringFail die n j1 6

/-- The partial values of a chunk reach this member, which combines them, and sends the partial or the final values on. -/
def State.partialChunk (s : State) (die n : Nat) (j : RJob) (c : Nat) (x : Option RChunk) : State :=
  let d := s.chunkStep j c
  match s.readChunk j c with
  | (s1, _, some .hold) => s1
  | (s1, _, some _) => s1.ringFail die n j 3
  | (s1, mine, none) =>
    let y : RChunk := match x with
      | some v => j.merge c v mine
      | none => ⟨mine, 0, none⟩
    let j1 : RJob := { j with passed := j.passed ++ [c] }
    if d + 1 = j.order.length then s1.finalChunk die n j1 c d y
    else match s1.sendChunk j c false y with
      | some s2 => s2.setRJob die n j1
      | none => s1.ringFail die n j 6

/-- A chunk that a member starts and has not sent yet, while its command still runs; one whose SRC is held is tried again
(spec/17 R389). -/
def State.startChunk (s : State) (die n c : Nat) : State :=
  match (s.ringOf die).jobs[n]? with
  | some j =>
    if j.kind = 2 ∧ j.stage = .running ∧ c < j.count ∧ s.chunkStep j c = 0 ∧ !j.passed.contains c then s.partialChunk die n j c none
    else s
  | none => s

/-- Every SRC and DST byte passes check 3, at the bounds of every chunk; none when it does (spec/17 R386). -/
def State.ringDenied (s : State) (j : RJob) : State × Bool :=
  s.asPoster j.who j.part fun u =>
    (List.range j.count).foldl (fun (u, b) c =>
      let f := j.who.frame
      let last := 64 * c + j.len c - 1
      let one (v : State × Bool) (a : Nat) (need : Need) : State × Bool :=
        if v.2 then v else let (t, d) := v.1.checkAddr f a 1 need .other; (t, d.isSome)
      one (one (one (one (u, b) (j.src + 64 * c) .r) (j.src + last) .r) (j.dst + 64 * c) .w) (j.dst + last) .w) (u, false)

/-- ALLRED: the command joins its collective and sends the chunks that it starts; an address that is not a multiple of the
element size, or lies in no window that SRC or DST may name, fails its access (log 20). -/
def execAllred (die tag : Nat) (s : State) : Out :=
  s.act <| s.ringTake die tag (· == 2) fun s j =>
    if s.badMembers j then s.ringAdd die (j.finish 1)
    else match s.ringDenied j with
      | (s1, true) => s1.ringAdd die (j.finish 2)
      | (s1, false) =>
        if !j.srcOk ∨ j.src % j.size ≠ 0 ∨ j.dst % j.size ≠ 0 then (s1.ringAdd die (j.finish 3)).sendAbort j
        else (List.range j.count).foldl (fun s c => s.startChunk die (s1.ringOf die).jobs.length c) (s1.ringAdd die j)

/-- Bytes of a chunk as they arrive: eight words and the poison of each. -/
def arrived (n : Nat) (ws : List Word) (poison : BitVec 8) : EBytes :=
  ((ws.zipIdx.flatMap fun p => (leBytes 8 p.1.toNat).map fun b => (b, poison.getLsbD p.2)).take n)

/-- REDUCE_CHUNK_ARRIVAL: partial or final values of a chunk arrive from the member before this one, with the terms of its
command; a duplicate is discarded.  Terms that differ end the command MISMATCH on every member (spec/17 R388), and a combine that
fails its second comparison ends it ENGFAIL (R394). -/
def execReduceChunkArrival (die job chunk : Nat) (final : Bool) (data : RingChunk) (poison : BitVec 8) (flags flel : Nat)
    (engfail : Bool) (s : State) : Out :=
  s.act <|
    match (s.ringOf die).jobs[job]? with
    | none => s
    | some j =>
      let d := s.chunkStep j chunk
      let m := j.order.length
      let x : RChunk := ⟨arrived (j.len chunk) data.words poison, flags % 256, if flel ≥ 2 ^ 32 - 1 then none else some flel⟩
      if j.kind ≠ 2 ∨ j.stage ≠ .running ∨ data.words.length ≠ 8 then s
      else if data.terms ≠ j.terms then (if j.chunks = [] then s.ringFail die job j 5 else s)
      else if chunk ≥ j.count then s
      else if engfail then s.ringFail die job j 0x0B
      else if final then
        if d + 1 = m ∨ !(j.passed.contains chunk) ∨ j.chunks.contains chunk then s else s.finalChunk die job j chunk d x
      else if d = 0 ∨ j.passed.contains chunk then s
      else s.partialChunk die job j chunk (some x)

/-! ### Ends (spec/17 R391, R395) -/

/-- The record of a command that has ended. -/
def State.ringRecord (s : State) (j : RJob) : List Word :=
  let q := j.kind == 3 && j.status == 0
  let st (w : Word) : Word := if q then w else 0
  let aux := if j.kind = 1 then 64 else j.aux
  [BitVec.ofNat 64 (j.status + j.kind * 256 + pktField j.words 3 32 16 * 65536 + aux % 2 ^ 32 * 2 ^ 32),
   BitVec.ofNat 64 j.flags, BitVec.ofNat 64 (match j.flel with | some e => e | none => 2 ^ 32 - 1),
   BitVec.ofNat 64 s.time, j.words.getD 4 0,
   st (s.ringOf 0).port.word, st (s.ringOf 1).port.word, st s.ringWord]

/-- A command leaves its engine: its record is posted to CTAG, and its slot released (spec/17 R384, R391, spec/15 R409). -/
def State.ringEnd (s : State) (die n : Nat) (j : RJob) : State :=
  let r := s.ringOf die
  let s1 := s.setRing die { r with jobs := dropAt r.jobs n }
  let ctag := pktField j.words 3 48 12
  let s2 := if s1.tagValidFor ctag j.part then
      { s1 with uposts := s1.uposts ++ [⟨ctag, j.part, s.ringRecord j, none, some 3⟩] } else s1
  s2.setTag j.tag { s2.tag j.tag with msgs := (s2.tag j.tag).msgs.filter fun m => m.slot != j.slot }

/-- What an answer from the ring makes of a running command: DONE or REFUSED or UNREACH for a SEND; MISMATCH, while no DST
byte is written, UNREACH or ENGFAIL for an ALLRED. -/
def RJob.answered (j : RJob) (answer : Nat) : Option RJob :=
  if j.kind = 1 then
    if answer = 0 then some (j.finish (if j.poison then 10 else 0))
    else if answer = 6 ∨ answer = 9 then some (j.finish answer) else none
  else if (answer = 5 ∧ j.chunks = []) ∨ answer = 6 ∨ answer = 0x0B then some (j.finish answer) else none

/-- RING_COMMAND_COMPLETE: a command ends, of itself or by an answer from the ring: its record is posted. -/
def execRingCommandComplete (die job answer : Nat) (s : State) : Out :=
  s.act <|
    match (s.ringOf die).jobs[job]? with
    | none => s
    | some j =>
      if j.stage = .ended then s.ringEnd die job j
      else match j.answered answer with
        | some j1 => s.ringEnd die job j1
        | none => s

/-- ALLRED_TIMEOUT: an ALLRED that has not ended TOUT × 1,024 ticks after its take ends TIMEOUT, and its partners abort. -/
def execAllredTimeout (die job : Nat) (s : State) : Out :=
  s.act <|
    match (s.ringOf die).jobs[job]? with
    | none => s
    | some j =>
      if j.kind = 2 ∧ j.stage = .running ∧ j.tout ≠ 0 ∧ s.time ≥ j.since + j.tout * 1024 then s.ringFail die job j 7 else s

/-- ALLRED_ABORT: another member has withdrawn: the command ends ABORTED. -/
def execAllredAbort (die job : Nat) (s : State) : Out :=
  s.act <|
    match (s.ringOf die).jobs[job]? with
    | none => s
    | some j => if j.kind = 2 ∧ j.stage = .running then s.setRJob die job (j.finish 8) else s

/-! ### Flits (spec/17 R381) -/

/-- The virtual channel of a message: message normal and real-time, reduce normal and real-time. -/
def RMsg.chan (m : RMsg) : Nat := (if m.kind ≤ 2 then 0 else 2) + (if m.urg then 1 else 0)

/-- The place of the message that a port sends next: the oldest of a channel with room, the real-time channels first. -/
def Port.next (p : Port) : Option (Nat × RMsg) :=
  [1, 3, 0, 2].findSome? fun c => if p.room.getLsbD c then findAt (fun m : RMsg => m.chan == c) p.queue 0 else none

/-- Flits leave a port, each with the room bits of this end: which channels have room for the opposite direction is a free value, for
the spec gives the receiver no size (log 20). -/
def State.flitsOut (s : State) (l : List (BitVec 12 × RMsg)) : State :=
  l.foldl (fun s f => let (s1, v) := s.draw
    { s1 with ringOut := s1.ringOut ++ [⟨f.1, v.setWidth 4, f.2⟩] }) s

/-- A port sends its next flit: it takes a sequence number and stands in the replay buffer until it is acknowledged. -/
def State.flit (s : State) (die : Nat) : State :=
  let r := s.ringOf die
  let p := r.port
  if die > 1 ∨ !p.up ∨ p.buf.length ≥ 512 then s
  else match p.next with
    | none => s
    | some (i, m) =>
      let q : Port := { p with queue := dropAt p.queue i, txSeq := p.txSeq + 1, buf := p.buf ++ [(p.txSeq, m)] }
      (s.setRing die { r with port := q }).flitsOut [(p.txSeq, m)]

/-- The receiver has acknowledged the oldest flits of a port; a negative acknowledgement does so for those before its flit. -/
def State.flitAck (s : State) (die n : Nat) : State :=
  let r := s.ringOf die
  if die > 1 then s else s.setRing die { r with port := { r.port with buf := r.port.buf.drop n } }

/-- A flit has come in, with its sequence number and the room bits of the other end: one out of sequence is discarded. -/
def State.flitIn (s : State) (die : Nat) (seq : BitVec 12) (room : BitVec 4) : State :=
  let r := s.ringOf die
  if die > 1 ∨ !r.port.up ∨ seq ≠ r.port.rxSeq then s
  else s.setRing die { r with port := { r.port with rxSeq := r.port.rxSeq + 1, room := room } }

/-- A port sends every flit again that has not been acknowledged, in order and with its number. -/
def State.resendFlits (s : State) (die : Nat) : State := s.flitsOut (s.ringOf die).port.buf

/-- A check value fails at a ring port before a line leaves: all its words go poisoned, and the die counts it (spec/14 R323,
spec/17 R394). -/
def RMsg.spoil (m : RMsg) : RMsg :=
  let bad := List.range 8
  if m.kind = 1 then { m with head := m.head.take 4 ++ bad }
  else if m.kind = 3 ∨ m.kind = 4 then { m with head := m.head.take 11 ++ bad }
  else m

/-- The line of a message that waits at a ring port is spoilt, if it carries one. -/
def State.badRingLine (s : State) (die place : Nat) : State :=
  let r := s.ringOf die
  match r.port.queue[place]? with
  | none => s
  | some m =>
    if m.words = [] then s
    else (s.setRing die { r with port := { r.port with queue := setAt r.port.queue place m.spoil } }).countError die

/-! ### Ports (spec/17 R381–R383, R392) -/

/-- Replays stop at the maximum. -/
def Port.replay (p : Port) : Port := { p with replays := min (2 ^ 32 - 1) (p.replays + 1) }

/-- FLIT_NAK_REPLAY: the oldest flit that has not been acknowledged fails its link CRC: the port sends it and every later one again, in
order, and REPLAYS counts (spec/17 R381). -/
def execFlitNakReplay (die : Nat) (s : State) : Out :=
  let r := s.ringOf die
  s.act (if die ≤ 1 then (s.setRing die { r with port := r.port.replay }).resendFlits die else s)

/-- Lanes in use of a direction, of 16 data and 2 spare lanes, once lanes have failed: 16 while a spare is left for each
failed lane, then 8, then none; a width never grows again (spec/17 R382). -/
def laneWidth (w : Nat) (bad : List Nat) : Nat :=
  let good := 18 - bad.length
  if w = 16 ∧ good ≥ 16 then 16 else if good ≥ 8 ∧ w ≠ 0 then 8 else 0
/-- Spares that have taken the place of a failed data lane. -/
def sparesUsed (bad : List Nat) : Nat := min (bad.filter (· < 16)).length (2 - (bad.filter (· ≥ 16)).length)

/-- The command whose message has no route ends UNREACH: a SEND, or an ALLRED whose chunk it carried (spec/17 R383). -/
def State.unreached (s : State) (m : RMsg) : State :=
  let hit (die : Nat) (p : RJob → Bool) : Option (Nat × Nat × RJob) :=
    (findAt p (s.ringOf die).jobs 0).map fun x => (die, x.1, x.2)
  match m.kind with
  | 1 => match hit (m.head.getD 2 0) fun j => j.kind == 1 && j.stage == .running && j.num == m.head.getD 3 0 with
    | some (d, n, j) => s.setRJob d n (j.finish 6)
    | none => s
  | 3 | 4 => match hit (m.head.getD 0 0) fun j => j.kind == 2 && j.head == m.head.take 4 && (j.stage == .running || j.status == 0 ||
      j.status == 10) with
    | some (d, n, j) => s.ringFail d n j 6
    | none => s
  | _ => s

/-- A message takes its way anew: that of its destination, or either direction for one that goes round the ring. -/
def State.resend (s : State) (m : RMsg) : State :=
  let way := if m.dest < 16 then s.route m.dest
    else if s.portUp m.east then some m.east else if s.portUp (!m.east) then some (!m.east) else none
  match way with
  | some e => s.portSend e { m with east := e }
  | none => s.unreached m

/-- A link goes down: what its port has not sent, or sent without an acknowledgement, goes the other way (spec/17 R383). -/
def State.linkLost (s : State) (die : Nat) : State :=
  let r := s.ringOf die
  (r.port.buf.map (·.2) ++ r.port.queue).foldl State.resend (s.setRing die { r with port := { r.port with queue := [], buf := [] } })

/-- A link elsewhere has changed: messages that wait at the ports take the route that now holds (spec/17 R383). -/
def State.reroute (s : State) : State :=
  let q (d : Nat) : List RMsg := (s.ringOf d).port.queue
  let clear (s : State) (d : Nat) : State :=
    let r := s.ringOf d
    s.setRing d { r with port := { r.port with queue := [] } }
  (q 0 ++ q 1).foldl State.resend (clear (clear s 0) 1)

/-- LANE_FAILURE: the direction's width changes, which a replay follows, an event goes to tag 0xFFF with the port's state word, and a direction
without width takes the link down.  A direction that is down changes no more (spec/17 R382). -/
def execLaneFailure (die : Nat) (receive : Bool) (lane : Nat) (s : State) : Out :=
  s.act <|
    let r := s.ringOf die
    let p := r.port
    let bad := if receive then p.rxbad else p.txbad
    if die > 1 ∨ lane ≥ 18 ∨ bad.contains lane ∨ (if receive then p.rxw else p.txw) = 0 then s
    else
      let b := bad ++ [lane]
      let p1 : Port :=
        if receive then { p with rxbad := b, rxw := laneWidth p.rxw b, rxsp := sparesUsed b }
        else { p with txbad := b, txw := laneWidth p.txw b, txsp := sparesUsed b }
      let p2 := ({ p1 with up := p1.up && p1.rxw != 0 && p1.txw != 0 } : Port).replay
      let s1 := s.setRing die { r with port := p2 }
      let s2 := if p.up ∧ !p2.up then s1.linkLost die else if p2.up then s1.resendFlits die else s1
      s2.makePost 0xFFF (s.tagPart 0xFFF) (p2.word :: List.replicate 7 0) none

/-- RING_LINK_UP: the link of a port comes up with the lanes that are good; sequence numbers begin anew at both ends (log 20). -/
def execRingLinkUp (die : Nat) (s : State) : Out :=
  let r := s.ringOf die
  s.act (if die ≤ 1 ∧ !r.port.up ∧ r.port.rxw ≠ 0 ∧ r.port.txw ≠ 0 then
    s.setRing die { r with port := { r.port with up := true, txSeq := 0, rxSeq := 0, buf := [], room := 15#4 } } else s)

/-- A link of the ring elsewhere goes down or comes up. -/
def State.farLink (s : State) (link : Nat) (up : Bool) : State :=
  let l := if up then s.farDown.filter (· ≠ link) else if s.farDown.contains link then s.farDown else s.farDown ++ [link]
  ({ s with farDown := l } : State).reroute

end Sys2Proof.Machine
end

