-- ==== Sys2Proof/Machine/Fetch.lean ====
section
/-!
DEFINITION. Machine/Fetch.lean: what a frame issues next (spec/06 R126–R128, R141; spec/05 R112; spec/03 R67): the events of
its instruction boundary, its fetch and decode, the landing pad, and the interlocks; the register stores and posts of
threads that are performed next (spec/14 R408, spec/15 R333); and how an instruction is laid before a frame.
-/
namespace Sys2Proof.Machine

/-! ### Issue -/

/-- What a frame does at its turn. -/
inductive Issue where
  /-- nothing issues; what the fetch has asked for stands in the state -/
  | hold (s : State)
  /-- an event at the frame's instruction boundary, or a trap that decoding raises -/
  | out (o : Out)
  /-- the instruction issues -/
  | run (i : Instr) (s : State)

/-- The frame holds a thread or context that may issue (spec/06 R127).  A freeze takes hold at an instruction boundary: a
TSKIP that has issued still sends its other skip updates (spec/06 R140, spec/13 R289).  DEDUCED
(notes/assumptions/26.md). -/
def State.canIssue (s : State) (f : Nat) : Bool :=
  let x := s.frame f
  x.stat == .ready && (!x.frozen || x.midSkip) && !(s.core (coreOf f)).retired

/-- A hold that an earlier instruction has left: a BAR that acts as BWAIT (spec/12 R273), or a SEND whose item no channel
has accepted (spec/15 R355). -/
def State.heldBack (s : State) (f : Nat) : Bool :=
  s.sendHolds f || match (s.frame f).barHold with
    | some n => s.barWaits f n
    | none => false

/-- A value not permitted that depends on VWIDTH (spec/03 R67 check 5): the lane of VMOVS, the length of a burst. -/
def State.widthBad (s : State) (f : Nat) (i : Instr) : Bool :=
  let x := s.frame f
  match i with
  | .vmovsToG o => !laneOk o (x.vbytes * 8 / o.et.width)
  | .vmovsToV o => !laneOk o (x.vbytes * 8 / o.et.width)
  | .vld o => o.bl != 0 && !burstOk o x.wpr
  | .vst o => o.bl != 0 && !burstOk o x.wpr
  | _ => false

/-- Kind of landing pad that an instruction is (spec/04 R107). -/
def padKind : Instr → Option Nat
  | .padJ _ => some 0
  | .padC _ => some 1
  | .padH _ => some 2
  | .padL _ => some 3
  | _ => none

/-- A decoded instruction before it issues: the checks 5 and 6 of spec/03 R67, then its interlocks.  It issues as the
executing instruction of the frame, and the landing-pad requirement is met. -/
def State.ready (s : State) (f : Nat) (i : Instr) : Issue :=
  let x := s.frame f
  if s.widthBad f i then .out (s.act (s.takeTrap f ⟨0x01, illegalDetail ((encode i).length - 1) 3, chainWord (encode i), x.pc⟩))
  else match x.pad with
    | some k =>
      if padKind i ≠ some k then .out (s.act (s.takeTrap f ⟨0x03, k, x.pc.setWidth 64, x.pc⟩))
      else if s.interlocked f i then .hold s
      else .run i { s.updFrame f fun y => { y with pad := none } with cur := f }
    | none => if s.interlocked f i then .hold s else .run i { s with cur := f }

/-- The frame fetches its next chain and decodes it (spec/03 R67 checks 1 to 5); a context that has just started reads the
header of its protection table first (spec/14 R308). -/
def State.fetchNext (s0 : State) (f : Nat) : Issue :=
  let s := if s0.headerDue f then (s0.tableHeader f).1 else s0
  match s.fetchChain f (s.frame f).pc.toNat 5 with
  | (s1, .wait) => .hold s1
  | (s1, .trap c d a) => .out (execInstructionFetchFault f a (c + d / 256 % 2 * 256) s1)
  | (s1, .chain hs) =>
    match decode hs with
    | .error _ => .out (execIllegalInstruction f hs s1)
    | .ok (i, _) => s1.ready f i

/-- What a frame does at its turn: a reported late outcome comes first (spec/05 R112), then the flags of atomics, then the
holds of earlier instructions, then the next instruction. -/
def State.issue (s : State) (f : Nat) : Issue :=
  let x := s.frame f
  if !s.canIssue f then .hold s
  else if x.midSkip then s.fetchNext f
  else if x.late ≠ [] then .out (execLateOutcomeTrap f s)
  else if x.amoFlags ≠ [] then .out (s.act (s.mergeAmo f))
  else if s.heldBack f then .hold s
  else if x.barHold.isSome then (s.updFrame f fun y => { y with barHold := none }).fetchNext f
  else s.fetchNext f

/-- After a frame's turn: an instruction that has committed or has trapped ends the retry state of its core, whichever frame
it is of (spec/06 R144: a commit without a mismatch clears it), and the rotation moves past a slot that has issued
(spec/06 R126). -/
def State.committedBy (s t : State) (f : Nat) : State :=
  let k := coreOf f
  let c := t.core k
  let x := s.frame f
  let ran := (look t.frames f).map (·.seq) ≠ some x.seq
  if !ran ∧ (look t.frames f).map (·.stat) = some x.stat then t
  else t.setCore k { c with retry := none, last := if ran ∧ slotOf f < 4 then slotOf f else c.last }

/-! ### Register stores and posts -/

/-- Access of a frame that stores to a device register or posts a message, when it may be performed. -/
def State.ioStore (s : State) (f seq : Nat) : Option (Acc × Part) :=
  match s.accOf f seq with
  | some a => match a.parts with
    | p :: _ => if a.op == .store && s.eligible a 0 then some (a, p) else none
    | [] => none
  | none => none

/-- The bit of CPWRCTL whose setting, or QREQ whose clearing, makes a value's write an event of the power handshake. -/
def State.cpwrChange (s : State) (c : Nat) (v : Word) : Option Nat :=
  let r := s.reg (.cpwrctl c)
  ([1, 2, 3, 0].find? fun b => v.getLsbD b && !r.getLsbD b) <|> if !v.getLsbD 0 && r.getLsbD 0 then some 0 else none

/-- A write of a register has the effect of the event that it is (spec/14 R329; spec/15 R331, R348; spec/16 R360, R368,
R375; spec/09 R198). -/
def State.writeEvent (s : State) (w : Writer) (r : Reg) (v : Word) : Out :=
  let plain := execRegisterWrite w r.addr v s
  let n := v.toNat
  match r with
  | .lcreq => execLcreq w v s
  | .lkillReg => execLkill w v s
  | .l1map c => execL1mapWrite w c v s
  | .fresume d =>
    if v.getLsbD 63 ∧ n % 2 ^ 33 = 0 then plain
    else if v.getLsbD 32 then execFresumeAbandon w d (n % 2 ^ 32) s else execFresumeRetry w d (n % 2 ^ 32) s
  | .l2op d p =>
    match n % 8 with
    | 1 => execL2opClean w d p s
    | 2 => execL2opFlush w d p s
    | 3 => execL2opUnpin w d p s
    | 4 => execL2opXinv w d p s
    | _ => plain
  | .rectrst q => if v.getLsbD 0 then execRectReset w q s else plain
  | .prst p => if v.getLsbD 0 then execPrstGo w p s else plain
  | .tctl t => if v.getLsbD 3 then plain else execTctlInvalidate w t v s
  | .cwakeReg c => if v.getLsbD 0 then execCwake w c s else plain
  | .cpwrctl c =>
    match s.cpwrChange c v with
    | some 0 => if v.getLsbD 0 then execQreqSet w c v s else execQreqClear w c v s
    | some 1 => execSave w c v s
    | some 2 => execCkg w c v s
    | some 3 => execRailg w c v s
    | _ => plain
  | _ => plain

/-- The turn of a thread's register store or post: the store is performed with its effect; none when it cannot be performed
now. -/
def State.ioTurn (s : State) (f seq : Nat) : Option Out :=
  match s.ioStore f seq with
  | none => none
  | some (a, p) =>
    match p.tgt with
    | .post x => some (s.act (s.devicePost a ((x - apBase) / 64)))
    | .reg x =>
      match Reg.ofAddr x with
      | none => none
      | some r =>
        if r = .lcreq ∧ s.lcreqHeld p.data then none
        else
        let w := s.writerOf f
        let s1 := (s.stagePart a 0 p .performed).settle f seq
        let s2 := if s.mayWrite w r && r.rw == 0 then s1.plainWrite w r p.data else s1
        some (s2.writeEvent w r p.data)
    | _ => none

/-! ### An instruction before a frame -/

/-- The low and high byte of halfwords. -/
def halfBytes : List Half → List Byte
  | [] => []
  | h :: t => h.setWidth 8 :: (h >>> 8).setWidth 8 :: halfBytes t

/-- Address at which the frame of `withHalves` runs: the base of the translated global space. -/
def probePc : Nat := globBase

/-- Lays a chain of halfwords before slot 0 of core 0, running, as a fetch of its 16-byte block leaves it, and gives that
frame the next turn. -/
def State.withHalves (s : State) (hs : List Half) : State :=
  let x := s.frame 0
  let b := (halfBytes hs ++ List.replicate 16 0).take 16
  { s.setFrame 0 { x with kind := .slot, stat := .ready, frozen := false, pc := BitVec.ofNat 48 probePc, pad := none,
                          ibuf := [(probePc, b)], late := [], amoFlags := [], barHold := none, prog := 0 } with
      tape := [.issue 0] }

end Sys2Proof.Machine
end

