-- ==== Sys2Proof/Machine/Scan.lean ====
section
/-!
DEFINITION. Machine/Scan.lean: who moves when no tape says it (log 5): the device's own events that could take place now, in
rotation, and the frames of the cores, in the order of spec/06 R126.  What comes from outside the device (the host, other
packages, failures, the contents of its answers) is never chosen here: it stands on the tape.
-/
namespace Sys2Proof.Machine

/-- A step that an agent of the device could make. -/
abbrev Move := State → Out

/-- Moves of one access of an instruction. -/
def State.partMoves (s : State) (f seq i : Nat) (p : Part) : List Move :=
  match p.tgt with
  | .l1 c o => [execBankGrant c (bankNumber (s.l1mapOf c) o)]
  | .glob va =>
    [execSliceGrant f seq i, execPageWalk (homeSlice va) (pageOf va p.crumb) p.crumb,
     execL2MissFill (homeSlice va) (va / 64), execHbmWriteAccept f seq i, execHostStoreComplete f seq i true]
  | _ => []

/-- Moves of the accesses under way. -/
def State.accMoves (s : State) : List Move :=
  s.accs.flatMap fun a =>
    [execLoadDataReturn a.frame a.seq, execWaitrsWatchReport a.frame a.seq, execWaitrsReread a.frame a.seq,
     fun t => (t.ioTurn a.frame a.seq).getD (.next t)] ++
    a.parts.zipIdx.flatMap fun p => s.partMoves a.frame a.seq p.2 p.1

/-- Moves of the fetches, the streams and the ticket slots of frames. -/
def State.frameMoves (s : State) : List Move :=
  s.frames.flatMap fun f => (fun t => t.act (t.prefetch f.1)) :: [0, 1, 2, 3].flatMap fun n =>
    [execStreamGeneratorRead f.1 n, execStreamStorePerform f.1 n, execTicketArrival f.1 n, execTicketRepresent f.1 n]

/-- Moves of the engines and tables of tiles. -/
def State.tileMoves (s : State) : List Move :=
  s.tiles.flatMap fun t =>
    ([true, false].flatMap fun u =>
      [execCopyTake t.1 u, execCopyBurstCheck t.1 u true, execCopyCompletion t.1 u, execMatrixTake t.1 u,
       execMatrixCompletion t.1 u] ++
      [false, true].flatMap fun m =>
        [execFillLastWrite t.1 m u, execReaderEnd t.1 m u] ++
        (List.range 9).map fun k => execCommandStallTimeout t.1 m u k) ++
    t.2.glaze.flatMap fun g =>
      [execGlazeInitialCopy t.1 g.1, execGlazeBatchTimeout t.1 g.1, execGlazeBatchApply t.1 g.1]

/-- Moves of barriers, wakes, items and tickets. -/
def State.syncMoves (s : State) : List Move :=
  (List.range s.arrs.length).map execBarrierArrival ++ (List.range s.barriers.length).map execPhaseCompletion ++
  (List.range s.wakes.length).map execWakeDelivery ++ (List.range s.items.length).map execChannelItemArrival ++
  s.windows.flatMap fun w => execTicketGapTimeout w.1 :: w.2.gap.map fun g => execTicketApplication w.1 g.1

/-- Moves of the scheduler, the tags and the cores. -/
def State.launchMoves (s : State) : List Move :=
  [execScheduleDecision 0, execScheduleDecision 1] ++
  (s.launches.flatMap fun e => [execLaunchPlacement e.1, execDeadlineMiss e.1, execLaunchCompletion e.1]) ++
  (List.range s.uposts.length).map execUnitPost ++ s.tags.map (fun t => execTemplateFire t.1) ++
  s.cores.flatMap fun c => [execFreezeRequest c.1, execHandlerFrameGrant c.1]

/-- Moves of clusters and of the package. -/
def State.deviceMoves (s : State) : List Move :=
  (s.clusters.flatMap fun c => execL1mapChange c.1 :: c.2.fills.map fun l => execIcacheFillInstall c.1 l.1) ++
  (s.power.flatMap fun c => [execQuiesceComplete c.1, execWakeRestoreComplete c.1]) ++
  ((List.range 16).map fun r => execRectResetRelease r []) ++
  ([0, 1].flatMap fun d => (List.range 8).filterMap fun p =>
    if s.regField (.l2op d p) 63 63 = 1 then some (execL2opEnd d p) else none) ++ [execHbmScrubEnd]

/-- Moves of the ring engines. -/
def State.ringMoves (s : State) : List Move :=
  [0, 1].flatMap fun d =>
    ((List.range 8).flatMap fun p =>
      [execRingSend d (0xF80 + 2 * p + d), execAllred d (0xF80 + 2 * p + d), execRingQuery d (0xF80 + 2 * p + d),
       execRingConfig d (0xF80 + 2 * p + d)]) ++
    ((List.range (s.ringOf d).jobs.length).flatMap fun j =>
      [execRingCommandComplete d j 255, execAllredTimeout d j] ++
      ((List.range (match (s.ringOf d).jobs[j]? with | some x => if x.kind = 2 then x.count else 0 | none => 0)).map fun c s =>
        s.act (s.startChunk d j c))) ++
    [fun s => s.act (s.flit d)]

/-- Every move. -/
def State.moves (s : State) : List Move :=
  s.accMoves ++ s.frameMoves ++ s.tileMoves ++ s.syncMoves ++ s.launchMoves ++ s.deviceMoves ++ s.ringMoves

/-- The move changes something. -/
def moved (s : State) (o : Out) : Bool :=
  match o with
  | .next t => decide (t ≠ s)
  | _ => true

/-- The first move that changes something. -/
def firstMove (s : State) : List Move → Option Out
  | [] => none
  | m :: t => if moved s (m s) then some (m s) else firstMove s t

/-- A list from a place on, then its beginning. -/
def rotate {α : Type} (l : List α) (n : Nat) : List α := l.drop (n % max 1 l.length) ++ l.take (n % max 1 l.length)

/-- The next event of the device, in rotation. -/
def State.nextEvent (s : State) (n : Nat) : Option Out := firstMove s (rotate s.moves n)

/-- The frames of a core in the order of spec/06 R126. -/
def State.issueOrder (s : State) (k : Nat) : List Nat :=
  urgentKey k :: (List.range 4).map fun i => frameKey k (((s.core k).last + 1 + i) % 4)

/-- Cores with a frame, in ascending order. -/
def State.busyCores (s : State) : List Nat := (s.frames.map fun p => coreOf p.1).eraseDups

end Sys2Proof.Machine
end

