-- ==== Sys2Proof/Machine/Dispatch.lean ====
section
/-!
DEFINITION. Machine/Dispatch.lean: one arm for each constructor of Instr, which calls its meaning.
-/
namespace Sys2Proof.Machine

def exec (i : Instr) (s : State) : Host.Outcome State Fault Refusal :=
  match i with
  | .add o => Sys2Proof.Machine.execAdd o s
  | .sub o => Sys2Proof.Machine.execSub o s
  | .mul o => Sys2Proof.Machine.execMul o s
  | .mulh o => Sys2Proof.Machine.execMulh o s
  | .div o => Sys2Proof.Machine.execDiv o s
  | .divn o => Sys2Proof.Machine.execDivn o s
  | .rem o => Sys2Proof.Machine.execRem o s
  | .remn o => Sys2Proof.Machine.execRemn o s
  | .and o => Sys2Proof.Machine.execAnd o s
  | .or o => Sys2Proof.Machine.execOr o s
  | .xor o => Sys2Proof.Machine.execXor o s
  | .shl o => Sys2Proof.Machine.execShl o s
  | .shr o => Sys2Proof.Machine.execShr o s
  | .sar o => Sys2Proof.Machine.execSar o s
  | .min o => Sys2Proof.Machine.execMin o s
  | .max o => Sys2Proof.Machine.execMax o s
  | .slt o => Sys2Proof.Machine.execSlt o s
  | .sltn o => Sys2Proof.Machine.execSltn o s
  | .mov o => Sys2Proof.Machine.execMov o s
  | .addI o => Sys2Proof.Machine.execAddI o s
  | .andI o => Sys2Proof.Machine.execAndI o s
  | .orI o => Sys2Proof.Machine.execOrI o s
  | .xorI o => Sys2Proof.Machine.execXorI o s
  | .shlI o => Sys2Proof.Machine.execShlI o s
  | .shrI o => Sys2Proof.Machine.execShrI o s
  | .sarI o => Sys2Proof.Machine.execSarI o s
  | .sltI o => Sys2Proof.Machine.execSltI o s
  | .sltnI o => Sys2Proof.Machine.execSltnI o s
  | .li o => Sys2Proof.Machine.execLi o s
  | .bfx o => Sys2Proof.Machine.execBfx o s
  | .bfi o => Sys2Proof.Machine.execBfi o s
  | .clz o => Sys2Proof.Machine.execClz o s
  | .popc o => Sys2Proof.Machine.execPopc o s
  | .sextB o => Sys2Proof.Machine.execSextB o s
  | .sextH o => Sys2Proof.Machine.execSextH o s
  | .sextW o => Sys2Proof.Machine.execSextW o s
  | .zextB o => Sys2Proof.Machine.execZextB o s
  | .zextH o => Sys2Proof.Machine.execZextH o s
  | .zextW o => Sys2Proof.Machine.execZextW o s
  | .jr o => Sys2Proof.Machine.execJr o s
  | .callr o => Sys2Proof.Machine.execCallr o s
  | .ret o => Sys2Proof.Machine.execRet o s
  | .padJ o => Sys2Proof.Machine.execPadJ o s
  | .padC o => Sys2Proof.Machine.execPadC o s
  | .padH o => Sys2Proof.Machine.execPadH o s
  | .padL o => Sys2Proof.Machine.execPadL o s
  | .lea o => Sys2Proof.Machine.execLea o s
  | .lrec o => Sys2Proof.Machine.execLrec o s
  | .ldb o => Sys2Proof.Machine.execLdb o s
  | .ldbn o => Sys2Proof.Machine.execLdbn o s
  | .ldh o => Sys2Proof.Machine.execLdh o s
  | .ldhn o => Sys2Proof.Machine.execLdhn o s
  | .ldw o => Sys2Proof.Machine.execLdw o s
  | .ldwn o => Sys2Proof.Machine.execLdwn o s
  | .ldd o => Sys2Proof.Machine.execLdd o s
  | .stb o => Sys2Proof.Machine.execStb o s
  | .sth o => Sys2Proof.Machine.execSth o s
  | .stw o => Sys2Proof.Machine.execStw o s
  | .std o => Sys2Proof.Machine.execStd o s
  | .beq o => Sys2Proof.Machine.execBeq o s
  | .bne o => Sys2Proof.Machine.execBne o s
  | .blt o => Sys2Proof.Machine.execBlt o s
  | .bge o => Sys2Proof.Machine.execBge o s
  | .bltn o => Sys2Proof.Machine.execBltn o s
  | .bgen o => Sys2Proof.Machine.execBgen o s
  | .bp o => Sys2Proof.Machine.execBp o s
  | .jmp o => Sys2Proof.Machine.execJmp o s
  | .call o => Sys2Proof.Machine.execCall o s
  | .vadd o => Sys2Proof.Machine.execVadd o s
  | .vsub o => Sys2Proof.Machine.execVsub o s
  | .vmul o => Sys2Proof.Machine.execVmul o s
  | .vmin o => Sys2Proof.Machine.execVmin o s
  | .vmax o => Sys2Proof.Machine.execVmax o s
  | .vand o => Sys2Proof.Machine.execVand o s
  | .vor o => Sys2Proof.Machine.execVor o s
  | .vxor o => Sys2Proof.Machine.execVxor o s
  | .vshl o => Sys2Proof.Machine.execVshl o s
  | .vshr o => Sys2Proof.Machine.execVshr o s
  | .vshlI o => Sys2Proof.Machine.execVshlI o s
  | .vshrI o => Sys2Proof.Machine.execVshrI o s
  | .vcmul o => Sys2Proof.Machine.execVcmul o s
  | .vmac o => Sys2Proof.Machine.execVmac o s
  | .vfma o => Sys2Proof.Machine.execVfma o s
  | .vdot o => Sys2Proof.Machine.execVdot o s
  | .vcmac o => Sys2Proof.Machine.execVcmac o s
  | .vsel o => Sys2Proof.Machine.execVsel o s
  | .vcmp o => Sys2Proof.Machine.execVcmp o s
  | .vwhile o => Sys2Proof.Machine.execVwhile o s
  | .vshuf o => Sys2Proof.Machine.execVshuf o s
  | .vzip o => Sys2Proof.Machine.execVzip o s
  | .vunzip o => Sys2Proof.Machine.execVunzip o s
  | .vredAdd o => Sys2Proof.Machine.execVredAdd o s
  | .vredMin o => Sys2Proof.Machine.execVredMin o s
  | .vredMax o => Sys2Proof.Machine.execVredMax o s
  | .vld o => Sys2Proof.Machine.execVld o s
  | .vst o => Sys2Proof.Machine.execVst o s
  | .vlds o => Sys2Proof.Machine.execVlds o s
  | .vsts o => Sys2Proof.Machine.execVsts o s
  | .vldx o => Sys2Proof.Machine.execVldx o s
  | .vmovsToG o => Sys2Proof.Machine.execVmovsToG o s
  | .vmovsToV o => Sys2Proof.Machine.execVmovsToV o s
  | .vtunp o => Sys2Proof.Machine.execVtunp o s
  | .vabs o => Sys2Proof.Machine.execVabs o s
  | .vneg o => Sys2Proof.Machine.execVneg o s
  | .vsat o => Sys2Proof.Machine.execVsat o s
  | .vbcast o => Sys2Proof.Machine.execVbcast o s
  | .vcvt o => Sys2Proof.Machine.execVcvt o s
  | .vwidth o => Sys2Proof.Machine.execVwidth o s
  | .gang o => Sys2Proof.Machine.execGang o s
  | .ungang o => Sys2Proof.Machine.execUngang o s
  | .vrcp o => Sys2Proof.Machine.execVrcp o s
  | .vrsq o => Sys2Proof.Machine.execVrsq o s
  | .vexp2 o => Sys2Proof.Machine.execVexp2 o s
  | .vlog2 o => Sys2Proof.Machine.execVlog2 o s
  | .vsincos o => Sys2Proof.Machine.execVsincos o s
  | .stbind o => Sys2Proof.Machine.execStbind o s
  | .stbindc o => Sys2Proof.Machine.execStbindc o s
  | .stbindn o => Sys2Proof.Machine.execStbindn o s
  | .ststat o => Sys2Proof.Machine.execStstat o s
  | .stunbind o => Sys2Proof.Machine.execStunbind o s
  | .cpy o => Sys2Proof.Machine.execCpy o s
  | .cpy2 o => Sys2Proof.Machine.execCpy2 o s
  | .cpyg o => Sys2Proof.Machine.execCpyg o s
  | .cpys o => Sys2Proof.Machine.execCpys o s
  | .cpyt o => Sys2Proof.Machine.execCpyt o s
  | .inpop o => Sys2Proof.Machine.execInpop o s
  | .inpeek o => Sys2Proof.Machine.execInpeek o s
  | .tdef o => Sys2Proof.Machine.execTdef o s
  | .tstate o => Sys2Proof.Machine.execTstate o s
  | .trel o => Sys2Proof.Machine.execTrel o s
  | .mma o => Sys2Proof.Machine.execMma o s
  | .mmac o => Sys2Proof.Machine.execMmac o s
  | .mtern o => Sys2Proof.Machine.execMtern o s
  | .mlda o => Sys2Proof.Machine.execMlda o s
  | .msta o => Sys2Proof.Machine.execMsta o s
  | .mzero o => Sys2Proof.Machine.execMzero o s
  | .mwait o => Sys2Proof.Machine.execMwait o s
  | .mstat o => Sys2Proof.Machine.execMstat o s
  | .fencex o => Sys2Proof.Machine.execFencex o s
  | .fencexCopy o => Sys2Proof.Machine.execFencexCopy o s
  | .fencexMatrix o => Sys2Proof.Machine.execFencexMatrix o s
  | .amo o => Sys2Proof.Machine.execAmo o s
  | .lr o => Sys2Proof.Machine.execLr o s
  | .sc o => Sys2Proof.Machine.execSc o s
  | .waitrs o => Sys2Proof.Machine.execWaitrs o s
  | .tadd o => Sys2Proof.Machine.execTadd o s
  | .topen o => Sys2Proof.Machine.execTopen o s
  | .tclose o => Sys2Proof.Machine.execTclose o s
  | .tskip o => Sys2Proof.Machine.execTskip o s
  | .tdrain o => Sys2Proof.Machine.execTdrain o s
  | .gsub o => Sys2Proof.Machine.execGsub o s
  | .gunsub o => Sys2Proof.Machine.execGunsub o s
  | .gstat o => Sys2Proof.Machine.execGstat o s
  | .gflush o => Sys2Proof.Machine.execGflush o s
  | .bar o => Sys2Proof.Machine.execBar o s
  | .arrive o => Sys2Proof.Machine.execArrive o s
  | .arriveRlx o => Sys2Proof.Machine.execArriveRlx o s
  | .bwait o => Sys2Proof.Machine.execBwait o s
  | .bjoin o => Sys2Proof.Machine.execBjoin o s
  | .bleave o => Sys2Proof.Machine.execBleave o s
  | .bstat o => Sys2Proof.Machine.execBstat o s
  | .wake o => Sys2Proof.Machine.execWake o s
  | .sleep o => Sys2Proof.Machine.execSleep o s
  | .fence o => Sys2Proof.Machine.execFence o s
  | .ifence o => Sys2Proof.Machine.execIfence o s
  | .salloc o => Sys2Proof.Machine.execSalloc o s
  | .sfree o => Sys2Proof.Machine.execSfree o s
  | .sop o => Sys2Proof.Machine.execSop o s
  | .swait o => Sys2Proof.Machine.execSwait o s
  | .phasec o => Sys2Proof.Machine.execPhasec o s
  | .phasex o => Sys2Proof.Machine.execPhasex o s
  | .send o => Sys2Proof.Machine.execSend o s
  | .recv o => Sys2Proof.Machine.execRecv o s
  | .launch o => Sys2Proof.Machine.execLaunch o s
  | .launchW o => Sys2Proof.Machine.execLaunchW o s
  | .larm o => Sys2Proof.Machine.execLarm o s
  | .ldisarm o => Sys2Proof.Machine.execLdisarm o s
  | .lwait o => Sys2Proof.Machine.execLwait o s
  | .trap o => Sys2Proof.Machine.execTrap o s
  | .crd o => Sys2Proof.Machine.execCrd o s
  | .cwr o => Sys2Proof.Machine.execCwr o s
  | .eret o => Sys2Proof.Machine.execEret o s
  | .wfi o => Sys2Proof.Machine.execWfi o s
  | .yield o => Sys2Proof.Machine.execYield o s
  | .halt o => Sys2Proof.Machine.execHalt o s
  | .rng o => Sys2Proof.Machine.execRng o s
  | .time o => Sys2Proof.Machine.execTime o s
  | .plbinv o => Sys2Proof.Machine.execPlbinv o s
  | .handlerFrameGrant core => Sys2Proof.Machine.execHandlerFrameGrant core s
  | .loadDataReturn frame seq => Sys2Proof.Machine.execLoadDataReturn frame seq s
  | .lateOutcomeTrap frame => Sys2Proof.Machine.execLateOutcomeTrap frame s
  | .checkerRetry frame => Sys2Proof.Machine.execCheckerRetry frame s
  | .coreRetire frame => Sys2Proof.Machine.execCoreRetire frame s
  | .packageFatal => Sys2Proof.Machine.execPackageFatal s
  | .icacheFillInstall cluster line => Sys2Proof.Machine.execIcacheFillInstall cluster line s
  | .freezeRequest core => Sys2Proof.Machine.execFreezeRequest core s
  | .bankGrant cluster bank => Sys2Proof.Machine.execBankGrant cluster bank s
  | .waitrsWatchReport frame seq => Sys2Proof.Machine.execWaitrsWatchReport frame seq s
  | .l1mapWrite w cluster v => Sys2Proof.Machine.execL1mapWrite w cluster v s
  | .l1mapChange cluster => Sys2Proof.Machine.execL1mapChange cluster s
  | .streamGeneratorRead frame unit => Sys2Proof.Machine.execStreamGeneratorRead frame unit s
  | .streamStorePerform frame unit => Sys2Proof.Machine.execStreamStorePerform frame unit s
  | .copyTake tile urg => Sys2Proof.Machine.execCopyTake tile urg s
  | .copyBurstCheck tile urg ok => Sys2Proof.Machine.execCopyBurstCheck tile urg ok s
  | .copyCompletion tile urg => Sys2Proof.Machine.execCopyCompletion tile urg s
  | .commandStallTimeout tile matrix urg place => Sys2Proof.Machine.execCommandStallTimeout tile matrix urg place s
  | .fillLastWrite tile matrix urg => Sys2Proof.Machine.execFillLastWrite tile matrix urg s
  | .readerEnd tile matrix urg => Sys2Proof.Machine.execReaderEnd tile matrix urg s
  | .matrixTake tile urg => Sys2Proof.Machine.execMatrixTake tile urg s
  | .matrixStepCheckFail tile urg again block => Sys2Proof.Machine.execMatrixStepCheckFail tile urg again block s
  | .matrixCompletion tile urg => Sys2Proof.Machine.execMatrixCompletion tile urg s
  | .barrierArrival place => Sys2Proof.Machine.execBarrierArrival place s
  | .phaseCompletion place => Sys2Proof.Machine.execPhaseCompletion place s
  | .wakeDelivery place => Sys2Proof.Machine.execWakeDelivery place s
  | .ticketArrival frame slot => Sys2Proof.Machine.execTicketArrival frame slot s
  | .ticketRepresent frame slot => Sys2Proof.Machine.execTicketRepresent frame slot s
  | .ticketApplication window elem => Sys2Proof.Machine.execTicketApplication window elem s
  | .ticketGapTimeout window => Sys2Proof.Machine.execTicketGapTimeout window s
  | .glazeInitialCopy tile entry => Sys2Proof.Machine.execGlazeInitialCopy tile entry s
  | .glazeBatchTimeout tile entry => Sys2Proof.Machine.execGlazeBatchTimeout tile entry s
  | .glazeBatchApply tile entry => Sys2Proof.Machine.execGlazeBatchApply tile entry s
  | .sliceGrant frame seq part => Sys2Proof.Machine.execSliceGrant frame seq part s
  | .l2MissFill slice line => Sys2Proof.Machine.execL2MissFill slice line s
  | .pageWalk slice page crumb => Sys2Proof.Machine.execPageWalk slice page crumb s
  | .plbMissWalk frame va => Sys2Proof.Machine.execPlbMissWalk frame va s
  | .hbmWriteAccept frame seq part => Sys2Proof.Machine.execHbmWriteAccept frame seq part s
  | .hostStoreComplete frame seq part ok => Sys2Proof.Machine.execHostStoreComplete frame seq part ok s
  | .l2Scrub slice line bad => Sys2Proof.Machine.execL2Scrub slice line bad s
  | .meshLoadWindow die load => Sys2Proof.Machine.execMeshLoadWindow die load s
  | .fresumeRetry w die fid => Sys2Proof.Machine.execFresumeRetry w die fid s
  | .fresumeAbandon w die fid => Sys2Proof.Machine.execFresumeAbandon w die fid s
  | .l2opClean w die part => Sys2Proof.Machine.execL2opClean w die part s
  | .l2opFlush w die part => Sys2Proof.Machine.execL2opFlush w die part s
  | .l2opUnpin w die part => Sys2Proof.Machine.execL2opUnpin w die part s
  | .l2opXinv w die part => Sys2Proof.Machine.execL2opXinv w die part s
  | .l2opEnd die part => Sys2Proof.Machine.execL2opEnd die part s
  | .registerWrite w addr v => Sys2Proof.Machine.execRegisterWrite w addr v s
  | .lkill w v => Sys2Proof.Machine.execLkill w v s
  | .rectReset w rect => Sys2Proof.Machine.execRectReset w rect s
  | .rectResetRelease rect failed => Sys2Proof.Machine.execRectResetRelease rect failed s
  | .uncorrectableStateError cluster => Sys2Proof.Machine.execUncorrectableStateError cluster s
  | .tctlRel w tag => Sys2Proof.Machine.execTctlRel w tag s
  | .tctlInvalidate w tag v => Sys2Proof.Machine.execTctlInvalidate w tag v s
  | .hostPost fn offset data damaged => Sys2Proof.Machine.execHostPost fn offset data damaged s
  | .unitPost place => Sys2Proof.Machine.execUnitPost place s
  | .templateFire tag => Sys2Proof.Machine.execTemplateFire tag s
  | .scheduleDecision die => Sys2Proof.Machine.execScheduleDecision die s
  | .launchPlacement entry => Sys2Proof.Machine.execLaunchPlacement entry s
  | .deadlineMiss entry => Sys2Proof.Machine.execDeadlineMiss entry s
  | .launchCompletion entry => Sys2Proof.Machine.execLaunchCompletion entry s
  | .channelItemArrival place => Sys2Proof.Machine.execChannelItemArrival place s
  | .prstGo w part => Sys2Proof.Machine.execPrstGo w part s
  | .lcreq w v => Sys2Proof.Machine.execLcreq w v s
  | .packageReset => Sys2Proof.Machine.execPackageReset s
  | .hbmScrubEnd => Sys2Proof.Machine.execHbmScrubEnd s
  | .attestationRequest nonce => Sys2Proof.Machine.execAttestationRequest nonce s
  | .imageLoadRequest slot places => Sys2Proof.Machine.execImageLoadRequest slot places s
  | .qreqSet w cluster v => Sys2Proof.Machine.execQreqSet w cluster v s
  | .qreqClear w cluster v => Sys2Proof.Machine.execQreqClear w cluster v s
  | .quiesceComplete cluster => Sys2Proof.Machine.execQuiesceComplete cluster s
  | .save w cluster v => Sys2Proof.Machine.execSave w cluster v s
  | .ckg w cluster v => Sys2Proof.Machine.execCkg w cluster v s
  | .railg w cluster v => Sys2Proof.Machine.execRailg w cluster v s
  | .cwake w cluster => Sys2Proof.Machine.execCwake w cluster s
  | .wakeRestoreComplete cluster => Sys2Proof.Machine.execWakeRestoreComplete cluster s
  | .thermalStep level tj => Sys2Proof.Machine.execThermalStep level tj s
  | .thermalShutdown => Sys2Proof.Machine.execThermalShutdown s
  | .d2dModuleFail module => Sys2Proof.Machine.execD2dModuleFail module s
  | .ringConfig die tag => Sys2Proof.Machine.execRingConfig die tag s
  | .ringConfirm agree => Sys2Proof.Machine.execRingConfirm agree s
  | .ringSend die tag => Sys2Proof.Machine.execRingSend die tag s
  | .allred die tag => Sys2Proof.Machine.execAllred die tag s
  | .ringQuery die tag => Sys2Proof.Machine.execRingQuery die tag s
  | .ringPostReceive die tag data damaged => Sys2Proof.Machine.execRingPostReceive die tag data damaged s
  | .ringCommandComplete die job answer => Sys2Proof.Machine.execRingCommandComplete die job answer s
  | .flitNakReplay die => Sys2Proof.Machine.execFlitNakReplay die s
  | .laneFailure die receive lane => Sys2Proof.Machine.execLaneFailure die receive lane s
  | .allredTimeout die job => Sys2Proof.Machine.execAllredTimeout die job s
  | .allredAbort die job => Sys2Proof.Machine.execAllredAbort die job s
  | .illegalInstruction frame chain => Sys2Proof.Machine.execIllegalInstruction frame chain s
  | .instructionFetchFault frame addr cause => Sys2Proof.Machine.execInstructionFetchFault frame addr cause s
  | .waitrsReread frame seq => Sys2Proof.Machine.execWaitrsReread frame seq s
  | .d2dFlitReplay => Sys2Proof.Machine.execD2dFlitReplay s
  | .ringLinkUp die => Sys2Proof.Machine.execRingLinkUp die s
  | .reduceChunkArrival die job chunk final data poison flags flel engfail => Sys2Proof.Machine.execReduceChunkArrival die job chunk final data poison flags flel engfail s
  | .hostMailboxWrite offset data => Sys2Proof.Machine.execHostMailboxWrite offset data s
  | .hostReadComplete frame seq part ok data => Sys2Proof.Machine.execHostReadComplete frame seq part ok data s

end Sys2Proof.Machine
end

