-- ==== Sys2Proof/Machine/Turn.lean ====
section
/-!
DEFINITION. Machine/Turn.lean: one turn of one agent (log 5): a frame's, an event's, that of a register store, or the one that
the model's own rule gives when no tape says who moves.
-/
namespace Sys2Proof.Machine

/-- Time passes (log 6). -/
def State.pass (s : State) (ck fk : Nat) : State := { s.pauseGaps ck with ck := s.ck + ck, fk := s.fk + fk }

/-- What a step does to its next state, if it has one. -/
def onNext (o : Out) (u : State → State) : Out :=
  match o with
  | .next s => .next (u s)
  | .fault r => .fault r
  | .refused r => .refused r

/-- A frame's turn: the instruction that it issues executes. -/
def State.issueTurn (s : State) (f : Nat) : Out :=
  match s.issue f with
  | .hold t => s.act t
  | .out o => onNext o fun u => s.committedBy u f
  | .run i t => onNext (exec i t) fun u => t.committedBy u f

/-- The frame does something at its turn; a hold does nothing (spec/06 R127). -/
def State.issues (s : State) (f : Nat) : Bool :=
  match s.issueTurn f with
  | .next t => decide ({ t with cur := s.cur } ≠ s)
  | _ => true

/-- The next frame to have a turn: the cores in rotation, and on a core the first frame that does something
(spec/06 R126). -/
def State.nextFrame (s : State) (n : Nat) : Option Nat :=
  (rotate s.busyCores n).findSome? fun k => (s.issueOrder k).find? s.issues

/-- A turn that the tape names; a thread's instruction issues in its frame's turn alone. -/
def State.turnOf (s : State) : Turn → Out
  | .issue f => s.issueTurn f
  | .prefetch f => s.act (s.prefetch f)
  | .event i => if i.hasWords then s.act s else exec i s
  | .regStore f seq => (s.ioTurn f seq).getD (s.act s)
  | .time ck fk => s.act (s.pass ck fk)
  | .softError k => s.act (s.softError k)
  | .corrected die => s.act (s.countError (2 + die))
  | .badLine die k => s.act (s.badLine die k)
  | .flit die => s.act (s.flit die)
  | .flitAck die n => s.act (s.flitAck die n)
  | .flitIn die seq room => s.act (s.flitIn die seq room)
  | .badReturn f seq line => s.act (s.badReturn f seq line)
  | .badBurst tile urg => s.act (s.badBurst tile urg)
  | .badHostStore f seq i => s.act (s.badHostStore f seq i)
  | .badRingLine die i => s.act (s.badRingLine die i)
  | .farLink link up => s.act (s.farLink link up)
  | .startChunk die job chunk => s.act (s.startChunk die job chunk)

/-- An event's turn, or else a frame's. -/
def State.eventFirst (s : State) (n : Nat) : Out :=
  match s.nextEvent n with
  | some o => o
  | none => match s.nextFrame n with
    | some f => s.issueTurn f
    | none => s.act s

/-- A frame's turn, or else an event's. -/
def State.frameFirst (s : State) (n : Nat) : Out :=
  match s.nextFrame n with
  | some f => s.issueTurn f
  | none => (s.nextEvent n).getD (s.act s)

/-- A turn by the model's own rule: events of the device and frames in alternation; one that finds nothing leaves its turn
to the other. -/
def State.ownTurn (s : State) : Out :=
  onNext (if s.turn % 2 = 0 then s.eventFirst (s.turn / 2) else s.frameFirst (s.turn / 2)) fun t => { t with turn := t.turn + 1 }

end Sys2Proof.Machine
end

