-- ==== Sys2Proof/Machine/Step.lean ====
section
/-!
DEFINITION. Machine/Step.lean: one step of the machine: one turn of one agent (log 5), and how the host lays an instruction
before the machine.
-/
namespace Sys2Proof.Machine

/-- One step: the next turn of the tape, or one of the model's own; then CK and FK cycles pass. -/
def step (s : State) : Host.Outcome State Fault Refusal :=
  onNext (match s.tape with
    | t :: rest => ({ s with tape := rest } : State).turnOf t
    | [] => s.ownTurn) fun u => u.pass u.ckRate u.fkRate

/-- The instruction with the bits of an opcode-table word, its halfwords before a frame that has the next turn. -/
def State.withFetchWord (s : State) (nbits w : Nat) : State := s.withHalves (tableHalves nbits w)

end Sys2Proof.Machine
end

