-- ==== Sys2Proof/Safety.lean ====
section
/-!
DEFINITION. Safety.lean: the terms in which claims speak of a sound machine: the canonical form of memory, and what an
instruction leaves alone.
-/
namespace Sys2Proof.Machine

/-- The canonical form of memory: addresses strictly rising, and no entry equal to what an unlisted address reads as
(log 10). -/
def Memory.wf (m : List Host.Cell) : Bool := sorted m && m.all fun c => c.2 != 0

/-- The sparse maps of State stand in strictly rising key order (log 2). -/
def State.mapsSorted (s : State) : Bool :=
  sorted s.frames && sorted s.cores && sorted s.tiles && sorted s.clusters && sorted s.power && sorted s.accums &&
  sorted s.poison && sorted s.windows && sorted s.slices && sorted s.regs && sorted s.launches && sorted s.arrivals &&
  sorted s.share && sorted s.chans && sorted s.svars && sorted s.tags && sorted s.posters && sorted s.integrity &&
  sorted s.twoPhase && sorted s.slotErr && sorted s.ring

/-- Every byte of memory reads as before. -/
def SameBytes (s t : State) : Prop := ∀ a, t.byte a = s.byte a

/-- Nothing but the frames `fs` differs: every other frame and every other part of the machine stands as it stood, every
special register, accumulator and byte of memory among them. -/
structure Within (s t : State) (fs : List Nat) : Prop where
  rest   : t = { s with frames := t.frames }
  others : ∀ k, k ∉ fs → t.frame k = s.frame k
  bytes  : SameBytes s t

/-- One g register of the executing thread takes a value and the thread goes on at `pc`; every other register, flag and byte
stands as it stood.  A write of g0 is discarded, and g0 reads zero (spec/04 R86, spec/01 R14). -/
structure WritesG (s t : State) (r : Nat) (w : Word) (pc : BitVec 48) : Prop where
  within : Within s t [s.cur]
  value  : ∀ k, k < 32 → t.g k = if k = 0 then 0 else if k = r then w else s.g k
  kept   : t.me = { s.me with g := t.me.g, pc := pc, seq := s.me.seq + 1, since := 0, prog := 0 }

/-- The executing thread goes on at `pc` and nothing else of what the spec names differs. -/
structure GoesTo (s t : State) (pc : BitVec 48) : Prop where
  within : Within s t [s.cur]
  kept   : t.me = { s.me with pc := pc, seq := s.me.seq + 1, since := 0, prog := 0, ibuf := t.me.ibuf }

/-- The address after an instruction of the executing thread (spec/04 R86). -/
def State.next (s : State) (i : Instr) : BitVec 48 := pcAfter s.me.pc (encode i).length

/-- FLAGS and FAULTEL of the thread that a frame's flags belong to, after an instruction whose elements have the flags `l`
(spec/01 R22, R24): FLAGS takes every flag; FAULTEL, while it is not valid, the lowest element that has one. -/
structure TakesFlags (s t : State) (f : Nat) (l : ElemFlags) : Prop where
  flags   : (t.frame (s.named f)).flags =
    if lowestWith l 255 = none then (s.frame (s.named f)).flags
    else (s.frame (s.named f)).flags ||| BitVec.ofNat 64 (orFlags l)
  faultel : (t.frame (s.named f)).faultel =
    match lowestWith l 255 with
    | none => (s.frame (s.named f)).faultel
    | some (e, _) => if (s.frame (s.named f)).faultel.getLsbD 40 then (s.frame (s.named f)).faultel
        else faultelWord e (flagsAt l e) false

/-- The thread that takes the flags of `s`'s executing frame differs from its old self in FLAGS and FAULTEL alone
(spec/01 R22, R24). -/
def FlagsOnly (s t : State) : Prop :=
  t.frame (s.named s.cur) = { s.frame (s.named s.cur) with
    flags := (t.frame (s.named s.cur)).flags, faultel := (t.frame (s.named s.cur)).faultel }

/-- g1 takes the address after the instruction with the link mark, and the thread goes on at `pc` (spec/04 R105, R106). -/
structure Links (s t : State) (i : Instr) (pc : BitVec 48) : Prop where
  within : Within s t [s.cur]
  value  : ∀ k, k < 32 → t.g k = if k = 0 then 0 else if k = 1 then (s.next i).setWidth 64 ||| 1 else s.g k
  kept   : t.me = { s.me with g := t.me.g, pc := pc, seq := s.me.seq + 1, since := 0, prog := 0, ibuf := t.me.ibuf }

/-- The instruction has put one access on its way and the thread goes on: what `u` holds, one record more, and the program
counter. -/
structure Issues (u t : State) (a : Acc) (pc : BitVec 48) : Prop where
  rest   : t = { u with frames := t.frames, accs := u.accs ++ [a] }
  others : ∀ k, k ≠ u.cur → t.frame k = u.frame k
  bytes  : SameBytes u t
  kept   : t.me = { u.me with pc := pc, seq := u.me.seq + 1, since := 0, prog := 0 }

/-- One access of `size` bytes at `ea` that has not been performed, of the executing frame, with the modifiers of its PXM. -/
structure OneAccess (u : State) (a : Acc) (ea size : Nat) (op : AOp) (ret : Ret) (data : Word) (m : Mods) : Prop where
  frame : a.frame = u.cur ∧ a.seq = u.me.seq
  kind  : a.op = op ∧ a.ret = ret ∧ a.strong = m.strong ∧ a.scope = m.scope ∧ a.cp = m.cp
  part  : ∃ p, a.parts = [p] ∧ p.base = ea ∧ p.va = ea ∧ p.size = size ∧ p.data = data ∧ p.stage = .waiting

/-- The executing thread has written vector register `r` with `v`, a flag record, and drawn random words; nothing else of the
machine differs.  A gang's odd slot holds the upper half (spec/01 R20); FLAGS and FAULTEL are those of the thread that the
frame names. -/
structure WritesV (s t : State) (i : Instr) (r v drawn : Nat) (fl : ElemFlags) : Prop where
  rest    : t = { s with frames := t.frames }
  bytes   : SameBytes s t
  value   : ∀ k, k < 32 → t.vreg s.cur k = if k = r then v else s.vreg s.cur k
  flags   : TakesFlags s t s.cur fl
  kept    : t.me = { s.me with v := t.me.v, pc := s.next i, seq := s.me.seq + 1, since := 0, prog := 0,
                               rngc := BitVec.ofNat 48 (s.me.rngc.toNat + drawn), flags := t.me.flags, faultel := t.me.faultel }
  others  : ∀ k, k ≠ s.cur → t.frame k = { s.frame k with v := (t.frame k).v, flags := (t.frame k).flags,
                                                          faultel := (t.frame k).faultel }
  vectors : ∀ k, k ≠ s.cur → k ≠ oddOf s.cur → (t.frame k).v = (s.frame k).v
  unnamed : ∀ k, k ≠ s.named s.cur → (t.frame k).flags = (s.frame k).flags ∧ (t.frame k).faultel = (s.frame k).faultel

/-- The executing thread has written predicate `d` with `v` and a flag record; nothing else of the machine differs.  p0 reads
all-true and a write of it is discarded (spec/01 R14, R15). -/
structure WritesP (s t : State) (i : Instr) (d v : Nat) (fl : ElemFlags) : Prop where
  rest    : t = { s with frames := t.frames }
  bytes   : SameBytes s t
  value   : ∀ k, k < 8 → t.preg s.cur k = if k = 0 then s.preg s.cur 0 else if k = d then v else s.preg s.cur k
  flags   : TakesFlags s t s.cur fl
  kept    : t.me = { s.me with p := t.me.p, pc := s.next i, seq := s.me.seq + 1, since := 0, prog := 0,
                               flags := t.me.flags, faultel := t.me.faultel }
  others  : ∀ k, k ≠ s.cur → t.frame k = { s.frame k with p := (t.frame k).p, flags := (t.frame k).flags,
                                                          faultel := (t.frame k).faultel }
  preds   : ∀ k, k ≠ s.cur → k ≠ oddOf s.cur → (t.frame k).p = (s.frame k).p
  unnamed : ∀ k, k ≠ s.named s.cur → (t.frame k).flags = (s.frame k).flags ∧ (t.frame k).faultel = (s.frame k).faultel

end Sys2Proof.Machine
end

