-- ==== Sys2Proof/Certificates/Slice0/Obligations.lean ====
section
/-!
DEFINITION. Obligations.lean: what the provers are asked to prove of the model.  Each statement's docstring names the rules of
spec/ that it follows; a part that several statements share, or that one statement is made of, stands as a definition of its own.
-/
open Sys2Proof Sys2Proof.Machine
set_option maxRecDepth 4000

/-! ### Scalar arithmetic, moves and division (spec/04 R86–R95) -/

/-- The instruction `i` of two g registers writes to gA what `r` gives for gA and gB, or for gB and gC where a PXR stands
(spec/04 R88), and does nothing else. -/
def RegRule (s : State) (o : Opnd) (i : Instr) (r : Word → Word → Word) : Prop :=
  ∃ t, exec i s = .next t ∧
    WritesG s t o.ra (if o.hasR then r (s.g o.rb) (s.g o.rc) else r (s.g o.ra) (s.g o.rb)) (s.next i)

/-- The instruction `i` writes to gA what `r` gives for its one g source, gA, or gC where a PXR stands. -/
def OneRule (s : State) (o : Opnd) (i : Instr) (r : Word → Word) : Prop :=
  ∃ t, exec i s = .next t ∧ WritesG s t o.ra (r (if o.hasR then s.g o.rc else s.g o.ra)) (s.next i)

/-- The instruction `i` writes `w` to gA. -/
def SetRule (s : State) (o : Opnd) (i : Instr) (w : Word) : Prop :=
  ∃ t, exec i s = .next t ∧ WritesG s t o.ra w (s.next i)

/-- SHL of spec/04 R89. -/
def shlRule (a b : Word) : Word := if b.toNat ≥ 64 then 0 else BitVec.ofNat 64 (a.toNat * 2 ^ b.toNat)

/-- SHR of spec/04 R89. -/
def shrRule (a b : Word) : Word := if b.toNat ≥ 64 then 0 else BitVec.ofNat 64 (a.toNat / 2 ^ b.toNat)

/-- SAR of spec/04 R89. -/
def sarRule (a b : Word) : Word :=
  if b.toNat ≥ 64 then (if a.msb then BitVec.allOnes 64 else 0) else BitVec.ofInt 64 (a.toInt / 2 ^ b.toNat)

/-- ADD to SLTN of registers (not the divisions) write the result of spec/04 R89, where s(x) is `x.toInt` and n(x) is
`x.toNat`, and nothing else (R86). -/
def RegisterArithmeticResult : Prop :=
  ∀ (o : Opnd) (s : State), s.halt = none →
    RegRule s o (.add o) (fun a b => BitVec.ofNat 64 (a.toNat + b.toNat)) ∧
    RegRule s o (.sub o) (fun a b => BitVec.ofInt 64 (a.toInt - b.toInt)) ∧
    RegRule s o (.mul o) (fun a b => BitVec.ofNat 64 (a.toNat * b.toNat)) ∧
    RegRule s o (.mulh o) (fun a b => BitVec.ofInt 64 (a.toInt * b.toInt / 2 ^ 64)) ∧
    RegRule s o (.and o) (fun a b => a &&& b) ∧
    RegRule s o (.or o) (fun a b => a ||| b) ∧
    RegRule s o (.xor o) (fun a b => a ^^^ b) ∧
    RegRule s o (.shl o) shlRule ∧
    RegRule s o (.shr o) shrRule ∧
    RegRule s o (.sar o) sarRule ∧
    RegRule s o (.min o) (fun a b => if b.toInt < a.toInt then b else a) ∧
    RegRule s o (.max o) (fun a b => if a.toInt < b.toInt then b else a) ∧
    RegRule s o (.slt o) (fun a b => if a.toInt < b.toInt then 1 else 0) ∧
    RegRule s o (.sltn o) (fun a b => if a.toNat < b.toNat then 1 else 0)

/-- The immediate forms of ADD, AND, OR, XOR, SHL, SHR, SAR, SLT and SLTN: the immediate is sign-extended, that of a shift
read unsigned (spec/04 R88, R89).  SLTN's is not sign-extended in an image whose legacy switch 0 is on
(spec/16 R374). -/
def ImmediateArithmeticResult : Prop :=
  ∀ (o : Opnd) (s : State), s.halt = none →
    OneRule s o (.addI o) (fun a => BitVec.ofInt 64 (a.toInt + o.simm)) ∧
    OneRule s o (.andI o) (fun a => a &&& BitVec.ofInt 64 o.simm) ∧
    OneRule s o (.orI o) (fun a => a ||| BitVec.ofInt 64 o.simm) ∧
    OneRule s o (.xorI o) (fun a => a ^^^ BitVec.ofInt 64 o.simm) ∧
    OneRule s o (.shlI o) (fun a => shlRule a (BitVec.ofNat 64 o.uimm)) ∧
    OneRule s o (.shrI o) (fun a => shrRule a (BitVec.ofNat 64 o.uimm)) ∧
    OneRule s o (.sarI o) (fun a => sarRule a (BitVec.ofNat 64 o.uimm)) ∧
    OneRule s o (.sltI o) (fun a => if a.toInt < (BitVec.ofInt 64 o.simm).toInt then 1 else 0) ∧
    (s.errata.testBit 0 = false →
      OneRule s o (.sltnI o) (fun a => if a.toNat < (BitVec.ofInt 64 o.simm).toNat then 1 else 0)) ∧
    (s.errata.testBit 0 = true → OneRule s o (.sltnI o) (fun a => if a.toNat < o.uimm % 2 ^ 64 then 1 else 0))

/-- MOV, LI, BFX, BFI, the unary group and LEA (spec/04 R91–R95). -/
def MoveFieldUnaryResult : Prop :=
  ∀ (o : Opnd) (s : State), s.halt = none →
    let pos := o.uimm % 64
    let len := o.uimm / 64 % 64 + 1
    let mask := BitVec.ofNat 64 (2 ^ len - 1)
    SetRule s o (.mov o) (s.g o.rb) ∧
    SetRule s o (.li o) (BitVec.ofInt 64 o.simm) ∧
    OneRule s o (.bfx o) (fun a => let f := a.toNat / 2 ^ pos % 2 ^ len
      if o.uimm / 4096 % 2 = 1 then BitVec.ofInt 64 (sextNat f len) else BitVec.ofNat 64 f) ∧
    SetRule s o (.bfi o) ((s.g o.ra &&& ~~~ (mask <<< pos)) ||| ((s.g o.rc &&& mask) <<< pos)) ∧
    OneRule s o (.clz o) (fun a => BitVec.ofNat 64 ((List.range 64).findIdx fun k => a.getMsbD k)) ∧
    OneRule s o (.popc o) (fun a => BitVec.ofNat 64 ((List.range 64).countP fun k => a.getLsbD k)) ∧
    OneRule s o (.sextB o) (fun a => BitVec.ofInt 64 (sextNat a.toNat 8)) ∧
    OneRule s o (.sextH o) (fun a => BitVec.ofInt 64 (sextNat a.toNat 16)) ∧
    OneRule s o (.sextW o) (fun a => BitVec.ofInt 64 (sextNat a.toNat 32)) ∧
    OneRule s o (.zextB o) (fun a => BitVec.ofNat 64 (a.toNat % 2 ^ 8)) ∧
    OneRule s o (.zextH o) (fun a => BitVec.ofNat 64 (a.toNat % 2 ^ 16)) ∧
    OneRule s o (.zextW o) (fun a => BitVec.ofNat 64 (a.toNat % 2 ^ 32)) ∧
    SetRule s o (.lea o) (BitVec.ofInt 64 ((s.g o.rb).toNat + o.poff))

/-- Scalar arithmetic, moves, bit fields, the unary group and LEA write their result and nothing else (R93). -/
def Obligations.ScalarArithmetic : Prop :=
  RegisterArithmeticResult ∧ ImmediateArithmeticResult ∧ MoveFieldUnaryResult

/-- Quotient and remainder of spec/04 R90. -/
def divRule (signed : Bool) (a b : Word) : Word × Word :=
  if b = 0 then (BitVec.allOnes 64, a)
  else if signed && a == BitVec.intMin 64 && b == BitVec.allOnes 64 then (BitVec.intMin 64, 0)
  else if signed then (BitVec.ofInt 64 (a.toInt.tdiv b.toInt), BitVec.ofInt 64 (a.toInt - a.toInt.tdiv b.toInt * b.toInt))
  else (BitVec.ofNat 64 (a.toNat / b.toNat), BitVec.ofNat 64 (a.toNat - a.toNat / b.toNat * b.toNat))

/-- Dividend and divisor: gA and gB, or gB and gC where a PXR stands. -/
def divOperands (s : State) (o : Opnd) : Word × Word := if o.hasR then (s.g o.rb, s.g o.rc) else (s.g o.ra, s.g o.rb)

/-- A division without a trap writes `w` to gA and sets DZ in FLAGS and FAULTEL for a zero divisor. -/
def DivRule (s : State) (o : Opnd) (i : Instr) (w : Word) : Prop :=
  ∃ u t, exec i s = .next t ∧ Within s u [s.named s.cur] ∧ FlagsOnly s u ∧
    TakesFlags s u s.cur (if (divOperands s o).2 = 0 then [(0, 2)] else []) ∧ WritesG u t o.ra w (s.next i)

/-- DIV, DIVN, REM and REMN where no trap follows: the divisor is not zero or ARITH.TE bit 9 is clear (spec/04 R90). -/
def DivisionResult : Prop :=
  ∀ (o : Opnd) (s : State), s.halt = none → ((divOperands s o).2 ≠ 0 ∨ s.me.arith.getLsbD 9 = false) →
    DivRule s o (.div o) (divRule true (divOperands s o).1 (divOperands s o).2).1 ∧
    DivRule s o (.divn o) (divRule false (divOperands s o).1 (divOperands s o).2).1 ∧
    DivRule s o (.rem o) (divRule true (divOperands s o).1 (divOperands s o).2).2 ∧
    DivRule s o (.remn o) (divRule false (divOperands s o).1 (divOperands s o).2).2

/-- A division by zero with ARITH.TE bit 9 set takes trap 0x08, after FLAGS and FAULTEL are updated; gA is not written
(spec/04 R90). -/
def DivisionByZeroTraps : Prop :=
  ∀ (o : Opnd) (s : State) (i : Instr), i ∈ [.div o, .divn o, .rem o, .remn o] → s.halt = none →
    (divOperands s o).2 = 0 → s.me.arith.getLsbD 9 = true →
    ∃ u, exec i s = .next (u.trap 0x08 2 0) ∧ Within s u [s.named s.cur] ∧ FlagsOnly s u ∧ TakesFlags s u s.cur [(0, 2)]

/-- Division writes quotient or remainder, and a zero divisor sets DZ or traps (R90). -/
def Obligations.Division : Prop :=
  DivisionResult ∧ DivisionByZeroTraps

/-! ### Control flow (spec/04 R103–R108) -/

/-- The target of a displacement in halfwords from the first halfword of the executing instruction (spec/03 R60). -/
def branchTarget (s : State) (disp : Int) : BitVec 48 := BitVec.ofInt 48 (s.me.pc.toNat + 2 * disp)

/-- The branch `i` goes to its target when `take` holds, else on; it changes nothing else. -/
def BranchRule (s : State) (i : Instr) (disp : Int) (take : Bool) : Prop :=
  ∃ t, exec i s = .next t ∧ GoesTo s t (if take then branchTarget s disp else s.next i)

/-- BEQ to BGEN: taken as the comparison of gA and gB says, to the displacement that the PXI give (spec/04 R103). -/
def ConditionalBranchTarget : Prop :=
  ∀ (o : Opnd) (s : State), s.halt = none →
    BranchRule s (.beq o) o.poff (decide (s.g o.ra = s.g o.rb)) ∧
    BranchRule s (.bne o) o.poff (decide (s.g o.ra ≠ s.g o.rb)) ∧
    BranchRule s (.blt o) o.poff (decide ((s.g o.ra).toInt < (s.g o.rb).toInt)) ∧
    BranchRule s (.bge o) o.poff (decide ((s.g o.rb).toInt ≤ (s.g o.ra).toInt)) ∧
    BranchRule s (.bltn o) o.poff (decide ((s.g o.ra).toNat < (s.g o.rb).toNat)) ∧
    BranchRule s (.bgen o) o.poff (decide ((s.g o.rb).toNat ≤ (s.g o.ra).toNat))

/-- BP: A holds cond and N; any, all, none or not all of the byte-lane bits of pN (spec/04 R104). -/
def PredicateBranchTarget : Prop :=
  ∀ (o : Opnd) (s : State), s.halt = none →
    let w := if s.me.gang then 32 else 16
    let bit (i : Nat) : Bool := (s.preg s.cur (o.ra % 8)).testBit i
    BranchRule s (.bp o) o.simm (match o.ra / 8 with
      | 0 => (List.range w).any bit
      | 1 => (List.range w).all bit
      | 2 => !(List.range w).any bit
      | _ => !(List.range w).all bit)

/-- JMP and CALL to their displacement, and RET with its link mark set and an address below 2^48 (spec/04 R105–R107). -/
def JumpCallReturnTarget : Prop :=
  ∀ (o : Opnd) (s : State), s.halt = none →
    (∃ t, exec (.jmp o) s = .next t ∧ GoesTo s t (branchTarget s o.bdisp)) ∧
    (∃ t, exec (.call o) s = .next t ∧ Links s t (.call o) (branchTarget s o.bdisp)) ∧
    ((s.g 1).getLsbD 0 = true → (s.g 1).toNat < 2 ^ 48 →
      ∃ t, exec (.ret o) s = .next t ∧ GoesTo s t ((s.g 1).setWidth 48 &&& ~~~ 1)) ∧
    ((s.g 1).getLsbD 0 = false → exec (.ret o) s = .next (s.trap 0x03 4 (s.g 1))) ∧
    ((s.g 1).getLsbD 0 = true → 2 ^ 48 ≤ (s.g 1).toNat → exec (.ret o) s = .next (s.trap 0x03 5 (s.g 1 &&& ~~~ 1)))

/-- Branches, jumps, calls and returns go to their target (R60). -/
def Obligations.BranchesReachTheirTarget : Prop :=
  ConditionalBranchTarget ∧ PredicateBranchTarget ∧ JumpCallReturnTarget

/-- JR and CALLR: the target must lie below 2^48, be even, and hold PAD.J or PAD.C; else a trap of the kind required, with
nothing written (spec/04 R107).  `fetchTarget` fetches one halfword through the instruction cache; a fetch that fails raises 0x05 or
0x06 here, TADDR the target, and one that has still to bring the line holds the branch back. -/
def IndirectJumpsNeedTheirPad : Prop :=
  ∀ (o : Opnd) (s : State) (t : Word), s.halt = none → t = s.g o.ra →
    (2 ^ 48 ≤ t.toNat → exec (.jr o) s = .next (s.trap 0x03 5 t) ∧ exec (.callr o) s = .next (s.trap 0x03 5 t)) ∧
    (t.toNat < 2 ^ 48 → t.getLsbD 0 = true →
      exec (.jr o) s = .next (s.trap 0x04 1 t) ∧ exec (.callr o) s = .next (s.trap 0x04 1 t)) ∧
    (t.toNat < 2 ^ 48 → t.getLsbD 0 = false → ∀ u h, s.fetchTarget t.toNat = (u, .half h) →
      (h = 0x8404 → ∃ v, exec (.jr o) s = .next v ∧ GoesTo u v (t.setWidth 48)) ∧
      (h ≠ 0x8404 → exec (.jr o) s = .next (u.trap 0x03 0 t)) ∧
      (h = 0x8405 → u.me.pc = s.me.pc → ∃ v, exec (.callr o) s = .next v ∧ Links u v (.callr o) (t.setWidth 48)) ∧
      (h ≠ 0x8405 → exec (.callr o) s = .next (u.trap 0x03 1 t))) ∧
    (t.toNat < 2 ^ 48 → t.getLsbD 0 = false → ∀ u,
      (∀ c d, s.fetchTarget t.toNat = (u, .trap c d) →
        ((c = 0x05 ∧ (d = 0x80 ∨ d = 0x180)) ∨ (c = 0x06 ∧ d = 0x80)) ∧
        exec (.jr o) s = .next (u.trap c d t) ∧ exec (.callr o) s = .next (u.trap c d t)) ∧
      (s.fetchTarget t.toNat = (u, .wait) → exec (.jr o) s = .next u ∧ exec (.callr o) s = .next u))

/-- The landing pads in sequence, YIELD, and WFI with a wake bit or an inbox entry, only move the program counter
(spec/04 R107, R108; spec/15 R357); YIELD and WFI outside handler frames. -/
def PadsAndHintsOnlyAdvance : Prop :=
  ∀ (o : Opnd) (s : State), s.halt = none →
    (∃ t, exec (.padJ o) s = .next t ∧ GoesTo s t (s.next (.padJ o))) ∧
    (∃ t, exec (.padC o) s = .next t ∧ GoesTo s t (s.next (.padC o))) ∧
    (∃ t, exec (.padH o) s = .next t ∧ GoesTo s t (s.next (.padH o))) ∧
    (∃ t, exec (.padL o) s = .next t ∧ GoesTo s t (s.next (.padL o))) ∧
    (s.inHandler = false → ∃ t, exec (.yield o) s = .next t ∧ GoesTo s t (s.next (.yield o))) ∧
    (s.inHandler = false →
      (s.me.wake ≠ 0 ∨ (s.onTile = true ∧ (s.myInbox.entries ≠ [] ∨ s.myInbox.pending ≠ none))) →
      ∃ t, exec (.wfi o) s = .next t ∧ GoesTo s t (s.next (.wfi o)))

/-- Calls set the link mark, RET needs it, indirect jumps need their landing pad, and pads only advance (R106, R108). -/
def Obligations.IndirectJumpsAndPads : Prop :=
  JumpCallReturnTarget ∧ IndirectJumpsNeedTheirPad ∧ PadsAndHintsOnlyAdvance

/-! ### Loads, stores and atomics (spec/04 R96–R100, spec/09 R209–R214) -/

/-- The effective address of a MEM form: gB plus the scaled offset of the PXI payloads, modulo 2^64 (spec/04 R98). -/
def memAddress (s : State) (o : Opnd) (scale : Nat) : Nat := (BitVec.ofInt 64 ((s.g o.rb).toNat + scale * o.poff)).toNat

/-- The loads: instruction, address, bytes, sign extension and modifiers (spec/04 R96, R97). -/
def loadForms (s : State) (o : Opnd) : List (Instr × Nat × Nat × Bool × Mods) :=
  [(.ldb o, memAddress s o 1, 1, true, modsOf o), (.ldbn o, memAddress s o 1, 1, false, modsOf o),
   (.ldh o, memAddress s o 2, 2, true, modsOf o), (.ldhn o, memAddress s o 2, 2, false, modsOf o),
   (.ldw o, memAddress s o 4, 4, true, modsOf o), (.ldwn o, memAddress s o 4, 4, false, modsOf o),
   (.ldd o, memAddress s o 8, 8, false, modsOf o), (.lrec o, memAddress s o 32, 8, false, Mods.default)]

/-- The stores: instruction, address, bytes and modifiers (spec/04 R97). -/
def storeForms (s : State) (o : Opnd) : List (Instr × Nat × Nat × Mods) :=
  [(.stb o, memAddress s o 1, 1, modsOf o), (.sth o, memAddress s o 2, 2, modsOf o),
   (.stw o, memAddress s o 4, 4, modsOf o), (.std o, memAddress s o 8, 8, modsOf o)]

/-- A scalar load whose checks pass issues one access of its bytes to gA, and retires; one whose check fails traps.
`scalarCheck` makes the checks of spec/04 R98; the state `u` it answers holds what a walk of the tables has cached. -/
def ScalarLoadIssues : Prop :=
  ∀ (o : Opnd) (s u : State) (i : Instr) (ea size : Nat) (sg : Bool) (m : Mods),
    (i, ea, size, sg, m) ∈ loadForms s o → s.halt = none →
    (s.scalarCheck ea size .r .plain false = (u, none) → u.cur = s.cur →
      ∃ t a, exec i s = .next t ∧ Issues u t a (u.next i) ∧ OneAccess u a ea size .load (.g o.ra size sg) 0 m ∧
        a.areg = o.ra) ∧
    (∀ c d x, s.scalarCheck ea size .r .plain false = (u, some (c, d, x)) →
      exec i s = .next (u.trap c d (BitVec.ofNat 64 x)))

/-- A scalar store whose checks pass issues one access of the low bytes of gA, and retires; one whose check fails traps. -/
def ScalarStoreIssues : Prop :=
  ∀ (o : Opnd) (s u : State) (i : Instr) (ea size : Nat) (m : Mods), (i, ea, size, m) ∈ storeForms s o → s.halt = none →
    (s.scalarCheck ea size .w .plain true = (u, none) → u.cur = s.cur → u.frames = s.frames →
      ∃ t a, exec i s = .next t ∧ Issues u t a (u.next i) ∧ OneAccess u a ea size .store .none (s.g o.ra) m ∧ a.areg = 0 ∧
        ∀ p ∈ a.parts, p.mask = BitVec.ofNat 8 (2 ^ size - 1)) ∧
    (∀ c d x, s.scalarCheck ea size .w .plain true = (u, some (c, d, x)) →
      exec i s = .next (u.trap c d (BitVec.ofNat 64 x)))

/-- Scalar loads and stores issue one access or trap (spec/04 R96, spec/04 R97, spec/04 R98). -/
def Obligations.ScalarAccessesIssue : Prop :=
  ScalarLoadIssues ∧ ScalarStoreIssues

/-- The first three checks of a scalar load or store, in their order (spec/04 R98): a misaligned address raises 0x04; an
aligned one in the device-register window, at U, 0x10; an aligned one of 2^48 or more, 0x05; DETAIL is 0 and TADDR is
the address. -/
def Obligations.ScalarAccessCheckOrder : Prop :=
  ∀ (o : Opnd) (s : State) (i : Instr) (ea size : Nat), s.halt = none →
    ((∃ sg m, (i, ea, size, sg, m) ∈ loadForms s o) ∨ (∃ m, (i, ea, size, m) ∈ storeForms s o)) →
    (ea % size ≠ 0 → exec i s = .next (s.trap 0x04 0 (BitVec.ofNat 64 ea))) ∧
    (ea % size = 0 → 0xFF00000000 ≤ ea → ea ≤ 0xFFFFFFFFFF → s.me.priv = .u →
      exec i s = .next (s.trap 0x10 0 (BitVec.ofNat 64 ea))) ∧
    (ea % size = 0 → 2 ^ 48 ≤ ea → exec i s = .next (s.trap 0x05 0 (BitVec.ofNat 64 ea)))

/-- Random words that an AMO draws: one, or two of a CF16 sum, where rounding is stochastic (spec/02 R55). -/
def amoWords (s : State) (o : Opnd) : Nat :=
  if amoFltAdd o && (AR.ofWord s.me.arith).stoch then (if o.et = .cf16 then 2 else 1) else 0

/-- LR, SC and AMO whose checks pass issue one access, and one whose check fails traps: LR reads the word at gB to gA, SC stores gA
there and answers in gA, AMO works on the bytes at gC with gA (and gA+1) and returns the old value in gA (spec/09 R210–R213).  A sum that rounds
stochastically draws its words at issue (spec/02 R55); in Exact mode a floating-point sum is illegal (spec/09 R212), as is a
compare-and-swap of g31. -/
def AtomicsIssue : Prop :=
  ∀ (o : Opnd) (s u : State), s.halt = none → u.cur = s.cur → u.frames = s.frames →
    (s.scalarCheck (s.g o.rb).toNat 8 .r .atomic false = (u, none) →
      ∃ t a, exec (.lr o) s = .next t ∧ Issues u t a (u.next (.lr o)) ∧
        OneAccess u a (s.g o.rb).toNat 8 .lr (.g o.ra 8 false) 0 (modsOf o) ∧ a.areg = o.ra) ∧
    (∀ c d x, s.scalarCheck (s.g o.rb).toNat 8 .r .atomic false = (u, some (c, d, x)) →
      exec (.lr o) s = .next (u.trap c d (BitVec.ofNat 64 x))) ∧
    (s.scalarCheck (s.g o.rb).toNat 8 .rw .atomic true = (u, none) →
      ∃ t a, exec (.sc o) s = .next t ∧ Issues u t a (u.next (.sc o)) ∧
        OneAccess u a (s.g o.rb).toNat 8 .sc (.sc o.ra) (s.g o.ra) (modsOf o) ∧ a.areg = o.ra) ∧
    (∀ c d x, s.scalarCheck (s.g o.rb).toNat 8 .rw .atomic true = (u, some (c, d, x)) →
      exec (.sc o) s = .next (u.trap c d (BitVec.ofNat 64 x))) ∧
    (s.scalarCheck (s.g o.rc).toNat (amoSize o) .rw .atomic true = (u, none) → ¬ (amoCas o = true ∧ o.ra = 31) →
      ¬ ((AR.ofWord s.me.arith).exact = true ∧ amoFltAdd o = true) →
      ∃ v t a, exec (.amo o) s = .next t ∧ Within u v [u.cur] ∧
        v.me = { u.me with rngc := u.me.rngc + BitVec.ofNat 48 (amoWords s o) } ∧
        Issues v t a (v.next (.amo o)) ∧
        OneAccess v a (s.g o.rc).toNat (amoSize o) (.amo o.rb o.et.code) (.amo o.ra (amoSize o) (amoSigned o)) (s.g o.ra)
          (modsOf o) ∧ a.areg = o.ra ∧ a.arith = s.me.arith ∧
        a.fl0 = if s.me.rngc.toNat + amoWords s o < 2 ^ 48 then 0 else 128) ∧
    (∀ c d x, s.scalarCheck (s.g o.rc).toNat (amoSize o) .rw .atomic true = (u, some (c, d, x)) →
      ¬ (amoCas o = true ∧ o.ra = 31) → ¬ ((AR.ofWord s.me.arith).exact = true ∧ amoFltAdd o = true) →
      exec (.amo o) s = .next (u.trap c d (BitVec.ofNat 64 x))) ∧
    ((amoCas o = true ∧ o.ra = 31) ∨ ((AR.ofWord s.me.arith).exact = true ∧ amoFltAdd o = true) →
      exec (.amo o) s = .next (s.illegalValue (.amo o)))

/-- WAITRS at gB: the first time it issues a read under a watch; once the read has returned a value, gA takes it and the
thread goes on; until then it holds, and a read that fails is reported as a late outcome (spec/09 R214). -/
def WaitrsReadsThenReturns : Prop :=
  ∀ (o : Opnd) (s u : State), s.halt = none →
    (s.myWait = none → s.scalarCheck (s.g o.rb).toNat 8 .r .atomic false = (u, none) → u.cur = s.cur →
      u.frames = s.frames →
      ∃ t a, exec (.waitrs o) s = .next t ∧ t = { u with accs := u.accs ++ [a] } ∧ SameBytes u t ∧
        OneAccess u a (s.g o.rb).toNat 8 .waitrs .none (s.g o.ra) (modsOf o) ∧ a.areg = o.ra) ∧
    (∀ c d x, s.myWait = none → s.scalarCheck (s.g o.rb).toNat 8 .r .atomic false = (u, some (c, d, x)) →
      exec (.waitrs o) s = .next (u.trap c d (BitVec.ofNat 64 x))) ∧
    (∀ a p c, s.myWait = some (a, p) → p.stage = .failed c → a.frame = s.cur →
      ∃ v t, exec (.waitrs o) s = .next t ∧ v = { s with accs := v.accs } ∧
        v.accs = s.accs.filter (fun b => !(b.frame == a.frame && b.seq == a.seq)) ∧ Within v t [s.cur] ∧
        t.me = { s.me with late := s.me.late ++ [⟨a.seq, 0, c, p.va, a.lateDetail⟩] }) ∧
    (∀ a p, s.myWait = some (a, p) → p.stage = .performed → a.frame = s.cur →
      ∃ v t, exec (.waitrs o) s = .next t ∧ v = { s with accs := v.accs } ∧
        v.accs = s.accs.filter (fun b => !(b.frame == a.frame && b.seq == a.seq)) ∧
        WritesG v t o.ra p.val (s.next (.waitrs o))) ∧
    (∀ a p, s.myWait = some (a, p) → p.stage = .waiting ∨ p.stage = .watching ∨ p.stage = .polling →
      exec (.waitrs o) s = .next s)

/-- LR, SC, AMO and WAITRS put their access on its way; WAITRS returns (spec/09 R210, spec/09 R211, spec/09 R212, spec/09 R213,
spec/09 R214, spec/02 R55). -/
def Obligations.Atomics : Prop :=
  AtomicsIssue ∧ WaitrsReadsThenReturns

/-! ### The memory system's events (spec/04 R99–R101, spec/09 R207–R214, spec/14 R308–R329) -/

/-- What a granted access writes: its value and byte mask.  A store writes under its mask; an SC whose frame holds the word's
reservation, its eight bytes; an AMO, the new value that its function gives; a load, an LR and a WAITRS, nothing; nothing but
a store writes over a poisoned word (spec/14 R322). -/
def grantWrites (s : State) (a : Acc) (p : Part) (key : Nat) : Option (Nat × Nat) :=
  match a.op with
  | .store => some (p.data.toNat, p.mask.toNat)
  | .sc => if !s.poisoned key && s.resvs.any (fun r => r.frame == a.frame && r.loc == p.tgt.loc) then some (p.data.toNat, 255)
           else none
  | .amo fn et =>
    if s.poisoned key then none
    else (amoNew fn et a.arith a.rnd (s.readW key p.size).toNat (p.data.toNat % 2 ^ (8 * p.size))
      (p.data2.toNat % 2 ^ (8 * p.size))).1.map fun v => (v % 2 ^ 64, 2 ^ p.size - 1)
  | _ => none

/-- What a granted access other than a store returns: its stage and value. -/
def grantReturns (s : State) (a : Acc) (p : Part) (key : Nat) : Stage × Word :=
  if s.poisoned key then (.failed 0x0B, p.val)
  else match a.op with
    | .sc => (.performed, if s.resvs.any (fun r => r.frame == a.frame && r.loc == p.tgt.loc) then 0 else 1)
    | .waitrs => if s.readW key 8 ≠ p.data then (.performed, s.readW key 8)
                 else (if s.watchCount (s.resvUnit p.tgt) < resvCap (s.resvUnit p.tgt) then .watching else .polling, p.val)
    | _ => (.performed, s.readW key p.size)

/-- The part `i` of the instruction `a` has been performed at the storage key `key`: the stored bytes are the `size` bytes from
`key` up under the mask, and every other byte stands; the value returned stands in the part; no register of any frame
differs. -/
structure Granted (s t : State) (a : Acc) (i : Nat) (p : Part) (key : Nat) : Prop where
  bytes : ∀ k, t.byte k = match grantWrites s a p key with
    | some (v, m) => if key ≤ k ∧ k < key + p.size ∧ m.testBit (k - key) then BitVec.ofNat 8 (v / 256 ^ (k - key)) else s.byte k
    | none => s.byte k
  value : a.op ≠ .store → a.ret ≠ .none → ∃ b q, t.partOf a.frame a.seq i = some (b, q) ∧ q.base = p.base ∧ q.size = p.size ∧
    (q.stage, q.val) = grantReturns s a p key
  frames : ∀ f, t.frame f = { s.frame f with late := (t.frame f).late, stat := (t.frame f).stat }
  regs : t.regs = s.regs ∧ t.accums = s.accums

/-- BANK_GRANT performs the access that stands first at its bank, in the L1 (spec/09 R207); SLICE_GRANT one whose line is held
(spec/14 R314); HBM_WRITE_ACCEPT an uncached store (spec/14 R320). -/
def GrantPerformsTheAccess : Prop :=
  ∀ (s : State), s.halt = none → Memory.wf s.mem = true →
    (∀ cluster bank r p o, pickBank (s.bankPtr cluster bank) (s.bankWaiters cluster bank) = some r → r.p.tgt = .l1 p o →
      ¬ (r.req = 1216 ∧ s.clusterLive p = false) → s.partOf r.acc.frame r.acc.seq r.i = some (r.acc, r.p) →
      ∃ t, exec (.bankGrant cluster bank) s = .next t ∧ Granted s t r.acc r.i r.p (l1Key p o)) ∧
    (∀ f seq i a p va, s.partOf f seq i = some (a, p) → p.tgt = .glob va → s.wipe = false → s.eligible a i = true →
      (s.lineOf va).isSome = true →
      ∃ t, exec (.sliceGrant f seq i) s = .next t ∧ Granted s t a i p (l2Key va)) ∧
    (∀ f seq i a p va e, s.partOf f seq i = some (a, p) → p.tgt = .glob va → p.stage = .granted → s.lineOf va = none →
      (s.slice (homeSlice va)).leaf va p.crumb = some e → entryHost e = false →
      ∃ t, exec (.hbmWriteAccept f seq i) s = .next t ∧ Granted s t a i p (hbmKey (leafPa e va p.crumb)))

/-- An access to a cluster that is off or fenced ends with the late cause 0x11, and one to a page without a translation, or
with an invalid way for its line, waits for its walk or its fill (spec/15 R348, spec/14 R314). -/
def GrantRefusesOrWaits : Prop :=
  ∀ (s : State), s.halt = none →
    (∀ cluster bank r p o, pickBank (s.bankPtr cluster bank) (s.bankWaiters cluster bank) = some r → r.p.tgt = .l1 p o →
      r.req = 1216 → s.clusterLive p = false → r.acc.ret ≠ .none → s.partOf r.acc.frame r.acc.seq r.i = some (r.acc, r.p) →
      ∃ t, exec (.bankGrant cluster bank) s = .next t ∧ t.frames = s.frames ∧ SameBytes s t ∧
        ∃ b q, t.partOf r.acc.frame r.acc.seq r.i = some (b, q) ∧ q.stage = .failed 0x11) ∧
    (∀ f seq i a p va, s.partOf f seq i = some (a, p) → p.tgt = .glob va → s.wipe = false → s.eligible a i = true →
      s.lineOf va = none → (s.slice (homeSlice va)).leaf va p.crumb = none →
      ∃ t, exec (.sliceGrant f seq i) s = .next t ∧ t = { s with accs := t.accs } ∧ SameBytes s t ∧
        ∃ b q, t.partOf f seq i = some (b, q) ∧ q.stage = .filling) ∧
    (∀ f seq i, s.wipe = true → exec (.sliceGrant f seq i) s = .next s)

/-- A grant performs an access at its bank or slice, refuses it, or leaves it to wait (spec/09 R207, spec/09 R210, spec/14 R314,
spec/14 R320, spec/14 R322, spec/15 R348). -/
def Obligations.GrantsPerformAccesses : Prop :=
  GrantPerformsTheAccess ∧ GrantRefusesOrWaits

/-- The record of an instruction is gone, and of the rest only registers, pending flags and late outcomes of its frame may
differ. -/
structure Returned (s t : State) (f seq : Nat) : Prop where
  rest   : t = { s with frames := t.frames, accs := s.accs.filter fun a => !(a.frame == f && a.seq == seq) }
  others : ∀ k, k ≠ f → t.frame k = s.frame k
  bytes  : SameBytes s t
  kept   : t.frame f = { s.frame f with g := (t.frame f).g, v := (t.frame f).v, amoFlags := (t.frame f).amoFlags,
                                        late := (t.frame f).late }

/-- Register `rd` of a frame takes a value and its other g registers and its vector registers stand. -/
def GTakes (s t : State) (f rd : Nat) (w : Word) : Prop :=
  (t.frame f).v = (s.frame f).v ∧
    ∀ k, k < 32 → (t.frame f).gr k = if k = 0 then 0 else if k = rd then w else (s.frame f).gr k

/-- A load-like instruction whose accesses have all been performed writes its register: the bytes extended (spec/04 R97, R99),
the result of an SC, the old value of an AMO with the flags of its operation and of its draws and the trap enables under which it
issued (spec/01 R23); one of whose accesses failed leaves
it and reports the late outcome of its lowest failing element (spec/04 R100, spec/02 R54). -/
def LoadReturnsOrReports : Prop :=
  ∀ (s : State) (f seq : Nat) (a : Acc) (p : Part), s.halt = none → s.accOf f seq = some a → a.parts = [p] →
    a.op ≠ .waitrs → a.frame = f ∧ a.seq = seq →
    let flags (fl : Nat) : List (Nat × Nat) := if fl = 0 then [] else [(a.arith.toNat / 256 % 256, fl)]
    (∀ rd size sg, a.ret = .g rd size sg → p.stage = .performed →
      ∃ t, exec (.loadDataReturn f seq) s = .next t ∧ Returned s t f seq ∧
        GTakes s t f rd (if sg then BitVec.ofInt 64 (sextNat p.val.toNat (8 * size)) else p.val)) ∧
    (∀ rd, a.ret = .sc rd → p.stage = .performed →
      ∃ t, exec (.loadDataReturn f seq) s = .next t ∧ Returned s t f seq ∧ GTakes s t f rd p.val) ∧
    (∀ rd size sg, a.ret = .amo rd size sg → p.stage = .performed →
      ∃ t, exec (.loadDataReturn f seq) s = .next t ∧ Returned s t f seq ∧
        (t.frame f).amoFlags = (s.frame f).amoFlags ++ flags (p.data2.toNat ||| a.fl0) ∧
        GTakes s t f rd (if sg then BitVec.ofInt 64 (sextNat p.val.toNat (8 * size)) else p.val)) ∧
    (∀ c, a.ret ≠ .none → p.stage = .failed c → (∀ r n el z, a.ret = .v r n el z → ∀ k < n, (s.frame f).unitAt (r + k) = none) →
      ∃ t, exec (.loadDataReturn f seq) s = .next t ∧ Returned s t f seq ∧ (t.frame f).g = (s.frame f).g ∧
        (t.frame f).v = (s.frame f).v ∧ (t.frame f).late = (s.frame f).late ++ [⟨seq, 0, c, p.va, a.lateDetail⟩] ∧
        ∀ r n sg, a.ret = .amo r n sg → (t.frame f).amoFlags = (s.frame f).amoFlags ++ flags a.fl0)

/-- A vector load of one register whose accesses have all been performed writes its loaded and zeroed lanes over the register's old
value; no other register differs (spec/07 R166, R168; the odd slot of the gang that issued it holds the upper half, spec/01 R20).
Where a unit is bound to the register, its loaded value goes to the stores of the write stream or to the link (spec/08 R178, R180);
one of whose accesses failed leaves the register, withdraws its offer (log 18), and reports its lowest failing element (R168). -/
def VectorLoadReturns : Prop :=
  ∀ (s : State) (f seq rd : Nat) (a : Acc) (elems : List (Nat × Nat × Nat × Nat × Nat)) (zero : List (Nat × Nat)),
    s.halt = none → s.accOf f seq = some a → a.op = .load → a.frame = f ∧ a.seq = seq → a.ret = .v rd 1 elems zero → rd < 32 →
    let gone : State := { s with accs := s.accs.filter fun c => !(c.frame == f && c.seq == seq) }
    let low (p : Part) := ∀ q ∈ a.parts, (∃ c, q.stage = .failed c) → p.elem ≤ q.elem
    ((∀ p ∈ a.parts, p.stage = .performed) → (s.frame f).unitAt rd = none →
      ∃ t, exec (.loadDataReturn f seq) s = .next t ∧ SameBytes s t ∧ t = { gone with frames := t.frames } ∧
        (∀ k, k < 32 → t.vregOf f k a.gang =
          if k = rd then s.loadedV a rd 0 elems zero % 2 ^ (if a.gang then 256 else 128) else s.vregOf f k a.gang) ∧
        t.frame f = { s.frame f with v := (t.frame f).v } ∧ ∀ k, k ≠ f → ¬ (a.gang = true ∧ k = oddOf f) → t.frame k = s.frame k) ∧
    (∀ u, (∀ p ∈ a.parts, p.stage = .performed) → (s.frame f).unitAt rd = some u →
      (u.kind = .gen → exec (.loadDataReturn f seq) s =
        .next (gone.setUnit f (rd - 28) (u.fill seq (s.loadedV a rd 0 elems zero)))) ∧
      (u.kind = .nbr → exec (.loadDataReturn f seq) s =
        .next (gone.pushUnit f u (s.loadedV a rd 0 elems zero) a.gang))) ∧
    (∀ p c, (∀ q ∈ a.parts, q.stage = .performed ∨ ∃ c, q.stage = .failed c) → p ∈ a.parts → p.stage = .failed c → low p →
      (∀ q ∈ a.parts, q.elem = p.elem → q = p) →
      exec (.loadDataReturn f seq) s = .next ((match (s.frame f).unitAt rd with
        | some u => gone.setUnit f (rd - 28) (u.withdraw seq)
        | none => gone : State).updFrame f fun x : Frame =>
          { x with late := x.late ++ [Late.mk seq 0 c p.va a.lateDetail] }))

/-- Data returns to its register, or a late outcome is reported (spec/04 R97, spec/04 R99, spec/04 R100, spec/07 R166, spec/07
R168). -/
def Obligations.LoadsReturn : Prop :=
  LoadReturnsOrReports ∧ VectorLoadReturns

/-! ### Vector instructions (spec/07) -/

/-- The random word of part `p` of the `j`th of `k` active elements: first parts stand before second ones; none unless
rounding is stochastic (spec/02 R54, R55). -/
def eventWord (s : State) (k p j : Nat) : Nat :=
  if (AR.ofWord s.me.arith).stoch then
    (zrng s.me.seed (s.frame (s.named s.cur)).ltid ((s.me.rngc.toNat + (p * k + j)) % 2 ^ 48)).toNat
  else 0

/-- The vector registers of the executing thread as an instruction that reads `regs` finds them: a bound stream unit supplies the value
of its register (`StreamValues`). -/
def sources (s : State) (regs : List Nat) (r : Nat) : Nat := s.srcV s.cur r regs

/-- First source element and the flags of its broadcast, where the vector registers hold `rv` (spec/07 R147, R150). -/
def srcOne (s : State) (rv : Nat → Nat) (o : Opnd) (w e : Nat) : Nat × Nat :=
  if o.sel = 1 then bcastElem (AR.ofWord s.me.arith) o.et (s.g o.rb)
  else (laneAt (rv (if o.hasR then o.rb else o.ra)) w e, 0)

/-- Second source element and the flags of its broadcast. -/
def srcTwo (s : State) (rv : Nat → Nat) (o : Opnd) (w e : Nat) : Nat × Nat :=
  if o.sel = 2 then bcastElem (AR.ofWord s.me.arith) o.et (s.g o.rc)
  else (laneAt (rv (if o.hasR then o.rc else o.rb)) w e, 0)

/-- Source element of a unary form. -/
def srcUn (rv : Nat → Nat) (o : Opnd) (w e : Nat) : Nat := laneAt (rv (if o.hasR then o.rc else o.ra)) w e

/-- Elements of `w` bits in a vector register: VWIDTH / w (spec/07 R147). -/
def elemCount (s : State) (w : Nat) : Nat := (if s.me.gang then 256 else 128) / w

/-- Whether element `e` in lanes of `w` bits is active (spec/07 R149). -/
def isActive (s : State) (o : Opnd) (w e : Nat) : Bool := (s.preg s.cur o.pg).testBit (e * w / 8) != o.pinv

/-- What an element of a destination that the instruction leaves keeps: that of the register, or zero for a bound stream, which is
offered the whole register (spec/07 R149, R151). -/
def oldDest (s : State) (r : Nat) : Nat := if (s.me.unitAt r).isSome then 0 else s.vreg s.cur r

/-- Element `e` of the result of an element-wise instruction: an active one takes what `op` gives, another is zero under ZM, else
keeps its old value (spec/07 R149). -/
def resultLane (s : State) (o : Opnd) (w n gw parts : Nat) (op : Nat → List Nat → Nat × Nat) (e : Nat) : Nat :=
  let acts := (List.range n).filter (isActive s o gw)
  if e ∈ acts then (op e ((List.range parts).map fun p => eventWord s acts.length p (acts.idxOf e))).1 % 2 ^ w
  else if o.zm then 0 else laneAt (oldDest s o.ra) w e

/-- Flags of the active elements, in their order, and RNGW where the counter wraps (log 13). -/
def resultFlags (s : State) (o : Opnd) (n gw parts : Nat) (op : Nat → List Nat → Nat × Nat) : ElemFlags :=
  let acts := (List.range n).filter (isActive s o gw)
  let k := acts.length
  let drawn := if (AR.ofWord s.me.arith).stoch then parts * k else 0
  (acts.filterMap fun e =>
    let f := (op e ((List.range parts).map fun p => eventWord s k p (acts.idxOf e))).2
    if f = 0 then none else some (e, f)) ++
  (if drawn = 0 ∨ s.me.rngc.toNat + drawn < 2 ^ 48 then []
   else [(acts.getD (min (2 ^ 48 - s.me.rngc.toNat) (drawn - 1) % k) 0, 128)])

/-- No bound stream stands behind these vector registers of the executing thread. -/
abbrev plainRegs (s : State) (regs : List Nat) : Prop := ∀ r ∈ regs, s.me.unitAt r = none

/-- Flags that ARITH.TE enables among those of a record (spec/01 R24). -/
def enabledOf (s : State) (fl : ElemFlags) : Nat := orFlags fl &&& s.me.arith.toNat / 256 % 256

/-- The executing thread has taken a flag record and drawn random words; nothing else differs. -/
structure Flagged (s m : State) (drawn : Nat) (fl : ElemFlags) : Prop where
  within : Within s m [s.cur, s.named s.cur]
  flags  : TakesFlags s m s.cur fl
  kept   : m.me = { s.me with rngc := BitVec.ofNat 48 (s.me.rngc.toNat + drawn), flags := m.me.flags, faultel := m.me.faultel }
  others : ∀ k, k ≠ s.cur → m.frame k = { s.frame k with flags := (m.frame k).flags, faultel := (m.frame k).faultel }

/-- The end of an instruction with flags `fl` and `drawn` random words: where ARITH.TE enables none of them, what it writes, and the
thread goes on; otherwise trap 0x09 for TRI alone and 0x08 else, DETAIL with the enabled flags and TADDR with the lowest element
that has one, before the destination is written (spec/01 R24, spec/05 R119). -/
def EndsWith (s : State) (i : Instr) (drawn : Nat) (fl : ElemFlags) (write : State → State) : Prop :=
  let on := enabledOf s fl
  (on = 0 → ∃ m t, Flagged s m drawn fl ∧ exec i s = .next t ∧ GoesTo (write m) t (s.next i)) ∧
  (on ≠ 0 → ∃ m e, Flagged s m drawn fl ∧ exec i s = .next (m.trap (if on = 64 then 0x09 else 0x08) on (BitVec.ofNat 64 e)) ∧
    (∃ f, (e, f) ∈ fl ∧ f &&& on ≠ 0) ∧ ∀ x ∈ fl, x.2 &&& on ≠ 0 → e ≤ x.1)

/-- What writes a vector destination: the streams that the instruction reads advance, and the register is written, or the bound
unit is offered its value (`StreamValues`). -/
def offers (s : State) (regs : List Nat) (r v : Nat) (m : State) : State := (m.takeUnits s.cur regs).dstV s.cur r s.me.seq v

/-- An element-wise instruction `i` with `n` elements of `w` bits, governed in lanes of `gw` bits.  Where its vector registers are no
bound streams and ARITH.TE enables none of its flags: each element of vA as `resultLane` says, and nothing but FLAGS, FAULTEL
and the drawn words besides.  Where bound streams are named that can supply and accept now: the same, with what they supply, and the
result offered; and with an enabled flag, its trap. -/
def Elementwise (s : State) (o : Opnd) (i : Instr) (regs : List Nat) (n w gw parts : Nat)
    (op : (Nat → Nat) → Nat → List Nat → Nat × Nat) : Prop :=
  let drawn := if (AR.ofWord s.me.arith).stoch then parts * ((List.range n).filter (isActive s o gw)).length else 0
  let value (rv : Nat → Nat) := lanesNat w ((List.range n).map (resultLane s o w n gw parts (op rv)))
  let fl (rv : Nat → Nat) := resultFlags s o n gw parts (op rv)
  s.halt = none →
    (plainRegs s (o.ra :: regs) → enabledOf s (fl (s.vreg s.cur)) = 0 →
      ∃ t, exec i s = .next t ∧ WritesV s t i o.ra (value (s.vreg s.cur)) drawn (fl (s.vreg s.cur))) ∧
    (s.streamTest s.cur regs [o.ra] = .ok →
      EndsWith s i drawn (fl (sources s regs)) (offers s regs o.ra (value (sources s regs))))

/-- Vector registers of a two-source form. -/
def twoRegs (o : Opnd) : List Nat :=
  (if o.sel = 1 then [] else [if o.hasR then o.rb else o.ra]) ++ (if o.sel = 2 then [] else [if o.hasR then o.rc else o.rb])

/-- A two-source instruction whose element operation is `op` on the type, the two elements and the random words. -/
def TwoSource (s : State) (o : Opnd) (i : Instr) (parts : Nat) (op : Nat → Nat → List Nat → Nat × Nat) : Prop :=
  let w := o.et.width
  Elementwise s o i (twoRegs o) (elemCount s w) w w parts fun rv e ws =>
    let a := srcOne s rv o w e
    let b := srcTwo s rv o w e
    ((op a.1 b.1 ws).1, (op a.1 b.1 ws).2 ||| a.2 ||| b.2)

/-- VADD to VSHR and VCMUL on registers (spec/07 R154–R156, R158): the element operations stand in Machine/VecArith.lean; every
element, flag and frame as the rules of spec/07 R147–R152 give them. -/
def VectorTwoSourceResult : Prop :=
  ∀ (o : Opnd) (s : State),
    let ar := AR.ofWord s.me.arith
    let t := o.et
    TwoSource s o (.vadd o) (eventsOf t) (elemAdd false ar t) ∧
    TwoSource s o (.vsub o) (eventsOf t) (elemAdd true ar t) ∧
    TwoSource s o (.vmul o) (eventsOf t) (elemMul ar t) ∧
    TwoSource s o (.vmin o) 0 (fun a b _ => elemMinMax false ar t a b) ∧
    TwoSource s o (.vmax o) 0 (fun a b _ => elemMinMax true ar t a b) ∧
    TwoSource s o (.vand o) 0 (fun a b _ => (canonElem t (a &&& b), 0)) ∧
    TwoSource s o (.vor o) 0 (fun a b _ => (canonElem t (a ||| b), 0)) ∧
    TwoSource s o (.vxor o) 0 (fun a b _ => (canonElem t (a ^^^ b), 0)) ∧
    TwoSource s o (.vshl o) 0 (fun a b ws => byParts t a b ws fun p x y _ => shlPart ar p x y) ∧
    TwoSource s o (.vshr o) 0 (fun a b ws => byParts t a b ws fun p x y _ => shrPart p x y) ∧
    TwoSource s o (.vcmul o) (eventsOf t) (fun a b ws => elemCmul ar t a b none ws)

/-- VMAC, VFMA, VCMAC and VDOT: the accumulator is the old vA (spec/07 R157–R159); each lane of VDOT sums 32 / w products. -/
def VectorAccumulateResult : Prop :=
  ∀ (o : Opnd) (s : State),
    let ar := AR.ofWord s.me.arith
    let t := o.et
    let w := t.width
    let acc (rv : Nat → Nat) (v e : Nat) : Nat := laneAt (rv o.ra) v e
    let all (i : Instr) (parts : Nat) (op : Nat → Nat → Nat → List Nat → Nat × Nat) : Prop :=
      Elementwise s o i (o.ra :: twoRegs o) (elemCount s w) w w parts fun rv e ws =>
        let a := srcOne s rv o w e
        let b := srcTwo s rv o w e
        ((op a.1 b.1 (acc rv w e) ws).1, (op a.1 b.1 (acc rv w e) ws).2 ||| a.2 ||| b.2)
    all (.vmac o) 0 (fun a b c _ => narrowPart ar t (partVal t c + partVal t a * partVal t b)) ∧
    all (.vfma o) 1 (fun a b c ws => fpDot (fmtOf t) (fmtOf t) ar (ws.getD 0 0) c [(a, b)]) ∧
    all (.vcmac o) (eventsOf t) (fun a b c ws => elemCmul ar t a b (some c) ws) ∧
    Elementwise s o (.vdot o) (o.ra :: twoRegs o) (elemCount s 32) 32 32 (if dotAcc t == .fp32 then 1 else 0) (fun rv j ws =>
      let ps := (List.range (32 / w)).map fun k =>
        ((srcOne s rv o w (32 / w * j + k)).1, (srcTwo s rv o w (32 / w * j + k)).1)
      ((elemDot ar t (acc rv 32 j) ps (ws.getD 0 0)).1,
        (elemDot ar t (acc rv 32 j) ps (ws.getD 0 0)).2 ||| (srcOne s rv o w 0).2 ||| (srcTwo s rv o w 0).2))

/-- The unary group, the shifts by an immediate, VBCAST, VCVT and the special functions (spec/07 R156, R172–R174).  VCVT is governed
in the wider of its two layouts and zeroes the lanes above its result. -/
def VectorUnaryResult : Prop :=
  ∀ (o : Opnd) (s : State),
    let ar := AR.ofWord s.me.arith
    let t := o.et
    let w := t.width
    let un (i : Instr) (parts : Nat) (op : Nat → List Nat → Nat × Nat) : Prop :=
      Elementwise s o i [if o.hasR then o.rc else o.ra] (elemCount s w) w w parts fun rv e ws => op (srcUn rv o w e) ws
    un (.vshlI o) 0 (fun a ws => byParts t a 0 ws fun p x _ _ => shlPart ar p x o.uimm) ∧
    un (.vshrI o) 0 (fun a ws => byParts t a 0 ws fun p x _ _ => shrPart p x o.uimm) ∧
    un (.vabs o) 0 (fun a _ => elemAbs ar t a) ∧
    un (.vneg o) 0 (fun a ws => elemNeg ar t a ws) ∧
    un (.vsat o) 0 (fun a ws => elemSat t (ET.ofCode o.et2) a ws) ∧
    un (.vrcp o) 1 (fun a ws => spRcp ar t a ws) ∧
    un (.vrsq o) 1 (fun a ws => spRsq ar t a ws) ∧
    un (.vexp2 o) 1 (fun a ws => spExp2 ar t a ws) ∧
    un (.vlog2 o) 1 (fun a ws => spLog2 ar t a ws) ∧
    un (.vsincos o) 2 (fun a ws => spSincos ar t a ws) ∧
    Elementwise s o (.vbcast o) (if o.sel = 2 then [] else [if o.hasR then o.rc else o.ra]) (elemCount s w) w w 0 (fun rv _ _ =>
      if o.sel = 2 then bcastElem ar t (s.g o.rc) else (canonElem t (srcUn rv o w 0), 0)) ∧
    (let d := ET.ofCode o.et2
     let wide := max w d.width
     Elementwise s o (.vcvt o) [if o.hasR then o.rc else o.ra] (elemCount s wide) w wide (cvtEvents t d) (fun rv e ws =>
       convElem ar t d (srcUn rv o d.width e) ws))

/-- Element-wise vector instructions write each active element (spec/07 R147, spec/07 R149, spec/07 R150, spec/07 R154, spec/07
R155, spec/07 R156, spec/07 R157, spec/07 R158, spec/07 R159, spec/07 R172, spec/07 R173, spec/07 R174). The order of the
drawn words of an instruction, and the flags of the parts of a complex element, are the model's reading (log 13). -/
def Obligations.VectorArithmetic : Prop :=
  VectorTwoSourceResult ∧ VectorAccumulateResult ∧ VectorUnaryResult

/-- VSEL writes every element, of the first source where it is active and of the second elsewhere (spec/07 R160); VSHUF, VZIP and
VUNZIP move elements of vB and vC (spec/07 R164). -/
def VectorSelectAndRearrange : Prop :=
  ∀ (o : Opnd) (s : State),
    let t := o.et
    let w := t.width
    let n := elemCount s w
    let b (rv : Nat → Nat) (e : Nat) : Nat := laneAt (rv o.rb) w e
    let c (rv : Nat → Nat) (e : Nat) : Nat := laneAt (rv o.rc) w e
    let sel (rv : Nat → Nat) (e : Nat) : Nat × Nat := if isActive s o w e then srcOne s rv o w e else srcTwo s rv o w e
    let fl (rv : Nat → Nat) : ElemFlags :=
      (List.range n).filterMap fun e => if (sel rv e).2 = 0 then none else some (e, (sel rv e).2)
    let value (rv : Nat → Nat) := lanesNat w ((List.range n).map fun e => canonElem t (sel rv e).1)
    (s.halt = none → plainRegs s (o.ra :: twoRegs o) → enabledOf s (fl (s.vreg s.cur)) = 0 →
      ∃ u, exec (.vsel o) s = .next u ∧ WritesV s u (.vsel o) o.ra (value (s.vreg s.cur)) 0 (fl (s.vreg s.cur))) ∧
    (s.halt = none → s.streamTest s.cur (twoRegs o) [o.ra] = .ok →
      let rv := sources s (twoRegs o)
      EndsWith s (.vsel o) 0 (fl rv) (offers s (twoRegs o) o.ra (value rv))) ∧
    Elementwise s o (.vshuf o) [o.rb, o.rc] n w w 0 (fun rv e _ => (if c rv e < n then canonElem t (b rv (c rv e)) else 0, 0)) ∧
    Elementwise s o (.vzip o) [o.rb, o.rc] n w w 0
      (fun rv e _ => (canonElem t (if e % 2 = 0 then b rv (e / 2) else c rv (e / 2)), 0)) ∧
    Elementwise s o (.vunzip o) [o.rb, o.rc] n w w 0
      (fun rv e _ => (canonElem t (if e < n / 2 then b rv (2 * e) else c rv (2 * (e - n / 2))), 0))

/-- VCMP writes a predicate: every byte-lane bit of an active element as the comparison says, an inactive one's old lowest bit, or
zero under ZM (spec/07 R161); VWHILE the elements before a limit (R162). -/
def VectorPredicateResult : Prop :=
  ∀ (o : Opnd) (s : State),
    let t := o.et
    let w := t.width
    let n := elemCount s w
    let cmp (rv : Nat → Nat) (e : Nat) : Bool × Nat :=
      elemCmp (AR.ofWord s.me.arith) t (o.ra / 8) (srcOne s rv o w e).1 (srcTwo s rv o w e).1
    let fl (rv : Nat → Nat) : ElemFlags := (List.range n).filterMap fun e =>
      let f := if isActive s o w e then (cmp rv e).2 ||| (srcOne s rv o w e).2 ||| (srcTwo s rv o w e).2 else 0
      if f = 0 then none else some (e, f)
    let value (rv : Nat → Nat) := predOf w ((List.range n).map fun e =>
      if isActive s o w e then (cmp rv e).1 else !o.zm && (s.preg s.cur (o.ra % 8)).testBit (e * w / 8))
    (s.halt = none → plainRegs s (twoRegs o) → enabledOf s (fl (s.vreg s.cur)) = 0 →
      ∃ u, exec (.vcmp o) s = .next u ∧
        WritesP s u (.vcmp o) (o.ra % 8) (value (s.vreg s.cur)) (fl (s.vreg s.cur))) ∧
    (s.halt = none → s.streamTest s.cur (twoRegs o) [] = .ok →
      let rv := sources s (twoRegs o)
      EndsWith s (.vcmp o) 0 (fl rv) fun m => (m.takeUnits s.cur (twoRegs o)).setPreg s.cur (o.ra % 8) (value rv)) ∧
    (s.halt = none →
      ∃ u, exec (.vwhile o) s = .next u ∧ WritesP s u (.vwhile o) (o.ra % 8)
        (predOf w ((List.range n).map fun (e : Nat) => decide ((s.g o.rb).toInt + e < (s.g o.rc).toInt))) [])

/-- VRED: the accumulator, element 0 of the first source, and the active elements of the second in ascending order; the register
above the result is zero (spec/07 R165, spec/02 R52).  A NaN of the accumulator stands last (spec/07 R152). -/
def Reduces (s : State) (o : Opnd) (i : Instr) (parts : Nat) (op : Nat → Nat → List Nat → Nat × Nat) : Prop :=
  let w := o.et.width
  let acts := (List.range (elemCount s w)).filter (isActive s o w)
  let word (j p : Nat) : Nat := if (AR.ofWord s.me.arith).stoch then
      (zrng s.me.seed (s.frame (s.named s.cur)).ltid ((s.me.rngc.toNat + (j * parts + p)) % 2 ^ 48)).toNat else 0
  let drawn := if (AR.ofWord s.me.arith).stoch then parts * acts.length else 0
  let r (rv : Nat → Nat) := acts.zipIdx.foldl (fun (p : Nat × ElemFlags) (q : Nat × Nat) =>
    let x := op (srcTwo s rv o w q.1).1 p.1 ((List.range parts).map (word q.2))
    let f := x.2 ||| (srcOne s rv o w 0).2 ||| (srcTwo s rv o w 0).2
    (x.1, if f = 0 then p.2 else p.2 ++ [(q.1, f)])) ((srcOne s rv o w 0).1, [])
  let fl (rv : Nat → Nat) := (r rv).2 ++ (if drawn = 0 ∨ s.me.rngc.toNat + drawn < 2 ^ 48 then []
    else [(acts.getD (min (2 ^ 48 - s.me.rngc.toNat) (drawn - 1) / parts) 0, 128)])
  let sv := sources s (twoRegs o)
  s.halt = none →
    (plainRegs s (o.ra :: twoRegs o) → enabledOf s (fl (s.vreg s.cur)) = 0 →
      ∃ u, exec i s = .next u ∧ WritesV s u i o.ra ((r (s.vreg s.cur)).1 % 2 ^ w) drawn (fl (s.vreg s.cur))) ∧
    (s.streamTest s.cur (twoRegs o) [o.ra] = .ok →
      EndsWith s i drawn (fl sv) (offers s (twoRegs o) o.ra ((r sv).1 % 2 ^ w)))

/-- VRED.ADD, VRED.MIN and VRED.MAX. -/
def VectorReductionResult : Prop :=
  ∀ (o : Opnd) (s : State),
    let ar := AR.ofWord s.me.arith
    Reduces s o (.vredAdd o) (eventsOf o.et) (elemAdd false ar o.et) ∧
    Reduces s o (.vredMin o) 0 (fun a b _ => elemMinMax false ar o.et a b) ∧
    Reduces s o (.vredMax o) 0 (fun a b _ => elemMinMax true ar o.et a b)

/-- Comparison, loop control and reduction (spec/07 R161, spec/07 R162, spec/07 R165, spec/02 R52). The order of the drawn words
of a reduction is the model's reading (log 13). -/
def Obligations.VectorPredicatesAndReductions : Prop :=
  VectorPredicateResult ∧ VectorReductionResult

/-- VWIDTH writes the number of elements; VMOVS moves one lane to gA, sign-extended for the signed integer types, or a g register
to one lane of vA (spec/07 R163, R170); a lane that does not exist is illegal. -/
def VectorLaneMoves : Prop :=
  ∀ (o : Opnd) (s : State), s.halt = none →
    let t := o.et
    let w := t.width
    let n := elemCount s w
    let lane := o.simm.toNat
    let old := laneAt (s.vreg s.cur o.rc) w lane
    let x := bcastElem (AR.ofWord s.me.arith) t (s.g o.rc)
    let fl : ElemFlags := if x.2 = 0 then [] else [(lane, x.2)]
    SetRule s o (.vwidth o) (BitVec.ofNat 64 n) ∧
    (0 ≤ o.simm → o.simm < n →
      (plainRegs s [o.rc] → SetRule s o (.vmovsToG o)
        (if t.isInt && t.isSigned then BitVec.ofInt 64 (partVal t old) else BitVec.ofNat 64 old)) ∧
      (plainRegs s [o.ra] → enabledOf s fl = 0 →
        ∃ u, exec (.vmovsToV o) s = .next u ∧ WritesV s u (.vmovsToV o) o.ra
          (lanesNat w ((List.range n).map fun e => if e = lane then x.1 else laneAt (s.vreg s.cur o.ra) w e)) 0 fl) ∧
      (s.streamTest s.cur [] [o.ra] = .ok → EndsWith s (.vmovsToV o) 0 fl (offers s [] o.ra
        (lanesNat w ((List.range n).map fun e => if e = lane then x.1 else laneAt (oldDest s o.ra) w e))))) ∧
    (o.simm < 0 ∨ n ≤ o.simm →
      exec (.vmovsToG o) s = .next (s.illegalValue (.vmovsToG o)) ∧
      exec (.vmovsToV o) s = .next (s.illegalValue (.vmovsToV o)))

/-- VTUNP: element i takes trit (part × n + i) of the packed source; a byte of 243 or more decodes to zeros and sets TRI on the five
elements it holds (spec/07 R171, spec/02 R50, R51); where TE enables TRI the destination is written before trap 0x09. -/
def TernaryUnpackResult : Prop :=
  ∀ (o : Opnd) (s : State), s.halt = none →
    let w := o.et.width
    let n := elemCount s w
    let src := s.srcV s.cur o.rc
    let ready := s.streamTest s.cur [o.rc] [o.ra] = .ok
    let plain := plainRegs s [o.ra, o.rc]
    let acts := (List.range n).filter (isActive s o w)
    let j (i : Nat) : Nat := (o.uimm * n + i) / 5
    let fl : ElemFlags := ((acts.map j).eraseDups.filter fun b => 243 ≤ laneAt src 8 b).flatMap fun b =>
      (List.range 5).map fun k => (5 * b + k, 64)
    let v := lanesNat w ((List.range n).map fun i =>
      if i ∈ acts then truncInt ((decodeTr5 (laneAt src 8 (j i))).1.getD ((o.uimm * n + i) % 5) 0) w % 2 ^ w
      else if o.zm then 0 else laneAt (oldDest s o.ra) w i)
    (ready → enabledOf s fl = 0 → ∃ m t, Flagged s m 0 fl ∧ exec (.vtunp o) s = .next t ∧
      GoesTo (offers s [o.rc] o.ra v m) t (s.next (.vtunp o))) ∧
    (ready → enabledOf s fl ≠ 0 → ∃ m e, Flagged s m 0 fl ∧
      exec (.vtunp o) s = .next ((offers s [o.rc] o.ra v m).trap 0x09 64 e)) ∧
    (plain → enabledOf s fl = 0 → ∃ u, exec (.vtunp o) s = .next u ∧ WritesV s u (.vtunp o) o.ra v 0 fl) ∧
    (plain → enabledOf s fl ≠ 0 → ∃ u e, exec (.vtunp o) s = .next (u.trap 0x09 64 e) ∧ u.me.pc = s.me.pc ∧
      u.vreg s.cur o.ra = v ∧ TakesFlags s u s.cur fl ∧ SameBytes s u)

/-- Selection, rearrangement, lane moves and ternary decoding (spec/07 R160, spec/07 R163, spec/07 R164, spec/07 R170, spec/07
R171, spec/02 R50, spec/02 R51). -/
def Obligations.VectorMoves : Prop :=
  VectorSelectAndRearrange ∧ VectorLaneMoves ∧ TernaryUnpackResult

/-- The vector registers that a vector instruction reads and writes as streams. -/
def streamForms (o : Opnd) : List (Instr × List Nat × List Nat) :=
  let two := [Instr.vadd o, .vsub o, .vmul o, .vmin o, .vmax o, .vand o, .vor o, .vxor o, .vshl o, .vshr o, .vcmul o, .vsel o,
    .vredAdd o, .vredMin o, .vredMax o].map fun i => (i, twoRegs o, [o.ra])
  let acc := [Instr.vmac o, .vfma o, .vcmac o, .vdot o].map fun i => (i, o.ra :: twoRegs o, [o.ra])
  let un := [Instr.vshlI o, .vshrI o, .vabs o, .vneg o, .vsat o, .vcvt o, .vrcp o, .vrsq o, .vexp2 o, .vlog2 o, .vsincos o].map
    fun i => (i, [if o.hasR then o.rc else o.ra], [o.ra])
  let move := [Instr.vshuf o, .vzip o, .vunzip o].map fun i => (i, [o.rb, o.rc], [o.ra])
  two ++ acc ++ un ++ move ++ [(.vbcast o, if o.sel = 2 then [] else [if o.hasR then o.rc else o.ra], [o.ra]), (.vcmp o, twoRegs o, []), (.vtunp o, [o.rc], [o.ra]), (.vlds o, [], [o.ra]),
    (.vldx o, [o.rc], [o.ra]), (.vsts o, [o.ra], [])] ++ (if o.bl = 0 then [(.vld o, [], [o.ra]), (.vst o, [o.ra], [])] else [])

/-- What a bound unit supplies (spec/08 R178–R180, R183, R185): a generator its next elements, one in each lane, and zero past its
last; a channel unit the next bytes of the item that it holds, or else of the next item, past those that lower units of the
instruction take (log 18); a link its next word, ganged two, the low half first.  What it is offered: a generator queues the
stores of the register's elements, each at its own address under the PHASE in force; a link takes the register's words.  A
register without a bound unit is read and written itself. -/
def StreamValues : Prop :=
  ∀ (s : State) (f n : Nat) (reads : List Nat) (seq v : Nat), n < 4 →
    let x := s.frame f
    let core := coreOf f
    let got := s.srcV f (28 + n) reads
    let t := s.dstV f (28 + n) seq v
    let words := if x.gang then 2 else 1
    (∀ r, x.unitAt r = none → s.srcV f r reads = s.vreg f r ∧ s.dstV f r seq v = s.setVreg f r v) ∧
    ∀ u, x.unitAt (28 + n) = some u →
      let et := ET.ofCode u.et
      let cnt := (if x.gang then 256 else 128) / et.width
      let k := min cnt (u.count - u.next)
      let item := if u.item ≠ [] then u.item else
        ((s.chan (clusterOf core) u.id).ready (x.takersBefore reads n u)).getD []
      (u.kind = .gen →
        (∀ e < cnt, laneAt got et.width e = laneOf (if et = .ci12 then 2 else 0) (u.data.getD e 0).toNat % 2 ^ et.width) ∧
        ∃ sts : List UStore, t = s.setUnit f n { u with
            next := u.next + k, stores := u.stores ++ [sts], phases := u.phases ++ [(s.frame (s.named f)).phase] } ∧
          (∀ st ∈ sts, st.seq = seq ∧ st.ready = true ∧ u.next ≤ st.elem ∧ st.elem < u.next + k) ∧
          ∀ i < k, ∀ b < et.msize, ∃ st ∈ sts, st.elem = u.next + i ∧ st.addr ≤ u.elemAddr (u.next + i) + b ∧
            u.elemAddr (u.next + i) + b < st.addr + st.size ∧
            st.data.toNat / 256 ^ (u.elemAddr (u.next + i) + b - st.addr) % 256 = memOf et (laneAt v et.width i) / 256 ^ b % 256) ∧
      (u.kind = .chan → ∀ i < (if x.gang then 32 else 16), got / 256 ^ i % 256 = (item.getD i 0).toNat) ∧
      (u.kind = .nbr →
        (∀ i < words, laneAt got 128 i = ((s.linkWords core (inLink core u.id)).getD i 0).toNat) ∧
        t = s.setLinkWords core (outLink core u.id) (s.linkWords core (outLink core u.id) ++
          (List.range words).map fun i => BitVec.ofNat 128 (laneAt v 128 i)))

/-- A vector instruction that names a bound stream which cannot supply or accept a register now is held back; one that the binding
forbids raises 0x0E with the unit in TADDR and the reason in DETAIL; one that goes on takes from each address generator that it
reads and does not write the elements of one register, or those that remain (spec/08 R178, R180, R190). -/
def StreamOperands : Prop :=
  ∀ (o : Opnd) (s : State) (i : Instr) (reads writes : List Nat), (i, reads, writes) ∈ streamForms o → s.halt = none →
    (s.streamTest s.cur reads writes = .hold → exec i s = .next s) ∧
    (∀ u r h, s.streamTest s.cur reads writes = .trap u r h →
      exec i s = .next (s.trap 0x0E (r + h * 256) (BitVec.ofNat 64 u))) ∧
    (s.streamTest s.cur reads writes = .ok → ∀ t n u, exec i s = .next t → t.me.pc = s.next i → t.cur = s.cur →
      s.me.unitAt (28 + n) = some u → u.kind = .gen → 28 + n ∈ reads → 28 + n ∉ writes →
      let k := min ((if s.me.gang then 256 else 128) / (ET.ofCode u.et).width) (u.count - u.next)
      t.me.units[n]? = some { u with next := u.next + k, data := u.data.drop k })

/-- What bound streams supply and are offered, and when an instruction waits or traps for one (spec/08 R178, spec/08 R179,
spec/08 R180, spec/08 R183, spec/08 R185, spec/08 R190, spec/07 R151). Which of two units of one channel takes the earlier
item, and a gang's read of what single reads have left, are the model's reading (log 18). -/
def Obligations.StreamOperandsHoldOrTrap : Prop :=
  StreamValues ∧ StreamOperands

/-! ### Vector loads and stores (spec/07 R166–R169) -/

/-- The record's accesses store the byte `b` at `addr`. -/
def storesByte (a : Acc) (addr : Nat) (b : Byte) : Prop :=
  ∃ p ∈ a.parts, p.base ≤ addr ∧ addr < p.base + p.size ∧ p.mask.getLsbD (addr - p.base) = true ∧
    b = BitVec.ofNat 8 (p.data.toNat / 256 ^ (addr - p.base))

/-- The record's accesses read the byte at `addr`. -/
def readsByte (a : Acc) (addr : Nat) : Prop :=
  ∃ p ∈ a.parts, p.base ≤ addr ∧ addr < p.base + p.size ∧ p.mask.getLsbD (addr - p.base) = true

/-- The pieces of memory that an instruction moves hold the byte `b` at `addr`. -/
def pieceByte (ps : List Piece) (addr : Nat) (b : Byte) : Prop :=
  ∃ q ∈ ps, ∃ i, i < q.size ∧ addr = q.addr + i ∧ b = BitVec.ofNat 8 (q.val / 256 ^ i)

/-- A vector store stores exactly the bytes of its pieces, or nothing when it has none, and goes on; DETAIL of its late outcomes
names `reg` (spec/07 R168). -/
def StoresPieces (u : State) (i : Instr) (s : State) (reg : Nat) (ps : List Piece) : Prop :=
  (ps = [] → ∃ t, exec i s = .next t ∧ GoesTo u t (u.next i)) ∧
  (ps ≠ [] → ∃ t a, exec i s = .next t ∧ Issues u t a (u.next i) ∧ a.op = .store ∧ a.frame = u.cur ∧ a.areg = reg ∧
    (∀ p ∈ a.parts, p.stage = .waiting) ∧ ∀ addr b, storesByte a addr b ↔ pieceByte ps addr b)

/-- A vector load issues accesses of the bytes of its pieces, its result bound for `ret` in the register `reg`, and goes on. -/
def LoadsPieces (u : State) (i : Instr) (s : State) (reg : Nat) (ps : List Piece) (ret : Ret) : Prop :=
  ∃ t a, exec i s = .next t ∧ Issues u t a (u.next i) ∧ a.op = .load ∧ a.frame = u.cur ∧ a.areg = reg ∧ a.ret = ret ∧
    (∀ p ∈ a.parts, p.stage = .waiting) ∧ ∀ addr, readsByte a addr ↔ ∃ b, pieceByte ps addr b

/-- The checks of spec/04 R98 on the elements `spans` of the instruction `i`: when they pass, `done` holds of the state `u`, which
holds what they have cached besides; when one fails, `i` traps with what it found (spec/07 R168). -/
def Checked (s : State) (i : Instr) (need : Need) (align : Nat) (spans : List (Nat × Nat)) (done : State → Prop) : Prop :=
  ∀ u : State,
    (s.vecCheck need align spans = (u, none) → u.cur = s.cur → u.frames = s.frames → done u) ∧
    ∀ c d x, s.vecCheck need align spans = (u, some (c, d, x)) → exec i s = .next (u.trap c d (BitVec.ofNat 64 x))

/-- VST and VLD of one register move its active elements, packed as their type says, at gB plus 16 × offset; VSTS and VLDS at a
stride from gC; VLDX at an index vector scaled by the memory size (spec/07 R166, R167), once the checks of R98 pass on every
element (`vecCheck`); a check that fails traps.  A register that a stream unit backs supplies its next value (`srcV`), which
the instruction takes (`takeUnits`), or accepts the register that is loaded (`reserveV`), when its unit can
(spec/08 R178, R180). -/
def VectorMemoryElements : Prop :=
  ∀ (o : Opnd) (s : State), s.halt = none →
    let t := o.et
    let w := t.width
    let ea := memAddress s o 16
    let acts := (List.range (elemCount s w)).filter fun e => isActive s o w (if t = .int12 then e / 2 * 2 else e)
    let gov := (List.range (elemCount s w)).filter (isActive s o w)
    let zero (l : List Nat) : List (Nat × Nat) :=
      if o.zm then ((List.range (elemCount s w)).filter fun e => !l.contains e).map fun e => (e * w, w) else []
    let strided (e : Nat) : Nat := (((ea : Int) + e * (s.g o.rc).toInt) % (2 ^ 64 : Nat)).toNat
    let indexed (e : Nat) : Nat := (ea + laneAt (s.srcV s.cur o.rc) w e * t.msize) % 2 ^ 64
    let each (addr : Nat → Nat) (v : Nat) : List Piece := gov.map fun e => ⟨e, addr e, t.msize, laneAt v w e⟩
    let ret (addr : Nat → Nat) : Ret := .v o.ra 1 (gov.map fun e => (e * w, w, addr e * 8, t.msize * 8, 3)) (zero gov)
    let near : List (Nat × Nat) := acts.map (elemSpan t ea)
    let spans (addr : Nat → Nat) : List (Nat × Nat) := gov.map fun e => (addr e, t.msize)
    let stores := s.streamTest s.cur [o.ra] [] = .ok
    let loads := s.streamTest s.cur [] [o.ra] = .ok
    let takes (u : State) : State := u.takeUnits s.cur [o.ra]
    let offers (u : State) : State := u.reserveV s.cur o.ra s.me.seq
    (o.bl = 0 → stores → Checked s (.vst o) .w (elemAlign t) near fun u =>
      StoresPieces (takes u) (.vst o) s o.ra (vecPieces t ea (s.srcV s.cur o.ra) acts)) ∧
    (o.bl = 0 → loads → Checked s (.vld o) .r (elemAlign t) near fun u =>
      LoadsPieces (offers u) (.vld o) s o.ra (vecPieces t ea 0 acts) (.v o.ra 1 (acts.map (elemRet t ea)) (zero acts))) ∧
    (stores → Checked s (.vsts o) .w t.msize (spans strided) fun u =>
      StoresPieces (takes u) (.vsts o) s o.ra (each strided (s.srcV s.cur o.ra))) ∧
    (loads → Checked s (.vlds o) .r t.msize (spans strided) fun u =>
      LoadsPieces (offers u) (.vlds o) s o.ra (each strided 0) (ret strided)) ∧
    (s.streamTest s.cur [o.rc] [o.ra] = .ok → Checked s (.vldx o) .r t.msize (spans indexed) fun u =>
      LoadsPieces (offers (u.takeUnits s.cur [o.rc])) (.vldx o) s o.ra (each indexed 0) (ret indexed))

/-- A burst VLD or VST of BL + 1 words moves consecutive 8-byte words of consecutive registers (spec/07 R166); one whose length is no
multiple of a register or that runs past v31 is illegal; one over a bound stream register raises 0x0E; a check that fails
traps; and a VST of eight words to a whole post line is a post, under the phase guard (spec/15 R333, spec/09 R220). -/
def VectorBursts : Prop :=
  ∀ (o : Opnd) (s : State), s.halt = none → o.bl ≠ 0 →
    let wpr := if s.me.gang then 4 else 2
    let regs := max 1 ((o.bl + 1) / wpr)
    let ea := memAddress s o 16
    let words (v : Nat → Nat) : List Piece := (List.range (o.bl + 1)).map fun i => ⟨i, (ea + 8 * i) % 2 ^ 64, 8, v i⟩
    let spans : List (Nat × Nat) := (List.range (o.bl + 1)).map fun i => ((ea + 8 * i) % 2 ^ 64, 8)
    let fits := (o.bl + 1) % wpr = 0 ∧ o.ra + regs ≤ 32
    let stored : List Piece := words fun i => laneAt (s.vreg s.cur (o.ra + i / wpr)) 64 (i % wpr)
    (postLine ea o.bl = none → fits → s.burstUnit o = none → Checked s (.vst o) .w 8 spans fun u =>
      StoresPieces u (.vst o) s o.ra stored) ∧
    (fits → s.burstUnit o = none → Checked s (.vld o) .r 8 spans fun u =>
      LoadsPieces u (.vld o) s o.ra (words fun _ => 0) (.v o.ra regs ((List.range (o.bl + 1)).map fun i =>
          (i / wpr * 256 + i % wpr * 64, 64, (ea + 8 * i) % 2 ^ 64 * 8, 64, 0)) [])) ∧
    (¬ fits → exec (.vld o) s = .next (s.illegalValue (.vld o)) ∧ exec (.vst o) s = .next (s.illegalValue (.vst o))) ∧
    (fits → ∀ r, 28 ≤ r → r < 32 → s.burstUnit o = some r →
      exec (.vld o) s = .next (s.trap 0x0E 0x0C (BitVec.ofNat 64 (r - 28))) ∧
      exec (.vst o) s = .next (s.trap 0x0E 0x0C (BitVec.ofNat 64 (r - 28)))) ∧
    (∀ tag u, postLine ea o.bl = some tag → fits → s.burstUnit o = none →
      (s.postCheck s.cur tag = (u, none) → u.cur = s.cur → u.frames = s.frames →
        (u.guardBreach s.cur ea 64 = none → StoresPieces u (.vst o) s o.ra stored) ∧
        ∀ b, u.guardBreach s.cur ea 64 = some b → exec (.vst o) s = .next (u.trap 0x07 0 (BitVec.ofNat 64 b))) ∧
      (∀ c d, s.postCheck s.cur tag = (u, some (c, d)) →
        exec (.vst o) s = .next (u.trap c d (BitVec.ofNat 64 ea))))

/-- Vector loads, stores and bursts move the bytes of their elements (spec/07 R166, spec/07 R167, spec/07 R169, spec/15 R333).
Late outcomes of a load into a bound register are log 18. -/
def Obligations.VectorMemory : Prop :=
  VectorMemoryElements ∧ VectorBursts

/-! ### Gangs, stream units, FENCEX and the inbox (spec/06 R137, R139; spec/08) -/

/-- A frame past its instruction, in another state and with another gang mark. -/
def pastFrame (x : Frame) (n : Nat) (gang : Bool) (st : FStat) : Frame :=
  { x with pc := pcAfter x.pc n, seq := x.seq + 1, since := 0, prog := 0, gang := gang, stat := st }

/-- GANG: a thread whose partner slot waits at its own GANG forms the gang with it, run by the even slot (spec/06 R137); one whose
partner does not wait yet waits; a slot without a live partner of its launch raises 0x01, and an odd slot with a bound
stream unit 0x0E reason 0x0B (spec/08 R187). -/
def GangForms : Prop :=
  ∀ (o : Opnd) (s : State) (p : Nat), s.halt = none →
    let n := (encode (.gang o)).length
    let even := if slotOf s.cur % 2 = 0 then s.cur else p
    let odd := if slotOf s.cur % 2 = 0 then p else s.cur
    let bad := s.onTile = false ∨ slotOf s.cur = 4 ∨ s.me.gang = true ∨ (s.frame p).stat = .free ∨
      (s.frame p).launch ≠ s.me.launch
    let plain := ∀ k < 4, (s.me.units.getD k Unit.none).kind = .unbound
    let waits := (s.frame p).stat = .ready ∧ (s.frame p).prog = gangMark
    p = (if slotOf s.cur % 2 = 0 then s.cur + 1 else s.cur - 1) →
    (bad → exec (.gang o) s = .next (s.illegalValue (.gang o))) ∧
    (¬ bad → slotOf s.cur % 2 = 1 → ∀ k < 4, (s.me.units.getD k Unit.none).kind ≠ .unbound →
      (∀ j < k, (s.me.units.getD j Unit.none).kind = .unbound) →
      exec (.gang o) s = .next (s.trap 0x0E 0x0B (BitVec.ofNat 64 k))) ∧
    (¬ bad → (slotOf s.cur % 2 = 0 ∨ plain) → waits →
      ∃ t, exec (.gang o) s = .next t ∧ Within s t [s.cur, p] ∧ t.frame even = pastFrame (s.frame even) n true .ready ∧
        t.frame odd = pastFrame (s.frame odd) n (s.frame odd).gang .gangOdd) ∧
    (¬ bad → (slotOf s.cur % 2 = 0 ∨ plain) → ¬ waits →
      ∃ t, exec (.gang o) s = .next t ∧ Within s t [s.cur] ∧ t.me = { s.me with prog := gangMark })

/-- UNGANG: both slots are ready at their own program counters (spec/06 R139); outside a gang it is illegal. -/
def UngangSplits : Prop :=
  ∀ (o : Opnd) (s : State), s.halt = none →
    (s.me.gang = true → ∃ t, exec (.ungang o) s = .next t ∧ Within s t [s.cur, oddOf s.cur] ∧
      t.me = pastFrame s.me (encode (.ungang o)).length false s.me.stat ∧
      t.frame (oddOf s.cur) = { s.frame (oddOf s.cur) with stat := .ready }) ∧
    (s.me.gang = false → exec (.ungang o) s = .next (s.illegalValue (.ungang o)))

/-- GANG forms a gang of two slots and UNGANG splits it (spec/06 R137, spec/06 R139, spec/08 R187). That TADDR names the lowest
of several bound units of the odd slot is the model's reading (log 18); spec/08 R187 and R190 name one unit. -/
def Obligations.Gangs : Prop :=
  GangForms ∧ UngangSplits

/-- The instructions of page 2 that the cores of tiles alone execute (spec/06 R146). -/
def tileOnlyForms (o : Opnd) : List Instr :=
  [.stbind o, .stbindc o, .stbindn o, .ststat o, .stunbind o, .cpy o, .cpy2 o, .cpyg o, .cpys o, .cpyt o, .inpop o, .inpeek o,
   .tdef o, .tstate o, .trel o, .mma o, .mmac o, .mtern o, .mlda o, .msta o, .mzero o, .mwait o, .mstat o, .fencex o,
   .fencexCopy o, .fencexMatrix o]

/-- A dispatch or management core raises 0x01 for them (spec/06 R146). -/
def TileInstructionsIllegalElsewhere : Prop :=
  ∀ (o : Opnd) (s : State) (i : Instr), i ∈ tileOnlyForms o → s.halt = none → s.onTile = false →
    exec i s = .next (s.illegalValue i)

/-- Unit `n` of the executing frame ends its binding: a channel unit frees the slot of an item it holds, and its register reads
zero, as it does where another binding takes its place (`binds`); nothing else differs (spec/08 R189, spec/01 R16). -/
structure Unbound (s u : State) (n : Nat) (binds : Bool) : Prop where
  rest    : u = { s with frames := u.frames, chans := u.chans }
  others  : ∀ k, k ≠ s.cur → u.frame k = { s.frame k with v := (u.frame k).v }
  vectors : ∀ k, k ≠ s.cur → k ≠ oddOf s.cur → (u.frame k).v = (s.frame k).v
  kept    : u.me = { s.me with v := u.me.v, units := u.me.units }
  units   : ∀ k < 4, k ≠ n → u.me.units.getD k Unit.none = s.me.units.getD k Unit.none
  unbound : (u.me.units.getD n Unit.none).kind = .unbound
  value   : ∀ k < 32, u.vreg s.cur k =
    if k = 28 + n ∧ (binds = true ∨ (s.me.units.getD n Unit.none).kind ≠ .unbound) then 0 else s.vreg s.cur k
  chans   : ∀ k, lookD u.chans k .none =
    if (s.me.units.getD n Unit.none).kind = .chan ∧ (s.me.units.getD n Unit.none).item ≠ [] ∧
      k = clusterOf (coreOf s.cur) * 64 + (s.me.units.getD n Unit.none).id
    then { lookD s.chans k .none with taken := (lookD s.chans k .none).taken - 1 } else lookD s.chans k .none

/-- The instruction binds unit `n` to `b` once what the unit had to do is done, and holds until then (spec/08 R177, R189). -/
def Binds (s : State) (i : Instr) (n : Nat) (b : Machine.Unit) : Prop :=
  (s.unitIdle s.cur n = true →
    ∃ u t, exec i s = .next t ∧ Unbound s u n true ∧ GoesTo (u.setUnit s.cur n { b with seq := s.me.seq }) t (s.next i)) ∧
  (s.unitIdle s.cur n = false → exec i s = .next s)

/-- STBIND, STBINDC and STBINDN bind a unit; an invalid configuration raises 0x0E with reason 0x05, a span outside the own L1
0x06, an undeclared channel 0x07 and a flow that another unit of the core holds 0x08 (spec/08 R179, R183, R185, R190). -/
def StreamBindings : Prop :=
  ∀ (o : Opnd) (s : State), s.halt = none → s.onTile = true →
    let cfg := (s.g o.rc).toNat
    let et := ET.ofCode (cfg % 16)
    let stride := sextNat (cfg / 2 ^ 32) 32
    let gen : Machine.Unit := { Unit.none with
      kind := .gen, dir := cfg.testBit 4, et := cfg % 16, count := cfg / 256 % 2 ^ 24, stride := stride
      base := (s.g o.rb).toNat }
    let bad := cfg / 32 % 8 ≠ 0 ∨ cfg / 256 % 2 ^ 24 = 0 ∨ et = .int12 ∨
      (et ≠ .ci12 ∧ ((s.g o.rb).toNat % et.msize ≠ 0 ∨ stride % et.msize ≠ 0))
    let addr (i : Nat) : Nat := (((s.g o.rb).toNat + (i : Int) * stride) % (2 ^ 64 : Nat)).toNat
    let outside := l1Bytes ≤ addr 0 ∨ l1Bytes ≤ addr (gen.count - 1) + et.msize - 1
    (o.ra < 4 → ¬ bad → ¬ outside → Binds s (.stbind o) o.ra gen) ∧
    (bad → exec (.stbind o) s = .next (s.trap 0x0E 5 (BitVec.ofNat 64 o.ra))) ∧
    (¬ bad → outside → exec (.stbind o) s = .next (s.trap 0x0E 6 (BitVec.ofNat 64 o.ra))) ∧
    (o.ra < 4 → s.declares s.cur o.uimm 1 = true →
      Binds s (.stbindc o) o.ra { Unit.none with kind := .chan, id := o.uimm }) ∧
    (s.declares s.cur o.uimm 1 = false → exec (.stbindc o) s = .next (s.trap 0x0E 7 (BitVec.ofNat 64 o.ra))) ∧
    (s.flowTaken s.cur (o.ra % 4) o.uimm = false →
      Binds s (.stbindn o) (o.ra % 4) { Unit.none with kind := .nbr, id := o.uimm, dir := o.ra.testBit 2 }) ∧
    (s.flowTaken s.cur (o.ra % 4) o.uimm = true →
      exec (.stbindn o) s = .next (s.trap 0x0E 8 (BitVec.ofNat 64 (o.ra % 4))))

/-- STUNBIND ends a binding once it has drained; STSTAT reads the unit's kind, direction, fault with its cause and address, or the
elements or bytes that remain and its channel or side (spec/08 STSTAT, R189). -/
def StreamUnbindAndStatus : Prop :=
  ∀ (o : Opnd) (s : State), s.halt = none → s.onTile = true →
    let u := s.me.units.getD (o.uimm % 4) Unit.none
    (o.ra < 4 → s.unitIdle s.cur o.ra = true →
      ∃ u t, exec (.stunbind o) s = .next t ∧ Unbound s u o.ra false ∧ GoesTo u t (s.next (.stunbind o))) ∧
    (s.unitIdle s.cur o.ra = false → exec (.stunbind o) s = .next s) ∧
    (∃ t w, exec (.ststat o) s = .next t ∧ WritesG s t o.ra w (s.next (.ststat o)) ∧
      w.toNat % 4 = (match u.kind with | .unbound => 0 | .gen => 1 | .chan => 2 | .nbr => 3) ∧
      w.getLsbD 2 = u.dir ∧ w.getLsbD 3 = u.fault.isSome ∧
      (∀ c a, u.fault = some (c, a) → w.toNat / 2 ^ 9 % 2 ^ 7 = c % 2 ^ 7 ∧ w.toNat / 2 ^ 16 = a % 2 ^ 48) ∧
      (u.fault = none → w.toNat / 2 ^ 16 % 2 ^ 24 =
          (match u.kind with | .gen => u.count - u.next | .chan => u.item.length | _ => 0) % 2 ^ 24 ∧
        w.toNat / 2 ^ 40 = (match u.kind with | .chan | .nbr => u.id % 64 | _ => 0)))

/-- Stream units bind, unbind and report (spec/08 R177, spec/08 R179, spec/08 R183, spec/08 R185, spec/08 R189, spec/08 R190,
spec/01 R16). That the register of a unit that is bound holds zero is the model's reading (log 18); spec/01 R16 only
discards its value. -/
def Obligations.StreamInstructions : Prop :=
  StreamBindings ∧ StreamUnbindAndStatus

/-- FENCEX of each path holds until every store of the thread is performed, and then orders every write so far before the later
commands of the engines that it selects, which capture its mark and need not miss any of these writes, and goes on
(spec/08 R196; log 35). -/
def FencexWaitsForStores : Prop :=
  ∀ (o : Opnd) (s : State) (i : Instr) (copy mat : Bool),
    (i, copy, mat) ∈ [(Instr.fencex o, true, true), (.fencexCopy o, true, false), (.fencexMatrix o, false, true)] →
    s.halt = none → s.onTile = true →
    let done := (∀ a ∈ s.accs, a.frame = s.cur → a.writes = true → ∀ p ∈ a.parts, p.stage = .performed) ∧
      (∀ t ∈ s.me.tickets, t = none) ∧ ∀ u ∈ s.me.units.toList, u.stores = []
    let v := s.setFrame s.cur { s.me with fenceC := if copy then s.olds else s.me.fenceC
                                          fenceM := if mat then s.olds else s.me.fenceM }
    (done → ∃ t, exec i s = .next t ∧ GoesTo v t (s.next i)) ∧ (¬ done → exec i s = .next s) ∧
    (∀ op a b c x, (if op ∈ [COp.mma, .mmac, .mtern, .mlda, .msta, .mzero] then mat else copy) = true →
      (v.command op o a b c x).fenced = s.olds) ∧
    ((∀ w ∈ s.unfenced, w.num < s.olds) → ∀ q loc, s.unseen s.olds q loc = [])

/-- INPEEK reads the oldest entry of the frame, or 0; INPOP takes it, and holds while there is none.  A popped completion merges
the flags of its command, and then raises 0x0D for ERR, or 0x11 for a copy that ended DEAD (spec/08 R194, INPOP). -/
def InboxPopAndPeek : Prop :=
  ∀ (o : Opnd) (s : State), s.halt = none → s.onTile = true →
    (∃ t, exec (.inpeek o) s = .next t ∧
      WritesG s t o.ra (match s.myInbox.take s.cur with | some (e, _) => e.word | none => 0) (s.next (.inpeek o))) ∧
    (s.myInbox.take s.cur = none → exec (.inpop o) s = .next s) ∧
    (∀ e x, s.myInbox.take s.cur = some (e, x) →
      let w := e.word.toNat
      let l := s.cmdFlags s.cur e
      let tag := BitVec.ofNat 64 (w / 65536 % 65536)
      let s1 := s.updCore s.myCore fun c => c.setInbox s.inUrgent x
      ∃ u, WritesG s1 u o.ra e.word (s.next (.inpop o)) ∧
        (w % 16 ≠ 1 → w % 16 ≠ 2 → exec (.inpop o) s = .next u) ∧
        (w % 16 = 1 ∨ w % 16 = 2 →
          ∃ v, Within u v [s.cur, s.named s.cur] ∧
            (v.frame (s.named s.cur)).flags = (u.frame (s.named s.cur)).flags |||
              (if lowestWith l 255 = none then 0 else BitVec.ofNat 64 (orFlags l)) ∧
            v.me.cmds = u.me.cmds.map (fun c => if e.serial = some c.serial then { c with merged := true, popped := true } else c) ∧
            v.me.g = u.me.g ∧ v.me.pc = u.me.pc ∧
            (w.testBit 5 = true → exec (.inpop o) s = .next (v.trap 0x0D (w % 16 - 1) tag)) ∧
            (w.testBit 5 = false → w % 16 = 1 → w / 256 % 256 = 7 → exec (.inpop o) s = .next (v.trap 0x11 0 tag)) ∧
            (w.testBit 5 = false → ¬ (w % 16 = 1 ∧ w / 256 % 256 = 7) → enabledOf s l = 0 → exec (.inpop o) s = .next v) ∧
            (w.testBit 5 = false → ¬ (w % 16 = 1 ∧ w / 256 % 256 = 7) → enabledOf s l ≠ 0 →
              ∃ c el, exec (.inpop o) s = .next (v.trap c (enabledOf s l + 256) el) ∧ (c = 0x08 ∨ c = 0x09))))

/-- INPOP, INPEEK and FENCEX (spec/08 R194, spec/08 R196). -/
def Obligations.InboxAndFencex : Prop :=
  InboxPopAndPeek ∧ FencexWaitsForStores

/-! ### The tile table and engine commands (spec/10, spec/11) -/

/-- A descriptor of the executing core's tile after the change; every other descriptor, frame and part of the machine stands. -/
structure DescTakes (s v : State) (n : Nat) (d : Desc) : Prop where
  rest  : v = { s with tiles := v.tiles }
  desc  : ∀ k, (v.tile (tileOf s.myCore)).desc k = if k = n then d else (s.tile (tileOf s.myCore)).desc k
  tile  : v.tile (tileOf s.myCore) = { s.tile (tileOf s.myCore) with descs := (v.tile (tileOf s.myCore)).descs }
  tiles : ∀ k, k ≠ tileOf s.myCore → v.tile k = s.tile k

/-- TDEF defines an EMPTY descriptor and waits for one that is not; TSTATE reads one; TREL releases a READY one, which stays
DRAINING while it has readers, has no effect on an EMPTY or DRAINING one and waits for a fill (spec/10 R223–R226).  Both hold
while a command of an engine that waits will now be taken on the descriptor: that comes first (R227).  A number that the frame
may not name, and a shape or base that R224 does not permit, raise 0x01 with the value; a span that the thread may not store
to raises 0x05 with its lowest such byte. -/
def Obligations.TileTableInstructions : Prop :=
  ∀ (o : Opnd) (s : State), s.halt = none → s.onTile = true →
    let n := (s.g o.ra).toNat
    let b := (s.g o.rb).toNat
    let d (k : Nat) : Desc := (s.tile (tileOf s.myCore)).desc k
    let names (k : Nat) : Prop := s.descAllowed s.cur k = true
    let wanted (u : State) (k : Nat) : Prop := u.descWanted [false, true] (tileOf s.myCore) k = true
    (∀ u, names n → shapeOk (s.g o.rc) = true → b % 8 = 0 → s.spanDenied s.cur b (shapeSpan (s.g o.rc)) = (u, none) →
      u.cur = s.cur → u.frames = s.frames →
      (((u.tile (tileOf s.myCore)).desc n).st = .empty → ¬ wanted u n → ∃ v t, exec (.tdef o) s = .next t ∧
        DescTakes u v n { (u.tile (tileOf s.myCore)).desc n with
          shape := s.g o.rc, base := b, defd := true, err := false, owner := if s.inHandler then some s.cur else none } ∧
        GoesTo v t (s.next (.tdef o))) ∧
      (((u.tile (tileOf s.myCore)).desc n).st ≠ .empty ∨ wanted u n → exec (.tdef o) s = .next u)) ∧
    (∀ u x a, names n → shapeOk (s.g o.rc) = true → b % 8 = 0 →
      s.spanDenied s.cur b (shapeSpan (s.g o.rc)) = (u, some (x, a)) →
      exec (.tdef o) s = .next (u.trap 0x05 x (BitVec.ofNat 64 a))) ∧
    (names n → shapeOk (s.g o.rc) = false → exec (.tdef o) s = .next (s.illegalAddr (.tdef o) (s.g o.rc))) ∧
    (names n → shapeOk (s.g o.rc) = true → b % 8 ≠ 0 → exec (.tdef o) s = .next (s.illegalAddr (.tdef o) (s.g o.rb))) ∧
    (¬ names n → exec (.tdef o) s = .next (s.illegalAddr (.tdef o) (s.g o.ra))) ∧
    (¬ names b → exec (.tstate o) s = .next (s.illegalAddr (.tstate o) (s.g o.rb)) ∧
      exec (.trel o) s = .next (s.illegalAddr (.trel o) (s.g o.rb))) ∧
    (names b → ∃ t w, exec (.tstate o) s = .next t ∧ WritesG s t o.ra w (s.next (.tstate o)) ∧
      w.toNat % 4 = (match (d b).st with | .empty => 0 | .filling => 1 | .ready => 2 | .draining => 3) ∧
      w.getLsbD 2 = (d b).defd ∧ w.getLsbD 3 = (d b).err ∧ w.getLsbD 4 = decide (56 ≤ b) ∧
      w.toNat / 2 ^ 5 % 2 ^ 3 = 0 ∧ w.toNat / 2 ^ 8 % 2 ^ 8 = (d b).readers % 2 ^ 8 ∧
      w.toNat / 2 ^ 16 = (d b).shape.toNat % 2 ^ 36) ∧
    (names b → (d b).st = .filling ∨ wanted s b → exec (.trel o) s = .next s) ∧
    (names b → (d b).st ≠ .filling → ¬ wanted s b → ∃ v t, exec (.trel o) s = .next t ∧
      DescTakes s v b (if (d b).st = .ready then { d b with st := if (d b).readers = 0 then .empty else .draining } else d b) ∧
      GoesTo v t (s.next (.trel o)))

/-- The queue of the executing frame holds one command more, which is what it held before otherwise (spec/08 R191). -/
structure Enqueued (s u : State) (mat : Bool) (c : Cmd) : Prop where
  rest   : u = { s with cores := u.cores, serials := s.serials + 1 }
  queue  : (u.core s.myCore).queue mat s.inUrgent = (s.core s.myCore).queue mat s.inUrgent ++ [c]
  others : ∀ m g, ¬ (m = mat ∧ g = s.inUrgent) → (u.core s.myCore).queue m g = (s.core s.myCore).queue m g
  cores  : ∀ k, k ≠ s.myCore → u.core k = s.core k

/-- A command that captures the executing thread's state at its issue (spec/01 R23, spec/10 R231). -/
structure Captured (s : State) (o : Opnd) (c : Cmd) (op : COp) : Prop where
  op      : c.op = op ∧ c.serial = s.serials ∧ c.frame = s.cur ∧ c.urg = s.inUrgent
  fields  : c.et = o.et.code ∧ c.et2 = o.et2 ∧ c.scope = o.scope ∧ c.strong = o.strong ∧ c.cp = o.cp ∧ c.bl = o.bl
  thread  : c.launch = s.me.launch ∧ c.arith = s.me.arith ∧ c.priv = s.me.priv ∧ c.region = s.me.region ∧ c.part = s.me.part
  named   : c.phase = (s.frame (s.named s.cur)).phase ∧ c.ltid = (s.frame (s.named s.cur)).ltid

/-- The copy commands and their names. -/
def copyForms (o : Opnd) : List (Instr × COp) :=
  [(.cpy o, .cpy), (.cpy2 o, .cpy2), (.cpyg o, .cpyg), (.cpys o, .cpys), (.cpyt o, .cpyt)]

/-- A copy command whose checks hold takes its queue entry with the registers it captures, and the thread goes on; it is held
while its queue is full (spec/08 R192, spec/10 R231, R241). -/
def CopyCommandsEnqueue : Prop :=
  ∀ (o : Opnd) (s : State) (i : Instr) (op : COp), (i, op) ∈ copyForms o → s.halt = none → s.onTile = true →
    let a := s.g o.ra
    let b := s.g o.rb
    let c := s.g o.rc
    let x := if op = .cpy then 0 else s.g (o.rc + 1)
    s.inUrgent = o.urg → ctlOk op c = true → (op = .cpyt → x.toNat < 2 ^ 32 ∧ s.descAllowed s.cur a.toNat = true) →
    (op = .cpyg ∨ op = .cpys → a.toNat % ctlSize c = 0 ∧ b.toNat % ctlSize c = 0 ∧ x.toNat % 4 = 0) →
    s.copyGuard op a c x = none →
    (((s.core s.myCore).queue false s.inUrgent).length < 2 →
      ∃ k u t, exec i s = .next t ∧ Captured s o k op ∧ k.a = a ∧ k.b = b ∧ k.c = c ∧ k.x = x ∧ Enqueued s u false k ∧
        GoesTo u t (s.next i)) ∧
    (2 ≤ ((s.core s.myCore).queue false s.inUrgent).length → exec i s = .next s)

/-- The checks of a copy command in their order: queue, control word, CPYT's stride and descriptor, alignment, guard
(spec/10 R231, R238, R241). -/
def CopyCommandChecks : Prop :=
  ∀ (o : Opnd) (s : State) (i : Instr) (op : COp), (i, op) ∈ copyForms o → s.halt = none → s.onTile = true →
    let a := s.g o.ra
    let c := s.g o.rc
    let x := if op = .cpy then 0 else s.g (o.rc + 1)
    let q := s.inUrgent = o.urg
    (¬ q → s.inUrgent = true → exec i s = .next (s.trap 0x13 0 (chainWord (encode i)))) ∧
    (¬ q → s.inUrgent = false → exec i s = .next (s.illegalValue i)) ∧
    (q → ctlOk op c = false → exec i s = .next (s.illegalAddr i c)) ∧
    (q → ctlOk op c = true → op = .cpyt → 2 ^ 32 ≤ x.toNat → exec i s = .next (s.illegalAddr i x)) ∧
    (q → ctlOk op c = true → op = .cpyt → x.toNat < 2 ^ 32 → s.descAllowed s.cur a.toNat = false →
      exec i s = .next (s.illegalAddr i a)) ∧
    (q → ctlOk op c = true → op = .cpyg ∨ op = .cpys → a.toNat % ctlSize c ≠ 0 → exec i s = .next (s.trap 0x04 0 a)) ∧
    (∀ v, q → ctlOk op c = true → op = .cpy ∨ op = .cpy2 → s.copyGuard op a c x = some v →
      exec i s = .next (s.trap 0x07 0 (BitVec.ofNat 64 v)))

/-- Copy commands are checked and take their queue entry (spec/08 R192, spec/10 R231, spec/10 R238, spec/10 R241). CPYG and CPYS
check the alignment before the phase guard (log 21, a choice of the model). -/
def Obligations.CopyCommands : Prop :=
  CopyCommandsEnqueue ∧ CopyCommandChecks

/-- A matrix command is issued: it takes its queue entry and its counter values, with RNGW where the counter wraps, and its thread
keeps a record of it; a full queue holds it (spec/11 R256, R257, R262; spec/02 R54; spec/08 R192). -/
def IssuesMatrix (s : State) (o : Opnd) (i : Instr) (op : COp) (b c : Word) (words : Nat) : Prop :=
  let fl : ElemFlags := if s.me.rngc.toNat + words < 2 ^ 48 then [] else [(0, 128)]
  (((s.core s.myCore).queue true s.inUrgent).length < 2 → enabledOf s fl = 0 →
    ∃ k u m t, exec i s = .next t ∧ Captured s o k op ∧ k.b = b ∧ k.c = c ∧ k.acc = o.ra ∧ k.ctr = s.me.rngc.toNat ∧
      Enqueued s u true k ∧ Within u m [s.named s.cur] ∧ FlagsOnly u m ∧ TakesFlags u m s.cur fl ∧ Within m t [s.cur] ∧
      t.me = { m.me with pc := s.next i, seq := s.me.seq + 1, since := 0, prog := 0,
                         rngc := BitVec.ofNat 48 (s.me.rngc.toNat + words),
                         cmds := s.me.cmds ++ [⟨k.serial, o.ra, false, [], false, k.tag, false, false⟩] }) ∧
  (2 ≤ ((s.core s.myCore).queue true s.inUrgent).length → exec i s = .next s)

/-- The operand pairs of MMA and MMAC: formats of A and of B, where 0 stands for A's own (spec/11 R244). -/
def mmaPair (a b : Nat) : Prop :=
  (a ∈ [0, 0xB, 0xC, 7, 0xD] ∧ (b = 0 ∨ b = a)) ∨ (a ∈ [0xE, 0xF] ∧ b ∈ [0, 0xE, 0xF])

/-- MMA, MMAC, MTERN, MLDA, MSTA and MZERO on an accumulator of the frame's queue, with operands that R244, R257 and R260 permit; a
full queue holds each of them.  A product in stochastic mode takes 2⌈K/8⌉MNp counter values (spec/11 R248). -/
def MatrixCommandsEnqueue : Prop :=
  ∀ (o : Opnd) (s : State), s.halt = none → s.onTile = true →
    (∀ e, s.me.launch = some e → (s.entry e).hdr.nomatrix = false) → s.inUrgent = o.urg →
    (o.ra < 4 ↔ s.inUrgent = false) →
    let b := s.g o.rb
    let c := s.g o.rc
    let n := c.toNat
    let f := (pairFmt o.et).1
    let stoch := (AR.ofWord s.me.arith).stoch
    let words := if stoch = true ∧ f.int = false then
      2 * ((n / 1024 % 256 + 1 + 7) / 8) * ((n % 32 + 1) * (n / 32 % 32 + 1) * (if f.complex then 2 else 1)) else 0
    let ok := s.descAllowed s.cur (b.toNat % 64) = true ∧ s.descAllowed s.cur (b.toNat / 256 % 64) = true ∧
      b.toNat / 64 % 4 = 0 ∧ b.toNat / 2 ^ 14 % 4 = 0 ∧ b.toNat < 2 ^ 33 ∧ n < 2 ^ 18 ∧ (f.complex = true → n / 32 % 32 < 16)
    let m := MCtl.ofWord c
    let okm (load : Bool) := mctlOk load s.me.arith b c = true ∧ (m.desc = true → s.descAllowed s.cur (b.toNat % 64) = true)
    (mmaPair o.et.code o.et2 → ok →
      IssuesMatrix s o (.mma o) .mma b c words ∧ IssuesMatrix s o (.mmac o) .mmac b c words) ∧
    (o.et.code = 0 → o.et2 = 0 → ok → IssuesMatrix s o (.mtern o) .mtern b c 0) ∧
    (okm true → IssuesMatrix s o (.mlda o) .mlda b c 0) ∧
    (okm false → IssuesMatrix s o (.msta o) .msta b c
      (if m.draws s.me.arith then m.m * m.n * (if m.oet = .cf16 then 2 else 1) else 0)) ∧
    IssuesMatrix s o (.mzero o) .mzero 0 0 0

/-- A kernel that declares NOMATRIX raises 0x01 at every matrix instruction, and one that names an accumulator of the other queue
0x13 from the urgent frame and 0x01 from a slot; then a pair that R244 does not list raises 0x01 (spec/11 R242, R256, R257). -/
def MatrixInstructionChecks : Prop :=
  ∀ (o : Opnd) (s : State) (i : Instr), s.halt = none → s.onTile = true →
    let six := [Instr.mma o, .mmac o, .mtern o, .mlda o, .msta o, .mzero o]
    (∀ e, s.me.launch = some e → (s.entry e).hdr.nomatrix = true → i ∈ .mwait o :: .mstat o :: six →
      exec i s = .next (s.illegalValue i)) ∧
    ((∀ e, s.me.launch = some e → (s.entry e).hdr.nomatrix = false) → i ∈ six →
      (s.inUrgent = true → o.urg = false → exec i s = .next (s.trap 0x13 0 (chainWord (encode i)))) ∧
      (s.inUrgent = false → o.urg = true ∨ 4 ≤ o.ra → exec i s = .next (s.illegalValue i)) ∧
      (s.inUrgent = true → o.urg = true → o.ra < 4 → exec i s = .next (s.illegalValue i)) ∧
      (s.inUrgent = o.urg → (o.ra < 4 ↔ s.inUrgent = false) →
        (¬ mmaPair o.et.code o.et2 → i = .mma o ∨ i = .mmac o → exec i s = .next (s.illegalValue i)) ∧
        (¬ (o.et.code = 0 ∧ o.et2 = 0) → i = .mtern o → exec i s = .next (s.illegalValue i))))

/-- Matrix commands are checked and take their queue entry (R256). -/
def Obligations.MatrixCommands : Prop :=
  MatrixCommandsEnqueue ∧ MatrixInstructionChecks

/-- MWAIT holds until every command of the thread on the accumulator is complete, then goes on with the flags merged of those not yet
observed; the earliest that ended with ERR and that no INPOP has observed raises 0x0D with its TAG, and else an enabled flag
traps (spec/11 R262).  It names an accumulator of the frame's own, or all; a slot that names the urgent frame's raises 0x01, and
the urgent frame that names a slot's 0x13.  MSTAT reads FAILED, NBUSY, UBUSY, QCNT, ACCST, WAITN and CHK, and 0 in the reserved
bits (spec/11 R263). -/
def Obligations.MatrixWaitAndStatus : Prop :=
  ∀ (o : Opnd) (s : State), s.halt = none → s.onTile = true →
    (∀ e, s.me.launch = some e → (s.entry e).hdr.nomatrix = false) →
    let a := o.ra
    let mine := s.me.cmds.filter fun c => a = 31 ∨ c.acc = a
    let tile := s.tile (tileOf s.myCore)
    let fresh := mine.filter fun c => !c.merged
    let fl := fresh.flatMap (·.flags)
    let err (c : CmdRec) : Bool := c.err && !c.popped
    let queue := (s.core s.myCore).queue true s.inUrgent
    let ch := tile.channel true s.inUrgent
    let works (j : Job) : Bool := coreOf j.cmd.frame == s.myCore && j.stage != .posting
    let accst (n : Nat) : Nat :=
      if (∃ c ∈ queue, c.acc = n) ∨ ∃ j ∈ ch.jobs, works j = true ∧ j.cmd.acc = n then 2
      else match (s.accum s.myCore n).st with | .clear => 0 | .held => 1 | .poisoned => 3
    let waits := (ch.wait.filter works).length
    (a = 31 ∨ (a < 4 ↔ s.inUrgent = false) →
      ((∃ c ∈ mine, c.done = false) → exec (.mwait o) s = .next s) ∧
      ((∀ c ∈ mine, c.done = true) →
        ∃ u, Within s u [s.cur, s.named s.cur] ∧ u.me.pc = s.next (.mwait o) ∧ u.me.g = s.me.g ∧ u.me.arith = s.me.arith ∧
          (∀ c ∈ u.me.cmds, (a = 31 ∨ c.acc = a) → c.merged = true ∧ err c = true) ∧
          u.me.cmds.filter (fun c => ¬ (a = 31 ∨ c.acc = a)) = s.me.cmds.filter (fun c => ¬ (a = 31 ∨ c.acc = a)) ∧
          (u.frame (s.named s.cur)).flags = fresh.foldl (fun w c =>
            w ||| (if lowestWith c.flags 255 = none then 0 else BitVec.ofNat 64 (orFlags c.flags))) (s.frame (s.named s.cur)).flags ∧
          (mine.find? err = none → enabledOf s fl = 0 → exec (.mwait o) s = .next u) ∧
          (mine.find? err = none → enabledOf s fl ≠ 0 → ∃ c el,
            exec (.mwait o) s = .next (u.trap c (enabledOf s fl + 256) el) ∧ (c = 0x08 ∨ c = 0x09)) ∧
          ∀ c, mine.find? err = some c → exec (.mwait o) s = .next (u.trap 0x0D 1 (BitVec.ofNat 64 c.tag)))) ∧
    (a ≠ 31 → s.inUrgent = false → 4 ≤ a → exec (.mwait o) s = .next (s.illegalValue (.mwait o))) ∧
    (s.inUrgent = true → a < 4 → exec (.mwait o) s = .next (s.trap 0x13 0 (chainWord (encode (.mwait o))))) ∧
    (waits < 8 → ∃ t w, exec (.mstat o) s = .next t ∧ WritesG s t o.ra w (s.next (.mstat o)) ∧ w.getLsbD 0 = tile.matFailed ∧
      w.getLsbD 1 = tile.matN.cur.any (fun j => j.stage != .posting) ∧
      w.getLsbD 2 = tile.matU.cur.any (fun j => j.stage != .posting) ∧ w.getLsbD 3 = false ∧
      w.toNat / 2 ^ 4 % 2 ^ 4 = queue.length % 4 ∧
      (∀ i < 4, w.toNat / 2 ^ (8 + 2 * i) % 4 =
        if s.inUrgent then (if i < 2 then accst (8 + i) else 0) else accst i) ∧
      w.toNat / 2 ^ 16 % 2 ^ 8 = waits ∧ w.toNat / 2 ^ 24 = tile.chk % 256)

/-! ### Barriers, wake registers and fences (spec/12) -/

/-- The barrier instructions. -/
def barrierForms (o : Opnd) : List Instr := [.bar o, .arrive o, .arriveRlx o, .bwait o, .bjoin o, .bleave o, .bstat o]

/-- The sequence number before which the odd slot's accesses come first, for its thread's own arrival (spec/12 R271, R272). -/
def oddSeq (s : State) (f t : Nat) : Option Nat := if t = (s.frame f).ltid then none else some (s.frame (oddOf f)).seq

/-- Each thread of the executing frame that is a member of its own next phase of the slot has an arrival for it on its way and
goes on to the phase after; nothing else of the machine differs (spec/12 R266). -/
structure Arrived (s u : State) (slot : Nat) (release : Bool) : Prop where
  rest   : u = { s with
    barriers := u.barriers
    arrs := s.arrs ++ (s.barActive s.cur slot).map fun t => ⟨s.cur, s.me.seq, (s.barKey s.cur slot).1, slot,
      (s.barKey s.cur slot).2.2, t, ((s.inst (s.barKey s.cur slot)).get t).np, release, oddSeq s s.cur t, false⟩ }
  thread : ∀ t, (u.inst (s.barKey s.cur slot)).get t =
    let x := (s.inst (s.barKey s.cur slot)).get t
    if t ∈ s.barActive s.cur slot then { x with np := x.np + 1 } else x
  inst   : u.inst (s.barKey s.cur slot) =
    { s.inst (s.barKey s.cur slot) with thr := (u.inst (s.barKey s.cur slot)).thr }
  others : ∀ k, k ≠ s.barKey s.cur slot → u.inst k = s.inst k

/-- ARRIVE, ARRIVE.RLX and BAR: each slot of the thread that is a member of its next phase arrives for it, with release but for
ARRIVE.RLX; a BAR then waits as a BWAIT at the boundary after it.  An arrival that would be two phases ahead is held back, and
a thread that is a member of no such phase raises 0x01 (spec/12 R266, R269, R273). -/
def BarrierArrivals : Prop :=
  ∀ (o : Opnd) (s : State), s.halt = none → s.inHandler = false → (s.barThreads s.cur).Nodup →
    let b := s.inst (s.barKey s.cur o.ra)
    let active := s.barActive s.cur o.ra
    let far := ∃ t ∈ active, b.c + 1 < (b.get t).np
    (active ≠ [] → ¬ far →
      (∃ u t, exec (.arrive o) s = .next t ∧ Arrived s u o.ra true ∧ GoesTo u t (s.next (.arrive o))) ∧
      (∃ u t, exec (.arriveRlx o) s = .next t ∧ Arrived s u o.ra false ∧ GoesTo u t (s.next (.arriveRlx o))) ∧
      ∃ u t, exec (.bar o) s = .next t ∧ Arrived s u o.ra true ∧
        GoesTo (u.updMe fun x => { x with barHold := some o.ra }) t (s.next (.bar o))) ∧
    (active ≠ [] → far → exec (.arrive o) s = .next s ∧ exec (.arriveRlx o) s = .next s ∧ exec (.bar o) s = .next s) ∧
    (active = [] → ∀ i ∈ [Instr.arrive o, .arriveRlx o, .bar o], exec i s = .next (s.illegalValue i))

/-- One thread of the frame `f` joins the slot's instance: a member from phase C where that has no member, and from C + 1 where it
has; a thread that is a member of some phase at or after C stands (spec/12 R267). -/
structure BarJoined (s u : State) (f slot t : Nat) : Prop where
  rest   : u = { s with barriers := u.barriers }
  thread : ∀ y, (u.inst (s.barKey f slot)).get y =
    let b := s.inst (s.barKey f slot)
    let q := if s.barMembers b = 0 then b.c else b.c + 1
    if y = t ∧ (b.get t).memberFrom b.c = false then ⟨q, [], q, none⟩ else b.get y
  inst   : u.inst (s.barKey f slot) = { s.inst (s.barKey f slot) with thr := (u.inst (s.barKey f slot)).thr }
  others : ∀ k, k ≠ s.barKey f slot → u.inst k = s.inst k

/-- One thread of the frame `f` leaves the slot's instance: it arrives for C when that is its next phase and it is a member of it,
and is a member of no phase at or after its next one (spec/12 R267). -/
structure BarLeft (s u : State) (f slot t : Nat) : Prop where
  rest   : u = { s with
    barriers := u.barriers
    arrs := s.arrs ++ (let b := s.inst (s.barKey f slot)
      let x := b.get t
      if x.memberFrom b.c = true ∧ x.np = b.c ∧ x.member x.np = true then
        [⟨f, (s.frame f).seq, (s.barKey f slot).1, slot, (s.barKey f slot).2.2, t, b.c, true, oddSeq s f t, false⟩] else []) }
  thread : ∀ y, (u.inst (s.barKey f slot)).get y =
    let b := s.inst (s.barKey f slot)
    let x := b.get t
    let np := if x.np = b.c ∧ x.member x.np = true then x.np + 1 else x.np
    if y = t ∧ x.memberFrom b.c = true then { x with np := np, hi := some np } else b.get y
  inst   : u.inst (s.barKey f slot) = { s.inst (s.barKey f slot) with thr := (u.inst (s.barKey f slot)).thr }
  others : ∀ k, k ≠ s.barKey f slot → u.inst k = s.inst k

/-- BJOIN and BLEAVE act for the thread, and then for the odd slot of its gang; BWAIT goes on when C has reached the next phase of
every slot, and holds until then (spec/12 R267, R269, R273).  In a handler frame every barrier instruction raises 0x01. -/
def BarrierMembership : Prop :=
  ∀ (o : Opnd) (s : State), s.halt = none →
    let b := s.inst (s.barKey s.cur o.ra)
    let odd := (s.frame (oddOf s.cur)).ltid
    let reached := ∀ t ∈ s.barThreads s.cur, (b.get t).np ≤ b.c
    (s.inHandler = false →
      (∃ m u t, exec (.bjoin o) s = .next t ∧ BarJoined s m s.cur o.ra s.me.ltid ∧
        (if s.me.gang then BarJoined m u s.cur o.ra odd else u = m) ∧ GoesTo u t (s.next (.bjoin o))) ∧
      (∃ m u t, exec (.bleave o) s = .next t ∧ BarLeft s m s.cur o.ra s.me.ltid ∧
        (if s.me.gang then BarLeft m u s.cur o.ra odd else u = m) ∧ GoesTo u t (s.next (.bleave o))) ∧
      (reached → ∃ t, exec (.bwait o) s = .next t ∧ GoesTo s t (s.next (.bwait o))) ∧
      (¬ reached → exec (.bwait o) s = .next s)) ∧
    (s.inHandler = true → ∀ i ∈ barrierForms o, exec i s = .next (s.illegalValue i))

/-- BSTAT reads the slot N for the issuing thread: SCOPE, MEMBER, NEXT, ARRIVED, AHEAD, PHASE, NMEM and NARR (spec/12 R274). -/
def BarrierStatus : Prop :=
  ∀ (o : Opnd) (s : State), s.halt = none → s.inHandler = false →
    let b := s.inst (s.barKey s.cur o.rb)
    let x := b.get s.me.ltid
    ∃ t w, exec (.bstat o) s = .next t ∧ WritesG s t o.ra w (s.next (.bstat o)) ∧
      (∀ e, s.me.launch = some e → w.toNat % 4 = (s.entry e).hdr.barscope.toNat / 4 ^ o.rb % 4) ∧
      w.getLsbD 2 = x.member b.c ∧ w.getLsbD 3 = x.member (b.c + 1) ∧
      w.getLsbD 4 = (x.member b.c && decide (b.c < x.np)) ∧ w.getLsbD 5 = (x.member (b.c + 1) && decide (b.c + 1 < x.np)) ∧
      w.toNat / 2 ^ 6 % 4 = 0 ∧ w.toNat / 2 ^ 8 % 2 ^ 16 = b.c % 2 ^ 16 ∧
      w.toNat / 2 ^ 24 % 2 ^ 16 = s.barMembers b % 2 ^ 16 ∧ w.toNat / 2 ^ 40 % 2 ^ 16 = b.arrived % 2 ^ 16 ∧
      w.toNat / 2 ^ 56 = 0

/-- Barrier arrivals, membership, waiting and status (spec/12 R266, spec/12 R267, spec/12 R269, spec/12 R273, spec/12 R274). -/
def Obligations.BarrierInstructions : Prop :=
  BarrierArrivals ∧ BarrierMembership ∧ BarrierStatus

/-- WAKE sends its bits to the thread that gA names; SLEEP takes the bits of its mask that are set, answers 0 for an empty mask and
holds while none is set (spec/12 R275, R276). -/
def WakeAndSleep : Prop :=
  ∀ (o : Opnd) (s : State), s.halt = none →
    let a := s.g o.ra
    let b := s.g o.rb
    let got := s.me.wake &&& a
    (a.toNat < 2 ^ 16 → b.toNat < 2 ^ 32 → ∃ t, exec (.wake o) s = .next t ∧
      GoesTo { s with wakes := s.wakes ++
        [let e := if s.onTile then s.me.launch else none
         ⟨s.cur, s.me.seq, e, (match e with | some n => (s.entry n).gen | none => 0), s.myCore, a.toNat, b.setWidth 32,
          if s.me.gang then some (s.frame (oddOf s.cur)).seq else none⟩] } t
        (s.next (.wake o))) ∧
    (2 ^ 16 ≤ a.toNat → exec (.wake o) s = .next (s.illegalAddr (.wake o) a)) ∧
    (a.toNat < 2 ^ 16 → 2 ^ 32 ≤ b.toNat → exec (.wake o) s = .next (s.illegalAddr (.wake o) b)) ∧
    (s.inHandler = true → exec (.sleep o) s = .next (s.illegalValue (.sleep o))) ∧
    (s.inHandler = false → 2 ^ 32 ≤ a.toNat → exec (.sleep o) s = .next (s.illegalAddr (.sleep o) a)) ∧
    (s.inHandler = false → a = 0 → ∃ t, exec (.sleep o) s = .next t ∧ WritesG s t o.ra 0 (s.next (.sleep o))) ∧
    (s.inHandler = false → a.toNat < 2 ^ 32 → a ≠ 0 → got = 0 → exec (.sleep o) s = .next s) ∧
    (s.inHandler = false → a.toNat < 2 ^ 32 → got ≠ 0 → ∃ t, exec (.sleep o) s = .next t ∧
      WritesG (s.updMe fun x => { x with wake := x.wake &&& ~~~ got }) t o.ra got (s.next (.sleep o)))

/-- Every access of the frame `f` before its instruction `seq` has been performed. -/
def DoneBefore (s : State) (f seq : Nat) : Prop :=
  (∀ a ∈ s.accs, a.frame = f → a.seq < seq → ∀ p ∈ a.parts, p.stage = .performed) ∧
  (∀ u ∈ (s.frame f).units.toList, ∀ r ∈ u.stores, ∀ x ∈ r, seq ≤ x.seq) ∧
  ∀ t ∈ (s.frame f).tickets, ∀ u, t = some u → seq ≤ u.seq

/-- Every earlier access of the executing thread has been performed. -/
def EarlierDone (s : State) : Prop := DoneBefore s s.cur s.me.seq

/-- FENCE waits for the thread's earlier accesses, in a gang those of both slots (spec/12 R278).  IFENCE waits for the thread's stores and for the tile's fills, and
empties the tile's instruction cache and the buffers of the thread's slots (spec/06 R136).  PLBINV, at S or M, drops the cached
rights of a table, or of all, at once, and goes on when the accesses that left before then are performed (spec/14 R308). -/
def FencesWait : Prop :=
  ∀ (o : Opnd) (s : State), s.halt = none →
    let a := s.g o.ra
    let stored := s.storesDone s.cur = true ∧ s.fillsTo s.myCore = false
    let done := (∀ x ∈ s.accs, x.stamp < s.me.since → x.done = true ∨ x.op = .waitrs) ∧
      ∀ x ∈ s.frames, ∀ t ∈ x.2.tickets, t = none
    let both := EarlierDone s ∧ (s.me.gang = true → DoneBefore s (oddOf s.cur) (s.frame (oddOf s.cur)).seq)
    (both → ∃ t, exec (.fence o) s = .next t ∧ GoesTo s t (s.next (.fence o))) ∧
    (¬ both → exec (.fence o) s = .next s) ∧
    (stored → ∃ u t, exec (.ifence o) s = .next t ∧ GoesTo u t (s.next (.ifence o)) ∧
      u = { s with frames := u.frames, tiles := u.tiles } ∧ t.me.ibuf = [] ∧
      (∀ k, u.tile k = if k = tileOf s.myCore then { s.tile k with icache := [] } else s.tile k) ∧
      ∀ k, u.frame k = if k = s.cur ∨ (s.me.gang = true ∧ k = oddOf s.cur) then { s.frame k with ibuf := [] } else s.frame k) ∧
    (¬ stored → exec (.ifence o) s = .next s) ∧
    (s.me.priv = .u → exec (.plbinv o) s = .next (s.privTrap (.plbinv o))) ∧
    (s.me.priv ≠ .u → a.toNat % 8 ≠ 0 → exec (.plbinv o) s = .next (s.illegalAddr (.plbinv o) a)) ∧
    (s.me.priv ≠ .u → a.toNat % 8 = 0 → s.me.since = 0 → ∃ t, exec (.plbinv o) s = .next t ∧
      t = { s with frames := t.frames, cores := t.cores } ∧ t.me = { s.me with since := s.ck + 1 } ∧
      (∀ k, k ≠ s.cur → t.frame k = s.frame k) ∧
      ∀ k, t.core k = { s.core k with plb := (s.core k).plb.filter fun e => !(a == 0 || keyTable e.1 == a.toNat) }) ∧
    (s.me.priv ≠ .u → a.toNat % 8 = 0 → s.me.since ≠ 0 →
      (done → ∃ t, exec (.plbinv o) s = .next t ∧ GoesTo s t (s.next (.plbinv o))) ∧
      (¬ done → exec (.plbinv o) s = .next s))

/-- WAKE, SLEEP, FENCE, IFENCE and PLBINV (spec/12 R275, spec/12 R276, spec/12 R278, spec/06 R136, spec/14 R308). That WAITRS
reads are not waited for by PLBINV is the model's reading (log 22). -/
def Obligations.WakeSleepAndFences : Prop :=
  WakeAndSleep ∧ FencesWait

/-! ### Tickets and Glaze (spec/13) -/

/-- The executing thread may use the instructions of spec/13: it is no handler, runs on a tile and belongs to the launch `e`
(spec/13 R294). -/
def MayTicket (s : State) (e : Nat) : Prop := s.inHandler = false ∧ s.onTile = true ∧ s.me.launch = some e

/-- The instructions of spec/13. -/
def ticketForms (o : Opnd) : List Instr :=
  [.tadd o, .topen o, .tclose o, .tskip o, .tdrain o, .gsub o, .gunsub o, .gstat o, .gflush o]

/-- They raise 0x01 in a handler frame, and on a dispatch or management core (spec/13 R294). -/
def Obligations.TicketsIllegalElsewhere : Prop :=
  ∀ (o : Opnd) (s : State) (i : Instr), i ∈ ticketForms o → s.halt = none → s.inHandler = true ∨ s.onTile = false →
    exec i s = .next (s.trap 0x01 ((encode i).length - 1 + 3 * 8) (chainWord (encode i)))

/-- Random words of a TADD that rounds stochastically: one for each part of a floating type (spec/02 R55). -/
def taddDraws (s : State) (o : Opnd) : Nat :=
  if (AR.ofWord s.me.arith).stoch then (if o.et.isFlt then 1 else if o.et = .cf16 then 2 else 0) else 0

/-- An update of the executing thread, as it stands in a ticket slot (spec/13 R283, R285). -/
structure UpdateOf (s : State) (e ea ticket : Nat) (x : Upd) : Prop where
  thread : x.frame = s.cur ∧ x.launch = e ∧ x.urg = s.inUrgent ∧ x.seq = s.me.seq
  place  : x.va = ea ∧ x.loc = (s.targetOf s.cur ea).loc ∧ x.crumb = crumbOf s.me.region ea
  ticket : x.ticket = ticket ∧ x.refused = false ∧ x.held = false

/-- The next skip update of a TSKIP leaves, for an element `step` bytes after the one before, and the last of `total` retires it;
it holds while no ticket slot is free (spec/13 R285, R289). -/
def SendsSkip (s u : State) (o : Opnd) (e base ticket step total : Nat) : Prop :=
  (u.me.freeTicket = none → exec (.tskip o) s = .next u) ∧
  ∀ n, u.me.freeTicket = some n → ∃ v t x, exec (.tskip o) s = .next t ∧ Within u v [u.cur] ∧
    v.me = { u.me with tickets := u.me.tickets.set n (some x) } ∧
    UpdateOf u e ((base + u.me.prog * step) % 2 ^ 64) ticket x ∧ x.skip = true ∧
    (total ≤ u.me.prog + 1 → GoesTo v t (s.next (.tskip o))) ∧
    (u.me.prog + 1 < total → Within v t [s.cur] ∧ t.me = { v.me with prog := u.me.prog + 1, since := step })

/-- TADD puts an update on its way and holds while no ticket slot is free; a counter that wraps over its draw sets RNGW, which traps
before the update leaves where ARITH.TE enables it (spec/02 R54, spec/05 R119); TSKIP one skip update, for the next of its elements, and
retires with the last of them, or with the only one where no window of the launch holds its address (spec/13 R285, R289); a
check of TADD's access, and a lack of the rights R and W over TSKIP's elements, traps first (spec/14 R306; log 23).  The size
and the number of the elements are those found when the TSKIP issues. -/
def TicketUpdatesIssue : Prop :=
  ∀ (o : Opnd) (s : State) (e : Nat), s.halt = none → MayTicket s e →
    let a := s.g o.ra
    let b := (s.g o.rb).toNat
    let t := (s.g o.rc).toNat
    let total := match s.windowAt e (s.targetOf s.cur b).loc with | some _ => a.toNat | none => 1
    let size := match s.windowAt e (s.targetOf s.cur b).loc with | some (_, w) => (ET.ofCode w.et).msize | none => 0
    let runs := a ≠ 0 ∧ a.toNat ≤ 65536 ∧ t < 2 ^ 16 ∧ b % 2 = 0
    let span := max 1 (size * total)
    (2 ^ 16 ≤ t → exec (.tadd o) s = .next (s.illegalAddr (.tadd o) (s.g o.rc))) ∧
    (∀ u, t < 2 ^ 16 → s.scalarCheck b o.et.msize .rw .other false = (u, none) → u.cur = s.cur → u.frames = s.frames →
      (s.me.freeTicket = none → exec (.tadd o) s = .next u) ∧
      (∀ n, s.me.freeTicket = some n → s.me.rngc.toNat + taddDraws s o < 2 ^ 48 →
        ∃ v t' x, exec (.tadd o) s = .next t' ∧ Within u v [u.cur] ∧ GoesTo v t' (s.next (.tadd o)) ∧
          v.me = { u.me with tickets := u.me.tickets.set n (some x), rngc := u.me.rngc + BitVec.ofNat 48 (taddDraws s o) } ∧
          UpdateOf u e b t x ∧ x.skip = false ∧ x.et = o.et.code ∧ x.value = a ∧ x.arith = s.me.arith ∧
          x.strong = (modsOf o).strong) ∧
      (∀ n, s.me.freeTicket = some n → 2 ^ 48 ≤ s.me.rngc.toNat + taddDraws s o →
        (enabledOf s [(0, 128)] = 0 → ∃ m v t' x, Flagged u m (taddDraws s o) [(0, 128)] ∧ exec (.tadd o) s = .next t' ∧
          Within m v [u.cur] ∧ GoesTo v t' (s.next (.tadd o)) ∧ v.me = { m.me with tickets := m.me.tickets.set n (some x) } ∧
          UpdateOf u e b t x ∧ x.skip = false ∧ x.et = o.et.code ∧ x.value = a ∧ x.arith = s.me.arith ∧
          x.strong = (modsOf o).strong) ∧
        (enabledOf s [(0, 128)] ≠ 0 → ∃ m, Flagged u m (taddDraws s o) [(0, 128)] ∧
          exec (.tadd o) s = .next (m.trap 0x08 128 0)))) ∧
    (∀ u c d y, t < 2 ^ 16 → s.scalarCheck b o.et.msize .rw .other false = (u, some (c, d, y)) →
      exec (.tadd o) s = .next (u.trap c d (BitVec.ofNat 64 y))) ∧
    (a = 0 ∨ 65536 < a.toNat → exec (.tskip o) s = .next (s.illegalAddr (.tskip o) a)) ∧
    (a ≠ 0 → a.toNat ≤ 65536 → 2 ^ 16 ≤ t → exec (.tskip o) s = .next (s.illegalAddr (.tskip o) (s.g o.rc))) ∧
    (a ≠ 0 → a.toNat ≤ 65536 → t < 2 ^ 16 → b % 2 = 1 → exec (.tskip o) s = .next (s.trap 0x04 0 (s.g o.rb))) ∧
    (∀ u d y, runs → s.me.midSkip = false → s.skipDenied s.cur b span = (u, some (d, y)) →
      exec (.tskip o) s = .next (u.trap 0x05 d (BitVec.ofNat 64 y))) ∧
    (∀ u, runs → s.me.midSkip = false → s.skipDenied s.cur b span = (u, none) → u.cur = s.cur → u.frames = s.frames →
      SendsSkip s u o e b t size total) ∧
    (runs → s.me.midSkip = true → SendsSkip s s o e b t s.me.since a.toNat)

/-- Another window of the machine overlaps `len` bytes at the location `loc`. -/
def windowMeets (s : State) (loc len : Nat) : Prop :=
  ∃ w ∈ s.windows, w.2.loc < loc + len ∧ loc < w.2.loc + w.2.nelm * (ET.ofCode w.2.et).msize

/-- TOPEN: a control word that R282 does not permit raises 0x01, a base that is not aligned 0x04, a span that the thread may not
write 0x05.  It answers FULL 1 with no window free, or eight open in the launch, OVERLAP 2, NOSPACE 3, or the window's number
in [15:8] of the result, and opens that window with every counter 0 (spec/13 R281, R282, R287, TOPEN). -/
def WindowOpens : Prop :=
  ∀ (o : Opnd) (s u : State) (e : Nat), s.halt = none → MayTicket s e →
    let b := (s.g o.rb).toNat
    let c := s.g o.rc
    let size := (ET.ofCode (c.toNat % 16)).msize
    let nelm := c.toNat / 16 % 2 ^ 24 + 1
    let loc := (u.targetOf u.cur b).loc
    let valid := ticketEt (c.toNat % 16) = true ∧ c.toNat < 2 ^ 52
    let full := (∀ n < 256, u.window n ≠ none) ∨ 8 ≤ (u.windows.filter fun w => w.2.launch == e).length
    let opens := valid ∧ b % size = 0 ∧ s.windowDenied s.cur b (nelm * size) = (u, none) ∧ u.cur = s.cur ∧ u.frames = s.frames
    let answers (v : State) (r : Nat) := ∃ t, exec (.topen o) s = .next t ∧ WritesG v t o.ra (BitVec.ofNat 64 r) (s.next (.topen o))
    let room := u.reserveSpan (dieOf s.myCore) s.me.part (4 * nelm)
    (¬ valid → exec (.topen o) s = .next (s.illegalAddr (.topen o) c)) ∧
    (valid → b % size ≠ 0 → exec (.topen o) s = .next (s.trap 0x04 0 (s.g o.rb))) ∧
    (∀ d x, valid → b % size = 0 → s.windowDenied s.cur b (nelm * size) = (u, some (d, x)) →
      exec (.topen o) s = .next (u.trap 0x05 d (BitVec.ofNat 64 x))) ∧
    (opens → full → answers u 1) ∧
    (opens → ¬ full → windowMeets u loc (nelm * size) → answers u 2) ∧
    (opens → ¬ full → ¬ windowMeets u loc (nelm * size) → room = none → answers u 3) ∧
    (∀ n k, opens → ¬ full → ¬ windowMeets u loc (nelm * size) → room = some k → n < 256 → u.window n = none →
      (∀ m < n, u.window m ≠ none) → ∃ v, answers v (n * 256) ∧ v = { u with windows := v.windows } ∧
        (∀ m, m ≠ n → v.window m = u.window m) ∧
        v.window n = some ⟨e, s.cur, s.inUrgent, loc, b, c.toNat % 16, nelm, c.toNat / 2 ^ 28 % 2 ^ 16, c.toNat / 2 ^ 44 % 2 ^ 8,
          [], [], [], dieOf s.myCore, k, 4 * nelm, s.me.part⟩)

/-- TCLOSE answers 1 for a window with an update pending or in a ticket slot, and else closes it and answers 0.  TDRAIN holds until
every counter of its range has reached its bound; over the whole window and all its tickets it merges the window's flags,
and an enabled one of them then traps (spec/13 R291, R292, TCLOSE).  A number of no window of the launch raises 0x01. -/
def WindowCloseAndDrain : Prop :=
  ∀ (o : Opnd) (s : State) (e : Nat), s.halt = none → MayTicket s e →
    let a := s.g o.ra
    let b := s.g o.rb
    let c := if o.hasR then s.g o.rc else 0
    let mine (n : Nat) (w : Window) := n < 256 ∧ s.window n = some w ∧ w.launch = e
    (∀ w, mine b.toNat w →
      let busy := s.windowPending b.toNat = true ∨ s.windowSlotted b.toNat w = true
      (busy → ∃ t, exec (.tclose o) s = .next t ∧ WritesG s t o.ra 1 (s.next (.tclose o))) ∧
      (¬ busy → ∃ t, exec (.tclose o) s = .next t ∧
        WritesG { s with windows := drop s.windows b.toNat } t o.ra 0 (s.next (.tclose o)))) ∧
    ((¬ ∃ w, mine b.toNat w) → exec (.tclose o) s = .next (s.illegalAddr (.tclose o) b)) ∧
    ((¬ ∃ w, mine a.toNat w) → exec (.tdrain o) s = .next (s.illegalAddr (.tdrain o) a)) ∧
    (∀ w, mine a.toNat w →
      let first := if o.hasR then c.toNat % 2 ^ 24 else 0
      let count := if o.hasR then c.toNat / 2 ^ 24 % 2 ^ 24 + 1 else w.nelm
      let ok := b.toNat ≤ w.ntm1 + 1 ∧ c.toNat < 2 ^ 48 ∧ first + count ≤ w.nelm
      let drained := b = 0 ∨ (w.ctr.filter fun p => first ≤ p.1 && p.1 < first + count && b.toNat ≤ p.2).length = count
      let whole := first = 0 ∧ count = w.nelm ∧ b.toNat = w.ntm1 + 1
      (w.ntm1 + 1 < b.toNat → exec (.tdrain o) s = .next (s.illegalAddr (.tdrain o) b)) ∧
      (b.toNat ≤ w.ntm1 + 1 → ¬ ok → exec (.tdrain o) s = .next (s.illegalAddr (.tdrain o) c)) ∧
      (ok → ¬ drained → exec (.tdrain o) s = .next s) ∧
      (ok → drained → ¬ whole ∨ orFlags w.wflags = 0 → ∃ t, exec (.tdrain o) s = .next t ∧ GoesTo s t (s.next (.tdrain o))) ∧
      (ok → drained → whole → orFlags w.wflags ≠ 0 → orFlags w.wflags < 256 →
        ∃ u v, GoesTo s u (s.next (.tdrain o)) ∧ Within u v [s.cur] ∧
          v.me = { u.me with flags := u.me.flags ||| BitVec.ofNat 64 (orFlags w.wflags), faultel := v.me.faultel } ∧
          (enabledOf s w.wflags = 0 → exec (.tdrain o) s = .next v) ∧
          (enabledOf s w.wflags ≠ 0 → ∃ c el, exec (.tdrain o) s = .next (v.trap c (enabledOf s w.wflags + 256) el) ∧
            (c = 0x08 ∨ c = 0x09))))

/-- TADD, TSKIP, TOPEN, TCLOSE and TDRAIN (spec/13 R281, spec/13 R282, spec/13 R283, spec/13 R285, spec/13 R287, spec/13 R289,
spec/13 R291, spec/13 R292, spec/02 R54, spec/05 R119). The lowest closed window, the rights of TADD and TSKIP, and the
checks before a skip are the model's choice (log 23). -/
def Obligations.TicketInstructions : Prop :=
  TicketUpdatesIssue ∧ WindowOpens ∧ WindowCloseAndDrain

/-- A GSUB whose checks hold takes the lowest FREE entry of the frame's range, SYNC with an initial copy and else ACTIVE, and answers
its number in [15:8]; FULL 1 when there is none, and PFULL 2 when the publisher's cluster holds 128 other spans
(spec/13 R295–R297, GSUB).  A breach of R296 raises 0x12. -/
def GlazeSubscribes : Prop :=
  ∀ (o : Opnd) (s u v : State) (e : Nat), s.halt = none → MayTicket s e →
    let a := s.g o.ra
    let sub := (s.g o.rb).toNat
    let pub := (s.g o.rc).toNat
    let len := (a.toNat % 65536 + 1) * 64
    let tile := tileOf s.myCore
    let ok := a.toNat < 2 ^ 17 ∧ s.glazeBreach s.cur sub pub len = none ∧ s.checkAddr s.cur sub 1 .w .other = (u, none) ∧
      u.checkAddr s.cur pub 1 .r .other = (v, none) ∧ v.cur = s.cur ∧ v.frames = s.frames
    let answers (w : State) (r : Nat) := ∃ t, exec (.gsub o) s = .next t ∧ WritesG w t o.ra (BitVec.ofNat 64 r) (s.next (.gsub o))
    (2 ^ 17 ≤ a.toNat → exec (.gsub o) s = .next (s.illegalAddr (.gsub o) a)) ∧
    (∀ r x, a.toNat < 2 ^ 17 → s.glazeBreach s.cur sub pub len = some (r, x) →
      exec (.gsub o) s = .next (s.trap 0x12 r (BitVec.ofNat 64 x))) ∧
    (∀ c d, a.toNat < 2 ^ 17 → s.glazeBreach s.cur sub pub len = none → s.checkAddr s.cur sub 1 .w .other = (u, some (c, d)) →
      exec (.gsub o) s = .next (u.trap 0x05 d (s.g o.rb))) ∧
    (∀ c d, a.toNat < 2 ^ 17 → s.glazeBreach s.cur sub pub len = none → s.checkAddr s.cur sub 1 .w .other = (u, none) →
      u.checkAddr s.cur pub 1 .r .other = (v, some (c, d)) → exec (.gsub o) s = .next (v.trap 0x05 d (s.g o.rc))) ∧
    (ok → (∀ n ∈ glazeRange s.cur, (v.glaze tile n).st ≠ .free) → answers v 1) ∧
    (∀ n sp pp, ok → n ∈ glazeRange s.cur → (v.glaze tile n).st = .free →
      (∀ m ∈ glazeRange s.cur, m < n → (v.glaze tile m).st ≠ .free) →
      v.glazeSpan s.cur sub = some sp → v.glazeSpan s.cur pub = some pp →
      ((pp.2.1, len) ∉ v.pubIndex pp.1 → 128 ≤ (v.pubIndex pp.1).length → answers v 2) ∧
      ((pp.2.1, len) ∈ v.pubIndex pp.1 ∨ (v.pubIndex pp.1).length < 128 → ∃ w, answers w (n * 256) ∧
        w = { v with tiles := w.tiles } ∧ w.glaze tile n =
          { GEntry.none with st := if a.getLsbD 16 then .sync else .active, owner := s.cur, launch := some e, pub := pp.2.1
                             sub := sp.2.1, len := len, subVa := sub, pcl := pp.2.2.2, since := v.ck } ∧
        ∀ k m, ¬ (k = tile ∧ m = n) → w.glaze k m = v.glaze k m))

/-- The entry after a GUNSUB (spec/13 R297): its open batch is sent, and it is FREE unless something sent is still to be applied;
a DEAD entry is FREE at once. -/
def unsubscribed (g : GEntry) : GEntry :=
  if g.st = .sync ∨ g.st = .active then
    if g.sent = [] ∧ g.opened = none then .none
    else { g with st := .closing, sent := g.sent ++ g.opened.toList, opened := none }
  else if g.st = .dead then .none
  else g

/-- GUNSUB ends a subscription: 0, NOENTRY 1 or 2 when it was CLOSING; what a DEAD entry has sent is applied at once, and the
entry is FREE (spec/13 R303).  GSTAT reads an entry: STATE, URG, PEND, LEN, PCL, POFF and SOFF.  A number outside the frame's range
raises 0x01.  GFLUSH sends every open batch once the thread's earlier accesses are performed, and then holds until what was
sent or copied before that is applied (spec/13 R295, R297, R302). -/
def GlazeEndsAndFlushes : Prop :=
  ∀ (o : Opnd) (s : State) (e : Nat), s.halt = none → MayTicket s e →
    let n := (s.g o.rb).toNat
    let tile := tileOf s.myCore
    let g := s.glaze tile n
    let v := if g.st = .dead then g.sent.foldl (fun w b => w.applyBatch tile g b) s else s
    (n ∈ glazeRange s.cur → ∃ t, exec (.gunsub o) s = .next t ∧ WritesG (v.setGlaze tile n (unsubscribed g)) t o.ra
      (match g.st with | .free => 1 | .closing => 2 | _ => 0) (v.next (.gunsub o))) ∧
    (n ∈ glazeRange s.cur → ∃ t w, exec (.gstat o) s = .next t ∧ WritesG s t o.ra w (s.next (.gstat o)) ∧
      w.toNat % 8 = (match g.st with | .free => 0 | .sync => 1 | .active => 2 | .closing => 3 | .dead => 4) ∧
      w.getLsbD 3 = decide (28 ≤ n) ∧
      (g.st = .free → w.toNat / 2 ^ 4 = 0) ∧
      (g.st ≠ .free → w.getLsbD 4 = (decide (g.sent ≠ []) || g.opened.isSome) ∧
        w.toNat / 2 ^ 5 % 2 ^ 16 = (g.len / 64 - 1) % 2 ^ 16 ∧ w.toNat / 2 ^ 21 % 2 ^ 4 = g.pcl % 16 ∧
        w.toNat / 2 ^ 25 % 2 ^ 19 = g.pub % l1Bytes / 64 ∧ w.toNat / 2 ^ 44 = g.sub % l1Bytes / 64)) ∧
    (n ∉ glazeRange s.cur → exec (.gunsub o) s = .next (s.illegalAddr (.gunsub o) (s.g o.rb)) ∧
      exec (.gstat o) s = .next (s.illegalAddr (.gstat o) (s.g o.rb))) ∧
    (s.me.since = 0 → ¬ EarlierDone s → exec (.gflush o) s = .next s) ∧
    (s.me.since = 0 → EarlierDone s → ∃ t, exec (.gflush o) s = .next t ∧ t = { s with tiles := t.tiles, frames := t.frames } ∧
      t.me = { s.me with since := s.ck + 1 } ∧ (∀ k, k ≠ s.cur → t.frame k = s.frame k) ∧
      (∀ k, t.tile k = { s.tile k with glaze := (t.tile k).glaze }) ∧
      ∀ k m, t.glaze k m = { s.glaze k m with opened := none, sent := (s.glaze k m).sent ++ (s.glaze k m).opened.toList }) ∧
    (s.me.since ≠ 0 → (∃ x ∈ s.glazeAll, x.2.owes s.me.since = true) → exec (.gflush o) s = .next s) ∧
    (s.me.since ≠ 0 → (¬ ∃ x ∈ s.glazeAll, x.2.owes s.me.since = true) →
      ∃ t, exec (.gflush o) s = .next t ∧ GoesTo s t (s.next (.gflush o)))

/-- GSUB, GUNSUB, GSTAT and GFLUSH (spec/13 R295, spec/13 R296, spec/13 R297, spec/13 R302). That the lowest FREE entry is taken
is the model's choice (log 23). -/
def Obligations.GlazeInstructions : Prop :=
  GlazeSubscribes ∧ GlazeEndsAndFlushes

/-! ### Synchronisation variables, channels, phases and the small system instructions (spec/15, spec/09 R221) -/

/-- A handle in gB of a variable of the thread's partition, with a function below `fn` (spec/15 R352, R356). -/
def VarNamed (s : State) (b : Word) (fn : Nat) : Prop :=
  b.toNat < 2 ^ 20 ∧ b.toNat / 2 ^ 13 % 8 = 0 ∧ b.toNat / 2 ^ 16 % 16 < fn ∧ (s.svar (b.toNat % 2 ^ 13)).used = true ∧
    (s.svar (b.toNat % 2 ^ 13)).part = s.me.part

/-- What a SOP leaves in its variable: READ, ADD, SWAP, OR, AND, MAX, MIN by the function of gB (spec/15 R356). -/
def sopRule (fn : Nat) (v c : Word) : Word :=
  match fn with
  | 1 => BitVec.ofNat 64 (v.toNat + c.toNat)
  | 2 => c
  | 3 => v ||| c
  | 4 => v &&& c
  | 5 => BitVec.ofInt 64 (max v.toInt c.toInt)
  | 6 => BitVec.ofInt 64 (min v.toInt c.toInt)
  | _ => v

/-- What a SWAIT waits for: EQ, NE, GE, LT, signed (spec/15 R356). -/
def swaitRule (fn : Nat) (v a : Word) : Prop :=
  match fn with
  | 0 => v = a
  | 1 => v ≠ a
  | 2 => a.toInt ≤ v.toInt
  | _ => v.toInt < a.toInt

/-- SALLOC takes the lowest free variable of the die, with the value of gB, and returns its handle in [20:8], or NOSLOT 1; SFREE frees
one, or answers BUSY 3 while a SWAIT waits on it; SOP works on one in one step, once the thread's earlier accesses are
performed, and returns the old value; SWAIT returns the value once it meets the condition (spec/15 R352, R356). -/
def SynchronisationVariables : Prop :=
  ∀ (o : Opnd) (s : State), s.halt = none → s.inHandler = false →
    let base := dieOf s.myCore * 4096
    let b := s.g o.rb
    let h := b.toNat % 2 ^ 13
    let fn := b.toNat / 2 ^ 16 % 16
    let v := s.svar h
    ((∀ i < 4096, (s.svar (base + i)).used = true) →
      ∃ t, exec (.salloc o) s = .next t ∧ WritesG s t o.ra 1 (s.next (.salloc o))) ∧
    (∀ i < 4096, (s.svar (base + i)).used = false → (∀ j < i, (s.svar (base + j)).used = true) →
      ∃ u t, exec (.salloc o) s = .next t ∧ u = { s with svars := u.svars } ∧
        (∀ k, u.svar k = if k = base + i then ⟨true, b, s.me.part, []⟩ else s.svar k) ∧
        WritesG u t o.ra (BitVec.ofNat 64 ((base + i) * 2 ^ 8)) (s.next (.salloc o))) ∧
    (VarNamed s b 1 → v.waiters ≠ [] → ∃ t, exec (.sfree o) s = .next t ∧ WritesG s t o.ra 3 (s.next (.sfree o))) ∧
    (VarNamed s b 1 → v.waiters = [] → ∃ t, exec (.sfree o) s = .next t ∧
      WritesG { s with svars := drop s.svars h } t o.ra 0 (s.next (.sfree o))) ∧
    (VarNamed s b 7 → EarlierDone s → ∃ u t, exec (.sop o) s = .next t ∧ u = { s with svars := u.svars } ∧
      (∀ k, u.svar k = if k = h then { v with value := sopRule fn v.value (s.g o.rc) } else s.svar k) ∧
      WritesG u t o.ra v.value (s.next (.sop o))) ∧
    (VarNamed s b 7 → ¬ EarlierDone s → exec (.sop o) s = .next s) ∧
    (VarNamed s b 4 → swaitRule fn v.value (s.g o.ra) → ∃ u t, exec (.swait o) s = .next t ∧ u = { s with svars := u.svars } ∧
      (∀ k, u.svar k = if k = h then { v with waiters := v.waiters.filter (· ≠ s.cur) } else s.svar k) ∧
      WritesG u t o.ra v.value (s.next (.swait o))) ∧
    (VarNamed s b 4 → ¬ swaitRule fn v.value (s.g o.ra) → ∃ t, exec (.swait o) s = .next t ∧ t = { s with svars := t.svars } ∧
      ∀ k, t.svar k = if k = h then { v with waiters := if s.cur ∈ v.waiters then v.waiters else v.waiters ++ [s.cur] }
        else s.svar k) ∧
    (¬ VarNamed s b 1 → exec (.sfree o) s = .next (s.illegalAddr (.sfree o) b)) ∧
    (¬ VarNamed s b 7 → exec (.sop o) s = .next (s.illegalAddr (.sop o) b)) ∧
    (¬ VarNamed s b 4 → exec (.swait o) s = .next (s.illegalAddr (.swait o) b))

/-- The instructions of spec/15 that raise 0x01 in a handler frame. -/
def noHandlerForms (o : Opnd) : List Instr :=
  [.salloc o, .sfree o, .sop o, .swait o, .send o, .recv o, .wfi o, .yield o, .launch o, .launchW o, .larm o, .ldisarm o, .lwait o]

/-- A handler frame raises 0x01 for them (spec/15, Instruction entries). -/
def HandlersMayNotSynchronise : Prop :=
  ∀ (o : Opnd) (s : State) (i : Instr), i ∈ noHandlerForms o → s.halt = none → s.inHandler = true →
    exec i s = .next (s.illegalValue i)

/-- Instructions that other cores, or handler frames, may not execute raise 0x01 (spec/06 R146, spec/15 R354, spec/15 R355,
spec/15 R356). -/
def Obligations.InstructionsIllegalElsewhere : Prop :=
  TileInstructionsIllegalElsewhere ∧ HandlersMayNotSynchronise

/-- SEND: the item of 64 bytes at gB leaves for the channel once the thread's earlier accesses are performed.  RECV takes the item
whose number is NEXT into the 64 bytes at gB and returns its number; it holds until that item is there.  The address must be
aligned to 64 bytes (0x04) and in the own L1 (0x05); the channel declared for the role, bound to no stream unit, and of a
logical cluster of the launch (spec/15 R349–R351, R355). -/
def ChannelItems : Prop :=
  ∀ (o : Opnd) (s u : State), s.halt = none → s.inHandler = false →
    let a := (s.g o.ra).toNat
    let ea := (s.g o.rb).toNat
    let ch := a % 64
    let lcl := if a.testBit 12 then a / 256 % 16 else s.me.lcl
    let sendOk := a / 64 % 4 = 0 ∧ a / 2 ^ 13 % 2 ^ 19 = 0
    let own (need : Need) := s.itemCheck ea need = (u, none) ∧ u.cur = s.cur ∧ u.frames = s.frames ∧ u.launches = s.launches
    let pcl := clusterOf s.myCore
    let q := u.chan pcl ch
    (¬ sendOk → exec (.send o) s = .next (s.illegalValue (.send o))) ∧
    (64 ≤ a → exec (.recv o) s = .next (s.illegalValue (.recv o))) ∧
    (ea % 64 ≠ 0 → (sendOk → exec (.send o) s = .next (s.trap 0x04 0 (s.g o.rb))) ∧
      (a < 64 → exec (.recv o) s = .next (s.trap 0x04 0 (s.g o.rb)))) ∧
    (ea % 64 = 0 → (∀ x, windowOf ea ≠ .own x) → (sendOk → exec (.send o) s = .next (s.trap 0x05 0 (s.g o.rb))) ∧
      (a < 64 → exec (.recv o) s = .next (s.trap 0x05 0 (s.g o.rb)))) ∧
    (sendOk → own .r → s.declares s.cur ch 0 = false →
      exec (.send o) s = .next (u.trap 0x0F (1 + lcl % 256 * 256) (BitVec.ofNat 64 ch))) ∧
    (∀ e, sendOk → own .r → s.declares s.cur ch 0 = true → s.me.launch = some e →
      let n := ((s.entry e).tiles + 63) / 64
      (n ≤ lcl → exec (.send o) s = .next (u.trap 0x0F (4 + lcl % 256 * 256) (BitVec.ofNat 64 ch))) ∧
      (lcl < n → ¬ EarlierDone u ∨ u.itemYields s.cur ea = false → exec (.send o) s = .next u) ∧
      (∀ bs, lcl < n → EarlierDone u → u.itemYields s.cur ea = true → u.itemWords s.cur ea = some bs → ∃ t, exec (.send o) s = .next t ∧
        GoesTo { u with items := u.items ++
          [⟨s.cur, s.me.seq, (s.entry e).map.toNat / 16 ^ lcl % 16, lcl, ch, a / 2 ^ 32, bs⟩] } t (s.next (.send o)))) ∧
    (a < 64 → own .w → s.declares s.cur ch 1 = false →
      exec (.recv o) s = .next (u.trap 0x0F (1 + s.me.lcl % 256 * 256) (BitVec.ofNat 64 ch))) ∧
    (a < 64 → own .w → s.declares s.cur ch 1 = true →
      (∀ n, s.me.chanUnit ch = some n → exec (.recv o) s = .next (u.trap 0x0E 9 (BitVec.ofNat 64 n))) ∧
      (s.me.chanUnit ch = none → (∀ x ∈ q.items, x.1 ≠ q.next) ∨ ¬ EarlierDone u ∨ u.itemYields s.cur ea = false →
        exec (.recv o) s = .next u) ∧
      (∀ x k c bs, s.me.chanUnit ch = none → q.items.find? (fun i => i.1 == q.next) = some (x, bs) →
        u.l1Place s.cur ea = some (k, c) → EarlierDone u → u.itemYields s.cur ea = true → Memory.wf u.mem = true →
        ∃ v t, exec (.recv o) s = .next t ∧ v = { u with chans := v.chans, mem := v.mem, poison := v.poison, resvs := v.resvs
                                                         accs := v.accs, tiles := v.tiles, unfenced := v.unfenced, olds := v.olds
                                                         clusters := v.clusters } ∧
          (∀ n, lookD v.chans n .none = if n = pcl * 64 + ch then
            { q with items := q.items.filter (fun i => i.1 ≠ x), next := (q.next + 1) % 2 ^ 32 } else lookD u.chans n .none) ∧
          (∀ n, v.cluster n = if n = k then { u.cluster n with bankPtr := (v.cluster n).bankPtr } else u.cluster n) ∧
          (∀ n, v.byte n = if l1Key k c.1 ≤ n ∧ n < l1Key k c.1 + 64 then bs.getD (n - l1Key k c.1) 0 else u.byte n) ∧
          WritesG v t o.ra (BitVec.ofNat 64 x) (s.next (.recv o))))

/-- Synchronisation variables, SEND and RECV (spec/15 R349, spec/15 R350, spec/15 R351, spec/15 R352, spec/15 R355, spec/15
R356). That SALLOC takes the free variable with the lowest number is the model's choice (log 36): spec/15 R352 and R356 only
ask for a free one. That SOP and SEND wait for the thread's earlier accesses is how the model keeps the order of spec/15
(log 24). -/
def Obligations.SynchronisationAndChannels : Prop :=
  SynchronisationVariables ∧ ChannelItems

/-- PHASEC and PHASEX set and clear PHASE.CUR of the thread that the frame names (spec/09 R221); TIME reads the time base
(spec/01 R30); RNG draws one word of the thread's generator, and sets RNGW when its counter wraps (spec/02 R54). -/
def Obligations.PhaseTimeAndRandom : Prop :=
  ∀ (o : Opnd) (s : State), s.halt = none →
    let n := s.named s.cur
    let phase (i : Instr) (w : Word) : Prop := ∃ u t, exec i s = .next t ∧ Within s u [n] ∧
      u.frame n = { s.frame n with phase := w } ∧ GoesTo u t (s.next i)
    let c := s.me.rngc.toNat
    let word := zrng s.me.seed (s.frame n).ltid c
    phase (.phasec o) ((s.frame n).phase ||| 1) ∧
    phase (.phasex o) ((s.frame n).phase &&& ~~~ 1) ∧
    (∃ t, exec (.time o) s = .next t ∧ WritesG s t o.ra (BitVec.ofNat 64 (s.fk / 64)) (s.next (.time o))) ∧
    (c + 1 < 2 ^ 48 → ∃ t, exec (.rng o) s = .next t ∧
      WritesG (s.updMe fun x => { x with rngc := x.rngc + 1 }) t o.ra word (s.next (.rng o))) ∧
    (c + 1 = 2 ^ 48 →
      let v := s.updMe fun x => { x with rngc := 0 }
      ∃ u, Within v u [n] ∧ FlagsOnly v u ∧ TakesFlags v u s.cur [(0, 128)] ∧
        (s.me.arith.getLsbD 15 = false → ∃ t, exec (.rng o) s = .next t ∧ WritesG u t o.ra word (s.next (.rng o))) ∧
        (s.me.arith.getLsbD 15 = true → exec (.rng o) s = .next (u.trap 0x08 128 0)))

/-! ### Control registers, traps, the return from a handler, and HALT (spec/01 R21–R31, spec/05) -/

/-- Levels of a control register: read, write; none for a number that names no register (spec/01 R21). -/
def crAccess (n : Nat) (p : Priv) : Option (Bool × Bool) :=
  if n ∈ [0, 1, 2, 11, 12] then some (true, true)
  else if n ∈ [3, 4, 5, 6] then some (decide (p ≠ .u), decide (p ≠ .u))
  else if n ∈ [7, 8, 9, 13, 14] then some (true, false)
  else if n ∈ [10, 16, 17, 18, 19] then some (true, decide (p ≠ .u))
  else none

/-- The frame whose register a number names: a handler frame's trap, flag, identity and PHASE registers are those of the thread that
it serves (spec/01 R22). -/
def crFrame (s : State) (n : Nat) : Nat := if n ∈ [1, 2, 3, 4, 5, 7, 8, 9, 10] then s.named s.cur else s.cur

/-- The value of a control register (spec/01 R21, R23–R31). -/
def crValue (s : State) (n : Nat) : Word :=
  let x := s.frame (crFrame s n)
  match n with
  | 0 => x.arith | 1 => x.flags | 2 => x.faultel | 3 => x.tcause | 4 => x.taddr | 5 => x.tretpc | 6 => x.tvec
  | 7 => s.threadId s.cur | 8 => s.tileId s.cur | 9 => s.clusterId s.cur
  | 10 => x.phase | 11 => x.seed | 12 => x.wake | 13 => BitVec.ofNat 64 (s.fk / 64)
  | 14 => BitVec.ofNat 64 (s.ck - (s.core s.myCore).ckBase)
  | _ => x.region.getD (n - 16) 0

/-- A frame after a write of a control register: fields that are read-only or reserved take nothing, and a 1 clears a bit of FLAGS
and of WAKE (spec/00 R9, spec/05 R124). -/
def crWritten (n : Nat) (p : Priv) (v : Word) (x : Frame) : Frame :=
  match n with
  | 0 =>
    let a := if p = .u then (v &&& 0xFFFF) ||| (x.arith &&& 0x10000) else v &&& 0x1FFFF
    { x with arith := a, sig := sigMix x.sig a }
  | 1 => { x with flags := x.flags &&& ~~~ (v &&& 0xFF) }
  | 2 => { x with faultel := v &&& 0x3FFFFFFFFFF }
  | 3 => { x with tcause := v &&& 0xFFFF01FF }
  | 4 => { x with taddr := v }
  | 5 => { x with tretpc := v &&& 0xFFFFFFFFFFFE }
  | 6 => { x with tvec := v &&& 0xFFFFFFFFFFFE }
  | 10 => { x with phase := v &&& 3 }
  | 11 => { x with seed := v, rngc := 0 }
  | 12 => { x with wake := x.wake &&& ~~~ (v &&& 0xFFFFFFFF) }
  | _ => { x with region := x.region.set (n - 16) (v &&& 0x0000FFFFFFFFFC03) }

/-- CRD reads and CWR writes every control register that the level may read or write; another raises 0x10 with its number, DETAIL 2
or 3, and a number that names no register 0x01, as does an ARITH with a reserved RND, with the value in TADDR
(spec/01 R21, R23, spec/05 R110, R123, R124). -/
def Obligations.ControlRegisters : Prop :=
  ∀ (o : Opnd) (s : State), s.halt = none →
    let v := s.g o.rb
    (∀ w, crAccess o.rb s.me.priv = some (true, w) →
      ∃ t, exec (.crd o) s = .next t ∧ WritesG s t o.ra (crValue s o.rb) (s.next (.crd o))) ∧
    (∀ w, crAccess o.rb s.me.priv = some (false, w) → exec (.crd o) s = .next (s.trap 0x10 2 (BitVec.ofNat 64 o.rb))) ∧
    (crAccess o.rb s.me.priv = none → exec (.crd o) s = .next (s.illegalValue (.crd o))) ∧
    (∀ r, crAccess o.ra s.me.priv = some (r, true) → ¬ (o.ra = 0 ∧ 4 < v.toNat % 8) →
      ∃ u t, exec (.cwr o) s = .next t ∧ Within s u [crFrame s o.ra] ∧
        u.frame (crFrame s o.ra) = crWritten o.ra s.me.priv v (s.frame (crFrame s o.ra)) ∧ GoesTo u t (s.next (.cwr o))) ∧
    (o.ra = 0 → 4 < v.toNat % 8 → exec (.cwr o) s = .next (s.illegalAddr (.cwr o) v)) ∧
    (∀ r, crAccess o.ra s.me.priv = some (r, false) → exec (.cwr o) s = .next (s.trap 0x10 3 (BitVec.ofNat 64 o.ra))) ∧
    (crAccess o.ra s.me.priv = none → exec (.cwr o) s = .next (s.illegalValue (.cwr o)))

/-- A thread after its trap: cause, DETAIL and GSPLIT in TCAUSE, the address in TADDR, the trap point in TRETPC, its gang split
(spec/05 R109, R110, R113, spec/01 R25). -/
def trappedFrame (x : Frame) (cause detail : Nat) (addr : Word) (st : FStat) : Frame :=
  { x with
    stat := st, gang := false, taddr := addr, tretpc := x.pc.setWidth 64
    tcause := BitVec.ofNat 64 (cause % 256 + (if x.gang then 256 else 0) + detail % 65536 * 65536) }

/-- An accumulator of the urgent frame of a core, a8 or a9, by its key. -/
def UrgentAcc (core k : Nat) : Prop := k = core * 6 + 4 ∨ k = core * 6 + 5

/-- What a trap of a thread leaves alone: memory, and everything but frames, cores, reservations, waits, watches and the
accumulators of the urgent frame. -/
structure TrapFrame (s t : State) : Prop where
  rest   : t = { s with frames := t.frames, cores := t.cores, resvs := t.resvs, accs := t.accs, svars := t.svars, accums := t.accums }
  accums : ∀ k, lookD t.accums k .clear = lookD s.accums k .clear ∨ (UrgentAcc s.myCore k ∧ lookD t.accums k .clear = .clear)
  bytes  : SameBytes s t
  resvs  : t.resvs = s.resvs.filter fun r => r.frame ≠ s.cur
  accs   : t.accs = s.accs.filter fun a => !(a.frame == s.cur && a.op == .waitrs)

/-- TRAP raises 0x80 with its code in TADDR and its halfwords in DETAIL (spec/05 R121).  A thread that takes a trap other than a
page fault while the urgent frame of its core is free is stopped with its trap registers written, and a handler starts at
TVEC at level S in that frame, with the handler stack in g2 and every other register zero (spec/05 R109, R113, R114), and a8 and a9
CLEAR (spec/11 R255; `born` is the model's own count of commands); while the
frame is not free the thread parks, in the order of the traps (R115).  A page fault parks it without a handler (R118). -/
def ThreadTrapsEnterAHandler : Prop :=
  ∀ (o : Opnd) (s : State) (cause detail : Nat) (addr : Word), s.halt = none →
    exec (.trap o) s = .next (s.trap 0x80 (encode (.trap o)).length (BitVec.ofNat 64 (o.uimm % 65536))) ∧
    (s.me.kind = .slot ∨ s.me.kind = .dispatch ∨ s.me.kind = .mgmt →
      let core := s.myCore
      let hf := core * 5 + 4
      let t := s.trap cause detail addr
      let others (l : List Nat) : Prop := ∀ k, k ∉ l → k ≠ s.cur →
        t.frame k = if s.me.gang = true ∧ k = oddOf s.cur then { s.frame k with stat := .gangStop } else s.frame k
      (cause = 0x06 → s.me.gang = false → t.me = trappedFrame s.me cause detail addr .parkPage ∧ TrapFrame s t) ∧
      (cause ≠ 0x06 → s.urgentFree core = true → s.cur ≠ hf → oddOf s.cur ≠ hf →
        t.me = trappedFrame s.me cause detail addr .trapped ∧ others [hf] ∧ TrapFrame s t ∧
        t.frame hf = { Frame.empty (.handler s.cur) with
          stat := .ready, priv := .s, pc := BitVec.ofNat 48 (s.me.tvec.toNat / 2 * 2), pad := some 2, arith := 0xE0
          g := (Vector.replicate 32 (0 : Word)).set 2 (BitVec.ofNat 64 (s.handlerStack core s.me.part))
          region := s.me.region, launch := s.me.launch, part := s.me.part, ltid := s.me.ltid, ltile := s.me.ltile
          lcl := s.me.lcl, born := s.serials } ∧
        ∀ k, UrgentAcc core k → lookD t.accums k .clear = .clear) ∧
      (cause ≠ 0x06 → s.urgentFree core = false → t.me = trappedFrame s.me cause detail addr .parkTrap ∧ others [] ∧
        TrapFrame s t ∧ (t.core core).parked = (s.core core).parked ++ [s.cur]))

/-- A trap of an urgent thread kills its launch with status 0x04 (spec/05 R116, spec/15 R345), and a fault of a handler discards its
frame and kills the launch that it serves with status 0x03 (R116); the page fault of a handler parks it (R118), recorded in the
handler frame's own trap registers (the model's choice, log 26). -/
def TrapsOfUrgentFrames : Prop :=
  ∀ (s : State) (cause detail : Nat) (addr : Word) (e : Nat),
    (s.me.kind = .urgent → s.me.launch = some e → s.trap cause detail addr = s.killLaunch e 0x04 cause) ∧
    (∀ n, s.me.kind = .handler n → cause ≠ 0x06 → (s.frame n).launch = some e →
      s.trap cause detail addr = (s.freeUrgent s.myCore).killLaunch e 0x03 cause) ∧
    (∀ n, s.me.kind = .handler n → s.me.gang = false →
      (s.trap 0x06 detail addr).me = trappedFrame s.me 0x06 detail addr .parkPage ∧ TrapFrame s (s.trap 0x06 detail addr))

/-- A trap stops its thread and starts the handler, parks it, or kills a launch (spec/05 R109, spec/05 R110, spec/05 R113,
spec/05 R114, spec/05 R115, spec/05 R116, spec/05 R118, spec/05 R121, spec/15 R345, spec/11 R255). That the page fault of a
handler frame is recorded in its own trap registers is the model's reading (log 26). -/
def Obligations.TrapsEnterAHandler : Prop :=
  ThreadTrapsEnterAHandler ∧ TrapsOfUrgentFrames

/-- Nothing of a frame is under way: accesses, streams, tickets and, of a handler, engine commands (spec/04 R100, spec/05 R122). -/
def FrameQuiet (s : State) (f : Nat) : Prop :=
  (∀ a ∈ s.accs, a.frame ≠ f) ∧ (∀ n < 4, s.unitIdle f n = true) ∧ ∀ t ∈ (s.frame f).tickets, t = none

/-- ERET at S or M in a handler frame: once nothing of the frame is under way, the served thread is ready at TRETPC, its gang formed
again where GSPLIT still stands, and the frame is discarded; at U it raises 0x10, and outside a handler frame 0x01
(spec/05 R113, R122). -/
def EretResumesTheThread : Prop :=
  ∀ (o : Opnd) (s : State), s.halt = none →
    let hf := urgentKey s.myCore
    let quiet := FrameQuiet s s.cur ∧ s.commandsOpen s.cur = false
    (s.me.priv = .u → exec (.eret o) s = .next (s.privTrap (.eret o))) ∧
    (s.me.priv ≠ .u → s.inHandler = false → exec (.eret o) s = .next (s.illegalValue (.eret o))) ∧
    (∀ n, s.me.priv ≠ .u → s.me.kind = .handler n →
      (¬ quiet → exec (.eret o) s = .next s) ∧
      (quiet → s.cur = hf → ∃ u t : State, exec (.eret o) s = .next t ∧ SameBytes s t ∧
        u.frames = drop s.frames hf ∧ u.regs = s.regs ∧ t = { u with frames := t.frames } ∧
        (let join := slotOf n % 2 = 0 ∧ slotOf n < 4 ∧ (s.frame (oddOf n)).stat = .gangStop
         let split := (s.frame n).tcause.getLsbD 8 = true
         t.frame n = { u.frame n with
           stat := .ready, pc := BitVec.ofNat 48 ((u.frame n).tretpc.toNat / 2 * 2), ibuf := [], pad := none, prog := 0, since := 0
           gang := if join ∧ split then true else (u.frame n).gang } ∧
         t.frame (oddOf n) = (if join then { u.frame (oddOf n) with stat := if split then .gangOdd else .ready }
           else u.frame (oddOf n))) ∧
        ∀ k, k ≠ n → k ≠ oddOf n → t.frame k = u.frame k))

/-- No DEAD Glaze entry of the launch has a batch still to apply. -/
def NoDeadBatch (s : State) (l : Option Nat) : Prop :=
  ∀ g ∈ s.glazeAll, g.2.launch = l → g.2.st = .dead → g.2.sent = [] ∧ g.2.opened = none

/-- A reported late outcome, or the flags of an atomic that has returned, is still to be taken by the frame (spec/04 R100,
spec/09 R210). -/
def OwesTrap (s : State) (f : Nat) : Prop := (s.frame f).late ≠ [] ∨ (s.frame f).amoFlags ≠ []

/-- What the odd slot of the gang of `f` still has to take goes to `f`, the model's choice (log 26). -/
structure HandsOver (s t : State) (f : Nat) : Prop where
  rest   : t = { s with frames := t.frames }
  even   : t.frame f = { s.frame f with
    late := (s.frame f).late ++ (s.frame (oddOf f)).late, amoFlags := (s.frame f).amoFlags ++ (s.frame (oddOf f)).amoFlags }
  odd    : t.frame (oddOf f) = { s.frame (oddOf f) with late := [], amoFlags := [] }
  others : ∀ k, k ≠ f → k ≠ oddOf f → t.frame k = s.frame k

/-- The accesses that an arrival orders are performed (spec/12 R271). -/
def ReleaseReady (s : State) (a : Arr) : Prop :=
  a.release = true → a.left = true ∨ (DoneBefore s a.frame a.seq ∧ ∀ q, a.odd = some q → DoneBefore s (oddOf a.frame) q)

/-- While the threads of some frames end, their launches are within their deadlines, are LATE already, or keep another thread
(spec/15 R343). -/
def InTime (s : State) (fs : List Nat) : Prop :=
  ∀ f ∈ fs, ∀ e, (s.frame f).launch = some e → let x := s.entry e
    x.rt = false ∨ x.late = true ∨ s.time ≤ x.d ∨ x.st ≠ .placed ∨ ∃ k ∈ x.live, k ∉ fs

/-- HALT waits for what the thread has under way and ends it: its frame is free, its launch counts it with its flags and its ARITH
fold, and the last of the launch's threads brings the launch to CLOSING (spec/15 R341, R345, R347, R357).  In a gang both
slots end, and in a handler frame the served thread (spec/05 R117), with what it still owes taken first (spec/04 R100 item 6;
that its trap point and its own state take it is log 26): a late outcome is taken at its trap point, flags that raise no trap are
merged, and a page fault whose accesses are performed holds the HALT back no longer.  A launch whose last thread ends past its
deadline is LATE, or is killed with status 2 under ABORT_ON_MISS (R343).  No byte of memory changes, but by the batches of a DEAD
Glaze entry of the launch. -/
def HaltEndsTheThread : Prop :=
  ∀ (o : Opnd) (s : State), s.halt = none →
    let ready (f : Nat) : Prop := FrameQuiet s f ∧ (∀ a ∈ s.arrs, a.frame = f → ReleaseReady s a) ∧ (∀ w ∈ s.wakes, w.frame ≠ f) ∧
      ∀ i ∈ s.items, i.frame ≠ f
    let both := s.me.gang = true
    (s.inHandler = false → ¬ (ready s.cur ∧ (both → ready (oddOf s.cur))) → exec (.halt o) s = .next s) ∧
    (s.inHandler = false → ready s.cur → ¬ both → slotOf s.cur ≠ 4 → InTime s [s.cur] → ∃ t, exec (.halt o) s = .next t ∧
      (NoDeadBatch s s.me.launch → SameBytes s t) ∧ t.frames = drop s.frames s.cur ∧ t.regs = s.regs ∧
      ∀ e, s.me.launch = some e → t.entry e =
        let y := (s.entry e).noteHalt s.cur s.me
        if y.st = .placed ∧ y.live = [] then { y with st := .closing } else y) ∧
    (∀ e, s.inHandler = false → ready s.cur → ¬ both → slotOf s.cur ≠ 4 → s.me.launch = some e → let x := s.entry e
      x.st = .placed → x.rt = true → x.late = false → x.d < s.time → (∀ k ∈ x.live, k = s.cur) →
      (x.abort = false → ∃ t, exec (.halt o) s = .next t ∧ t.frames = drop s.frames s.cur ∧
        t.entry e = { x.noteHalt s.cur s.me with st := .closing, late := true }) ∧
      (x.abort = true → x.killed = false → x.posting = false → ∃ t, exec (.halt o) s = .next t ∧
        (t.entry e).st = .closing ∧ (t.entry e).killed = true ∧ (t.entry e).status = 2 ∧ (t.entry e).late = true)) ∧
    (s.inHandler = false → ready s.cur → ¬ both → slotOf s.cur = 4 → InTime s [s.cur] → ∃ t, exec (.halt o) s = .next t ∧
      (NoDeadBatch s s.me.launch → SameBytes s t) ∧ t.frames = drop (drop s.frames s.cur) s.cur) ∧
    (s.inHandler = false → ready s.cur → both → ready (oddOf s.cur) → slotOf s.cur < 3 →
      (¬ OwesTrap s (oddOf s.cur) → InTime s [s.cur, oddOf s.cur] → ∃ t, exec (.halt o) s = .next t ∧
        (NoDeadBatch s s.me.launch → NoDeadBatch s (s.frame (oddOf s.cur)).launch → SameBytes s t) ∧
        t.frames = drop (drop s.frames s.cur) (oddOf s.cur)) ∧
      (OwesTrap s (oddOf s.cur) → ∃ t, exec (.halt o) s = .next t ∧ HandsOver s t s.cur)) ∧
    (∀ n, s.me.kind = .handler n →
      let odd := slotOf n % 2 = 0 ∧ slotOf n < 4 ∧ (s.frame (oddOf n)).stat = .gangStop
      let quiet := FrameQuiet s s.cur ∧ s.commandsOpen s.cur = false ∧ ready n ∧ (odd → ready (oddOf n))
      (¬ quiet → exec (.halt o) s = .next s) ∧
      (quiet → odd → OwesTrap s (oddOf n) → ∃ t, exec (.halt o) s = .next t ∧ HandsOver s t n) ∧
      (∀ l rest, quiet → ¬ (odd ∧ OwesTrap s (oddOf n)) → earliestLate (s.frame n).late = some (l, rest) →
        (l.cause ≠ 0x06 → exec (.halt o) s = .next
          (if (s.frame n).frozen = true then s.eret s.cur n else (s.eret s.cur n).takeLate n)) ∧
        (l.cause = 0x06 → ∃ t, exec (.halt o) s = .next t ∧ SameBytes s t ∧ (t.frame n).late = rest ∧
          (t.frame n).stat = (s.frame n).stat ∧ (n ≠ s.cur → t.me = s.me))) ∧
      (∀ u, quiet → ¬ (odd ∧ OwesTrap s (oddOf n)) → (s.frame n).late = [] → (s.frame n).amoFlags ≠ [] →
        s.takeAmo n = (u, none) → exec (.halt o) s = .next u) ∧
      (quiet → s.cur = urgentKey s.myCore → slotOf n < 4 → ¬ OwesTrap s n → ¬ odd → InTime s [n] →
        ∃ t, exec (.halt o) s = .next t ∧
        (NoDeadBatch s (s.frame n).launch → SameBytes s t) ∧ t.frames = drop (drop s.frames s.cur) n) ∧
      (quiet → s.cur = urgentKey s.myCore → slotOf n < 4 → ¬ OwesTrap s n → odd → ¬ OwesTrap s (oddOf n) → InTime s [n, oddOf n] →
        ∃ t, exec (.halt o) s = .next t ∧
          (NoDeadBatch s (s.frame n).launch → NoDeadBatch s (s.frame (oddOf n)).launch → SameBytes s t) ∧
          t.frames = drop (drop (drop s.frames s.cur) n) (oddOf n)))

/-- ERET resumes the served thread, and HALT ends a thread (spec/05 R113, spec/05 R117, spec/05 R122, spec/15 R345, spec/15
R343, spec/15 R347, spec/15 R357). That ERET and a handler's HALT wait for the handler's own accesses and commands, and that
a handler's HALT takes the late outcomes and flags of the served thread first, are the model's reading (log 26), and so is
when a launch that ends past D is LATE or killed (log 29). -/
def Obligations.EretAndHalt : Prop :=
  EretResumesTheThread ∧ HaltEndsTheThread

/-! ### Launch instructions (spec/15 R335–R341, R354) -/

/-- The packet `p` has been read at `ea`: aligned to 64 bytes, with the right to read, once the thread's earlier accesses are
performed; `u` and `v` hold what the walks have cached (spec/15 R354). -/
def PacketRead (s u v : State) (ea : Nat) (p : List Word) : Prop :=
  ea % 64 = 0 ∧ s.checkAddr s.cur ea 8 .r .other = (u, none) ∧ u.cur = s.cur ∧ u.frames = s.frames ∧ EarlierDone u ∧
    u.readLine u.cur ea = (v, .words p) ∧ v.cur = s.cur ∧ v.frames = s.frames

/-- The instruction answers a status and a handle in gA (spec/15 R354). -/
def Answers (s w : State) (o : Opnd) (i : Instr) (status handle : Nat) : Prop :=
  ∃ t, exec i s = .next t ∧ WritesG w t o.ra (BitVec.ofNat 64 (status + handle * 2 ^ 32)) (s.next i)

/-- Entry `e` of the die takes the packet with a new generation and the next arrival number; every other entry stands
(spec/15 R341). -/
structure TakesPacket (v w : State) (die e : Nat) (p : List Word) (st : LState) : Prop where
  rest   : w = { v with launches := w.launches, arrivals := w.arrivals, tags := w.tags }
  others : ∀ k, k ≠ e → w.entry k = v.entry k
  state  : (w.entry e).st = st ∧ (w.entry e).gen = ((v.entry e).gen + 1) % 65536 ∧
    (w.entry e).arrival = lookD v.arrivals die 0 ∧ lookD w.arrivals die 0 = lookD v.arrivals die 0 + 1
  packet : (w.entry e).pkt = p ∧ (w.entry e).ctx = pktCtx p ∧ (w.entry e).part = pktPart p ∧
    (w.entry e).tiles = pktTiles p ∧ (w.entry e).urgent = pktFlag p 2 ∧ (w.entry e).rt = pktSv p ∧
    (w.entry e).ckind = pktCkind p ∧ (w.entry e).ctag = pktCtag p
  map    : (w.entry e).map = v.reg (.map (pktCtx p)) ∧ (w.entry e).mapv = v.regField (.ctl (pktCtx p)) 31 16

/-- LAUNCH and LAUNCH.W: a packet whose checks fail answers its status; otherwise the lowest FREE entry of its die takes it and its
handle is answered; with none free LAUNCH answers FULL 1 and LAUNCH.W holds, as it does behind a thread that has waited
longer.  LARM arms a packet on a tag: BUSY 4 when the tag is armed or a ring command tag, FULL 1 with no entry free
(spec/15 R337, R338, R341, R354). -/
def LaunchesTakeAnEntry : Prop :=
  ∀ (o : Opnd) (s u v : State) (p : List Word), s.halt = none → s.inHandler = false →
    let ea := (s.g o.rb).toNat
    let die := v.pktDie p v.issuer.die
    let handle (e : Nat) := handleOf e (((v.entry e).gen + 1) % 65536)
    let three := [Instr.launch o, .launchW o, .larm o]
    let tag := (s.g o.rc).toNat
    let tagOk := tag < 4096 ∧ s.regField (.tctl tag) 3 3 ≠ 0 ∧ (s.tagPart tag = s.me.part ∨ s.me.priv = .m)
    let holds (h : State) := exec (.launchW o) s = .next h ∧ Within v h [s.cur] ∧
      h.me = if v.me.prog = launchMark die then v.me else { v.me with prog := launchMark die, since := v.ck + 1 }
    (¬ tagOk → exec (.larm o) s = .next (s.illegalAddr (.larm o) (s.g o.rc))) ∧
    (ea % 64 ≠ 0 → ∀ i ∈ three, (i = .larm o → tagOk) → exec i s = .next (s.trap 0x04 0 (s.g o.rb))) ∧
    (∀ c d, ea % 64 = 0 → s.checkAddr s.cur ea 8 .r .other = (u, some (c, d)) → ∀ i ∈ three, (i = .larm o → tagOk) →
      exec i s = .next (u.trap c d (s.g o.rb))) ∧
    (PacketRead s u v ea p →
      let st := v.pktStatus p v.issuer false none
      let sta := v.pktStatus p v.issuer true none
      (st ≠ 0 → Answers s v o (.launch o) st 0 ∧ Answers s v o (.launchW o) st 0) ∧
      (st = 0 → v.freeEntryOf die = none → Answers s v o (.launch o) 1 0 ∧ ∃ h, holds h) ∧
      (∀ e, st = 0 → v.freeEntryOf die = some e → ∃ w, TakesPacket v w die e p .pending ∧ w.tags = v.tags ∧
        Answers s w o (.launch o) 0 (handle e) ∧
        (v.earlierWaits die = false → Answers s w o (.launchW o) 0 (handle e)) ∧
        (v.earlierWaits die = true → ∃ h, holds h)) ∧
      (tagOk → sta ≠ 0 → Answers s v o (.larm o) sta 0) ∧
      (tagOk → sta = 0 → (v.tag tag).armed ≠ none ∨ (0xF80 ≤ tag ∧ tag < 0xF90) → Answers s v o (.larm o) 4 0) ∧
      (tagOk → sta = 0 → (v.tag tag).armed = none → ¬ (0xF80 ≤ tag ∧ tag < 0xF90) →
        (v.freeEntryOf die = none → Answers s v o (.larm o) 1 0) ∧
        ∀ e, v.freeEntryOf die = some e → ∃ w, TakesPacket v w die e p .armed ∧ (w.entry e).tag = some (tag, 0) ∧
          (∀ k, w.tag k = if k = tag then { v.tag tag with armed := some e } else v.tag k) ∧
          Answers s w o (.larm o) 0 (handle e)))

/-- LDISARM frees the template of its tag, or answers NOTARMED 7.  LWAIT on a launch whose completion it may take holds until the
launch is DONE and, for a gA that is not 0, until the thread's earlier accesses are performed and the memory there answers;
it returns word 0 of the record, writes the record to a gA that is not 0, and frees the entry (that it waits for the earlier accesses
is the model's choice, log 24); where the memory there does not answer or the host port cannot write it, the thread takes a late 0x11
(spec/16 R365, R376); a handle of no such launch
answers 0xFF (spec/15 R341, R354). -/
def LaunchesDisarmAndWait : Prop :=
  ∀ (o : Opnd) (s u : State), s.halt = none → s.inHandler = false →
    let tag := (s.g o.rb).toNat
    let tagOk := tag < 4096 ∧ s.regField (.tctl tag) 3 3 ≠ 0 ∧ (s.tagPart tag = s.me.part ∨ s.me.priv = .m)
    let a := (s.g o.ra).toNat
    let reach := a % 64 = 0 ∧ ((a = 0 ∧ u = s) ∨
      (a ≠ 0 ∧ s.checkAddr s.cur a 8 .w .other = (u, none) ∧ u.cur = s.cur ∧ u.frames = s.frames))
    let name := u.entryOfHandle ((s.g o.rb).toNat % 2 ^ 32)
    let mine (e : Nat) := (u.entry e).ckind = 2 ∧ ((u.entry e).part = s.me.part ∨ s.me.priv = .m)
    (¬ tagOk → exec (.ldisarm o) s = .next (s.illegalAddr (.ldisarm o) (s.g o.rb))) ∧
    (tagOk → (s.tag tag).armed = none → Answers s s o (.ldisarm o) 7 0) ∧
    (∀ e, tagOk → (s.tag tag).armed = some e → ∃ v, Answers s v o (.ldisarm o) 0 0 ∧
      v = { s with tags := v.tags, launches := v.launches } ∧
      (∀ k, v.tag k = if (s.tag k).armed = some e then { s.tag k with armed := none } else s.tag k) ∧
      ∀ k, v.entry k = if k = e then { LEntry.none with gen := (s.entry e).gen } else s.entry k) ∧
    (a % 64 ≠ 0 → exec (.lwait o) s = .next (s.trap 0x04 0 (s.g o.ra))) ∧
    (∀ c d, a % 64 = 0 → a ≠ 0 → s.checkAddr s.cur a 8 .w .other = (u, some (c, d)) →
      exec (.lwait o) s = .next (u.trap c d (s.g o.ra))) ∧
    (reach → (∀ e, name = some e → ¬ mine e) →
      ∃ t, exec (.lwait o) s = .next t ∧ WritesG u t o.ra 0xFF (s.next (.lwait o))) ∧
    (∀ e, reach → name = some e → mine e → (u.entry e).st ≠ .done → exec (.lwait o) s = .next u) ∧
    (∀ e, reach → name = some e → mine e → (u.entry e).st = .done → a ≠ 0 → ¬ EarlierDone u → exec (.lwait o) s = .next u) ∧
    (∀ e v, reach → name = some e → mine e → (u.entry e).st = .done → a ≠ 0 → EarlierDone u →
      u.writeLine u.cur a (u.entry e).record true = (v, .full) → exec (.lwait o) s = .next v) ∧
    (∀ e v r, reach → name = some e → mine e → (u.entry e).st = .done → a ≠ 0 → EarlierDone u →
      u.writeLine u.cur a (u.entry e).record true = (v, r) → r = .fenced ∨ r = .noHost → v.cur = s.cur → v.frames = s.frames →
      ∃ t, exec (.lwait o) s = .next t ∧ t.me.late = s.me.late ++ [⟨s.me.seq, 0, 0x11, a, 3⟩] ∧
        t.me.gr o.ra = if o.ra = 0 then 0 else (u.entry e).record.getD 0 0) ∧
    (∀ e v, reach → name = some e → mine e → (u.entry e).st = .done →
      (a = 0 ∧ v = u) ∨ (a ≠ 0 ∧ EarlierDone u ∧ u.writeLine u.cur a (u.entry e).record true = (v, .done)) →
      v.cur = s.cur → v.frames = s.frames →
      ∃ w t, exec (.lwait o) s = .next t ∧ w = { v with launches := w.launches } ∧
        (∀ k, w.entry k = if k = e then { LEntry.none with gen := (v.entry e).gen } else v.entry k) ∧
        WritesG w t o.ra ((u.entry e).record.getD 0 0) (s.next (.lwait o)))

/-- LAUNCH, LAUNCH.W, LARM, LDISARM and LWAIT (spec/15 R337, spec/15 R338, spec/15 R341, spec/15 R354). That the lowest FREE
entry is taken and the order of LARM's answers are the model's choices (log 25). That LWAIT, LAUNCH and LARM wait for the
thread's earlier accesses is the model's reading (log 24). -/
def Obligations.LaunchInstructions : Prop :=
  LaunchesTakeAnEntry ∧ LaunchesDisarmAndWait

/-! ### Events: the checker, the urgent frame, and traps at a boundary (spec/05, spec/06) -/

/-- The event takes place: `exec` answers a next state of which `P` holds. -/
def Gives (i : Instr) (s : State) (P : State → Prop) : Prop := ∃ t, exec i s = .next t ∧ P t

/-- CHECKER_RETRY marks the instruction of a live frame for its retry and counts a corrected mismatch, and does nothing on a
retry (spec/06 R143); a mismatch then retires the core, whose tile no launch uses any more: every context of it ends with
TCAUSE 0x0A, the mismatching instruction's first halfword in TADDR, its next instruction in TRETPC and DETAIL [0] in the
issuing thread alone (spec/05 R110, R120), and the supervisor hears of it; a dispatch core sets its MEVT bit and the
management core is fatal (spec/06 R144, spec/16 R367). FREEZE_REQUEST freezes slots 0–3 of a core for the urgent launch that
waits for it: their reservations end, and the arrivals that have left the core stand (spec/06 R140, spec/09 R213, spec/12
R270). HANDLER_FRAME_GRANT gives a free urgent frame to that launch once its freeze has reached the core, and otherwise to
the oldest parked trap (spec/05 R115). What of a retired core goes on, and the form of the report to the supervisor, are the
model's reading (log 29). -/
def Obligations.CoreEvents : Prop :=
  ∀ (s : State) (f core : Nat), s.halt = none →
    let k := coreOf f
    let c := s.core k
    let again := c.retired = true ∨ c.retry = some f ∨ (s.frame f).stat = .free
    let d := s.core core
    let hf := core * 5 + 4
    let free := (s.frame hf).stat = .free ∧ d.retired = false
    (again → exec (.checkerRetry f) s = .next s) ∧
    (¬ again → Gives (.checkerRetry f) s fun t => t = { s with cores := t.cores } ∧
      ∀ n, t.core n = if n = k then { c with retry := some f, checks := min (2 ^ 32 - 1) (c.checks + 1) } else s.core n) ∧
    (c.retry ≠ some f → exec (.coreRetire f) s = .next s) ∧
    (c.retry = some f → Gives (.coreRetire f) s fun t => (t.core k).retired = true ∧
      ((s.frames.map (·.1)).Nodup → ∀ n, coreOf n = k → (s.frame n).stat ≠ .free →
        (t.frame n).stat = .free ∧ (t.frame n).tcause = (if n = f then 0x1000A else 0x0A) ∧
        (t.frame n).tretpc = (s.frame n).pc.setWidth 64 ∧ (t.frame n).taddr = (s.headHalf f).setWidth 64) ∧
      (k < 16384 → (t.tile (k / 16)).excluded = true ∧ ∃ p, (p, 1, k) ∈ t.notices) ∧ (k = mgmtCore → t.halt = some .fatal) ∧
      (k = 16384 ∨ k = 16385 → (t.reg .mevt).getLsbD (k - 16384) = true)) ∧
    ((s.core mgmtCore).retry = none → exec .packageFatal s = .next s) ∧
    ((s.core mgmtCore).retry ≠ none → exec .packageFatal s = .next { s with halt := some .fatal }) ∧
    (d.waitUrg = none ∨ d.freeze = d.waitUrg → exec (.freezeRequest core) s = .next s) ∧
    (∀ e, d.waitUrg = some e → d.freeze ≠ some e → Gives (.freezeRequest core) s fun t =>
      t = { s with
        cores := t.cores, frames := t.frames
        resvs := s.resvs.filter fun r => !(coreOf r.frame == core && slotOf r.frame < 4 && (look s.frames r.frame).isSome)
        arrs := s.arrs.map fun a =>
          if coreOf a.frame = core ∧ slotOf a.frame < 4 ∧ s.arrLeaves a = true then { a with left := true } else a } ∧
      (t.core core) = { d with freeze := some e } ∧
      ∀ n, t.frame n = if n / 5 = core ∧ n % 5 < 4 ∧ (look s.frames n).isSome = true then { s.frame n with frozen := true }
        else s.frame n) ∧
    (¬ free → exec (.handlerFrameGrant core) s = .next s) ∧
    (∀ e, free → d.waitUrg = some e → d.freeze ≠ some e → exec (.handlerFrameGrant core) s = .next s) ∧
    (∀ e, free → d.waitUrg = some e → d.freeze = some e → Gives (.handlerFrameGrant core) s fun t =>
      (t.core core).waitUrg = none ∧ (t.frame hf).stat = .ready ∧ (t.frame hf).launch = some e ∧
      (∀ n, n ≠ hf → t.frame n = s.frame n) ∧ (∀ n, UrgentAcc core n → lookD t.accums n .clear = .clear) ∧
      (∀ n, ¬ UrgentAcc core n → lookD t.accums n .clear = lookD s.accums n .clear) ∧
      t = { s with cores := t.cores, frames := t.frames, accums := t.accums }) ∧
    (∀ n rest, free → d.waitUrg = none → d.parked = n :: rest → (s.frame n).stat = .parkTrap → (s.frame n).frozen = false →
      n ≠ hf → coreOf n = core → Gives (.handlerFrameGrant core) s fun t => (t.core core).parked = rest ∧
        (t.frame n).stat = .trapped ∧ (t.frame hf).kind = .handler n ∧ (t.frame hf).stat = .ready ∧
        (t.frame hf).pc = BitVec.ofNat 48 ((s.frame n).tvec.toNat / 2 * 2) ∧
        (∀ n, UrgentAcc core n → lookD t.accums n .clear = .clear) ∧
        (∀ n, ¬ UrgentAcc core n → lookD t.accums n .clear = lookD s.accums n .clear) ∧
        t = { s with cores := t.cores, frames := t.frames, accums := t.accums }) ∧
    (free → d.waitUrg = none → d.parked = [] → exec (.handlerFrameGrant core) s = .next s)

/-- LATE_OUTCOME_TRAP takes the reported late outcome that is earliest in program order, with the boundary in TRETPC (spec/04 R100,
spec/05 R112); a thread that is stopped or frozen takes none.  ILLEGAL_INSTRUCTION raises 0x02 for a chain that breaks the
rules of chains and 0x01 for one that names no instruction, with the chain in TADDR (spec/03 R65, R67).
INSTRUCTION_FETCH_FAULT raises the cause that its fetch met, with DETAIL [7] (spec/06 R134). -/
def Obligations.BoundaryTrapEvents : Prop :=
  ∀ (s : State) (f addr cause : Nat) (chain : List Half), s.halt = none →
    let x := s.frame f
    (x.stat ≠ .ready ∨ x.frozen = true ∨ x.late = [] → exec (.lateOutcomeTrap f) s = .next s) ∧
    (x.stat = .ready → x.frozen = false → x.late ≠ [] → ∃ l rest, (l :: rest).Perm x.late ∧ (∀ m ∈ x.late, l.seq ≤ m.seq) ∧
      exec (.lateOutcomeTrap f) s = .next (((s.updFrame f fun y => { y with late := rest }).takeTrap f
        ⟨l.cause, l.detail, BitVec.ofNat 64 l.addr, x.pc⟩).tryUnpark f)) ∧
    (∀ i n, decode chain = .ok (i, n) → exec (.illegalInstruction f chain) s = .next s) ∧
    (∀ r pos h, decode chain = .error (.chain r pos h) →
      exec (.illegalInstruction f chain) s = .next (s.takeTrap f ⟨0x02, r + pos * 16, h.setWidth 64, x.pc⟩)) ∧
    (∀ kind, decode chain = .error (.illegal kind) → exec (.illegalInstruction f chain) s =
      .next (s.takeTrap f ⟨0x01, (chainHalves chain 5).length - 1 + kind * 8, chainWord (chainHalves chain 5), x.pc⟩)) ∧
    exec (.instructionFetchFault f addr cause) s =
      .next (s.takeTrap f ⟨cause % 256, 0x80 + cause / 256 % 2 * 256, BitVec.ofNat 64 addr, x.pc⟩)

/-! ### Events: the memory system (spec/09, spec/14) -/

/-- Every frame stands as it stood but for its late outcomes, its state of issue and the fault records that it waits for. -/
def FramesKept (s t : State) : Prop :=
  ∀ k, t.frame k = { s.frame k with late := (t.frame k).late, stat := (t.frame k).stat, fids := (t.frame k).fids }

/-- Host accesses: a store's data leave for the host page when the port completes it, and the reservations of its word end
(spec/09 R213); a load's value is what the host answers, and so is an atomic's old value, whose new value leaves for the host; LR
takes a reservation, and an SC that holds it stores and answers 0, else 1; one that the port cannot complete ends 0x11 (spec/14 R314,
spec/16 R365).  A watch that reports, or whose turn to read again
has come, reads again (spec/09 R214). -/
def HostAndWatchEvents : Prop :=
  ∀ (s : State) (f seq : Nat) (a : Acc) (p : Part) (b : Nat) (data : Word), s.halt = none →
    s.accOf f seq = some a → a.parts = [p] →
    let returned (t : State) (q : Part) : Prop := t.partOf f seq 0 = some ({ a with parts := [q] }, q)
    let broken (l : List Resv) := l.filter fun r => r.loc / 8 ≠ l2Key p.va / 8
    (s.hostAddr p = some b → a.op = .store → a.ret = .none →
      (Gives (.hostStoreComplete f seq 0 true) s fun t => t.hostOut = s.hostOut ++ [(b, p.size, p.data)] ∧
        t.accs.filter (fun c => c.op != .waitrs) =
          s.accs.filter (fun c => !(c.frame == f && c.seq == seq) && c.op != .waitrs) ∧
        t.resvs = s.resvs.filter (fun r => r.loc / 8 ≠ l2Key p.va / 8) ∧ SameBytes s t ∧ FramesKept s t) ∧
      Gives (.hostStoreComplete f seq 0 false) s fun t => t.hostOut = s.hostOut ∧ SameBytes s t ∧ FramesKept s t ∧
        (t.frame f).late = (s.frame f).late ++ [⟨seq, 0, 0x11, p.va, a.lateDetail⟩]) ∧
    (s.hostAddr p = some b → a.op = .load → a.ret ≠ .none → ∀ ok,
      Gives (.hostReadComplete f seq 0 ok data) s fun t => SameBytes s t ∧ FramesKept s t ∧
        t.partOf f seq 0 = some ({ a with parts := [if ok then
          { p with stage := .performed, val := BitVec.ofNat 64 (data.toNat % 256 ^ p.size) }
          else { p with stage := .failed 0x11 }] }, if ok then
          { p with stage := .performed, val := BitVec.ofNat 64 (data.toNat % 256 ^ p.size) }
          else { p with stage := .failed 0x11 })) ∧
    (s.hostAddr p = some b → ∀ fn et, a.op = .amo fn et →
      let old := BitVec.ofNat 64 (data.toNat % 256 ^ p.size)
      let k := 2 ^ (8 * p.size)
      let out := amoNew fn et a.arith a.rnd old.toNat (p.data.toNat % k) (p.data2.toNat % k)
      Gives (.hostReadComplete f seq 0 true data) s fun t => SameBytes s t ∧ FramesKept s t ∧
        returned t { p with stage := .performed, val := old, data2 := BitVec.ofNat 64 out.2 } ∧
        (out.1 = none → t.hostOut = s.hostOut ∧ t.resvs = s.resvs) ∧
        ∀ n, out.1 = some n → t.hostOut = s.hostOut ++ [(b, p.size, BitVec.ofNat 64 n)] ∧ t.resvs = broken s.resvs) ∧
    (s.hostAddr p = some b → a.op = .lr → Gives (.hostReadComplete f seq 0 true data) s fun t =>
      SameBytes s t ∧ FramesKept s t ∧ t.hostOut = s.hostOut ∧
      returned t { p with stage := .performed, val := BitVec.ofNat 64 (data.toNat % 256 ^ p.size) } ∧
      (∃ r ∈ t.resvs, r.frame = f ∧ r.loc = p.tgt.loc) ∧ ∀ r ∈ t.resvs, r.frame = f → r.loc = p.tgt.loc) ∧
    (s.hostAddr p = some b → a.op = .sc →
      let held := ∃ r ∈ s.resvs, r.frame = f ∧ r.loc = p.tgt.loc
      let mine := s.resvs.filter fun r => r.frame ≠ f
      Gives (.hostReadComplete f seq 0 true data) s fun t => SameBytes s t ∧ FramesKept s t ∧
        (held → t.hostOut = s.hostOut ++ [(b, 8, p.data)] ∧ t.resvs = broken mine ∧
          returned t { p with stage := .performed, val := 0 }) ∧
        (¬ held → t.hostOut = s.hostOut ∧ t.resvs = mine ∧ returned t { p with stage := .performed, val := 1 })) ∧
    (s.hostAddr p = some b → a.ret ≠ .none → (∃ fn et, a.op = .amo fn et) ∨ a.op = .lr ∨ a.op = .sc →
      Gives (.hostReadComplete f seq 0 false data) s fun t => SameBytes s t ∧ FramesKept s t ∧ t.hostOut = s.hostOut ∧
        t.resvs = s.resvs ∧ returned t { p with stage := .failed 0x11 }) ∧
    (p.stage = .reported → Gives (.waitrsWatchReport f seq) s fun t => t = { s with accs := t.accs } ∧
      t.partOf f seq 0 = some ({ a with parts := [{ p with stage := .waiting }] }, { p with stage := .waiting })) ∧
    (p.stage = .polling → Gives (.waitrsReread f seq) s fun t => t = { s with accs := t.accs } ∧
      t.partOf f seq 0 = some ({ a with parts := [{ p with stage := .waiting }] }, { p with stage := .waiting })) ∧
    (p.stage ≠ .reported → exec (.waitrsWatchReport f seq) s = .next s) ∧
    (p.stage ≠ .polling → exec (.waitrsReread f seq) s = .next s)

/-- A line of L2 is filled, with the bytes of HBM, when an access waits for it and a way can be had; a page walk that ends well
caches its leaf, and one that fails holds the accesses that wait for it; a core's walk of its protection table caches what it
finds (spec/14 R308, R310, R314, R315).  A fill of the instruction cache, read as an access of the partition that asked for it,
leaves the line in every tile that waits for it (spec/06 R133); the management core's own cache is filled from its SRAM and
the boot ROM (spec/06 R146). -/
def FillAndWalkEvents : Prop :=
  ∀ (s : State) (slice line page f va cluster : Nat) (crumb : Bool), s.halt = none → s.wipe = false → Memory.wf s.mem = true →
    (∀ part cp sz e w, homeSlice (line * 64) = slice → s.lineOf (line * 64) = none →
      s.fillWanted (line * 64) = some (part, cp, sz) → (s.slice slice).leaf (line * 64) sz = some e → entryHost e = false →
      entryCa e ≠ 2 → cp ≠ 3 → s.victim slice (line * 64) part = some (w, none) →
      Gives (.l2MissFill slice line) s fun t => t.frames = s.frames ∧ t.regs = s.regs ∧
        (∀ i < 64, t.byte (l2Key (line * 64) + i) = s.byte (hbmKey (leafPa e (line * 64) sz) + i)) ∧
        ∃ l, t.lineOf (line * 64) = some l ∧ l.way = w ∧ l.dirty = false ∧ l.pa = leafPa e (line * 64) sz) ∧
    (homeSlice (line * 64) ≠ slice ∨ (s.lineOf (line * 64)).isSome = true ∨ s.fillWanted (line * 64) = none →
      exec (.l2MissFill slice line) s = .next s) ∧
    (∀ e2 e, (s.slice slice).leaf page crumb = none → pageOf page crumb = page → s.walk slice page crumb = .ok (e2, e) →
      Gives (.pageWalk slice page crumb) s fun t => t = { s with slices := t.slices } ∧
        (t.slice slice).leaf page crumb = some e ∧ ∀ k, k ≠ slice → t.slice k = s.slice k) ∧
    (∀ e, (s.slice slice).leaf page crumb = none → pageOf page crumb = page → s.walk slice page crumb = .error e →
      Gives (.pageWalk slice page crumb) s fun t => FramesKept s t ∧ SameBytes s t ∧ t.slices = s.slices ∧
        s.faults <+: t.faults) ∧
    ((s.slice slice).leaf page crumb ≠ none → exec (.pageWalk slice page crumb) s = .next s) ∧
    (Gives (.plbMissWalk f va) s fun t => t.frames = s.frames ∧
      t = if windowOf va = .glob then (s.globRights f va).1 else (s.tableHeader f).1) ∧
    ((s.cluster cluster).fills.find? (fun x => x.1 / 64 == line / 64) = none →
      exec (.icacheFillInstall cluster line) s = .next s) ∧
    (∀ key ts, (s.cluster cluster).fills.find? (fun x => x.1 / 64 == line / 64) = some (key, ts) → ts.Nodup →
      cluster = clusterOf mgmtCore → Gives (.icacheFillInstall cluster line) s fun t => t.frames = s.frames ∧
        ∀ n, t.tile n = if n ∈ ts then (s.tile n).install (line / 64 * 64) (s.mgmtLine (line / 64 * 64)) s.ck else s.tile n) ∧
    (∀ key ts u k, (s.cluster cluster).fills.find? (fun x => x.1 / 64 == line / 64) = some (key, ts) → ts.Nodup →
      cluster ≠ clusterOf mgmtCore → (s.updCluster cluster fun c => ({ c with fills := c.fills.filter (fun x => x.1 ≠ key), misses := [] }).enrol c.misses).reach
        (line / 64 * 64) (key % 64 / 2) 0 (key % 2 == 1) = (u, .ok (.key k)) →
      Gives (.icacheFillInstall cluster line) s fun t => t.frames = s.frames ∧
        ∀ n, t.tile n = if n ∈ ts then (u.tile n).install (line / 64 * 64) (u.readBytes k 64) u.ck else u.tile n)

/-- Host accesses, watches, fills and walks (spec/06 R133, spec/09 R211, spec/09 R213, spec/09 R214, spec/14 R308, spec/14 R310,
spec/14 R314, spec/14 R315, spec/16 R365). Atomics of host pages are the model's reading (log 17). -/
def Obligations.WatchFillAndWalkEvents : Prop :=
  HostAndWatchEvents ∧ FillAndWalkEvents

/-- The scrubber refetches a clean line and poisons the words of a dirty one (spec/14 R321); the link load decides the routing,
and MESHCTL.MODE shows it where FORCE2 and FORCED leave it (R326, R329); an L2 operation that a writer with the right starts
reads BUSY until its end, and one that is written meanwhile sets ERR (R328, R329): FLUSH writes the dirty lines of the span
back to HBM and drops its lines and translations; FRESUME, for every writer (the model's choice, log 28), lets the record
go, and its threads' accesses to the page behind the held ones are held with it (spec/04 R100 item 4), or ends the launch of
the record, and of every thread that waits for it, with PAGE_FAULT (R311). That an L2 operation acts in one step is the
model's choice (log 5), and that FRESUME acts for every writer its reading (log 28). -/
def Obligations.CacheOperationEvents : Prop :=
  ∀ (s : State) (slice line die part fid load : Nat) (bad : List Nat) (w : Writer) (l : Line), s.halt = none →
    Memory.wf s.mem = true →
    let va := line * 64
    let busy := (s.reg (.l2op die part)).getLsbD 63 = true
    let four := [Instr.l2opClean w die part, .l2opFlush w die part, .l2opUnpin w die part, .l2opXinv w die part]
    let thr := s.regField (.meshctl die) 7 0
    let route := if thr < load then true else if load + s.regField (.meshctl die) 15 8 < thr then false
      else lookD s.twoPhase die false
    let may := s.mayWrite w (.l2op die part) = true
    (homeSlice va = slice → s.lineOf va = some l → l.dirty = true → Gives (.l2Scrub slice line bad) s fun t =>
      t = { s with poison := t.poison } ∧ ∀ i ∈ bad, t.poisoned (l2Key va + i % 8 * 8) = true) ∧
    (homeSlice va = slice → s.lineOf va = some l → l.dirty = false → Gives (.l2Scrub slice line bad) s fun t =>
      t = { s with mem := t.mem, poison := t.poison } ∧ ∀ i < 64, t.byte (l2Key va + i) = s.byte (hbmKey l.pa + i)) ∧
    (s.lineOf va = none → exec (.l2Scrub slice line bad) s = .next s) ∧
    exec (.meshLoadWindow die load) s = .next { s with twoPhase := putFlag s.twoPhase die route } ∧
    (s.readReg (.meshctl die)).getLsbD 18 = ((s.reg (.meshctl die)).getLsbD 18 ||
      if s.regField (.meshctl die) 16 16 = 1 then true else if s.regField (.meshctl die) 17 17 = 1 then false
      else lookD s.twoPhase die false) ∧
    (¬ may → ∀ i ∈ four, exec i s = .next s) ∧
    (may → busy → ∀ i ∈ four, Gives i s fun t => t = { s with regs := t.regs } ∧
      t.reg (.l2op die part) = s.reg (.l2op die part) ||| 0x4000000000000000) ∧
    (may → ¬ busy →
      let v := s.setReg (.l2op die part) (s.reg (.l2op die part) ||| 0x8000000000000000)
      exec (.l2opClean w die part) s = .next (v.overLines (v.l2Span die part) State.writeBack) ∧
      let sp := v.l2Span die part
      let gone := s.slices.flatMap fun p => p.2.lines.filter (lineIn sp)
      (Gives (.l2opFlush w die part) s fun t => t.frames = s.frames ∧ t.regs = v.regs ∧
        (∀ k, (t.slice k).walk = (s.slice k).walk ∧ (t.slice k).xlat = ((s.slice k).dropXlat sp false).xlat ∧
          ∀ m, m ∈ (t.slice k).lines ↔ m ∈ (s.slice k).lines ∧ lineIn sp m = false) ∧
        ((gone.map (·.la)).Nodup → (gone.map (·.pa)).Nodup → (∀ m ∈ gone, m.la * 64 < 2 ^ 48 ∧ m.pa % 64 = 0) →
          ∀ m ∈ gone, m.dirty = true → ∀ i < 64, t.byte (hbmKey m.pa + i) = s.byte (l2Key (m.la * 64) + i))) ∧
      let unpin (m : Line) : Line := if lineIn (v.l2Span die part) m = true ∧ m.cls = .pinned then { m with cls := .normal } else m
      (Gives (.l2opUnpin w die part) s fun t => t = { v with slices := t.slices } ∧ ∀ k,
        t.slice k = { s.slice k with lines := (s.slice k).lines.map unpin }) ∧
      Gives (.l2opXinv w die part) s fun t => t = { v with slices := t.slices } ∧ ∀ k,
        t.slice k = (s.slice k).dropXlat (v.l2Span die part) true) ∧
    (Gives (.l2opEnd die part) s fun t => t = { s with regs := t.regs } ∧
      t.reg (.l2op die part) = s.reg (.l2op die part) &&& ~~~ 0x8000000000000000) ∧
    ((∀ r ∈ s.faults, r.fid ≠ fid) → exec (.fresumeRetry w die fid) s = .next (s.fresumeErr die) ∧
      exec (.fresumeAbandon w die fid) s = .next (s.fresumeErr die)) ∧
    (∀ r, s.faults.find? (fun r => r.fid == fid) = some r →
      let u := { s with faults := s.faults.filter fun q => q.fid ≠ fid }
      let who := s.frames.filter fun p => p.2.fids.contains fid
      let behind (p : Part) : Part := match p.tgt, p.stage with
        | .glob va, .waiting => if p.crumb = r.crumb ∧ pageOf va p.crumb = r.page then { p with stage := .held fid, kept := true } else p
        | _, _ => p
      (Gives (.fresumeRetry w die fid) s fun t => FramesKept s t ∧
        t = { s with
          faults := s.faults.filter fun r => r.fid ≠ fid
          frames := t.frames
          accs := s.accs.map fun a =>
            if (who.map (·.1)).contains a.frame && a.op != .waitrs then { a with parts := a.parts.map behind } else a }) ∧
      exec (.fresumeAbandon w die fid) s = .next
        ((((r.frame, r.launch) :: who.map fun p => (p.1, p.2.launch)).eraseDups).foldl (fun v x => match x.2 with
          | some e => v.killLaunch e 0x08 0
          | none => v.endThread x.1) u))

/-! ### Events: streams and engines (spec/08, spec/10, spec/11) -/

/-- A read stream reads its next element ahead, or is in FAULT with 0x05 for a check that fails and 0x0B for a poisoned element; a write
stream performs the next stores of its oldest register, once their values have come and nothing earlier keeps them back, up to an
element that is refused, which is a late outcome 0x0E of the offering instruction (spec/08 R180–R182).  Either waits while a bank
grants another access first (R180, spec/09 R207). -/
def StreamEvents : Prop :=
  ∀ (s : State) (f n : Nat) (u : Machine.Unit), s.halt = none → (s.frame f).units[n]? = some u →
    let z := (ET.ofCode u.et).msize
    let a := u.elemAddr u.ahead
    let may := u.kind = .gen ∧ u.dir = false ∧ u.fault = none ∧ u.ahead < u.count ∧
      u.data.length < 4 * (s.frame f).unitElems u ∧ (s.frame f).frozen = false ∧ s.streamClear f u.seq a z = true
    let read := exec (.streamGeneratorRead f n) s
    (¬ may → read = .next s) ∧
    (∀ v c, may → s.checkSpan f a z .r .other = (v, some c) → read = .next (v.setUnit f n { u with fault := some (0x05, a) })) ∧
    (∀ v, may → s.checkSpan f a z .r .other = (v, none) →
      (v.streamYields f (wordsAt a z) = false → read = .next s) ∧
      (v.streamYields f (wordsAt a z) = true → v.streamRead (clusterOf (coreOf f)) a z = none →
        read = .next ((v.streamTook f (wordsAt a z)).setUnit f n { u with fault := some (0x0B, a) })) ∧
      ∀ x, v.streamYields f (wordsAt a z) = true → v.streamRead (clusterOf (coreOf f)) a z = some x →
        read = .next ((v.streamTook f (wordsAt a z)).setUnit f n
          { u with ahead := u.ahead + 1, data := u.data ++ [BitVec.ofNat 64 x] })) ∧
    (u.stores = [] → exec (.streamStorePerform f n) s = .next s) ∧
    (∀ reg regs ph phs, u.stores = reg :: regs → u.phases = ph :: phs →
      (∃ st ∈ storeRun [] reg, st.ready = false ∨ s.streamClear f st.seq st.addr st.size = false) →
      exec (.streamStorePerform f n) s = .next s) ∧
    (∀ reg regs ph phs v good bad, u.stores = reg :: regs → u.phases = ph :: phs →
      (∀ st ∈ storeRun [] reg, st.ready = true ∧ s.streamClear f st.seq st.addr st.size = true) →
      s.runCheck f u ph (storeRun [] reg) = (v, good, bad) →
      let yields := v.streamYields f (good.map fun st => st.addr / 8 * 8).eraseDups = true
      (¬ yields → exec (.streamStorePerform f n) s = .next s) ∧
      (bad = none → yields → Gives (.streamStorePerform f n) s fun t => t = { v.performRun f good with frames := t.frames } ∧
        t.frames = ((v.performRun f good).setUnit f n (if good.length = reg.length ∨ reg.drop good.length = [] then
          { u with stores := regs, phases := phs } else { u with stores := reg.drop good.length :: regs })).frames) ∧
      ∀ c st, bad = some (c, st) → yields → Gives (.streamStorePerform f n) s fun t =>
        t = (((v.performRun f good).setUnit f n
          { u with stores := [], phases := [], fault := some (c, u.elemAddr st.elem) }).report f
            ⟨st.seq, 0, 0x0E, n, 4 + c * 256⟩))

/-- A channel that works on nothing, with no waiting command ready, takes the oldest command of the next core in rotation, which
leaves its queue (spec/10 R230, spec/11 R249); it takes none while a command runs, and a normal channel none while the urgent
one works on nothing and has a command to take (spec/08 R192).  A command that waits as the current one goes on once its
descriptors let it, and stands aside once the wait area has room (R230).  The first mismatch of a copy burst's check repeats
it; the second ends the command ENGFAIL, at once where no kept write is still to be performed, marks the engine failed and
tells the supervisor (spec/10 R237); a frozen core's command stands aside (R240). -/
def EngineTakeEvents : Prop :=
  ∀ (s : State) (tile : Nat) (urg ok : Bool) (j : Job) (c : Nat) (x : Cmd), s.halt = none →
    let ch (mat : Bool) := (s.tile tile).channel mat urg
    let urgent (mat : Bool) := urg = false ∧ (∀ k ∈ s.curJob tile mat true, k.stage = .posting) ∧ s.nextTake tile mat true ≠ none
    let aside (i : Instr) (mat : Bool) := ((ch mat).waiting < waitCap urg → exec i s = .next (s.parkJob tile mat urg j)) ∧
      (waitCap urg ≤ (ch mat).waiting → exec i s = .next s)
    let stopped := s.coreFrozen (coreOf j.cmd.frame) urg = true
    ((ch false).cur = some j → j.stage = .running → exec (.copyTake tile urg) s = .next s) ∧
    ((ch true).cur = some j → j.stage = .running → exec (.matrixTake tile urg) s = .next s) ∧
    ((ch false).cur = some j → j.stage = .waiting →
      (s.copyReady tile urg j = true → exec (.copyTake tile urg) s = .next (s.copyStart tile urg j)) ∧
      (s.copyReady tile urg j = false → aside (.copyTake tile urg) false)) ∧
    ((ch true).cur = some j → j.stage = .waiting →
      (s.cmdMeets tile true j.cmd ≠ .wait → exec (.matrixTake tile urg) s = .next (s.matrixStart tile urg j)) ∧
      (s.cmdMeets tile true j.cmd = .wait → aside (.matrixTake tile urg) true)) ∧
    ((ch false).cur = none → (∀ k ∈ (ch false).wait, s.copyReady tile urg k = false) → urgent false →
      exec (.copyTake tile urg) s = .next s) ∧
    ((ch true).cur = none → (∀ k ∈ (ch true).wait, s.matrixReady tile urg k = false) → urgent true →
      exec (.matrixTake tile urg) s = .next s) ∧
    ((ch false).cur = none → (∀ k ∈ (ch false).wait, s.copyReady tile urg k = false) → ¬ urgent false →
      s.nextTake tile false urg = some (c, x) → Gives (.copyTake tile urg) s fun t =>
        (t.core (tile * 16 + c)).queue false urg = ((s.core (tile * 16 + c)).queue false urg).tail ∧
        ((t.tile tile).channel false urg).last = c ∧ ∃ k ∈ ((t.tile tile).channel false urg).jobs, k.cmd = x) ∧
    ((ch true).cur = none → (∀ k ∈ (ch true).wait, s.matrixReady tile urg k = false) → ¬ urgent true →
      s.nextTake tile true urg = some (c, x) → x.op = .mzero → (s.tile tile).matFailed = false → Gives (.matrixTake tile urg) s fun t =>
        (t.core (tile * 16 + c)).queue true urg = ((s.core (tile * 16 + c)).queue true urg).tail ∧
        t.curJob tile true urg = some ((Job.new x s.ck).finish 0 0) ∧ t.frames = s.frames ∧ SameBytes s t) ∧
    (s.curJob tile false urg = none → exec (.copyBurstCheck tile urg ok) s = .next s) ∧
    (s.curJob tile false urg = some j → j.stage ≠ .running → exec (.copyBurstCheck tile urg ok) s = .next s) ∧
    (s.curJob tile false urg = some j → j.stage = .running → stopped →
      exec (.copyBurstCheck tile urg ok) s = .next (s.parkJob tile false urg j)) ∧
    (s.curJob tile false urg = some j → j.stage = .running → ¬ stopped → ok = true →
      exec (.copyBurstCheck tile urg ok) s = .next (s.copyStep tile urg j)) ∧
    (s.curJob tile false urg = some j → j.stage = .running → ¬ stopped → ok = false → j.retry = false →
      Gives (.copyBurstCheck tile urg ok) s fun t => t = { s with tiles := t.tiles } ∧
        t.curJob tile false urg = some { j with retry := true }) ∧
    (s.curJob tile false urg = some j → j.stage = .running → ¬ stopped → ok = false → j.retry = true →
      Gives (.copyBurstCheck tile urg ok) s fun t => (t.tile tile).copyFailed = true ∧ (t.tile tile).excluded = true ∧
        (∃ p, (p, 2, tile) ∈ t.notices) ∧
        ∃ k, t.curJob tile false urg = some k ∧ k.cmd = j.cmd ∧ k.status = 8 ∧ (j.last = [] → k.stage ≠ .running))

/-- The entry of a job that has ended is due when its status is not DONE or NOTE is set, its issuer still runs and the core is not
retired (spec/08 R195, spec/10 R236). -/
def entryDue (s : State) (j : Job) : Bool :=
  (j.status ≠ 0 || j.cmd.note) && s.issuerLives j.cmd && !(s.core (coreOf j.cmd.frame)).retired

/-- A matrix command at its take (spec/11 R249, R253, R257, R260): a failed engine ends it ENGFAIL; an undefined descriptor ends it
NODEF, one that is not ready keeps it waiting; element types, then shapes, then the accumulator's format and shape end a product TYPE
or SHAPE, an operand it may not read FAULT; otherwise it runs as a reader of its operands.  An MLDA checks its whole block here. -/
def MatrixTakes : Prop :=
  ∀ (s : State) (tile : Nat) (urg : Bool) (j : Job),
    let c := j.cmd
    let t := s.matrixStart tile urg j
    let n := c.b.toNat % 64
    let da := s.descOf c n
    let db := s.descOf c (c.b.toNat / 256 % 64)
    let old := s.accOfCmd c
    let ends (st aux : Nat) : Prop := t = { s with tiles := t.tiles, frames := t.frames } ∧ t.curJob tile true urg = some (j.finish st aux)
    let parks : Prop := t = s.parkJob tile true urg { j with stage := .waiting }
    let meets := s.cmdMeets tile true c
    let tern := c.op = .mtern
    let w := MCtl.ofWord c.c
    let good := (s.tile tile).matFailed = false
    (¬ good → ends 8 0) ∧
    (good → c.op = .mma ∨ c.op = .mmac ∨ tern →
      let typed := shapeEt da.shape = (if tern then ET.n8 else ET.ofCode c.et) ∧
        shapeEt db.shape = if c.et2 = 0 then ET.ofCode c.et else ET.ofCode c.et2
      let shaped := shapeRows da.shape = c.c.toNat % 32 + 1 ∧ shapeRows db.shape = mmaK c.c ∧ shapeCols db.shape = mmaN c.c ∧
        shapeCols da.shape = if tern then (mmaK c.c + 4) / 5 else mmaK c.c
      let open_ := c.op = .mma ∨ old.st = .clear
      let holds := old.fmt = (pairFmt (ET.ofCode c.et)).1
      let fits := old.m = mmaM c.c ∧ old.n = mmaN c.c
      (meets = .nodef → ends 4 0) ∧ (meets = .wait → parks) ∧
      (meets = .ok → ¬ typed → ends 10 0) ∧ (meets = .ok → typed → ¬ shaped → ends 9 0) ∧
      (meets = .ok → typed → shaped → ¬ open_ → ¬ holds → ends 10 0) ∧
      (meets = .ok → typed → shaped → ¬ open_ → holds → ¬ fits → ends 9 0) ∧
      (∀ u ok, meets = .ok → typed → shaped → (¬ open_ → holds ∧ fits) → s.asCmd c (fun v => v.operandsMay c) = (u, ok) →
        (ok = false → t.curJob tile true urg = some (j.finish 1 0)) ∧
        (ok = true → t.curJob tile true urg = some { j with stage := .running, reads := c.operands } ∧
          ∀ k ∈ c.operands, (t.tile tile).desc k = { (u.tile tile).desc k with readers := ((u.tile tile).desc k).readers + 1 }))) ∧
    (good → c.op = .mlda ∨ c.op = .msta →
      (∀ st, mldaGeo c old da = .error st → ends st 0) ∧
      ∀ g, mldaGeo c old da = .ok g →
        (meets = .nodef → ends 4 0) ∧ (meets = .wait → parks) ∧
        (∀ st aux, meets = .ok → mldaRefused c g da = some (st, aux) → st ≠ 1 ∨ c.op = .msta → ends st aux) ∧
        (∀ aux u r, meets = .ok → mldaRefused c g da = some (1, aux) → c.op = .mlda →
          s.asCmd c (fun v => v.mldaScan c.frame g false 0 aux) = (u, r) →
          t.curJob tile true urg = some (j.finish 1 (match r with | some (i, _) => i | none => aux))) ∧
        (∀ u r, meets = .ok → mldaRefused c g da = none → c.op = .mlda →
          s.asCmd c (fun v => v.mldaScan c.frame g false 0 (g.m * g.n)) = (u, r) →
          (∀ i e, r = some (i, e) → t.curJob tile true urg = some (j.finish 1 i)) ∧
          (r = none → t.curJob tile true urg = some { j with stage := .running, reads := if w.desc then [n] else j.reads } ∧
            (w.desc = true → (t.tile tile).desc n = { (u.tile tile).desc n with readers := ((u.tile tile).desc n).readers + 1 }))) ∧
        (meets = .ok → mldaRefused c g da = none → c.op = .msta →
          t.curJob tile true urg = some { j with stage := .running, fills := if w.desc then some n else j.fills } ∧
          (w.desc = true → (t.tile tile).desc n = { (s.tile tile).desc n with st := .filling, err := false })))

/-- A byte of an L1 as an engine's operand: zero where its word is poisoned (spec/11 R252). -/
def operandByte (s : State) (pcl a : Nat) : Nat := if s.poisoned (l1Key pcl a) then 0 else (s.byte (l1Key pcl a)).toNat

/-- The element at a row and column of a descriptor's block: its bytes, the lowest first (spec/10 R219, spec/11 R245). -/
def operandAt (s : State) (pcl : Nat) (d : Desc) (r q : Nat) : Nat :=
  let z := (shapeEt d.shape).msize
  ((List.range z).map fun i => operandByte s pcl (d.base + r * shapeStride d.shape + q * z + i) * 256 ^ i).sum

/-- A word of the block is poisoned. -/
def operandBad (s : State) (pcl : Nat) (d : Desc) : Prop :=
  ∃ r < shapeRows d.shape, ∃ q < shapeCols d.shape, ∃ i < (shapeEt d.shape).msize,
    s.poisoned (l1Key pcl (d.base + r * shapeStride d.shape + q * (shapeEt d.shape).msize + i)) = true

/-- A product (spec/11 R244–R248, R252): output element (r, q) is the block-order sum (spec/02 R52, R53) of the products of row r of A,
or of its trits, and column q of B, over the accumulator's element for MMAC and MTERN and over zero for MMA; an INT32 element is
narrowed once a group of eight, an FP32 element rounded twice a group, at words 2g and 2g + 1.  Its flags name the element,
for MTERN after the invalid trits.  It ends DONE with the number of elements, or POISON where an operand word
or a descriptor's ERR says so; writes that no FENCEX has ordered may be unseen (log 35). -/
def ProductResults : Prop :=
  (∀ (s : State) (tile : Nat) (urg : Bool) (j : Job),
    s.curJob tile true urg = some j → j.stage = .running → j.cmd.op = .mma ∨ j.cmd.op = .mmac ∨ j.cmd.op = .mtern →
    s.productBad j.cmd = none → s.matrixYields tile (spanWords (s.readSpans j.cmd)) j.cmd.urg = true →
    let c := j.cmd
    let v := s.agedView c
    let pcl := clusterOf (coreOf c.frame)
    let da := s.descOf c (c.b.toNat % 64)
    let db := s.descOf c (c.b.toNat / 256 % 64)
    let old := s.accOfCmd c
    let tern := c.op = .mtern
    let ta := ET.ofCode c.et
    let w := (pairFmt ta).1.words
    let m := mmaM c.c
    let n := mmaN c.c
    let k := mmaK c.c
    let trit (r q : Nat) := truncInt ((decodeTr5 (operandAt v pcl da r (q / 5))).1.getD (q % 5) 0) 8
    let a (r : Nat) := (List.range k).map fun q => if tern then trit r q else operandAt v pcl da r q
    let b (q : Nat) := (List.range k).map fun i => operandAt v pcl db i q
    let before (e : Nat) := if c.op = .mma ∨ old.st = .clear then [0, 0]
      else (List.range w).map fun p => (old.w.getD (e * w + p) 0).toNat
    let word (e p i : Nat) := (zrng c.seed c.ltid ((c.ctr + 2 * (i / 2 * (m * n * w) + e * w + p) + i % 2) % 2 ^ 48)).toNat % 2 ^ 32
    let cell (r q : Nat) := mmaElem (AR.ofWord c.arith) ta (if c.et2 = 0 then ta else ET.ofCode c.et2) (a r) (b q)
      (before (r * n + q)) (word (r * n + q))
    let bad := operandBad v pcl da ∨ operandBad v pcl db ∨ da.err = true ∨ db.err = true
    let t := s.matrixRun tile urg j
    t = { s with fresh := t.fresh, tiles := t.tiles, clusters := t.clusters } ∧ ∃ x, t.curJob tile true urg = some x ∧
      x.cmd = c ∧ x.stage ≠ .running ∧ x.out.length = m * n * w ∧
      (∀ r < m, ∀ q < n, ∀ p < w, x.out.getD ((r * n + q) * w + p) 0 = BitVec.ofNat 32 ((cell r q).words.getD p 0)) ∧
      (∃ l : ElemFlags, x.flags = compressFlags l ∧ ∀ e fl, (e, fl) ∈ l ↔
        (∃ r < m, ∃ q < n, e = (if tern then 5 * m * tritBytes k else 0) + r * n + q ∧ fl = (cell r q).flags ∧ fl ≠ 0) ∨
        (tern ∧ fl = fTRI ∧ ∃ r < m, ∃ q < tritBytes k, ∃ i < 5, e = r * 5 * tritBytes k + 5 * q + i ∧
          (decodeTr5 (operandAt v pcl da r q)).2 = true)) ∧
      (¬ bad → x.status = 0 ∧ x.poison = false ∧ x.aux = m * n) ∧ (bad → x.status = 2 ∧ x.poison = true)) ∧
  (∀ (ar : AR) (ta tb : ET) (a b acc : List Nat) (word : Nat → Nat → Nat), a.length = b.length →
    let term (g i : Nat) := (a.getD (8 * g + i) 0, b.getD (8 * g + i) 0)
    let group (g : Nat) := ((List.range 8).filter fun i => decide (8 * g + i < a.length)).map (term g)
    let out := mmaElem ar ta tb a b acc word
    ((pairFmt ta).1 = .int32 → ∃ v : Nat → Nat × Nat, v 0 = (acc.getD 0 0, 0) ∧
      (∀ g < groupsOf a.length, v (g + 1) =
        let y := narrowPart ar .int32 (partVal .int32 (v g).1 + ((group g).map fun p => partVal ta p.1 * partVal tb p.2).sum)
        (y.1, (v g).2 ||| y.2)) ∧
      out.words = [(v (groupsOf a.length)).1] ∧ out.flags = (v (groupsOf a.length)).2) ∧
    ((pairFmt ta).1 = .fp32 → ∃ v : Nat → Nat × Nat, v 0 = (acc.getD 0 0, 0) ∧
      (∀ g < groupsOf a.length, v (g + 1) =
        let vs := (group g).map fun p => (unpack (fmtOf ta) ar.daz p.1, unpack (fmtOf tb) ar.daz p.2)
        let sum := evalSum ar (vs.flatMap fun p => [p.1, p.2]) (vs.map fun p => prodTerm false p.1 p.2)
        let u := finish fmt32 ar (word 0 (2 * g)) sum.1 sum.2
        let x := unpack fmt32 ar.daz (v g).1
        let y := unpack fmt32 ar.daz u.1
        let whole := evalSum ar [x, y] [addTerm x, addTerm y]
        let z := finish fmt32 ar (word 0 (2 * g + 1)) whole.1 whole.2
        (z.1, (v g).2 ||| u.2 ||| z.2)) ∧
      out.words = [(v (groupsOf a.length)).1] ∧ out.flags = nxUnlessNv (v (groupsOf a.length)).2))

/-- An MLDA (spec/11 R252, R258, R260): each word of the accumulator is the four bytes at its element's address, bit for bit, and zero
where they are poisoned; it ends DONE with the number of elements, or POISON.  An MSTA (R251, R252, R259): each byte of
an element that it reaches is that of the accumulator's value, converted where CONV says so, and no other byte changes; it ends with the
first refused element, and every word written from a POISONED accumulator is poisoned. -/
def AccumulatorTransfers : Prop :=
  ∀ (s : State) (tile : Nat) (urg : Bool) (j : Job) (g : MGeo),
    s.curJob tile true urg = some j → j.stage = .running →
    let c := j.cmd
    let w := MCtl.ofWord c.c
    let d := s.descOf c (c.b.toNat % 64)
    let old := s.accOfCmd c
    let pcl := clusterOf (coreOf c.frame)
    let t := s.matrixRun tile urg j
    mldaGeo c old d = .ok g → mldaRefused c g d = none →
    (c.op = .mlda → s.matrixYields tile (spanWords (s.readSpans c)) c.urg = true →
      let v := s.agedView c
      let dirty (i p : Nat) : Prop := v.poisoned (l1Key pcl (g.addr i + 4 * p)) = true
      let bad := (∃ i < g.m * g.n, ∃ p < g.fmt.words, dirty i p) ∨ (w.desc = true ∧ d.err = true)
      t = { s with fresh := t.fresh, tiles := t.tiles, clusters := t.clusters } ∧ ∃ x, t.curJob tile true urg = some x ∧
        x.cmd = c ∧ x.stage ≠ .running ∧ x.flags = j.flags ∧ x.out.length = g.m * g.n * g.fmt.words ∧
        (∀ i < g.m * g.n, ∀ p < g.fmt.words, (dirty i p → x.out.getD (i * g.fmt.words + p) 0 = 0) ∧
          (¬ dirty i p → x.out.getD (i * g.fmt.words + p) 0 =
            BitVec.ofNat 32 (leNat ((List.range 4).map fun b => v.byte (l1Key pcl (g.addr i + 4 * p) + b))))) ∧
        (¬ bad → x.status = 0 ∧ x.poison = false ∧ x.aux = g.m * g.n) ∧ (bad → x.status = 2 ∧ x.poison = true)) ∧
    (c.op = .msta →
      let words (i : Nat) := if old.st = .clear then [0, 0]
        else (List.range g.fmt.words).map fun p => (old.w.getD (i * g.fmt.words + p) 0).toNat
      let rnd (i p : Nat) := (zrng c.seed c.ltid ((c.ctr + i * (if g.fmt.complex then 2 else 1) + p) % 2 ^ 48)).toNat % 2 ^ 32
      let val (i : Nat) := mstaElem (AR.ofWord c.arith) g w.conv (words i) (rnd i)
      ∀ u ps fl e, s.asCmd c (fun v => v.mstaPieces c g words 0 (g.m * g.n)) = (u, ps, fl, e) →
      (s.matrixYields c.tile ((wordsOf ps).map fun p => p.1 * 8) c.urg = false → t.mem = s.mem ∧ t.curJob tile true urg = some j) ∧
      (s.matrixYields c.tile ((wordsOf ps).map fun p => p.1 * 8) c.urg = true →
        let upto := match e with | some (i, _) => i | none => g.m * g.n
        ∃ part x, t.curJob tile true urg = some x ∧ x.cmd = c ∧ x.stage ≠ .running ∧ part < g.esz ∧ (e = none → part = 0) ∧
          (∀ i b, (i < upto ∧ b < g.esz) ∨ (i = upto ∧ b < part) →
            t.byte (l1Key pcl (g.addr i + b)) = BitVec.ofNat 8 ((val i).1 / 256 ^ b) ∧
            (old.st = .poisoned → t.poisoned (l1Key pcl (g.addr i + b)) = true)) ∧
          (∀ k, (∀ i b, (i < upto ∧ b < g.esz) ∨ (i = upto ∧ b < part) → k ≠ l1Key pcl (g.addr i + b)) → t.byte k = s.byte k) ∧
          (∃ l : ElemFlags, x.flags = compressFlags l ∧ ∀ i f, (i, f) ∈ l ↔ i < upto ∧ f = (val i).2 ∧ f ≠ 0) ∧
          (∀ y, e = some (upto, y) → x.status = y.status ∧ x.aux = upto) ∧
          (e = none → old.st ≠ .poisoned → x.status = 0 ∧ x.aux = g.m * g.n) ∧
          (e = none → old.st = .poisoned → x.status = 2 ∧ x.aux = 0)))

/-- Storage of an address that a command names, where it lies in an L1 that the issuing thread's context reaches, or in a line that its
slice holds. -/
def homeKey (s : State) (f a : Nat) : Option Nat :=
  match windowOf a with
  | .glob => if (s.lineOf a).isSome then some (l2Key a) else none
  | _ => (s.l1Place f a).map fun x => l1Key x.1 x.2.1

/-- What a copy moves (spec/10 R231, R232): a CPY moves COUNT bytes from B to A, a CPY2 ROWS rows of COUNT bytes under its two
strides, a CPYT the rows of its descriptor's block to or from memory; byte i of a burst goes from
source to destination.  A CPYG reads the element that its index names and writes the next one, a CPYS the reverse.  No other
byte changes (in an L1 or in lines that slices hold). -/
def CopyMoves : Prop :=
  (∀ (c : Cmd) (d : Desc),
    let count := c.c.toNat % 2 ^ 24
    let low := sextNat c.x.toNat 32
    let high := sextNat (c.x.toNat / 2 ^ 32) 32
    let mem : CGeo := ⟨shapeRow d.shape, shapeRows d.shape, c.b.toNat, low, d.base, shapeStride d.shape⟩
    (c.op = .cpy → c.geo d = ⟨count, 1, c.b.toNat, 0, c.a.toNat, 0⟩) ∧
    (c.op = .cpy2 → c.geo d = ⟨count, c.c.toNat / 2 ^ 48, c.b.toNat, low, c.a.toNat, high⟩) ∧
    (c.op = .cpyt → c.c.toNat.testBit 28 = false → c.geo d = mem) ∧
    (c.op = .cpyt → c.c.toNat.testBit 28 = true → c.geo d = ⟨mem.len, mem.rows, mem.dst, mem.dstr, mem.src, mem.sstr⟩)) ∧
  ∀ (s : State) (tile : Nat) (urg : Bool) (j : Job), s.curJob tile false urg = some j → j.stage = .running → j.status = 0 →
    j.cmd.strong = false → j.last = [] → j.buf = [] → s.unfenced = [] →
    let c := j.cmd
    let g := c.geo (s.cmdDesc c)
    let key (a : Nat) := (s.asCmd c fun v => (v, homeKey v c.frame (trunc64 a))).2
    let t := s.copyStep tile urg j
    let moved (src dst n : Nat) : Prop :=
      (∀ i < n, ∀ x y, key (src + i) = some x → key (dst + i) = some y → t.byte y = s.byte x) ∧
      ∀ k, (∀ i < n, key (dst + i) ≠ some k) → t.byte k = s.byte k
    (c.op.elems = false → j.pos < g.len * g.rows →
      let row (base : Nat) (str : Int) := (((base : Int) + (j.pos / g.len : Nat) * str) % (2 ^ 64 : Nat)).toNat
      let src := row g.src g.sstr
      let dst := row g.dst g.dstr
      let n := burstLen c.bl (trunc64 (dst + j.pos % g.len)) (g.len - j.pos % g.len)
      (∀ i < g.len, (key (src + i)).isSome ∧ (key (dst + i)).isSome) →
      ∀ u b, s.asCmd c (fun v => v.burstStep j g) = (u, b) → b.stop = none →
        b.moved = n ∧ 0 < n ∧ moved (src + j.pos % g.len) (dst + j.pos % g.len) n) ∧
    (c.op.elems = true → j.pos < c.c.toNat % 2 ^ 24 →
      let z := 2 ^ (c.c.toNat / 2 ^ 24 % 4)
      let ia := trunc64 (c.x.toNat + 4 * j.pos)
      ∀ k, windowOf ia = .own ia → key ia = some k → s.poisoned k = false → c.x.toNat % 4 = 0 →
      let idx := leNat ((List.range 4).map fun b => s.byte (k + b))
      let src := c.b.toNat + (if c.op = .cpyg then idx else j.pos) * z
      let dst := c.a.toNat + (if c.op = .cpyg then j.pos else idx) * z
      (∀ i < z, (key (src + i)).isSome ∧ (key (dst + i)).isSome) →
      ∀ u b, s.asCmd c (fun v => v.elemStep j) = (u, b) → b.stop = none → b.moved = 1 ∧ moved src dst z)

/-- Address generators move elements, engines take and run commands, and copies move bytes (spec/08 R180, spec/08 R181, spec/08
R182, spec/10 R230, spec/10 R231, spec/10 R232, spec/10 R237, spec/10 R240, spec/11 R249, spec/11 R257, spec/11 R260).
Several breaches at once are log 21; words that go together log 5. -/
def Obligations.StreamAndEngineTakeEvents : Prop :=
  StreamEvents ∧ EngineTakeEvents ∧ MatrixTakes ∧ CopyMoves

/-- A copy command that has ended leaves its channel, with its entry in the inbox when one is due; it stays while the inbox is full
(spec/08 R195, spec/10 R236).  A matrix command that has ended leaves its accumulator CLEAR after an MZERO, HELD with what it
computed or loaded, or POISONED, all words zero after ENGFAIL, and its flags in its thread's record of it; an MLDA that fails its checks
leaves it CLEAR, and an MSTA leaves it (spec/11 R243, R246, R251, R252).  A matrix check that fails once is counted, and the second ends the
command ENGFAIL, marks the engine failed and tells the supervisor; an MSTA leaves the writes of before that burst, and waits for their
banks (R251, R253).  The last write of a fill makes its descriptor
READY, with ERR when the status is not DONE; a reader that ends frees a DRAINING one; a command that has waited 2^24 CK
cycles ends STALLED (spec/10 R226–R228). -/
def CommandsAndFillsEnd : Prop :=
  ∀ (s : State) (tile : Nat) (mat urg : Bool) (j : Job) (block place : Nat), s.halt = none →
    let jobs (mat : Bool) := ((s.tile tile).channel mat urg).jobs
    let first (mat : Bool) := (jobs mat).find? fun k => k.stage == .ended
    let core := coreOf j.cmd.frame
    let box := (s.core core).inbox j.cmd.urg
    let free := ∀ k ∈ s.curJob tile true urg, k.stage ≠ .running
    ((∀ k ∈ jobs false, k.stage ≠ .ended ∧ k.stage ≠ .posting) → exec (.copyCompletion tile urg) s = .next s) ∧
    (first false = some j → (entryDue s j = false ∨ box.entries.length < inboxCap j.cmd.urg) →
      Gives (.copyCompletion tile urg) s fun t => t.frames = s.frames ∧ SameBytes s t ∧
        (∀ k ∈ ((t.tile tile).channel false urg).jobs, k.cmd.serial ≠ j.cmd.serial) ∧
        (t.core core).inbox j.cmd.urg = if entryDue s j then
          { box with entries := box.entries ++ [⟨j.entryWord 1, some j.cmd.serial⟩] } else box) ∧
    (first false = some j → entryDue s j = true → inboxCap j.cmd.urg ≤ box.entries.length →
      Gives (.copyCompletion tile urg) s fun t => t = { s with tiles := t.tiles } ∧
        t = s.updJob tile false urg j.cmd.serial fun k => { k with stage := .posting }) ∧
    (free → first true = some j → j.cmd.acc < 10 →
      let old := s.accOfCmd j.cmd
      let shape := (pairFmt (ET.ofCode j.cmd.et)).1
      let product := j.cmd.op = .mma ∨ j.cmd.op = .mmac ∨ j.cmd.op = .mtern
      let done := j.status = 0 ∨ j.status = 2
      Gives (.matrixCompletion tile urg) s fun t => SameBytes s t ∧
        (∀ k ∈ ((t.tile tile).channel true urg).jobs, k.cmd.serial = j.cmd.serial → k.stage = .posting) ∧
        (∀ r ∈ (t.frame j.cmd.frame).cmds, r.serial = j.cmd.serial →
          r.done = true ∧ r.flags = j.flags ∧ r.err = decide (j.status = 8)) ∧
        (let acc := t.accum core j.cmd.acc
         (s.issuerLives j.cmd = false → acc = old) ∧
         (s.issuerLives j.cmd = true →
          (j.status = 8 → acc.st = .poisoned ∧ ∀ x ∈ acc.w, x = 0) ∧
          (j.cmd.op = .mzero → j.status ≠ 8 → acc = .clear) ∧
          (j.cmd.op = .msta → j.status ≠ 8 → acc = old) ∧
          (j.cmd.op = .mlda → j.status = 1 → acc = .clear) ∧
          (∀ g, j.cmd.op = .mlda → done → mldaGeo j.cmd old (s.descOf j.cmd (j.cmd.b.toNat % 64)) = .ok g →
            acc = ⟨if j.poison then .poisoned else .held, g.fmt, g.m, g.n, j.out⟩) ∧
          (j.cmd.op = .mlda ∨ product → j.status ∉ [0, 1, 2, 8] → acc = old) ∧
          (product → j.status = 1 → acc = old) ∧
          (product → done → acc = ⟨if j.poison ∨ (j.cmd.op ≠ .mma ∧ old.st = .poisoned) then .poisoned else .held,
            shape, mmaM j.cmd.c, mmaN j.cmd.c, j.out⟩)))) ∧
    (∀ k, s.curJob tile true urg = some j → j.stage = .running → j.reads ≠ [] → s.arrayFree tile urg = true →
      (s.matrixRun tile urg j).curJob tile true urg = some k → k.stage ≠ .running →
      Gives (.readerEnd tile true urg) s fun t => t.mem = (s.matrixRun tile urg j).mem ∧
        ∃ x, t.curJob tile true urg = some x ∧ (k.stage = .ending → x = { k with reads := [], stage := .ended })) ∧
    (s.curJob tile true urg = some j → j.stage = .running → j.reads = [] → s.arrayFree tile urg = true →
      exec (.matrixCompletion tile urg) s =
        .next ((s.matrixRun tile urg j).completeJob tile true urg State.matrixEffect)) ∧
    (s.curJob tile true urg = some j → j.stage = .running → s.arrayFree tile urg = true →
      (Gives (.matrixStepCheckFail tile urg false block) s fun t => t = { s with tiles := t.tiles } ∧
        (t.tile tile).chk = min 255 ((s.tile tile).chk + 1) ∧ t.curJob tile true urg = some j) ∧
      (j.cmd.op = .msta → (s.mstaRun j (some block)).2.stage = .running →
        exec (.matrixStepCheckFail tile urg true block) s = .next s) ∧
      (j.cmd.op ≠ .msta ∨ (s.mstaRun j (some block)).2.stage ≠ .running →
       Gives (.matrixStepCheckFail tile urg true block) s fun t =>
        (t.tile tile).matFailed = true ∧ (∃ p, (p, 3, tile) ∈ t.notices) ∧ ∃ k, t.curJob tile true urg = some k ∧
          k.stage ≠ .running ∧
          (j.cmd.op ≠ .msta → k.cmd = j.cmd ∧ k.status = 8 ∧ t = { s with tiles := t.tiles, notices := t.notices }) ∧
          (j.cmd.op = .msta → k = (s.mstaRun j (some block)).2 ∧ t.mem = (s.mstaRun j (some block)).1.mem))) ∧
    (s.curJob tile true urg = none → exec (.matrixStepCheckFail tile urg true block) s = .next s) ∧
    (∀ n, s.curJob tile mat urg = some j → j.stage = .ending → j.fills = some n → Gives (.fillLastWrite tile mat urg) s fun t =>
      t = { s with tiles := t.tiles } ∧ t.curJob tile mat urg = some { j with fills := none, stage := .ended } ∧
      (t.tile tile).desc n = let d := (s.tile tile).desc n
        if d.st = .filling then { d with st := .ready, err := decide (j.status ≠ 0) } else d) ∧
    (∀ n, s.curJob tile mat urg = some j → j.stage = .ending → j.reads = [n] → Gives (.readerEnd tile mat urg) s fun t =>
      t = { s with tiles := t.tiles } ∧ t.curJob tile mat urg = some { j with reads := [], stage := .ended } ∧
      (t.tile tile).desc n = let d := (s.tile tile).desc n
        { d with readers := d.readers - 1, st := if d.st = .draining ∧ d.readers ≤ 1 then .empty else d.st }) ∧
    (s.curJob tile mat urg = none → exec (.fillLastWrite tile mat urg) s = .next s ∧ exec (.readerEnd tile mat urg) s = .next s) ∧
    (((s.tile tile).channel mat urg).wait[place]? = some j →
      (j.stage = .waiting → j.since + 2 ^ 24 ≤ s.ck → Gives (.commandStallTimeout tile mat urg place) s fun t =>
        t = s.updJob tile mat urg j.cmd.serial (fun k => k.finish 6 0) ∧ t = { s with tiles := t.tiles }) ∧
      (s.ck < j.since + 2 ^ 24 → exec (.commandStallTimeout tile mat urg place) s = .next s)) ∧
    (((s.tile tile).channel mat urg).wait.length ≤ place → s.curJob tile mat urg = some j → j.stage = .waiting →
      j.since + 2 ^ 24 ≤ s.ck → Gives (.commandStallTimeout tile mat urg place) s fun t =>
        t = s.updJob tile mat urg j.cmd.serial (fun k => k.finish 6 0) ∧ t = { s with tiles := t.tiles })

/-- What products compute and accumulator transfers carry, and how commands, fills and readers end (spec/08 R195, spec/10 R226,
spec/10 R227, spec/10 R228, spec/10 R236, spec/11 R243, spec/11 R246, spec/11 R251, spec/11 R252, spec/11 R253, spec/11
R260). ENGFAIL and corners of flags are logs 21 and 13. -/
def Obligations.EngineEndEvents : Prop :=
  ProductResults ∧ AccumulatorTransfers ∧ CommandsAndFillsEnd

/-! ### Events: synchronisation (spec/12, spec/13, spec/15) -/

/-- An arrival leaves its core: at once with RLX, and else once every access of the thread before it is performed, in a gang those
of the odd slot before GANG among them; a frozen thread's does not, unless it had left before (spec/12 R270–R272). -/
def LeftCore (s : State) (a : Arr) : Prop :=
  a.release = true → a.left = true ∨ ((s.frame a.frame).frozen = false ∧ DoneBefore s a.frame a.seq ∧
    ∀ q, a.odd = some q → DoneBefore s (oddOf a.frame) q)

/-- An arrival is counted once it has left its core: a release arrival waits for the thread's earlier accesses, and sends every
open Glaze batch of its launch (spec/12 R266, R270–R272, spec/13 R301). A phase completes when every member has arrived,
there is one, and no Glaze update of before its last release arrival is still to be applied; C then rises by one. WAKE
delivers its bits to the thread that it names, after the sender's earlier accesses, in a gang also those of the odd slot
before GANG, or discards them, as it does once the launch of its entry is another one (spec/12 R275, R277). Arrivals and
wakes of a gang, and of an entry that is used again, are log 27. -/
def Obligations.BarrierAndWakeEvents : Prop :=
  ∀ (s : State) (n : Nat), s.halt = none →
    (s.arrs[n]? = none → exec (.barrierArrival n) s = .next s) ∧
    (∀ a, s.arrs[n]? = some a →
      let k := (a.launch, a.slot, a.unit)
      let left := LeftCore s a
      (¬ left → exec (.barrierArrival n) s = .next s) ∧
      (left → Gives (.barrierArrival n) s fun t =>
        t = { s with arrs := dropAt s.arrs n, barriers := t.barriers, tiles := t.tiles } ∧
        (t.inst k).c = (s.inst k).c ∧
        (∀ y, (t.inst k).get y = if y = a.thr then
          { (s.inst k).get y with cnt := a.phase :: ((s.inst k).get y).cnt.filter ((s.inst k).c ≤ ·) } else (s.inst k).get y) ∧
        (∀ j, j ≠ k → t.inst j = s.inst j) ∧
        ∀ tile e, t.glaze tile e = let g := s.glaze tile e
          if a.release = true ∧ a.launch.isSome = true ∧ g.launch = a.launch then
            { g with opened := none, sent := g.sent ++ g.opened.toList } else g)) ∧
    (s.barriers[n]? = none → exec (.phaseCompletion n) s = .next s) ∧
    (∀ b, s.barriers[n]? = some b →
      let full := (∃ p ∈ b.thr, p.2.member b.c = true) ∧ (∀ p ∈ b.thr, p.2.member b.c = true → b.c ∈ p.2.cnt) ∧
        ∀ e, b.launch = some e → s.domain e b.slot b.unit = b.thr.length
      let owes := ∃ e, b.launch = some e ∧ ∃ t ∈ s.tiles, ∃ g ∈ t.2.glaze, g.2.launch = some e ∧
        ((g.2.st = .sync ∧ g.2.since < b.rel) ∨ ∃ x ∈ g.2.sent ++ g.2.opened.toList, x.since < b.rel)
      (full ∧ ¬ owes → exec (.phaseCompletion n) s =
        .next { s with barriers := s.barriers.set n { b with c := b.c + 1, rel := b.relUp, relUp := 0 } }) ∧
      (¬ full ∨ owes → exec (.phaseCompletion n) s = .next s)) ∧
    (s.wakes[n]? = none → exec (.wakeDelivery n) s = .next s) ∧
    (∀ w, s.wakes[n]? = some w →
      let u := { s with wakes := dropAt s.wakes n }
      let left := DoneBefore s w.frame w.seq ∧ ∀ q, w.odd = some q → DoneBefore s (oddOf w.frame) q
      (¬ left → exec (.wakeDelivery n) s = .next s) ∧
      (left → (∀ e, w.launch = some e → (s.entry e).gen ≠ w.gen) → w.launch ≠ none → exec (.wakeDelivery n) s = .next u) ∧
      (left → s.wakeTarget w = none → exec (.wakeDelivery n) s = .next u) ∧
      ∀ f, left → s.wakeTarget w = some f → Gives (.wakeDelivery n) s fun t =>
        t = { u with frames := t.frames } ∧
        (∀ k, t.frame k = if k = f then { s.frame f with wake := (s.frame f).wake ||| w.mask.setWidth 64 } else s.frame k))

/-- The update of ticket slot `n` ends with a late outcome of its thread, and its slot is free (spec/13 R290). -/
def TicketEnds (s t : State) (f n : Nat) (u : Upd) (cause detail : Nat) : Prop :=
  t = { s with frames := t.frames } ∧ ∀ k, t.frame k = if k = f then
    { s.frame f with tickets := (s.frame f).tickets.set n none
                     late := (s.frame f).late ++ [⟨u.seq, 0, cause, u.va, detail⟩] } else s.frame k

/-- What an update whose home unit answers meets there: no element of an open window (4), another element type (5), a ticket beyond
the last (3) or one that has been applied or is pending (2); otherwise the unit accepts it, in the slot reserved for the
next ticket or in a free one, or refuses it and it is presented again (spec/13 R280, R283, R285, R290).  The page of a global
update that is no skip must be at hand; without a translation the update is held in its slot by a fault record
(spec/04 R100 item 4, spec/14 R311). -/
structure TicketJudged (s : State) (i : Instr) (f n : Nat) (u : Upd) : Prop where
  closed  : s.windowAt u.launch u.loc = none → Gives i s fun t => TicketEnds s t f n u 0x0C 4
  offGrid : ∀ wn w, s.windowAt u.launch u.loc = some (wn, w) → (u.loc - w.loc) % (ET.ofCode w.et).msize ≠ 0 →
    Gives i s fun t => TicketEnds s t f n u 0x0C 4
  judged  : ∀ wn w, s.windowAt u.launch u.loc = some (wn, w) → (u.loc - w.loc) % (ET.ofCode w.et).msize = 0 →
    let e := (u.loc - w.loc) / (ET.ofCode w.et).msize
    let l := s.pendAt (s.homeUnit u.loc)
    let wrong := u.skip = false ∧ u.et ≠ w.et
    let used := u.ticket < lookD w.ctr e 0 ∨ ∃ v ∈ l, v.window = wn ∧ v.elem = e ∧ v.ticket = u.ticket
    let room := u.ticket = lookD w.ctr e 0 ∨ roomFor (s.homeUnit u.loc) u.urg l = true
    let va := u.loc - 2 ^ 48
    let atHand := u.loc < 2 ^ 48 ∨ u.skip = true ∨ (s.lineOf va).isSome = true
    (wrong → Gives i s fun t => TicketEnds s t f n u 0x0C (5 + wn * 256)) ∧
    (¬ wrong → w.ntm1 < u.ticket → Gives i s fun t => TicketEnds s t f n u 0x0C (3 + wn * 256)) ∧
    (¬ wrong → u.ticket ≤ w.ntm1 → used → Gives i s fun t => TicketEnds s t f n u 0x0C (2 + wn * 256)) ∧
    (¬ wrong → u.ticket ≤ w.ntm1 → ¬ used → room → atHand → Gives i s fun t => SameBytes s t ∧ t.accs = s.accs ∧
      t.pendAt (s.homeUnit u.loc) = l ++ [{ u with window := wn, elem := e, refused := false, held := false }] ∧
      (t.frame f).tickets = (s.frame f).tickets.set n none) ∧
    (∀ v r x fid, ¬ wrong → u.ticket ≤ w.ntm1 → ¬ used → room → ¬ atHand →
      s.translate (homeSlice va) va u.crumb = (v, .error r) → v.faultRecord f va u.crumb true false r = (x, some fid) →
      Gives i s fun t => fid ∈ (t.frame f).fids ∧
        (t.frame f).tickets = (x.frame f).tickets.set n (some { u with refused := true, held := true })) ∧
    (¬ wrong → u.ticket ≤ w.ntm1 → ¬ used → ¬ room → Gives i s fun t => t = { s with frames := t.frames } ∧
      ∀ k, t.frame k = if k = f then
        { s.frame f with tickets := (s.frame f).tickets.set n (some { u with refused := true }) } else s.frame k)

/-- A ticketed update reaches its home unit, and is presented again after a refusal: a strong one only after the thread's earlier
accesses, and every one only after the earlier strong ones (spec/09 R217); a cluster that is off or fenced makes it a late
0x11 (spec/13 R285, R290, R291). -/
def TicketPresentation : Prop :=
  ∀ (s : State) (f n : Nat) (u : Upd) (i : Instr), s.halt = none → (s.frame f).tickets.getD n none = some u →
    i = (if u.refused then .ticketRepresent f n else .ticketArrival f n) →
    let clear := (u.strong = true → s.earlierDone f u.seq = true) ∧
      ∀ a ∈ s.accs, a.frame = f → a.strong = true → a.seq < u.seq → a.done = true
    let far := u.loc < 2 ^ 48 ∧ u.loc / l1Bytes ≠ clusterOf (coreOf f)
    let live := s.clusterLive (u.loc / l1Bytes) = true
    exec (if u.refused then .ticketArrival f n else .ticketRepresent f n) s = .next s ∧
    (¬ clear → exec i s = .next s) ∧
    (clear → far → ¬ live → Gives i s fun t => TicketEnds s t f n u 0x11 3) ∧
    (clear → 2 ^ 48 ≤ u.loc → s.wipe = true → exec i s = .next s) ∧
    (clear → u.loc < 2 ^ 48 → (far → live) → TicketJudged s i f n u) ∧
    (clear → 2 ^ 48 ≤ u.loc → s.wipe = false → TicketJudged s i f n u)

/-- A unit applies to its element the pending update whose ticket is the element's counter: a skip changes no memory; the other
adds its value to the element in its own format, with the thread's ARITH, and the record of the window takes its flags; the
counter rises by one (spec/13 R283, R284, R289, R292).  In an L1 it yields to an access that the element's bank grants first
(spec/09 R207); in the global space, where its page has no translation, it stays pending (spec/14 R311).  A gap that has lasted TLIM·4,096 CK cycles is a late 0x0C of the
window's owner, or kills the launch with status 6 when the owner has halted (R289, R290). -/
def TicketApplications : Prop :=
  ∀ (s : State) (n e : Nat), s.halt = none → Memory.wf s.mem = true →
    (s.window n = none → exec (.ticketApplication n e) s = .next s ∧ exec (.ticketGapTimeout n) s = .next s) ∧
    (∀ w, s.window n = some w →
      let size := (ET.ofCode w.et).msize
      let unit := s.homeUnit (w.loc + e * size)
      let l := s.pendAt unit
      let due (u : Upd) : Bool := u.window == n && u.elem == e && u.ticket == lookD w.ctr e 0
      let counted (t : State) := ∃ x, t.window n = some x ∧ lookD x.ctr e 0 = lookD w.ctr e 0 + 1 ∧
        (∀ k, k ≠ e → lookD x.ctr k 0 = lookD w.ctr k 0) ∧ x.loc = w.loc ∧ x.launch = w.launch
      let late := w.gap.filter fun g => g.2 + w.tlim * 4096 ≤ s.ck
      (l.find? due = none → exec (.ticketApplication n e) s = .next s) ∧
      (∀ u, l.find? due = some u → 2 ^ 48 ≤ u.loc → s.wipe = true → exec (.ticketApplication n e) s = .next s) ∧
      (∀ u, l.find? due = some u → u.skip = true → u.loc < 2 ^ 48 ∨ s.wipe = false → Gives (.ticketApplication n e) s fun t =>
        counted t ∧ SameBytes s t ∧ t.pendAt unit = l.erase u ∧
          ∀ k, t.frame k = { s.frame k with stat := (t.frame k).stat }) ∧
      (∀ u, l.find? due = some u → u.skip = false → u.loc < 2 ^ 48 →
        s.bankYields (u.loc / l1Bytes) (u.loc % l1Bytes) (1152 + unit % 64) u.urg = false →
        exec (.ticketApplication n e) s = .next s) ∧
      (∀ u v r, l.find? due = some u → u.skip = false → 2 ^ 48 ≤ u.loc → s.wipe = false →
        s.reach (u.loc - 2 ^ 48) (s.entry u.launch).part u.cp u.crumb = (v, .error r) →
        exec (.ticketApplication n e) s = .next (v.holdPending unit u r)) ∧
      (∀ u v k, l.find? due = some u → u.skip = false → 2 ^ 48 ≤ u.loc → s.wipe = false → Memory.wf v.mem = true →
        s.reach (u.loc - 2 ^ 48) (s.entry u.launch).part u.cp u.crumb = (v, .ok (.key k)) → v.windows = s.windows →
        let r := ticketNew u.et u.arith u.rnd (v.readN k size) (u.value.toNat % 256 ^ size)
        Gives (.ticketApplication n e) s fun t => counted t ∧ t.readN k size = r.1 % 256 ^ size ∧
          ∀ a, a < k ∨ k + size ≤ a → t.byte a = v.byte a) ∧
      (∀ u, l.find? due = some u → u.skip = false → u.loc < 2 ^ 48 →
        s.bankYields (u.loc / l1Bytes) (u.loc % l1Bytes) (1152 + unit % 64) u.urg = true →
        let r := ticketNew u.et u.arith u.rnd (s.readN u.loc size) (u.value.toNat % 256 ^ size)
        Gives (.ticketApplication n e) s fun t => counted t ∧ t.pendAt unit = l.erase u ∧
          t.readN u.loc size = r.1 % 256 ^ size ∧
          (∀ a, a < u.loc ∨ u.loc + size ≤ a → t.byte a = s.byte a) ∧
          ∃ x, t.window n = some x ∧ x.wflags = if r.2 = 0 then w.wflags else compressFlags (w.wflags ++ [(e, r.2)])) ∧
      (w.tlim = 0 ∨ late = [] → exec (.ticketGapTimeout n) s = .next s) ∧
      (∀ g gs, w.tlim ≠ 0 → late = g :: gs → s.ownerLives w = true → Gives (.ticketGapTimeout n) s fun t =>
        t = { s with windows := t.windows, frames := t.frames } ∧ ∀ k, t.frame k = if k = w.owner then
          { s.frame k with late := (s.frame k).late ++
              [⟨(s.frame k).seq, 0, 0x0C, w.va + g.1 * size, 1 + n * 256⟩] } else s.frame k) ∧
      (w.tlim ≠ 0 → late ≠ [] → s.ownerLives w = false →
        exec (.ticketGapTimeout n) s = .next (s.killLaunch w.launch 6 0)))

/-- Ticketed updates reach their unit and are applied in ticket order (spec/13 R280, spec/13 R283, spec/13 R284, spec/13 R285,
spec/13 R289, spec/13 R290, spec/13 R291, spec/13 R292). DETAIL 3 of the late 0x11 of an update is the model's choice (log
23). -/
def Obligations.TicketEvents : Prop :=
  TicketPresentation ∧ TicketApplications

/-- The initial copy of a subscription reads one block of the publisher span and sends it as one update; an open batch is sent
32 CK cycles after its first update; the oldest sent batch is applied at the subscriber span (spec/13 R298–R300). Both wait
for the banks of their words (spec/09 R207; the model's choice, log 5: the words of a block or batch go together). While the
publisher's cluster answers nothing the read is repeated, and a batch for another cluster that answers nothing is gone, a
late 0x11 of the owner (spec/16 R376; the model's choice, log 23). A channel accepts an item while it has a slot for it, or
the item waits; a number too far ahead, or one that is there already, is a late 0x0F, and an item for a cluster that is off
or fenced a late 0x11 (spec/15 R349, R350). That a batch is applied in one event is the model's choice (log 23). -/
def Obligations.GlazeAndChannelEvents : Prop :=
  ∀ (s : State) (tile e n : Nat), s.halt = none → Memory.wf s.mem = true →
    let g := s.glaze tile e
    let copying := g.st = .sync ∧ g.copied * 64 < g.len ∧
      (g.pub / l1Bytes = tile / 64 ∨ s.clusterLive (g.pub / l1Bytes) = true)
    let reads := s.glazeYields tile e (g.pub + g.copied * 64) (List.range 8) = true
    let refused := g.sub / l1Bytes ≠ g.pub / l1Bytes ∧ s.clusterLive (g.sub / l1Bytes) = false
    (¬ copying ∨ ¬ reads → exec (.glazeInitialCopy tile e) s = .next s) ∧
    (copying → reads → Gives (.glazeInitialCopy tile e) s fun t => t = { s with tiles := t.tiles, clusters := t.clusters } ∧
      (∀ k, t.cluster k = { s.cluster k with bankPtr := (t.cluster k).bankPtr }) ∧
      (t.glaze tile e).copied = g.copied + 1 ∧ (t.glaze tile e).opened = none ∧
      (∃ b, (t.glaze tile e).sent.getLast? = some b ∧ b.block = g.copied ∧
        ∀ i < 64, look b.bytes i = some (s.byte (g.pub + g.copied * 64 + i))) ∧
      ∀ k m, k ≠ tile ∨ m ≠ e → t.glaze k m = s.glaze k m) ∧
    (∀ b, g.opened = some b → b.since + 32 ≤ s.ck → g.st ≠ .free → Gives (.glazeBatchTimeout tile e) s fun t =>
      t = { s with tiles := t.tiles } ∧ ∀ k m, t.glaze k m = if k = tile ∧ m = e then
        { g with opened := none, sent := g.sent ++ [b] } else s.glaze k m) ∧
    ((∀ b, g.opened = some b → s.ck < b.since + 32) → exec (.glazeBatchTimeout tile e) s = .next s) ∧
    (g.sent = [] → exec (.glazeBatchApply tile e) s = .next s) ∧
    (∀ b rest, g.sent = b :: rest → refused → Gives (.glazeBatchApply tile e) s fun t => SameBytes s t ∧
      (g.st = .active → t.glaze tile e = { g with sent := rest }) ∧
      ∀ f, s.glazeOwner g = some f →
        (t.frame f).late = (s.frame f).late ++ [⟨(s.frame f).seq, 0, 0x11, g.subVa + b.block * 64, 3⟩]) ∧
    (∀ b rest, g.sent = b :: rest → ¬ refused → s.glazeYields tile e (g.sub + b.block * 64) b.words = false →
      exec (.glazeBatchApply tile e) s = .next s) ∧
    (∀ b rest, g.sent = b :: rest → ¬ refused → s.glazeYields tile e (g.sub + b.block * 64) b.words = true →
      (b.bytes.map (·.1)).Nodup → (∀ p ∈ b.bytes, p.1 < 64) →
      Gives (.glazeBatchApply tile e) s fun t =>
        (∀ p ∈ b.bytes, t.byte (g.sub + b.block * 64 + p.1) = p.2) ∧
        (∀ a, (∀ p ∈ b.bytes, a ≠ g.sub + b.block * 64 + p.1) → t.byte a = s.byte a) ∧
        (g.st = .active → t.glaze tile e = { g with sent := rest })) ∧
    (s.items[n]? = none → exec (.channelItemArrival n) s = .next s) ∧
    (∀ it, s.items[n]? = some it →
      let c := s.chan it.pcl it.chan
      let live := s.clusterLive it.pcl = true
      let mine := c.launch = (s.frame it.frame).launch
      let ahead := (it.num + 2 ^ 32 - c.next) % 2 ^ 32
      let there := ∃ i ∈ c.items, i.1 = it.num
      let room := c.items.length + c.taken < c.slots ∨ (ahead = 0 ∧ c.items.length + c.taken < c.slots + 1)
      let fails (cause detail : Nat) := exec (.channelItemArrival n) s =
        .next ({ s with items := dropAt s.items n }.report it.frame ⟨it.seq, 0, cause, it.chan, detail⟩)
      (¬ live → fails 0x11 3) ∧
      (live → ¬ mine → exec (.channelItemArrival n) s = .next { s with items := dropAt s.items n }) ∧
      (live → mine → 2 ^ 16 ≤ ahead → fails 0x0F (2 + it.lcl % 256 * 256)) ∧
      (live → mine → ahead < 2 ^ 16 → there → fails 0x0F (3 + it.lcl % 256 * 256)) ∧
      (live → mine → ahead < 2 ^ 16 → ¬ there → ¬ room → exec (.channelItemArrival n) s = .next s) ∧
      (live → mine → ahead < 2 ^ 16 → ¬ there → room → Gives (.channelItemArrival n) s fun t =>
        t = { s with items := dropAt s.items n, chans := t.chans } ∧
        ∀ k, lookD t.chans k .none = if k = it.pcl * 64 + it.chan then { c with items := c.items ++ [(it.num, it.data)] }
          else lookD s.chans k .none))

/-! ### Events: device registers and containment (spec/09 R198, R199, spec/15, spec/16 R368–R370) -/

/-- A register whose write starts nothing and touches nothing but its word. -/
def plainReg : Reg → Bool
  | .rect _ | .hbmslot _ _ | .l2op _ _ | .chkcnt _ | .tctl _ | .cpwrctl _ | .l1map _ => false
  | _ => true

/-- A write of a device register takes its RW bits, clears the W1C bits written 1 and keeps the rest; a writer without the
right, and an address that names no register, change nothing (spec/00 R9, spec/16 R360). HBMSLOT and RECT refuse a value
that clashes with another's, and set ERR; CPWRCTL written beside its events clears SAVE, CKG and RAILG alone, with the rest
by its types (spec/16 R361); CHKCNT clears the bits that are written 1. REL releases the oldest message of a tag that fired
no launch; V = 0 discards what the tag holds (spec/15 R331). A value for L1MAP waits, or is refused with ERR, and takes
effect on a cluster that holds no context: its L1 is zero (spec/09 R198, R199). That ERR of HBMSLOT stands outside every bit
that a read returns is the model's reading (log 28), and so are the writes of CPWRCTL, CHKCNT and TCTL beside their events
(log 31). -/
def Obligations.RegisterWriteEvents : Prop :=
  ∀ (s : State) (w : Writer) (addr tag c : Nat) (v : Word), s.halt = none →
    (Reg.ofAddr addr = none → exec (.registerWrite w addr v) s = .next s) ∧
    (∀ r, Reg.ofAddr addr = some r → s.mayWrite w r = false → exec (.registerWrite w addr v) s = .next s) ∧
    (∀ r, Reg.ofAddr addr = some r → s.mayWrite w r = true → plainReg r = true → Gives (.registerWrite w addr v) s fun t =>
      t = { s with regs := t.regs } ∧ (∀ q, q.addr ≠ r.addr → t.reg q = s.reg q) ∧
      ∀ b < 64, (t.reg r).getLsbD b = if r.w1c.testBit b ∧ v.getLsbD b then false
        else if (r.rwFor w).testBit b then v.getLsbD b else (s.reg r).getLsbD b) ∧
    (∀ d p, Reg.ofAddr addr = some (.hbmslot d p) → s.mayWrite w (.hbmslot d p) = true →
      let clash := ∃ q < 8, q ≠ p ∧ s.reg (.hbmslot d q) &&& v ≠ 0
      (clash → exec (.registerWrite w addr v) s = .next { s with slotErr := putFlag s.slotErr (d * 8 + p) true }) ∧
      (¬ clash → exec (.registerWrite w addr v) s = .next (s.plainWrite w (.hbmslot d p) v))) ∧
    (∀ k, Reg.ofAddr addr = some (.rect k) → s.mayWrite w (.rect k) = true →
      (s.rectRefused k v = false → exec (.registerWrite w addr v) s = .next (s.plainWrite w (.rect k) v)) ∧
      (s.rectRefused k v = true → Gives (.registerWrite w addr v) s fun t => t = { s with regs := t.regs } ∧
        t.reg (.rect k) = mergeWrite (s.reg (.rect k)) v 0 (Reg.w1c (.rect k)) ||| 0x4000000000000000)) ∧
    (∀ k, Reg.ofAddr addr = some (.cpwrctl k) → s.mayWrite w (.cpwrctl k) = true → Gives (.registerWrite w addr v) s fun t =>
      t = { s with regs := t.regs } ∧ ∀ b < 64, (t.reg (.cpwrctl k)).getLsbD b =
        if b = 31 ∧ v.getLsbD b then false else if 1 ≤ b ∧ b ≤ 3 then (s.reg (.cpwrctl k)).getLsbD b && v.getLsbD b
        else if b = 4 then v.getLsbD b else (s.reg (.cpwrctl k)).getLsbD b) ∧
    (∀ k, Reg.ofAddr addr = some (.chkcnt k) → s.mayWrite w (.chkcnt k) = true → Gives (.registerWrite w addr v) s fun t =>
      t = { s with cores := t.cores } ∧ ∀ j, t.core j = if j = k * 1024 + (s.reg (.chksel k)).toNat % 1024 then
        { s.core j with checks := (s.core j).checks &&& (2 ^ 32 - 1 - v.toNat % 2 ^ 32) } else s.core j) ∧
    (¬ (tag < 4096 ∧ s.mayWrite w (.tctl tag) = true) →
      exec (.tctlRel w tag) s = .next s ∧ exec (.tctlInvalidate w tag v) s = .next s) ∧
    (tag < 4096 → s.mayWrite w (.tctl tag) = true →
      ((∀ m ∈ (s.tag tag).msgs, m.fired ≠ none) → exec (.tctlRel w tag) s = .next s) ∧
      (∀ l m r, (s.tag tag).msgs = l ++ m :: r → (∀ x ∈ l, x.fired ≠ none) → m.fired = none →
        exec (.tctlRel w tag) s = .next (s.setTag tag { s.tag tag with msgs := l ++ r })) ∧
      (v.getLsbD 3 = true → exec (.tctlInvalidate w tag v) s = .next s) ∧
      (v.getLsbD 3 = false → Gives (.tctlInvalidate w tag v) s fun t => t = { s with regs := t.regs, tags := t.tags } ∧
        (t.reg (.tctl tag)).getLsbD 3 = false ∧ (∀ q, q.addr ≠ (Reg.tctl tag).addr → t.reg q = s.reg q) ∧
        ∀ k, t.tag k = if k = tag then { s.tag tag with msgs := [], drop := 0 } else s.tag k)) ∧
    (let x := s.cluster c
     let ok := v.toNat % 128 ≤ 64 ∧ v.toNat / 256 % 64 ≤ 32 ∧ v.toNat % 128 + v.toNat / 256 % 64 ≤ 64
     let may := s.mayWrite w (.l1map c) = true ∧ c < 16
     let map := if v.getLsbD 30 then x.l1map &&& ~~~ 0x40000000 else x.l1map
     (¬ may → exec (.l1mapWrite w c v) s = .next s) ∧
     (may → Gives (.l1mapWrite w c v) s fun t => t = { s with clusters := t.clusters } ∧ ∀ k, t.cluster k = if k = c then
       (if ok then { x with l1map := map, l1pend := some (v &&& 0x3F7F) } else { x with l1map := map ||| 0x40000000 })
       else s.cluster k) ∧
     (x.l1pend = none → exec (.l1mapChange c) s = .next s) ∧
     (s.clusterBusy c = true → exec (.l1mapChange c) s = .next s) ∧
     ∀ m, x.l1pend = some m → s.clusterBusy c = false → Memory.wf s.mem = true → Gives (.l1mapChange c) s fun t =>
       t = { s with clusters := t.clusters, mem := t.mem, poison := t.poison } ∧
       (∀ a, t.byte a = if l1Key c 0 ≤ a ∧ a < l1Key c l1Bytes then 0 else s.byte a) ∧
       ∀ k, t.cluster k = if k = c then
         { x with l1map := m ||| (x.l1map &&& 0x40000000), l1pend := none, bankPtr := [] } else s.cluster k)

/-- What the kill of a launch leaves: its entry stands in CLOSING with the status and the cause, and no window, channel, barrier,
fault record or placement is its (spec/15 R346). -/
structure Killed (s t : State) (e status cause : Nat) : Prop where
  entry    : (t.entry e).st = .closing ∧ (t.entry e).killed = true ∧ (t.entry e).status = status ∧
    (t.entry e).cause = cause ∧ (t.entry e).live = []
  handle   : (t.entry e).gen = (s.entry e).gen ∧ (t.entry e).pkt = (s.entry e).pkt
  windows  : ∀ w ∈ t.windows, w.2.launch ≠ e
  chans    : ∀ c ∈ t.chans, c.2.launch ≠ some e
  barriers : ∀ b ∈ t.barriers, b.launch ≠ some e
  faults   : ∀ r ∈ t.faults, r.launch ≠ some e
  placing  : e ∉ t.placing
  running  : t.halt = s.halt

/-- LKILL kills the live launch of its handle with status 1, and sets ERR for any other; a write that only clears ERR clears it
(spec/15 R331, R346). Life-cycle requests are the management level's: one with a good token moves to the next state and
wipes the package, another sets ERR; while HBM is scrubbed, one whose token lies in the global space is held (spec/16 R369,
R370). That LKILL ends a launch in CLOSING too (spec/15 R341 lists PENDING and PLACED), and that a write which only clears
ERR clears it, are log 29; that a token is read under partition 0 is log 30. -/
def Obligations.KillAndLifeCycleEvents : Prop :=
  ∀ (s : State) (w : Writer) (v : Word), s.halt = none →
    let h := v.toNat % 2 ^ 32
    let clears := v.getLsbD 63 = true ∧ h = 0
    let owns (e : Nat) := (match w with | .m => True | .s p => (s.entry e).part = p)
    let can (e : Nat) := (s.entry e).st = .pending ∨ (s.entry e).st = .placed ∨ (s.entry e).st = .closing
    let fresh (e : Nat) := (s.entry e).killed = false ∧ (s.entry e).posting = false
    let err (r : Reg) (t : State) := t = { s with regs := t.regs } ∧ (t.reg r).getLsbD 63 = true
    let to_ := v.toNat % 4
    let adr := v.toNat / 64 % 2 ^ 42 * 64
    let only := v.getLsbD 63 = true ∧ to_ = 0 ∧ adr = 0
    (clears → Gives (.lkill w v) s fun t => t = { s with regs := t.regs } ∧ (t.reg .lkillReg).getLsbD 63 = false) ∧
    (∀ e, ¬ clears → s.entryOfHandle h = some e → owns e → can e → fresh e →
      Gives (.lkill w v) s fun t => Killed s t e 1 0) ∧
    (∀ e, ¬ clears → s.entryOfHandle h = some e → ¬ (owns e ∧ can e) → Gives (.lkill w v) s (err .lkillReg)) ∧
    (¬ clears → s.entryOfHandle h = none → Gives (.lkill w v) s (err .lkillReg)) ∧
    (∀ p, exec (.lcreq (.s p) v) s = .next s) ∧
    (only → Gives (.lcreq .m v) s fun t => t = { s with regs := t.regs } ∧ (t.reg .lcreq).getLsbD 63 = false) ∧
    (¬ only → s.wipe = true → windowOf adr = .glob → exec (.lcreq .m v) s = .next s) ∧
    (∀ u bs, ¬ only → s.wipe = false ∨ windowOf adr ≠ .glob → (s.plainWrite .m .lcreq v).fwRead 0 adr 2624 = (u, bs) →
      (tokenOk s.life to_ bs = true → Gives (.lcreq .m v) s fun t => t.life = to_ ∧ t.wipe = true ∧
        t.idKey = (decide (to_ = 1) || (decide (to_ = 2) && u.idKey)) ∧ t.windows = [] ∧ t.svars = [] ∧ t.slices = [] ∧
        t.accums = []) ∧
      (tokenOk s.life to_ bs = false → Gives (.lcreq .m v) s fun t => t = u.setReg .lcreq (t.reg .lcreq) ∧
        t.reg .lcreq = u.reg .lcreq ||| 0x8000000000000000))

/-- What the start of a rectangle's reset leaves: BUSY set, the frames of its cores free, its L1 zero, the launches that had a
context in it ending with status 9, and the templates of their contexts free (spec/15 R341, R348; log 29).  The L1MAP of a
cluster whose state stood in retention cells is lost with them (spec/16 R376). -/
structure RectStarted (s t : State) (r : Nat) : Prop where
  busy   : (t.reg (.rectrst r)).getLsbD 1 = true
  frames : ∀ f, isTileCore (coreOf f) = true → s.inRect r (clusterOf (coreOf f)) = true → (t.frame f).stat = .free
  bytes  : ∀ c < 16, s.inRect r c = true → ∀ o < l1Bytes, t.byte (l1Key c o) = 0
  ends   : ∀ e ∈ s.launchesIn (s.rectClusters r), (s.entry e).resident = true →
    (s.entry e).killed = false → (s.entry e).posting = false → (t.entry e).st = .closing
  armed  : ∀ e ∈ s.launchesIn (s.rectClusters r), ∀ a, (s.entry a).st = .armed → (s.entry a).ctx = (s.entry e).ctx →
    (t.entry a).st = .free
  map    : ∀ c, (t.cluster c).l1map = if c < 16 ∧ s.inRect r c = true ∧ (s.pow c).st ∈ [.saved, .clkoff, .off, .waking] then
    Cluster.empty.l1map else (s.cluster c).l1map

/-- RECTRST resets a rectangle in force, unless its reset runs; an error that no trap can report resets the first rectangle that
holds the cluster. The release marks the tiles that failed their test, counts the reset and lifts the fence (spec/15 R348,
spec/06 R144). PRST ends every entry, variable and message of its partition and resets its rectangles (spec/16 R368). What a
rectangle's reset does to templates and retained state is the model's reading (log 29). -/
def Obligations.ContainmentEvents : Prop :=
  ∀ (s : State) (w : Writer) (r c part : Nat) (failed : List Nat), s.halt = none →
    let may := r < 16 ∧ s.mayWrite w (.rectrst r) = true
    let runs (r : Nat) := (s.reg (.rectrst r)).getLsbD 1 = true
    let go (r : Nat) := s.rectValid r = true ∧ ¬ runs r
    let holds (r : Nat) := r < 16 ∧ s.rectValid r = true ∧ s.inRect r c = true
    let pmay := part < 8 ∧ s.mayWrite w (.prst part) = true ∧ (s.reg (.prst part)).getLsbD 1 = false
    (¬ may ∨ ¬ go r → exec (.rectReset w r) s = .next s) ∧
    (may → go r → Gives (.rectReset w r) s fun t => RectStarted s t r) ∧
    ((∀ q, ¬ holds q) → exec (.uncorrectableStateError c) s = .next s) ∧
    (holds r → (∀ q < r, ¬ holds q) → ¬ runs r → Gives (.uncorrectableStateError c) s fun t => RectStarted s t r) ∧
    (¬ runs r → exec (.rectResetRelease r failed) s = .next s) ∧
    (runs r → Gives (.rectResetRelease r failed) s fun t => (t.reg (.rectrst r)).getLsbD 1 = false ∧
      (t.reg (.rectrst r)).toNat / 2 ^ 32 % 2 ^ 16 = min 65535 ((s.reg (.rectrst r)).toNat / 2 ^ 32 % 2 ^ 16 + 1) ∧
      t = { s with regs := t.regs, tiles := t.tiles, cores := t.cores } ∧
      ∀ k < 1024, (t.tile k).excluded = if s.inRect r (k / 64) = true ∧ (s.pow (k / 64)).st ∈ [.on, .quiescing, .quiet] then
        decide (k ∈ failed) else (s.tile k).excluded) ∧
    (¬ pmay → exec (.prstGo w part) s = .next s) ∧
    (pmay → Gives (.prstGo w part) s fun t => (∀ v ∈ t.svars, v.2.part ≠ part) ∧
      (∀ e ∈ s.entriesOf part, (t.entry e).st = .free) ∧
      ∀ k < 4096, s.tagPart k = part → (t.reg (.tctl k)).getLsbD 3 = false ∧ (t.tag k).msgs = [])

/-! ### Events: messages and launches (spec/15 R331–R347, R409, spec/16 R363–R365) -/

/-- A message has been accepted: its words are in the slot, the tag holds it as its newest, every MSI-X vector of every partition
that names the tag has fired (spec/15 R334, spec/16 R364), and an ALLRED posted to a ring command tag has its number
(spec/17 R388).  `u` is the state once the slot has been written. -/
def Accepted (u t : State) (tag slot : Nat) (ws : List Word) : Prop :=
  let key := (ws.getD 3 0).toNat / 2 ^ 32 % 65536 * 65536 + (ws.getD 5 0).toNat % 65536
  let r := u.ringOf (tag % 2)
  t = { u with tags := t.tags, posters := t.posters, msi := t.msi, ring := t.ring } ∧
  (∀ d, t.ringOf d = if 0xF80 ≤ tag ∧ tag < 0xF90 ∧ (ws.getD 0 0).toNat % 256 = 2 ∧ d = tag % 2 then
    { r with counts := put r.counts key (lookD r.counts key 0 + 1) } else u.ringOf d) ∧
  (∀ k, t.tag k = if k = tag then { u.tag tag with msgs := (u.tag tag).msgs ++ [⟨slot, none⟩], last := some slot } else u.tag k) ∧
  t.msi = u.msi ++ (List.range 8).flatMap fun p => ((List.range 64).filter fun k => (u.reg (.msimap p k)).getLsbD 15 &&
    (u.reg (.msimap p k)).toNat % 2 ^ 12 == tag).map fun k => (p, k)

/-- A host write that is no post, or that its function may not make, is discarded and counted in HOSTNAK; one to an invalid tag is
dropped; another enters the next free slot, and with none free DROP rises (spec/15 R333, R334, spec/16 R363, R365).  Without
verified firmware the functions 1 to 8 are absent (spec/16 R371).  A post of a unit waits for the earlier ones to its tag, and
a launch's record takes its TEND, and is LATE or not, as it takes its slot (spec/15 R343, R345, R409). -/
def Obligations.MessageEvents : Prop :=
  ∀ (s u : State) (fn off n k : Nat) (data : List Word), s.halt = none →
    let tag := off / 64
    let p := fn - 1
    let tctl := s.reg (.tctl tag)
    let good := s.fwOk = true ∧ 1 ≤ fn ∧ fn ≤ 8 ∧ off % 64 = 0 ∧ tag < 4096 ∧ data.length = 8 ∧ tctl.toNat % 8 = p ∧ tctl.getLsbD 4 = true
    let valid := tctl.getLsbD 3 = true ∧ (s.reg (.prst p)).getLsbD 1 = false
    let wrote (r : PostRes) := (s.asSup p fun v => v.writeLine unitFrame (s.slotAddr tag k) data) = (u, r)
    (s.fwOk = false → fn ≠ 0 → exec (.hostPost fn off data false) s = .next s) ∧
    (¬ good → s.fwOk = true ∨ fn = 0 → Gives (.hostPost fn off data false) s fun t => t = { s with regs := t.regs } ∧
      (t.reg .hostnak).toNat = min (2 ^ 32 - 1) ((s.reg .hostnak).toNat % 2 ^ 32 + 1)) ∧
    (good → ¬ valid → exec (.hostPost fn off data false) s = .next s) ∧
    (good → valid → s.freeSlot tag = none → Gives (.hostPost fn off data false) s fun t => t = { s with tags := t.tags } ∧
      ∀ q, t.tag q = if q = tag then { s.tag tag with drop := min 255 ((s.tag tag).drop + 1) } else s.tag q) ∧
    (good → valid → s.freeSlot tag = some k → wrote .done →
      (Gives (.hostPost fn off data false) s fun t => Accepted u t tag k data) ∧
      Gives (.hostPost fn off data true) s fun t =>
        lookD t.integrity 0 0 = lookD u.integrity 0 0 + 1 ∧ (t.tag tag).last = some k) ∧
    (s.uposts[n]? = none → exec (.unitPost n) s = .next s) ∧
    (∀ x, s.uposts[n]? = some x →
      let first := ∀ v ∈ s.uposts.take n, v.tag ≠ x.tag
      let free (t : State) : State := match x.entry with | some e => t.freeEntry e | none => t
      let v := match x.entry with | some e => s.missDeadline e | none => s
      let rest := { v with uposts := dropAt v.uposts n }
      let known := (s.reg (.tctl x.tag)).getLsbD 3 = true ∧ s.tagPart x.tag = x.part
      let timed := match x.tend with | some i => x.words.set i (BitVec.ofNat 64 v.time) | none => x.words
      let words := match x.entry with
        | some e => if (v.entry e).late = true then timed.set 0 (timed.getD 0 0 ||| 0x100) else timed
        | none => timed
      (¬ first → exec (.unitPost n) s = .next s) ∧
      (first → ¬ known → exec (.unitPost n) s = .next (free rest)) ∧
      (first → known → rest.freeSlot x.tag = none → exec (.unitPost n) s = .next s) ∧
      (∀ y r, first → known → rest.acceptPost x.tag words (outsidePoster x.part .m) = (y, r) → r ≠ .full →
        exec (.unitPost n) s = .next (free y)))

/-- A decision of a die chooses waiting launches of its store, the first in rank whenever it can be placed; a real-time launch
that cannot be placed keeps its clusters from every launch behind it, until it is LATE (spec/15 R342, R343). A chosen launch
starts: a thread in every slot of its cores, with its stack, packet word and g5, at the entry of its kernel, expecting a
pad; an urgent launch asks its cores for their urgent frames, and a dispatch launch takes a slot at S (spec/15 R339–R341,
spec/01 R33). The rotation by SHARE is the model's reading (log 32). -/
def Obligations.PlacementEvents : Prop :=
  ∀ (s : State) (die e : Nat), s.halt = none →
    let x := s.entry e
    let chosen := e ∈ s.placing ∧ x.st = .pending
    (Gives (.scheduleDecision die) s fun t => t = { s with placing := t.placing, share := t.share } ∧ s.placing <+: t.placing ∧
      (∀ q ∈ t.placing, q ∈ s.placing ∨ ∃ y, (q, y) ∈ s.ranked die) ∧
      ∀ q y rest, s.ranked die = (q, y) :: rest →
        (s.placeable q = true → q ∈ t.placing) ∧
        (s.placeable q = false → y.rt = true → y.late = false → s.time ≤ y.d → ∀ j ∈ t.placing, j ∈ s.placing ∨
          ∃ z, (j, z) ∈ rest ∧ ∀ c ∈ z.needs, c ∉ y.needs)) ∧
    (¬ chosen → exec (.launchPlacement e) s = .next s) ∧
    (chosen → s.placeable e = false → exec (.launchPlacement e) s = .next { s with placing := s.placing.erase e }) ∧
    (chosen → s.placeable e = true → x.disp = false → x.urgent = false → x.threads ≤ 4 → Gives (.launchPlacement e) s fun t =>
      (t.entry e).st = .placed ∧ (t.entry e).tstart = s.time ∧ (t.entry e).live = x.frameList.map (·.1) ∧
      t.placing = s.placing.erase e ∧
      (∀ f, f ∉ x.frameList.map (·.1) → t.frame f = s.frame f) ∧
      ∀ f lt, (f, lt) ∈ x.frameList → let y := t.frame f
        y.stat = .ready ∧ y.launch = some e ∧ y.priv = .u ∧ y.part = x.part ∧ y.pad = some 3 ∧
        y.gr 2 = BitVec.ofNat 64 (stackTop x.stk.toNat f) ∧ y.gr 4 = x.pkt.getD 2 0 ∧ y.gr 5 = x.g5 ∧
        y.tvec = s.reg (.hvec x.part) ∧ y.frozen = (s.core (coreOf f)).freeze.isSome) ∧
    (chosen → s.placeable e = true → x.disp = false → x.urgent = true → Gives (.launchPlacement e) s fun t =>
      (t.entry e).st = .placed ∧ t.frames = s.frames ∧
      ∀ k, t.core k = if k ∈ x.cores then { s.core k with waitUrg := some e } else s.core k) ∧
    (∀ k rest, chosen → s.placeable e = true → x.disp = true → s.dispFree (e / 256) = k :: rest →
      Gives (.launchPlacement e) s fun t => let f := frameKey (16384 + e / 256) k
        (t.entry e).st = .placed ∧ (t.entry e).live = [f] ∧ (t.frame f).stat = .ready ∧ (t.frame f).priv = .s ∧
        (t.frame f).launch = some e ∧ ∀ q, q ≠ f → t.frame q = s.frame q)

/-- A real-time launch past its deadline becomes LATE once, is reported to its stream and counted, and is killed with status 2
when ABORT_ON_MISS is set (spec/15 R343). A launch in CLOSING completes when its fence has drained, or its kill is done: one
that is past D is LATE then; its record is kept for LWAIT, posted, or discarded with the entry (spec/15 R344–R346). A held
message fires the armed template; a packet that fails the checks then ends with their status (spec/15 R341, R345). That the
overrun is posted and counted also where ABORT_ON_MISS kills is the model's reading (log 29): spec/15 R343 says that the
launch is killed. -/
def Obligations.LaunchEndEvents : Prop :=
  ∀ (s : State) (e tag : Nat), s.halt = none →
    let x := s.entry e
    let live := x.st = .pending ∨ x.st = .placed ∨ (x.st = .closing ∧ x.killed = false)
    let missed := live ∧ x.rt = true ∧ x.late = false ∧ x.d < s.time
    let post : UPost := ⟨s.regField (.stream x.stream) 11 0, x.part, [BitVec.ofNat 64 (handleOf e x.gen), BitVec.ofNat 64 x.d,
      BitVec.ofNat 64 s.time, 0, 0, 0, 0, 0], none, none⟩
    let marked (u : State) := u = { s with launches := u.launches, uposts := u.uposts, regs := u.regs } ∧
      u.entry e = { x with late := true } ∧ (∀ k, k ≠ e → u.entry k = s.entry k) ∧
      u.uposts = (if s.tagValidFor post.tag x.part = true then s.uposts ++ [post] else s.uposts) ∧
      u.regField (.stream x.stream) 47 16 = min (2 ^ 32 - 1) (s.regField (.stream x.stream) 47 16 + 1)
    let drained := if x.killed then s.engineOwes e false = false ∧ s.engineOwes e true = false
      else s.fenceDrained e x.fence = true
    let ends := x.st = .closing ∧ x.posting = false ∧ drained
    let record (l : List Word) := l.length = 8 ∧ (l.getD 0 0).toNat % 2 ^ 8 = x.status % 2 ^ 8 ∧
      ((l.getD 0 0).getLsbD 8 = true ↔ x.late = true ∨ missed) ∧ l.getD 1 0 = s.signature x ∧
      l.getD 3 0 = BitVec.ofNat 64 (x.fltid.getD 0xFFFFFFFF) ∧
      (l.getD 0 0).toNat / 2 ^ 16 % 2 ^ 16 = x.cause % 2 ^ 16 ∧ (l.getD 0 0).toNat / 2 ^ 32 = handleOf e x.gen ∧
      l.getD 2 0 = BitVec.ofNat 64 x.flags ∧ l.getD 4 0 = BitVec.ofNat 64 x.tstart ∧ l.getD 5 0 = BitVec.ofNat 64 s.time ∧
      l.getD 6 0 = BitVec.ofNat 64 x.d ∧ l.getD 7 0 = x.pkt.getD 5 0
    (¬ missed → exec (.deadlineMiss e) s = .next s) ∧
    (missed → ∃ u, marked u ∧
      (x.abort = false ∨ x.st = .closing → exec (.deadlineMiss e) s = .next u) ∧
      (x.abort = true → x.st ≠ .closing → exec (.deadlineMiss e) s = .next (u.killLaunch e 2 0))) ∧
    (¬ ends → exec (.launchCompletion e) s = .next s) ∧
    (ends → x.ckind = 2 → Gives (.launchCompletion e) s fun t => (t.entry e).st = .done ∧ record (t.entry e).record ∧
      (t.entry e).gen = x.gen) ∧
    (ends → x.ckind = 1 → s.tagValidFor x.ctag x.part = true → ∃ u, (missed → marked u) ∧ (¬ missed → u = s) ∧
      Gives (.launchCompletion e) s fun t => (t.entry e).posting = true ∧ ∃ l, record l ∧
        u.uposts <+: t.uposts ∧ t.uposts.getLast? = some ⟨x.ctag, x.part, l, some e, some 5⟩ ∧
        (NoDeadBatch s (some e) → t.uposts = u.uposts ++ [⟨x.ctag, x.part, l, some e, some 5⟩])) ∧
    (ends → x.ckind ≠ 2 → (x.ckind = 1 → s.tagValidFor x.ctag x.part = false) → Gives (.launchCompletion e) s fun t =>
      (t.entry e).st = .free ∧ (t.entry e).gen = x.gen) ∧
    ((s.tag tag).armed = none ∨ (∀ m ∈ (s.tag tag).msgs, m.fired ≠ none) → exec (.templateFire tag) s = .next s) ∧
    (∀ q k, (s.tag tag).armed = some q → (s.tag tag).unfired = some k → s.freeEntryOf (q / 256) = none →
      exec (.templateFire tag) s = .next s) ∧
    (∀ q k n, (s.tag tag).armed = some q → (s.tag tag).unfired = some k → s.freeEntryOf (q / 256) = some n →
      pktFlag (s.entry q).pkt 5 = false → s.firedStatus (s.entry q) (q / 256) 0 ≠ 0 → Gives (.templateFire tag) s fun t =>
        (t.entry n).st = .closing ∧ (t.entry n).killed = true ∧ (t.entry n).status = s.firedStatus (s.entry q) (q / 256) 0) ∧
    (∀ q k n i j h, (s.tag tag).armed = some q → (s.tag tag).unfired = some k → s.freeEntryOf (q / 256) = some n →
      pktFlag (s.entry q).pkt 5 = false → s.pktKernel (s.entry q).pkt = some (i, j, h) →
      s.firedStatus (s.entry q) (q / 256) 0 = 0 → Gives (.templateFire tag) s fun t =>
        t.entry n = { s.entry q with
          st := .pending
          d := s.pktDeadline (s.entry q).pkt h 0
          g5 := BitVec.ofNat 64 (s.slotAddr tag k)
          tag := some (tag, k)
          killed := false
          status := 0
          gen := ((s.entry n).gen + 1) % 65536
          arrival := lookD s.arrivals (q / 256) 0 } ∧
        (t.tag tag).armed = some q ∧
        (t.tag tag).msgs = (s.tag tag).msgs.map fun m => if m.slot = k then { m with fired := some n } else m)

/-! ### Events: the package (spec/16) -/

/-- A package reset returns everything to its reset state but the fuses, HBM and what has left the package, and the boot ROM starts
verified firmware on the management core; after a thermal shutdown the package answers nothing (spec/16 R370, R371, R377).
The scrub of HBM ends with zero everywhere; an attestation request is answered by a signed report (R372). -/
def ResetAndReportEvents : Prop :=
  ∀ (s : State) (nonce : BitVec 256), Memory.wf s.mem = true →
    let hbm (a : Nat) := 2 ^ 49 ≤ a ∧ a < 2 ^ 53
    (s.halt = some .thermal → exec .packageReset s = .fault .stopped) ∧
    (s.halt ≠ some .thermal → Gives .packageReset s fun t => t.halt = none ∧ t.regs = [] ∧ t.launches = [] ∧ t.windows = [] ∧
      t.life = s.life ∧ t.ringOut = s.ringOut ∧ t.hostOut = s.hostOut ∧ t.reports = s.reports ∧
      (∀ k, k ≠ frameKey mgmtCore 0 → (t.frame k).stat = .free) ∧
      (t.fwOk = true → (t.frame (frameKey mgmtCore 0)).stat = .ready ∧ (t.frame (frameKey mgmtCore 0)).priv = .m ∧
        (t.frame (frameKey mgmtCore 0)).pc = 0 ∧ (t.frame (frameKey mgmtCore 0)).pad = some 3) ∧
      ∀ a, hbm a → t.byte a = s.byte a) ∧
    (s.halt = none →
      (s.wipe = false → exec .hbmScrubEnd s = .next s) ∧
      (s.wipe = true → Gives .hbmScrubEnd s fun t => t = { s with mem := t.mem, poison := t.poison, wipe := false } ∧
        ∀ a, (hbm a → t.byte a = 0) ∧ (¬ hbm a → t.byte a = s.byte a)) ∧
      (s.fwOk = false ∨ s.idKey = false → exec (.attestationRequest nonce) s = .next s) ∧
      (s.fwOk = true → s.idKey = true → Gives (.attestationRequest nonce) s fun t =>
        ∃ rep : List Byte, t = { s with reports := s.reports ++ [rep ++ Config.falconSign (Config.shake256 rep 64)] } ∧
          rep.length = 192 ∧ rep.take 32 = leBytes 32 nonce.toNat ∧ rep.getD 96 0 = BitVec.ofNat 8 (s.life % 4) ∧
          rep.getD 97 0 = 0xB0))

/-- Firmware serves the request that a slot of its tag holds, once the scrub of HBM is over: it answers the requester, on its own
tag, 5 for another partition, and otherwise with the status of the load: 2 when the bytes cannot be read or no key of the
partition signs them, 1 for the format, 3 for an unknown erratum, 4 when no place serves: one that is not aligned, not of its
own, or not mapped with the page size, the pinning and the rights that the record asks for (spec/03 R83); and releases the
slot (spec/16 R370, R373, spec/03 R84, R85). -/
def ImageLoadEvents : Prop :=
  ∀ (s u v : State) (slot st : Nat) (places : List Nat) (ws : List Word) (bs : List Byte), s.halt = none →
    let held := s.fwOk = true ∧ s.wipe = false ∧ ∃ m ∈ (s.tag 0xFFF).msgs, m.slot = slot
    let w (i : Nat) : Nat := (ws.getD i 0).toNat
    let part := w 2 % 8
    let p : Places := ⟨places.getD 0 0, places.getD 1 0, BitVec.ofNat 64 (places.getD 2 0), places.drop 3⟩
    let from_ := match look u.posters (0xFFF * 64 + slot) with | some x => x.part | none => 8
    let rs := (List.range (fieldAt bs 8 2)).map fun r => recordAt bs ((sectionAt bs 0x20).1 + 32 * r)
    let signed := w 1 ≤ bs.length ∧ ∃ k ∈ (lookD u.keys part []).take 8, imageSigned bs k = true
    let answers (v t : State) (st : Nat) := t = { v with tags := t.tags, uposts := t.uposts } ∧
      (∀ m ∈ (t.tag 0xFFF).msgs, m.slot ≠ slot) ∧ t.uposts = if v.tagValidFor (w 3 % 4096) from_ = true then
        v.uposts ++ [⟨w 3 % 4096, from_,
          [BitVec.ofNat 64 st, if st = 0 then ws.getD 0 0 else 0, 0, 0, 0, 0, 0, 0], none, none⟩] else v.uposts
    (¬ held → exec (.imageLoadRequest slot places) s = .next s) ∧
    (held → (s.asSup (s.tagPart 0xFFF) fun x => x.readLine unitFrame (s.slotAddr 0xFFF slot)) = (u, .words ws) →
      (from_ ≠ part → Gives (.imageLoadRequest slot places) s fun t => answers u t 5) ∧
      (from_ = part → u.loadImage (w 0) (w 1) part p = (v, st) → Gives (.imageLoadRequest slot places) s fun t => answers v t st)) ∧
    (u.fwRead part (w 0) (w 1) = (v, bs) →
      (¬ signed → u.loadImage (w 0) (w 1) part p = (v, 2)) ∧
      (signed → imageOk bs = false → u.loadImage (w 0) (w 1) part p = (v, 1)) ∧
      (signed → imageOk bs = true → 4 ≤ fieldAt bs (sectionAt bs 0x30).1 8 → u.loadImage (w 0) (w 1) part p = (v, 3)) ∧
      (signed → imageOk bs = true → fieldAt bs (sectionAt bs 0x30).1 8 < 4 →
        p.ok rs (sectionAt bs 0x18).2 = false ∨ v.placesServe part p rs = false →
        u.loadImage (w 0) (w 1) part p = (v, 4)))

/-- Package reset, scrub, attestation and image loads (spec/03 R84, spec/03 R85, spec/16 R370, spec/16 R371, spec/16 R372,
spec/16 R373, spec/16 R377). Keys and signatures are open (log 11). That firmware starts in slot 0 of the management core at
pc 0, at M, with a pad of kind 3 is log 8 (spec/16 R371 gives no entry); the checks of a load's places are log 30, and
checks of the format that R84 does not list log 37. -/
def Obligations.PackageEvents : Prop :=
  ResetAndReportEvents ∧ ImageLoadEvents

/-- A write of CPWRCTL at M takes the handshake one state on, when its request belongs to the state, and otherwise sets ERR and
changes nothing; quiescence completes when the cluster holds no context; CWAKE wakes a cluster that is saved, clock-gated or
off, and the restored cluster is ON, with empty instruction caches and an L1 that is zero unless it was kept; where a reset has
left its built-in test due, that runs, with a free outcome (log 7), and a failure resets the rectangle of the cluster
(spec/15 R348, spec/16 R375, R376). -/
def PowerEvents : Prop :=
  ∀ (s : State) (c : Nat) (v : Word), s.halt = none →
    let p := s.pow c
    let old := s.reg (.cpwrctl c)
    let sets (b : Nat) := v.getLsbD b = true ∧ old.getLsbD b = false
    let bad := (sets 1 ∧ p.st ≠ .quiet) ∨ (sets 2 ∧ p.st ≠ .saved) ∨ (sets 3 ∧ p.st ≠ .clkoff)
    let goes (i : Instr) (q : Power) := Gives i s fun t => t = { s with regs := t.regs, power := t.power } ∧
      (∀ k, t.pow k = if k = c then q else s.pow k) ∧ ∀ b < 5, (t.reg (.cpwrctl c)).getLsbD b = v.getLsbD b
    let errs (i : Instr) := Gives i s fun t => t = { s with regs := t.regs } ∧ t.reg (.cpwrctl c) = old ||| 0x80000000
    let kept := p.lost = false ∧ old.getLsbD 4 = true
    let five := [Instr.qreqSet .m c v, .qreqClear .m c v, .save .m c v, .ckg .m c v, .railg .m c v]
    (∀ q, ∀ i ∈ [Instr.qreqSet (.s q) c v, .qreqClear (.s q) c v, .save (.s q) c v, .ckg (.s q) c v, .railg (.s q) c v,
      .cwake (.s q) c], exec i s = .next s) ∧
    (16 ≤ c → ∀ i ∈ five, exec i s = .next s) ∧
    (c < 16 →
      (sets 0 → ¬ sets 1 → ¬ sets 2 → ¬ sets 3 → p.st = .on → goes (.qreqSet .m c v) { p with st := .quiescing }) ∧
      (v.getLsbD 0 = false → old.getLsbD 0 = true → ¬ sets 1 → ¬ sets 2 → ¬ sets 3 →
        p.st = .quiescing ∨ p.st = .quiet → goes (.qreqClear .m c v) { p with st := .on }) ∧
      (sets 1 → ¬ bad → goes (.save .m c v) { p with st := .saved }) ∧
      (sets 2 → ¬ bad → goes (.ckg .m c v) { p with st := .clkoff }) ∧
      (sets 3 → ¬ bad → goes (.railg .m c v) { p with st := .off, lost := p.lost || !v.getLsbD 4 }) ∧
      (bad → v.getLsbD 0 = true → errs (.qreqSet .m c v)) ∧ (bad → v.getLsbD 0 = false → errs (.qreqClear .m c v)) ∧
      (bad → v.getLsbD 1 = true → errs (.save .m c v)) ∧ (bad → v.getLsbD 2 = true → errs (.ckg .m c v)) ∧
      (bad → v.getLsbD 3 = true → errs (.railg .m c v))) ∧
    (p.st = .quiescing ∧ s.clusterBusy c = false → exec (.quiesceComplete c) s = .next (s.setPow c { p with st := .quiet })) ∧
    (p.st ≠ .quiescing ∨ s.clusterBusy c = true → exec (.quiesceComplete c) s = .next s) ∧
    (p.st = .saved ∨ p.st = .clkoff ∨ p.st = .off → exec (.cwake .m c) s = .next (s.setPow c { p with st := .waking })) ∧
    (p.st ≠ .saved → p.st ≠ .clkoff → p.st ≠ .off → exec (.cwake .m c) s = .next s) ∧
    (p.st ≠ .waking → exec (.wakeRestoreComplete c) s = .next s) ∧
    (p.st = .waking → Memory.wf s.mem = true → Gives (.wakeRestoreComplete c) s fun t =>
      (t.pow c).st = .on ∧ (t.pow c).wakes = min (2 ^ 32 - 1) (p.wakes + 1) ∧ (∀ b < 4, (t.reg (.cpwrctl c)).getLsbD b = false) ∧
      (∀ k < 1024, k / 64 = c → (t.tile k).icache = []) ∧
      (p.test = false → t.frames = s.frames ∧
        ∀ a, t.byte a = if ¬ kept ∧ l1Key c 0 ≤ a ∧ a < l1Key c l1Bytes then 0 else s.byte a) ∧
      (p.test = true → ∃ v : Word, (∀ k < 1024, k / 64 = c → (t.tile k).excluded = v.getLsbD (k % 64)) ∧
        (v = 0 → t.frames = s.frames) ∧
        (v ≠ 0 → ∀ r < 16, s.rectValid r = true → s.inRect r c = true → (∀ q < r, s.rectValid q = false ∨ s.inRect q c = false) →
          (t.reg (.rectrst r)).getLsbD 1 = true)))

/-- A thermal step writes STEP and TJ and sets MEVT.THERM; at 110 °C the package stops; a die-to-die module that fails is out of use,
and with the last one the package stops; a replayed flit changes nothing; the host writes its window of the management core's
memory (spec/16 R358, R362, R366, R367, R377). -/
def BoardEvents : Prop :=
  ∀ (s : State) (n tj off : Nat) (data : List Byte), s.halt = none →
    let base := sramKey (Config.mailboxPage 0 % 256 * 4096 + off)
    (2 < n → exec (.thermalStep n tj) s = .next s) ∧
    (n ≤ 2 → Gives (.thermalStep n tj) s fun t => t = { s with regs := t.regs } ∧ (t.reg .mevt).getLsbD 3 = true ∧
      (t.reg .therm).toNat = (s.reg .therm).toNat % 2 ^ 16 + n * 2 ^ 16 + tj % 256 * 2 ^ 24) ∧
    exec .thermalShutdown s = .next { s with halt := some .thermal } ∧
    (4 ≤ n ∨ n ∈ s.d2dBad → exec (.d2dModuleFail n) s = .next s) ∧
    (n < 4 → n ∉ s.d2dBad → Gives (.d2dModuleFail n) s fun t => t = { s with
        d2dBad := s.d2dBad ++ [n]
        regs := t.regs
        halt := if s.d2dBad.length = 3 then some .fatal else none } ∧ (t.reg .mevt).getLsbD 2 = true) ∧
    exec .d2dFlitReplay s = .next s ∧
    (4096 < off + data.length → exec (.hostMailboxWrite off data) s = .next s) ∧
    (off + data.length ≤ 4096 → Memory.wf s.mem = true → Gives (.hostMailboxWrite off data) s fun t =>
      t = { s with mem := t.mem } ∧ ∀ a, t.byte a = if base ≤ a ∧ a < base + data.length then data.getD (a - base) 0 else s.byte a)

/-- The power handshake, thermal steps, the die-to-die link and the mailbox (spec/16 R358, spec/16 R362, spec/16 R366, spec/16
R367, spec/16 R375, spec/16 R376, spec/16 R377). That a failed test at a wake resets the rectangle is log 29 (spec/15 R348
says so of a tile's reset); a CPWRCTL write that sets SAVE and changes QREQ is log 31. -/
def Obligations.PowerAndBoardEvents : Prop :=
  PowerEvents ∧ BoardEvents

/-! ### Events: the ring (spec/17) -/

/-- The engine of die `die` takes next, from the tag, the command that its message in the slot `k` holds (spec/17 R384). -/
def TakesNext (s : State) (die tag k : Nat) (ws : List Word) : Prop :=
  die ≤ 1 ∧ s.ringNext die = some tag ∧ s.ringHead tag = some k ∧ s.ringWords tag k = ws

/-- A command as it is taken. -/
def taken (s : State) (die tag k : Nat) (ws : List Word) : RJob :=
  ⟨tag, k, (tag - 0xF80) / 2, ws, s.ringPoster tag k, s.time, .running, 0, 0, [], [], 0, none, false, (s.ringOf die).taken⟩

/-- The engine of a die holds one command more. -/
def Takes (s t : State) (die : Nat) (j : RJob) : Prop :=
  t = { s with ring := t.ring } ∧ ∀ d, t.ringOf d = if d = die then
    { s.ringOf die with
      jobs := (s.ringOf die).jobs ++ [j], last := (j.tag - 0xF80) / 2, taken := (s.ringOf die).taken + 1 } else s.ringOf d

/-- The engine of a die passes the turn of a tag on, its command untaken (spec/17 R384). -/
def PassesOn (s t : State) (die tag : Nat) : Prop :=
  t = { s with ring := t.ring } ∧ ∀ d, t.ringOf d =
    if d = die then { s.ringOf die with last := (tag - 0xF80) / 2 } else s.ringOf d

/-- What a port's queue gains, from `s` to `t`, in each direction: D1's leads east, D0's west. -/
def Queues (s t : State) (l : Bool → List RMsg) : Prop :=
  ∀ e : Bool, (t.ringOf (if e then 1 else 0)).port.queue = (s.ringOf (if e then 1 else 0)).port.queue ++ l e

/-- A message about a command goes round the ring: eastward, or by each port that is up when a link is down (spec/17 R383,
R395). -/
def GoesRound (s t : State) (kind : Nat) (j : RJob) : Prop :=
  Queues s t fun e => if (if s.linksDown = 0 then e else s.portUp e) then [⟨16, e, j.urg, kind, j.head, []⟩] else []

/-- The take of a ring command of each kind (spec/17 R384–R386): the event of another kind, and one whose tag is not next,
change nothing; a command that breaks the list ends BADCMD (1); a SEND or an ALLRED on a ring that is not configured ends
NORING (4); CONFIG sets pos and n and sends the token, whose return configures the ring (R379); QUERY ends at once (R392);
an ALLRED that names too few members ends BADCMD, one that may not access its vectors DENIED (2), one whose SRC or DST is
misaligned or whose SRC lies in no window it may name FAULT (3, log 20), and another runs and starts its chunks (R388,
R389). The order of the answers of a take is the model's reading (log 20). -/
def Obligations.RingTakes : Prop :=
  ∀ (s : State) (die tag k : Nat) (ws : List Word) (agree : Bool), s.halt = none →
    let j := taken s die tag k ws
    let kind := (ws.getD 0 0).toNat % 256
    let four := [(Instr.ringConfig die tag, decide (kind = 4)), (.ringSend die tag, decide (kind = 1)),
      (.allred die tag, decide (kind = 2)), (.ringQuery die tag, decide (kind = 0 ∨ kind = 3 ∨ 4 < kind))]
    let ends (st : Nat) (t : State) := Takes s t die { j with stage := .ended, status := st }
    (s.ringNext die ≠ some tag → ∀ i ∈ four, exec i.1 s = .next s) ∧
    (TakesNext s die tag k ws → ∀ i ∈ four, i.2 = false → exec i.1 s = .next s) ∧
    (TakesNext s die tag k ws → badRing ws j.who = true → ∀ i ∈ four, i.2 = true → Gives i.1 s (ends 1)) ∧
    (TakesNext s die tag k ws → badRing ws j.who = false →
      (kind = 4 → Gives (.ringConfig die tag) s fun t =>
        t = { s with
          ringPos := (ws.getD 3 0).toNat % 16
          ringN := (ws.getD 3 0).toNat / 16 % 16 + 1
          ringSet := true
          ringCfg := false
          ring := t.ring } ∧
        (t.ringOf die).jobs = (s.ringOf die).jobs ++ [{ j with stage := .ended }] ∧
        Queues s t fun e =>
          if e then [⟨16, true, j.urg, 0, [(ws.getD 3 0).toNat % 16, (ws.getD 3 0).toNat / 16 % 16 + 1], []⟩] else []) ∧
      (kind = 3 → Gives (.ringQuery die tag) s (ends 0)) ∧
      (s.ringCfg = false → (kind = 1 → Gives (.ringSend die tag) s (ends 4)) ∧ (kind = 2 → Gives (.allred die tag) s (ends 4))) ∧
      (kind = 2 → s.ringCfg = true → s.badMembers j = true → Gives (.allred die tag) s (ends 1)) ∧
      (∀ u, kind = 2 → s.ringCfg = true → s.badMembers j = false → s.ringDenied j = (u, true) →
        Gives (.allred die tag) s fun t => Takes u t die { j with stage := .ended, status := 2 }) ∧
      ∀ u, kind = 2 → s.ringCfg = true → s.badMembers j = false → s.ringDenied j = (u, false) →
        let bad := (∀ c, windowOf j.src ≠ .glob ∧ windowOf j.src ≠ .own c ∧ ∀ d, windowOf j.src ≠ .lcl c d) ∨
          j.src % j.size ≠ 0 ∨ j.dst % j.size ≠ 0
        (bad → Gives (.allred die tag) s fun t => t = { u with ring := t.ring } ∧
          (t.ringOf die).jobs = (u.ringOf die).jobs ++ [{ j with stage := .ended, status := 3 }] ∧ GoesRound u t 5 j) ∧
        (¬ bad → ∃ v : State, Takes u v die j ∧
          exec (.allred die tag) s = .next ((List.range j.count).foldl (fun w c => w.startChunk die (u.ringOf die).jobs.length c) v))) ∧
    (s.ringSet = true → exec (.ringConfirm agree) s = .next { s with ringCfg := agree }) ∧
    (s.ringSet = false → exec (.ringConfirm agree) s = .next s)

/-- The read of the 64 bytes of a SEND under the rights of its poster: the state, whether a right fails, the bytes, and a failure of
the access itself (spec/17 R386, R387). -/
def sendRead (s : State) (j : RJob) : State × Bool × EBytes × Option EErr :=
  s.asPoster j.who j.part fun u =>
    match u.checkAddr j.who.frame j.src 1 .r .other, u.checkAddr j.who.frame (j.src + 63) 1 .r .other with
    | (u1, none), (_, none) => let (u2, l, e) := u1.readRun j.who.frame 0 (wordRuns 9 j.src 64); (u2, false, l, e)
    | (u1, _), _ => (u1, true, [], none)

/-- A SEND whose source may not be read ends DENIED (2), one whose read fails, or whose source lies in no window it may name, ends
FAULT (3), and one that is held gives its turn to the next tag (R384); one to its own position is a post here, DONE (0), POISON
(10) or REFUSED (9); one to another position waits at the port of its route, or ends UNREACH (6) (spec/17 R383, R387).  A post from
another package is answered, DONE once its slot is written and else REFUSED; it waits while no slot is free, and a duplicate is
discarded (R383).  A poisoned word arrives poisoned, every word of a line whose check value fails (R394). -/
def RingMessages : Prop :=
  ∀ (s u v : State) (die tag k pos sdie num : Nat) (ws data : List Word) (poison : BitVec 8) (d hurt urg : Bool) (bs : EBytes)
      (e : Option EErr), s.halt = none →
    let j := taken s die tag k ws
    let dest := j.arg % 16
    let dtag := j.arg / 65536 % 4096
    let bad := bs.any (·.2)
    let done : RJob := { j with poison := bad }
    let named := windowOf j.src = .glob ∨ (∃ c, windowOf j.src = .own c) ∨ ∃ c d, windowOf j.src = .lcl c d
    let got := (pos, sdie, num) ∈ (s.ringOf 0).got ∨ (pos, sdie, num) ∈ (s.ringOf 1).got
    let receive : Instr := .ringPostReceive die tag ⟨data, poison, pos, sdie, num, urg⟩ hurt
    let spoilt := (List.range 8).filter fun i => hurt || poison.getLsbD i
    let refused := 4096 ≤ tag ∨ (s.reg (.tctl tag)).getLsbD 3 = false ∨ (s.reg (.tctl tag)).getLsbD 5 = false ∨
      (s.reg (.prst (s.tagPart tag))).getLsbD 1 = true
    let answer (v t : State) (st : Nat) := t = { v with ring := t.ring } ∧
      (t.ringOf die).got = (v.ringOf die).got ++ [(pos, sdie, num)] ∧
      Queues v t fun east => if v.route pos = some east then [⟨pos, east, urg, 2, [sdie, num, st], []⟩] else []
    let who := outsidePoster (s.tagPart tag) .u
    (TakesNext s die tag k ws → badRing ws j.who = false → (ws.getD 0 0).toNat % 256 = 1 → s.ringCfg = true →
      sendRead s j = (u, d, bs, e) →
      (d = true → Gives (.ringSend die tag) s fun t => Takes u t die { j with stage := .ended, status := 2 }) ∧
      (d = false → ¬ named → Gives (.ringSend die tag) s fun t => Takes u t die { j with stage := .ended, status := 3 }) ∧
      (d = false → named → e = some .hold → Gives (.ringSend die tag) s fun t => PassesOn u t die tag) ∧
      (∀ x, d = false → e = some x → x ≠ .hold → Gives (.ringSend die tag) s fun t =>
        Takes u t die { j with stage := .ended, status := 3 }) ∧
      (d = false → named → e = none → dest = u.ringPos →
        (u.ringPost dtag (lineWords bs) (badWords bs) j.who = (v, some true) → Gives (.ringSend die tag) s fun t =>
          Takes v t die { done with stage := .ended, status := if bad then 10 else 0 }) ∧
        (u.ringPost dtag (lineWords bs) (badWords bs) j.who = (v, some false) → Gives (.ringSend die tag) s fun t =>
          Takes v t die { j with stage := .ended, status := 9 }) ∧
        (u.ringPost dtag (lineWords bs) (badWords bs) j.who = (v, none) → Gives (.ringSend die tag) s fun t =>
          PassesOn u t die tag)) ∧
      (d = false → named → e = none → dest ≠ u.ringPos →
        (∀ east, u.route dest = some east → Gives (.ringSend die tag) s fun t => t = { u with ring := t.ring } ∧
          (t.ringOf die).jobs = (u.ringOf die).jobs ++ [done] ∧ (t.ringOf die).last = (tag - 0xF80) / 2 ∧
          Queues u t fun w => if w = east then
            [⟨dest, east, j.urg, 1, [dtag, u.ringPos, die, j.num] ++ badWords bs, lineWords bs⟩] else []) ∧
        (u.route dest = none → Gives (.ringSend die tag) s fun t => Takes u t die { j with stage := .ended, status := 6 }))) ∧
    (data.length ≠ 8 ∨ 1 < die ∨ got → exec receive s = .next s) ∧
    (data.length = 8 → die ≤ 1 → ¬ got →
      (refused → Gives receive s fun t => answer (if hurt then s.countError die else s) t 9) ∧
      (¬ refused → s.acceptPost tag data who = (v, .full) → exec receive s = .next s) ∧
      (¬ refused → s.acceptPost tag data who = (v, .done) → Gives receive s fun t =>
        let w := if spoilt = [] then v else v.poisonPost tag spoilt
        answer (if hurt then w.countError die else w) t 0) ∧
      (∀ r, ¬ refused → r ≠ .full → r ≠ .done → s.acceptPost tag data who = (v, r) → Gives receive s fun t =>
        answer (if hurt then v.countError die else v) t 9))

/-- Each chunk starts at one member, which sends its own elements.  Partial values reach each other member once: it combines them,
element by element, with its own, and sends them on; the root writes them and sends them as final values, which every member writes
and sends on but the one before the root; a duplicate is discarded (spec/17 R389, R390), and a chunk whose next member has no route
ends the command UNREACH (R395).  Terms that differ end it MISMATCH on every member (R388); a combine that fails its second
comparison ends it ENGFAIL on every member (R394). -/
def ReduceChunks : Prop :=
  ∀ (s u v w : State) (die n c flags flel : Nat) (data : List Word) (poison : BitVec 8) (terms : List Nat) (j : RJob)
      (mine : EBytes), s.halt = none → (s.ringOf die).jobs[n]? = some j →
    let m := j.order.length
    let x : RChunk := ⟨arrived (j.len c) data poison, flags % 256, if flel ≥ 2 ^ 32 - 1 then none else some flel⟩
    let runs := j.kind = 2 ∧ j.stage = .running ∧ data.length = 8
    let same := terms = [(j.words.getD 0 0).toNat / 2 ^ 8 % 2 ^ 8, (j.words.getD 0 0).toNat / 2 ^ 16 % 2 ^ 8,
      (j.words.getD 0 0).toNat / 2 ^ 32 % 2 ^ 32, j.arg]
    let works := runs ∧ same ∧ c < j.count
    let go (final fail : Bool) : Instr := .reduceChunkArrival die n c final ⟨data, terms⟩ poison flags flel fail
    let had (y : RChunk) := { j with chunks := j.chunks ++ [c], aux := j.aux + j.len c / j.size, flags := j.flags ||| y.flags
                                     flel := minOpt j.flel y.flel, poison := j.poison || y.bs.any (·.2) }
    let whole (k : RJob) := if j.count ≤ j.chunks.length + 1 then
      { k with stage := .ended, status := if k.poison then 10 else 0 } else k
    let endsAs (i : Instr) (v : State) (k : RJob) (st kind : Nat) := Gives i s fun t => t = { v with ring := t.ring } ∧
      (t.ringOf die).jobs[n]? = some { k with stage := .ended, status := st } ∧ GoesRound v t kind j
    let fails (i : Instr) (v : State) (st kind : Nat) := endsAs i v j st kind
    (∀ a b, ¬ runs ∨ (same ∧ j.count ≤ c) ∨ (¬ same ∧ j.chunks ≠ []) → exec (go a b) s = .next s) ∧
    (∀ a b, runs → ¬ same → j.chunks = [] → fails (go a b) s 5 6) ∧
    (∀ a, works → fails (go a true) s 11 7) ∧
    (works → s.chunkStep j c = 0 ∨ c ∈ j.passed → exec (go false false) s = .next s) ∧
    (works → s.chunkStep j c + 1 = m ∨ c ∉ j.passed ∨ c ∈ j.chunks → exec (go true false) s = .next s) ∧
    (works → s.chunkStep j c ≠ 0 → c ∉ j.passed → s.chunkStep j c + 1 ≠ m → s.readChunk j c = (u, mine, none) →
      u.sendChunk j c false (j.merge c x mine) = some v →
      exec (go false false) s = .next (v.setRJob die n { j with passed := j.passed ++ [c] })) ∧
    (works → s.chunkStep j c ≠ 0 → c ∉ j.passed → s.chunkStep j c + 1 ≠ m → s.readChunk j c = (u, mine, none) →
      u.sendChunk j c false (j.merge c x mine) = none → fails (go false false) u 6 5) ∧
    (∀ e, works → s.chunkStep j c ≠ 0 → c ∉ j.passed → s.readChunk j c = (u, mine, some e) →
      (e = .hold → exec (go false false) s = .next u) ∧ (e ≠ .hold → fails (go false false) u 3 5)) ∧
    (works → s.chunkStep j c ≠ 0 → c ∉ j.passed → s.chunkStep j c + 1 = m → s.readChunk j c = (u, mine, none) →
      let y := j.merge c x mine
      u.writeChunk j c y.bs = (w, none) →
      (w.setRJob die n (whole { had y with passed := j.passed ++ [c] })).sendChunk j c true y = some v →
      exec (go false false) s = .next v) ∧
    (works → s.chunkStep j c + 1 ≠ m → c ∈ j.passed → c ∉ j.chunks → s.writeChunk j c x.bs = (u, none) →
      (s.chunkStep j c + 2 = m → exec (go true false) s = .next (u.setRJob die n (whole (had x)))) ∧
      (s.chunkStep j c + 2 ≠ m → (u.setRJob die n (whole (had x))).sendChunk j c true x = some v →
        exec (go true false) s = .next v) ∧
      (s.chunkStep j c + 2 ≠ m → (u.setRJob die n (whole (had x))).sendChunk j c true x = none →
        endsAs (go true false) u (had x) 6 5)) ∧
    (j.kind = 2 → j.stage = .running → c < j.count → s.chunkStep j c = 0 → c ∉ j.passed → m ≠ 1 →
      s.readChunk j c = (u, mine, none) → u.sendChunk j c false ⟨mine, 0, none⟩ = some v →
      s.startChunk die n c = v.setRJob die n { j with passed := j.passed ++ [c] })

/-- Ring messages and the chunks of an all-reduce (spec/17 R383, spec/17 R386, spec/17 R387, spec/17 R389, spec/17 R390, spec/17
R394). Who posts a message from another package, and the poison of a SEND, are the model's readings (log 20). -/
def Obligations.RingTransfers : Prop :=
  RingMessages ∧ ReduceChunks

/-- A command that has ended leaves its engine: its record of eight words is posted to CTAG, its slot is released (spec/17 R384,
R391).  An answer from the ring ends a SEND DONE, UNREACH or REFUSED, and an ALLRED MISMATCH while it has written nothing,
UNREACH or ENGFAIL; TOUT ends one TIMEOUT, whose partners are told, and another member's withdrawal ABORTED (R395). -/
def RingCommandEnds : Prop :=
  ∀ (s : State) (die n answer : Nat) (j : RJob), s.halt = none →
    let runs := j.kind = 2 ∧ j.stage = .running
    let late := runs ∧ j.tout ≠ 0 ∧ j.since + j.tout * 1024 ≤ s.time
    let ctag := (j.words.getD 3 0).toNat / 2 ^ 48 % 2 ^ 12
    let ended (st : Nat) : RJob := { j with stage := .ended, status := st }
    let leaves (k : RJob) := Gives (.ringCommandComplete die n answer) s fun t =>
      t = { s with ring := t.ring, uposts := t.uposts, tags := t.tags } ∧
      (t.ringOf die).jobs = dropAt (s.ringOf die).jobs n ∧ (∀ m ∈ (t.tag j.tag).msgs, m.slot ≠ j.slot) ∧
      (s.tagValidFor ctag j.part = true → ∃ l : List Word, l.length = 8 ∧ t.uposts = s.uposts ++ [⟨ctag, j.part, l, none, some 3⟩] ∧
        (k.status < 256 → k.kind < 256 → (l.getD 0 0).toNat % 2 ^ 8 = k.status ∧ (l.getD 0 0).toNat / 2 ^ 8 % 2 ^ 8 = k.kind ∧
          (l.getD 0 0).toNat / 2 ^ 16 % 2 ^ 16 = (k.words.getD 3 0).toNat / 2 ^ 32 % 2 ^ 16 ∧
          (l.getD 0 0).toNat / 2 ^ 32 = if k.kind = 1 then 64 else k.aux % 2 ^ 32) ∧
        l.getD 1 0 = BitVec.ofNat 64 k.flags ∧
        l.getD 2 0 = (match k.flel with | some e => BitVec.ofNat 64 e | none => 0xFFFFFFFF) ∧
        l.getD 3 0 = BitVec.ofNat 64 s.time ∧ l.getD 4 0 = k.words.getD 4 0 ∧
        if k.kind = 3 ∧ k.status = 0 then
          l.getD 5 0 = (s.ringOf 0).port.word ∧ l.getD 6 0 = (s.ringOf 1).port.word ∧ l.getD 7 0 = s.ringWord
        else l.getD 5 0 = 0 ∧ l.getD 6 0 = 0 ∧ l.getD 7 0 = 0)
    ((s.ringOf die).jobs[n]? = none → exec (.ringCommandComplete die n answer) s = .next s ∧
      exec (.allredTimeout die n) s = .next s ∧ exec (.allredAbort die n) s = .next s) ∧
    ((s.ringOf die).jobs[n]? = some j →
      (j.stage = .ended → leaves j) ∧
      (j.stage = .running → j.kind = 1 → answer = 0 → leaves (ended (if j.poison then 10 else 0))) ∧
      (j.stage = .running → j.kind = 1 → answer = 6 ∨ answer = 9 → leaves (ended answer)) ∧
      (runs → (answer = 5 ∧ j.chunks = []) ∨ answer = 6 ∨ answer = 11 → leaves (ended answer)) ∧
      (runs → answer = 5 → j.chunks ≠ [] → exec (.ringCommandComplete die n answer) s = .next s) ∧
      (late → Gives (.allredTimeout die n) s fun t => t = { s with ring := t.ring } ∧
        (t.ringOf die).jobs[n]? = some (ended 7) ∧ GoesRound s t 5 j) ∧
      (¬ late → exec (.allredTimeout die n) s = .next s) ∧
      (runs → Gives (.allredAbort die n) s fun t => t = { s with ring := t.ring } ∧
        (t.ringOf die).jobs[n]? = some (ended 8)) ∧
      (¬ runs → exec (.allredAbort die n) s = .next s))

/-- Flits leave a port: in order, each with its number, its message and the room bits of this end (free values). -/
def FlitsLeave (s t : State) (l : List (BitVec 12 × RMsg)) : Prop :=
  t.fresh = s.fresh + l.length ∧ ∃ r : List Flit, t.ringOut = s.ringOut ++ r ∧ r.map (fun x => (x.seq, x.msg)) = l

/-- Ports (spec/17 R381–R383, R392): a negative acknowledgement counts in REPLAYS and sends every flit that has not been
acknowledged again, in order and with its number; a lane that fails is replaced by a spare, or leaves 8 lanes, which a replay
follows, or none, which takes the link down, and posts an event to tag 0xFFF; on a direction that is down it changes nothing.  A flit
that comes in out of sequence is discarded; the one in sequence advances the number and brings the other end's room bits.  A link that is down comes up when both of its directions have lanes, its sequence numbers at 0 (log 20).  A port
sends a message only of a channel whose room bit is 1, the real-time channels first, and keeps it in a replay buffer of 512 flits.
A message whose route is lost goes the other way. -/
def RingPorts : Prop :=
  ∀ (s : State) (die lane : Nat), s.halt = none →
    let r := s.ringOf die
    let p := r.port
    let bad (rx : Bool) := if rx then p.rxbad else p.txbad
    let width (w : Nat) (l : List Nat) := if w = 16 ∧ l.length + 1 ≤ 2 then 16 else if l.length + 1 ≤ 10 ∧ w ≠ 0 then 8 else 0
    (1 < die → exec (.flitNakReplay die) s = .next s ∧ exec (.ringLinkUp die) s = .next s ∧
      ∀ rx, exec (.laneFailure die rx lane) s = .next s) ∧
    (die ≤ 1 → Gives (.flitNakReplay die) s fun t =>
      t = { s with ring := t.ring, ringOut := t.ringOut, fresh := t.fresh } ∧ FlitsLeave s t p.buf ∧
      t.ringOf die = { r with port := { p with replays := min (2 ^ 32 - 1) (p.replays + 1) } }) ∧
    let now (rx : Bool) := if rx then p.rxw else p.txw
    (∀ rx, 18 ≤ lane ∨ lane ∈ bad rx ∨ now rx = 0 → exec (.laneFailure die rx lane) s = .next s) ∧
    (∀ rx, die ≤ 1 → lane < 18 → lane ∉ bad rx → now rx ≠ 0 → Gives (.laneFailure die rx lane) s fun t =>
      t = { s with ring := t.ring, uposts := t.uposts, ringOut := t.ringOut, fresh := t.fresh } ∧
      (let q := (t.ringOf die).port
       (if rx then q.rxw = width p.rxw p.rxbad ∧ q.rxbad = p.rxbad ++ [lane] ∧ q.txw = p.txw ∧ q.txbad = p.txbad
        else q.txw = width p.txw p.txbad ∧ q.txbad = p.txbad ++ [lane] ∧ q.rxw = p.rxw ∧ q.rxbad = p.rxbad) ∧
       q.up = (p.up && decide (q.rxw ≠ 0) && decide (q.txw ≠ 0)) ∧ q.replays = min (2 ^ 32 - 1) (p.replays + 1) ∧
       (p.up = true → q.up = false → q.buf = []) ∧ (p.up = q.up → q.queue = p.queue ∧ q.buf = p.buf) ∧
       FlitsLeave s t (if q.up then p.buf else []) ∧
       (s.tagValidFor 0xFFF (s.tagPart 0xFFF) = true →
         t.uposts = s.uposts ++ [⟨0xFFF, s.tagPart 0xFFF, [q.word, 0, 0, 0, 0, 0, 0, 0], none, none⟩]))) ∧
    (die ≤ 1 → p.up = false → p.rxw ≠ 0 → p.txw ≠ 0 → Gives (.ringLinkUp die) s fun t => t = { s with ring := t.ring } ∧
      t.ringOf die = { r with port := { p with up := true, txSeq := 0, rxSeq := 0, buf := [], room := 15 } }) ∧
    (p.up = true ∨ p.rxw = 0 ∨ p.txw = 0 → exec (.ringLinkUp die) s = .next s) ∧
    (∀ (m : RMsg) (east : Bool), m.dest < 16 → s.route m.dest = some east →
      s.resend m = s.portSend east { m with east := east }) ∧
    (s.flit die = s ∨ ∃ i m, p.queue[i]? = some m ∧ p.room.getLsbD m.chan = true ∧ p.up = true ∧ p.buf.length < 512 ∧
      (m.urg = false → ∀ q ∈ p.queue, q.urg = true → p.room.getLsbD q.chan = false) ∧
      s.flit die = { s.setRing die { r with port := { p with
        queue := p.queue.eraseIdx i, txSeq := p.txSeq + 1, buf := p.buf ++ [(p.txSeq, m)] } } with
        ringOut := s.ringOut ++ [⟨p.txSeq, (Config.freeValue s.fresh).setWidth 4, m⟩], fresh := s.fresh + 1 }) ∧
    (∀ (n : BitVec 12) (room : BitVec 4),
      (p.up = false ∨ n ≠ p.rxSeq → s.flitIn die n room = s) ∧
      (die ≤ 1 → p.up = true → n = p.rxSeq → s.flitIn die n room =
        s.setRing die { r with port := { p with rxSeq := n + 1, room := room } }))

/-- Ring commands end, and ports lose and regain lanes (spec/17 R381, spec/17 R382, spec/17 R383, spec/17 R384, spec/17 R391,
spec/17 R392, spec/17 R395). Spare lanes, counts of replays and room bits follow the model's reading (log 20). -/
def Obligations.RingEndsAndPorts : Prop :=
  RingCommandEnds ∧ RingPorts

/-! ### The machine as a whole -/

/-- The frame stands at an instruction boundary at which nothing but its next instruction is due: no late outcome, no hold, and
no header of a protection table to read (spec/06 R127, spec/05 R112, spec/14 R308). -/
def AtBoundary (s : State) (f : Nat) : Prop :=
  let x := s.frame f
  x.stat = .ready ∧ x.frozen = false ∧ (s.core (coreOf f)).retired = false ∧ x.midSkip = false ∧ x.late = [] ∧ x.amoFlags = [] ∧
  x.barHold = none ∧ s.sendHolds f = false ∧ s.headerDue f = false

/-- The bytes of a chain of halfwords stand from an address on in the blocks that a frame has fetched. -/
def Buffered (x : Frame) : Nat → List Half → Prop
  | _, [] => True
  | a, h :: t => (∃ p, x.ibuf.find? (fun q => q.1 == a % 2 ^ 48 / 16 * 16) = some p ∧
      h = (p.2.getD (a % 2 ^ 48 % 16 + 1) 0) ++ (p.2.getD (a % 2 ^ 48 % 16) 0)) ∧ Buffered x (a + 2) t

/-- A step runs the instruction that the halfwords at the program counter decode to: fetched, checked against VWIDTH, the landing
pad and the interlocks, it executes as `exec` says; then the step notes that it has committed, and time passes.  A chain that
decodes to none traps, and so does a missing pad (spec/03 R67, spec/04 R107, spec/06 R126–R128). -/
def StepRunsDecodedInstruction : Prop :=
  ∀ (s u : State) (f n : Nat) (rest : List Turn) (i : Instr) (hs : List Half),
    s.tape = .issue f :: rest → u = { s with tape := rest } → AtBoundary u f →
    let x := u.frame f
    let after (t : State) (o : Host.Outcome State Fault Refusal) :=
      onNext (onNext o fun v => t.committedBy v f) fun v => v.pass v.ckRate v.fkRate
    let fetched := hs ≠ [] ∧ hs.length ≤ 5 ∧ (∀ h ∈ hs.dropLast, h.isPfx = true) ∧
      (∀ h, hs.getLast? = some h → h.isPfx = false) ∧ Buffered x x.pc.toNat hs
    let free := u.widthBad f i = false ∧ u.interlocked f i = false
    let t := { u.updFrame f (fun y => { y with pad := none }) with cur := f }
    (fetched → decode hs = .ok (i, n) → free → x.pad = none → step s = after { u with cur := f } (exec i { u with cur := f })) ∧
    (∀ k, fetched → decode hs = .ok (i, n) → free → x.pad = some k → padKind i = some k → step s = after t (exec i t)) ∧
    (∀ k, fetched → decode hs = .ok (i, n) → u.widthBad f i = false → x.pad = some k → padKind i ≠ some k →
      step s = onNext (u.act (u.takeTrap f ⟨0x03, k, x.pc.setWidth 64, x.pc⟩)) fun v => v.pass v.ckRate v.fkRate) ∧
    (∀ e, fetched → decode hs = .error e →
      step s = onNext (execIllegalInstruction f hs u) fun v => v.pass v.ckRate v.fkRate)

/-- An event that the tape names takes place as `exec` says, and time passes (log 5). -/
def StepRunsEvents : Prop :=
  ∀ (s : State) (i : Instr) (rest : List Turn), s.tape = .event i :: rest → i.hasWords = false →
    step s = onNext (exec i { s with tape := rest }) fun v => v.pass v.ckRate v.fkRate

/-- A step runs the decoded instruction at the program counter, or the event that is named (spec/03 R67, spec/04 R107, spec/06
R126, spec/06 R127, spec/06 R128). Who moves next is named by the tape, a field of the model (log 5). -/
def Obligations.StepRunsTurns : Prop :=
  StepRunsDecodedInstruction ∧ StepRunsEvents

/-- Every instruction and event of the opcode table has an effect: a running package answers a next state to each of them, never a
refusal; a package that has stopped faults on each but the reset, which a thermal shutdown alone refuses
(spec/16 R367, R370, R377). -/
def Obligations.EveryInstructionAnswers : Prop :=
  ∀ (i : Instr) (s : State),
    (s.halt = none → ∃ t, exec i s = .next t) ∧
    (∀ h, s.halt = some h → i ≠ .packageReset → exec i s = .fault .stopped) ∧
    (s.halt = some .fatal → ∃ t, exec .packageReset s = .next t)

/-- Decoding an encoded well-formed instruction gives it back, with its length, whatever halfwords follow (spec/03 R57–R67). -/
def DecodeEncodeRoundTrip : Prop :=
  ∀ (i : Instr) (t : List Half), i.WellFormed →
    decode (encode i ++ t) = .ok (i, (encode i).length) ∧ 1 ≤ (encode i).length ∧ (encode i).length ≤ 5

/-- What the decoder accepts is well formed, and its own encoding is the halfwords that were read (spec/03 R67). -/
def DecodedIsWellFormed : Prop :=
  ∀ (hs : List Half) (i : Instr) (n : Nat), decode hs = .ok (i, n) → i.WellFormed ∧ n = (encode i).length ∧ encode i = hs.take n

/-- Decoding an encoded instruction gives it back, and encoding a decoded one the halfwords (spec/03 R57, spec/03 R58, spec/03
R59, spec/03 R61, spec/03 R62, spec/03 R63, spec/03 R67, spec/03 R70). -/
def Obligations.DecodeAndEncodeAgree : Prop :=
  DecodeEncodeRoundTrip ∧ DecodedIsWellFormed

/-- The halfwords `hs` are the instruction `i`, whole. -/
def Reads (hs : List Half) (i : Instr) : Prop := decode hs = .ok (i, hs.length) ∧ encode i = hs

/-- Words written out from the encodings of the spec, with the operands that they carry: those of spec/03 and the examples of
spec/04, spec/07 to spec/13. -/
def Obligations.DecodingOfWrittenWords : Prop :=
  Reads [0x2800] (.or ⟨0, 0, none, none, none, []⟩) ∧
  Reads [0xE01F, 0x5088] (.addI ⟨4, 8, none, none, none, [0x01F]⟩) ∧
  Reads [0xE000, 0xE200, 0xA8E2] (.ldd ⟨7, 2, none, none, none, [0x000, 0x200]⟩) ∧
  Reads [0xE801, 0xF01B, 0xE503, 0x0422] (.vadd ⟨1, 2, none, some ⟨0xB, 1, 0, 0⟩, some ⟨3, 0, 2⟩, []⟩) ∧
  Reads [0xE409, 0xE01E, 0x7888] (.bfx ⟨4, 8, none, none, some ⟨9, 0, 0⟩, [0x01E]⟩) ∧
  Reads [0xEC0B, 0xE001, 0xA8E2] (.ldd ⟨7, 2, some ⟨3, 1, 0, 0⟩, none, none, [0x001]⟩) ∧
  Reads [0xE3FC, 0xC4E5] (.blt ⟨7, 5, none, none, none, [0x3FC]⟩) ∧
  Reads [0x8402] (.ret ⟨0, 2, none, none, none, []⟩) ∧
  Reads [0xE801, 0xF28B, 0xE402, 0x8C24] (.vcvt ⟨1, 4, none, some ⟨0xB, 0, 0, 0xA⟩, some ⟨2, 0, 0⟩, []⟩) ∧
  Reads [0xE802, 0xE416, 0x1A95] (.cpy ⟨20, 21, none, none, some ⟨22, 0, 0⟩, []⟩) ∧
  Reads [0xE802, 0xF000, 0xE405, 0x3C24] (.mma ⟨1, 4, none, some ⟨0, 0, 0, 0⟩, some ⟨5, 0, 0⟩, []⟩) ∧
  Reads [0xE803, 0x3860] (.bar ⟨3, 0, none, none, none, []⟩) ∧
  Reads [0xE803, 0xE406, 0x1885] (.topen ⟨4, 5, none, none, some ⟨6, 0, 0⟩, []⟩) ∧
  Reads [0xE803, 0x8403] (.halt ⟨0, 3, none, none, none, []⟩)

/-- The halfword 0x0000 is assigned on no page: a thread that executes zeroed memory traps with 0x01 at its first halfword, with
TADDR = 0.  NOP is `or g0, g0`, the halfword 0x2800, and only moves on (spec/03 R66). -/
def Obligations.ZeroedMemoryTraps : Prop :=
  ∀ (t : List Half) (s : State) (f : Nat), s.halt = none →
    (∀ page b, select page 0 b = none) ∧ decode (0x0000 :: t) = .error (.illegal 0) ∧
    exec (.illegalInstruction f (0x0000 :: t)) s = .next (s.takeTrap f ⟨0x01, 0, 0, (s.frame f).pc⟩) ∧
    decode (0x2800 :: t) = .ok (.or ⟨0, 0, none, none, none, []⟩, 1) ∧
    ∃ u, exec (.or ⟨0, 0, none, none, none, []⟩) s = .next u ∧
      GoesTo s u (s.next (.or ⟨0, 0, none, none, none, []⟩))

/-- Memory keeps its canonical form in every step (log 2, log 10). -/
def CanonicalBytesKept : Prop :=
  ∀ (s t : State), Memory.wf s.mem = true → step s = .next t → Memory.wf t.mem = true

/-- The maps of State keep their order in every step (log 2). -/
def MapsKept : Prop :=
  ∀ (s t : State), s.mapsSorted = true → step s = .next t → t.mapsSorted = true

/-- No step takes the life cycle back: it stays, or moves to the next of the four states, under the scrub that follows
(spec/16 R369, R370); and nothing that has left the package, to the host, as an interrupt, as a report or to the ring, is taken back. -/
def LifeAndOutputsKept : Prop :=
  ∀ (s t : State), step s = .next t →
    (t.life = s.life ∨ (t.life = s.life + 1 ∧ t.life ≤ 3 ∧ t.wipe = true)) ∧
    s.hostOut <+: t.hostOut ∧ s.msi <+: t.msi ∧ s.reports <+: t.reports ∧ s.ringOut <+: t.ringOut

/-- Every step keeps memory and the maps of State in their form, and never takes the life cycle or an output back (spec/09 R197,
spec/14 R309, spec/16 R369, spec/16 R370). The canonical forms are the model's way to hold memory and maps (log 2, log 10). -/
def Obligations.MemoryFormKept : Prop :=
  CanonicalBytesKept ∧ MapsKept ∧ LifeAndOutputsKept

/-- At reset memory is in its canonical form, every map in order, every frame is free, every byte reads zero, and the package
runs. That a byte which nothing has written reads zero is log 10. -/
def Obligations.ResetState : Prop :=
  let s := State.reset
  Memory.wf s.mem = true ∧ s.mapsSorted = true ∧ s.life = 0 ∧ s.halt = none ∧ (∀ a, s.byte a = 0) ∧ (∀ f, (s.frame f).stat = .free) ∧
  (∀ k n, (s.accum k n).st = .clear) ∧ s.windows = [] ∧ s.launches = [] ∧ (∀ c, (s.pow c).st = .on)
end

