-- ==== Sys2Proof/Laws/Map.lean ====
section
/-!
SUPPORT. Laws/Map.lean: the small lemmas of the sparse maps: reading after setting or dropping an entry, and that both keep
the rising order of the keys.
-/
namespace Sys2Proof.Machine

variable {α : Type}

@[simp] theorem look_nil (n : Nat) : look ([] : SMap α) n = none := rfl
@[simp] theorem lookD_nil (n : Nat) (d : α) : lookD [] n d = d := rfl

theorem look_cons (k : Nat) (x : α) (t : SMap α) (n : Nat) :
    look ((k, x) :: t) n = if n = k then some x else if n < k then none else look t n := rfl

@[simp] theorem look_put_same (m : SMap α) (n : Nat) (x : α) : look (put m n x) n = some x := by
  induction m with
  | nil => simp [put, look]
  | cons h t ih =>
    obtain ⟨k, y⟩ := h
    simp only [put]
    split
    · simp [look]
    · split
      · simp [look]
      · next h1 h2 => simp [look_cons, h1, h2, ih]

theorem look_put_other (m : SMap α) {n k : Nat} (x : α) (h : k ≠ n) : look (put m n x) k = look m k := by
  induction m with
  | nil => simp [put, look_cons, h]
  | cons hd t ih =>
    obtain ⟨k0, y⟩ := hd
    simp only [put]
    split
    · next e => subst e; simp [look_cons, h]
    · split
      · next h1 h2 =>
        simp only [look_cons, h, if_false]
        by_cases h3 : k < n
        · have : k ≠ k0 ∧ k < k0 := by omega
          simp [h3, this.1, this.2]
        · simp [h3]
      · simp only [look_cons, ih]

@[simp] theorem lookD_put_same (m : SMap α) (n : Nat) (x d : α) : lookD (put m n x) n d = x := by simp [lookD]

theorem lookD_put_other (m : SMap α) {n k : Nat} (x d : α) (h : k ≠ n) : lookD (put m n x) k d = lookD m k d := by
  simp [lookD, look_put_other m x h]

theorem lookD_put (m : SMap α) (n k : Nat) (x d : α) : lookD (put m n x) k d = if k = n then x else lookD m k d := by
  split
  · next h => subst h; simp
  · next h => exact lookD_put_other m x d h

/-- Setting an entry twice is setting it once. -/
@[simp] theorem put_put (m : SMap α) (n : Nat) (x y : α) : put (put m n x) n y = put m n y := by
  induction m with
  | nil => simp [put]
  | cons h t ih =>
    obtain ⟨k, z⟩ := h
    simp only [put]
    split
    · simp [put]
    · split
      · simp [put]
      · next h1 h2 => simp [put, h1, h2, ih]

/-- Every key of the map is above `n`. -/
def above (n : Nat) (m : SMap α) : Prop := ∀ c ∈ m, n < c.1

theorem sorted_cons (k : Nat) (x : α) (t : SMap α) : sorted ((k, x) :: t) = true ↔ above k t ∧ sorted t = true := by
  induction t generalizing k x with
  | nil => simp [sorted, above]
  | cons h t ih =>
    obtain ⟨k', y⟩ := h
    simp only [sorted, Bool.and_eq_true, decide_eq_true_eq]
    constructor
    · rintro ⟨h1, h2⟩
      refine ⟨?_, h2⟩
      intro c hc
      rcases List.mem_cons.1 hc with rfl | hc
      · exact h1
      · exact Nat.lt_trans h1 (((ih k' y).1 h2).1 c hc)
    · rintro ⟨h1, h2⟩
      exact ⟨h1 _ (List.mem_cons_self ..), h2⟩

theorem mem_put (m : SMap α) (n : Nat) (x : α) {c : Nat × α} (h : c ∈ put m n x) : c = (n, x) ∨ c ∈ m := by
  induction m with
  | nil => simpa [put] using h
  | cons hd t ih =>
    obtain ⟨k, y⟩ := hd
    simp only [put] at h
    split at h
    · rcases List.mem_cons.1 h with h | h
      · exact .inl h
      · exact .inr (List.mem_cons_of_mem _ h)
    · split at h
      · rcases List.mem_cons.1 h with h | h
        · exact .inl h
        · exact .inr h
      · rcases List.mem_cons.1 h with h | h
        · exact .inr (h ▸ List.mem_cons_self ..)
        · rcases ih h with h | h
          · exact .inl h
          · exact .inr (List.mem_cons_of_mem _ h)

theorem mem_drop (m : SMap α) (n : Nat) {c : Nat × α} (h : c ∈ drop m n) : c ∈ m := by
  induction m with
  | nil => simp [drop] at h
  | cons hd t ih =>
    obtain ⟨k, y⟩ := hd
    simp only [drop] at h
    split at h
    · exact List.mem_cons_of_mem _ h
    · split at h
      · exact h
      · rcases List.mem_cons.1 h with h | h
        · exact h ▸ List.mem_cons_self ..
        · exact List.mem_cons_of_mem _ (ih h)

/-- Setting an entry keeps the order of the keys. -/
theorem sorted_put {m : SMap α} (h : sorted m = true) (n : Nat) (x : α) : sorted (put m n x) = true := by
  induction m with
  | nil => simp [put, sorted]
  | cons hd t ih =>
    obtain ⟨k, y⟩ := hd
    obtain ⟨ha, hs⟩ := (sorted_cons k y t).1 h
    simp only [put]
    split
    · next e => subst e; exact (sorted_cons ..).2 ⟨ha, hs⟩
    · split
      · next h1 h2 =>
        refine (sorted_cons ..).2 ⟨?_, h⟩
        intro c hc
        rcases List.mem_cons.1 hc with rfl | hc
        · exact h2
        · exact Nat.lt_trans h2 (ha c hc)
      · next h1 h2 =>
        refine (sorted_cons ..).2 ⟨?_, ih hs⟩
        intro c hc
        rcases mem_put t n x hc with rfl | hc
        · simp only; omega
        · exact ha c hc

/-- Dropping an entry keeps the order of the keys. -/
theorem sorted_drop {m : SMap α} (h : sorted m = true) (n : Nat) : sorted (drop m n) = true := by
  induction m with
  | nil => simp [drop, sorted]
  | cons hd t ih =>
    obtain ⟨k, y⟩ := hd
    obtain ⟨ha, hs⟩ := (sorted_cons k y t).1 h
    simp only [drop]
    split
    · exact hs
    · split
      · exact h
      · exact (sorted_cons ..).2 ⟨fun c hc => ha c (mem_drop t n hc), ih hs⟩

/-- Keeping only some entries keeps the order of the keys. -/
theorem sorted_filter {m : SMap α} (h : sorted m = true) (p : Nat × α → Bool) : sorted (m.filter p) = true := by
  induction m with
  | nil => simp [sorted]
  | cons hd t ih =>
    obtain ⟨k, y⟩ := hd
    obtain ⟨ha, hs⟩ := (sorted_cons k y t).1 h
    simp only [List.filter_cons]
    split
    · exact (sorted_cons ..).2 ⟨fun c hc => ha c (List.mem_of_mem_filter hc), ih hs⟩
    · exact ih hs

/-- A key below every key of a map is not listed. -/
theorem look_above {m : SMap α} {n : Nat} (h : above n m) : look m n = none := by
  cases m with
  | nil => rfl
  | cons hd t =>
    obtain ⟨k, y⟩ := hd
    have : n < k := h (k, y) (List.mem_cons_self ..)
    simp [look_cons, this, show n ≠ k by omega]

theorem look_drop_same {m : SMap α} (h : sorted m = true) (n : Nat) : look (drop m n) n = none := by
  induction m with
  | nil => rfl
  | cons hd t ih =>
    obtain ⟨k, y⟩ := hd
    obtain ⟨ha, hs⟩ := (sorted_cons k y t).1 h
    simp only [drop]
    split
    · next e => subst e; exact look_above ha
    · split
      · next h1 h2 => simp [look_cons, h1, h2]
      · next h1 h2 => simp [look_cons, h1, h2, ih hs]

theorem look_drop_other {m : SMap α} (h : sorted m = true) {n k : Nat} (hk : k ≠ n) : look (drop m n) k = look m k := by
  induction m with
  | nil => rfl
  | cons hd t ih =>
    obtain ⟨k0, y⟩ := hd
    obtain ⟨ha, hs⟩ := (sorted_cons k0 y t).1 h
    simp only [drop]
    split
    · next e =>
      subst e
      simp only [look_cons, hk, if_false]
      split
      · next hlt => exact look_above fun c hc => Nat.lt_trans hlt (ha c hc)
      · rfl
    · split
      · rfl
      · simp only [look_cons, ih hs]

/-- Reading a key after a canonical write, in a map whose keys rise. -/
theorem lookD_putCanon [DecidableEq α] {m : SMap α} (h : sorted m = true) (d : α) (n k : Nat) (x : α) :
    lookD (putCanon d m n x) k d = if k = n then x else lookD m k d := by
  unfold putCanon
  split
  · next hx =>
    split
    · next e => subst e; simp [lookD, look_drop_same h, hx]
    · next e => simp [lookD, look_drop_other h e]
  · exact lookD_put m n k x d

end Sys2Proof.Machine
end

