-- ==== Sys2Proof/Laws/State.lean ====
section
/-!
SUPPORT. Laws/State.lean: one lemma for each piece of State and each update of it, so that no proof unfolds a record update.
-/
namespace Sys2Proof.Machine

/-! ### Frames -/

@[simp] theorem frame_setFrame_same (s : State) (f : Nat) (x : Frame) : (s.setFrame f x).frame f = x := by
  simp [State.frame, State.setFrame]
theorem frame_setFrame_other (s : State) {f k : Nat} (x : Frame) (h : k ≠ f) : (s.setFrame f x).frame k = s.frame k := by
  simp [State.frame, State.setFrame, lookD_put_other _ _ _ h]
theorem frame_setFrame (s : State) (f k : Nat) (x : Frame) :
    (s.setFrame f x).frame k = if k = f then x else s.frame k := by
  split
  · next h => subst h; simp
  · next h => exact frame_setFrame_other s x h
@[simp] theorem frame_updFrame_same (s : State) (f : Nat) (u : Frame → Frame) : (s.updFrame f u).frame f = u (s.frame f) := by
  simp [State.updFrame]
theorem frame_updFrame_other (s : State) {f k : Nat} (u : Frame → Frame) (h : k ≠ f) :
    (s.updFrame f u).frame k = s.frame k := frame_setFrame_other s _ h
theorem frame_updFrame (s : State) (f k : Nat) (u : Frame → Frame) :
    (s.updFrame f u).frame k = if k = f then u (s.frame f) else s.frame k := frame_setFrame s f k _
/-- Two updates of one frame are one. -/
@[simp] theorem updFrame_updFrame (s : State) (f : Nat) (u v : Frame → Frame) :
    (s.updFrame f u).updFrame f v = s.updFrame f fun x => v (u x) := by
  simp [State.updFrame, State.setFrame, State.frame]
@[simp] theorem cur_setFrame (s : State) (f : Nat) (x : Frame) : (s.setFrame f x).cur = s.cur := rfl
@[simp] theorem cur_updFrame (s : State) (f : Nat) (u : Frame → Frame) : (s.updFrame f u).cur = s.cur := rfl
@[simp] theorem halt_setFrame (s : State) (f : Nat) (x : Frame) : (s.setFrame f x).halt = s.halt := rfl
@[simp] theorem halt_updFrame (s : State) (f : Nat) (u : Frame → Frame) : (s.updFrame f u).halt = s.halt := rfl
@[simp] theorem mem_setFrame (s : State) (f : Nat) (x : Frame) : (s.setFrame f x).mem = s.mem := rfl
@[simp] theorem mem_updFrame (s : State) (f : Nat) (u : Frame → Frame) : (s.updFrame f u).mem = s.mem := rfl
@[simp] theorem core_setFrame (s : State) (f k : Nat) (x : Frame) : (s.setFrame f x).core k = s.core k := rfl
@[simp] theorem core_updFrame (s : State) (f k : Nat) (u : Frame → Frame) : (s.updFrame f u).core k = s.core k := rfl
/-- Only the frames differ after an update of a frame. -/
theorem updFrame_rest (s : State) (f : Nat) (u : Frame → Frame) :
    s.updFrame f u = { s with frames := (s.updFrame f u).frames } := rfl

/-! ### The executing frame -/

@[simp] theorem me_updMe (s : State) (u : Frame → Frame) : (s.updMe u).me = u s.me := by
  simp [State.updMe, State.me]
@[simp] theorem cur_updMe (s : State) (u : Frame → Frame) : (s.updMe u).cur = s.cur := rfl
@[simp] theorem halt_updMe (s : State) (u : Frame → Frame) : (s.updMe u).halt = s.halt := rfl
@[simp] theorem mem_updMe (s : State) (u : Frame → Frame) : (s.updMe u).mem = s.mem := rfl
@[simp] theorem updMe_updMe (s : State) (u v : Frame → Frame) : (s.updMe u).updMe v = s.updMe fun x => v (u x) :=
  updFrame_updFrame s s.cur u v
theorem frame_updMe_other (s : State) {k : Nat} (u : Frame → Frame) (h : k ≠ s.cur) : (s.updMe u).frame k = s.frame k :=
  frame_updFrame_other s u h

/-! ### Registers of a frame -/

@[simp] theorem gr_zero (x : Frame) : x.gr 0 = 0 := rfl
theorem gr_setGr (x : Frame) (n k : Nat) (w : Word) (hk : k < 32) :
    (x.setGr n w).gr k = if k = 0 then 0 else if k = n then w else x.gr k := by
  by_cases h0 : k = 0
  · simp [h0]
  · by_cases hn : n = 0
    · subst hn; simp [Frame.setGr, h0]
    · simp only [Frame.setGr, hn, if_false, Frame.gr, h0]
      by_cases e : k = n
      · subst e; simp [Vector.getD, hk]
      · simp [Vector.getD, hk, Ne.symm e, e]
@[simp] theorem setGr_zero (x : Frame) (w : Word) : x.setGr 0 w = x := rfl
/-- A write of a g register leaves the rest of its frame alone. -/
theorem setGr_kept (x : Frame) (n : Nat) (w : Word) : x.setGr n w = { x with g := (x.setGr n w).g } := by
  unfold Frame.setGr; split <;> rfl
@[simp] theorem setGr_pc (x : Frame) (n : Nat) (w : Word) : (x.setGr n w).pc = x.pc := by
  unfold Frame.setGr; split <;> rfl
@[simp] theorem setGr_seq (x : Frame) (n : Nat) (w : Word) : (x.setGr n w).seq = x.seq := by
  unfold Frame.setGr; split <;> rfl
@[simp] theorem setGr_priv (x : Frame) (n : Nat) (w : Word) : (x.setGr n w).priv = x.priv := by
  unfold Frame.setGr; split <;> rfl
theorem vr_setVr (x : Frame) (n k : Nat) (w : VWord) (hk : k < 32) :
    (x.setVr n w).vr k = if k = n then w else x.vr k := by
  simp only [Frame.setVr, Frame.vr]
  by_cases e : k = n
  · subst e; simp [Vector.getD, hk]
  · simp [Vector.getD, hk, Ne.symm e, e]
@[simp] theorem pr_zero (x : Frame) : x.pr 0 = BitVec.allOnes 16 := rfl
theorem pr_setPr (x : Frame) (n k : Nat) (w : Pred) (hk : k < 8) :
    (x.setPr n w).pr k = if k = 0 then BitVec.allOnes 16 else if k = n then w else x.pr k := by
  by_cases h0 : k = 0
  · simp [h0]
  · by_cases hn : n = 0
    · subst hn; simp [Frame.setPr, h0]
    · simp only [Frame.setPr, hn, if_false, Frame.pr, h0]
      by_cases e : k = n
      · subst e; simp [Vector.getD, hk]
      · simp [Vector.getD, hk, Ne.symm e, e]

/-! ### Cores, tiles, clusters, launches, tags, registers and ring engines -/

theorem core_setCore (s : State) (n k : Nat) (x : CoreSt) : (s.setCore n x).core k = if k = n then x else s.core k :=
  lookD_put s.cores n k x _
theorem core_updCore (s : State) (n k : Nat) (u : CoreSt → CoreSt) :
    (s.updCore n u).core k = if k = n then u (s.core n) else s.core k := core_setCore s n k _
theorem tile_setTile (s : State) (n k : Nat) (x : Tile) : (s.setTile n x).tile k = if k = n then x else s.tile k :=
  lookD_put s.tiles n k x _
theorem tile_updTile (s : State) (n k : Nat) (u : Tile → Tile) :
    (s.updTile n u).tile k = if k = n then u (s.tile n) else s.tile k := tile_setTile s n k _
theorem cluster_setCluster (s : State) (n k : Nat) (x : Cluster) :
    (s.setCluster n x).cluster k = if k = n then x else s.cluster k := lookD_put s.clusters n k x _
theorem cluster_updCluster (s : State) (n k : Nat) (u : Cluster → Cluster) :
    (s.updCluster n u).cluster k = if k = n then u (s.cluster n) else s.cluster k := cluster_setCluster s n k _
theorem entry_setEntry (s : State) (n k : Nat) (x : LEntry) : (s.setEntry n x).entry k = if k = n then x else s.entry k :=
  lookD_put s.launches n k x _
theorem tag_setTag (s : State) (n k : Nat) (x : Tag) : (s.setTag n x).tag k = if k = n then x else s.tag k :=
  lookD_put s.tags n k x _
theorem ringOf_setRing (s : State) (n k : Nat) (x : Ring) : (s.setRing n x).ringOf k = if k = n then x else s.ringOf k :=
  lookD_put s.ring n k x _
@[simp] theorem reg_setReg_same (s : State) (r : Reg) (w : Word) : (s.setReg r w).reg r = w := by simp [State.reg, State.setReg]
theorem reg_setReg_other (s : State) {r q : Reg} (w : Word) (h : q.addr ≠ r.addr) : (s.setReg r w).reg q = s.reg q := by
  simp [State.reg, State.setReg, lookD_put_other _ _ _ h]

/-! A write of one of them leaves the frames, the memory and the executing frame alone. -/

@[simp] theorem frame_setCore (s : State) (n k : Nat) (x : CoreSt) : (s.setCore n x).frame k = s.frame k := rfl
@[simp] theorem frame_setTile (s : State) (n k : Nat) (x : Tile) : (s.setTile n x).frame k = s.frame k := rfl
@[simp] theorem frame_setCluster (s : State) (n k : Nat) (x : Cluster) : (s.setCluster n x).frame k = s.frame k := rfl
@[simp] theorem frame_setEntry (s : State) (n k : Nat) (x : LEntry) : (s.setEntry n x).frame k = s.frame k := rfl
@[simp] theorem frame_setTag (s : State) (n k : Nat) (x : Tag) : (s.setTag n x).frame k = s.frame k := rfl
@[simp] theorem frame_setReg (s : State) (r : Reg) (k : Nat) (w : Word) : (s.setReg r w).frame k = s.frame k := rfl
@[simp] theorem frame_setRing (s : State) (n k : Nat) (x : Ring) : (s.setRing n x).frame k = s.frame k := rfl
@[simp] theorem mem_setCore (s : State) (n : Nat) (x : CoreSt) : (s.setCore n x).mem = s.mem := rfl
@[simp] theorem mem_setTile (s : State) (n : Nat) (x : Tile) : (s.setTile n x).mem = s.mem := rfl
@[simp] theorem mem_setCluster (s : State) (n : Nat) (x : Cluster) : (s.setCluster n x).mem = s.mem := rfl
@[simp] theorem mem_setEntry (s : State) (n : Nat) (x : LEntry) : (s.setEntry n x).mem = s.mem := rfl
@[simp] theorem mem_setTag (s : State) (n : Nat) (x : Tag) : (s.setTag n x).mem = s.mem := rfl
@[simp] theorem mem_setReg (s : State) (r : Reg) (w : Word) : (s.setReg r w).mem = s.mem := rfl
@[simp] theorem mem_setRing (s : State) (n : Nat) (x : Ring) : (s.setRing n x).mem = s.mem := rfl
@[simp] theorem halt_setCore (s : State) (n : Nat) (x : CoreSt) : (s.setCore n x).halt = s.halt := rfl
@[simp] theorem halt_setTile (s : State) (n : Nat) (x : Tile) : (s.setTile n x).halt = s.halt := rfl
@[simp] theorem halt_setCluster (s : State) (n : Nat) (x : Cluster) : (s.setCluster n x).halt = s.halt := rfl
@[simp] theorem halt_setEntry (s : State) (n : Nat) (x : LEntry) : (s.setEntry n x).halt = s.halt := rfl
@[simp] theorem halt_setTag (s : State) (n : Nat) (x : Tag) : (s.setTag n x).halt = s.halt := rfl
@[simp] theorem halt_setReg (s : State) (r : Reg) (w : Word) : (s.setReg r w).halt = s.halt := rfl
@[simp] theorem halt_setRing (s : State) (n : Nat) (x : Ring) : (s.setRing n x).halt = s.halt := rfl

/-! ### Shared operations -/

@[simp] theorem act_running {s : State} (h : s.halt = none) (t : State) : s.act t = .next t := by simp [State.act, h]
theorem act_stopped {s : State} {h : Halt} (e : s.halt = some h) (t : State) : s.act t = .fault .stopped := by
  simp [State.act, e]
/-- A step takes place exactly when the package still accepts one. -/
theorem act_next {s t u : State} : s.act t = .next u ↔ s.halt = none ∧ t = u := by
  unfold State.act
  split <;> simp_all

@[simp] theorem advance_me (s : State) (n : Nat) :
    (s.advance n).me = { s.me with pc := pcAfter s.me.pc n, seq := s.me.seq + 1, since := 0, prog := 0 } := by
  simp [State.advance]
@[simp] theorem advance_cur (s : State) (n : Nat) : (s.advance n).cur = s.cur := rfl
@[simp] theorem advance_mem (s : State) (n : Nat) : (s.advance n).mem = s.mem := rfl
theorem advance_other (s : State) (n : Nat) {k : Nat} (h : k ≠ s.cur) : (s.advance n).frame k = s.frame k :=
  frame_updMe_other s _ h
@[simp] theorem jumpTo_me (s : State) (t : Nat) :
    (s.jumpTo t).me = { s.me with pc := BitVec.ofNat 48 t, seq := s.me.seq + 1, ibuf := [], since := 0, prog := 0 } := by
  simp [State.jumpTo]
@[simp] theorem jumpTo_cur (s : State) (t : Nat) : (s.jumpTo t).cur = s.cur := rfl
@[simp] theorem jumpTo_mem (s : State) (t : Nat) : (s.jumpTo t).mem = s.mem := rfl
theorem jumpTo_other (s : State) (t : Nat) {k : Nat} (h : k ≠ s.cur) : (s.jumpTo t).frame k = s.frame k :=
  frame_updMe_other s _ h
@[simp] theorem setG_me (s : State) (n : Nat) (w : Word) : (s.setG n w).me = s.me.setGr n w := by simp [State.setG]
@[simp] theorem setG_cur (s : State) (n : Nat) (w : Word) : (s.setG n w).cur = s.cur := rfl
@[simp] theorem setG_mem (s : State) (n : Nat) (w : Word) : (s.setG n w).mem = s.mem := rfl
theorem setG_other (s : State) (n : Nat) (w : Word) {k : Nat} (h : k ≠ s.cur) : (s.setG n w).frame k = s.frame k :=
  frame_updMe_other s _ h

end Sys2Proof.Machine
end

