-- ==== Sys2Proof/Laws/Memory.lean ====
section
/-!
SUPPORT. Laws/Memory.lean: every operation over memory keeps its canonical form (log 2, log 10), and what each does to a byte.
-/
namespace Sys2Proof.Machine

/-! ### The canonical form -/

theorem wf_iff (m : List Host.Cell) : Memory.wf m = true ↔ sorted m = true ∧ ∀ c ∈ m, c.2 ≠ 0 := by
  simp [Memory.wf]

theorem wf_nil : Memory.wf [] = true := rfl

theorem wf_sorted {m : List Host.Cell} (h : Memory.wf m = true) : sorted m = true := ((wf_iff m).1 h).1

theorem wf_filter {m : List Host.Cell} (h : Memory.wf m = true) (p : Host.Cell → Bool) : Memory.wf (m.filter p) = true := by
  rw [wf_iff] at *
  exact ⟨sorted_filter h.1 p, fun c hc => h.2 c (List.mem_of_mem_filter hc)⟩

theorem wf_putCanon {m : List Host.Cell} (h : Memory.wf m = true) (k : Nat) (b : Byte) :
    Memory.wf (putCanon 0 m k b) = true := by
  rw [wf_iff] at *
  unfold putCanon
  split
  · exact ⟨sorted_drop h.1 k, fun c hc => h.2 c (mem_drop m k hc)⟩
  · next hb =>
    refine ⟨sorted_put h.1 k b, fun c hc => ?_⟩
    rcases mem_put m k b hc with rfl | hm
    · exact hb
    · exact h.2 c hm

theorem wf_setByte {s : State} (h : Memory.wf s.mem = true) (k : Nat) (b : Byte) : Memory.wf (s.setByte k b).mem = true :=
  wf_putCanon h k b

theorem wf_writeN (n : Nat) : ∀ {s : State}, Memory.wf s.mem = true → ∀ k v mask : Nat, Memory.wf (s.writeN k v mask n).mem = true := by
  induction n with
  | zero => intro s h k v mask; exact h
  | succ n ih =>
    intro s h k v mask
    simp only [State.writeN]
    apply ih
    split
    · exact wf_setByte h k _
    · exact h

theorem wf_writeBytes (l : List Byte) : ∀ {s : State}, Memory.wf s.mem = true → ∀ k : Nat, Memory.wf (s.writeBytes k l).mem = true := by
  induction l with
  | nil => intro s h k; exact h
  | cons b t ih => intro s h k; exact ih (wf_setByte h k b) (k + 1)

theorem wf_zeroBytes {s : State} (h : Memory.wf s.mem = true) (lo hi : Nat) : Memory.wf (s.zeroBytes lo hi).mem = true :=
  wf_filter h _

/-! ### What a granted write leaves of memory -/

@[simp] theorem mem_setPoison (s : State) (k : Nat) (b : Bool) : (s.setPoison k b).mem = s.mem := rfl
@[simp] theorem mem_clearPoison (s : State) (lo hi : Nat) : (s.clearPoison lo hi).mem = s.mem := rfl
@[simp] theorem mem_breakResv (s : State) (l : Nat) : (s.breakResv l).mem = s.mem := rfl
@[simp] theorem mem_hitWatches (s : State) (l : Nat) : (s.hitWatches l).mem = s.mem := rfl
@[simp] theorem mem_glazeNote (s : State) (k : Nat) (bs : List (Nat × Byte)) : (s.glazeNote k bs).mem = s.mem := rfl
@[simp] theorem mem_poisonEvent (s : State) (f : Option Nat) (va : Nat) : (s.poisonEvent f va).mem = s.mem := by
  cases f with
  | none => rfl
  | some f => simp only [State.poisonEvent]; split <;> rfl
@[simp] theorem mem_setSlice (s : State) (k : Nat) (x : Slice) : (s.setSlice k x).mem = s.mem := rfl

@[simp] theorem mem_noteOld (s : State) (e : Option Nat) (key loc : Nat) : (s.noteOld e key loc).mem = s.mem := by
  unfold State.noteOld; dsimp only; split
  · split <;> rfl
  · rfl

/-- What a masked write leaves in memory follows from the memory before it. -/
theorem mem_writeN_congr (n : Nat) : ∀ {s t : State}, t.mem = s.mem → ∀ k v mask : Nat,
    (t.writeN k v mask n).mem = (s.writeN k v mask n).mem := by
  induction n with
  | zero => intro s t h k v mask; exact h
  | succ n ih =>
    intro s t h k v mask
    simp only [State.writeN]
    apply ih
    split
    · simp [State.setByte, h]
    · exact h

/-- A granted write changes memory as the masked write of its bytes does. -/
theorem mem_performWrite (s : State) (who : Option Nat) (va key loc size : Nat) (data : Word) (mask : Nat) :
    (s.performWrite who va key loc size data mask).mem = (s.writeN key data.toNat mask size).mem := by
  simp only [State.performWrite]
  have e := mem_writeN_congr size (mem_noteOld s (s.launchOf who) key loc) key data.toNat mask
  split <;> split <;> split <;> simpa using e

theorem wf_performWrite {s : State} (h : Memory.wf s.mem = true) (who : Option Nat) (va key loc size : Nat) (data : Word)
    (mask : Nat) : Memory.wf (s.performWrite who va key loc size data mask).mem = true := by
  rw [mem_performWrite]
  exact wf_writeN size h key _ mask

theorem mem_foldl {α : Type} (g : State → α → State) (hg : ∀ s x, (g s x).mem = s.mem) (l : List α) :
    ∀ s, (l.foldl g s).mem = s.mem := by
  induction l with
  | nil => intro s; rfl
  | cons x t ih => intro s; rw [List.foldl_cons, ih, hg]

theorem mem_copyLine (s : State) (src dst : Nat) :
    (s.copyLine src dst).mem = (s.writeBytes dst (s.readBytes src 64)).mem := by
  simp only [State.copyLine]
  exact mem_foldl (fun t i => t.setPoison (dst + 8 * i) (s.poisoned (src + 8 * i))) (fun _ _ => rfl) _ _

theorem wf_copyLine {s : State} (h : Memory.wf s.mem = true) (src dst : Nat) : Memory.wf (s.copyLine src dst).mem = true := by
  rw [mem_copyLine]
  exact wf_writeBytes _ h dst

theorem wf_dropLineBytes {s : State} (h : Memory.wf s.mem = true) (la : Nat) : Memory.wf (s.dropLineBytes la).mem = true :=
  wf_zeroBytes h _ _

theorem wf_writeBack {s : State} (h : Memory.wf s.mem = true) (sl : Nat) (l : Line) : Memory.wf (s.writeBack sl l).mem = true := by
  unfold State.writeBack
  by_cases hd : l.dirty = true
  · rw [if_pos hd]
    exact (congrArg Memory.wf (mem_setSlice _ _ _)).trans (wf_copyLine h _ _)
  · rw [if_neg hd]; exact h

theorem wf_evict {s : State} (h : Memory.wf s.mem = true) (sl : Nat) (l : Line) : Memory.wf (s.evict sl l).mem = true := by
  unfold State.evict
  exact (congrArg Memory.wf (mem_setSlice _ _ _)).trans (wf_dropLineBytes (wf_writeBack h sl l) _)

/-! ### What each does to a byte -/

theorem byte_of_mem {s t : State} (h : t.mem = s.mem) (a : Nat) : t.byte a = s.byte a := by simp [State.byte, h]

theorem sameBytes_of_mem {s t : State} (h : t.mem = s.mem) : SameBytes s t := byte_of_mem h

theorem byte_setByte {s : State} (h : Memory.wf s.mem = true) (k a : Nat) (b : Byte) :
    (s.setByte k b).byte a = if a = k then b else s.byte a := lookD_putCanon (wf_sorted h) 0 k a b

theorem byte_writeN (n : Nat) : ∀ {s : State}, Memory.wf s.mem = true → ∀ k v mask a : Nat,
    (s.writeN k v mask n).byte a =
      if k ≤ a ∧ a < k + n ∧ mask.testBit (a - k) = true then BitVec.ofNat 8 (v / 256 ^ (a - k)) else s.byte a := by
  induction n with
  | zero =>
    intro s h k v mask a
    have c : ¬ (k ≤ a ∧ a < k + 0 ∧ mask.testBit (a - k) = true) := by omega
    simp only [State.writeN, c, if_false]
  | succ n ih =>
    intro s h k v mask a
    have h2 : Memory.wf ((if mask % 2 = 1 then s.setByte k (BitVec.ofNat 8 v) else s).mem) = true := by
      split
      · exact wf_setByte h k _
      · exact h
    simp only [State.writeN]
    rw [ih h2]
    by_cases ha : a = k
    · subst ha
      have : ¬ (a + 1 ≤ a) := by omega
      simp only [this, false_and, if_false, Nat.le_refl, Nat.sub_self, pow_zero, Nat.div_one, true_and, Nat.testBit_zero,
        decide_eq_true_eq]
      have : a < a + (n + 1) := by omega
      simp only [this, true_and]
      split
      · rw [byte_setByte h]; simp
      · rfl
    · have hb : ((if mask % 2 = 1 then s.setByte k (BitVec.ofNat 8 v) else s)).byte a = s.byte a := by
        split
        · rw [byte_setByte h, if_neg ha]
        · rfl
      rw [hb]
      by_cases hle : k + 1 ≤ a
      · obtain ⟨d, rfl⟩ : ∃ d, a = k + 1 + d := ⟨a - (k + 1), by omega⟩
        have e1 : k + 1 + d - (k + 1) = d := by omega
        have e2 : k + 1 + d - k = d + 1 := by omega
        rw [e1, e2, Nat.testBit_succ, Nat.pow_succ', Nat.div_div_eq_div_mul]
        have c1 : (k + 1 + d < k + 1 + n) ↔ (k + 1 + d < k + (n + 1)) := by omega
        simp only [c1, hle, true_and, Nat.le_of_lt (Nat.lt_of_succ_le hle)]
      · have : ¬ k ≤ a := by omega
        simp [hle, this]

theorem byte_writeBytes (l : List Byte) : ∀ {s : State}, Memory.wf s.mem = true → ∀ k a : Nat,
    (s.writeBytes k l).byte a = if k ≤ a ∧ a < k + l.length then l.getD (a - k) 0 else s.byte a := by
  induction l with
  | nil => intro s h k a; have : ¬ (k ≤ a ∧ a < k + 0) := by omega
           simp only [State.writeBytes, List.length_nil, this, if_false]
  | cons b t ih =>
    intro s h k a
    simp only [State.writeBytes, ih (wf_setByte h k b), byte_setByte h, List.length_cons]
    by_cases ha : a = k
    · subst ha
      have c2 : a ≤ a ∧ a < a + (t.length + 1) := by omega
      simp [c2]
    · by_cases hle : k + 1 ≤ a
      · obtain ⟨d, rfl⟩ : ∃ d, a = k + 1 + d := ⟨a - (k + 1), by omega⟩
        have e1 : k + 1 + d - (k + 1) = d := by omega
        have e2 : k + 1 + d - k = d + 1 := by omega
        have c1 : (k + 1 ≤ k + 1 + d ∧ k + 1 + d < k + 1 + t.length) ↔ (k ≤ k + 1 + d ∧ k + 1 + d < k + (t.length + 1)) := by
          omega
        simp only [e1, e2, c1, ha, if_false, List.getD_cons_succ]
      · have c1 : ¬ (k + 1 ≤ a ∧ a < k + 1 + t.length) := by omega
        have c2 : ¬ (k ≤ a ∧ a < k + (t.length + 1)) := by omega
        simp only [c1, c2, ha, if_false]

theorem lookD_filter_key {α : Type} {m : SMap α} (h : sorted m = true) (p : Nat → Bool) (n : Nat) (d : α) :
    lookD (m.filter fun c => p c.1) n d = if p n = true then lookD m n d else d := by
  induction m with
  | nil => simp
  | cons hd t ih =>
    obtain ⟨k0, y⟩ := hd
    obtain ⟨ha, hs⟩ := (sorted_cons k0 y t).1 h
    have hab : above k0 (t.filter fun c => p c.1) := fun c hc => ha c (List.mem_of_mem_filter hc)
    simp only [lookD] at ih ⊢
    by_cases hp : p k0 = true
    · rw [List.filter_cons_of_pos (by simpa using hp), look_cons, look_cons]
      by_cases e : n = k0
      · subst e; simp [hp]
      · simp only [e, if_false]
        by_cases hlt : n < k0
        · simp [hlt]
        · simp only [hlt, if_false]; exact ih hs
    · rw [List.filter_cons_of_neg (by simpa using hp), look_cons]
      by_cases e : n = k0
      · subst e; rw [look_above hab]; simp [hp]
      · simp only [e, if_false]
        by_cases hlt : n < k0
        · rw [look_above fun c hc => Nat.lt_trans hlt (hab c hc)]; simp [hlt]
        · simp only [hlt, if_false]; exact ih hs

theorem byte_zeroBytes {s : State} (h : Memory.wf s.mem = true) (lo hi a : Nat) :
    (s.zeroBytes lo hi).byte a = if lo ≤ a ∧ a < hi then 0 else s.byte a := by
  have := lookD_filter_key (wf_sorted h) (fun k => !(lo ≤ k && k < hi)) a (0 : Byte)
  simp only [State.zeroBytes, State.byte]
  rw [this]
  by_cases c : lo ≤ a ∧ a < hi
  · simp [c]
  · rw [if_neg c, if_pos]; simp; omega

theorem byte_performWrite {s : State} (h : Memory.wf s.mem = true) (who : Option Nat) (va key loc size : Nat) (data : Word)
    (mask a : Nat) : (s.performWrite who va key loc size data mask).byte a =
      if key ≤ a ∧ a < key + size ∧ mask.testBit (a - key) = true then BitVec.ofNat 8 (data.toNat / 256 ^ (a - key))
      else s.byte a := by
  rw [byte_of_mem (mem_performWrite s who va key loc size data mask)]
  exact byte_writeN size h key _ mask a

end Sys2Proof.Machine
end

