-- ==== Sys2Proof/Laws/Shared.lean ====
section
/-!
SUPPORT. Laws/Shared.lean: what each operation that the meanings share can do, said once: moving past an instruction, going to
a target, writing a g register, putting accesses on their way.
-/
namespace Sys2Proof.Machine

/-! ### Lengths -/

/-- The encoder writes as many halfwords as the operand fields take. -/
theorem encode_length {i : Instr} {o : Opnd} {f : Form} (h1 : form i = some f) (h2 : opnd i = some o) :
    (encode i).length = o.halves f.page := by
  simp only [encode, h1, h2, Opnd.halves]
  cases o.m <;> cases o.v <;> cases o.r <;> simp <;> split <;> simp <;> omega

/-! ### Moving on -/

/-- Moving past an instruction of its own length: nothing else differs. -/
theorem advance_goesTo (s : State) {i : Instr} {n : Nat} (h : (encode i).length = n) : GoesTo s (s.advance n) (s.next i) := by
  refine ⟨⟨rfl, ?_, fun _ => rfl⟩, ?_⟩
  · intro k hk; exact advance_other _ _ (by simpa using hk)
  · simp [State.next, h]

/-- Going to a target: nothing else differs. -/
theorem jumpTo_goesTo (s : State) (t : Nat) : GoesTo s (s.jumpTo t) (BitVec.ofNat 48 t) := by
  refine ⟨⟨rfl, ?_, fun _ => rfl⟩, ?_⟩
  · intro k hk; exact jumpTo_other _ _ (by simpa using hk)
  · simp

/-! ### Writing a g register -/

/-- Writing a g register and moving on: the one register, and the program counter. -/
theorem setG_advance_writesG (s : State) (r : Nat) (w : Word) {i : Instr} {n : Nat} (h : (encode i).length = n) :
    WritesG s ((s.setG r w).advance n) r w (s.next i) := by
  refine ⟨⟨rfl, ?_, fun _ => rfl⟩, ?_, ?_⟩
  · intro k hk
    have hk : k ≠ s.cur := by simpa using hk
    rw [advance_other _ _ (by simpa using hk), setG_other _ _ _ hk]
  · intro k hk
    have : ((s.setG r w).advance n).g k = (s.me.setGr r w).gr k := by simp [State.g, Frame.gr]
    rw [this, gr_setGr _ _ _ _ hk]; rfl
  · rw [advance_me, setG_me, setGr_kept]
    simp [State.next, h]

/-- The same for a call: g1 takes the link. -/
theorem setG_jumpTo_links (s : State) (t : Nat) {i : Instr} {n : Nat} (h : (encode i).length = n) :
    Links s ((s.setG 1 ((pcAfter s.me.pc n).setWidth 64 ||| 1)).jumpTo t) i (BitVec.ofNat 48 t) := by
  refine ⟨⟨rfl, ?_, fun _ => rfl⟩, ?_, ?_⟩
  · intro k hk
    have hk : k ≠ s.cur := by simpa using hk
    rw [jumpTo_other _ _ (by simpa using hk), setG_other _ _ _ hk]
  · intro k hk
    have : ((s.setG 1 ((pcAfter s.me.pc n).setWidth 64 ||| 1)).jumpTo t).g k =
        (s.me.setGr 1 ((pcAfter s.me.pc n).setWidth 64 ||| 1)).gr k := by simp [State.g, Frame.gr]
    rw [this, gr_setGr _ _ _ _ hk]
    simp [State.next, h, State.g]
  · rw [jumpTo_me, setG_me, setGr_kept]

/-! ### Issuing accesses -/

/-- The record of the accesses that the executing instruction puts on their way. -/
def State.accRecord (u : State) (op : AOp) (m : Mods) (commit : Bool) (rnd : List (BitVec 64)) (areg fl0 : Nat) (ret : Ret)
    (parts : List Part) : Acc :=
  { frame := u.cur, seq := u.me.seq, op := op, strong := m.strong, scope := m.scope, cp := m.cp, urg := u.inUrgent,
    stamp := u.ck + (if commit then 5 else 0), arith := u.me.arith, rnd := rnd.map (·.setWidth 32), gang := u.me.gang,
    areg := areg, fl0 := fl0, ret := ret, parts := parts }

theorem issueAcc_eq (u : State) (op : AOp) (m : Mods) (c : Bool) (r : List (BitVec 64)) (n k : Nat) (ret : Ret) (ps : List Part) :
    u.issueAcc op m c r n k ret ps = { u with accs := u.accs ++ [u.accRecord op m c r n k ret ps] } := rfl

@[simp] theorem issueAcc_me (u : State) (op : AOp) (m : Mods) (c : Bool) (r : List (BitVec 64)) (n k : Nat) (ret : Ret)
    (ps : List Part) : (u.issueAcc op m c r n k ret ps).me = u.me := rfl
@[simp] theorem issueAcc_cur (u : State) (op : AOp) (m : Mods) (c : Bool) (r : List (BitVec 64)) (n k : Nat) (ret : Ret)
    (ps : List Part) : (u.issueAcc op m c r n k ret ps).cur = u.cur := rfl

/-- Putting accesses on their way and moving on: one record more, and the program counter. -/
theorem issueAcc_issues (u : State) (op : AOp) (m : Mods) (c : Bool) (r : List (BitVec 64)) (k l : Nat) (ret : Ret)
    (ps : List Part) {i : Instr} {n : Nat} (h : (encode i).length = n) :
    Issues u ((u.issueAcc op m c r k l ret ps).advance n) (u.accRecord op m c r k l ret ps) (u.next i) := by
  refine ⟨rfl, ?_, fun _ => rfl, ?_⟩
  · intro k hk; rw [advance_other _ _ (by simpa [issueAcc_cur] using hk)]; rfl
  · rw [advance_me, issueAcc_me, State.next, h]

/-! ### Flags (spec/01 R24, spec/05 R119) -/

/-- An instruction without flags updates none and takes no trap. -/
@[simp] theorem mergeFlags_nil (s : State) (f : Nat) (eng : Bool) : s.mergeFlags f [] eng = s := rfl
/-- No flag raises a trap, whatever the enables. -/
@[simp] theorem arithTrapOf_nil (te : Nat) (eng : Bool) : arithTrapOf te [] eng = none := by simp [arithTrapOf, orFlags]
@[simp] theorem arithTrap_nil (s : State) (f : Nat) (eng : Bool) : s.arithTrap f [] eng = none := arithTrapOf_nil _ _
/-- The end of an instruction that sets no flag: its destination is written and the thread moves on. -/
@[simp] theorem retire_nil (s : State) (n : Nat) (write : State → State) : s.retire n [] write = (write s).advance n := by
  simp [State.retire]

end Sys2Proof.Machine
end

