-- ==== Sys2Proof/Tests/Slice0.lean ====
section
/-!
SUPPORT. Tests/Slice0.lean: what the model does on words and examples that the spec writes out, ill-formed terms that
`Instr.wf` refuses, and for each statement of the obligations states that meet its hypotheses.
-/
namespace Sys2Proof.Tests
open Sys2Proof.Machine

set_option maxRecDepth 100000

/-! ### Words written out from the encodings of the spec -/

/-- spec/04: R93, R97, R103, R105–R107 and its example programs; spec/03 R78. -/
theorem test_words_scalar :
    Reads [0x04C8] (.add ⟨6, 8, none, none, none, []⟩) ∧
    Reads [0x74A8] (.li ⟨5, 8, none, none, none, []⟩) ∧
    Reads [0x4C86] (.mov ⟨4, 6, none, none, none, []⟩) ∧
    Reads [0x62A1] (.shlI ⟨21, 1, none, none, none, []⟩) ∧
    Reads [0xE414, 0x62C2] (.shlI ⟨22, 2, none, none, some ⟨20, 0, 0⟩, []⟩) ∧
    Reads [0xE415, 0xE00E, 0x7AC0] (.bfx ⟨22, 0, none, none, some ⟨21, 0, 0⟩, [0x00E]⟩) ∧
    Reads [0xE002, 0x8E83] (.lrec ⟨20, 3, none, none, none, [2]⟩) ∧
    Reads [0xA104] (.ldw ⟨8, 4, none, none, none, []⟩) ∧
    Reads [0xE001, 0xB6B4] (.stw ⟨21, 20, none, none, none, [1]⟩) ∧
    Reads [0xB895] (.std ⟨4, 21, none, none, none, []⟩) ∧
    Reads [0xE00C, 0xC2D7] (.bne ⟨22, 23, none, none, none, [0xC]⟩) ∧
    Reads [0x8681] (.callr ⟨20, 1, none, none, none, []⟩) ∧
    Reads [0x8405] (.padC ⟨0, 5, none, none, none, []⟩) := by
  simp only [Reads]; repeat' apply And.intro
  all_goals rfl

/-- spec/07: its examples and its program; spec/18's vector words. -/
theorem test_words_vector :
    Reads [0xE801, 0xF007, 0xE405, 0x2C64] (.vcmul ⟨3, 4, none, some ⟨7, 0, 0, 0⟩, some ⟨5, 0, 0⟩, []⟩) ∧
    Reads [0xE801, 0xE405, 0x4835] (.vwhile ⟨1, 21, none, none, some ⟨5, 0, 0⟩, []⟩) ∧
    Reads [0xE801, 0xF014, 0xE480, 0x6444] (.vld ⟨2, 4, none, some ⟨4, 1, 0, 0⟩, some ⟨0, 0, 1⟩, []⟩) ∧
    Reads [0xE801, 0xE482, 0x5821] (.vredAdd ⟨1, 1, none, none, some ⟨2, 0, 1⟩, []⟩) ∧
    Reads [0xE801, 0xF020, 0xE48C, 0x38A2] (.vdot ⟨5, 2, none, some ⟨0, 0, 1, 0⟩, some ⟨12, 0, 1⟩, []⟩) ∧
    Reads [0xE801, 0xE457, 0x07BC] (.vadd ⟨29, 28, none, none, some ⟨23, 2, 0⟩, []⟩) ∧
    Reads [0xE801, 0xF000, 0xE401, 0x8843] (.vtunp ⟨2, 3, none, some ⟨0, 0, 0, 0⟩, some ⟨1, 0, 0⟩, []⟩) ∧
    Reads [0xE801, 0xE401, 0x80C0] (.vmovsToG ⟨6, 0, none, none, some ⟨1, 0, 0⟩, []⟩) ∧
    Reads [0xE801, 0x8C06] (.gang ⟨0, 6, none, none, none, []⟩) := by
  simp only [Reads]; repeat' apply And.intro
  all_goals rfl

/-- spec/08, spec/10 and spec/11: the examples of their entries. -/
theorem test_words_page2 :
    Reads [0xE802, 0xE416, 0x0404] (.stbind ⟨0, 4, none, none, some ⟨22, 0, 0⟩, []⟩) ∧
    Reads [0xE802, 0x0C21] (.stbindn ⟨1, 1, none, none, none, []⟩) ∧
    Reads [0xE802, 0x1400] (.stunbind ⟨0, 0, none, none, none, []⟩) ∧
    Reads [0xE802, 0xE436, 0x1A95] (.cpy ⟨20, 21, none, none, some ⟨22, 1, 0⟩, []⟩) ∧
    Reads [0xE802, 0xE408, 0x2887] (.cpyt ⟨4, 7, none, none, some ⟨8, 0, 0⟩, []⟩) ∧
    Reads [0xE802, 0xE406, 0x3085] (.tdef ⟨4, 5, none, none, some ⟨6, 0, 0⟩, []⟩) ∧
    Reads [0xE802, 0x3544] (.tstate ⟨10, 4, none, none, none, []⟩) ∧
    Reads [0xE802, 0x3804] (.trel ⟨0, 4, none, none, none, []⟩) ∧
    Reads [0xE802, 0xF000, 0xE425, 0x3D04] (.mma ⟨8, 4, none, some ⟨0, 0, 0, 0⟩, some ⟨5, 1, 0⟩, []⟩) ∧
    Reads [0xE802, 0xF3CE, 0xE407, 0x4006] (.mmac ⟨0, 6, none, some ⟨0xE, 0, 0, 0xF⟩, some ⟨7, 0, 0⟩, []⟩) ∧
    Reads [0xE802, 0xE407, 0x4C26] (.msta ⟨1, 6, none, none, some ⟨7, 0, 0⟩, []⟩) ∧
    Reads [0xE802, 0x5021] (.mwait ⟨1, 1, none, none, none, []⟩) ∧
    Reads [0xE802, 0x5402] (.fencexMatrix ⟨0, 2, none, none, none, []⟩) := by
  simp only [Reads]; repeat' apply And.intro
  all_goals rfl

/-- spec/05, spec/09, spec/12, spec/13 and spec/15: the examples of their entries. -/
theorem test_words_page3 :
    Reads [0xE803, 0xE409, 0x04C1] (.amo ⟨6, 1, none, none, some ⟨9, 0, 0⟩, []⟩) ∧
    Reads [0xE803, 0x08A9] (.lr ⟨5, 9, none, none, none, []⟩) ∧
    Reads [0xE803, 0x5800] (.phasec ⟨0, 0, none, none, none, []⟩) ∧
    Reads [0xE803, 0xF00A, 0xE40A, 0x14C9] (.tadd ⟨6, 9, none, some ⟨0xA, 0, 0, 0⟩, some ⟨10, 0, 0⟩, []⟩) ∧
    Reads [0xE803, 0x2487] (.tdrain ⟨4, 7, none, none, none, []⟩) ∧
    Reads [0xE803, 0x1D04] (.tclose ⟨8, 4, none, none, none, []⟩) ∧
    Reads [0xE803, 0xE416, 0x2A95] (.gsub ⟨20, 21, none, none, some ⟨22, 0, 0⟩, []⟩) ∧
    Reads [0xE803, 0x3A25] (.bleave ⟨17, 5, none, none, none, []⟩) ∧
    Reads [0xE803, 0x42F5] (.wake ⟨23, 21, none, none, none, []⟩) ∧
    Reads [0xE803, 0xEC03, 0x4401] (.fence ⟨0, 1, some ⟨3, 0, 0, 0⟩, none, none, []⟩) ∧
    Reads [0xE803, 0xE406, 0x5085] (.sop ⟨4, 5, none, none, some ⟨6, 0, 0⟩, []⟩) ∧
    Reads [0xE803, 0x5C94] (.send ⟨4, 20, none, none, none, []⟩) ∧
    Reads [0xE803, 0xE408, 0x6CC7] (.larm ⟨6, 7, none, none, some ⟨8, 0, 0⟩, []⟩) ∧
    Reads [0xE803, 0x754B] (.lwait ⟨10, 11, none, none, none, []⟩) ∧
    Reads [0xE803, 0xE009, 0x780C] (.trap ⟨0, 12, none, none, none, [9]⟩) ∧
    Reads [0xE803, 0x7EA3] (.crd ⟨21, 3, none, none, none, []⟩) ∧
    Reads [0xE803, 0x80B4] (.cwr ⟨5, 20, none, none, none, []⟩) ∧
    Reads [0xE803, 0x84E4] (.rng ⟨7, 4, none, none, none, []⟩) ∧
    Reads [0xE803, 0x8400] (.eret ⟨0, 0, none, none, none, []⟩) := by
  simp only [Reads]; repeat' apply And.intro
  all_goals rfl

/-- The borderline chains of spec/03. -/
theorem test_chains_refused :
    decode [0x0000] = .error (.illegal 0) ∧ decode [0xE000, 0x0485] = .error (.chain 6 0 0xE000) ∧
    decode [0xE400, 0xE400, 0x0485] = .error (.chain 2 1 0xE400) ∧
    decode [0xE503, 0xF01B, 0xE801, 0x0422] = .error (.chain 3 1 0xF01B) ∧
    decode [0xE801, 0x9400] = .error (.illegal 0) ∧ decode [0xE803, 0x8410] = .error (.illegal 1) ∧
    decode [0xF400, 0x2800] = .error (.chain 4 0 0xF400) ∧
    decode [0xE000, 0xE000, 0xE000, 0xE000, 0xE000, 0x5088] = .error (.chain 1 4 0xE000) := by
  refine ⟨rfl, rfl, rfl, rfl, rfl, rfl, rfl, rfl⟩

/-! ### Ill-formed instructions -/

/-- A prefix kind that the row does not take, or requires and lacks (spec/03 R63, R64). -/
theorem test_wf_prefixes :
    (Instr.add ⟨4, 5, none, none, none, [0]⟩).wf = false ∧ (Instr.blt ⟨4, 5, none, none, none, []⟩).wf = false ∧
    (Instr.mov ⟨4, 5, none, none, some ⟨6, 0, 0⟩, []⟩).wf = false ∧ (Instr.bfi ⟨4, 5, none, none, none, []⟩).wf = false ∧
    (Instr.add ⟨4, 5, none, some ⟨4, 0, 0, 0⟩, none, []⟩).wf = false ∧
    (Instr.add ⟨4, 5, some ⟨6, 0, 0, 0⟩, none, none, []⟩).wf = false := by decide

/-- More than four prefixes; a minor code that is another's; an AMO with an unassigned function code (spec/03 R64, R70;
spec/09 R211); an event has no encoding. -/
theorem test_wf_codes :
    (Instr.addI ⟨4, 5, none, none, none, [1, 2, 3, 4, 5]⟩).wf = false ∧ (Instr.clz ⟨4, 1, none, none, none, []⟩).wf = false ∧
    (Instr.amo ⟨4, 31, none, none, some ⟨6, 0, 0⟩, []⟩).wf = false ∧ Instr.packageReset.wf = false := by decide

/-- A reserved field, and a value that the entry does not permit (spec/03 R65, spec/04 R92, spec/05 R121). -/
theorem test_wf_fields :
    (Instr.ret ⟨1, 2, none, none, none, []⟩).wf = false ∧ (Instr.bfx ⟨4, 31, none, none, none, [0x07E]⟩).wf = false ∧
    (Instr.trap ⟨0, 0, none, none, none, [0x3FF, 0x3FF]⟩).wf = false ∧
    (Instr.add ⟨4, 5, none, none, some ⟨6, 1, 0⟩, []⟩).wf = false := by decide

/-! ### One step on a small state -/

/-- A thread in a slot with these g registers, at 0x1000, with the ARITH that spec/01 R23 gives by default. -/
def slotFrame (g : List (Nat × Word)) : Frame :=
  g.foldl (fun x p => x.setGr p.1 p.2) { Frame.empty .slot with stat := .ready, pc := 0x1000, arith := 0xE0 }

/-- The thread stands in slot 0 of core 0, alone. -/
def alone (x : Frame) : State := { State.reset with frames := [(0, x)] }

/-- A core whose PLB holds every right of the empty table, for slot 0 and for the whole first granules. -/
def openCore : CoreSt := { CoreSt.empty with plb := [(hdrKey 0 0, 2 ^ 34 - 1), (plbKey 0 0x10000000000, 7)] }
/-- `alone`, with the rights of `openCore`. -/
def free0 (x : Frame) : State := { alone x with cores := [(0, openCore)] }
/-- A launch whose kernel is of plain header. -/
def entry0 : LEntry := { LEntry.none with st := .placed, mapv := 0xFFFF, map := 0xFEDCBA9876543210, live := [0], tiles := 64, started := true }
/-- A thread of launch 0 in slot 0, with the rights of `openCore`. -/
def inLaunch (x : Frame) : State := { free0 { x with launch := some 0 } with launches := [(0, entry0)] }

/-- A test of the state that an instruction or event leads to. -/
def gives (i : Instr) (s : State) (p : State → Bool) : Bool :=
  match exec i s with
  | .next t => p t
  | _ => false

/-- One access of eight bytes. -/
def part0 (tgt : Tgt) (st : Stage) (data : Word) : Part := ⟨0, 8, 8, 0, tgt, false, 8, 255, data, 0, st, 9, false⟩
/-- The record of an instruction of slot 0. -/
def acc0 (op : AOp) (ret : Ret) (ps : List Part) : Acc := ⟨0, 0, op, false, 6, 0, false, 0, 0xE0, [], false, 0, 0, ret, ps⟩

/-- An instruction without prefixes, with fields A and B. -/
def ab (a b : BitVec 5) : Opnd := ⟨a, b, none, none, none, []⟩
/-- The same with PXR. -/
def abc (a b c : BitVec 5) : Opnd := ⟨a, b, none, none, some ⟨c, 0, 0⟩, []⟩

/-- The table of spec/04 R90. -/
theorem test_div_corners :
    gives (.div (ab 4 5)) (alone (slotFrame [(4, 7), (5, -2)])) (fun t => t.g 4 == -3) = true ∧
    gives (.rem (ab 4 5)) (alone (slotFrame [(4, -7), (5, 2)])) (fun t => t.g 4 == -1) = true ∧
    gives (.divn (ab 4 5)) (alone (slotFrame [(4, -7), (5, 2)])) (fun t => t.g 4 == 0x7FFFFFFFFFFFFFFC) = true ∧
    gives (.div (ab 4 5)) (alone (slotFrame [(4, 0x8000000000000000), (5, -1)])) (fun t => t.g 4 == 0x8000000000000000) = true ∧
    gives (.rem (ab 4 5)) (alone (slotFrame [(4, 5)])) (fun t => t.g 4 == 5 && (t.frame 0).flags == 2) = true := by decide

/-- spec/04 R93's example, and its `.s` form. -/
theorem test_bfx_example :
    gives (.bfx ⟨4, 8, none, none, some ⟨9, 0, 0⟩, [0x01E]⟩) (alone (slotFrame [(9, 0xABCD12)])) (fun t => t.g 4 == 0xABCD) = true ∧
    gives (.bfx ⟨4, 8, none, none, some ⟨9, 0, 0⟩, [0x09E]⟩) (alone (slotFrame [(9, 0xABCD12)]))
      (fun t => t.g 4 == 0xFFFFFFFFFFFFABCD) = true := by decide

/-- spec/04 R89: the immediate of SLTN is sign-extended; MULH is signed; SAR keeps the sign at 64 and above. -/
theorem test_arith_corners :
    gives (.sltnI (ab 4 31)) (alone (slotFrame [(4, 5)])) (fun t => t.g 4 == 1) = true ∧
    gives (.mulh (ab 4 5)) (alone (slotFrame [(4, -1), (5, 3)])) (fun t => t.g 4 == -1) = true ∧
    gives (.sar (ab 4 5)) (alone (slotFrame [(4, -9), (5, 64)])) (fun t => t.g 4 == -1) = true ∧
    gives (.shl (ab 4 5)) (alone (slotFrame [(4, -9), (5, 64)])) (fun t => t.g 4 == 0) = true ∧
    gives (.add (ab 0 5)) (alone (slotFrame [(5, 64)])) (fun t => t.g 0 == 0 && t.me.pc == 0x1002) = true := by decide

/-- spec/04's example loop: `blt g7, g5` with displacement −4; CALL's link and RET's use of it (R105–R107). -/
theorem test_control_flow :
    gives (.blt ⟨7, 5, none, none, none, [0x3FC]⟩) (alone (slotFrame [(7, -1)])) (fun t => t.me.pc == 0xFF8) = true ∧
    gives (.blt ⟨7, 5, none, none, none, [0x3FC]⟩) (alone (slotFrame [(7, 1)])) (fun t => t.me.pc == 0x1004) = true ∧
    gives (.call (ab 0 4)) (alone (slotFrame [])) (fun t => t.me.pc == 0x1008 && t.g 1 == 0x1003) = true ∧
    gives (.ret (ab 0 2)) (alone (slotFrame [(1, 0x2001)])) (fun t => t.me.pc == 0x2000) = true ∧
    gives (.ret (ab 0 2)) (alone (slotFrame [(1, 0x2000)])) (fun t => t.me.tcause == 0x00040003) = true := by decide

/-- spec/05's example: `trap #300` at P, served by a handler at TVEC. -/
theorem test_trap_example :
    gives (.trap ⟨0, 12, none, none, none, [9]⟩) (alone { slotFrame [] with tvec := 0x8000 }) (fun t =>
      t.me.tcause == 0x00030080 && t.me.taddr == 0x12C && t.me.tretpc == 0x1000 && (t.frame 4).pc == 0x8000 &&
      (t.frame 4).kind == .handler 0 && (t.frame 4).priv == .s) = true := by decide

/-- spec/01's example: identity and ARITH of a thread in slot 2 of core 9. -/
theorem test_identity_example :
    let x := { slotFrame [(20, 0xE0)] with ltid := 2406, ltile := 37, lcl := 6, arith := 0x140E4 }
    let s := { State.reset with frames := [(47, x)], cur := 47 }
    gives (.crd (ab 6 7)) s (fun t => t.g 6 == 0x20966) = true ∧ gives (.crd (ab 6 8)) s (fun t => t.g 6 == 0x259) = true ∧
    gives (.crd (ab 6 9)) s (fun t => t.g 6 == 6) = true ∧
    gives (.cwr (ab 0 20)) s (fun t => t.me.arith == 0x100E0) = true := by decide

/-- spec/07's example of VCMUL.CI12, with ISAT set and clear. -/
theorem test_vcmul_example :
    let o : Opnd := ⟨3, 4, none, some ⟨7, 0, 0, 0⟩, some ⟨5, 0, 0⟩, []⟩
    let x := ((slotFrame []).setVr 4 0x03E805DC).setVr 5 0x00010002
    gives (.vcmul o) (alone x) (fun t =>
      t.vreg 0 3 % 2 ^ 32 == 0x07FF07D0 && (t.frame 0).flags == 0x20 && (t.frame 0).faultel.toNat % 2 ^ 32 == 0) = true ∧
    gives (.vcmul o) (alone { x with arith := 0xA0 }) (fun t => t.vreg 0 3 % 2 ^ 32 == 0xFDAC07D0 && (t.frame 0).flags == 0) = true := by
  decide

/-- spec/07 R162 and R149: VWHILE over the four INT32 elements; a merged addition keeps its inactive elements. -/
theorem test_vwhile_and_merge :
    gives (.vwhile ⟨1, 21, none, none, some ⟨5, 0, 0⟩, []⟩) (alone (slotFrame [(21, 6), (5, 8)])) (fun t => t.preg 0 1 == 0xFF) = true ∧
    gives (.vadd ⟨2, 3, none, none, some ⟨4, 0, 1⟩, []⟩)
      (alone (((((slotFrame []).setVr 2 0x0000000900000009).setVr 3 0x0000000300000002).setVr 4 0x0000000500000005).setPr 1 0xF))
      (fun t => t.vreg 0 2 == 0x0000000900000007) = true := by decide

/-- spec/10's example: TDEF of descriptor 3 and the word that TSTATE reads; TREL of an EMPTY descriptor has no effect. -/
theorem test_tdef_example :
    let s := free0 (slotFrame [(4, 3), (5, 0x10000), (6, 0x0403F1F1)])
    gives (.tdef (abc 4 5 6)) s (fun t => gives (.tstate (ab 10 4)) t (fun u => u.g 10 == 0x00000403F1F10004)) = true ∧
    gives (.trel (ab 0 4)) s (fun t => (t.tile 0).desc 3 == Desc.none && t.me.pc == 0x1004) = true := by decide

/-- spec/13's example of GSTAT: entry 3, ACTIVE, two blocks, publisher in logical cluster 2 at 0x1000. -/
theorem test_gstat_example :
    let g : GEntry := { GEntry.none with st := .active, launch := some 0, pub := 0x1000, sub := 0x9B8000, len := 128, pcl := 2 }
    let s := { alone { slotFrame [(23, 3)] with launch := some 0 } with tiles := [(0, { State.reset.tile 0 with glaze := [(3, g)] })] }
    gives (.gstat (ab 24 23)) s (fun t => t.g 24 == 0x26E0000080400022) = true := by decide

/-- spec/13's example: the third update of three tickets finds 2^24 + 1.0, which rounds to 2^24, and NX (FLAGS bit 4) is set. -/
theorem test_ticket_sum :
    ticketNew 10 0xE0 [] 0x4B800000 0x3F800000 = (0x4B800000, 16) := by decide

/-- spec/02 R54, computed by hand from the function: the first words under key 0 and under key 5 for thread 3. -/
theorem test_random_words :
    gives (.rng (ab 7 4)) (alone (slotFrame [])) (fun t => t.g 7 == 0x901BD79C5F1E1240 && t.me.rngc == 1) = true ∧
    gives (.rng (ab 7 4)) (alone { slotFrame [] with seed := 5, ltid := 3, rngc := 7 }) (fun t => t.g 7 == 0x05AE2542B19E3E5A) = true := by
  decide

/-- spec/12 R276: SLEEP takes the bits of its mask; WAKE of an empty mask is not held. -/
theorem test_sleep_takes_bits :
    gives (.sleep (ab 21 0)) (alone { slotFrame [(21, 2)] with wake := 6 }) (fun t => t.g 21 == 2 && t.me.wake == 4) = true ∧
    gives (.sleep (ab 21 0)) (alone { slotFrame [] with wake := 6 }) (fun t => t.g 21 == 0 && t.me.wake == 6) = true := by decide

/-- spec/15 R356: SALLOC returns the handle of slot 0; SOP adds and returns the old value. -/
theorem test_sync_variables :
    gives (.salloc (ab 4 5)) (alone (slotFrame [(5, 9)])) (fun t => t.g 4 == 0 && (t.svar 0).value == 9) = true ∧
    gives (.sop (abc 4 5 6)) { alone (slotFrame [(5, 0x10000), (6, 3)]) with svars := [(0, ⟨true, 9, 0, []⟩)] }
      (fun t => t.g 4 == 9 && (t.svar 0).value == 12) = true := by decide

/-- spec/09 R209, R213: a bank performs a store little-endian, and an SC without its reservation stores nothing. -/
theorem test_bank_performs :
    gives (.bankGrant 0 1) { alone (slotFrame []) with accs := [acc0 .store .none [part0 (.l1 0 8) .waiting 0x1122334455667788]] } (fun t =>
      t.byte (l1Key 0 8) == 0x88 && t.byte (l1Key 0 15) == 0x11) = true := by decide

/-- spec/17 R381, R392: the third failed receive lane narrows the link to eight lanes. -/
theorem test_lanes_narrow :
    let s := { State.reset with ring := [(0, { (State.reset.ringOf 0) with port := { (State.reset.ringOf 0).port with rxbad := [1, 2] } })] }
    gives (.laneFailure 0 true 3) s (fun t => (t.ringOf 0).port.rxw == 8 && (t.ringOf 0).port.txw == 16) = true := by decide

/-! ### States that meet the hypotheses of the statements

For each statement, states and operands that meet the hypotheses of its clauses together; where a clause runs over a range,
at an end of it. -/

/-- O1: legacy switch 0 off and on. -/
theorem witness_scalar_arithmetic :
    (alone (slotFrame [])).halt = none ∧ (alone (slotFrame [])).errata.testBit 0 = false ∧
    ({ inLaunch (slotFrame []) with launches := [(0, { entry0 with hdr := { KHdr.none with errata := 1 } })] }).errata.testBit 0 = true := by
  decide

/-- O2: a divisor, a zero divisor without its trap, and one with it. -/
theorem witness_division :
    (let s := alone (slotFrame [(4, 7), (5, 2)]); s.halt = none ∧ (divOperands s (ab 4 5)).2 ≠ 0) ∧
    (let s := alone (slotFrame [(4, 7)]); (divOperands s (ab 4 5)).2 = 0 ∧ s.me.arith.getLsbD 9 = false) ∧
    (let s := alone { slotFrame [(4, 7)] with arith := 0x2E0 }
     (divOperands s (ab 4 5)).2 = 0 ∧ s.me.arith.getLsbD 9 = true ∧ Instr.div (ab 4 5) ∈ [.div (ab 4 5), .divn (ab 4 5)]) := by
  decide

/-- O3, O4: a link at the top of the address space, no link, and one beyond it; indirect targets beyond the space, odd, and
holding each pad and no pad; hints in a thread, with a wake bit. -/
theorem witness_control_flow :
    (let s := alone (slotFrame [(1, 0xFFFFFFFFFFFF)]); (s.g 1).getLsbD 0 = true ∧ (s.g 1).toNat < 2 ^ 48) ∧
    (let s := alone (slotFrame [(1, 0)]); (s.g 1).getLsbD 0 = false) ∧
    (let s := alone (slotFrame [(1, 0x1000000000001)]); (s.g 1).getLsbD 0 = true ∧ 2 ^ 48 ≤ (s.g 1).toNat) ∧
    (let s := alone (slotFrame [(4, 0x1000000000000)]); 2 ^ 48 ≤ (s.g 4).toNat) ∧
    (let s := alone (slotFrame [(4, 0xFFFFFFFFFFFF)]); (s.g 4).toNat < 2 ^ 48 ∧ (s.g 4).getLsbD 0 = true) ∧
    (let s := alone { slotFrame [] with wake := 1 }; s.inHandler = false ∧ s.me.wake ≠ 0) := by decide

/-- O4: the management core fetches PAD.J, PAD.C and no pad. -/
theorem witness_indirect_targets :
    let s : State := { alone (slotFrame []) with
      frames := [(frameKey mgmtCore 0, { Frame.empty .mgmt with stat := .ready, priv := .m })]
      cur := frameKey mgmtCore 0
      tiles := [(tileOf mgmtCore, { Tile.empty with
        icache := [(0x2000, [0x04, 0x84, 0x00, 0x00, 0x05, 0x84] ++ List.replicate 58 0, 0)] })] }
    (s.fetchTarget 0x2000).2 = .half 0x8404 ∧ (s.fetchTarget 0x2004).2 = .half 0x8405 ∧ (s.fetchTarget 0x2002).2 = .half 0 ∧
    (s.fetchTarget 0x2004).1.me.pc = s.me.pc ∧ s.halt = none := by decide

/-- O5 to O7: scalar accesses whose checks pass, and that fail at each check. -/
theorem witness_scalar_accesses :
    let s := free0 (slotFrame [(4, 0x1000), (5, 8)])
    (s.scalarCheck 0x1008 8 .r .plain false).2 = none ∧ (s.scalarCheck 0x1008 8 .r .plain false).1.cur = s.cur ∧
    (s.scalarCheck 0x1008 8 .w .plain true).2 = none ∧ (s.scalarCheck 0x1008 8 .w .plain true).1.frames = s.frames ∧
    (s.scalarCheck 0x1000 8 .rw .atomic true).2 = none ∧ (s.scalarCheck 0x1000 8 .r .atomic false).2 = none ∧
    (s.scalarCheck 0x1001 8 .r .plain false).2 = some (0x04, 0, 0x1001) ∧
    (s.scalarCheck 0x1001 4 .w .plain true).2 = some (0x04, 0, 0x1001) ∧
    (s.scalarCheck 0xFF00000000 8 .r .plain false).2 = some (0x10, 0, 0xFF00000000) ∧
    (s.scalarCheck (2 ^ 48) 8 .r .plain false).2 = some (0x05, 0, 2 ^ 48) ∧ s.me.priv = .u ∧
    ((Instr.ldd (ab 6 4), 0x1000, 8, false, modsOf (ab 6 4)) ∈ loadForms s (ab 6 4)) ∧
    ((Instr.std (ab 6 4), 0x1000, 8, modsOf (ab 6 4)) ∈ storeForms s (ab 6 4)) ∧
    amoCas (abc 4 0 4) = false ∧ (AR.ofWord s.me.arith).exact = false := by decide

/-- O7: compare-and-swap of g31, and a sum in Exact mode, are the illegal forms; a WAITRS that waits, and one that has returned. -/
theorem witness_atomics :
    amoCas (abc 31 7 4) = true ∧
    (let p (st : Stage) : Part := part0 (.l1 0 8) st 5
     let a (st : Stage) : Acc := acc0 .waitrs .none [p st]
     let s (st : Stage) : State := { alone (slotFrame []) with accs := [a st] }
     (s .performed).myWait = some (a .performed, p .performed) ∧ (s .watching).myWait = some (a .watching, p .watching) ∧
     (alone (slotFrame [])).myWait = none) := by decide

/-- O8: a store that a bank grants, one that another cluster sends to a cluster that is off, a line that is held, one that is not, and
an uncached store at HBM. -/
theorem witness_grants :
    (let p := part0 (.l1 0 8) .waiting 5
     let a := acc0 .store .none [p]
     let s : State := { alone (slotFrame []) with accs := [a], ck := 100 }
     s.halt = none ∧ Memory.wf s.mem = true ∧ s.partOf 0 0 0 = some (a, p) ∧
     (pickBank (s.bankPtr 0 1) (s.bankWaiters 0 1)).map (fun r => (r.acc, r.i, r.p, decide (r.req = 1216))) = some (a, 0, p, false)) ∧
    (let p := part0 (.l1 1 8) .waiting 5
     let a := acc0 .load (.g 4 8 false) [p]
     let s : State := { alone (slotFrame []) with accs := [a], ck := 100, power := [(1, { Power.on with st := .off })] }
     s.partOf 0 0 0 = some (a, p) ∧ s.clusterLive 1 = false ∧ a.ret ≠ .none ∧
     (pickBank (s.bankPtr 1 1) (s.bankWaiters 1 1)).map (fun r => (r.acc, r.i, r.p, decide (r.req = 1216))) = some (a, 0, p, true)) ∧
    (let p := part0 (.glob 0x10000000008) .waiting 5
     let a := acc0 .store .none [p]
     let s : State := { alone (slotFrame []) with
       accs := [a], wipe := false, slices := [(homeSlice 0x10000000008, ⟨[⟨0x10000000008 / 64, 64, 0, false, .normal, 0⟩], [], [], []⟩)] }
     s.partOf 0 0 0 = some (a, p) ∧ s.wipe = false ∧ s.eligible a 0 = true ∧ (s.lineOf 0x10000000008).isSome = true ∧
     ({ s with slices := [] }).lineOf 0x10000000008 = none ∧
     (({ s with slices := [] }).slice (homeSlice 0x10000000008)).leaf 0x10000000008 false = none) ∧
    (let p := part0 (.glob 0x10000000008) .granted 5
     let a := acc0 .store .none [p]
     let s : State := { alone (slotFrame []) with
       accs := [a], slices := [(homeSlice 0x10000000008, ⟨[], [⟨0x10000000000, false, 0xB⟩], [], []⟩)] }
     s.partOf 0 0 0 = some (a, p) ∧ p.stage = .granted ∧ s.lineOf 0x10000000008 = none ∧
     (s.slice (homeSlice 0x10000000008)).leaf 0x10000000008 p.crumb = some 0xB ∧ entryHost 0xB = false) ∧
    (alone (slotFrame [])).wipe = true := by decide

/-- O9: loads of each kind that have returned, and one that has failed. -/
theorem witness_returns :
    let s (op : AOp) (r : Ret) (st : Stage) : State := { alone (slotFrame []) with accs := [acc0 op r [part0 (.l1 0 8) st 5]] }
    (∀ x ∈ [(AOp.load, Ret.g 4 8 false, Stage.performed), (.sc, .sc 4, .performed), (.amo 0 4, .amo 4 8 false, .performed),
        (.load, .g 31 1 true, .failed 0x11), (.load, .v 31 1 [(0, 64, 64, 64, 0)] [], .performed)],
      (s x.1 x.2.1 x.2.2).accOf 0 0 = some (acc0 x.1 x.2.1 [part0 (.l1 0 8) x.2.2 5]) ∧ x.1 ≠ .waitrs ∧ x.2.1 ≠ .none ∧
      (s x.1 x.2.1 x.2.2).halt = none) ∧
    ((alone (slotFrame [])).frame 0).unitAt 31 = none := by decide

/-- O10 to O12: no stream is bound and no flag that an element sets is enabled; a lane at each end of its range. -/
theorem witness_vectors :
    let s := alone (slotFrame [])
    s.halt = none ∧ plainRegs s [0, 28, 31] ∧ s.me.unitAt 31 = none ∧ enabledOf s [(0, 255)] = 0 ∧
    enabledOf (alone { slotFrame [] with arith := 0x40E0 }) [(0, 64)] ≠ 0 ∧
    (0 : Int) ≤ (ab 4 0).simm ∧ (ab 4 3).simm < elemCount s 32 ∧ (elemCount s 32 : Int) ≤ (ab 4 4).simm ∧ (ab 4 31).simm < 0 := by
  decide

/-- O13: a read stream whose queue is empty, and a write of it. -/
theorem witness_streams_hold :
    let s := alone { slotFrame [] with units := (Vector.replicate 4 Unit.none).set 0 { Unit.none with kind := .gen, et := 4, count := 8, stride := 4 } }
    s.streamTest 0 [28] [2] = .hold ∧ (match s.streamTest 0 [2] [28] with | .trap _ _ _ => true | _ => false) = true ∧
    (Instr.vadd (abc 2 28 28), twoRegs (abc 2 28 28), [2]) ∈ streamForms (abc 2 28 28) := by decide

/-- O14: a store and a load of one register whose checks pass; bursts of two words that fit, that run past v31, over a bound unit,
and a post. -/
theorem witness_vector_memory :
    let s := free0 (slotFrame [(4, 0x1000)])
    let b (a n : BitVec 5) (bl : BitVec 4) : Opnd := ⟨a, n, some ⟨6, 0, 0, bl⟩, none, none, []⟩
    (s.vecCheck .w 4 [(0x1000, 4), (0x1004, 4)]).2 = none ∧ (s.vecCheck .r 4 [(0x1000, 4)]).1.frames = s.frames ∧
    (s.vecCheck .r 4 [(0x1000, 4)]).1.cur = s.cur ∧ (b 31 4 1).bl = 1 ∧ (ab 4 4).bl = 0 ∧ postLine 0x1000 1 = none ∧
    (((b 31 4 1).bl + 1) % 2 = 0 ∧ (b 31 4 1).ra + 1 ≤ 32) ∧ ¬ (((b 31 4 3).bl + 1) % 2 = 0 ∧ (b 31 4 3).ra + 2 ≤ 32) ∧
    (alone { slotFrame [] with units := (Vector.replicate 4 Unit.none).set 3 { Unit.none with kind := .nbr } }).burstUnit (b 30 4 3) = some 31 ∧
    (postLine 0xF000000040 7).isSome = true := by decide

/-- O15: a partner that waits and one that does not; a bound unit in the odd slot; a gang. -/
theorem witness_gangs :
    let two (f g : Frame) (k : Nat) : State := { State.reset with frames := [(0, f), (1, g)], cur := k }
    let w := { slotFrame [] with prog := gangMark }
    let b := { slotFrame [] with units := (Vector.replicate 4 Unit.none).set 3 { Unit.none with kind := .nbr } }
    ((two (slotFrame []) w 0).frame 1).stat = .ready ∧ ((two (slotFrame []) w 0).frame 1).prog = gangMark ∧
    ((two (slotFrame []) w 0).frame 1).launch = (two (slotFrame []) w 0).me.launch ∧ (two (slotFrame []) w 0).onTile = true ∧
    ((two (slotFrame []) (slotFrame []) 1).frame 0).prog ≠ gangMark ∧
    (∀ k < 4, ((two w (slotFrame []) 1).me.units.getD k Unit.none).kind = .unbound) ∧
    ((two w b 1).me.units.getD 3 Unit.none).kind ≠ .unbound ∧
    (∀ j < 3, ((two w b 1).me.units.getD j Unit.none).kind = .unbound) ∧
    (alone { slotFrame [] with gang := true }).me.gang = true ∧ slotOf 4 = 4 := by decide

/-- O16: a stream of one element and the largest stride, one that is badly formed, one outside the L1; a declared channel; a flow
that is taken; a unit that is idle and one that is not. -/
theorem witness_stream_bindings :
    let cfg (n et : Nat) : Nat := n * 256 + et
    let s := inLaunch (slotFrame [(4, 0x1000)])
    let h : State := { s with launches := [(0, { entry0 with hdr := { KHdr.none with chans := [(1, 4, 3)] } })] }
    let u (x : Machine.Unit) : State := alone { slotFrame [] with units := (Vector.replicate 4 Unit.none).set 1 x }
    s.halt = none ∧ s.onTile = true ∧ cfg 1 4 / 32 % 8 = 0 ∧ cfg 1 4 / 256 % 2 ^ 24 = 1 ∧ 0x1000 % (ET.ofCode 4).msize = 0 ∧
    cfg 0 4 / 256 % 2 ^ 24 = 0 ∧ l1Bytes ≤ 0x2000000 ∧ h.declares 0 1 1 = true ∧ s.declares 0 1 1 = false ∧
    (u { Unit.none with kind := .nbr, id := 1 }).flowTaken 0 0 1 = true ∧ s.flowTaken 0 0 1 = false ∧ s.unitIdle 0 1 = true ∧
    (u { Unit.none with kind := .gen, dir := true, stores := [[⟨0, 0, 8, 4, 0, true⟩]] }).unitIdle 0 1 = false := by decide

/-- O17: an inbox with a completion, one with a message, and none; stores that are performed, and one that is not. -/
theorem witness_inbox_and_fencex :
    let box (w : Word) : State := { alone (slotFrame []) with cores := [(0, { CoreSt.empty with inN := ⟨[⟨w, none⟩], none⟩ })] }
    let s := alone (slotFrame [])
    let st : State := { s with accs := [acc0 .store .none [part0 (.l1 0 8) .waiting 5]] }
    ((box 0x10001).myInbox.take 0).isSome = true ∧ ((box 0x21).myInbox.take 0).map (·.1.word) = some 0x21 ∧
    (0x21 : Nat).testBit 5 = true ∧ ((box 0x701).myInbox.take 0).isSome = true ∧ 0x701 / 256 % 256 = 7 ∧ s.myInbox.take 0 = none ∧
    s.accs = [] ∧ (∀ t ∈ s.me.tickets, t = none) ∧ (∀ u ∈ s.me.units.toList, u.stores = []) ∧
    (∃ a ∈ st.accs, a.frame = st.cur ∧ a.writes = true ∧ ∃ p ∈ a.parts, p.done = false) := by decide

/-- O18, O19: the dispatch core, and a handler frame. -/
theorem witness_elsewhere :
    let d : State := { alone (slotFrame []) with frames := [(frameKey 16384 0, slotFrame [])], cur := frameKey 16384 0 }
    let h : State := { alone (slotFrame []) with frames := [(0, slotFrame []), (4, { slotFrame [] with kind := .handler 0 })], cur := 4 }
    d.onTile = false ∧ d.halt = none ∧ Instr.mstat (ab 4 2) ∈ tileOnlyForms (ab 4 2) ∧ h.inHandler = true ∧ h.halt = none ∧
    Instr.lwait (ab 4 5) ∈ noHandlerForms (ab 4 5) ∧ Instr.gflush (ab 0 0) ∈ ticketForms (ab 0 0) := by decide

/-- O20: descriptor 63 is beyond a slot's range and 0 is in it; a shape and a base that R224 permits, and ones that it does not; each
state of a descriptor. -/
theorem witness_tile_table :
    let s := free0 (slotFrame [])
    s.descAllowed 0 0 = true ∧ s.descAllowed 0 64 = false ∧ shapeOk 0x0403F1F1 = true ∧ shapeOk (BitVec.allOnes 64) = false ∧
    (s.spanDenied 0 0x10000 (shapeSpan 0x0403F1F1)).2 = none ∧ (s.spanDenied 0 0x10000 (shapeSpan 0x0403F1F1)).1.cur = s.cur ∧
    (s.spanDenied 0 0x10000 (shapeSpan 0x0403F1F1)).1.frames = s.frames ∧
    (((s.spanDenied 0 0x10000 (shapeSpan 0x0403F1F1)).1.tile (tileOf s.myCore)).desc 0).st = .empty ∧
    (∀ x ∈ [DState.empty, .filling, .ready, .draining], (({ s with tiles := [(0, { Tile.empty with descs := [(0, { Desc.none with st := x })] })] } :
      State).tile (tileOf s.myCore)).desc 0 = { Desc.none with st := x }) := by decide

/-- O21: control words that CPY and CPYT permit and refuse; a queue with room and a full one; the guarded phase. -/
theorem witness_copy_commands :
    let s := free0 (slotFrame [])
    let k : Cmd := { serial := 0, op := .cpy, frame := 0, launch := none, urg := false, a := 0, b := 0, c := 0, x := 0, acc := 0, et := 4
                     et2 := 0, scope := 6, strong := false, cp := 0, bl := 0, arith := 0, phase := 0, priv := .u, region := [], seed := 0
                     ltid := 0, ctr := 0, part := 0, lcl := 0, hand := false, stack := (0, 0) }
    let full : State := { s with cores := [(0, { openCore with copyN := [k, k] })] }
    let g := free0 { slotFrame [] with phase := 3, ltile := 0 }
    s.inUrgent = (abc 4 5 6).urg ∧ ctlOk .cpy 7 = true ∧ ctlOk .cpy (BitVec.allOnes 64) = false ∧ s.copyGuard .cpy 0x1000 7 0 = none ∧
    ((s.core s.myCore).queue false s.inUrgent).length < 2 ∧ 2 ≤ ((full.core full.myCore).queue false full.inUrgent).length ∧
    s.inUrgent ≠ (⟨4, 5, none, none, some ⟨6, 1, 0⟩, []⟩ : Opnd).urg ∧
    (g.copyGuard .cpy 0x1FFFFC0 63 0).isSome = true := by decide

/-- O22, O23: a launch that may use the matrix engine and one that may not; operands that are permitted; counters near their end; a
thread with no command, with one that runs, with one that has ended, and with one that has failed. -/
theorem witness_matrix :
    let s := inLaunch (slotFrame [])
    let no : State := { s with launches := [(0, { entry0 with hdr := { KHdr.none with nomatrix := true } })] }
    let r (done err : Bool) (fl : List (Nat × Nat)) : CmdRec := ⟨0, 0, done, fl, err, 3, false, false⟩
    let t (c : List CmdRec) : State := inLaunch { slotFrame [] with cmds := c }
    s.onTile = true ∧ s.me.launch = some 0 ∧ (s.entry 0).hdr.nomatrix = false ∧ (no.entry 0).hdr.nomatrix = true ∧
    s.inUrgent = (abc 0 4 5).urg ∧ ((abc 0 4 5).ra < 4 ↔ s.inUrgent = false) ∧ (abc 9 4 5).ra ≥ 4 ∧
    s.descAllowed 0 0 = true ∧ s.descAllowed 0 1 = true ∧ (0x100 : Nat) / 256 % 64 = 1 ∧ mctlOk true s.me.arith 0 0 = true ∧
    mctlOk false s.me.arith 0 0 = true ∧ ((s.core s.myCore).queue true s.inUrgent).length < 2 ∧ s.me.rngc.toNat + 0 < 2 ^ 48 ∧
    (t []).me.cmds = [] ∧ (∃ c ∈ (t [r false false []]).me.cmds, c.done = false) ∧
    ((t [r true false [(0, 4)]]).me.cmds.filter fun c => c.acc = 0) = [r true false [(0, 4)]] ∧
    ((t [r true true []]).me.cmds.find? fun c => c.err && !c.popped) = some (r true true []) := by decide

/-- O24: threads of a launch that are members of their phase, have arrived one phase ahead, and have left. -/
theorem witness_barriers :
    let s := inLaunch (slotFrame [])
    let with_ (x : BThr) : State := { s with barriers := [⟨some 0, 31, 0, 5, [(0, x)], 0, 0⟩] }
    s.inHandler = false ∧ (s.barThreads 0).Nodup ∧ s.barActive 0 31 = [0] ∧ (s.inst (s.barKey 0 31)).c = 0 ∧
    (∀ t ∈ s.barThreads 0, ((s.inst (s.barKey 0 31)).get t).np ≤ (s.inst (s.barKey 0 31)).c) ∧
    (with_ ⟨7, [5], 0, none⟩).barActive 0 31 = [0] ∧ ((with_ ⟨7, [5], 0, none⟩).inst (s.barKey 0 31)).c + 1 <
      (((with_ ⟨7, [5], 0, none⟩).inst (s.barKey 0 31)).get 0).np ∧ (with_ ⟨5, [], 0, some 5⟩).barActive 0 31 = [] ∧
    (((with_ ⟨5, [], 0, some 5⟩).inst (s.barKey 0 31)).get 0).memberFrom 5 = false := by decide

/-- O25: the largest thread number and mask, and one more; a thread with wake bits; accesses that are done and not; PLBINV at S. -/
theorem witness_wakes_and_fences :
    let s := alone (slotFrame [(4, 0xFFFF), (5, 0xFFFFFFFF), (6, 0x10000), (7, 0x100000000)])
    let st : State := { s with accs := [{ acc0 .store .none [part0 (.l1 0 8) .waiting 5] with seq := 0 }], frames := [(0, { slotFrame [] with seq := 1 })] }
    (s.g 4).toNat < 2 ^ 16 ∧ (s.g 5).toNat < 2 ^ 32 ∧ 2 ^ 16 ≤ (s.g 6).toNat ∧ 2 ^ 32 ≤ (s.g 7).toNat ∧ s.inHandler = false ∧
    (alone { slotFrame [] with wake := 6 }).me.wake &&& 4 ≠ 0 ∧ s.me.wake &&& s.g 5 = 0 ∧ s.g 5 ≠ 0 ∧
    s.storesDone s.cur = true ∧ s.fillsTo s.myCore = false ∧ st.storesDone st.cur = false ∧ s.accs = [] ∧
    (∃ a ∈ st.accs, a.frame = st.cur ∧ a.seq < st.me.seq ∧ ∃ p ∈ a.parts, p.stage ≠ .performed) ∧
    s.me.priv = .u ∧ (alone { slotFrame [] with priv := .s }).me.priv ≠ .u ∧ (s.g 5).toNat % 8 ≠ 0 ∧ (s.g 6).toNat % 8 = 0 ∧
    s.me.since = 0 ∧ (alone { slotFrame [] with since := 1 }).me.since ≠ 0 := by decide

/-- O26: a thread of launch 0 with free ticket slots and without; a window of one element whose last ticket has been applied, and one with
an update in a slot; words of R282 that are permitted and not. -/
theorem witness_tickets :
    let s := inLaunch (slotFrame [])
    let w : Window := ⟨0, 0, false, 0x10000, 0x10000, 10, 1, 2, 0, [(0, 3)], [], [(0, 16)], 0, 0, 4, 0⟩
    let u : Upd := ⟨0, 0, false, 0x10000, 0x10000, false, 0, 10, false, 0, 0, 0xE0, [], false, 0, 0, 0, 0, false, false⟩
    let open_ : State := { s with windows := [(0, w)] }
    let full : State := inLaunch { slotFrame [] with tickets := List.replicate 4 (some u) }
    (s.inHandler = false ∧ s.onTile = true ∧ s.me.launch = some 0) ∧ s.me.freeTicket = some 0 ∧ full.me.freeTicket = none ∧
    (s.scalarCheck 0x10000 4 .rw .other false).2 = none ∧ (s.scalarCheck 0x10000 4 .rw .other false).1.frames = s.frames ∧
    ticketEt (0x2000000A % 16) = true ∧ 0x2000000A < 2 ^ 52 ∧ ticketEt (0x20000000 % 16) = false ∧
    (s.windowDenied 0 0x10000 4).2 = none ∧ (s.windowDenied 0 0x10000 4).1.cur = s.cur ∧ (s.windowDenied 0 0x1FFFFFC 8).2.isSome = true ∧
    (s.windowDenied 0 0x10000 4).1.reserveSpan 0 0 4 = none ∧
    ({ s with regs := [((Reg.pralovf 0 0).addr, 1)] } : State).reserveSpan 0 0 4 = some 0 ∧ s.window 0 = none ∧
    open_.window 0 = some w ∧ w.launch = 0 ∧ open_.windowPending 0 = false ∧ open_.windowSlotted 0 w = false ∧
    ({ full with windows := [(0, w)] } : State).windowSlotted 0 w = true ∧ w.ntm1 + 1 = 3 ∧ orFlags w.wflags = 16 ∧
    (w.ctr.filter fun p => 0 ≤ p.1 && p.1 < 1 && 3 ≤ p.2).length = 1 := by decide

/-- O27: a span of the own L1 subscribed to another of it; no entry free; entries of each state; updates that are sent and not. -/
theorem witness_glaze :
    let s := inLaunch (slotFrame [])
    let g (st : GState) : GEntry := { GEntry.none with st := st, launch := some 0, pub := 0x1000, sub := 0x9B8000, len := 128 }
    let t (n : Nat) (st : GState) : State := { s with tiles := [(0, { Tile.empty with glaze := (List.range n).map fun i => (i, g st) })] }
    s.glazeBreach 0 0x9B8000 0x1000 128 = none ∧ s.glazeBreach 0 0x9B8001 0x1000 128 = some (1, 0x9B8001) ∧
    (s.checkAddr 0 0x9B8000 1 .w .other).2 = none ∧ (s.checkAddr 0 0x1000 1 .r .other).2 = none ∧
    (s.checkAddr 0 0x1000 1 .r .other).1.frames = s.frames ∧ (∀ n ∈ glazeRange 0, ((t 28 .active).glaze 0 n).st ≠ .free) ∧
    27 ∈ glazeRange 0 ∧ 28 ∉ glazeRange 0 ∧ ((t 27 .active).glaze 0 27).st = .free ∧ (s.glazeSpan 0 0x1000).isSome = true ∧
    (∀ x ∈ [GState.sync, .active, .closing, .dead], ((t 1 x).glaze 0 0).st = x) ∧ s.me.since = 0 ∧ s.glazeAll = [] ∧
    ((t 1 .sync).glazeAll.any fun x => x.2.owes 1) = true := by decide

/-- O28: a free variable, all taken, a handle, and one with a bad function; conditions met and not; an item that may be sent and one that
may be received. -/
theorem witness_variables_and_channels :
    let v (w : List Nat) : State := { alone (slotFrame [(5, 0)]) with svars := [(0, ⟨true, 9, 0, w⟩)] }
    let h : KHdr := { KHdr.none with chans := [(63, 4, 3)] }
    let s := inLaunch (slotFrame [(4, 63), (5, 0x10000)])
    let ch : State := { s with launches := [(0, { entry0 with hdr := h })], chans := [(63, ⟨some 0, 4, 7, [(7, List.replicate 64 1)], 0⟩)] }
    s.inHandler = false ∧ (s.svar 0).used = false ∧ ((v []).svar 0).used = true ∧ ((v []).svar 0).part = (v []).me.part ∧
    (0x10000 : Nat) < 2 ^ 20 ∧ 0x10000 / 2 ^ 13 % 8 = 0 ∧ 0x10000 / 2 ^ 16 % 16 < 7 ∧ ((v [1]).svar 0).waiters ≠ [] ∧
    sopRule 0 9 0 = 9 ∧ 0x3F / 64 % 4 = 0 ∧ (s.itemCheck 0x10000 .r).2 = none ∧ (s.itemCheck 0x10000 .w).2 = none ∧
    (s.itemCheck 0x10000 .w).1.launches = s.launches ∧ s.declares 0 63 0 = false ∧ ch.declares 0 63 0 = true ∧
    ch.declares 0 63 1 = true ∧ (ch.itemWords 0 0x10000).isSome = true ∧ ((ch.entry 0).tiles + 63) / 64 = 1 ∧
    (ch.chan 0 63).items.find? (fun i => i.1 == (ch.chan 0 63).next) = some (7, List.replicate 64 1) ∧
    ch.me.chanUnit 63 = none ∧ ch.l1Place 0 0x10000 = some (0, 0x10000, 0) ∧ Memory.wf ch.mem = true ∧
    (∀ x ∈ (s.chan 0 63).items, x.1 ≠ (s.chan 0 63).next) := by decide

/-- Looking up a run of keys. -/
theorem look_run {α : Type} (x : α) (n : Nat) : ∀ a i : Nat, a ≤ i → i < a + n → look ((List.range' a n).map fun k => (k, x)) i = some x := by
  induction n with
  | zero => intro a i h1 h2; omega
  | succ n ih =>
    intro a i h1 h2
    simp only [List.range'_succ, List.map_cons, look]
    by_cases e : i = a
    · simp [e]
    · have c : ¬ i < a := by omega
      simp only [e, c, if_false]
      exact ih (a + 1) i (by omega) (by omega)

/-- O28: every variable of a die may be taken. -/
theorem witness_variables_full (i : Nat) (h : i < 4096) :
    (({ State.reset with svars := (List.range' 0 4096).map fun k => (k, ⟨true, 0, 0, []⟩) } : State).svar (0 + i)).used = true := by
  simp only [State.svar, lookD, look_run (⟨true, 0, 0, []⟩ : SVar) 4096 0 (0 + i) (by omega) (by omega), Option.getD_some]

/-- O29: a counter that goes on and one that wraps, with the trap of RNGW enabled and not. -/
theorem witness_random :
    (alone (slotFrame [])).me.rngc.toNat + 1 < 2 ^ 48 ∧
    (alone { slotFrame [] with rngc := 0xFFFFFFFFFFFF }).me.rngc.toNat + 1 = 2 ^ 48 ∧
    (alone (slotFrame [])).me.arith.getLsbD 15 = false ∧ (alone { slotFrame [] with arith := 0x8000 }).me.arith.getLsbD 15 = true := by
  decide

/-- O30: registers of each access at each level, one that no level has, and a reserved RND. -/
theorem witness_control_registers :
    crAccess 0 .u = some (true, true) ∧ crAccess 3 .u = some (false, false) ∧ crAccess 3 .s = some (true, true) ∧
    crAccess 14 .m = some (true, false) ∧ crAccess 15 .m = none ∧ crAccess 19 .u = some (true, false) ∧ crAccess 20 .u = none ∧
    ¬ (0 = 0 ∧ 4 < (4 : Word).toNat % 8) ∧ 4 < (5 : Word).toNat % 8 := by decide

/-- O31, O32: a thread of a slot whose urgent frame is free, one behind another trap, a handler, and an urgent thread. -/
theorem witness_traps :
    let s := inLaunch (slotFrame [])
    let h : State := { s with frames := [(0, { slotFrame [] with stat := .trapped, launch := some 0 }), (4, { slotFrame [] with kind := .handler 0, priv := .s })], cur := 4 }
    let u : State := { s with frames := [(4, { slotFrame [] with kind := .urgent, launch := some 0 })], cur := 4 }
    s.me.kind = .slot ∧ s.urgentFree s.myCore = true ∧ s.cur ≠ s.myCore * 5 + 4 ∧ oddOf s.cur ≠ s.myCore * 5 + 4 ∧
    ({ h with cur := 0 } : State).urgentFree 0 = false ∧ h.me.kind = .handler 0 ∧ (h.frame 0).launch = some 0 ∧ h.me.priv ≠ .u ∧
    u.me.kind = .urgent ∧ u.me.launch = some 0 ∧ h.accs = [] ∧ (∀ n < 4, h.unitIdle 4 n = true) ∧ (∀ t ∈ (h.frame 4).tickets, t = none) ∧
    h.commandsOpen 4 = false ∧ h.cur = urgentKey h.myCore ∧ slotOf 0 < 4 ∧ (h.frame (oddOf 0)).stat ≠ .gangStop ∧ h.inHandler = true ∧
    s.inHandler = false ∧ s.arrs = [] ∧ s.wakes = [] ∧ s.items = [] := by decide

/-! ### Launches, and the events of cores and memory -/

/-- The packet of one cluster in context 0, with these FLAGS. -/
def packet (flags : Nat) : List Word := [0x20000, BitVec.ofNat 64 (64 * 2 ^ 16), 0x77, 0, BitVec.ofNat 64 flags, 0x99, 0, 0]
/-- Context 0 and rectangle 0 of partition 0 are in force over the whole package, an image of one kernel is loaded, tag 9 is valid, and
the packet stands at 0x10000 of the L1 of cluster 0. -/
def launchable (p : List Word) : State :=
  let s := inLaunch (slotFrame [(5, 0x10000), (6, 9)])
  let r := ((((s.setReg (.ctl 0) 0xFFFF0001).setReg (.map 0) 0xFEDCBA9876543210).setReg (.rect 0) 0x80CC)).setReg (.tctl 9) 0x18
  let i : State := { r with images := [⟨0x20000, 0, 0x30000, 0, 0, 0, 0, 0x410, [(0, KHdr.none)], []⟩] }
  (List.range 8).foldl (fun s k => s.writeN (0x10000 + 8 * k) (p.getD k 0).toNat 255 8) i

/-- O33: a packet that is read and passes its checks; one that fails them; a store with a free entry, and one with none; a thread
that has waited longer. -/
theorem witness_launch :
    let s := launchable (packet 0)
    let r := s.checkAddr 0 0x10000 8 .r .other
    s.halt = none ∧ s.inHandler = false ∧ (s.g 5).toNat = 0x10000 ∧ r.2 = none ∧ r.1.cur = s.cur ∧ r.1.frames = s.frames ∧
    (r.1.readLine 0 0x10000).2 = .words (packet 0) ∧ (r.1.readLine 0 0x10000).1.frames = s.frames ∧ s.accs = [] ∧
    s.pktStatus (packet 0) s.issuer false none = 0 ∧ s.pktStatus (packet 0) s.issuer true none = 0 ∧
    s.pktStatus (packet 0x20) s.issuer false none = 2 ∧ s.pktStatus (packet 0x10000) s.issuer false none = 3 ∧
    s.pktDie (packet 0) s.issuer.die = 0 ∧ (s.g 6).toNat = 9 ∧ s.regField (.tctl 9) 3 3 ≠ 0 ∧ s.tagPart 9 = s.me.part ∧
    (s.tag 9).armed = none ∧ s.regField (.tctl 10) 3 3 = 0 ∧ s.earlierWaits 0 = false ∧ 0x10020 % 64 ≠ 0 ∧
    (s.checkAddr 0 0x2000000 8 .r .other).2.isSome = true ∧
    ({ s with frames := s.frames ++ [(1, { slotFrame [] with prog := launchMark 0 })] } : State).earlierWaits 0 = true := by decide

/-- A die whose entries are all this one. -/
def fullStore (x : LEntry) : SMap LEntry := (List.range' 0 256).map fun e => (e, x)

/-- O33, O48: entry 1 is the lowest free one beside the thread's own, and no entry of a die need be free. -/
theorem witness_store (s : State) (x : LEntry) (h : x.st ≠ .free) :
    (launchable (packet 0)).freeEntryOf 0 = some 1 ∧ ({ s with launches := fullStore x } : State).freeEntryOf 0 = none := by
  refine ⟨by decide, ?_⟩
  simp only [State.freeEntryOf, List.find?_eq_none, List.mem_map, List.mem_range]
  rintro e ⟨i, hi, rfl⟩
  have k := look_run x 256 0 (0 * 256 + i) (by omega) (by omega)
  simp only [State.entry, lookD, fullStore, k, Option.getD_some]
  simpa using h

/-- O33: a tag that is armed; a launch that LWAIT waits for, one that is done, one of another kind, and a place for its record. -/
theorem witness_disarm_and_wait :
    let s := launchable (packet 0)
    let d (x : LEntry) : State := { s with launches := [(0, entry0), (7, x)] }
    let done : LEntry := { LEntry.none with st := .done, gen := 3, ckind := 2, record := List.replicate 8 1 }
    (s.setTag 9 { Tag.none with armed := some 7 }).halt = none ∧
    ((s.setTag 9 { Tag.none with armed := some 7 }).tag 9).armed = some 7 ∧ (s.tag 9).armed = none ∧
    (d done).entryOfHandle 0x30007 = some 7 ∧ ((d done).entry 7).st = .done ∧ (d done).me.part = done.part ∧
    (d { done with st := .placed }).entryOfHandle 0x30007 = some 7 ∧ (d { done with ckind := 0 }).entryOfHandle 0x30007 = some 7 ∧
    s.entryOfHandle 0x30007 = none ∧ ((d done).checkAddr 0 0x10000 8 .w .other).2 = none ∧
    ((d done).checkAddr 0 0x10000 8 .w .other).1.frames = s.frames ∧
    ((d done).writeLine 0 0x10000 done.record).2 = .done ∧ ((d done).writeLine 0 0x10000 done.record).1.frames = s.frames ∧
    ((d done).checkAddr 0 0x2000000 8 .w .other).2.isSome = true := by decide

/-- O34: a frame that is checked for the first time and again; the management core's retry; an urgent launch that waits, before and
after its freeze; a parked trap. -/
theorem witness_core_events :
    let c (x : CoreSt) : State := { alone (slotFrame []) with cores := [(0, x)] }
    let p : State := { c { CoreSt.empty with parked := [0] } with frames := [(0, { slotFrame [] with stat := .parkTrap, tvec := 1 })] }
    let m : State := { alone (slotFrame []) with cores := [(mgmtCore, { CoreSt.empty with retry := some (frameKey mgmtCore 0) })] }
    (c CoreSt.empty).halt = none ∧ ((c CoreSt.empty).core 0).retired = false ∧ ((c CoreSt.empty).core 0).retry ≠ some 0 ∧
    ((c CoreSt.empty).frame 0).stat ≠ .free ∧ ((c { CoreSt.empty with retry := some 0 }).core (coreOf 0)).retry = some 0 ∧
    (m.core mgmtCore).retry ≠ none ∧ ((c { CoreSt.empty with waitUrg := some 7 }).core 0).freeze ≠ some 7 ∧
    ((c { CoreSt.empty with waitUrg := some 7, freeze := some 7 }).core 0).freeze = some 7 ∧
    ((c { CoreSt.empty with waitUrg := some 7 }).frame 4).stat = .free ∧ (p.core 0).parked = [0] ∧ (p.core 0).waitUrg = none ∧
    (p.frame 0).stat = .parkTrap ∧ (p.frame 0).frozen = false ∧ (p.frame 4).stat = .free ∧ coreOf 0 = 0 ∧
    ((c CoreSt.empty).core 0).parked = [] := by decide

/-- O35: late outcomes, of which the second is the earlier; chains that are an instruction, break a rule, and are none. -/
theorem witness_boundary_traps :
    let s := alone { slotFrame [] with late := [⟨5, 0, 0x06, 8, 1⟩, ⟨4, 0, 0x0B, 16, 1⟩] }
    (s.frame 0).stat = .ready ∧ (s.frame 0).frozen = false ∧ (s.frame 0).late ≠ [] ∧ s.halt = none ∧
    decode [0x2800] = .ok (.or ⟨0, 0, none, none, none, []⟩, 1) ∧ decode [0x0000] = .error (.illegal 0) ∧
    (match decode [0xE801, 0xE801, 0xE801, 0xE801, 0xE801] with | .error (.chain _ _ _) => true | _ => false) = true := by decide

/-- O36: a store and a load of a host page, a watch that reports and one that polls. -/
theorem witness_host_and_watch :
    let pa (st : Stage) : Part := part0 (.glob 0x10000000000) st 5
    let s (op : AOp) (ret : Ret) (st : Stage) : State := { alone (slotFrame []) with
      accs := [acc0 op ret [pa st]]
      slices := [(homeSlice 0x10000000000, { Slice.empty with xlat := [⟨0x10000000000, false, 0x200013⟩] })] }
    let a (op : AOp) (ret : Ret) (st : Stage) := (s op ret st).accOf 0 0
    a .store .none .granted = some (acc0 .store .none [pa .granted]) ∧
    (s .store .none .granted).hostAddr (pa .granted) = some 0x200000 ∧
    (s .load (.g 7 8 false) .granted).hostAddr (pa .granted) = some 0x200000 ∧
    a .load (.g 7 8 false) .granted = some (acc0 .load (.g 7 8 false) [pa .granted]) ∧
    a .waitrs .none .reported = some (acc0 .waitrs .none [pa .reported]) ∧
    a .waitrs .none .polling = some (acc0 .waitrs .none [pa .polling]) ∧ pageOf 0x10000000000 false = 0x10000000000 := by decide

/-- O36: a miss with a free way under a cached leaf; a walk that ends well from the walk cache, and one that finds an empty table; a
line of code that tiles wait for. -/
theorem witness_fill_and_walk :
    let va := 0x10000000000
    let sl := homeSlice va
    let x (l : List Xlat) (w : List (Nat × Word)) : State := { alone (slotFrame []) with
      accs := [acc0 .load (.g 7 8 false) [part0 (.glob va) .filling 0]], wipe := false
      slices := [(sl, { Slice.empty with xlat := l, walk := w })] }
    let s := x [⟨va, false, 0x200003⟩] []
    s.halt = none ∧ s.wipe = false ∧ Memory.wf s.mem = true ∧ va / 64 * 64 = va ∧ s.lineOf va = none ∧
    s.fillWanted va = some (0, 0, false) ∧ (s.slice sl).leaf va false = some 0x200003 ∧ entryHost 0x200003 = false ∧
    entryCa 0x200003 ≠ 2 ∧ s.victim sl va 0 = some (0, none) ∧ ((x [] []).slice sl).leaf va false = none ∧
    pageOf va false = va ∧ (x [] [(va / 2 ^ 21, 0x200003)]).walk sl va false = .ok (0x200003, 0x200003) ∧
    (match (x [] []).walk sl va false with | .error e => e.reason == 1 | .ok _ => false) = true ∧
    (let c : State := { s with clusters := [(0, { Cluster.empty with fills := [(va, [0, 1])] })] }
     (c.cluster 0).fills.find? (fun x => x.1 / 64 == va / 64) = some (va, [0, 1]) ∧ [0, 1].Nodup ∧
     (match (c.updCluster 0 fun y => ({ y with fills := [], misses := [] }).enrol y.misses).reach (va / 64 * 64) 0 0 (va % 64 == 1) with
      | (_, .ok (.key k)) => k == l2Key va | _ => false) = true) := by decide

/-- O37: a dirty line and a clean one of a slice, and none; a load at, above and well below the threshold, and both forced routes; an
L2 operation that runs; a fault record of a launch, one of none, and no record. -/
theorem witness_cache_operations :
    let va := 0x10000000000
    let sl := homeSlice va
    let s (d : Bool) : State := { alone (slotFrame []) with
      slices := [(sl, { Slice.empty with lines := [⟨va / 64, 0, 0, d, .normal, 0⟩] })] }
    let r (e : Option Nat) : FaultRec := ⟨3, sl, va, false, 0, e, 0, 0, [], true⟩
    let q (e : Option Nat) : State := { s false with faults := [r e] }
    (s true).halt = none ∧ Memory.wf (s true).mem = true ∧ homeSlice (va / 64 * 64) = sl ∧
    (s true).lineOf va = some ⟨va / 64, 0, 0, true, .normal, 0⟩ ∧ (s false).lineOf va = some ⟨va / 64, 0, 0, false, .normal, 0⟩ ∧
    (s true).lineOf 0 = none ∧ (s true).regField (.meshctl 0) 7 0 = 0xC0 ∧ (s true).regField (.meshctl 0) 15 8 = 0x20 ∧
    (s true).regField (.meshctl 0) 16 16 = 0 ∧ ((s true).setReg (.meshctl 0) 0x10000).regField (.meshctl 0) 16 16 = 1 ∧
    ((s true).setReg (.meshctl 0) 0x20000).regField (.meshctl 0) 17 17 = 1 ∧
    ((s true).reg (.l2op 0 0)).getLsbD 63 = false ∧
    (((s true).setReg (.l2op 0 0) 0x8000000000000000).reg (.l2op 0 0)).getLsbD 63 = true ∧
    (q (some 0)).faults.find? (fun r => r.fid == 3) = some (r (some 0)) ∧
    (q none).faults.find? (fun r => r.fid == 3) = some (r none) ∧ (∀ r ∈ (s true).faults, r.fid ≠ 3) := by decide

/-- O38: a read stream at its first element, one whose element lies outside the L1, one whose element is poisoned; a write stream with
a register queued. -/
theorem witness_stream_events :
    let u (base : Nat) : Machine.Unit := { Unit.none with kind := .gen, et := 4, count := 2, stride := 4, base := base }
    let s (x : Machine.Unit) : State := free0 { slotFrame [] with units := (Vector.replicate 4 Unit.none).set 1 x }
    let w : Machine.Unit := { u 0x10000 with dir := true, next := 1, stores := [[⟨0, 0, 0x10000, 4, 7, true⟩]], phases := [0] }
    let z := (ET.ofCode 4).msize
    (s (u 0x10000)).halt = none ∧ ((s (u 0x10000)).frame 0).units[1]? = some (u 0x10000) ∧ (u 0x10000).elemAddr 0 = 0x10000 ∧
    (u 0x10000).data.length < 4 * ((s (u 0x10000)).frame 0).unitElems (u 0x10000) ∧
    (s (u 0x10000)).streamClear 0 0 0x10000 z = true ∧ ((s (u 0x10000)).checkSpan 0 0x10000 z .r .other).2 = none ∧
    ((s (u 0x10000)).streamRead 0 0x10000 z) = some 0 ∧
    ({ s (u 0x10000) with poison := [(l1Key 0 0x10000 / 8, true)] } : State).streamRead 0 0x10000 z = none ∧
    ((s (u 0x2000000)).checkSpan 0 0x2000000 z .r .other).2.isSome = true ∧ ((s w).frame 0).units[1]? = some w ∧
    (∀ st ∈ storeRun [] [⟨0, 0, 0x10000, 4, 7, true⟩], (s w).streamClear 0 st.seq st.addr st.size = true) ∧
    ((s w).runCheck 0 w 0 (storeRun [] [⟨0, 0, 0x10000, 4, 7, true⟩])).2 = ([⟨0, 0, 0x10000, 4, 7, true⟩], none) ∧
    ((s w).runCheck 0 w 0 [⟨0, 0, 0x10000, 4, 7, true⟩, ⟨0, 1, 0x10004, 4, 8, true⟩]).2.2 = none ∧
    ((s { w with base := 0x2000000 }).runCheck 0 { w with base := 0x2000000 } 0 [⟨0, 0, 0x2000000, 4, 7, true⟩]).2.2 =
      some (5, ⟨0, 0, 0x2000000, 4, 7, true⟩) := by decide

/-- A command that core 0 has issued. -/
def cmd0 (op : COp) (et : Nat) : Cmd :=
  { serial := 0, op := op, frame := 0, launch := none, urg := false, a := 0, b := 0, c := 0, x := 0, acc := 0, et := et
    et2 := 0, scope := 6, strong := false, cp := 0, bl := 0, arith := 0xE0, phase := 0, priv := .u, region := List.replicate 4 0, seed := 0
    ltid := 0, ctr := 0, part := 0, lcl := 0, hand := false, stack := (0, 0) }
/-- Tile 0 with this normal channel of its copy engine, or of its matrix engine. -/
def engines (mat : Bool) (c : Channel) : State :=
  { free0 (slotFrame []) with tiles := [(0, if mat then { Tile.empty with matN := c } else { Tile.empty with copyN := c })] }

/-- O38: an idle channel with a queued command; one that runs a command, whose core runs, is frozen, and whose burst has failed once. -/
theorem witness_engine_takes :
    let q (x : CoreSt) : State := { engines false .empty with cores := [(0, x)] }
    let j : Job := { Job.new (cmd0 .cpy 4) 0 with stage := .running }
    let s : State := engines false { Channel.empty with cur := some j }
    s.halt = none ∧ ((s.tile 0).channel false false).cur = some j ∧ j.stage = .running ∧ s.coreFrozen 0 false = false ∧ j.retry = false ∧
    ({ s with cores := [(0, { CoreSt.empty with freeze := some 0 })] } : State).coreFrozen 0 false = true ∧
    ((engines true { Channel.empty with cur := some j }).tile 0).matN.cur = some j ∧
    ((q CoreSt.empty).tile 0).copyN.cur = none ∧ ((q CoreSt.empty).tile 0).copyN.wait = [] ∧
    (q { CoreSt.empty with copyN := [cmd0 .cpy 4] }).nextTake 0 false false = some (0, cmd0 .cpy 4) ∧
    (q { CoreSt.empty with matN := [cmd0 .mzero 4] }).nextTake 0 true false = some (0, cmd0 .mzero 4) ∧
    ((q CoreSt.empty).tile 0).matFailed = false ∧
    (engines false { Channel.empty with cur := some { j with retry := true } }).curJob 0 false false = some { j with retry := true } ∧
    (engines false { Channel.empty with cur := some { j with stage := .waiting } }).curJob 0 false false =
      some { j with stage := .waiting } := by decide

/-- O39: a command that has ended, with its entry due and not, and with a full inbox; an MZERO that has ended; one that runs; one that
ends a fill, and one that ends its read; one that has waited for 2^24 cycles, and one that has just begun to. -/
theorem witness_engine_ends :
    let j : Job := { Job.new (cmd0 .cpy 4) 0 with stage := .ended }
    let z : Job := { Job.new (cmd0 .mzero 4) 0 with stage := .ended }
    let s (mat : Bool) (j : Job) : State := engines mat { Channel.empty with cur := some j }
    let full : State := { s false { j with status := 8 } with
      cores := [(0, { CoreSt.empty with inN := ⟨List.replicate 6 ⟨0, none⟩, none⟩ })] }
    let w (ck : Nat) : State := { engines false { Channel.empty with wait := [{ j with stage := .waiting }] } with ck := ck }
    (((s false j).tile 0).channel false false).jobs.find? (fun k => k.stage == .ended) = some j ∧ entryDue (s false j) j = false ∧
    entryDue (s false j) { j with status := 8 } = true ∧
    ((s false j).core 0).inN.entries.length < inboxCap false ∧ inboxCap false ≤ (full.core 0).inN.entries.length ∧
    entryDue full { j with status := 8 } = true ∧
    (((s true z).tile 0).channel true false).jobs.find? (fun k => k.stage == .ended) = some z ∧ z.cmd.op = .mzero ∧ z.status = 0 ∧
    z.cmd.acc < 10 ∧ (∀ k ∈ (s true z).curJob 0 true false, k.stage ≠ .running) ∧
    (s true { z with stage := .running }).curJob 0 true false = some { z with stage := .running } ∧
    (s true { z with stage := .running }).arrayFree 0 false = true ∧
    (s false { j with stage := .ending, fills := some 3 }).curJob 0 false false = some { j with stage := .ending, fills := some 3 } ∧
    (s false { j with stage := .ending, reads := [3] }).curJob 0 false false = some { j with stage := .ending, reads := [3] } ∧
    ((w (2 ^ 24)).tile 0).copyN.wait[0]? = some { j with stage := .waiting } ∧ j.since + 2 ^ 24 ≤ (w (2 ^ 24)).ck ∧
    (w 5).ck < j.since + 2 ^ 24 ∧ (∀ k ∈ ((s false { j with stage := .running }).tile 0).copyN.jobs, k.stage ≠ .ended ∧ k.stage ≠ .posting) ∧
    (s true z).curJob 0 false false = none := by decide

/-! ### Synchronisation, registers and containment -/

/-- O40: a release arrival behind a store that is not performed, and one that may leave; an instance whose member has arrived, one
whose member has not, and one that a Glaze update keeps; a wake with a target, and one with none. -/
theorem witness_barrier_and_wake :
    let st : Acc := acc0 .store .none [part0 (.l1 0 8) .waiting 5]
    let s (l : List Acc) : State := { inLaunch (slotFrame []) with accs := l, arrs := [⟨0, 3, some 0, 2, 0, 0, 0, true, none, false⟩] }
    let b (n : List Nat) (e : Option Nat) : State := { inLaunch (slotFrame []) with barriers := [⟨e, 2, 0, 0, [(0, ⟨1, n, 0, none⟩)], 7, 0⟩] }
    let g : State := { b [0] (some 0) with tiles := [(0, { Tile.empty with glaze := [(0, { GEntry.none with st := .sync, launch := some 0 })] })] }
    let w (lt g : Nat) (o : Option Nat) : State := { inLaunch (slotFrame []) with wakes := [⟨0, 3, some 0, g, 0, lt, 6, o⟩] }
    (s []).halt = none ∧ (s []).arrs[0]? = some ⟨0, 3, some 0, 2, 0, 0, 0, true, none, false⟩ ∧ (s []).earlierDone 0 3 = true ∧
    (s [st]).earlierDone 0 3 = false ∧ (s []).arrs[1]? = none ∧
    (b [0] none).barriers[0]? = some ⟨none, 2, 0, 0, [(0, ⟨1, [0], 0, none⟩)], 7, 0⟩ ∧ (⟨1, [0], 0, none⟩ : BThr).member 0 = true ∧
    (b [] none).barriers[0]? = some ⟨none, 2, 0, 0, [(0, ⟨1, [], 0, none⟩)], 7, 0⟩ ∧ (b [0] none).barriers[1]? = none ∧
    (∃ t ∈ g.tiles, ∃ x ∈ t.2.glaze, x.2.launch = some 0 ∧ x.2.st = .sync ∧ x.2.since < 7) ∧
    ({ b [0] (some 0) with launches := [(0, { entry0 with tiles := 1, urgent := true })] } : State).domain 0 2 0 = 16 ∧
    (w 0 0 none).wakes[0]? = some ⟨0, 3, some 0, 0, 0, 0, 6, none⟩ ∧ (w 0 0 none).earlierDone 0 3 = true ∧
    (w 0 0 none).wakeTarget ⟨0, 3, some 0, 0, 0, 0, 6, none⟩ = some 0 ∧ (w 9 0 none).wakeTarget ⟨0, 3, some 0, 0, 0, 9, 6, none⟩ = none ∧
    (w 0 1 none).wakeTarget ⟨0, 3, some 0, 1, 0, 0, 6, none⟩ = none ∧ ({ w 0 0 none with accs := [st] } : State).earlierDone 0 3 = false ∧
    (w 0 0 (some 1)).wakes[0]? = some ⟨0, 3, some 0, 0, 0, 0, 6, some 1⟩ ∧
    ({ w 0 0 (some 1) with accs := [{ st with frame := 1 }] } : State).earlierDone (oddOf 0) 1 = false := by decide

/-- An update of ticket `t` of the first element of a window at 0x10000, and that window: three FP32 tickets for each of 16 elements. -/
def upd0 (t : Nat) : Upd :=
  { frame := 0, launch := 0, urg := false, va := 0x10000, loc := 0x10000, crumb := false, cp := 0, et := 10, skip := false, ticket := t
    value := 0x3F800000, arith := 0xE0, rnd := [], strong := false, seq := 0, ltid := 0, window := 0, elem := 0, refused := false, held := false }
/-- The window. -/
def win0 : Window :=
  { launch := 0, owner := 0, urg := false, loc := 0x10000, va := 0x10000, et := 10, nelm := 16, ntm1 := 2, tlim := 1, ctr := [], gap := []
    wflags := [], die := 0, ofs := 0, bytes := 64, part := 0 }

/-- O41: an update on its way to a window of the own cluster, one that was refused, one to no window, one off the grid of elements, one
of another type, one beyond the last ticket, one that is pending already, one for which there is no room; a cluster that is off. -/
theorem witness_ticket_presentation :
    let u := upd0 0
    let s (u : Upd) (w : SMap Window) (l : List Upd) : State := { inLaunch { slotFrame [] with tickets := [some u, none, none, none] } with
      windows := w, tiles := [(0, { Tile.empty with pend := l })] }
    let t := s u [(0, win0)] []
    let far : Upd := { u with loc := l1Key 1 0x10000 }
    t.halt = none ∧ (t.frame 0).tickets.getD 0 none = some u ∧ u.refused = false ∧ u.strong = false ∧ t.homeUnit 0x10000 = 0 ∧
    t.windowAt 0 0x10000 = some (0, win0) ∧ (s u [] []).windowAt 0 0x10000 = none ∧ t.pendAt 0 = [] ∧
    t.windowAt 0 0x10002 = some (0, win0) ∧ (0x10002 - win0.loc) % (ET.ofCode win0.et).msize ≠ 0 ∧ win0.ntm1 < (upd0 3).ticket ∧
    { u with et := 4 }.et ≠ win0.et ∧ (s u [(0, win0)] [u]).pendAt 0 = [u] ∧
    roomFor 0 false (List.replicate 112 u) = false ∧ roomFor 0 false [] = true ∧
    far.loc < 2 ^ 48 ∧ far.loc / l1Bytes ≠ clusterOf (coreOf 0) ∧ t.clusterLive 1 = true ∧
    ({ t with power := [(1, ⟨.off, 0, false, false⟩)] } : State).clusterLive 1 = false ∧ Memory.wf t.mem = true ∧ t.wipe = true := by decide

/-- O41: a pending update whose ticket is its element's counter, with its value and as a skip; a gap that has reached TLIM, with the
owner alive and halted. -/
theorem witness_ticket_application :
    let s (u : Upd) (w : Window) : State := { inLaunch (slotFrame []) with windows := [(0, w)], tiles := [(0, { Tile.empty with pend := [u] })] }
    let t : State := { s (upd0 1) { win0 with gap := [(0, 5)] } with ck := 4101 }
    let due (u : Upd) : Bool := u.window == 0 && u.elem == 0 && u.ticket == 0
    (s (upd0 0) win0).window 0 = some win0 ∧ (s (upd0 0) win0).window 1 = none ∧
    ((s (upd0 0) win0).pendAt 0).find? due = some (upd0 0) ∧
    ((s { upd0 0 with skip := true } win0).pendAt 0).find? due = some { upd0 0 with skip := true } ∧
    ((s (upd0 1) win0).pendAt 0).find? due = none ∧ (upd0 0).loc < 2 ^ 48 ∧ (s (upd0 0) win0).homeUnit (win0.loc + 0 * 4) = 0 ∧
    win0.gap.filter (fun g => g.2 + win0.tlim * 4096 ≤ 4101) = [] ∧ win0.tlim ≠ 0 ∧
    [(0, 5)].filter (fun g : Nat × Nat => g.2 + win0.tlim * 4096 ≤ t.ck) = [(0, 5)] ∧ t.ownerLives win0 = true ∧
    ({ t with frames := [] } : State).ownerLives win0 = false := by decide

/-- O42: an initial copy that is not complete; an open batch, 31 and 32 cycles old; a sent one; an item for a channel with room, one for a
full one, one that is there already, one too far ahead, one of another launch, and a cluster that is off. -/
theorem witness_glaze_and_channel :
    let b : Batch := ⟨0, [(3, 9)], [], false, 0⟩
    let g : GEntry := { GEntry.none with st := .sync, launch := some 0, pub := 0x1000, sub := 0x9B8000, len := 128 }
    let s (x : GEntry) : State := { inLaunch (slotFrame []) with tiles := [(0, { Tile.empty with glaze := [(0, x)] })] }
    let it (n : Nat) : Item := ⟨0, 0, 0, 0, 4, n, List.replicate 64 1⟩
    let ch (c : Chan) (n : Nat) : State := { inLaunch (slotFrame []) with chans := [(4, c)], items := [it n] }
    (s g).halt = none ∧ (s g).glaze 0 0 = g ∧ g.copied * 64 < g.len ∧ ((s { g with copied := 2 }).glaze 0 0).copied * 64 = g.len ∧
    ((s { g with opened := some b }).glaze 0 0).opened = some b ∧ b.since + 32 ≤ ({ s g with ck := 32 } : State).ck ∧
    ({ s g with ck := 31 } : State).ck < b.since + 32 ∧ ((s { g with sent := [b] }).glaze 0 0).sent = [b] ∧ (b.bytes.map (·.1)).Nodup ∧
    (∀ p ∈ b.bytes, p.1 < 64) ∧ Memory.wf (s g).mem = true ∧ (s { g with st := .active }).glaze 0 0 = { g with st := .active } ∧
    (ch ⟨some 0, 4, 7, [], 0⟩ 7).items[0]? = some (it 7) ∧ (ch ⟨some 0, 4, 7, [], 0⟩ 7).chan 0 4 = ⟨some 0, 4, 7, [], 0⟩ ∧
    (ch ⟨some 0, 1, 7, [(8, [])], 0⟩ 8).items[0]? = some (it 8) ∧ (7 + 2 ^ 16 + 2 ^ 32 - 7) % 2 ^ 32 = 2 ^ 16 ∧
    (ch ⟨none, 4, 7, [], 0⟩ 7).clusterLive 0 = true ∧
    ({ ch ⟨some 0, 4, 7, [], 0⟩ 7 with power := [(0, ⟨.off, 0, false, false⟩)] } : State).clusterLive 0 = false ∧
    ((ch ⟨none, 4, 7, [], 0⟩ 7).frame 0).launch = some 0 := by decide

/-- O43: addresses that name no register and one that names a plain one; writers with the right and without; held messages; values that
L1MAP takes, refuses and waits with. -/
theorem witness_register_writes :
    let s := ((State.reset.setReg (.tctl 9) 0x39).setTag 9 { Tag.none with msgs := [⟨0, some 3⟩, ⟨1, none⟩] })
    let c (x : Cluster) : State := { State.reset with clusters := [(2, x)] }
    s.halt = none ∧ Reg.ofAddr 0 = none ∧ Reg.ofAddr (Reg.hvec 3).addr = some (.hvec 3) ∧ plainReg (.hvec 3) = true ∧
    Reg.ofAddr (Reg.chkcnt 15).addr = some (.chkcnt 15) ∧
    s.mayWrite .m (.hvec 3) = true ∧ s.mayWrite (.s 3) (.hvec 3) = false ∧ s.mayWrite (.s 1) (.tctl 9) = true ∧
    s.mayWrite (.s 2) (.tctl 9) = false ∧ (s.tag 9).msgs = [⟨0, some 3⟩] ++ ⟨1, none⟩ :: [] ∧ (∀ m ∈ (s.tag 8).msgs, m.fired ≠ none) ∧
    (0x38 : Word).getLsbD 3 = true ∧ (0x30 : Word).getLsbD 3 = false ∧
    (0x2020 : Word).toNat % 128 + (0x2020 : Word).toNat / 256 % 64 = 64 ∧ (0x2041 : Word).toNat % 128 > 64 ∧
    s.mayWrite (.s 1) (.l1map 2) = false ∧ ((c Cluster.empty).cluster 2).l1pend = none ∧
    ((c { Cluster.empty with l1pend := some 0x410 }).cluster 2).l1pend = some 0x410 ∧ (c Cluster.empty).clusterBusy 2 = false ∧
    (alone (slotFrame [])).clusterBusy 0 = true ∧ Memory.wf s.mem = true := by decide

/-- O44: a handle of a launch that its writer owns and one that it does not; a launch that cannot be killed; requests at both levels. -/
theorem witness_kill_and_life_cycle :
    let s (st : LState) : State := { State.reset with launches := [(7, { LEntry.none with st := st, gen := 3, part := 1 })] }
    let h : Word := 0x30007
    (s .placed).halt = none ∧ h.toNat % 2 ^ 32 = 0x30007 ∧ h.getLsbD 63 = false ∧ (s .placed).entryOfHandle 0x30007 = some 7 ∧
    ((s .placed).entry 7).part = 1 ∧ ((s .placed).entry 7).killed = false ∧ ((s .placed).entry 7).posting = false ∧
    ((s .armed).entry 7).st = .armed ∧ (s .armed).entryOfHandle 0x30007 = some 7 ∧ (s .placed).entryOfHandle 0x40007 = none ∧
    (0x8000000000000000 : Word).getLsbD 63 = true ∧ (1 : Word).toNat % 4 = 1 ∧ tokenOk 0 1 [] = false := by decide

/-- O44: a token of 2,624 bytes that names the device and the next state is good exactly when its signatures verify. -/
theorem witness_token (bs : List Byte) (h : bs.length = 2624) (d : fieldAt bs 0 24 = Config.deviceId.toNat) (t : fieldAt bs 0x18 8 = 3) :
    tokenOk 2 3 bs = (Config.falconVerify Config.vendorKey (Config.shake256 (bs.take 64) 64) ((bs.drop 0x40).take 1280) &&
      Config.falconVerify Config.ownerKey (Config.shake256 (bs.take 64) 64) ((bs.drop 0x540).take 1280)) := by
  simp [tokenOk, h, d, t]

/-- O45: a rectangle in force whose reset runs and one whose reset does not; a cluster in no rectangle; a partition that resets. -/
theorem witness_containment :
    let s := (State.reset.setReg (.rect 0) 0x80CC)
    let t := s.setReg (.rectrst 0) 2
    let p := { State.reset with svars := [(5, ⟨true, 0, 3, []⟩)], launches := [(7, { LEntry.none with st := .done, part := 3 })] }
    s.halt = none ∧ s.mayWrite .m (.rectrst 0) = true ∧ s.mayWrite (.s 5) (.rectrst 0) = false ∧ s.rectValid 0 = true ∧
    s.rectValid 1 = false ∧ (s.reg (.rectrst 0)).getLsbD 1 = false ∧ (t.reg (.rectrst 0)).getLsbD 1 = true ∧ s.inRect 0 15 = true ∧
    (∀ q < 16, State.reset.rectValid q = false) ∧ p.mayWrite (.s 3) (.prst 3) = true ∧ p.mayWrite (.s 3) (.prst 4) = false ∧
    (p.reg (.prst 3)).getLsbD 1 = false ∧ p.entriesOf 3 = [7] ∧ p.tagPart 9 = 0 := by decide

/-- The slot of tag 9 at a global address whose line is held; the core that posts as a supervisor has cached its rights there. -/
def posted (valid : Word) (m : List Msg) : State :=
  let a := 0x10000000000
  let s := ((State.reset.setReg (.tbuf 9) (BitVec.ofNat 64 a)).setReg (.tctl 9) valid).setTag 9 { Tag.none with msgs := m }
  { s with
    wipe := false
    cores := [(coreOf unitFrame, { CoreSt.empty with plb := [(plbKey 0 a, 7)] })]
    slices := [(homeSlice a, { Slice.empty with lines := [⟨a / 64, 0, 0, false, .normal, 0⟩] })] }

/-- O46: a write that is no post, one that may not be made, one to an invalid tag, one for which there is no slot, and one that is
accepted; posts of units whose turn it is and is not. -/
theorem witness_messages :
    let s := posted 0x18 []
    let u (l : List UPost) : State := { s with uposts := l }
    let x : UPost := ⟨9, 0, List.replicate 8 1, none, none⟩
    s.halt = none ∧ (s.reg (.tctl 9)).toNat % 8 = 1 - 1 ∧ (s.reg (.tctl 9)).getLsbD 4 = true ∧ (s.reg (.tctl 9)).getLsbD 3 = true ∧
    (s.reg (.prst 0)).getLsbD 1 = false ∧ s.freeSlot 9 = some 0 ∧ (posted 0x18 [⟨0, none⟩]).freeSlot 9 = none ∧
    ((posted 0x10 []).reg (.tctl 9)).getLsbD 3 = false ∧ ((posted 0x08 []).reg (.tctl 9)).getLsbD 4 = false ∧
    (u [x]).uposts[0]? = some x ∧ (∀ v ∈ [x].take 0, v.tag ≠ 9) ∧ ¬ (∀ v ∈ [x, x].take 1, v.tag ≠ 9) ∧ s.tagPart 9 = 0 ∧
    (u [x]).uposts[1]? = none := by decide

/-- A line that is held takes a post that its poster may write. -/
theorem writes_held (s : State) (f a : Nat) (ws : List Word) (l : Line) (c : s.checkAddr f a 8 .w .other = (s, none))
    (w : windowOf a = .glob) (q : s.wipe = false) (h : s.lineOf a = some l) (p : s.poison = []) : (s.writeLine f a ws).2 = .done := by
  simp [State.writeLine, c, w, q, State.reach, h, State.poisoned, State.touchLine, State.updLine, State.setSlice, p, lookD, look]

/-- The frame that posts as a supervisor has every right at the slot, whatever context the supervisor has. -/
theorem posted_rights (s : State) (x : Frame) (v : Word) (k : x.kind = .dispatch) (t : s.frame unitFrame = x)
    (e : s.regs = [((Reg.tbuf 9).addr, 0x10000000000), ((Reg.tctl 9).addr, v)])
    (p : s.plbHit (coreOf unitFrame) 0 0x10000000000 = some 7) :
    s.checkAddr unitFrame 0x10000000000 8 .w .other = (s, none) := by
  have w : windowOf 0x10000000000 = .glob := by decide
  have n : coreOf unitFrame ≠ mgmtCore := by decide
  have m : (Reg.ptab (Config.supervisorContext x.part).val).addr < (Reg.tbuf 9).addr := by
    have := Fin.isLt (Config.supervisorContext x.part)
    show 0xFF02000000 + 0x1018 + 0x40 * _ < 0xFF02000000 + 0x10000 + 0x10 * 9
    omega
  have h : (s.ctxOf unitFrame).all = false ∧ (s.ctxOf unitFrame).table = 0 := by
    simp only [State.ctxOf, n, if_false, t, k, State.supCtx, State.ctxOfNumber, State.regField, State.reg, e, true_and]
    rw [lookD, look, if_neg (by omega), if_pos m]
    show (0 : Word).toNat / 2 ^ 3 % 2 ^ (47 + 1 - 3) * 8 = 0
    rfl
  simp only [State.checkAddr, w, State.globRights, h, p, rightsOutcome]
  rfl

/-- Whoever posts as a supervisor writes as its frame may, whatever its REGION registers. -/
theorem sup_writes (s : State) (a : Nat) (ws : List Word)
    (h : ∀ r, ((s.setFrame unitFrame { Frame.empty .dispatch with stat := .ready, priv := .s, part := 0, region := r }).writeLine
      unitFrame a ws).2 = .done) : (s.asSup 0 fun t => t.writeLine unitFrame a ws).2 = .done := h _

/-- O46, O52: the post is written, whatever context the supervisor has. -/
theorem witness_accept (v : Word) :
    ((posted v []).asSup 0 fun s => s.writeLine unitFrame 0x10000000000 (List.replicate 8 1)).2 = .done := by
  apply sup_writes
  intro r
  have c := posted_rights ((posted v []).setFrame unitFrame { Frame.empty .dispatch with stat := .ready, priv := .s, part := 0, region := r })
    { Frame.empty .dispatch with stat := .ready, priv := .s, part := 0, region := r } v rfl rfl rfl rfl
  exact writes_held _ _ _ _ ⟨0x10000000000 / 64, 0, 0, false, .normal, 0⟩ c (by decide) rfl rfl rfl

/-! ### Launches, the package and the ring -/

/-- O47: a launch that is chosen and placeable, for tiles, as an urgent one and for a dispatch core; one that cannot be placed, and one
that is not chosen; a store in which it is the first in rank. -/
theorem witness_placement :
    let x : LEntry := { LEntry.none with st := .pending, tiles := 1, threads := 4, image := 0x20000 }
    let s (x : LEntry) (l : List Nat) : State := { State.reset with
      launches := [(7, x)], placing := l, wipe := false, images := [⟨0x20000, 0, 0x30000, 0, 0, 0, 0, 0x410, [(0, KHdr.none)], []⟩] }
    (s x [7]).halt = none ∧ 7 ∈ (s x [7]).placing ∧ ((s x [7]).entry 7).st = .pending ∧ (s x [7]).placeable 7 = true ∧
    x.disp = false ∧ x.urgent = false ∧ x.threads ≤ 4 ∧ (s { x with urgent := true } [7]).placeable 7 = true ∧
    (s { x with disp := true } [7]).placeable 7 = true ∧ (s { x with disp := true } [7]).dispFree 0 = [0, 1, 2, 3] ∧
    (s { x with image := 0 } [7]).placeable 7 = false ∧ 7 ∉ (s x []).placing ∧ (s x []).ranked 0 = [(7, x)] ∧ (s x []).placeable 7 = true ∧
    (s { x with image := 0, rt := true } []).ranked 0 = [(7, { x with image := 0, rt := true })] := by decide

/-- O48: a real-time launch past its deadline, with ABORT_ON_MISS, without, and in CLOSING; one that has drained, of each CKIND, and one
that has not. -/
theorem witness_launch_ends :
    let x : LEntry := { LEntry.none with st := .placed, rt := true, d := 5 }
    let c : LEntry := { LEntry.none with st := .closing, gen := 3 }
    let s (x : LEntry) : State := { State.reset.setReg (.tctl 0) 0x18 with launches := [(7, x)], fk := 600 }
    (s x).halt = none ∧ ((s x).entry 7).st = .placed ∧ x.late = false ∧ x.d < (s x).time ∧ { x with late := true }.late ≠ false ∧
    ((s { x with abort := true }).entry 7).abort = true ∧ { x with abort := true }.st ≠ .closing ∧
    ((s { x with st := .closing }).entry 7).st = .closing ∧ ((s c).entry 7).posting = false ∧ c.killed = false ∧
    (s c).fenceDrained 7 15 = true ∧ c.ckind ≠ 2 ∧ (s { c with ckind := 1 }).tagValidFor 0 0 = true ∧
    (s { c with ckind := 1 }).tagValidFor 9 0 = false ∧ ((s { c with ckind := 2 }).entry 7).ckind = 2 ∧
    ({ s c with cores := [(0, { CoreSt.empty with copyN := [{ cmd0 .cpy 4 with launch := some 7 }] })] } : State).fenceDrained 7 1 = false ∧
    ((s { c with killed := true }).engineOwes 7 false = false ∧ (s { c with killed := true }).engineOwes 7 true = false) := by decide

/-- O48: a template with an unfired message and a free entry, and a store with none. -/
theorem witness_template :
    let tpl : LEntry := { LEntry.none with st := .armed, pkt := packet 0, map := 0xFEDCBA9876543210, mapv := 0xFFFF }
    let s := (launchable (packet 0)).setTag 9 { Tag.none with msgs := [⟨0, none⟩], armed := some 7 }
    let t : State := { s with launches := [(0, entry0), (7, tpl)] }
    t.halt = none ∧ (t.tag 9).armed = some 7 ∧ (t.tag 9).unfired = some 0 ∧ t.freeEntryOf (7 / 256) = some 1 ∧
    pktFlag (t.entry 7).pkt 5 = false ∧
    t.pktKernel (t.entry 7).pkt = some (⟨0x20000, 0, 0x30000, 0, 0, 0, 0, 0x410, [(0, KHdr.none)], []⟩, 0, KHdr.none) ∧
    t.firedStatus (t.entry 7) (7 / 256) 0 = 0 ∧ (t.tag 8).armed = none ∧ tpl.st ≠ .free := by decide

/-- A well-formed image with one kernel whose code is one NOP and whose DATA hold two words: 64 bytes of header, KERNEL at 64, CODE at
192, POOL, DATA and ERRATA at 256, SIG at 320 (spec/03 R81). -/
def image0 : List Byte :=
  leBytes 4 0x524E4E4F ++ leBytes 2 1 ++ leBytes 2 1 ++ List.replicate 8 0 ++ leBytes 4 64 ++ leBytes 4 96 ++ leBytes 4 192 ++ leBytes 4 2 ++
  leBytes 4 256 ++ leBytes 4 0 ++ leBytes 4 256 ++ leBytes 4 0 ++ leBytes 4 256 ++ leBytes 4 8 ++ leBytes 4 320 ++ leBytes 4 1280 ++
  List.replicate 24 0 ++ leBytes 4 0xE0 ++ leBytes 4 0x40400 ++ List.replicate 64 0 ++ List.replicate 32 0 ++ [0x00, 0x28] ++
  List.replicate 62 0 ++ List.replicate 64 0 ++ List.replicate 1280 0

/-- O49: a package that runs, one that has stopped, one whose scrub has ended; firmware that runs and does not; a request that a slot
of tag 0xFFF holds; an image whose format is good, and one whose is not. -/
theorem witness_package :
    let s : State := { State.reset.setTag 0xFFF { Tag.none with msgs := [⟨4, none⟩] } with fwOk := true, idKey := true }
    Memory.wf State.reset.mem = true ∧ State.reset.halt ≠ some .thermal ∧ ({ State.reset with halt := some .thermal } : State).halt = some .thermal ∧
    State.reset.wipe = true ∧ State.reset.fwOk = false ∧ s.fwOk = true ∧ s.idKey = true ∧ s.halt = none ∧ (s.tag 0xFFF).msgs = [⟨4, none⟩] ∧
    ({ s with wipe := false } : State).wipe = false := by decide

/-- O49: the image is well formed. -/
theorem witness_image : imageOk image0 = true ∧ imageOk [] = false ∧ image0.length = 1600 := by decide

/-- O49: it is signed exactly when its signature verifies. -/
theorem witness_image_signed (key : List Byte) :
    imageSigned image0 key = Config.falconVerify key (Config.shake256 (image0.take 320) 64) (List.replicate 1280 0) := by
  have h : (sectionAt image0 0x38).1 = 320 := by decide
  have d : (image0.drop 320).take 1280 = List.replicate 1280 0 := by decide
  simp only [imageSigned, h, d]

/-- The line at 0x10000000000 is held and its words are these; tag 0xF80 and tag 0xFFF are valid, of partition 0, with their slot 0
there, held, and posted by `w`. -/
def ringing (w : Poster) (ws : List Word) : State :=
  let a := 0x10000000000
  let r := (((State.reset.setReg (.tbuf 0xF80) (BitVec.ofNat 64 a)).setReg (.tctl 0xF80) 0x68).setReg (.tbuf 0xFFF) (BitVec.ofNat 64 a)).setReg
    (.tctl 0xFFF) 0x68
  let s := (r.setTag 0xF80 { Tag.none with msgs := [⟨0, none⟩] }).setTag 0xFFF { Tag.none with msgs := [⟨0, none⟩] }
  let t := (List.range 8).foldl (fun s k => s.writeN (l2Key a + 8 * k) (ws.getD k 0).toNat 255 8) s
  { t with
    wipe := false
    posters := [(0xF80 * 64, w), (0xFFF * 64, w)]
    cores := [(coreOf unitFrame, { CoreSt.empty with plb := [(plbKey 0 a, 7)] })]
    slices := [(homeSlice a, { Slice.empty with lines := [⟨a / 64, 0, 0, false, .normal, 0⟩] })]
    ringN := 2
    ringCfg := true }

/-- O49: a request of its own partition that firmware reads, one of another partition, and bytes that cannot be read. -/
theorem witness_request :
    let ws (p : Word) : List Word := [0, 1, p, 0, 0, 0, 0, 0]
    let s (p : Word) : State := { ringing (outsidePoster 0 .u) (ws p) with fwOk := true }
    (s 0).halt = none ∧ (s 0).tagPart 0xFFF = 0 ∧ (s 0).slotAddr 0xFFF 0 = 0x10000000000 ∧
    ((s 0).asSup 0 fun x => x.readLine unitFrame 0x10000000000).2 = .words (ws 0) ∧
    ((s 1).asSup 0 fun x => x.readLine unitFrame 0x10000000000).2 = .words (ws 1) ∧ (ws 1).getD 2 0 = 1 ∧
    look ((s 0).asSup 0 fun x => x.readLine unitFrame 0x10000000000).1.posters (0xFFF * 64 + 0) = some (outsidePoster 0 .u) ∧
    (State.reset.fwRead 0 0 1).2 = [] := by decide

/-- O50: each state of the handshake; a write that sets QREQ, clears it, asks for SAVE, CKG and RAILG in their states, and each in
another state; a cluster that is quiet; every number of a die-to-die module. -/
theorem witness_power :
    let s (p : PState) (r : Word) : State := { State.reset.setReg (.cpwrctl 2) r with power := [(2, ⟨p, 0, false, false⟩)] }
    (s .on 16).halt = none ∧ ((s .on 16).pow 2).st = .on ∧ ((s .quiet 17).reg (.cpwrctl 2)).getLsbD 0 = true ∧
    ((s .quiescing 17).pow 2).st = .quiescing ∧ ((s .quiet 17).pow 2).st = .quiet ∧ ((s .saved 19).pow 2).st = .saved ∧
    ((s .clkoff 23).pow 2).st = .clkoff ∧ ((s .off 31).pow 2).st = .off ∧ ((s .waking 31).pow 2).st = .waking ∧
    ((s .on 16).reg (.cpwrctl 2)).getLsbD 1 = false ∧ (0x13 : Word).getLsbD 1 = true ∧ (0x13 : Word).getLsbD 0 = true ∧
    (0x12 : Word).getLsbD 0 = false ∧ (s .quiescing 17).clusterBusy 2 = false ∧
    ({ alone (slotFrame []) with power := [(0, ⟨.quiescing, 0, false, false⟩)] } : State).clusterBusy 0 = true ∧
    State.reset.d2dBad = [] ∧ ({ State.reset with d2dBad := [0, 1, 2] } : State).d2dBad.length = 3 ∧
    Memory.wf State.reset.mem = true := by decide

/-- O51: the engine's next command, of each KIND; badly formed; an ALLRED of two members, of one, and one that its poster may not make;
a ring that is configured and one that is not. -/
theorem witness_ring_takes :
    let cfg : List Word := [4, 0, 0, 0x10, 0, 0, 0, 0]
    let qry : List Word := [3, 0, 0, 0, 0, 0, 0, 0]
    let snd : List Word := [1, 0x10000000000, 0, 0, 0, 0, 0, 0]
    let all (m : Word) : List Word := [0xA0002, 0x10000000000, 0x10000000000, 16, 0, m, 0, 0]
    let m := { outsidePoster 0 .m with all := true }
    let u := outsidePoster 0 .u
    let s := ringing u (all 3)
    let j := taken s 0 0xF80 0 (all 3)
    s.halt = none ∧ s.ringHead 0xF80 = some 0 ∧ s.ringWords 0xF80 0 = all 3 ∧ s.ringNext 0 = some 0xF80 ∧ s.ringNext 1 = none ∧
    (ringing m cfg).ringWords 0xF80 0 = cfg ∧ (ringing m cfg).ringNext 0 = some 0xF80 ∧ badRing cfg m = false ∧ badRing cfg u = true ∧
    (ringing u qry).ringWords 0xF80 0 = qry ∧ badRing qry u = false ∧ (ringing u snd).ringWords 0xF80 0 = snd ∧ badRing snd u = false ∧
    badRing (all 3) u = false ∧ s.badMembers j = false ∧ s.badMembers (taken s 0 0xF80 0 (all 1)) = true ∧ (s.ringDenied j).2 = false ∧
    ({ s with cores := [] } : State).badMembers j = false ∧ (({ s with cores := [] } : State).ringDenied j).2 = true ∧ s.ringCfg = true ∧
    State.reset.ringCfg = false ∧ j.src % j.size = 0 ∧ j.dst % j.size = 0 ∧ (0x10000000002 : Nat) % j.size ≠ 0 ∧ s.ringSet = false ∧
    ({ s with ringSet := true } : State).ringSet = true := by decide

/-- O52: a SEND to the own position and to another, with a route and without; one that its poster may not read; a post from another
package to a tag that takes it and to one that refuses it. -/
theorem witness_ring_messages :
    let snd (arg : Word) : List Word := [1, 0x10000000000, 0, arg, 0, 0, 0, 0]
    let s (arg : Word) := ringing (outsidePoster 0 .u) (snd arg)
    let j (arg : Word) := taken (s arg) 0 0xF80 0 (snd arg)
    let up (t : State) : State := { t with ring := [(1, { Ring.reset with port := { Port.reset with up := true } })] }
    (sendRead (s 0) (j 0)).2.1 = false ∧ (sendRead (s 0) (j 0)).2.2.2 = none ∧ (sendRead { s 0 with cores := [] } (j 0)).2.1 = true ∧
    (j 0).arg % 16 = (s 0).ringPos ∧ (j 1).arg % 16 ≠ (s 1).ringPos ∧ (up (s 1)).route 1 = some true ∧ (s 1).route 1 = none ∧
    ((s 0).ringPost 0xF81 [] [] (j 0).who).2 = some false ∧ ((s 0).reg (.tctl 0xF80)).getLsbD 3 = true ∧
    ((s 0).reg (.tctl 0xF80)).getLsbD 5 = true ∧ ((s 0).reg (.prst 0)).getLsbD 1 = false ∧ ((s 0).reg (.tctl 0xF81)).getLsbD 3 = false ∧
    (sendRead { s 0 with wipe := true, slices := [] } (j 0)).2.2.2 = some .hold ∧
    ((s 0).acceptPost 0xF80 (List.replicate 8 1) (outsidePoster 0 .u)).2 = .full := by decide

/-- A post to a tag with a free slot is accepted when its supervisor may write the slot. -/
theorem accepts (s : State) (t k : Nat) (ws : List Word) (w : Poster) (f : s.freeSlot t = some k)
    (h : (s.asSup (s.tagPart t) fun u => u.writeLine unitFrame (s.slotAddr t k) ws).2 = .done) : (s.acceptPost t ws w).2 = .done := by
  unfold State.acceptPost
  rw [f]
  dsimp only
  generalize s.asSup (s.tagPart t) (fun u => u.writeLine unitFrame (s.slotAddr t k) ws) = x at h
  obtain ⟨a, b⟩ := x
  subst h
  rfl

/-- O52: a post is accepted, whatever context the supervisor has. -/
theorem witness_ring_accept : ((posted 0x68 []).acceptPost 9 (List.replicate 8 1) (outsidePoster 0 .u)).2 = .done := by
  apply accepts _ _ 0
  · decide
  · have a : (posted 0x68 []).slotAddr 9 0 = 0x10000000000 := by decide
    have b : (posted 0x68 []).tagPart 9 = 0 := by decide
    rw [a, b]
    exact witness_accept _

/-- O52, O53: an ALLRED whose chunk arrives first, one that combines it, one whose final values arrive; commands of each KIND that run
and that have ended, with and without TOUT. -/
theorem witness_chunks_and_ends :
    let all (m : Word) : List Word := [0xA0002, 0x10000000000, 0x10000000000, 48, 0, m, 0, 0]
    let u := outsidePoster 0 .u
    let j : RJob := taken (ringing u (all 7)) 0 0xF80 0 (all 7)
    let s (j : RJob) : State := { ringing u (all 7) with ringN := 3, ring := [(0, { Ring.reset with jobs := [j] }),
      (1, { Ring.reset with port := { Port.reset with up := true } })] }
    (s j).halt = none ∧ ((s j).ringOf 0).jobs[0]? = some j ∧ j.kind = 2 ∧ j.stage = .running ∧ j.count = 3 ∧ j.order.length = 3 ∧
    (s j).chunkStep j 2 = 0 ∧ (s j).chunkStep j 1 = 1 ∧ (s j).chunkStep j 0 = 2 ∧
    (s j).chunkStep { j with passed := [1] } 1 + 2 = j.order.length ∧ ((s j).readChunk j 1).2.2 = some .hold ∧
    ((s j).readChunk j 0).2.2 = none ∧
    (((s j).readChunk j 0).1.sendChunk j 1 false (j.merge 1 ⟨[], 0, none⟩ ((s j).readChunk j 0).2.1)).isSome = true ∧
    ((s j).writeChunk { j with passed := [0] } 0 []).2 = none ∧ ((s { j with stage := .ended }).ringOf 0).jobs[0]? = some { j with stage := .ended } ∧
    (s j).tagValidFor 0 0 = false ∧ (s j).tagValidFor 0xFFF j.part = true ∧ j.tout = 0 ∧
    ({ j with words := [0xA0002, 0, 0, 16, 0, 0x10007, 0, 0] } : RJob).tout = 1 ∧ ((s j).ringOf 0).jobs[1]? = none ∧
    ({ j with words := [1, 0, 0, 0, 0, 0, 0, 0] } : RJob).kind = 1 ∧ j.chunks = [] ∧ { j with chunks := [2] }.chunks ≠ [] := by decide

/-- O53: a port whose lanes are good, one whose spares are used, and one that has lost all. -/
theorem witness_ports :
    let s (p : Port) : State := { State.reset with ring := [(0, { Ring.reset with port := p })] }
    (s Port.reset).halt = none ∧ ((s Port.reset).ringOf 0).port.rxw = 16 ∧ 17 ∉ ((s Port.reset).ringOf 0).port.rxbad ∧
    3 ∈ ((s { Port.reset with txbad := [3] }).ringOf 0).port.txbad ∧ ((s { Port.reset with rxw := 0 }).ringOf 0).port.rxw = 0 ∧
    (posted 0x18 []).tagValidFor 9 0 = true := by decide

/-! ### Further clauses of the statements -/

/-- O7, O9: atomics whose checks fail; a WAITRS whose read has failed; loads to a bound write stream and link, and one of two accesses of
which the second has failed; an AMO whose draw has wrapped the counter. -/
theorem witness_atomics_and_returns :
    let s := free0 (slotFrame [(4, 0x1001)])
    let a := acc0 .waitrs .none [part0 (.l1 0 8) (.failed 0x0B) 5]
    let w : State := { s with accs := [a] }
    let u (k : UKind) : Machine.Unit := { Unit.none with kind := k, id := 1, dir := true, stores := [[⟨0, 0, 0x10000, 4, 0, false⟩]] }
    let b (k : UKind) : State := { alone { slotFrame [] with units := (Vector.replicate 4 Unit.none).set 3 (u k) } with
      accs := [acc0 .load (.v 31 1 [] []) [part0 (.l1 0 8) .performed 5]] }
    let q := { part0 (.l1 0 16) (.failed 0x0B) 5 with elem := 1 }
    let z : State := { b .gen with accs := [acc0 .load (.v 31 1 [] []) [part0 (.l1 0 8) .performed 5, q]] }
    let m : Acc := { acc0 (.amo 0 4) (.amo 4 8 false) [part0 (.l1 0 8) .performed 5] with fl0 := 128 }
    (s.scalarCheck 0x1001 8 .r .atomic false).2 = some (4, 0, 0x1001) ∧
    (s.scalarCheck 0x1001 8 .rw .atomic true).2 = some (4, 0, 0x1001) ∧
    w.myWait = some (a, part0 (.l1 0 8) (.failed 0x0B) 5) ∧ a.frame = w.cur ∧
    ((b .gen).frame 0).unitAt 31 = some (u .gen) ∧ ((b .nbr).frame 0).unitAt 31 = some (u .nbr) ∧
    z.accOf 0 0 = some (acc0 .load (.v 31 1 [] []) [part0 (.l1 0 8) .performed 5, q]) ∧ q.stage = .failed 0x0B ∧
    ({ s with accs := [m] } : State).accOf 0 0 = some m ∧ m.fl0 ≠ 0 := by decide

/-- O13: a read stream that has a register for an addition, which goes on. -/
theorem witness_streams_supply :
    let u : Machine.Unit := { Unit.none with kind := .gen, et := 4, count := 8, stride := 4, ahead := 4, data := List.replicate 4 7 }
    let s := alone { slotFrame [] with units := (Vector.replicate 4 Unit.none).set 0 u }
    s.streamTest 0 [28] [2] = .ok ∧ s.me.unitAt 28 = some u ∧ s.cur = 0 ∧
    gives (.vadd (abc 2 28 28)) s (fun t => t.me.pc == s.next (.vadd (abc 2 28 28)) && t.cur == 0) = true := by decide

/-- O14: a bound register that may be loaded, and stored; an element check that fails; a post that a U thread in its guarded phase may
not make, and one that it may. -/
theorem witness_vector_memory_streams :
    let r : Machine.Unit := { Unit.none with kind := .gen, et := 4, count := 8, stride := 4, ahead := 4, data := List.replicate 4 7 }
    let w : Machine.Unit := { Unit.none with kind := .gen, dir := true, et := 4, count := 8, stride := 4, base := 0x10000 }
    let s (u : Machine.Unit) : State := free0 { slotFrame [(4, 0x1000)] with units := (Vector.replicate 4 Unit.none).set 1 u }
    let tctl (x : Frame) : State := (inLaunch x).setReg (.tctl 1) 0x48
    (s r).streamTest 0 [29] [] = .ok ∧ (s w).streamTest 0 [] [29] = .ok ∧ (s r).me.unitAt 29 = some r ∧
    ((s r).vecCheck .r 4 [(0x1002, 4)]).2 = some (4, 0, 0x1002) ∧ ((s r).vecCheck .r 4 [(0x1000, 4)]).2 = none ∧
    ((tctl (slotFrame [])).postCheck 0 1).1.guardBreach 0 0xF000000040 64 = none ∧
    (((tctl { slotFrame [] with phase := 3 }).postCheck 0 1).1.guardBreach 0 0xF000000040 64).isSome = true ∧
    ((alone (slotFrame [])).burstUnit ⟨30, 4, some ⟨6, 0, 0, 3⟩, none, none, []⟩) = none := by decide

/-- O17: writes that a command need not see: none once its mark is past them, those after its own queue's last write, or all. -/
theorem witness_unfenced :
    let x (n : Nat) (q : Option Nat) : Unfenced := ⟨n, 8, 5, q, 3⟩
    let s : State := { alone (slotFrame []) with unfenced := [x 0 none, x 1 (some 7), x 2 none], olds := 3 }
    s.onTile = true ∧ s.halt = none ∧ s.cur = 0 ∧ (∀ w ∈ s.unfenced, w.num < s.olds) ∧
    s.unseen 3 7 8 = [] ∧ s.unseen 0 7 12 = [x 2 none] ∧ s.unseen 1 6 8 = [x 1 (some 7), x 2 none] ∧ s.unseen 0 6 16 = [] := by
  decide

/-- O20: a descriptor that a waiting copy command will take, and a span of which a byte lies outside what the thread may store to. -/
theorem witness_tile_table_waits :
    let k : Cmd := { serial := 0, op := .cpyt, frame := 0, launch := none, urg := false, a := 5, b := 0, c := 0, x := 0, acc := 0, et := 4
                     et2 := 0, scope := 6, strong := false, cp := 0, bl := 0, arith := 0, phase := 0, priv := .u, region := [], seed := 0
                     ltid := 0, ctr := 0, part := 0, lcl := 0, hand := false, stack := (0, 0) }
    let s (d : Desc) : State := { free0 (slotFrame []) with tiles := [(0, { Tile.empty with
      descs := [(5, d)], copyN := { Channel.empty with wait := [Job.new k 0] } })] }
    let d : Desc := { Desc.none with shape := 0x0403F1F1, defd := true }
    (s d).descWanted [false, true] 0 5 = true ∧ (s d).descWanted [false, true] 0 6 = false ∧
    ((s d).spanDenied 0 0x2000000 8).2.isSome = true := by decide

/-- O22, O23: a full queue; a counter that wraps under ARITH.ERNG; pairs of R244 and one that is none; commands whose flags raise a
trap; an accumulator of the other queue, from a slot and from the urgent frame. -/
theorem witness_matrix_further :
    let k : Cmd := { serial := 0, op := .mma, frame := 0, launch := none, urg := false, a := 0, b := 0, c := 0, x := 0, acc := 0, et := 4
                     et2 := 0, scope := 6, strong := false, cp := 0, bl := 0, arith := 0, phase := 0, priv := .u, region := [], seed := 0
                     ltid := 0, ctr := 0, part := 0, lcl := 0, hand := false, stack := (0, 0) }
    let s := inLaunch (slotFrame [])
    let f : State := { s with cores := [(0, { openCore with matN := [k, k] })] }
    let c : CmdRec := ⟨0, 0, true, [(3, 64)], false, 3, false, false⟩
    let t := inLaunch { slotFrame [] with cmds := [c], arith := 0x40E0 }
    let urgent : State := { s with frames := [(4, { slotFrame [] with kind := .urgent, launch := some 0 })], cur := 4 }
    2 ≤ ((f.core f.myCore).queue true f.inUrgent).length ∧ enabledOf s [(0, 128)] = 0 ∧
    enabledOf (inLaunch { slotFrame [] with arith := 0x80E0 }) [(0, 128)] ≠ 0 ∧ mmaPair 0xB 0 ∧ mmaPair 0xE 0xF ∧ ¬ mmaPair 0xB 0xC ∧
    t.me.cmds.find? (fun c => c.err && !c.popped) = none ∧ enabledOf t [(3, 64)] ≠ 0 ∧ s.inUrgent = false ∧ urgent.inUrgent = true ∧
    urgent.onTile = true ∧ (ab 4 9).uimm % 32 = 9 ∧ (((s.tile 0).channel true false).wait).length < 8 := by
  unfold mmaPair
  decide

/-- O25: a gang whose odd slot has an access that is not performed. -/
theorem witness_fence_in_a_gang :
    let st : Acc := { acc0 .store .none [part0 (.l1 0 8) .waiting 5] with frame := 1 }
    let s : State := { alone { slotFrame [] with gang := true } with frames := [(0, { slotFrame [] with gang := true }), (1, { slotFrame [] with seq := 1 })], accs := [st] }
    s.me.gang = true ∧ s.accs = [st] ∧ st.seq < (s.frame (oddOf s.cur)).seq ∧ st.frame ≠ s.cur := by decide

/-- O26, O41: rights that TSKIP and TADD have and lack; a TSKIP that has sent one of its updates; an update behind a strong access, one
of a global element whose line is held, and whose page has no translation; an element whose bank grants another access first. -/
theorem witness_tickets_further :
    let s := inLaunch (slotFrame [])
    let none_ : State := { s with cores := [(0, { CoreSt.empty with plb := [(hdrKey 0 0, 0)] })] }
    let m := inLaunch { slotFrame [] with prog := 1, since := 4 }
    let va := 0x10000000000
    let st : Acc := { acc0 .store .none [part0 (.l1 0 8) .waiting 5] with strong := true }
    let u : Upd := { upd0 0 with loc := l2Key va, va := va, seq := 1 }
    let g (l : List Line) (a : List Acc) : State := { inLaunch { slotFrame [] with tickets := [some u, none, none, none], seq := 2 } with
      windows := [(0, { win0 with loc := l2Key va, va := va })], wipe := false, accs := a
      slices := [(homeSlice va, { Slice.empty with lines := l, pend := [u] })] }
    let b (ck : Nat) : State := { s with ck := ck, accs := [acc0 .store .none [part0 (.l1 0 0x10000) .waiting 5]], windows := [(0, win0)]
                                         tiles := [(0, { Tile.empty with pend := [upd0 0] })] }
    (s.skipDenied 0 0x10000 4).2 = none ∧ (s.skipDenied 0 0x10000 4).1.frames = s.frames ∧ (none_.skipDenied 0 0x10000 4).2.isSome = true ∧
    (s.scalarCheck 0x10001 4 .rw .other false).2 = some (4, 0, 0x10001) ∧ m.me.midSkip = true ∧ s.me.midSkip = false ∧
    st.strong = true ∧ st.seq < u.seq ∧ st.done = false ∧ (g [] [st]).accs = [st] ∧ (g [] []).wipe = false ∧
    ((g [⟨va / 64, 0, 0, false, .normal, 0⟩] []).lineOf va).isSome = true ∧ (g [] []).lineOf va = none ∧
    (g [] []).windowAt 0 (l2Key va) = some (0, { win0 with loc := l2Key va, va := va }) ∧
    (match ((g [] []).translate (homeSlice va) va false).2 with | .error _ => true | .ok _ => false) = true ∧
    (((g [] []).translate (homeSlice va) va false).1.faultRecord 0 va false true false ⟨1, 3, 0, 0⟩).2.isSome = true ∧
    (b 9).bankYields 0 0x10000 1152 false = false ∧ (b 0).bankYields 0 0x10000 1152 false = false ∧
    ({ b 9 with accs := [] } : State).bankYields 0 0x10000 1152 false = true := by decide

/-- O27, O42: an entry that is DEAD and has a batch, and none; a batch for a cluster that answers nothing, and an initial copy from one. -/
theorem witness_glaze_further :
    let b : Batch := ⟨0, [(3, 9)], [], false, 0⟩
    let g (st : GState) (l : List Batch) : GEntry :=
      { GEntry.none with st := st, launch := some 0, pub := l1Bytes + 0x1000, sub := 0x9B8000, len := 128, sent := l }
    let s (x : GEntry) : State := { inLaunch (slotFrame []) with
      tiles := [(0, { Tile.empty with glaze := [(0, x)] })], power := [(1, { Power.on with st := .off })] }
    let r := { g .active [b] with pub := 0x1000, sub := l1Bytes + 0x1000 }
    ((s (g .dead [b])).glaze 0 0).st = .dead ∧ ((s (g .dead [b])).glaze 0 0).sent = [b] ∧ (s (g .sync [])).clusterLive 1 = false ∧
    (g .sync []).pub / l1Bytes ≠ 0 / 64 ∧ ((s r).glaze 0 0).sub / l1Bytes ≠ ((s r).glaze 0 0).pub / l1Bytes ∧
    (s r).glazeAll.length = 1 := by decide

/-- O32: a thread with a late outcome, with the flags of an AMO, and with neither; no DEAD entry of its launch has a batch, and one
has. -/
theorem witness_halt_owes :
    let l : Late := ⟨5, 0, 0x0B, 8, 1⟩
    let h (x : Frame) : State := { inLaunch (slotFrame []) with
      frames := [(0, { x with stat := .trapped, launch := some 0 }), (4, { slotFrame [] with kind := .handler 0, priv := .s })], cur := 4 }
    let b : Batch := ⟨0, [(3, 9)], [], false, 0⟩
    let g : State := { inLaunch (slotFrame []) with tiles := [(0, { Tile.empty with glaze := [(0,
      { GEntry.none with st := .dead, launch := some 0, sent := [b] })] })] }
    OwesTrap (h { slotFrame [] with late := [l] }) 0 ∧ OwesTrap (h { slotFrame [] with amoFlags := [(0, 16)] }) 0 ∧
    ¬ OwesTrap (h (slotFrame [])) 0 ∧ (h { slotFrame [] with amoFlags := [(0, 16)] }).takeAmo 0 =
      ((h { slotFrame [] with amoFlags := [(0, 16)] }).takeAmo 0 |>.1, none) ∧
    (∀ x ∈ (inLaunch (slotFrame [])).glazeAll, x.2.launch = some 0 → x.2.st = .dead → x.2.sent = []) ∧
    (∃ x ∈ g.glazeAll, x.2.launch = some 0 ∧ x.2.st = .dead ∧ x.2.sent ≠ []) ∧ (h (slotFrame [])).urgentFree 0 = false := by
  unfold OwesTrap
  decide

/-- O33: a thread with an access that is not performed, before its LWAIT. -/
theorem witness_lwait_held :
    let s : State := { launchable (packet 0) with accs := [acc0 .store .none [part0 (.l1 0 8) .waiting 5]] }
    ∃ a ∈ s.accs, a.frame = s.cur ∧ a.seq < ({ s.me with seq := 1 } : Frame).seq ∧ ∃ p ∈ a.parts, p.stage ≠ .performed := by decide

/-- O34: frames of the core, none twice; a reservation and an arrival of the core that a freeze meets. -/
theorem witness_freeze_and_retire :
    let s : State := { alone (slotFrame []) with resvs := [⟨0, 8, 0⟩], arrs := [⟨0, 3, some 0, 2, 0, 0, 0, false, none, false⟩]
                                                 cores := [(0, { CoreSt.empty with waitUrg := some 7, retry := some 0 })] }
    (s.frames.map (·.1)).Nodup ∧ (s.frame 0).stat ≠ .free ∧ coreOf 0 = 0 ∧ s.arrLeaves ⟨0, 3, some 0, 2, 0, 0, 0, false, none, false⟩ = true ∧
    (s.core 0).retry = some 0 ∧ (look s.frames 0).isSome = true := by decide

/-- O36: a fill of the management core, and one of partition 1 for a Crumb page. -/
theorem witness_fills_further :
    let c : State := { State.reset with clusters := [(clusterOf mgmtCore, { Cluster.empty with fills := [(0x2000, [tileOf mgmtCore])] })] }
    (c.cluster (clusterOf mgmtCore)).fills.find? (fun x => x.1 / 64 == 0x2000 / 64) = some (0x2000, [tileOf mgmtCore]) ∧
    clusterOf mgmtCore ≠ 0 ∧ (0x2000 + 1 + 2 * 1) % 64 / 2 = 1 ∧ ((0x2000 + 1 + 2 * 1) % 2 == 1) = true := by decide

/-- O37: writers of L2OP with the right and without; a thread that waits for a fault record, and its access behind the held one. -/
theorem witness_cache_operations_further :
    let va := 0x10000000000
    let s : State := { alone { slotFrame [] with fids := [3], stat := .parkPage } with
      faults := [⟨3, 0, va, false, 0, some 0, 0, 0, [], true⟩], accs := [acc0 .load (.g 4 8 false) [part0 (.glob va) .waiting 5]] }
    s.mayWrite (.s 0) (.l2op 0 0) = true ∧ s.mayWrite .m (.l2op 0 0) = true ∧ s.mayWrite (.s 1) (.l2op 0 0) = false ∧
    s.faults.find? (fun r => r.fid == 3) = some ⟨3, 0, va, false, 0, some 0, 0, 0, [], true⟩ ∧ (s.frame 0).fids.contains 3 = true ∧
    pageOf va false = va := by decide

/-- O38: a register of a write stream whose values have not come. -/
theorem witness_stream_waits :
    ∃ st ∈ storeRun [] [⟨0, 0, 0x10000, 4, 7, false⟩], st.ready = false := by decide

/-- O38: a current command that waits, whose descriptor lets it go on and does not; an urgent command that comes before a normal one;
a wait area with room and without. -/
theorem witness_engine_takes_further :
    let k (op : COp) : Cmd := { cmd0 op 4 with a := 5 }
    let w (op : COp) : Job := Job.new (k op) 0
    let s (d : DState) (op : COp) : State := { engines false { Channel.empty with cur := some (w op) } with tiles := [(0, { Tile.empty with
      descs := [(5, { Desc.none with st := d, shape := 0x0403F1F1, defd := true })], copyN := { Channel.empty with cur := some (w op) } })] }
    let u : State := { engines false .empty with cores := [(0, { CoreSt.empty with copyU := [cmd0 .cpy 4] })] }
    (s .empty .cpyt).copyReady 0 false (w .cpyt) = true ∧ (s .draining .cpyt).copyReady 0 false (w .cpyt) = false ∧
    (w .cpyt).stage = .waiting ∧ (((s .draining .cpyt).tile 0).channel false false).waiting < waitCap false ∧
    u.nextTake 0 false true ≠ none ∧ u.curJob 0 false true = none ∧ (u.tile 0).copyN.cur = none ∧
    ({ Channel.empty with wait := [w .cpyt, w .cpyt, w .cpyt, w .cpyt] } : Channel).waiting ≥ waitCap false := by decide

/-- O40: a release arrival of a frozen thread, that had left before and that had not; one of a gang whose odd slot has an earlier
access. -/
theorem witness_arrivals_further :
    let a : Arr := ⟨0, 3, some 0, 2, 0, 0, 0, true, none, true⟩
    let s : State := inLaunch { slotFrame [] with frozen := true }
    let st : Acc := { acc0 .store .none [part0 (.l1 0 8) .waiting 5] with frame := 1 }
    a.left = true ∧ (s.frame 0).frozen = true ∧ { a with left := false }.left = false ∧ { a with odd := some 1 }.odd = some 1 ∧
    st.frame = oddOf a.frame ∧ st.seq < 1 ∧ s.arrLeaves a = true ∧ s.arrLeaves { a with left := false } = false := by decide

/-- O43: banks that clash with another partition's and that do not; a rectangle that meets one in force; CPWRCTL and CHKCNT at M. -/
theorem witness_register_values :
    let s := (State.reset.setReg (.hbmslot 0 1) 0x3).setReg (.rect 0) 0x80CC
    Reg.ofAddr (Reg.hbmslot 0 0).addr = some (.hbmslot 0 0) ∧ s.mayWrite .m (.hbmslot 0 0) = true ∧
    (s.reg (.hbmslot 0 1) &&& 0x2 ≠ 0) ∧ (∀ q < 8, q ≠ 0 → s.reg (.hbmslot 0 q) &&& 0x4 = 0) ∧
    Reg.ofAddr (Reg.rect 1).addr = some (.rect 1) ∧ s.rectRefused 1 0x80CC = true ∧ s.rectRefused 1 0 = false ∧
    Reg.ofAddr (Reg.cpwrctl 2).addr = some (.cpwrctl 2) ∧ s.mayWrite .m (.cpwrctl 2) = true ∧ s.mayWrite .m (.chkcnt 15) = true ∧
    s.mayWrite .m (.rect 1) = true := by decide

/-- O44: a request whose token lies in the global space, while HBM is scrubbed and after. -/
theorem witness_token_held :
    windowOf 0x10000000000 = .glob ∧ State.reset.wipe = true ∧ windowOf 0x2000 ≠ .glob := by decide

/-- O45: a template of a context that a rectangle's reset kills; a cluster whose state stands in retention cells. -/
theorem witness_rectangle_further :
    let x : LEntry := { LEntry.none with st := .placed, started := true, tiles := 64, mapv := 0xFFFF, map := 0xFEDCBA9876543210 }
    let s : State := { State.reset.setReg (.rect 0) 0x80CC with
      launches := [(0, x), (7, { LEntry.none with st := .armed })], power := [(0, { Power.on with st := .saved })] }
    s.inRect 0 0 = true ∧ (s.pow 0).st = .saved ∧ (s.entry 7).st = .armed ∧ (s.entry 7).ctx = (s.entry 0).ctx ∧
    0 ∈ s.launchesIn (s.rectClusters 0) := by decide

/-- O46: firmware that runs; posts of a record that is past D. -/
theorem witness_message_further :
    let s : State := { posted 0x18 [] with fwOk := true }
    let x : LEntry := { LEntry.none with st := .closing, rt := true, d := 5, posting := true }
    let u : State := { s with fk := 600, launches := [(7, x)], uposts := [⟨9, 0, List.replicate 8 1, some 7, some 5⟩] }
    s.fwOk = true ∧ (posted 0x18 []).fwOk = false ∧ ((u.missDeadline 7).entry 7).late = true ∧ u.uposts.length = 1 ∧
    (u.entry 7).late = false := by decide

/-- O48: a template whose packet no longer passes the checks. -/
theorem witness_template_fails :
    let tpl : LEntry := { LEntry.none with st := .armed, pkt := packet 0x10000, map := 0xFEDCBA9876543210, mapv := 0xFFFF }
    let s := (launchable (packet 0)).setTag 9 { Tag.none with msgs := [⟨0, none⟩], armed := some 7 }
    let t : State := { s with launches := [(0, entry0), (7, tpl)] }
    t.firedStatus (t.entry 7) (7 / 256) 0 ≠ 0 ∧ (t.tag 9).unfired = some 0 ∧ t.freeEntryOf (7 / 256) = some 1 ∧
    pktFlag (t.entry 7).pkt 5 = false := by decide

/-- O50: a cluster whose built-in test is due at its wake. -/
theorem witness_wake_test :
    let s : State := { State.reset.setReg (.rect 0) 0x80CC with power := [(0, ⟨.waking, 0, false, true⟩)] }
    (s.pow 0).st = .waking ∧ (s.pow 0).test = true ∧ s.rectValid 0 = true ∧ s.inRect 0 0 = true ∧ Memory.wf s.mem = true := by decide

/-- O51, O52: a SEND whose SRC lies in the aperture; a post whose number has been received, and one that has not; a post of a partition
whose tags reset. -/
theorem witness_ring_further :
    let snd (src : Word) : List Word := [1, src, 0, 0, 0, 0, 0, 0]
    let j (src : Word) := taken (ringing (outsidePoster 0 .u) (snd src)) 0 0xF80 0 (snd src)
    let s : State := { State.reset with ring := [(0, { Ring.reset with got := [(1, 0, 4)] })] }
    windowOf (j 0x10000000000).src = .glob ∧ windowOf (j 0xF000000040).src ≠ .glob ∧
    (match windowOf (j 0xF000000040).src with | .own _ => false | .lcl _ _ => false | _ => true) = true ∧
    (1, 0, 4) ∈ (s.ringOf 0).got ∧ (1, 0, 5) ∉ (s.ringOf 0).got ∧ (1, 0, 5) ∉ (s.ringOf 1).got := by decide

/-- O52: terms of a chunk that agree with its command, and that do not; a chunk that this member starts; a root; a member that sends the
final values on; no route to the next member. -/
theorem witness_chunks_further :
    let all (m : Word) : List Word := [0xA0002, 0x10000000000, 0x10000000000, 48, 0, m, 0, 0]
    let u := outsidePoster 0 .u
    let j : RJob := taken (ringing u (all 7)) 0 0xF80 0 (all 7)
    let s (up : Bool) (p : Nat) : State := { ringing u (all 7) with ringN := 3, ringPos := p, ring := [(0, { Ring.reset with jobs := [j] }),
      (1, { Ring.reset with port := { Port.reset with up := up } })] }
    let x : RChunk := ⟨[], 0, none⟩
    j.terms = [0, 10, 0, 48] ∧ j.terms ≠ [0, 10, 0, 49] ∧ 2 < j.count ∧ (s true 0).chunkStep j 2 = 0 ∧ (s true 0).chunkStep j 0 + 1 = 3 ∧
    ((s true 0).sendChunk j 2 false x).isSome = true ∧ ((s false 0).sendChunk j 2 false x) = none ∧
    (s true 1).chunkStep j 0 = 0 ∧ (s true 0).linksDown ≠ 0 ∧ State.reset.linksDown = 0 ∧
    (s true 0).chunkStep j 2 + 2 ≠ 3 ∧ (s true 0).chunkStep j 2 + 1 ≠ 3 := by decide

/-- O53: a port that has a message to send on each channel; a direction without width; a route to another position, and none. -/
theorem witness_ports_further :
    let m (urg : Bool) (k : Nat) : RMsg := ⟨1, true, urg, k, [], []⟩
    let p : Port := { Port.reset with up := true, queue := [m false 1, m true 3, m true 1, m false 4] }
    let s (p : Port) : State := { State.reset with ringN := 2, ringCfg := true, ring := [(1, { Ring.reset with port := p })] }
    (p.next.map (·.1)) = some 2 ∧ (({ p with room := 1#4 } : Port).next.map (·.1)) = some 0 ∧ ({ p with room := 0 } : Port).next = none ∧
    (s p).route 1 = some true ∧ (s Port.reset).route 1 = none ∧ (s p).flit 1 ≠ s p ∧ (s Port.reset).flit 1 = s Port.reset := by decide

/-- O4: an indirect target on a page that the thread may not execute, and one whose line is still to come. -/
theorem witness_pad_fetch_fails :
    let s := free0 (slotFrame [(4, 0x2000), (5, 0x10000000000)])
    (s.g 4).toNat < 2 ^ 48 ∧ (s.g 4).getLsbD 0 = false ∧ (s.fetchTarget (s.g 4).toNat).2 = .trap 0x05 0x80 ∧
    (s.fetchTarget (s.g 5).toNat).2 = .wait := by decide

/-- O10, O12: a merged addition of FP32 that overflows, with the trap of OF enabled. -/
theorem witness_vector_traps :
    let o : Opnd := ⟨2, 3, none, some ⟨10, 0, 0, 0⟩, some ⟨4, 0, 0⟩, []⟩
    let x := ((slotFrame []).setVr 3 0x7F7FFFFF).setVr 4 0x7F7FFFFF
    let s := alone { x with arith := 0x4E0 }
    enabledOf s [(0, 20)] ≠ 0 ∧ s.streamTest s.cur (twoRegs o) [o.ra] = .ok ∧ enabledOf s [(0, 16)] = 0 ∧
    gives (.vadd o) s (fun t => t.me.tcause == 0x00040008 && t.me.taddr == 0 && t.vreg 0 2 == 0 && t.me.flags == 20) = true := by decide

/-- O10 to O13: bound streams of each kind that are ready as a source, with two units of one channel in one instruction, and a
write stream and a link that are ready as a destination. -/
theorem witness_bound_operands :
    let gen : Machine.Unit := { Unit.none with kind := .gen, et := 4, count := 8, stride := 4, ahead := 4, data := List.replicate 4 7 }
    let ch : Machine.Unit := { Unit.none with kind := .chan, id := 5 }
    let link (d : Bool) : Machine.Unit := { Unit.none with kind := .nbr, id := 1, dir := d }
    let out : Machine.Unit := { Unit.none with kind := .gen, dir := true, et := 4, count := 8, stride := 4, base := 0x10000 }
    let s (u v : Machine.Unit) : State := { inLaunch { slotFrame [] with units := ((Vector.replicate 4 Unit.none).set 0 u).set 1 v } with
      chans := [(5, ⟨some 0, 4, 7, [(7, List.replicate 64 1), (8, List.replicate 64 2)], 0⟩)] }
    (s gen out).streamTest 0 [28] [29] = .ok ∧ (s ch out).streamTest 0 [28] [29] = .ok ∧ (s ch ch).streamTest 0 [28, 29] [2] = .ok ∧
    (s ch ch).srcV 0 29 [28, 29] % 256 = 2 ∧ (s gen (link true)).streamTest 0 [28] [29] = .ok ∧ (s gen out).me.unitAt 29 = some out ∧
    (s ch ch).me.unitAt 28 = some ch ∧ (s gen (link true)).me.unitAt 29 = some (link true) ∧ (s gen out).me.unitAt 2 = none ∧
    (s gen out).halt = none := by decide

/-- O26: a TADD whose draw wraps the counter, with the trap of RNGW and without. -/
theorem witness_ticket_wraps :
    let o : Opnd := ⟨4, 5, none, some ⟨10, 0, 0, 0⟩, some ⟨6, 0, 0⟩, []⟩
    let s (a : Word) := inLaunch { slotFrame [(5, 0x10000)] with rngc := 0xFFFFFFFFFFFF, arith := a }
    taddDraws (s 0xE4) o = 1 ∧ 2 ^ 48 ≤ (s 0xE4).me.rngc.toNat + taddDraws (s 0xE4) o ∧ (s 0xE4).me.freeTicket = some 0 ∧
    ((s 0xE4).scalarCheck 0x10000 o.et.msize .rw .other false).2 = none ∧ enabledOf (s 0xE4) [(0, 128)] = 0 ∧
    enabledOf (s 0x80E4) [(0, 128)] ≠ 0 ∧ MayTicket (s 0xE4) 0 ∧ ((s 0xE4).g 6).toNat < 2 ^ 16 := by
  unfold MayTicket
  decide

/-- O31: an accumulator of the urgent frame that a handler's start clears. -/
theorem witness_handler_accumulators :
    UrgentAcc 0 4 ∧ UrgentAcc 0 5 ∧ ¬ UrgentAcc 0 3 := by
  unfold UrgentAcc
  decide

/-- O32: the last thread of a launch that is past D, with ABORT_ON_MISS and without; a thread within its time; a handler whose served
thread owes a page fault, another outcome, and flags alone. -/
theorem witness_halt_past_deadline :
    let x (a : Bool) : LEntry := { entry0 with rt := true, d := 5, abort := a }
    let s (a : Bool) : State := { inLaunch (slotFrame []) with launches := [(0, x a)], fk := 600 }
    let h (l : List Late) : State := { inLaunch (slotFrame []) with
      frames := [(0, { slotFrame [] with stat := .trapped, launch := some 0, late := l }), (4, { slotFrame [] with kind := .handler 0, priv := .s })], cur := 4 }
    (s true).inHandler = false ∧ (x true).st = .placed ∧ (x true).rt = true ∧ (x true).late = false ∧ (x true).d < (s true).time ∧
    (∀ k ∈ (x true).live, k = (s true).cur) ∧ (x true).killed = false ∧ (x true).posting = false ∧ (x false).abort = false ∧
    slotOf (s true).cur ≠ 4 ∧ ((inLaunch (slotFrame [])).entry 0).rt = false ∧
    earliestLate ((h [⟨5, 0, 0x06, 8, 1⟩]).frame 0).late = some (⟨5, 0, 0x06, 8, 1⟩, []) ∧
    earliestLate ((h [⟨5, 0, 0x0B, 8, 1⟩]).frame 0).late = some (⟨5, 0, 0x0B, 8, 1⟩, []) ∧ (h []).me.kind = .handler 0 := by decide

/-- O36: an AMO of a host page, an LR, an SC that holds its reservation, and one that does not. -/
theorem witness_host_atomics :
    let pa : Part := part0 (.glob 0x10000000000) .granted 5
    let s (op : AOp) (ret : Ret) (l : List Resv) : State := { alone (slotFrame []) with
      accs := [acc0 op ret [pa]], resvs := l
      slices := [(homeSlice 0x10000000000, { Slice.empty with xlat := [⟨0x10000000000, false, 0x200013⟩] })] }
    (∀ x ∈ [(AOp.amo 0 4, Ret.amo 7 8 false), (.lr, .g 7 8 false), (.sc, .sc 7)],
      (s x.1 x.2 []).accOf 0 0 = some (acc0 x.1 x.2 [pa]) ∧ (s x.1 x.2 []).hostAddr pa = some 0x200000 ∧ x.2 ≠ .none) ∧
    (∃ r ∈ (s .sc (.sc 7) [⟨0, l2Key 0x10000000000, 0⟩]).resvs, r.frame = 0 ∧ r.loc = pa.tgt.loc) ∧ (s .lr (.g 7 8 false) []).halt = none := by
  decide

/-- O37: a dirty line of the span that a FLUSH writes back, and a record that a thread waits for. -/
theorem witness_flush :
    let va := 0x10000000000
    let l : Line := ⟨va / 64, 0, 0x4000, true, .normal, 0⟩
    let s : State := { State.reset.setReg (.l2op 0 0) 0 with slices := [(homeSlice va, { Slice.empty with lines := [l] })] }
    let v := s.setReg (.l2op 0 0) (s.reg (.l2op 0 0) ||| 0x8000000000000000)
    let gone := s.slices.flatMap fun p => p.2.lines.filter (lineIn (v.l2Span 0 0))
    s.mayWrite .m (.l2op 0 0) = true ∧ (s.reg (.l2op 0 0)).getLsbD 63 = false ∧ (∀ m ∈ gone, m.la * 64 < 2 ^ 48 ∧ m.pa % 64 = 0) ∧
    (gone.map (·.la)).Nodup ∧ (gone.map (·.pa)).Nodup := by decide

/-- O38, O40, O42: banks that grant a stream, a Glaze entry and an engine at once, and one at which an older access stands first. -/
theorem witness_banks_yield :
    let s : State := inLaunch (slotFrame [])
    let w (ck : Nat) : State := { s with ck := ck, accs := [acc0 .store .none [part0 (.l1 0 0x10000) .waiting 5]] }
    s.streamYields 0 (wordsAt 0x10000 4) = true ∧ (w 9).streamYields 1 (wordsAt 0x10000 4) = (w 9).banksYield 0 [0x10000] 0 false ∧
    s.glazeYields 0 3 0x10000 (List.range 8) = true ∧ s.matrixYields 0 [0x10000] false = true ∧
    (w 9).matrixYields 0 [0x10000] false = false := by decide

/-- A tile whose first two descriptors are this one. -/
def opTile (d : Desc) : Tile := { Tile.empty with descs := [(0, d), (1, d)] }
/-- A block of one element at 0x10000, of the type with this code. -/
def oneElem (et : Nat) : Desc := { Desc.none with base := 0x10000, shape := BitVec.ofNat 64 (0x800000 + et), defd := true, st := .ready }

/-- O38, O39: a product of one element that its descriptors, shapes and banks let run, and one for each thing that stops it at its take: a type, a
shape, a descriptor that is not defined, one that is not ready, an accumulator of another format, and one of another shape. -/
theorem witness_products :
    let j (op : COp) (c : Word) : Job := { Job.new { cmd0 op 0 with b := 0x100, c := c } 0 with stage := .running }
    let s (op : COp) (c : Word) (d : Desc) (a : SMap Accum) : State := { free0 (slotFrame []) with
      accums := a, tiles := [(0, { opTile d with matN := { Channel.empty with cur := some (j op c) } })] }
    let t := s .mma 0 (oneElem 0) []
    let held (f : AFmt) (n : Nat) : SMap Accum := [(0, ⟨.held, f, 1, n, [5]⟩)]
    t.curJob 0 true false = some (j .mma 0) ∧ (j .mma 0).stage = .running ∧ t.productBad (j .mma 0).cmd = none ∧
    t.matrixYields 0 (spanWords (t.readSpans (j .mma 0).cmd)) false = true ∧ t.cmdMeets 0 true (j .mma 0).cmd = .ok ∧
    (t.asCmd (j .mma 0).cmd fun v => v.operandsMay (j .mma 0).cmd).2 = true ∧ (t.tile 0).matFailed = false ∧
    (s .mma 0 (oneElem 2) []).productBad (j .mma 0).cmd = some 10 ∧ (s .mma 0x400 (oneElem 0) []).productBad (j .mma 0x400).cmd = some 9 ∧
    (s .mma 0 Desc.none []).cmdMeets 0 true (j .mma 0).cmd = .nodef ∧
    (s .mma 0 { oneElem 0 with st := .filling } []).cmdMeets 0 true (j .mma 0).cmd = .wait ∧
    (s .mmac 0 (oneElem 0) (held .fp32 1)).productBad (j .mmac 0).cmd = some 10 ∧
    (s .mmac 0 (oneElem 0) (held .int32 2)).productBad (j .mmac 0).cmd = some 9 ∧
    (s .mmac 0 (oneElem 0) (held .int32 1)).productBad (j .mmac 0).cmd = none ∧
    (∃ r < shapeRows (oneElem 0).shape, ∃ q < shapeCols (oneElem 0).shape, ∃ i < (shapeEt (oneElem 0).shape).msize,
      ({ t with poison := [(l1Key 0 0x10000 / 8, true)] } : State).poisoned
        (l1Key 0 ((oneElem 0).base + r * shapeStride (oneElem 0).shape + q * (shapeEt (oneElem 0).shape).msize + i)) = true) := by decide

/-- O39: the format of the accumulator of each pair is INT32 or FP32; rows and columns of one length. -/
theorem witness_groups :
    (pairFmt .int8).1 = .int32 ∧ (pairFmt .bf16).1 = .fp32 ∧ ([1, 2] : List Nat).length = ([3, 4] : List Nat).length := by decide

/-- O38, O39: an MLDA and an MSTA of one INT32 element that their checks let run; one of a misaligned address, and one without a
format. -/
theorem witness_transfers :
    let c (op : COp) (w b : Word) : Cmd := { cmd0 op 0 with b := b, c := w }
    let j (op : COp) : Job := { Job.new (c op 0x40001 0x10000) 0 with stage := .running }
    let s (op : COp) : State := { free0 (slotFrame []) with
      accums := [(0, ⟨.held, .int32, 1, 1, [5]⟩)], tiles := [(0, { opTile (oneElem 4) with matN := { Channel.empty with cur := some (j op) } })] }
    let g : MGeo := ⟨.int32, 1, 1, .int32, 4, 0x10000, 4⟩
    (∀ op ∈ [COp.mlda, .msta], (s op).curJob 0 true false = some (j op) ∧ mldaGeo (j op).cmd ((s op).accOfCmd (j op).cmd) (oneElem 4) = .ok g ∧
      mldaRefused (j op).cmd g (oneElem 4) = none ∧ (s op).cmdMeets 0 true (j op).cmd = .ok) ∧
    ((s .mlda).asCmd (j .mlda).cmd fun v => v.mldaScan 0 g false 0 (g.m * g.n)).2 = none ∧
    (s .mlda).matrixYields 0 (spanWords ((s .mlda).readSpans (j .mlda).cmd)) false = true ∧
    ((s .msta).asCmd (j .msta).cmd fun v => v.mstaPieces (j .msta).cmd g (fun _ => [5]) 0 1).2.2.2 = none ∧
    mldaRefused (c .mlda 0x40001 0x10002) { g with base := 0x10002 } (oneElem 4) = some (1, 0) ∧
    mldaGeo (c .mlda 0 0x10000) .clear (oneElem 4) = .error 9 := by decide

/-- O38: a copy of eight bytes of the own L1, and a gather of one byte, that nothing stops. -/
theorem witness_copy_moves :
    let c (op : COp) (w : Word) : Cmd := { cmd0 op 0 with a := 0x10000, b := 0x11000, x := 0x12000, c := w }
    let j (op : COp) (w : Word) : Job := { Job.new (c op w) 0 with stage := .running }
    let s (op : COp) (w : Word) : State := engines false { Channel.empty with cur := some (j op w) }
    let key (op : COp) (w : Word) (a : Nat) := ((s op w).asCmd (c op w) fun v => (v, homeKey v 0 (trunc64 a))).2
    (s .cpy 8).curJob 0 false false = some (j .cpy 8) ∧ (j .cpy 8).status = 0 ∧ (c .cpy 8).op.elems = false ∧
    (c .cpyg 1).op.elems = true ∧ (∀ i < 8, (key .cpy 8 (0x11000 + i)).isSome ∧ (key .cpy 8 (0x10000 + i)).isSome) ∧
    ((s .cpy 8).asCmd (c .cpy 8) fun v => v.burstStep (j .cpy 8) ((c .cpy 8).geo Desc.none)).2.stop = none ∧
    (key .cpyg 1 0x11000).isSome = true ∧ key .cpyg 1 0x12000 = some (l1Key 0 0x12000) ∧ windowOf 0x12000 = .own 0x12000 ∧
    (s .cpyg 1).poisoned (l1Key 0 0x12000) = false ∧ ((s .cpyg 1).asCmd (c .cpyg 1) fun v => v.elemStep (j .cpyg 1)).2.stop = none := by decide

/-- O58, O60: a state whose maps are in order, and one whose are not. -/
theorem witness_maps :
    State.reset.mapsSorted = true ∧ (inLaunch (slotFrame [])).mapsSorted = true ∧
    ({ State.reset with frames := [(1, slotFrame []), (0, slotFrame [])] } : State).mapsSorted = false := by decide

/-- O53: the flit in sequence and one that is not. -/
theorem witness_flits :
    let p : Port := { Port.reset with up := true, rxSeq := 0xFFF }
    p.up = true ∧ (0xFFF : BitVec 12) = p.rxSeq ∧ (0 : BitVec 12) ≠ p.rxSeq := by decide

/-! ### The machine as a whole -/

/-- A thread at 0x10000000000 that has fetched these bytes. -/
def fetched0 (b : List Byte) (pad : Option Nat) : State :=
  { inLaunch { slotFrame [] with pc := 0x10000000000, ibuf := [(0x10000000000, b)], pad := pad } with tape := [.issue 0] }

/-- O54: a thread at a boundary that has fetched ADD, one that has fetched PAD.J, and one that has fetched a halfword of zeros. -/
theorem witness_boundary (b : List Byte) (pad : Option Nat) :
    (fetched0 b pad).tape = .issue 0 :: [] ∧ AtBoundary (fetched0 b pad) 0 ∧
    Buffered ((fetched0 [0xC8, 0x04] pad).frame 0) 0x10000000000 [0x04C8] ∧
    Buffered ((fetched0 [0x04, 0x84] pad).frame 0) 0x10000000000 [0x8404] ∧
    Buffered ((fetched0 [0, 0] pad).frame 0) 0x10000000000 [0] :=
  ⟨rfl, ⟨rfl, rfl, rfl, rfl, rfl, rfl, rfl, rfl, rfl⟩, ⟨⟨_, rfl, rfl⟩, trivial⟩, ⟨⟨_, rfl, rfl⟩, trivial⟩, ⟨⟨_, rfl, rfl⟩, trivial⟩⟩

/-- O54: the pad that is expected, another, and none; the chain is an instruction, and is none; an event. -/
theorem witness_steps :
    let add : Instr := .add ⟨6, 8, none, none, none, []⟩
    let pad : Instr := .padJ ⟨0, 4, none, none, none, []⟩
    decode [0x04C8] = .ok (add, 1) ∧ decode [0x8404] = .ok (pad, 1) ∧ decode [0] = .error (.illegal 0) ∧
    (fetched0 [0xC8, 0x04] none).widthBad 0 add = false ∧ (fetched0 [0xC8, 0x04] none).interlocked 0 add = false ∧
    (fetched0 [0x04, 0x84] none).widthBad 0 pad = false ∧ (fetched0 [0x04, 0x84] none).interlocked 0 pad = false ∧
    padKind pad = some 0 ∧ padKind add ≠ some 0 ∧ (∀ h, ([0x04C8] : List Half).getLast? = some h → h.isPfx = false) ∧
    (∀ h, ([0x8404] : List Half).getLast? = some h → h.isPfx = false) ∧ (Instr.quiesceComplete 3).hasWords = false := by
  refine ⟨by decide, by decide, by decide, by decide, by decide, by decide, by decide, by decide, by decide, ?_, ?_, by decide⟩ <;>
    rintro h ⟨⟩ <;> decide

/-- O55: a package that runs, one that is fatal, and one that is shut down. -/
theorem witness_answers :
    State.reset.halt = none ∧ ({ State.reset with halt := some .fatal } : State).halt = some .fatal ∧
    ({ State.reset with halt := some .thermal } : State).halt = some .thermal ∧ Instr.ringLinkUp 0 ≠ .packageReset :=
  ⟨rfl, rfl, rfl, nofun⟩

/-- O56: well-formed instructions with every kind of prefix, and the halfwords of one. -/
theorem witness_round_trip :
    (Instr.vadd ⟨1, 2, none, some ⟨0xB, 1, 0, 0⟩, some ⟨3, 0, 2⟩, []⟩).WellFormed ∧
    (Instr.ldd ⟨7, 2, some ⟨3, 1, 0, 0⟩, none, none, [0x001]⟩).WellFormed ∧ (Instr.or ⟨31, 31, none, none, none, []⟩).WellFormed ∧
    decode [0x2800] = .ok (.or ⟨0, 0, none, none, none, []⟩, 1) := by
  unfold Instr.WellFormed
  decide

/-- O58, O60: a step of a machine whose memory is in its form answers. -/
theorem witness_step_keeps :
    Memory.wf State.reset.mem = true ∧ (∃ t, step State.reset = .next t) ∧ State.reset.halt = none :=
  ⟨rfl, ⟨_, rfl⟩, rfl⟩

end Sys2Proof.Tests
end

section
/-!
PROOFS. Device registers: the rules of a write by field types (spec/00 R9), of what each register's write does to the state
(spec/15 R331, spec/16 R361), of tags, and of L1MAP (spec/09 R198, R199).
-/
namespace Sys2Proof.Machine

/-! ### The merged word (spec/00 R9) -/

/-- Each bit of the merged word: W1C before RW, and the old bit where neither field type covers it. -/
theorem getLsbD_mergeWrite (old v : Word) (rw w1c : Nat) {b : Nat} (hb : b < 64) :
    (mergeWrite old v rw w1c).getLsbD b =
      if w1c.testBit b ∧ v.getLsbD b then false else if rw.testBit b then v.getLsbD b else old.getLsbD b := by
  simp only [mergeWrite, BitVec.getLsbD_and, BitVec.getLsbD_or, BitVec.getLsbD_not, BitVec.getLsbD_ofNat, hb, decide_true,
    Bool.true_and]
  cases w1c.testBit b <;> cases v.getLsbD b <;> cases rw.testBit b <;> simp

/-- Clearing the W1C bits first changes nothing of the whole merge. -/
theorem mergeWrite_mergeWrite_zero (old v : Word) (rw w1c : Nat) :
    mergeWrite (mergeWrite old v 0 w1c) v rw w1c = mergeWrite old v rw w1c := by
  refine BitVec.eq_of_getLsbD_eq fun b hb => ?_
  simp only [getLsbD_mergeWrite _ _ _ _ hb, Nat.zero_testBit]
  split
  · rfl
  · simp

/-! ### The stored words -/

@[simp] theorem setReg_setReg (s : State) (r : Reg) (a b : Word) : (s.setReg r a).setReg r b = s.setReg r b := by
  simp [State.setReg]

/-- Each bit of a register after its plain write (spec/00 R9). -/
theorem getLsbD_plainWrite (s : State) (w : Writer) (r : Reg) (v : Word) {b : Nat} (hb : b < 64) :
    ((s.plainWrite w r v).reg r).getLsbD b = if r.w1c.testBit b ∧ v.getLsbD b then false
      else if (r.rwFor w).testBit b then v.getLsbD b else (s.reg r).getLsbD b := by
  rw [State.plainWrite, reg_setReg_same, getLsbD_mergeWrite _ _ _ _ hb]

theorem reg_plainWrite_other (s : State) (w : Writer) {r q : Reg} (v : Word) (h : q.addr ≠ r.addr) :
    (s.plainWrite w r v).reg q = s.reg q := reg_setReg_other s _ h

/-! ### Which write an address gets -/

theorem exec_registerWrite_unnamed {s : State} (h : s.halt = none) (w : Writer) {addr : Nat} (v : Word)
    (hr : Reg.ofAddr addr = none) : exec (.registerWrite w addr v) s = .next s := by
  change execRegisterWrite w addr v s = _
  rw [execRegisterWrite, hr, act_running h]

theorem exec_registerWrite_named {s : State} (h : s.halt = none) (w : Writer) {addr : Nat} (v : Word) {r : Reg}
    (hr : Reg.ofAddr addr = some r) :
    exec (.registerWrite w addr v) s = .next (if s.mayWrite w r then s.writeReg w r v else s) := by
  change execRegisterWrite w addr v s = _
  rw [execRegisterWrite, hr, act_running h]

theorem exec_registerWrite_allowed {s : State} (h : s.halt = none) {w : Writer} {addr : Nat} (v : Word) {r : Reg}
    (hr : Reg.ofAddr addr = some r) (hw : s.mayWrite w r = true) :
    exec (.registerWrite w addr v) s = .next (s.writeReg w r v) := by
  rw [exec_registerWrite_named h w v hr, if_pos hw]

/-! ### What the write of each kind of register does -/

/-- The registers that `plainReg` names take a plain write. -/
theorem writeReg_plain (s : State) (w : Writer) {r : Reg} (v : Word) (h : plainReg r = true) :
    s.writeReg w r v = s.plainWrite w r v := by
  cases r <;> simp [plainReg] at h <;> rfl

/-- The clash that HBMSLOT refuses: a bank that another partition's word holds too (spec/14 R318). -/
def State.slotClash (s : State) (d p : Nat) (v : Word) : Prop := ∃ q < 8, q ≠ p ∧ s.reg (.hbmslot d q) &&& v ≠ 0

theorem any_slotClash (s : State) (d p : Nat) (v : Word) :
    ((List.range 8).any fun q => q != p && s.reg (.hbmslot d q) &&& v != 0) = true ↔ s.slotClash d p v := by
  simp [State.slotClash]

theorem writeReg_hbmslot_clash (s : State) (w : Writer) {d p : Nat} {v : Word} (h : s.slotClash d p v) :
    s.writeReg w (.hbmslot d p) v = { s with slotErr := putFlag s.slotErr (d * 8 + p) true } :=
  if_pos ((any_slotClash s d p v).2 h)

theorem writeReg_hbmslot_clear (s : State) (w : Writer) {d p : Nat} {v : Word} (h : ¬ s.slotClash d p v) :
    s.writeReg w (.hbmslot d p) v = s.plainWrite w (.hbmslot d p) v :=
  if_neg fun c => h ((any_slotClash s d p v).1 c)

theorem rect_addr_ne {q k : Nat} (h : q ≠ k) : (Reg.rect q).addr ≠ (Reg.rect k).addr := by
  change schedBlock + 0x5000 + 8 * q ≠ schedBlock + 0x5000 + 8 * k
  omega

/-- A rectangle's own word is no ground to refuse a value for it (spec/15 R331). -/
theorem rectRefused_setReg_own (s : State) (k : Nat) (a v : Word) :
    (s.setReg (.rect k) a).rectRefused k v = s.rectRefused k v := by
  have e (q : Nat) : (q != k && (s.setReg (.rect k) a).rectValid q &&
        rectsMeet v.toNat ((s.setReg (.rect k) a).reg (.rect q)).toNat) =
      (q != k && s.rectValid q && rectsMeet v.toNat (s.reg (.rect q)).toNat) := by
    by_cases hq : q = k
    · simp [hq]
    · simp only [State.rectValid, State.regField, reg_setReg_other s a (rect_addr_ne hq)]
  simp only [State.rectRefused, e]

theorem writeReg_rect_taken (s : State) (w : Writer) {k : Nat} {v : Word} (h : s.rectRefused k v = false) :
    s.writeReg w (.rect k) v = s.plainWrite w (.rect k) v := by
  simp only [State.writeReg, rectRefused_setReg_own, h, State.plainWrite, reg_setReg_same, setReg_setReg,
    mergeWrite_mergeWrite_zero, Bool.false_eq_true, if_false]

theorem writeReg_rect_refused (s : State) (w : Writer) {k : Nat} {v : Word} (h : s.rectRefused k v = true) :
    s.writeReg w (.rect k) v =
      s.setReg (.rect k) (mergeWrite (s.reg (.rect k)) v 0 (Reg.w1c (.rect k)) ||| 0x4000000000000000) := by
  simp only [State.writeReg, rectRefused_setReg_own, h, if_true, State.setRegBits, reg_setReg_same, setReg_setReg]
  rfl

/-- The bits that CPWRCTL's write takes beside its events: SAVE, CKG and RAILG (1 to 3) fall and never rise, bit 4 is RW and
bit 31 is W1C (spec/16 R361). -/
theorem getLsbD_writeReg_cpwrctl (s : State) (w : Writer) (k : Nat) (v : Word) {b : Nat} (hb : b < 64) :
    ((s.writeReg w (.cpwrctl k) v).reg (.cpwrctl k)).getLsbD b =
      if b = 31 ∧ v.getLsbD b then false else if 1 ≤ b ∧ b ≤ 3 then (s.reg (.cpwrctl k)).getLsbD b && v.getLsbD b
      else if b = 4 then v.getLsbD b else (s.reg (.cpwrctl k)).getLsbD b := by
  have events : ∀ i < 64, (0xE#64).getLsbD i = decide (1 ≤ i ∧ i ≤ 3) := by decide
  have taken : ∀ i < 64, Nat.testBit 0x1E i = decide (1 ≤ i ∧ i ≤ 4) := by decide
  have clears : ∀ i < 64, ((Reg.cpwrctl k).w1c).testBit i = decide (i = 31) := by
    simp only [Reg.w1c, ones]; decide
  simp only [State.writeReg, reg_setReg_same, getLsbD_mergeWrite _ _ _ _ hb, BitVec.getLsbD_and, BitVec.getLsbD_or,
    BitVec.getLsbD_not, events b hb, taken b hb, clears b hb, hb, decide_true, Bool.true_and, decide_eq_true_eq]
  by_cases h31 : b = 31
  · simp [h31]
  by_cases h4 : b = 4
  · simp [h4]
  by_cases hev : 1 ≤ b ∧ b ≤ 3
  · have : 1 ≤ b ∧ b ≤ 4 := by omega
    simp [h31, hev, this, Bool.and_comm]
  · have : ¬ (1 ≤ b ∧ b ≤ 4) := by omega
    simp [h31, h4, hev, this]

/-! ### Tags (spec/15 R331) -/

@[simp] theorem setTag_setTag (s : State) (n : Nat) (x y : Tag) : (s.setTag n x).setTag n y = s.setTag n y := by
  simp [State.setTag]
@[simp] theorem tag_setTag_same (s : State) (n : Nat) (x : Tag) : (s.setTag n x).tag n = x := by simp [tag_setTag]
@[simp] theorem reg_setTag (s : State) (n : Nat) (x : Tag) (r : Reg) : (s.setTag n x).reg r = s.reg r := rfl

theorem findAt_eq_none {α : Type} {p : α → Bool} {l : List α} (h : ∀ x ∈ l, p x = false) (n : Nat) : findAt p l n = none := by
  induction l generalizing n with
  | nil => rfl
  | cons x t ih => simp [findAt, h x (by simp), ih fun y hy => h y (by simp [hy])]

theorem findAt_append_cons {α : Type} {p : α → Bool} {l r : List α} {m : α} (hl : ∀ x ∈ l, p x = false) (hm : p m = true)
    (n : Nat) : findAt p (l ++ m :: r) n = some (n + l.length, m) := by
  induction l generalizing n with
  | nil => simp [findAt, hm]
  | cons x t ih =>
    simp [findAt, hl x (by simp), ih fun y hy => hl y (by simp [hy])]; omega

theorem dropAt_append_cons {α : Type} (l r : List α) (m : α) : dropAt (l ++ m :: r) l.length = l ++ r := by
  induction l with
  | nil => rfl
  | cons x t ih => simp [dropAt, ih]

theorem releaseOldest_all_fired {s : State} {t : Nat} (h : ∀ m ∈ (s.tag t).msgs, m.fired ≠ none) : s.releaseOldest t = s := by
  rw [State.releaseOldest, findAt_eq_none fun m hm => by simpa [Option.isSome_iff_ne_none] using h m hm]

theorem releaseOldest_first_unfired {s : State} {t : Nat} {l r : List Msg} {m : Msg} (e : (s.tag t).msgs = l ++ m :: r)
    (hl : ∀ x ∈ l, x.fired ≠ none) (hm : m.fired = none) :
    s.releaseOldest t = s.setTag t { s.tag t with msgs := l ++ r } := by
  rw [State.releaseOldest, e, findAt_append_cons (fun x hx => by simpa [Option.isSome_iff_ne_none] using hl x hx) (by simp [hm])]
  simp only [Nat.zero_add, dropAt_append_cons]

/-- A release leaves every register alone. -/
theorem reg_releaseOldest (s : State) (t : Nat) (r : Reg) : (s.releaseOldest t).reg r = s.reg r := by
  unfold State.releaseOldest
  split <;> rfl

/-- What a release gives up, the emptying of the tag gives up too. -/
theorem emptyTag_releaseOldest (s : State) (t : Nat) : (s.releaseOldest t).emptyTag t = s.emptyTag t := by
  unfold State.releaseOldest
  split
  · simp [State.emptyTag]
  · rfl

/-- TCTL's V is a bit that every writer may set. -/
theorem tctl_valid_rw (w : Writer) (t : Nat) :
    ((Reg.tctl t).rwFor w).testBit 3 = true ∧ ((Reg.tctl t).w1c).testBit 3 = false := by
  cases w <;> simp only [Reg.rwFor, Reg.rw, Reg.w1c, ones] <;> decide

theorem tctl_valid_plainWrite (s : State) (w : Writer) (t : Nat) (v : Word) :
    ((s.plainWrite w (.tctl t) v).reg (.tctl t)).getLsbD 3 = v.getLsbD 3 := by
  obtain ⟨hrw, hw1c⟩ := tctl_valid_rw w t
  rw [getLsbD_plainWrite s w _ v (show 3 < 64 by omega), if_neg (by simp [hw1c]), if_pos hrw]

theorem regField_bit (s : State) (r : Reg) (b : Nat) : s.regField r b b = if (s.reg r).getLsbD b then 1 else 0 := by
  simp only [State.regField, Nat.add_sub_cancel_left, pow_one, BitVec.getLsbD, Nat.testBit_eq_decide_div_mod_eq,
    decide_eq_true_eq]
  split <;> omega

/-- V written 0 empties the tag, whether REL stands beside it or not (log 31). -/
theorem writeReg_tctl_invalid (s : State) (w : Writer) {t : Nat} {v : Word} (h : v.getLsbD 3 = false) :
    s.writeReg w (.tctl t) v = (s.plainWrite w (.tctl t) v).emptyTag t := by
  have hv : (s.plainWrite w (.tctl t) v).regField (.tctl t) 3 3 = 0 := by
    rw [regField_bit, tctl_valid_plainWrite, h]; rfl
  cases h7 : v.getLsbD 7 with
  | false => simp only [State.writeReg, h7, Bool.false_eq_true, if_false, hv, if_true]
  | true =>
    have hr : ((s.plainWrite w (.tctl t) v).releaseOldest t).regField (.tctl t) 3 3 = 0 := by
      simpa only [State.regField, reg_releaseOldest] using hv
    simp only [State.writeReg, h7, if_true, hr, emptyTag_releaseOldest]

theorem exec_tctlRel {s : State} (h : s.halt = none) (w : Writer) (tag : Nat) : exec (.tctlRel w tag) s =
    .next (if tag < 4096 ∧ s.mayWrite w (.tctl tag) = true then s.releaseOldest tag else s) := act_running h _

theorem exec_tctlInvalidate {s : State} (h : s.halt = none) (w : Writer) (tag : Nat) (v : Word) :
    exec (.tctlInvalidate w tag v) s =
      .next (if tag < 4096 ∧ s.mayWrite w (.tctl tag) = true ∧ v.getLsbD 3 = false then s.writeReg w (.tctl tag) v else s) :=
  act_running h _

/-! ### L1MAP (spec/09 R198, R199) -/

@[simp] theorem updCluster_updCluster (s : State) (c : Nat) (u v : Cluster → Cluster) :
    (s.updCluster c u).updCluster c v = s.updCluster c fun x => v (u x) := by
  simp [State.updCluster, State.setCluster, State.cluster]

/-- L1MAP's two sizes, cut out of a word and put together again, are the word's own fields. -/
theorem l1mapSizes_eq (v : Word) : BitVec.ofNat 64 (v.toNat % 128 + v.toNat / 256 % 64 * 256) = v &&& 0x3F7F := by
  have fields : ∀ i < 64, (0x3F7F : Word).getLsbD i = (decide (i < 7) || (decide (8 ≤ i) && decide (i < 14))) := by decide
  have join : v.toNat % 128 + v.toNat / 256 % 64 * 256 = 2 ^ 8 * (v.toNat / 2 ^ 8 % 2 ^ 6) ||| v.toNat % 2 ^ 7 := by
    rw [← Nat.two_pow_add_eq_or_of_lt (by omega : v.toNat % 2 ^ 7 < 2 ^ 8)]; omega
  refine BitVec.eq_of_getLsbD_eq fun i hi => ?_
  rw [BitVec.getLsbD_ofNat, BitVec.getLsbD_and, fields i hi, join, Nat.testBit_or, Nat.testBit_two_pow_mul,
    Nat.testBit_mod_two_pow, Nat.testBit_mod_two_pow, Nat.testBit_div_two_pow, BitVec.getLsbD]
  by_cases h8 : 8 ≤ i
  · have h6 : i - 8 < 6 ↔ i < 14 := by omega
    have h7 : ¬ i < 7 := by omega
    simp [hi, h8, h6, h7, Nat.sub_add_cancel h8, Bool.and_comm]
  · simp [hi, h8, Bool.and_comm]

/-- The sizes of a value for L1MAP that a cluster takes (spec/09 R198). -/
abbrev l1mapFits (v : Word) : Prop :=
  v.toNat % 128 ≤ 64 ∧ v.toNat / 256 % 64 ≤ 32 ∧ v.toNat % 128 + v.toNat / 256 % 64 ≤ 64

/-- The cluster after a write of L1MAP: ERR falls where it is written 1; the value waits, or ERR rises (spec/09 R198). -/
def Cluster.l1mapWritten (x : Cluster) (v : Word) : Cluster :=
  let map := if v.getLsbD 30 then x.l1map &&& ~~~ 0x40000000#64 else x.l1map
  if l1mapFits v then { x with l1map := map, l1pend := some (v &&& 0x3F7F) } else { x with l1map := map ||| 0x40000000#64 }

theorem exec_l1mapWrite_denied {s : State} (h : s.halt = none) {w : Writer} {c : Nat} (v : Word)
    (hm : ¬ (s.mayWrite w (.l1map c) = true ∧ c < 16)) : exec (.l1mapWrite w c v) s = .next s := by
  have hd : (!s.mayWrite w (.l1map c)) = true ∨ c ≥ 16 := by
    simpa [Classical.or_iff_not_imp_left] using hm
  change execL1mapWrite w c v s = _
  rw [execL1mapWrite, if_pos hd, act_running h]

theorem exec_l1mapWrite_allowed {s : State} (h : s.halt = none) {w : Writer} {c : Nat} (v : Word)
    (hm : s.mayWrite w (.l1map c) = true) (hc : c < 16) :
    exec (.l1mapWrite w c v) s = .next (s.updCluster c (·.l1mapWritten v)) := by
  have hd : ¬ ((!s.mayWrite w (.l1map c)) = true ∨ c ≥ 16) := by simp [hm, hc]
  change execL1mapWrite w c v s = _
  rw [execL1mapWrite, if_neg hd, act_running h]
  by_cases hf : l1mapFits v
  · have hr : ¬ (v.toNat % 128 > 64 ∨ v.toNat / 256 % 64 > 32 ∨ v.toNat % 128 + v.toNat / 256 % 64 > 64) := by omega
    cases h30 : v.getLsbD 30 <;>
      simp only [hr, h30, Cluster.l1mapWritten, if_pos hf, if_false, if_true, Bool.false_eq_true, l1mapSizes_eq,
        updCluster_updCluster]
  · have hr : v.toNat % 128 > 64 ∨ v.toNat / 256 % 64 > 32 ∨ v.toNat % 128 + v.toNat / 256 % 64 > 64 := by omega
    cases h30 : v.getLsbD 30 <;>
      simp only [hr, h30, Cluster.l1mapWritten, if_neg hf, if_false, if_true, Bool.false_eq_true, updCluster_updCluster]

/-- The cluster after a value for L1MAP has taken effect: ERR stays, and its bank pointers are 0 (spec/09 R199). -/
def Cluster.l1mapChanged (x : Cluster) (m : Word) : Cluster :=
  { x with l1map := m ||| (x.l1map &&& 0x40000000), l1pend := none, bankPtr := [] }

theorem exec_l1mapChange_idle {s : State} (h : s.halt = none) {c : Nat} (hp : (s.cluster c).l1pend = none) :
    exec (.l1mapChange c) s = .next s := by
  change execL1mapChange c s = _
  rw [execL1mapChange, hp, act_running h]

theorem exec_l1mapChange_busy {s : State} (h : s.halt = none) {c : Nat} (hb : s.clusterBusy c = true) :
    exec (.l1mapChange c) s = .next s := by
  cases hp : (s.cluster c).l1pend with
  | none => exact exec_l1mapChange_idle h hp
  | some m =>
    change execL1mapChange c s = _
    rw [execL1mapChange, hp, act_running h]
    exact congrArg _ (if_pos hb)

theorem exec_l1mapChange_due {s : State} (h : s.halt = none) {c : Nat} {m : Word} (hp : (s.cluster c).l1pend = some m)
    (hb : s.clusterBusy c = false) :
    exec (.l1mapChange c) s = .next ((s.zeroL1 c).updCluster c (·.l1mapChanged m)) := by
  change execL1mapChange c s = _
  rw [execL1mapChange, hp, act_running h]
  exact congrArg _ (if_neg (by simp [hb]))

@[simp] theorem cluster_zeroL1 (s : State) (c k : Nat) : (s.zeroL1 c).cluster k = s.cluster k := rfl

theorem byte_zeroL1 {s : State} (h : Memory.wf s.mem = true) (c a : Nat) :
    (s.zeroL1 c).byte a = if l1Key c 0 ≤ a ∧ a < l1Key c l1Bytes then 0 else s.byte a := byte_zeroBytes h _ _ a

end Sys2Proof.Machine

/-! ### O43: writes of device registers, tags and L1MAP -/

namespace Sys2Proof.RegisterWrites
open Sys2Proof.Machine

/-- A plain register's write by field types. -/
theorem plain_gives {s : State} (h : s.halt = none) {w : Writer} {addr : Nat} {v : Word} {r : Reg}
    (hr : Reg.ofAddr addr = some r) (hw : s.mayWrite w r = true) (hp : plainReg r = true) :
    Gives (.registerWrite w addr v) s fun t =>
      t = { s with regs := t.regs } ∧ (∀ q, q.addr ≠ r.addr → t.reg q = s.reg q) ∧
      ∀ b < 64, (t.reg r).getLsbD b = if r.w1c.testBit b ∧ v.getLsbD b then false
        else if (r.rwFor w).testBit b then v.getLsbD b else (s.reg r).getLsbD b := by
  refine ⟨s.plainWrite w r v, ?_, rfl, fun q hq => reg_plainWrite_other s w v hq, fun b hb => getLsbD_plainWrite s w r v hb⟩
  rw [exec_registerWrite_allowed h v hr hw, writeReg_plain s w v hp]

theorem hbmslot_write {s : State} (h : s.halt = none) {w : Writer} {addr : Nat} {v : Word} {d p : Nat}
    (hr : Reg.ofAddr addr = some (.hbmslot d p)) (hw : s.mayWrite w (.hbmslot d p) = true) :
    (s.slotClash d p v →
      exec (.registerWrite w addr v) s = .next { s with slotErr := putFlag s.slotErr (d * 8 + p) true }) ∧
    (¬ s.slotClash d p v → exec (.registerWrite w addr v) s = .next (s.plainWrite w (.hbmslot d p) v)) := by
  rw [exec_registerWrite_allowed h v hr hw]
  exact ⟨fun hc => congrArg _ (writeReg_hbmslot_clash s w hc), fun hc => congrArg _ (writeReg_hbmslot_clear s w hc)⟩

theorem rect_write {s : State} (h : s.halt = none) {w : Writer} {addr : Nat} {v : Word} {k : Nat}
    (hr : Reg.ofAddr addr = some (.rect k)) (hw : s.mayWrite w (.rect k) = true) :
    (s.rectRefused k v = false → exec (.registerWrite w addr v) s = .next (s.plainWrite w (.rect k) v)) ∧
    (s.rectRefused k v = true → Gives (.registerWrite w addr v) s fun t => t = { s with regs := t.regs } ∧
      t.reg (.rect k) = mergeWrite (s.reg (.rect k)) v 0 (Reg.w1c (.rect k)) ||| 0x4000000000000000) := by
  have he := exec_registerWrite_allowed h v hr hw
  constructor
  · intro hf
    rw [he, writeReg_rect_taken s w hf]
  · intro hf
    rw [writeReg_rect_refused s w hf] at he
    exact ⟨_, he, rfl, reg_setReg_same ..⟩

theorem cpwrctl_gives {s : State} (h : s.halt = none) {w : Writer} {addr : Nat} {v : Word} {k : Nat}
    (hr : Reg.ofAddr addr = some (.cpwrctl k)) (hw : s.mayWrite w (.cpwrctl k) = true) :
    Gives (.registerWrite w addr v) s fun t =>
      t = { s with regs := t.regs } ∧ ∀ b < 64, (t.reg (.cpwrctl k)).getLsbD b =
        if b = 31 ∧ v.getLsbD b then false else if 1 ≤ b ∧ b ≤ 3 then (s.reg (.cpwrctl k)).getLsbD b && v.getLsbD b
        else if b = 4 then v.getLsbD b else (s.reg (.cpwrctl k)).getLsbD b :=
  ⟨_, exec_registerWrite_allowed h v hr hw, rfl, fun _ hb => getLsbD_writeReg_cpwrctl s w k v hb⟩

theorem chkcnt_gives {s : State} (h : s.halt = none) {w : Writer} {addr : Nat} {v : Word} {k : Nat}
    (hr : Reg.ofAddr addr = some (.chkcnt k)) (hw : s.mayWrite w (.chkcnt k) = true) :
    Gives (.registerWrite w addr v) s fun t =>
      t = { s with cores := t.cores } ∧ ∀ j, t.core j = if j = k * 1024 + (s.reg (.chksel k)).toNat % 1024 then
        { s.core j with checks := (s.core j).checks &&& (2 ^ 32 - 1 - v.toNat % 2 ^ 32) } else s.core j := by
  refine ⟨_, exec_registerWrite_allowed h v hr hw, rfl, fun j => ?_⟩
  have hsel : s.regField (.chksel k) 9 0 = (s.reg (.chksel k)).toNat % 1024 := by simp [State.regField]
  simp only [State.writeReg, core_updCore, hsel]
  split
  · next e => rw [e]
  · rfl

theorem tctl_denied {s : State} (h : s.halt = none) {w : Writer} {tag : Nat} {v : Word}
    (hm : ¬ (tag < 4096 ∧ s.mayWrite w (.tctl tag) = true)) :
    exec (.tctlRel w tag) s = .next s ∧ exec (.tctlInvalidate w tag v) s = .next s := by
  rw [exec_tctlRel h, exec_tctlInvalidate h, if_neg hm, if_neg fun ⟨ht, hw, _⟩ => hm ⟨ht, hw⟩]
  exact ⟨rfl, rfl⟩

/-- REL: the oldest message that fired no launch is released. -/
theorem tctlRel_allowed {s : State} (h : s.halt = none) {w : Writer} {tag : Nat} (ht : tag < 4096)
    (hw : s.mayWrite w (.tctl tag) = true) :
    ((∀ m ∈ (s.tag tag).msgs, m.fired ≠ none) → exec (.tctlRel w tag) s = .next s) ∧
    (∀ l m r, (s.tag tag).msgs = l ++ m :: r → (∀ x ∈ l, x.fired ≠ none) → m.fired = none →
      exec (.tctlRel w tag) s = .next (s.setTag tag { s.tag tag with msgs := l ++ r })) := by
  rw [exec_tctlRel h, if_pos ⟨ht, hw⟩]
  exact ⟨fun ha => congrArg _ (releaseOldest_all_fired ha),
    fun _ _ _ e hl hm => congrArg _ (releaseOldest_first_unfired e hl hm)⟩

/-- V = 0: TCTL takes its word and the tag holds nothing more. -/
theorem tctlInvalidate_gives {s : State} (h : s.halt = none) {w : Writer} {tag : Nat} {v : Word} (ht : tag < 4096)
    (hw : s.mayWrite w (.tctl tag) = true) (hv : v.getLsbD 3 = false) :
    Gives (.tctlInvalidate w tag v) s fun t => t = { s with regs := t.regs, tags := t.tags } ∧
      (t.reg (.tctl tag)).getLsbD 3 = false ∧ (∀ q, q.addr ≠ (Reg.tctl tag).addr → t.reg q = s.reg q) ∧
      ∀ k, t.tag k = if k = tag then { s.tag tag with msgs := [], drop := 0 } else s.tag k := by
  refine ⟨(s.plainWrite w (.tctl tag) v).emptyTag tag, ?_, rfl, ?_, fun q hq => ?_, fun k => ?_⟩
  · rw [exec_tctlInvalidate h, if_pos ⟨ht, hw, hv⟩, writeReg_tctl_invalid s w hv]
  · exact (tctl_valid_plainWrite s w tag v).trans hv
  · exact reg_plainWrite_other s w v hq
  · exact tag_setTag _ tag k _

theorem tctlInvalidate_kept {s : State} (h : s.halt = none) {w : Writer} {tag : Nat} {v : Word} (hv : v.getLsbD 3 = true) :
    exec (.tctlInvalidate w tag v) s = .next s := by
  rw [exec_tctlInvalidate h, if_neg fun ⟨_, _, hf⟩ => Bool.noConfusion (hv.symm.trans hf)]

theorem l1mapWrite_gives {s : State} (h : s.halt = none) {w : Writer} {c : Nat} {v : Word}
    (hm : s.mayWrite w (.l1map c) = true) (hc : c < 16) :
    Gives (.l1mapWrite w c v) s fun t => t = { s with clusters := t.clusters } ∧
      ∀ k, t.cluster k = if k = c then (s.cluster c).l1mapWritten v else s.cluster k :=
  ⟨_, exec_l1mapWrite_allowed h v hm hc, rfl, fun k => cluster_updCluster s c k _⟩

theorem l1mapChange_gives {s : State} (h : s.halt = none) {c : Nat} {m : Word} (hp : (s.cluster c).l1pend = some m)
    (hb : s.clusterBusy c = false) (hwf : Memory.wf s.mem = true) :
    Gives (.l1mapChange c) s fun t => t = { s with clusters := t.clusters, mem := t.mem, poison := t.poison } ∧
      (∀ a, t.byte a = if l1Key c 0 ≤ a ∧ a < l1Key c l1Bytes then 0 else s.byte a) ∧
      ∀ k, t.cluster k = if k = c then (s.cluster c).l1mapChanged m else s.cluster k :=
  ⟨_, exec_l1mapChange_due h hp hb, rfl, byte_zeroL1 hwf c, fun k => cluster_updCluster (s.zeroL1 c) c k _⟩

/-- Settles O43: clause by clause from what each write does to the state. -/
theorem registerWriteEvents : Obligations.RegisterWriteEvents := by
  intro s w addr tag c v h
  refine ⟨exec_registerWrite_unnamed h w v, ?denied, fun _ => plain_gives h, fun _ _ => hbmslot_write h, fun _ => rect_write h,
    fun _ => cpwrctl_gives h, fun _ => chkcnt_gives h, tctl_denied h, ?tag, ?l1map⟩
  case denied =>
    intro r hr hw
    rw [exec_registerWrite_named h w v hr, if_neg (by simp [hw])]
  case tag =>
    intro ht hw
    obtain ⟨hall, hone⟩ := tctlRel_allowed h ht hw
    exact ⟨hall, hone, tctlInvalidate_kept h, tctlInvalidate_gives h ht hw⟩
  case l1map =>
    exact ⟨exec_l1mapWrite_denied h v, fun ⟨hm, hc⟩ => l1mapWrite_gives h hm hc, exec_l1mapChange_idle h,
      exec_l1mapChange_busy h, fun _ => l1mapChange_gives h⟩

end Sys2Proof.RegisterWrites
end

section
/-!
PROOFS. Control registers (spec/01 R21–R31, spec/05 R123, R124): what a number names, the rules of a read and of a write by
register, and what CRD and CWR answer.
-/
namespace Sys2Proof.Machine

/-! ### Updates of one frame -/

theorem updFrame_within (s : State) (f : Nat) (u : Frame → Frame) : Within s (s.updFrame f u) [f] :=
  ⟨rfl, fun _ hk => frame_updFrame_other s u (by simpa using hk), fun _ => rfl⟩

/-- An update of any frame that keeps program counters keeps that of the executing thread. -/
theorem pc_me_updFrame (s : State) (f : Nat) {u : Frame → Frame} (h : ∀ x, (u x).pc = x.pc) :
    (s.updFrame f u).me.pc = s.me.pc := by
  change ((s.updFrame f u).frame s.cur).pc = (s.frame s.cur).pc
  rw [frame_updFrame]
  split
  · next e => rw [h, e]
  · rfl

theorem next_updFrame (s : State) (f : Nat) {u : Frame → Frame} (h : ∀ x, (u x).pc = x.pc) (i : Instr) :
    (s.updFrame f u).next i = s.next i := by
  rw [State.next, State.next, pc_me_updFrame s f h]

/-! ### Numbers and registers (spec/01 R21) -/

/-- The number of a control register. -/
def CReg.num : CReg → Nat
  | .arith => 0 | .flags => 1 | .faultel => 2 | .tcause => 3 | .taddr => 4 | .tretpc => 5 | .tvec => 6
  | .threadid => 7 | .tileid => 8 | .clusterid => 9 | .phase => 10 | .seed => 11 | .wake => 12 | .time => 13 | .cycle => 14
  | .region i => i + 16

/-- The number that names a register is its own. -/
theorem CReg.num_of_ofNum {n : Nat} {r : CReg} (h : CReg.ofNum n = some r) : r.num = n := by
  unfold CReg.ofNum at h
  split at h <;> cases h <;> rfl

/-- The levels that `crAccess` gives a number are those of the register that it names. -/
theorem crAccess_eq (n : Nat) (p : Priv) : crAccess n p = (CReg.ofNum n).map (·.access p) := by
  unfold CReg.ofNum
  split
  case h_20 => simp_all [crAccess]
  all_goals cases p <;> rfl

theorem crAccess_eq_some {n : Nat} {p : Priv} {a : Bool × Bool} :
    crAccess n p = some a ↔ ∃ r, CReg.ofNum n = some r ∧ r.access p = a := by
  rw [crAccess_eq, Option.map_eq_some_iff]

theorem crAccess_eq_none {n : Nat} {p : Priv} : crAccess n p = none ↔ CReg.ofNum n = none := by
  rw [crAccess_eq, Option.map_eq_none_iff]

/-! ### What a register's read and write do, by its number (spec/01 R22, spec/05 R123, R124) -/

theorem CReg.crFrame_num (s : State) (r : CReg) : crFrame s r.num = s.cregFrame s.cur r := by
  cases r <;> simp [crFrame, CReg.num, State.cregFrame]

theorem CReg.crValue_num (s : State) (r : CReg) : crValue s r.num = s.readCreg s.cur r := by
  simp only [State.readCreg, ← r.crFrame_num s]
  cases r <;> rfl

theorem arithWritten_eq (old v : Word) (p : Priv) :
    arithWritten old v p = if p = .u then (v &&& 0xFFFF) ||| (old &&& 0x10000) else v &&& 0x1FFFF := by
  unfold arithWritten
  split
  · rfl
  · simp

/-- A register that a level may write takes a value as its field types and special cases say. -/
theorem CReg.crWritten_num {r : CReg} {p : Priv} (h : (r.access p).2 = true) (v : Word) (x : Frame) :
    crWritten r.num p v x = r.write p v x := by
  cases r with
  | threadid | tileid | clusterid | time | cycle => simp [CReg.access] at h
  | arith => simp [crWritten, CReg.num, CReg.write, arithWritten_eq]
  | _ => rfl

theorem CReg.write_pc (r : CReg) (p : Priv) (v : Word) (x : Frame) : (r.write p v x).pc = x.pc := by
  cases r <;> rfl

/-- ARITH is number 0, and every level may write it. -/
theorem CReg.eq_arith_iff {n : Nat} {r : CReg} (h : CReg.ofNum n = some r) : r = .arith ↔ n = 0 := by
  rw [← CReg.num_of_ofNum h]
  cases r <;> simp [CReg.num]

/-! ### What CRD and CWR answer -/

theorem crd_length (o : Opnd) : (encode (.crd o)).length = o.halves 3 :=
  (encode_length (i := .crd o) rfl rfl :)

theorem cwr_length (o : Opnd) : (encode (.cwr o)).length = o.halves 3 :=
  (encode_length (i := .cwr o) rfl rfl :)

theorem exec_crd_unnamed {s : State} (h : s.halt = none) {o : Opnd} (hr : CReg.ofNum o.rb = none) :
    exec (.crd o) s = .next (s.illegalValue (.crd o)) := by
  change execCrd o s = _
  rw [execCrd, hr, act_running h]

theorem exec_crd_named {s : State} (h : s.halt = none) {o : Opnd} {r : CReg} (hr : CReg.ofNum o.rb = some r) :
    exec (.crd o) s = .next (if (r.access s.me.priv).1 then (s.setG o.ra (s.readCreg s.cur r)).advance (o.halves 3)
      else s.cregDenied o.rb 2) := by
  change execCrd o s = _
  rw [execCrd, hr, act_running h]

theorem exec_cwr_unnamed {s : State} (h : s.halt = none) {o : Opnd} (hr : CReg.ofNum o.ra = none) :
    exec (.cwr o) s = .next (s.illegalValue (.cwr o)) := by
  change execCwr o s = _
  rw [execCwr, hr, act_running h]

theorem exec_cwr_denied {s : State} (h : s.halt = none) {o : Opnd} {r : CReg} (hr : CReg.ofNum o.ra = some r)
    (hw : (r.access s.me.priv).2 = false) : exec (.cwr o) s = .next (s.cregDenied o.ra 3) := by
  change execCwr o s = _
  rw [execCwr, hr, act_running h]
  simp only [hw, Bool.not_false, if_true]

theorem exec_cwr_writable {s : State} (h : s.halt = none) {o : Opnd} {r : CReg} (hr : CReg.ofNum o.ra = some r)
    (hw : (r.access s.me.priv).2 = true) :
    exec (.cwr o) s = .next (if o.ra = 0 ∧ 4 < (s.g o.rb).toNat % 8 then s.illegalAddr (.cwr o) (s.g o.rb)
      else (s.updFrame (s.cregFrame s.cur r) (r.write s.me.priv (s.g o.rb))).advance (o.halves 3)) := by
  change execCwr o s = _
  rw [execCwr, hr, act_running h]
  simp only [hw, Bool.not_true, Bool.false_eq_true, if_false, CReg.eq_arith_iff hr, gt_iff_lt]

end Sys2Proof.Machine

/-! ### O30: CRD and CWR under the levels of the control registers -/

namespace Sys2Proof.ControlRegisters
open Sys2Proof.Machine

theorem crd_reads {s : State} (h : s.halt = none) {o : Opnd} {w : Bool} (ha : crAccess o.rb s.me.priv = some (true, w)) :
    ∃ t, exec (.crd o) s = .next t ∧ WritesG s t o.ra (crValue s o.rb) (s.next (.crd o)) := by
  obtain ⟨r, hr, ha⟩ := crAccess_eq_some.1 ha
  have hv : crValue s o.rb = s.readCreg s.cur r := by rw [← CReg.num_of_ofNum hr, r.crValue_num s]
  refine ⟨_, exec_crd_named h hr, ?_⟩
  rw [ha, hv]
  exact setG_advance_writesG s o.ra _ (crd_length o)

theorem crd_denied {s : State} (h : s.halt = none) {o : Opnd} {w : Bool} (ha : crAccess o.rb s.me.priv = some (false, w)) :
    exec (.crd o) s = .next (s.trap 0x10 2 (BitVec.ofNat 64 o.rb)) := by
  obtain ⟨r, hr, ha⟩ := crAccess_eq_some.1 ha
  rw [exec_crd_named h hr, ha]
  rfl

theorem cwr_writes {s : State} (h : s.halt = none) {o : Opnd} {b : Bool} (ha : crAccess o.ra s.me.priv = some (b, true))
    (hv : ¬ (o.ra = 0 ∧ 4 < (s.g o.rb).toNat % 8)) :
    ∃ u t, exec (.cwr o) s = .next t ∧ Within s u [crFrame s o.ra] ∧
      u.frame (crFrame s o.ra) = crWritten o.ra s.me.priv (s.g o.rb) (s.frame (crFrame s o.ra)) ∧
      GoesTo u t (s.next (.cwr o)) := by
  obtain ⟨r, hr, ha⟩ := crAccess_eq_some.1 ha
  have hw : (r.access s.me.priv).2 = true := by rw [ha]
  rw [exec_cwr_writable h hr hw, if_neg hv, ← CReg.num_of_ofNum hr, r.crFrame_num s, CReg.crWritten_num hw]
  refine ⟨_, _, rfl, updFrame_within s _ _, frame_updFrame_same s _ _, ?_⟩
  rw [← next_updFrame s (s.cregFrame s.cur r) (r.write_pc s.me.priv (s.g o.rb))]
  exact advance_goesTo _ (cwr_length o)

/-- Every level may write ARITH, so a reserved RND is what a write of it can trap for (spec/01 R21). -/
theorem cwr_reserved_rnd {s : State} (h : s.halt = none) {o : Opnd} (h0 : o.ra = 0) (hv : 4 < (s.g o.rb).toNat % 8) :
    exec (.cwr o) s = .next (s.illegalAddr (.cwr o) (s.g o.rb)) := by
  have hr : CReg.ofNum o.ra = some .arith := by rw [h0]; rfl
  rw [exec_cwr_writable h hr rfl, if_pos ⟨h0, hv⟩]

theorem cwr_denied {s : State} (h : s.halt = none) {o : Opnd} {b : Bool} (ha : crAccess o.ra s.me.priv = some (b, false)) :
    exec (.cwr o) s = .next (s.trap 0x10 3 (BitVec.ofNat 64 o.ra)) := by
  obtain ⟨r, hr, ha⟩ := crAccess_eq_some.1 ha
  exact exec_cwr_denied h hr (by rw [ha])

/-- Settles O30: the levels, values and writes that a number names are those of the model's register of that number. -/
theorem controlRegisters : Obligations.ControlRegisters := by
  intro o s h
  exact ⟨fun _ => crd_reads h, fun _ => crd_denied h, fun ha => exec_crd_unnamed h (crAccess_eq_none.1 ha),
    fun _ => cwr_writes h, cwr_reserved_rnd h, fun _ => cwr_denied h, fun ha => exec_cwr_unnamed h (crAccess_eq_none.1 ha)⟩

end Sys2Proof.ControlRegisters
end

section
/-!
PROOFS. Branches, jumps, calls and returns (spec/04 R103–R107, spec/03 R60): what each answers, and where it goes; zeroed memory
and NOP (spec/03 R66).
-/
namespace Sys2Proof.Machine

/-! ### Targets -/

/-- The model's target of a displacement is that of spec/03 R60. -/
theorem ofNat_target (s : State) (disp : Int) : BitVec.ofNat 48 (s.target disp) = branchTarget s disp := by
  rw [State.target, BitVec.ofNat_toNat, BitVec.setWidth_eq, branchTarget, BitVec.ofInt_add, BitVec.ofInt_natCast,
    BitVec.ofNat_toNat, BitVec.setWidth_eq]

/-- A branch goes to its target or on. -/
theorem condBranch_goesTo (s : State) {i : Instr} {n : Nat} (hn : (encode i).length = n) (disp : Int) (take : Bool) :
    GoesTo s (s.condBranch n disp take) (if take then branchTarget s disp else s.next i) := by
  cases take with
  | true => exact ofNat_target s disp ▸ jumpTo_goesTo s (s.target disp)
  | false => exact advance_goesTo s hn

/-- An instruction that branches when `b` holds is a branch that is taken when `b` holds. -/
theorem branchRule_of_exec {s : State} {i : Instr} {n : Nat} {disp : Int} {b take : Bool} (hs : s.halt = none)
    (hn : (encode i).length = n) (he : exec i s = s.act (s.condBranch n disp b)) (hb : b = take) :
    BranchRule s i disp take :=
  ⟨s.condBranch n disp b, he.trans (act_running hs _), hb ▸ condBranch_goesTo s hn disp b⟩

/-! ### Bits of a predicate (spec/04 R104) -/

theorem any_testBit_range (p w : Nat) : (List.range w).any p.testBit = decide (p % 2 ^ w ≠ 0) := by
  rw [Bool.eq_iff_iff, List.any_eq_true, decide_eq_true_iff]
  constructor
  · rintro ⟨i, hi, hp⟩ h0
    have := Nat.testBit_mod_two_pow p w i
    simp [h0, List.mem_range.1 hi, hp] at this
  · intro h
    obtain ⟨i, hi⟩ := Nat.exists_testBit_of_ne_zero h
    rw [Nat.testBit_mod_two_pow, Bool.and_eq_true, decide_eq_true_iff] at hi
    exact ⟨i, List.mem_range.2 hi.1, hi.2⟩

theorem all_testBit_range (p w : Nat) : (List.range w).all p.testBit = decide (p % 2 ^ w = 2 ^ w - 1) := by
  rw [Bool.eq_iff_iff, List.all_eq_true, decide_eq_true_iff]
  constructor
  · intro h
    refine Nat.eq_of_testBit_eq fun i => ?_
    rw [Nat.testBit_mod_two_pow, Nat.testBit_two_pow_sub_one]
    by_cases hi : i < w
    · simp [hi, h i (List.mem_range.2 hi)]
    · simp [hi]
  · intro h i hi
    have hi := List.mem_range.1 hi
    have := Nat.testBit_mod_two_pow p w i
    rw [h, Nat.testBit_two_pow_sub_one] at this
    simpa [hi] using this.symm

theorem not_any_testBit_range (p w : Nat) : (!(List.range w).any p.testBit) = decide (p % 2 ^ w = 0) := by
  rw [any_testBit_range, decide_not, Bool.not_not]

theorem not_all_testBit_range (p w : Nat) : (!(List.range w).all p.testBit) = decide (p % 2 ^ w ≠ 2 ^ w - 1) := by
  rw [all_testBit_range, decide_not]

/-! ### Links and returns (spec/04 R105–R107) -/

theorem exec_jmp_gives {s : State} (h : s.halt = none) (o : Opnd) :
    ∃ t, exec (.jmp o) s = .next t ∧ GoesTo s t (branchTarget s o.bdisp) :=
  ⟨_, act_running h _, ofNat_target s o.bdisp ▸ jumpTo_goesTo s _⟩

theorem exec_call_gives {s : State} (h : s.halt = none) (o : Opnd) :
    ∃ t, exec (.call o) s = .next t ∧ Links s t (.call o) (branchTarget s o.bdisp) :=
  ⟨_, act_running h _, ofNat_target s o.bdisp ▸ setG_jumpTo_links s _ (encode_length (i := .call o) rfl rfl :)⟩

theorem exec_ret {s : State} (h : s.halt = none) (o : Opnd) : exec (.ret o) s = .next
    (if (s.g 1).toNat % 2 = 0 then s.trap 0x03 4 (s.g 1)
      else if (s.g 1).toNat ≥ 2 ^ 48 then s.trap 0x03 5 (s.g 1 &&& ~~~ 1) else s.jumpTo ((s.g 1).toNat - 1)) :=
  act_running h _

theorem linkMark_eq (w : Word) : w.getLsbD 0 = decide (w.toNat % 2 = 1) := by
  simp only [BitVec.getLsbD, Nat.testBit_zero]

/-- An odd address without its link mark. -/
theorem ofNat_sub_link {w : Word} (h : w.toNat % 2 = 1) : BitVec.ofNat 48 (w.toNat - 1) = w.setWidth 48 &&& ~~~ 1 := by
  refine BitVec.eq_of_getLsbD_eq fun i hi => ?_
  rw [BitVec.getLsbD_and, BitVec.getLsbD_not, BitVec.getLsbD_setWidth, BitVec.getLsbD_ofNat, ← BitVec.testBit_toNat w]
  have h1 : (1 : BitVec 48).getLsbD i = decide (i = 0) := by simp [BitVec.getLsbD_one]
  rw [h1]
  cases i with
  | zero =>
    have h0 : (w.toNat - 1) % 2 ≠ 1 := by omega
    simp [Nat.testBit_zero, h0]
  | succ i =>
    have hd : (w.toNat - 1) / 2 = w.toNat / 2 := by omega
    simp [Nat.testBit_succ, hd, hi]

end Sys2Proof.Machine

namespace Sys2Proof.Branches
open Sys2Proof.Machine

theorem conditionalBranchTarget : ConditionalBranchTarget := by
  intro o s h
  refine ⟨branchRule_of_exec h (encode_length rfl rfl) rfl rfl, branchRule_of_exec h (encode_length rfl rfl) rfl rfl,
    branchRule_of_exec h (encode_length rfl rfl) rfl ?_, branchRule_of_exec h (encode_length rfl rfl) rfl ?_,
    branchRule_of_exec h (encode_length rfl rfl) rfl ?_, branchRule_of_exec h (encode_length rfl rfl) rfl ?_⟩
  · simp [BitVec.slt]
  · simp [BitVec.sle]
  · simp [BitVec.ult]
  · simp [BitVec.ule]

theorem predicateBranchTarget : PredicateBranchTarget := by
  intro o s h
  refine branchRule_of_exec h (encode_length rfl rfl) rfl ?_
  generalize o.ra / 8 = cond
  rcases cond with _ | _ | _ | cond
  · exact (any_testBit_range ..).symm
  · exact (all_testBit_range ..).symm
  · exact (not_any_testBit_range ..).symm
  · exact (not_all_testBit_range ..).symm

theorem jumpCallReturnTarget : JumpCallReturnTarget := by
  intro o s h
  have hret := exec_ret h o
  refine ⟨exec_jmp_gives h o, exec_call_gives h o, ?_, ?_, ?_⟩
  · intro hmark hlt
    have hodd : (s.g 1).toNat % 2 = 1 := by simpa only [linkMark_eq, decide_eq_true_eq] using hmark
    rw [if_neg (by omega), if_neg (by omega)] at hret
    exact ⟨_, hret, ofNat_sub_link hodd ▸ jumpTo_goesTo s _⟩
  · intro hmark
    have heven : (s.g 1).toNat % 2 = 0 := by simpa only [linkMark_eq, decide_eq_false_iff_not, Nat.mod_two_ne_one] using hmark
    rw [hret, if_pos heven]
  · intro hmark hge
    have hodd : (s.g 1).toNat % 2 = 1 := by simpa only [linkMark_eq, decide_eq_true_eq] using hmark
    rw [hret, if_neg (by omega), if_pos hge]

/-- Settles O3: the shared operations go where the rules say, and each comparison is the one that the model makes. -/
theorem branchesReachTheirTarget : Obligations.BranchesReachTheirTarget :=
  ⟨conditionalBranchTarget, predicateBranchTarget, jumpCallReturnTarget⟩

end Sys2Proof.Branches

/-! ### O60: zeroed memory and NOP (spec/03 R66) -/

namespace Sys2Proof.ZeroedMemory
open Sys2Proof.Machine

/-- A write of g0 is discarded. -/
theorem setG_zero_advance_goesTo (s : State) (w : Word) {i : Instr} {n : Nat} (hn : (encode i).length = n) :
    GoesTo s ((s.setG 0 w).advance n) (s.next i) := by
  obtain ⟨hwithin, -, -⟩ := setG_advance_writesG s 0 w hn
  refine ⟨hwithin, ?_⟩
  rw [advance_me, setG_me, setGr_zero, State.next, hn]

theorem select_zero (page n : Nat) : select page 0 n = none := by
  match page with
  | 0 | 1 | 2 | _ + 3 => rfl

theorem exec_nop_goesTo {s : State} (h : s.halt = none) : ∃ u, exec (.or ⟨0, 0, none, none, none, []⟩) s = .next u ∧
    GoesTo s u (s.next (.or ⟨0, 0, none, none, none, []⟩)) :=
  ⟨_, act_running h _, setG_zero_advance_goesTo s _ rfl⟩

/-- Settles O60: no page assigns major 0, and NOP writes g0. -/
theorem zeroedMemoryTraps : Obligations.ZeroedMemoryTraps := by
  intro t s f h
  have hzero : decode (0x0000 :: t) = .error (.illegal 0) := rfl
  refine ⟨select_zero, hzero, ?_, rfl, exec_nop_goesTo h⟩
  change execIllegalInstruction f (0x0000 :: t) s = _
  rw [execIllegalInstruction, hzero, act_running h]
  rfl

end Sys2Proof.ZeroedMemory
end

section
/-!
PROOFS. Traps at an instruction boundary (spec/03 R65, R67, spec/04 R100, spec/05 R112, spec/06 R134), and what a step notes of a
trap that it takes (spec/06 R144).
-/
namespace Sys2Proof.Machine

/-! ### The earliest late outcome (spec/05 R112) -/

theorem earliestLate_eq_none {l : List Late} (h : earliestLate l = none) : l = [] := by
  cases l with
  | nil => rfl
  | cons x t =>
    rw [earliestLate] at h
    split at h
    · split at h <;> cases h
    · cases h

/-- What is taken stands first in program order, and the others are kept. -/
theorem earliestLate_eq_some {l r : List Late} {m : Late} (h : earliestLate l = some (m, r)) :
    (m :: r).Perm l ∧ ∀ x ∈ l, m.seq ≤ x.seq := by
  induction l generalizing m r with
  | nil => cases h
  | cons x t ih =>
    rw [earliestLate] at h
    split at h
    · next y r' hy =>
      obtain ⟨hperm, hmin⟩ := ih hy
      split at h
      · next hlt =>
        cases h
        exact ⟨(List.Perm.swap x m r').trans (hperm.cons x), List.forall_mem_cons.2 ⟨Nat.le_of_lt hlt, hmin⟩⟩
      · next hge =>
        cases h
        exact ⟨.refl _, List.forall_mem_cons.2 ⟨Nat.le_refl _, fun z hz => (Nat.le_of_not_lt hge).trans (hmin z hz)⟩⟩
    · next hn =>
      cases h
      rw [earliestLate_eq_none hn]
      exact ⟨.refl _, by simp⟩

/-! ### What the events answer -/

theorem exec_lateOutcomeTrap {s : State} (h : s.halt = none) (f : Nat) : exec (.lateOutcomeTrap f) s =
    .next (if (s.frame f).stat ≠ .ready ∨ (s.frame f).frozen then s else s.takeLate f) := act_running h _

/-- A thread without a late outcome takes none. -/
theorem takeLate_nil {s : State} {f : Nat} (h : (s.frame f).late = []) : s.takeLate f = s := by
  simp only [State.takeLate, h, earliestLate]

/-- A thread with late outcomes takes the earliest, and parks for no page fault that is resolved. -/
theorem takeLate_gives {s : State} {f : Nat} (h : (s.frame f).late ≠ []) : ∃ l rest, (l :: rest).Perm (s.frame f).late ∧
    (∀ m ∈ (s.frame f).late, l.seq ≤ m.seq) ∧
    s.takeLate f = ((s.updFrame f fun y => { y with late := rest }).takeTrap f
      ⟨l.cause, l.detail, BitVec.ofNat 64 l.addr, (s.frame f).pc⟩).tryUnpark f := by
  cases he : earliestLate (s.frame f).late with
  | none => exact absurd (earliestLate_eq_none he) h
  | some p =>
    obtain ⟨l, rest⟩ := p
    obtain ⟨hperm, hmin⟩ := earliestLate_eq_some he
    exact ⟨l, rest, hperm, hmin, by simp only [State.takeLate, he]⟩

theorem exec_illegalInstruction_ok {s : State} (h : s.halt = none) (f : Nat) {chain : List Half} {i : Instr} {n : Nat}
    (hd : decode chain = .ok (i, n)) : exec (.illegalInstruction f chain) s = .next s := by
  change execIllegalInstruction f chain s = _
  rw [execIllegalInstruction, hd, act_running h]

theorem exec_illegalInstruction_chain {s : State} (h : s.halt = none) (f : Nat) {chain : List Half} {r pos : Nat} {x : Half}
    (hd : decode chain = .error (.chain r pos x)) : exec (.illegalInstruction f chain) s =
      .next (s.takeTrap f ⟨0x02, r + pos * 16, x.setWidth 64, (s.frame f).pc⟩) := by
  change execIllegalInstruction f chain s = _
  rw [execIllegalInstruction, hd, act_running h]

theorem exec_illegalInstruction_illegal {s : State} (h : s.halt = none) (f : Nat) {chain : List Half} {kind : Nat}
    (hd : decode chain = .error (.illegal kind)) : exec (.illegalInstruction f chain) s = .next (s.takeTrap f
      ⟨0x01, (chainHalves chain 5).length - 1 + kind * 8, chainWord (chainHalves chain 5), (s.frame f).pc⟩) := by
  change execIllegalInstruction f chain s = _
  rw [execIllegalInstruction, hd, act_running h]
  rfl

end Sys2Proof.Machine

/-! ### O35: late outcomes, illegal chains and fetch faults -/

namespace Sys2Proof.BoundaryTraps
open Sys2Proof.Machine

/-- Settles O35: what a thread takes first is the least of its late outcomes, and a chain traps as its decoding fails. -/
theorem boundaryTrapEvents : Obligations.BoundaryTrapEvents := by
  intro s f addr cause chain h
  refine ⟨fun hidle => ?idle, fun hready hrun hlate => ?late, fun _ _ => exec_illegalInstruction_ok h f,
    fun _ _ _ => exec_illegalInstruction_chain h f, fun _ => exec_illegalInstruction_illegal h f, act_running h _⟩
  case idle =>
    rw [exec_lateOutcomeTrap h]
    split
    · rfl
    · next hn => rw [takeLate_nil (by tauto)]
  case late =>
    obtain ⟨l, rest, hperm, hmin, e⟩ := takeLate_gives hlate
    exact ⟨l, rest, hperm, hmin, by rw [exec_lateOutcomeTrap h, if_neg (by simp [hready, hrun]), e]⟩

end Sys2Proof.BoundaryTraps

/-! ### O54: a step and the retry state of a core -/

namespace Sys2Proof.StepTurns
open Sys2Proof.Machine

/-- Slot 0 of core 0 stands before the halfword 0, which is no instruction, while the checkers of its core repeat an instruction
of it (spec/06 R144). -/
def retryingAtZero : State :=
  { State.reset with
      frames := [(0, { Frame.empty .slot with stat := .ready, ibuf := [(0, [0, 0])] })]
      cores := [(0, { CoreSt.empty with retry := some 0 })]
      tape := [.issue 0] }

/-- The retry state of core 0 in the next state. -/
def retryAfter : Out → Option Nat
  | .next t => (t.core 0).retry
  | _ => none

theorem retryingAtZero_atBoundary : AtBoundary { retryingAtZero with tape := [] } 0 :=
  ⟨rfl, rfl, rfl, rfl, rfl, rfl, rfl, rfl, rfl⟩

/-- The step that traps ends the retry state. -/
theorem retryAfter_step : retryAfter (step retryingAtZero) = none := rfl

/-- The trap alone keeps it. -/
theorem retryAfter_illegalInstruction :
    retryAfter (onNext (execIllegalInstruction 0 [0] { retryingAtZero with tape := [] }) fun v => v.pass v.ckRate v.fkRate) =
      some 0 := rfl

/-- Refutes O54: by its last clause a step whose chain decodes to none changes what the trap and the time change and no more; but
the turn of a frame also notes that it has trapped (`State.committedBy`), which ends the retry state of its core. -/
theorem not_stepRunsTurns : ¬ Obligations.StepRunsTurns := by
  rintro ⟨hdecoded, -⟩
  obtain ⟨-, -, -, herror⟩ := hdecoded retryingAtZero { retryingAtZero with tape := [] } 0 0 [] .packageFatal [0] rfl rfl
    retryingAtZero_atBoundary
  have hfetched : Buffered (({ retryingAtZero with tape := [] } : State).frame 0) 0 [0] := ⟨⟨_, rfl, rfl⟩, trivial⟩
  have hbase : ∀ h, ([0] : List Half).getLast? = some h → h.isPfx = false := fun _ e => by cases e; decide
  have hstep := herror (.illegal 0) ⟨by simp, by simp, by simp, hbase, hfetched⟩ rfl
  have := congrArg retryAfter hstep
  rw [retryAfter_step, retryAfter_illegalInstruction] at this
  cases this

end Sys2Proof.StepTurns
end

section
/-!
PROOFS. Encoding (spec/03 R57–R67, R70–R73): the opcode maps read both ways, halfwords and their fields, the prefixes of a chain
read and written, and that decoder and encoder agree.
-/
namespace Sys2Proof.Machine

/-! ### The opcode maps (spec/03 R70–R73) -/

/-- The row of a selected instruction is the one that its codes name. -/
theorem row_of_select {page major n : Nat} {mk : Opnd → Instr} (hp : page ≤ 3) (hs : select page major n = some mk) (o : Opnd) :
    ∃ f, form (mk o) = some f ∧ opnd (mk o) = some o ∧ f.page = page ∧ f.major = major ∧ f.minor.getD n = n := by
  interval_cases page
  all_goals
    simp only [select, selectPage0, selectPage1, selectPage2, selectPage3] at hs
    repeat' split at hs
    all_goals cases hs <;> exact ⟨_, rfl, rfl, rfl, rfl, rfl⟩

/-- The codes of a row select its own instruction, if they select one. -/
theorem mk_of_select {i : Instr} {f : Form} {o : Opnd} {n : Nat} {mk : Opnd → Instr} (hf : form i = some f)
    (ho : opnd i = some o) (hs : select f.page f.major (f.minor.getD n) = some mk) : mk o = i := by
  cases i with
  | amo o =>
    cases hf; cases ho
    obtain ⟨-, h⟩ := Option.ite_none_right_eq_some.1 hs
    cases h; rfl
  | _ => cases hf <;> (cases ho; cases hs; rfl)

/-- Four pages, and no major of the prefixes (spec/03 R57, R62). -/
theorem form_bounds {i : Instr} {f : Form} (hf : form i = some f) : f.page ≤ 3 ∧ f.major < 0x38 := by
  cases i <;> cases hf <;> exact ⟨Nat.le_of_ble_eq_true rfl, Nat.le_of_ble_eq_true rfl⟩

/-- The kinds of prefixes present are those that the row takes (spec/03 R63). -/
def Form.Takes (f : Form) (o : Opnd) : Prop :=
  f.pxm.ok o.m.isSome ∧ f.pxv.ok o.v.isSome ∧ f.pxr.ok o.r.isSome ∧ f.pxi.ok (o.i ≠ [])

/-- The row `f` and the fields `o` are those of the instruction, and break none of the checks 3 to 5 of spec/03 R67. -/
structure Form.Accepts (f : Form) (i : Instr) (o : Opnd) : Prop where
  form     : form i = some f
  opnd     : opnd i = some o
  minor    : f.minor.getD o.b.toNat = o.b.toNat
  assigned : (select f.page f.major o.b.toNat).isSome
  takes    : f.Takes o
  sound    : f.bad = none

theorem Form.admits_iff (f : Form) (o : Opnd) : f.admits o = true ↔
    f.Takes o ∧ chainPrefixes f.page o ≤ 4 ∧ f.minor.getD o.b.toNat = o.b.toNat ∧ f.bad = none := by
  obtain ⟨page, major, minor, pxi, pxr, pxv, pxm, bad⟩ := f
  cases minor with
  | none =>
    simp only [Form.Takes, Form.admits, Bool.and_eq_true, decide_eq_true_iff, Option.isNone_iff_eq_none, Option.getD_none]
    tauto
  | some k =>
    simp only [Form.Takes, Form.admits, Bool.and_eq_true, decide_eq_true_iff, Option.isNone_iff_eq_none, Option.getD_some,
      beq_iff_eq]
    tauto

theorem wellFormed_iff (i : Instr) : i.WellFormed ↔ ∃ (f : Form) (o : Opnd), f.Accepts i o ∧ chainPrefixes f.page o ≤ 4 := by
  constructor
  · intro h
    rw [Instr.WellFormed, Instr.wf] at h
    split at h
    · next f o hf ho =>
      rw [Bool.and_eq_true, Form.admits_iff] at h
      obtain ⟨⟨ht, hc, hm, hb⟩, ha⟩ := h
      exact ⟨f, o, ⟨hf, ho, hm, ha, ht, hb⟩, hc⟩
    · cases h
  · rintro ⟨f, o, ⟨hf, ho, hm, ha, ht, hb⟩, hc⟩
    simp only [Instr.WellFormed, Instr.wf, hf, ho, Bool.and_eq_true]
    exact ⟨(f.admits_iff o).2 ⟨ht, hc, hm, hb⟩, ha⟩

end Sys2Proof.Machine

namespace Sys2Proof
open Machine

/-! ### Halfwords and their fields (spec/03 R57, R58, R61) -/

theorem Pxm.ofBits_bits (p : Pxm) : Pxm.ofBits p.bits = p := by
  obtain ⟨scope, ord, cp, bl⟩ := p
  simp only [Pxm.ofBits, Pxm.bits, Pxm.mk.injEq]
  grind

theorem Pxm.bits_ofBits (x : BitVec 10) : (Pxm.ofBits x).bits = x := by
  simp only [Pxm.ofBits, Pxm.bits]
  grind

theorem Pxv.ofBits_bits (p : Pxv) : Pxv.ofBits p.bits = p := by
  obtain ⟨et, zm, pinv, et2⟩ := p
  simp only [Pxv.ofBits, Pxv.bits, Pxv.mk.injEq]
  grind

theorem Pxv.bits_ofBits (x : BitVec 10) : (Pxv.ofBits x).bits = x := by
  simp only [Pxv.ofBits, Pxv.bits]
  grind

theorem Pxr.ofBits_bits (p : Pxr) : Pxr.ofBits p.bits = p := by
  obtain ⟨c, sel, pg⟩ := p
  simp only [Pxr.ofBits, Pxr.bits, Pxr.mk.injEq]
  grind

theorem Pxr.bits_ofBits (x : BitVec 10) : (Pxr.ofBits x).bits = x := by
  simp only [Pxr.ofBits, Pxr.bits]
  grind

theorem toNat_pfxHalf (k : Nat) (x : BitVec 10) : (pfxHalf k x).toNat = k % 64 * 1024 + x.toNat := by
  rw [pfxHalf, BitVec.toNat_append, BitVec.toNat_ofNat, ← Nat.shiftLeft_add_eq_or_of_lt x.isLt, Nat.shiftLeft_eq]

theorem major_pfxHalf {k : Nat} (hk : k < 64) (x : BitVec 10) : (pfxHalf k x).major = k := by
  have := x.isLt
  rw [Half.major, toNat_pfxHalf]
  omega

theorem low_pfxHalf (k : Nat) (x : BitVec 10) : (pfxHalf k x).low = x := by
  simp only [Half.low, pfxHalf]
  grind

theorem pfxHalf_major_low (h : Half) : pfxHalf h.major h.low = h := by
  apply BitVec.eq_of_toNat_eq
  have := h.isLt
  rw [toNat_pfxHalf, Half.major, Half.low, BitVec.toNat_setWidth]
  omega

/-- The base halfword of a major code and the fields A and B (spec/03 R58). -/
def baseHalf (major : Nat) (a b : BitVec 5) : Half := BitVec.ofNat 6 major ++ a ++ b

theorem baseHalf_eq_pfxHalf (k : Nat) (a b : BitVec 5) : baseHalf k a b = pfxHalf k (a ++ b) := by
  simp only [baseHalf, pfxHalf]
  grind

theorem major_baseHalf {k : Nat} (hk : k < 64) (a b : BitVec 5) : (baseHalf k a b).major = k := by
  rw [baseHalf_eq_pfxHalf, major_pfxHalf hk]

theorem a_baseHalf (k : Nat) (a b : BitVec 5) : (baseHalf k a b).extractLsb' 5 5 = a := by
  simp only [baseHalf]
  grind

theorem b_baseHalf (k : Nat) (a b : BitVec 5) : (baseHalf k a b).extractLsb' 0 5 = b := by
  simp only [baseHalf]
  grind

theorem baseHalf_fields (h : Half) : baseHalf h.major (h.extractLsb' 5 5) (h.extractLsb' 0 5) = h := by
  have hlow : h.extractLsb' 5 5 ++ h.extractLsb' 0 5 = h.low := by
    rw [Half.low]
    grind
  rw [baseHalf_eq_pfxHalf, hlow, pfxHalf_major_low]

/-! ### The prefixes of a chain, read and written (spec/03 R62, R64) -/

/-- The prefixes of a chain, as halfwords in the order of spec/03 R62. -/
def Chain.halves (c : Chain) : List Half :=
  (c.p.map (pfxHalf 0x3A)).toList ++ (c.m.map (pfxHalf 0x3B)).toList ++ (c.v.map (pfxHalf 0x3C)).toList ++
    (c.r.map (pfxHalf 0x39)).toList ++ c.i.map (pfxHalf 0x38)

theorem pfxReason_eq_none {c : Chain} {pos : Nat} {h : Half} : pfxReason c pos h = none ↔
    pos < 4 ∧ c.has h.major = false ∧ c.rank ≤ pfxRank h.major ∧ h.major < 0x3D ∧ (h.major = 0x3A → h.toNat % 4 ≠ 0) := by
  unfold pfxReason
  grind

/-- What the parser has read stands in the order of spec/03 R62, four halfwords at most, and PXP names a page. -/
structure Chain.Sound (c : Chain) : Prop where
  p     : c.rank < 1 → c.p = none
  m     : c.rank < 2 → c.m = none
  v     : c.rank < 3 → c.v = none
  r     : c.rank < 4 → c.r = none
  i     : c.rank < 5 → c.i = []
  page  : ∀ x, c.p = some x → x.toNat % 4 ≠ 0
  count : c.halves.length ≤ 4

theorem Chain.sound_empty : Chain.empty.Sound :=
  ⟨fun _ => rfl, fun _ => rfl, fun _ => rfl, fun _ => rfl, fun _ => rfl, nofun, Nat.zero_le 4⟩

/-- A halfword that breaks no rule of spec/03 R64 is written after the prefixes before it. -/
theorem Chain.halves_add {c : Chain} {h : Half} (hc : c.Sound) (hp : h.isPfx)
    (hr : pfxReason c c.halves.length h = none) : (c.add h.major h.low).halves = c.halves ++ [h] := by
  obtain ⟨-, hhas, hrank, hlt, -⟩ := pfxReason_eq_none.1 hr
  have hge : 0x38 ≤ h.major := by simpa [Half.isPfx] using hp
  have hh := pfxHalf_major_low h
  obtain ⟨p, m, v, r, i, rank⟩ := c
  obtain ⟨cp, cm, cv, cr, ci, -, -⟩ := hc
  generalize h.major = k at *
  interval_cases k <;> grind [Chain.has, Chain.add, Chain.halves, pfxRank]

theorem Chain.sound_add {c : Chain} {h : Half} (hc : c.Sound) (hp : h.isPfx)
    (hr : pfxReason c c.halves.length h = none) : (c.add h.major h.low).Sound := by
  have hhalves := halves_add hc hp hr
  obtain ⟨hpos, hhas, hrank, hlt, hpage⟩ := pfxReason_eq_none.1 hr
  have hge : 0x38 ≤ h.major := by simpa [Half.isPfx] using hp
  have hlow : h.low.toNat % 4 = h.toNat % 4 := by
    rw [Half.low, BitVec.toNat_setWidth]
    omega
  have hcount : (c.add h.major h.low).halves.length ≤ 4 := by
    rw [hhalves, List.length_append, List.length_singleton]
    omega
  obtain ⟨cp, cm, cv, cr, ci, hpg, -⟩ := hc
  generalize h.major = k at *
  constructor <;> try assumption
  all_goals interval_cases k <;> grind [Chain.has, Chain.add, pfxRank]

/-- What the parser accepts is the written chain, a base, and the rest. -/
theorem parseChain_ok {hs : List Half} {pos : Nat} {c c' : Chain} {base : Half} {n : Nat} (hc : c.Sound)
    (hpos : pos = c.halves.length) (h : parseChain hs pos c = .ok (c', base, n)) :
    c'.Sound ∧ base.isPfx = false ∧ n = c'.halves.length ∧ ∃ t, c.halves ++ hs = c'.halves ++ base :: t := by
  induction hs generalizing pos c with
  | nil => cases h
  | cons x t ih =>
    subst hpos
    rw [parseChain] at h
    split at h
    · next hx =>
      split at h
      · cases h
      · next hr =>
        have hadd := Chain.halves_add hc hx hr
        obtain ⟨hs', hb, hn, rest, e⟩ := ih (Chain.sound_add hc hx hr) (by simp [hadd]) h
        exact ⟨hs', hb, hn, rest, by rw [← e, hadd, List.append_assoc]; rfl⟩
    · next hx =>
      cases h
      exact ⟨hc, by simpa using hx, rfl, t, rfl⟩

/-- One of the prefixes, where it may stand next, is read. -/
theorem parseChain_pfxHalf {k : Nat} (hk : 0x38 ≤ k ∧ k < 0x3D) {x : BitVec 10} {pos : Nat} {c : Chain} (hs : List Half)
    (hpos : pos < 4) (hhas : c.has k = false) (hrank : c.rank ≤ pfxRank k) (hpage : k = 0x3A → x.toNat % 4 ≠ 0) :
    parseChain (pfxHalf k x :: hs) pos c = parseChain hs (pos + 1) (c.add k x) := by
  have hmajor : (pfxHalf k x).major = k := major_pfxHalf (by omega) x
  have hp : (pfxHalf k x).isPfx = true := by simpa [Half.isPfx, hmajor] using hk.1
  have hr : pfxReason c pos (pfxHalf k x) = none := by
    rw [pfxReason_eq_none, hmajor]
    refine ⟨hpos, hhas, hrank, hk.2, fun e => ?_⟩
    have := hpage e
    rw [toNat_pfxHalf]
    omega
  rw [parseChain, if_pos hp, hr]
  simp only [hmajor, low_pfxHalf]

/-- The same for a payload that may be missing: then nothing is read. -/
theorem parseChain_optional {k : Nat} (hk : 0x38 ≤ k ∧ k < 0x3D) (x : Option (BitVec 10)) {pos : Nat} {c : Chain}
    (hs : List Half) (hpos : pos + x.toList.length ≤ 4) (hhas : c.has k = false) (hrank : c.rank ≤ pfxRank k)
    (hpage : k = 0x3A → ∀ y, x = some y → y.toNat % 4 ≠ 0) :
    parseChain ((x.map (pfxHalf k)).toList ++ hs) pos c = parseChain hs (pos + x.toList.length) (x.elim c (c.add k)) := by
  cases x with
  | none => rfl
  | some y => exact parseChain_pfxHalf hk hs hpos hhas hrank fun e => hpage e y rfl

/-- The PXI of a chain and its base are read. -/
theorem parseChain_immediates {base : Half} (hb : base.isPfx = false) (t : List Half) (i : List (BitVec 10)) {pos : Nat}
    {c : Chain} (hrank : c.rank ≤ 5) (hpos : pos + i.length ≤ 4) :
    ∃ k, parseChain (i.map (pfxHalf 0x38) ++ base :: t) pos c =
      .ok ({ c with i := c.i ++ i, rank := k }, base, pos + i.length) := by
  induction i generalizing pos c with
  | nil => exact ⟨c.rank, by simp [parseChain, hb]⟩
  | cons x i ih =>
    rw [List.length_cons] at hpos
    obtain ⟨k, hk⟩ := ih (c := c.add 0x38 x) (pos := pos + 1) (Nat.le_refl 5) (by omega)
    refine ⟨k, ?_⟩
    rw [List.map_cons, List.cons_append, parseChain_pfxHalf ⟨by omega, by omega⟩ _ (by omega) rfl hrank (by omega), hk]
    simp only [Chain.add, List.append_assoc, List.singleton_append, List.length_cons, Nat.add_assoc, Nat.add_comm 1]

/-! Adding a payload that may be missing to a chain that holds none of its kind or of a later one. -/

theorem elim_add_p (p : Option (BitVec 10)) (k : Nat) :
    p.elim ⟨none, none, none, none, [], k⟩ (Chain.add ⟨none, none, none, none, [], k⟩ 0x3A) =
      ⟨p, none, none, none, [], p.elim k fun _ => 1⟩ := by cases p <;> rfl

theorem elim_add_m (p m : Option (BitVec 10)) (k : Nat) :
    m.elim ⟨p, none, none, none, [], k⟩ (Chain.add ⟨p, none, none, none, [], k⟩ 0x3B) =
      ⟨p, m, none, none, [], m.elim k fun _ => 2⟩ := by cases m <;> rfl

theorem elim_add_v (p m v : Option (BitVec 10)) (k : Nat) :
    v.elim ⟨p, m, none, none, [], k⟩ (Chain.add ⟨p, m, none, none, [], k⟩ 0x3C) =
      ⟨p, m, v, none, [], v.elim k fun _ => 3⟩ := by cases v <;> rfl

theorem elim_add_r (p m v r : Option (BitVec 10)) (k : Nat) :
    r.elim ⟨p, m, v, none, [], k⟩ (Chain.add ⟨p, m, v, none, [], k⟩ 0x39) =
      ⟨p, m, v, r, [], r.elim k fun _ => 4⟩ := by cases r <;> rfl

theorem elim_le {α : Type} (x : Option α) {a b : Nat} (h : a ≤ b) : (x.elim a fun _ => b) ≤ b := by
  cases x with
  | none => exact h
  | some _ => exact Nat.le_refl b

/-- The written prefixes of a chain, its base after them, are read back. -/
theorem parseChain_halves {c : Chain} {base : Half} (hb : base.isPfx = false) (t : List Half)
    (hpage : ∀ x, c.p = some x → x.toNat % 4 ≠ 0) (hcount : c.halves.length ≤ 4) :
    ∃ k, parseChain (c.halves ++ base :: t) 0 Chain.empty = .ok ({ c with rank := k }, base, c.halves.length) := by
  obtain ⟨p, m, v, r, i, k0⟩ := c
  have hlen : (Chain.mk p m v r i k0).halves.length =
      0 + p.toList.length + m.toList.length + v.toList.length + r.toList.length + i.length := by
    simp [Chain.halves, Option.length_toList, Nat.add_assoc]
  rw [hlen] at hcount
  have rank1 : (p.elim 0 fun _ => 1) ≤ 1 := elim_le p (by omega)
  have rank2 : (m.elim (p.elim 0 fun _ => 1) fun _ => 2) ≤ 2 := elim_le m (by omega)
  have rank3 : (v.elim (m.elim (p.elim 0 fun _ => 1) fun _ => 2) fun _ => 3) ≤ 3 := elim_le v (by omega)
  have rank4 : (r.elim (v.elim (m.elim (p.elim 0 fun _ => 1) fun _ => 2) fun _ => 3) fun _ => 4) ≤ 4 := elim_le r (by omega)
  obtain ⟨k, hk⟩ := parseChain_immediates (c := ⟨p, m, v, r, [], _⟩) hb t i (Nat.le_succ_of_le rank4) hcount
  refine ⟨k, ?_⟩
  rw [hlen]
  simp only [Chain.halves, List.append_assoc]
  rw [parseChain_optional (by omega) p _ (by omega) rfl (Nat.zero_le _) fun _ => hpage, Chain.empty, elim_add_p,
    parseChain_optional (by omega) m _ (by omega) rfl (Nat.le_succ_of_le rank1) (by omega), elim_add_m,
    parseChain_optional (by omega) v _ (by omega) rfl (Nat.le_succ_of_le rank2) (by omega), elim_add_v,
    parseChain_optional (by omega) r _ (by omega) rfl (Nat.le_succ_of_le rank3) (by omega), elim_add_r]
  exact hk

/-! ### Checks 3 to 5 on a chain (spec/03 R67) -/

theorem Take.ok_iff (t : Take) (present : Bool) :
    t.ok present = true ↔ (t = .no → present = false) ∧ (t = .must → present = true) := by
  cases t <;> simp [Take.ok]

theorem isSome_eq_false {α : Type} {p : Prop} {x : Option α} (h : ∀ y, p → x = some y → False) (hp : p) : x.isSome = false := by
  cases x with
  | none => rfl
  | some y => exact (h y hp rfl).elim

theorem eq_nil_of_not_cons {α : Type} {p : Prop} {l : List α} (h : ∀ y t, p → l = y :: t → False) (hp : p) : l = [] := by
  cases l with
  | nil => rfl
  | cons y t => exact (h y t hp rfl).elim

theorem takeErr_eq_none (f : Form) (c : Chain) (base : Half) (pos : Nat) : takeErr f c base pos = none ↔
    f.Takes (c.opnd base) := by
  simp only [Form.Takes, Chain.opnd, Option.isSome_map, Take.ok_iff, takeErr, ← Option.not_isSome]
  split
  · next ht hx => simp [ht, hx]
  split
  · next ht hx => simp [ht, hx]
  split
  · next ht hx => simp [ht, hx]
  split
  · next ht hx => simp [ht, hx]
  next hm _ _ hv _ _ hr _ _ hi =>
  have hm := isSome_eq_false hm
  have hv := isSome_eq_false hv
  have hr := isSome_eq_false hr
  have hi := eq_nil_of_not_cons hi
  grind

theorem any_high_eq_false {p : Option (BitVec 10)} :
    p.any (fun x => x.toNat / 4 != 0) = false ↔ ∀ x, p = some x → x.toNat < 4 := by
  cases p <;> simp

theorem Chain.page_le (c : Chain) : c.page ≤ 3 := by
  unfold Chain.page
  split <;> omega

/-- The checks 3 to 5 pass on a chain exactly for the instruction whose row and fields the chain has. -/
theorem decodeBase_eq_ok {c : Chain} {base : Half} {pos : Nat} {i : Instr} : decodeBase c base pos = .ok i ↔
    ∃ f : Form, f.Accepts i (c.opnd base) ∧ f.page = c.page ∧ f.major = base.major ∧ ∀ x, c.p = some x → x.toNat < 4 := by
  constructor
  · intro h
    unfold decodeBase at h
    dsimp only at h
    split at h
    · cases h
    · next mk hs =>
      obtain ⟨f, hf, ho, hpage, hmajor, hminor⟩ := row_of_select c.page_le hs (c.opnd base)
      rw [hf] at h
      dsimp only at h
      split at h
      · cases h
      · next ht =>
        split at h
        · cases h
        · next hp =>
          split at h
          · cases h
          · cases h
          · next hb =>
            cases h
            rw [← hpage, ← hmajor] at hs
            exact ⟨f, ⟨hf, ho, hminor, by rw [hs]; rfl, (takeErr_eq_none ..).1 ht, hb⟩,
              hpage, hmajor, any_high_eq_false.1 (by simpa using hp)⟩
  · rintro ⟨f, ⟨hf, ho, hminor, hs, ht, hb⟩, hpage, hmajor, hp⟩
    obtain ⟨mk, hs⟩ := Option.isSome_iff_exists.1 hs
    have hmk : mk (c.opnd base) = i := mk_of_select hf ho (hminor.symm ▸ hs)
    rw [hpage, hmajor] at hs
    simp only [decodeBase, hs, hmk, hf, (takeErr_eq_none f c base pos).2 ht, any_high_eq_false.2 hp,
      Bool.false_eq_true, if_false, hb]

end Sys2Proof

namespace Sys2Proof
open Machine

/-! ### Rows and fields as a chain (spec/03 R58–R62) -/

/-- The chain that a page and operand fields have. -/
def Chain.ofRow (page : Nat) (o : Opnd) : Chain :=
  ⟨if page = 0 then none else some (BitVec.ofNat 10 page), o.m.map Pxm.bits, o.v.map Pxv.bits, o.r.map Pxr.bits, o.i, 0⟩

theorem encode_eq {i : Instr} {f : Form} {o : Opnd} (hf : form i = some f) (ho : opnd i = some o) :
    encode i = (Chain.ofRow f.page o).halves ++ [baseHalf f.major o.a o.b] := by
  obtain ⟨a, b, m, v, r, l⟩ := o
  simp only [encode, hf, ho, Chain.ofRow, Chain.halves, baseHalf]
  by_cases hp : f.page = 0 <;> cases m <;> cases v <;> cases r <;> simp [hp]

theorem length_halves_ofRow (page : Nat) (o : Opnd) : (Chain.ofRow page o).halves.length = chainPrefixes page o := by
  by_cases hp : page = 0 <;> simp [Chain.halves, Chain.ofRow, chainPrefixes, Option.length_toList, hp, Nat.add_assoc,
    Nat.add_comm 1]

theorem page_ofRow {page : Nat} (hp : page ≤ 3) (o : Opnd) : (Chain.ofRow page o).page = page := by
  interval_cases page <;> rfl

/-- A PXP holds its page and nothing else. -/
theorem p_ofRow {page : Nat} (hp : page ≤ 3) {o : Opnd} {x : BitVec 10} (h : (Chain.ofRow page o).p = some x) :
    x.toNat % 4 ≠ 0 ∧ x.toNat < 4 := by
  interval_cases page <;> cases h <;> decide

theorem opnd_ofRow (page k : Nat) (o : Opnd) : (Chain.ofRow page o).opnd (baseHalf k o.a o.b) = o := by
  simp [Chain.opnd, Chain.ofRow, a_baseHalf, b_baseHalf, Function.comp_def, Pxm.ofBits_bits, Pxv.ofBits_bits, Pxr.ofBits_bits]

/-- A chain whose PXP holds a page and nothing else is the one that its page and fields have. -/
theorem halves_ofRow {c : Chain} (base : Half) (hpage : ∀ x, c.p = some x → x.toNat % 4 ≠ 0)
    (hp : ∀ x, c.p = some x → x.toNat < 4) : (Chain.ofRow c.page (c.opnd base)).halves = c.halves := by
  have hpxp : (Chain.ofRow c.page (c.opnd base)).p = c.p := by
    obtain ⟨p, m, v, r, i, k⟩ := c
    cases p with
    | none => rfl
    | some x =>
      have hx : x.toNat % 4 = x.toNat := Nat.mod_eq_of_lt (hp x rfl)
      have h0 : x.toNat ≠ 0 := hx ▸ hpage x rfl
      simp only [Chain.ofRow, Chain.page, hx, if_neg h0, BitVec.ofNat_toNat, BitVec.setWidth_eq]
  rw [Chain.halves, hpxp]
  simp [Chain.halves, Chain.ofRow, Chain.opnd, Function.comp_def, Pxm.bits_ofBits, Pxv.bits_ofBits, Pxr.bits_ofBits]

/-! ### Decoder and encoder -/

theorem decode_of_parseChain {hs : List Half} {c : Chain} {base : Half} {pos : Nat} {i : Instr}
    (hp : parseChain hs 0 Chain.empty = .ok (c, base, pos)) (hd : decodeBase c base pos = .ok i) :
    decode hs = .ok (i, pos + 1) := by
  simp only [decode, hp, hd]

theorem isPfx_baseHalf {k : Nat} (hk : k < 0x38) (a b : BitVec 5) : (baseHalf k a b).isPfx = false := by
  rw [Half.isPfx, major_baseHalf (by omega)]
  simpa using hk

theorem length_encode {i : Instr} {f : Form} {o : Opnd} (h : f.Accepts i o) :
    (encode i).length = chainPrefixes f.page o + 1 := by
  rw [encode_eq h.form h.opnd, List.length_append, length_halves_ofRow, List.length_singleton]

theorem decode_encode_append {i : Instr} {f : Form} {o : Opnd} (h : f.Accepts i o) (hn : chainPrefixes f.page o ≤ 4)
    (t : List Half) : decode (encode i ++ t) = .ok (i, (encode i).length) := by
  obtain ⟨hpage, hmajor⟩ := form_bounds h.form
  have hb := isPfx_baseHalf hmajor o.a o.b
  obtain ⟨k, hk⟩ := parseChain_halves (c := Chain.ofRow f.page o) hb t (fun x hx => (p_ofRow hpage hx).1)
    (by rwa [length_halves_ofRow])
  have hd : decodeBase { Chain.ofRow f.page o with rank := k } (baseHalf f.major o.a o.b) (Chain.ofRow f.page o).halves.length =
      .ok i :=
    decodeBase_eq_ok.2 ⟨f, by exact (opnd_ofRow f.page f.major o).symm ▸ h, (page_ofRow hpage o).symm,
      (major_baseHalf (by omega) ..).symm, fun x hx => (p_ofRow (o := o) hpage hx).2⟩
  rw [length_encode h, encode_eq h.form h.opnd, List.append_assoc, List.singleton_append, decode_of_parseChain hk hd,
    length_halves_ofRow]

theorem decode_eq_ok {hs : List Half} {i : Instr} {n : Nat} (h : decode hs = .ok (i, n)) :
    ∃ (f : Form) (o : Opnd), f.Accepts i o ∧ chainPrefixes f.page o ≤ 4 ∧
    n = chainPrefixes f.page o + 1 ∧ encode i = hs.take n := by
  unfold decode at h
  split at h
  · cases h
  · next c base pos hparse =>
    split at h
    · cases h
    · next j hbase =>
      cases h
      obtain ⟨hsound, -, hpos, t, hhs⟩ := parseChain_ok Chain.sound_empty rfl hparse
      obtain ⟨f, hacc, hpage, hmajor, hp⟩ := decodeBase_eq_ok.1 hbase
      have hrow : (Chain.ofRow f.page (c.opnd base)).halves = c.halves := hpage ▸ halves_ofRow base hsound.page hp
      have hhs : hs = (c.halves ++ [base]) ++ t := by simpa [Chain.halves, Chain.empty] using hhs
      have hlen : chainPrefixes f.page (c.opnd base) = c.halves.length := by rw [← length_halves_ofRow, hrow]
      refine ⟨f, _, hacc, hlen ▸ hsound.count, by rw [hlen, hpos], ?_⟩
      · rw [encode_eq hacc.form hacc.opnd, hrow, hmajor, hhs, hpos]
        have hbase : baseHalf base.major (c.opnd base).a (c.opnd base).b = base := baseHalf_fields base
        rw [hbase, List.take_left' (by simp)]

end Sys2Proof

/-! ### O56: decoding an encoded instruction, and encoding a decoded one -/

namespace Sys2Proof.Encoding
open Sys2Proof.Machine

theorem decodeEncodeRoundTrip : DecodeEncodeRoundTrip := by
  intro i t h
  obtain ⟨f, o, hacc, hn⟩ := (wellFormed_iff i).1 h
  have hlen := length_encode hacc
  exact ⟨decode_encode_append hacc hn t, by omega, by omega⟩

theorem decodedIsWellFormed : DecodedIsWellFormed := by
  intro hs i n h
  obtain ⟨f, o, hacc, hcount, hn, henc⟩ := decode_eq_ok h
  exact ⟨(wellFormed_iff i).2 ⟨f, o, hacc, hcount⟩, by rw [hn, length_encode hacc], henc⟩

/-- Settles O56: rows and codes name each other, and the parser reads back the prefixes that the encoder writes. -/
theorem decodeAndEncodeAgree : Obligations.DecodeAndEncodeAgree :=
  ⟨decodeEncodeRoundTrip, decodedIsWellFormed⟩

end Sys2Proof.Encoding
end

section
/-!
PROOFS. Scalar arithmetic, moves, fields and LEA (spec/04 R86–R95): the value that the model computes is that of the spec's rule,
and an instruction of page 0 that writes gA writes it and nothing else.
-/
namespace Sys2Proof.Machine

/-! ### Sign extension -/

/-- Sign extension of the low bits is the balanced remainder. -/
theorem sextNat_eq_bmod (x n : Nat) : sextNat x n = (x : Int).bmod (2 ^ n) := by
  have hcast : ((x % 2 ^ n : Nat) : Int) = (x : Int) % (2 ^ n : Nat) := by simp
  rw [Int.bmod_def, sextNat, ← hcast]
  cases n with
  | zero => simp
  | succ k =>
    have hhalf : ((2 ^ (k + 1) : Nat) + 1 : Int) / 2 = (2 ^ k : Nat) := by rw [Nat.pow_succ]; omega
    rw [hhalf, if_neg (Nat.succ_ne_zero k), Nat.add_sub_cancel]
    simp only [Int.ofNat_lt]

theorem signExtend_eq_ofInt (a : Word) (n : Nat) : (a.setWidth n).signExtend 64 = BitVec.ofInt 64 (sextNat a.toNat n) := by
  rw [BitVec.signExtend, BitVec.toInt_setWidth, sextNat_eq_bmod]

theorem zeroExtend_eq_ofNat (a : Word) (n : Nat) : (a.setWidth n).setWidth 64 = BitVec.ofNat 64 (a.toNat % 2 ^ n) :=
  BitVec.eq_of_toNat_eq (by simp)

/-! ### Values of R89 -/

theorem sub_eq_ofInt (a b : Word) : a - b = BitVec.ofInt 64 (a.toInt - b.toInt) := by
  rw [BitVec.sub_eq_add_neg, Int.sub_eq_add_neg, BitVec.ofInt_add, BitVec.ofInt_neg, BitVec.ofInt_toInt, BitVec.ofInt_toInt]

theorem shlW_eq_shlRule (a b : Word) : shlW a b = shlRule a b := by
  unfold shlW shlRule
  split
  · rfl
  · rw [← BitVec.shiftLeft_eq, BitVec.shiftLeft, Nat.shiftLeft_eq]

theorem shrW_eq_shrRule (a b : Word) : shrW a b = shrRule a b := by
  unfold shrW shrRule
  split
  · rfl
  · refine BitVec.eq_of_toNat_eq ?_
    rw [BitVec.toNat_ushiftRight, Nat.shiftRight_eq_div_pow, BitVec.toNat_ofNat,
      Nat.mod_eq_of_lt (Nat.lt_of_le_of_lt (Nat.div_le_self ..) a.isLt)]

/-- An arithmetic shift is a floor division. -/
theorem sshiftRight_eq_ofInt (a : Word) (n : Nat) : a.sshiftRight n = BitVec.ofInt 64 (a.toInt / 2 ^ n) := by
  rw [BitVec.sshiftRight, Int.shiftRight_eq_div_pow, Nat.cast_pow, Nat.cast_ofNat]

/-- What a shift by 63 leaves is the sign. -/
theorem toInt_div_eq_sign (a : Word) : a.toInt / 2 ^ 63 = if a.msb then -1 else 0 := by
  have hlo := a.le_toInt
  have hhi := a.toInt_lt
  simp only [BitVec.msb_eq_toInt, decide_eq_true_eq]
  split <;> omega

theorem sarW_eq_sarRule (a b : Word) : sarW a b = sarRule a b := by
  unfold sarW sarRule
  rw [sshiftRight_eq_ofInt]
  split
  · rw [toInt_div_eq_sign]
    split <;> rfl
  · rfl

theorem sle_min_eq (a b : Word) : (if a.sle b then a else b) = if b.toInt < a.toInt then b else a := by
  simp only [BitVec.sle_eq_decide, decide_eq_true_eq, ← Int.not_lt, ite_not]

/-- Of equal operands either is the larger. -/
theorem sle_max_eq (a b : Word) : (if a.sle b then b else a) = if a.toInt < b.toInt then b else a := by
  rw [BitVec.sle_eq_decide]
  rcases Int.lt_trichotomy a.toInt b.toInt with h | h | h
  · simp [h, Int.le_of_lt h]
  · simp [BitVec.eq_of_toInt_eq h]
  · simp [Int.not_le.2 h, Int.not_lt.2 (Int.le_of_lt h)]

theorem slt_eq (a b : Word) : (if a.slt b then 1 else 0 : Word) = if a.toInt < b.toInt then 1 else 0 := by
  simp only [BitVec.slt_eq_decide, decide_eq_true_eq]

theorem ult_eq (a b : Word) : (if a.ult b then 1 else 0 : Word) = if a.toNat < b.toNat then 1 else 0 := by
  simp only [BitVec.ult_eq_decide, decide_eq_true_eq]

/-! ### Counts (spec/04 R94) -/

theorem popCount_eq_countP (n k : Nat) : popCount n k = (List.range k).countP n.testBit := by
  induction k with
  | zero => rfl
  | succ k ih => rw [popCount, ih, List.range_succ, List.countP_append, List.countP_singleton, Nat.add_comm]

theorem lt_two_pow_bitLen (n : Nat) : n < 2 ^ bitLen n := by
  unfold bitLen
  split
  · omega
  · exact Nat.lt_log2_self

/-- The zero bits above the highest one bit are the leading ones. -/
theorem findIdx_getMsbD (a : Word) : (List.range 64).findIdx (fun k => a.getMsbD k) = 64 - bitLen a.toNat := by
  have hzero : ∀ j < 64 - bitLen a.toNat, a.getMsbD j = false := fun j hj => by
    rw [BitVec.getMsbD_eq_getLsbD, BitVec.getLsbD, Nat.testBit_lt_two_pow, Bool.and_false]
    exact Nat.lt_of_lt_of_le (lt_two_pow_bitLen _) (Nat.pow_le_pow_right (by omega) (by omega))
  by_cases h0 : a.toNat = 0
  · rw [bitLen, if_pos h0] at hzero ⊢
    exact List.findIdx_eq_length.2 fun j hj => hzero j (List.mem_range.1 hj)
  · have hlt : a.toNat.log2 < 64 := (Nat.log2_lt h0).2 a.isLt
    have hlen : bitLen a.toNat = a.toNat.log2 + 1 := if_neg h0
    have htop : 64 - 1 - (64 - (a.toNat.log2 + 1)) = a.toNat.log2 := by omega
    rw [hlen] at hzero ⊢
    refine (List.findIdx_eq (by simp; omega)).2 ⟨?_, fun j hj => by simpa using hzero j hj⟩
    rw [List.getElem_range, BitVec.getMsbD_eq_getLsbD, BitVec.getLsbD, htop, Nat.testBit_log2 h0, Bool.and_true,
      decide_eq_true_iff]
    omega

/-! ### Fields (spec/04 R92, R93) -/

theorem fieldMask_eq_shift (pos len : Nat) :
    BitVec.ofNat 64 ((2 ^ len - 1) * 2 ^ pos) = BitVec.ofNat 64 (2 ^ len - 1) <<< pos :=
  BitVec.eq_of_toNat_eq (by simp [Nat.shiftLeft_eq])

/-- BFI's field, masked before it is moved as after. -/
theorem bfi_eq (a c : Word) (pos len : Nat) :
    let mask := BitVec.ofNat 64 (2 ^ len - 1)
    let field := BitVec.ofNat 64 ((2 ^ len - 1) * 2 ^ pos)
    (a &&& ~~~ field) ||| ((c <<< pos) &&& field) = (a &&& ~~~ (mask <<< pos)) ||| ((c &&& mask) <<< pos) := by
  simp only [fieldMask_eq_shift, BitVec.shiftLeft_and_distrib]

theorem bfx_eq (u f len : Nat) :
    (if u.testBit 12 then BitVec.ofInt 64 (sextNat f len) else BitVec.ofNat 64 f) =
      if u / 4096 % 2 = 1 then BitVec.ofInt 64 (sextNat f len) else BitVec.ofNat 64 f := by
  simp only [Nat.testBit_eq_decide_div_mod_eq, decide_eq_true_eq, Nat.reducePow]

/-! ### Effective addresses (spec/04 R95, R98) -/

/-- A signed offset added to an unsigned base. -/
theorem add_ofInt_eq (w : Word) (z : Int) : w + BitVec.ofInt 64 z = BitVec.ofInt 64 (w.toNat + z) := by
  rw [BitVec.ofInt_add, BitVec.ofInt_natCast, BitVec.ofNat_toNat, BitVec.setWidth_eq]

theorem memEa_eq (s : State) (o : Opnd) (scale : Nat) : s.memEa o scale = memAddress s o scale :=
  congrArg BitVec.toNat (add_ofInt_eq ..)

/-! ### Instructions that write gA -/

/-- The length of an instruction whose row stands on page `p`. -/
theorem encode_length_page {i : Instr} {o : Opnd} {f : Form} {p : Nat} (h1 : form i = some f) (h2 : opnd i = some o)
    (hp : f.page = p) : (encode i).length = o.halves p :=
  hp ▸ encode_length h1 h2

/-- An instruction that writes `x` to gA and moves past itself gives the value that is equal to `x`. -/
theorem setRule_of_exec {s : State} {o : Opnd} {i : Instr} {n : Nat} {x w : Word} (hs : s.halt = none)
    (hn : (encode i).length = n) (he : exec i s = s.act ((s.setG o.ra x).advance n)) (hx : x = w) : SetRule s o i w :=
  ⟨_, he.trans (act_running hs _), hx ▸ setG_advance_writesG s o.ra x hn⟩

/-- The same where gA takes what `f` gives for the two sources of an RR form. -/
theorem regRule_of_exec (f : Word → Word → Word) {r : Word → Word → Word} {s : State} {o : Opnd} {i : Instr} {n : Nat}
    (hs : s.halt = none) (hn : (encode i).length = n)
    (he : exec i s = s.act ((s.setG o.ra (f (s.rrA o) (s.rrB o))).advance n)) (hf : ∀ a b, f a b = r a b) : RegRule s o i r := by
  refine setRule_of_exec hs hn he ?_
  rw [hf, State.rrA, State.rrB]
  split <;> rfl

/-- The same where gA takes what `f` gives for the one source of an RI or unary form. -/
theorem oneRule_of_exec (f : Word → Word) {r : Word → Word} {s : State} {o : Opnd} {i : Instr} {n : Nat} (hs : s.halt = none)
    (hn : (encode i).length = n) (he : exec i s = s.act ((s.setG o.ra (f (s.riA o))).advance n)) (hf : ∀ a, f a = r a) :
    OneRule s o i r :=
  setRule_of_exec hs hn he (hf _)

end Sys2Proof.Machine

/-! ### O1: each form's value -/

namespace Sys2Proof.ScalarForms
open Sys2Proof.Machine

theorem registerArithmeticResult : RegisterArithmeticResult := by
  intro o s h
  exact ⟨regRule_of_exec (· + ·) h (encode_length rfl rfl) rfl fun a b => by simp [BitVec.ofNat_add],
    regRule_of_exec (· - ·) h (encode_length rfl rfl) rfl sub_eq_ofInt,
    regRule_of_exec (· * ·) h (encode_length rfl rfl) rfl fun a b => by simp [BitVec.ofNat_mul],
    regRule_of_exec mulhW h (encode_length rfl rfl) rfl fun _ _ => rfl,
    regRule_of_exec (· &&& ·) h (encode_length rfl rfl) rfl fun _ _ => rfl,
    regRule_of_exec (· ||| ·) h (encode_length rfl rfl) rfl fun _ _ => rfl,
    regRule_of_exec (· ^^^ ·) h (encode_length rfl rfl) rfl fun _ _ => rfl,
    regRule_of_exec shlW h (encode_length rfl rfl) rfl shlW_eq_shlRule,
    regRule_of_exec shrW h (encode_length rfl rfl) rfl shrW_eq_shrRule,
    regRule_of_exec sarW h (encode_length rfl rfl) rfl sarW_eq_sarRule,
    regRule_of_exec (fun a b => if a.sle b then a else b) h (encode_length rfl rfl) rfl sle_min_eq,
    regRule_of_exec (fun a b => if a.sle b then b else a) h (encode_length rfl rfl) rfl sle_max_eq,
    regRule_of_exec (fun a b => if a.slt b then 1 else 0) h (encode_length rfl rfl) rfl slt_eq,
    regRule_of_exec (fun a b => if a.ult b then 1 else 0) h (encode_length rfl rfl) rfl ult_eq⟩

/-- SLTN's second operand follows legacy switch 0 (spec/16 R374). -/
theorem exec_sltnI {s : State} (o : Opnd) : exec (.sltnI o) s = s.act ((s.setG o.ra
    (if (s.riA o).ult (if s.errata.testBit 0 then BitVec.ofNat 64 o.uimm else o.immW) then 1 else 0)).advance (o.halves 0)) := rfl

theorem immediateArithmeticResult : ImmediateArithmeticResult := by
  intro o s h
  refine ⟨oneRule_of_exec (· + o.immW) h (encode_length rfl rfl) rfl fun a => ?_,
    oneRule_of_exec (· &&& o.immW) h (encode_length rfl rfl) rfl fun _ => rfl,
    oneRule_of_exec (· ||| o.immW) h (encode_length rfl rfl) rfl fun _ => rfl,
    oneRule_of_exec (· ^^^ o.immW) h (encode_length rfl rfl) rfl fun _ => rfl,
    oneRule_of_exec (shlW · (BitVec.ofNat 64 o.uimm)) h (encode_length rfl rfl) rfl fun a => shlW_eq_shlRule a _,
    oneRule_of_exec (shrW · (BitVec.ofNat 64 o.uimm)) h (encode_length rfl rfl) rfl fun a => shrW_eq_shrRule a _,
    oneRule_of_exec (sarW · (BitVec.ofNat 64 o.uimm)) h (encode_length rfl rfl) rfl fun a => sarW_eq_sarRule a _,
    oneRule_of_exec (fun a => if a.slt o.immW then 1 else 0) h (encode_length rfl rfl) rfl fun a => slt_eq a _,
    fun hsw => oneRule_of_exec (fun a => if a.ult o.immW then 1 else 0) h (encode_length rfl rfl) ?_ fun a => ult_eq a _,
    fun hsw => oneRule_of_exec (fun a => if a.ult (BitVec.ofNat 64 o.uimm) then 1 else 0) h (encode_length rfl rfl) ?_
      fun a => ult_eq a _⟩
  · rw [BitVec.ofInt_add, BitVec.ofInt_toInt, Opnd.immW]
  · rw [exec_sltnI, hsw]; rfl
  · rw [exec_sltnI, hsw]; rfl

theorem moveFieldUnaryResult : MoveFieldUnaryResult := by
  intro o s h
  refine ⟨setRule_of_exec h (encode_length rfl rfl) rfl rfl, setRule_of_exec h (encode_length rfl rfl) rfl rfl,
    oneRule_of_exec (fun a => let f := a.toNat / 2 ^ o.pos % 2 ^ o.len
      if o.uimm.testBit 12 then BitVec.ofInt 64 (sextNat f o.len) else BitVec.ofNat 64 f) h (encode_length rfl rfl) rfl
      fun _ => bfx_eq ..,
    setRule_of_exec h (encode_length rfl rfl) rfl (bfi_eq ..),
    oneRule_of_exec (fun a => BitVec.ofNat 64 (64 - bitLen a.toNat)) h (encode_length rfl rfl) rfl
      fun a => congrArg _ (findIdx_getMsbD a).symm,
    oneRule_of_exec (fun a => BitVec.ofNat 64 (popCount a.toNat 64)) h (encode_length rfl rfl) rfl
      fun a => congrArg _ (popCount_eq_countP ..),
    oneRule_of_exec (fun a => (a.setWidth 8).signExtend 64) h (encode_length rfl rfl) rfl fun a => signExtend_eq_ofInt a 8,
    oneRule_of_exec (fun a => (a.setWidth 16).signExtend 64) h (encode_length rfl rfl) rfl fun a => signExtend_eq_ofInt a 16,
    oneRule_of_exec (fun a => (a.setWidth 32).signExtend 64) h (encode_length rfl rfl) rfl fun a => signExtend_eq_ofInt a 32,
    oneRule_of_exec (fun a => (a.setWidth 8).setWidth 64) h (encode_length rfl rfl) rfl fun a => zeroExtend_eq_ofNat a 8,
    oneRule_of_exec (fun a => (a.setWidth 16).setWidth 64) h (encode_length rfl rfl) rfl fun a => zeroExtend_eq_ofNat a 16,
    oneRule_of_exec (fun a => (a.setWidth 32).setWidth 64) h (encode_length rfl rfl) rfl fun a => zeroExtend_eq_ofNat a 32,
    setRule_of_exec h (encode_length rfl rfl) rfl ?_⟩
  rw [memEa_eq, memAddress, BitVec.ofNat_toNat, BitVec.setWidth_eq, Nat.cast_one, Int.one_mul]

/-- Settles O1: every form writes gA alone, and the model's value is that of the rule. -/
theorem scalarArithmetic : Obligations.ScalarArithmetic :=
  ⟨registerArithmeticResult, immediateArithmeticResult, moveFieldUnaryResult⟩

end Sys2Proof.ScalarForms
end

section
/-!
PROOFS. Flags at the end of an instruction (spec/01 R22, R24, spec/05 R119) and the divisions (spec/04 R90).
-/
namespace Sys2Proof.Machine

/-! ### What the flags of an instruction change (spec/01 R22, R24) -/

theorem mergeFlags_within (s : State) (f : Nat) (l : ElemFlags) (eng : Bool) : Within s (s.mergeFlags f l eng) [s.named f] := by
  unfold State.mergeFlags
  split
  · exact ⟨rfl, fun _ _ => rfl, fun _ => rfl⟩
  · exact updFrame_within s _ _

theorem mergeFlags_takesFlags (s : State) (f : Nat) (l : ElemFlags) : TakesFlags s (s.mergeFlags f l false) f l := by
  cases hl : lowestWith l 255 with
  | none =>
    have hkept : s.mergeFlags f l false = s := by simp only [State.mergeFlags, hl]
    rw [hkept]
    exact ⟨by rw [if_pos hl], by rw [hl]⟩
  | some p =>
    obtain ⟨e, q⟩ := p
    constructor
    · simp only [State.mergeFlags, hl, frame_updFrame_same, reduceCtorEq, if_false]
    · simp only [State.mergeFlags, hl, frame_updFrame_same, BitVec.getLsbD]

theorem mergeFlags_flagsOnly (s : State) (l : ElemFlags) (eng : Bool) : FlagsOnly s (s.mergeFlags s.cur l eng) := by
  unfold FlagsOnly State.mergeFlags
  split
  · rfl
  · simp only [frame_updFrame_same]

theorem arith_mergeFlags (s : State) (f k : Nat) (l : ElemFlags) (eng : Bool) :
    ((s.mergeFlags f l eng).frame k).arith = (s.frame k).arith := by
  unfold State.mergeFlags
  split
  · rfl
  · rw [frame_updFrame]
    split
    · next e => rw [e]
    · rfl

theorem next_mergeFlags (s : State) (f : Nat) (l : ElemFlags) (eng : Bool) (i : Instr) :
    (s.mergeFlags f l eng).next i = s.next i := by
  unfold State.mergeFlags
  split
  · rfl
  · rw [next_updFrame]
    exact fun _ => rfl

/-! ### The end of an instruction (spec/05 R119) -/

/-- The flags of an instruction leave its trap enables. -/
theorem arithTrap_mergeFlags (s : State) (f k : Nat) (l r : ElemFlags) (eng : Bool) :
    (s.mergeFlags f l eng).arithTrap k r eng = s.arithTrap k r eng := by
  rw [State.arithTrap, State.arithTrap, arith_mergeFlags]

/-- An instruction whose flags trap takes the trap after its flags, and writes nothing. -/
theorem retire_trap {s : State} {l : ElemFlags} {c d : Nat} {a : Word} (h : s.arithTrap s.cur l false = some (c, d, a)) (n : Nat)
    (write : State → State) : s.retire n l write = (s.mergeFlags s.cur l false).trap c d a := by
  simp only [State.retire, arithTrap_mergeFlags, h]

/-- An instruction whose flags do not trap writes its destination after its flags and moves on. -/
theorem retire_done {s : State} {l : ElemFlags} (h : s.arithTrap s.cur l false = none) (n : Nat) (write : State → State) :
    s.retire n l write = (write (s.mergeFlags s.cur l false)).advance n := by
  simp only [State.retire, arithTrap_mergeFlags, h]

/-! ### Quotient and remainder (spec/04 R90) -/

/-- The quotient of the most negative number by −1 wraps to itself. -/
theorem sdiv_eq_ofInt (a b : Word) : a.sdiv b = BitVec.ofInt 64 (a.toInt.tdiv b.toInt) :=
  BitVec.eq_of_toInt_eq (by rw [BitVec.toInt_sdiv, BitVec.toInt_ofInt])

theorem srem_eq_ofInt (a b : Word) : a.srem b = BitVec.ofInt 64 (a.toInt - a.toInt.tdiv b.toInt * b.toInt) := by
  rw [Int.mul_comm, ← Int.tmod_def, ← BitVec.toInt_srem, BitVec.ofInt_toInt]

theorem udiv_eq_ofNat (a b : Word) : a.udiv b = BitVec.ofNat 64 (a.toNat / b.toNat) :=
  BitVec.udiv_def

theorem umod_eq_ofNat (a b : Word) : a.umod b = BitVec.ofNat 64 (a.toNat - a.toNat / b.toNat * b.toNat) := by
  rw [Nat.mul_comm, ← Nat.mod_eq_sub_mul_div]
  exact BitVec.umod_def

/-- The model's quotient, remainder and flags are those of the rule; its special case of overflow is what the signed division
gives of itself. -/
theorem divide_eq (signed : Bool) (a b : Word) :
    divide signed a b = ((divRule signed a b).1, (divRule signed a b).2, if b = 0 then 2 else 0) := by
  unfold divide divRule
  by_cases hb : b = 0
  · simp only [hb, if_true]; rfl
  · cases signed with
    | false => simp only [hb, Bool.false_and, Bool.false_eq_true, if_false, udiv_eq_ofNat, umod_eq_ofNat]
    | true =>
      simp only [hb, if_false, Bool.true_and, if_true, Bool.and_eq_true, beq_iff_eq]
      split
      · next h =>
        obtain ⟨rfl, rfl⟩ := h
        rfl
      · simp only [sdiv_eq_ofInt, srem_eq_ofInt]

/-! ### The flag of a zero divisor -/

/-- The flags of a division as a list: DZ of its one element, for a zero divisor. -/
def divFlags (b : Word) : ElemFlags := if b = 0 then [(0, 2)] else []

theorem divOperands_eq (s : State) (o : Opnd) : divOperands s o = (s.rrA o, s.rrB o) := by
  unfold divOperands State.rrA State.rrB
  split <;> rfl

/-- What a division writes to gA: the quotient, or the remainder. -/
def divValue (signed rem : Bool) (p : Word × Word) : Word :=
  if rem then (divRule signed p.1 p.2).2 else (divRule signed p.1 p.2).1

theorem division_eq (s : State) (o : Opnd) (signed rem : Bool) : s.division o signed rem =
    s.retire (o.halves 0) (divFlags (divOperands s o).2) (·.setG o.ra (divValue signed rem (divOperands s o))) := by
  have hflags (b : Word) : addFlag [] 0 (if b = 0 then 2 else 0) = divFlags b := by
    unfold divFlags; split <;> rfl
  rw [State.division, divide_eq, divOperands_eq]
  simp only [hflags, divValue]

/-- DZ alone raises trap 0x08 at element 0, when ARITH.TE has its bit. -/
theorem arithTrap_dz (s : State) :
    s.arithTrap s.cur [(0, 2)] false = if s.me.arith.getLsbD 9 then some (0x08, 2, 0) else none := by
  have hen : orFlags [(0, 2)] &&& trapEnables (s.frame s.cur).arith = (s.me.arith.getLsbD 9).toNat * 2 := by
    have hbit : (trapEnables s.me.arith).testBit 1 = s.me.arith.getLsbD 9 := by
      rw [trapEnables, BitVec.getLsbD, Nat.testBit_mod_two_pow (j := 8), Nat.testBit_div_two_pow (n := 8)]
      simp
    rw [← hbit, Nat.and_comm]
    exact Nat.and_two_pow _ 1
  rw [State.arithTrap, arithTrapOf, hen]
  cases s.me.arith.getLsbD 9 <;> rfl

theorem arithTrap_divFlags {s : State} {b : Word} (h : b ≠ 0 ∨ s.me.arith.getLsbD 9 = false) :
    s.arithTrap s.cur (divFlags b) false = none := by
  unfold divFlags
  split
  · next hb => rw [arithTrap_dz, h.resolve_left (not_not.2 hb)]; rfl
  · exact arithTrap_nil ..

/-- A division that does not trap. -/
theorem divRule_of_exec {s : State} {o : Opnd} {i : Instr} {signed rem : Bool} (hs : s.halt = none)
    (hnt : (divOperands s o).2 ≠ 0 ∨ s.me.arith.getLsbD 9 = false) (hn : (encode i).length = o.halves 0)
    (he : exec i s = s.act (s.division o signed rem)) :
    DivRule s o i (divValue signed rem (divOperands s o)) := by
  have hexec := he.trans (act_running hs _)
  rw [division_eq, retire_done (arithTrap_divFlags hnt)] at hexec
  refine ⟨_, _, hexec, mergeFlags_within .., mergeFlags_flagsOnly .., mergeFlags_takesFlags .., ?_⟩
  rw [← next_mergeFlags s s.cur (divFlags (divOperands s o).2) false]
  exact setG_advance_writesG _ _ _ hn

/-- A division by zero under ARITH.TE bit 9. -/
theorem exec_division_traps {s : State} {o : Opnd} {i : Instr} {signed rem : Bool} (hs : s.halt = none)
    (hz : (divOperands s o).2 = 0) (hte : s.me.arith.getLsbD 9 = true) (he : exec i s = s.act (s.division o signed rem)) :
    ∃ u, exec i s = .next (u.trap 0x08 2 0) ∧ Within s u [s.named s.cur] ∧ FlagsOnly s u ∧ TakesFlags s u s.cur [(0, 2)] := by
  have htrap : s.arithTrap s.cur [(0, 2)] false = some (0x08, 2, 0) := by rw [arithTrap_dz, hte]; rfl
  refine ⟨s.mergeFlags s.cur [(0, 2)] false, ?_, mergeFlags_within .., mergeFlags_flagsOnly .., mergeFlags_takesFlags ..⟩
  rw [he, act_running hs, division_eq, hz, divFlags, if_pos rfl, retire_trap htrap]

end Sys2Proof.Machine

/-! ### O2: the four divisions -/

namespace Sys2Proof.Divisions
open Sys2Proof.Machine

theorem divisionResult : DivisionResult := by
  intro o s h hnt
  exact ⟨divRule_of_exec (signed := true) (rem := false) h hnt (encode_length_page rfl rfl rfl) rfl,
    divRule_of_exec (signed := false) (rem := false) h hnt (encode_length_page rfl rfl rfl) rfl,
    divRule_of_exec (signed := true) (rem := true) h hnt (encode_length_page rfl rfl rfl) rfl,
    divRule_of_exec (signed := false) (rem := true) h hnt (encode_length_page rfl rfl rfl) rfl⟩

theorem divisionByZeroTraps : DivisionByZeroTraps := by
  intro o s i hi h hz hte
  simp only [List.mem_cons, List.not_mem_nil, or_false] at hi
  rcases hi with rfl | rfl | rfl | rfl
  · exact exec_division_traps (signed := true) (rem := false) h hz hte rfl
  · exact exec_division_traps (signed := false) (rem := false) h hz hte rfl
  · exact exec_division_traps (signed := true) (rem := true) h hz hte rfl
  · exact exec_division_traps (signed := false) (rem := true) h hz hte rfl

/-- Settles O2: the model's `divide` is the rule, and DZ is the only flag of a division. -/
theorem division : Obligations.Division :=
  ⟨divisionResult, divisionByZeroTraps⟩

end Sys2Proof.Divisions
end

section
/-!
PROOFS. Indirect jumps and landing pads (spec/04 R107, R108), hints (spec/15 R357), and the fetch of one halfword (spec/06
R130–R134).
-/
namespace Sys2Proof.Machine

/-! ### What a fetch may raise (spec/06 R134) -/

/-- A fetch that traps raises protection, with DETAIL [8] where the walk itself failed, or a page fault. -/
def FRes.Lawful : FRes → Prop
  | .trap c d => (c = 0x05 ∧ (d = 0x80 ∨ d = 0x180)) ∨ (c = 0x06 ∧ d = 0x80)
  | _ => True

theorem fetchBlock_lawful (s : State) (f a : Nat) : (s.fetchBlock f a).2.Lawful := by
  generalize h : s.fetchBlock f a = r
  unfold State.fetchBlock at h
  dsimp only at h
  by_cases hm : coreOf f = mgmtCore
  · rw [if_pos hm] at h
    split at h <;> (subst h; trivial)
  · rw [if_neg hm] at h
    repeat' split at h
    all_goals subst h
    all_goals simp [FRes.Lawful]

theorem fetchTarget_trap {s u : State} {t c d : Nat} (h : s.fetchTarget t = (u, .trap c d)) :
    (c = 0x05 ∧ (d = 0x80 ∨ d = 0x180)) ∨ (c = 0x06 ∧ d = 0x80) := by
  have hl := fetchBlock_lawful s s.cur t
  unfold State.fetchTarget at h
  split at h
  · cases h
  · next hb => cases h; rwa [hb] at hl
  · cases h

theorem mod_two_of_even {w : Word} (h : w.getLsbD 0 = false) : w.toNat % 2 = 0 := by
  simpa only [linkMark_eq, decide_eq_false_iff_not, Nat.mod_two_ne_one] using h

/-! ### The checks of an indirect jump (spec/04 R107) -/

section
variable {s : State} {t : Word} (pad : Half) (kind : Nat) (go : State → State)

theorem indirect_far (h : 2 ^ 48 ≤ t.toNat) : s.indirect t pad kind go = s.trap 0x03 5 t := if_pos h

theorem indirect_odd (h : t.toNat < 2 ^ 48) (hodd : t.getLsbD 0 = true) : s.indirect t pad kind go = s.trap 0x04 1 t := by
  have hmod : t.toNat % 2 = 1 := by simpa only [linkMark_eq, decide_eq_true_eq] using hodd
  rw [State.indirect, if_neg (Nat.not_le.2 h), if_pos hmod]

section
variable {pad kind go} {u : State} (h : t.toNat < 2 ^ 48) (heven : t.getLsbD 0 = false)
include h heven

/-- Past the first two checks what the fetch gives decides. -/
theorem indirect_refused {c d : Nat} (hf : s.fetchTarget t.toNat = (u, .trap c d)) : s.indirect t pad kind go = u.trap c d t := by
  simp only [State.indirect, Nat.not_le.2 h, mod_two_of_even heven, hf, if_false, Nat.zero_ne_one]

theorem indirect_waits (hf : s.fetchTarget t.toNat = (u, .wait)) : s.indirect t pad kind go = u := by
  simp only [State.indirect, Nat.not_le.2 h, mod_two_of_even heven, hf, if_false, Nat.zero_ne_one]

theorem indirect_half {x : Half} (hf : s.fetchTarget t.toNat = (u, .half x)) :
    s.indirect t pad kind go = if x = pad then (go u).jumpTo t.toNat else u.trap 0x03 kind t := by
  simp only [State.indirect, Nat.not_le.2 h, mod_two_of_even heven, hf, if_false, Nat.zero_ne_one, ne_eq, ite_not]

end
end

theorem exec_jr {s : State} (h : s.halt = none) (o : Opnd) :
    exec (.jr o) s = .next (s.indirect (s.g o.ra) 0x8404 0 id) := act_running h _

theorem exec_callr {s : State} (h : s.halt = none) (o : Opnd) :
    exec (.callr o) s = .next (s.indirect (s.g o.ra) 0x8405 1 (·.setG 1 (s.link (o.halves 0)))) := act_running h _

/-- A call from a state whose program counter is that of `s` links as `s` does. -/
theorem callr_links {s u : State} (o : Opnd) (t : Word) (hpc : u.me.pc = s.me.pc) :
    Links u ((u.setG 1 (s.link (o.halves 0))).jumpTo t.toNat) (.callr o) (t.setWidth 48) := by
  rw [State.link, ← hpc]
  exact setG_jumpTo_links u _ (encode_length_page rfl rfl rfl)

/-! ### Pads and hints (spec/04 R108, spec/15 R357) -/

/-- An instruction that only moves past itself. -/
theorem goesTo_of_exec {s : State} {i : Instr} {n : Nat} (hs : s.halt = none) (hn : (encode i).length = n)
    (he : exec i s = s.act (s.advance n)) : ∃ t, exec i s = .next t ∧ GoesTo s t (s.next i) :=
  ⟨_, he.trans (act_running hs _), advance_goesTo s hn⟩

theorem notHandler_outside {s : State} (h : s.inHandler = false) (i : Instr) (go : State) : s.notHandler i go = go := by
  rw [State.notHandler, h]; rfl

/-- A wake bit or something in the inbox of a tile core ends a WFI. -/
theorem wfiEnds_of_waiting {s : State}
    (h : s.me.wake ≠ 0 ∨ (s.onTile = true ∧ (s.myInbox.entries ≠ [] ∨ s.myInbox.pending ≠ none))) : s.wfiEnds = true := by
  rw [State.wfiEnds, Bool.or_eq_true, bne_iff_ne, Bool.and_eq_true, Bool.not_eq_true', Bool.and_eq_false_iff]
  simpa [← Bool.not_eq_true] using h

end Sys2Proof.Machine

/-! ### O4: returns, indirect jumps and pads -/

namespace Sys2Proof.IndirectBranches
open Sys2Proof.Machine

theorem indirectJumpsNeedTheirPad : IndirectJumpsNeedTheirPad := by
  rintro o s t h rfl
  rw [exec_jr h, exec_callr h]
  refine ⟨fun hfar => ⟨by rw [indirect_far _ _ _ hfar], by rw [indirect_far _ _ _ hfar]⟩,
    fun hlt hodd => ⟨by rw [indirect_odd _ _ _ hlt hodd], by rw [indirect_odd _ _ _ hlt hodd]⟩,
    fun hlt heven u x hf => ?half, fun hlt heven u => ⟨fun c d hf => ⟨fetchTarget_trap hf, ?trap⟩, fun hf => ?wait⟩⟩
  case half =>
    have hsame : BitVec.ofNat 48 (s.g o.ra).toNat = (s.g o.ra).setWidth 48 := BitVec.ofNat_toNat ..
    rw [indirect_half hlt heven hf, indirect_half hlt heven hf]
    exact ⟨fun hx => ⟨_, by rw [if_pos hx, id_eq], hsame ▸ jumpTo_goesTo u _⟩, fun hx => by rw [if_neg hx],
      fun hx hpc => ⟨_, by rw [if_pos hx], callr_links o _ hpc⟩, fun hx => by rw [if_neg hx]⟩
  case trap => exact ⟨by rw [indirect_refused hlt heven hf], by rw [indirect_refused hlt heven hf]⟩
  case wait => exact ⟨by rw [indirect_waits hlt heven hf], by rw [indirect_waits hlt heven hf]⟩

theorem padsAndHintsOnlyAdvance : PadsAndHintsOnlyAdvance := by
  intro o s h
  refine ⟨goesTo_of_exec h (encode_length_page rfl rfl rfl) rfl, goesTo_of_exec h (encode_length_page rfl rfl rfl) rfl,
    goesTo_of_exec h (encode_length_page rfl rfl rfl) rfl, goesTo_of_exec h (encode_length_page rfl rfl rfl) rfl,
    fun hout => goesTo_of_exec (n := o.halves 3) h (encode_length_page rfl rfl rfl) ?yield,
    fun hout hw => goesTo_of_exec (n := o.halves 3) h (encode_length_page rfl rfl rfl) ?wfi⟩
  case yield => exact congrArg s.act (notHandler_outside hout _ _)
  case wfi => exact congrArg s.act ((notHandler_outside hout _ _).trans (if_pos (wfiEnds_of_waiting hw)))

/-- Settles O4: calls and returns as for O3, and an indirect jump by its checks in their order. -/
theorem indirectJumpsAndPads : Obligations.IndirectJumpsAndPads :=
  ⟨Branches.jumpCallReturnTarget, indirectJumpsNeedTheirPad, padsAndHintsOnlyAdvance⟩

end Sys2Proof.IndirectBranches
end

section
/-!
PROOFS. Scalar loads and stores (spec/04 R96–R98): which forms make which access, what each answers to its checks, and the checks
in their order.
-/
namespace Sys2Proof.Machine

/-! ### A load or store by what its checks answer -/

section
variable {s u : State} {o : Opnd} {m : Mods} {ea size : Nat}

theorem load_trap {sg : Bool} {c d x : Nat} (h : s.scalarCheck ea size .r .plain false = (u, some (c, d, x))) :
    s.load o m ea size sg = u.trap c d (BitVec.ofNat 64 x) := by
  simp only [State.load, h]

theorem load_issue {sg : Bool} (h : s.scalarCheck ea size .r .plain false = (u, none)) : s.load o m ea size sg =
    (u.issueAcc .load m false [] o.ra 0 (.g o.ra size sg) [u.newPart s.cur 0 ea ea size 0 0 0]).advance (o.halves 0) := by
  simp only [State.load, h]

theorem store_trap {c d x : Nat} (h : s.scalarCheck ea size .w .plain true = (u, some (c, d, x))) :
    s.store o m ea size = u.trap c d (BitVec.ofNat 64 x) := by
  simp only [State.store, h]

theorem store_issue (h : s.scalarCheck ea size .w .plain true = (u, none)) : s.store o m ea size =
    (u.issueAcc .store m true [] 0 0 .none
      [u.newPart s.cur 0 ea ea size (BitVec.ofNat 8 (2 ^ size - 1)) (s.g o.ra) 0]).advance (o.halves 0) := by
  simp only [State.store, h]

end

/-- A record of one new part is one access. -/
theorem accRecord_oneAccess (u : State) (op : AOp) (m : Mods) (c : Bool) (r : List (BitVec 64)) (areg fl0 : Nat) (ret : Ret)
    (f ea size : Nat) (mask : BitVec 8) (data data2 : Word) :
    OneAccess u (u.accRecord op m c r areg fl0 ret [u.newPart f 0 ea ea size mask data data2]) ea size op ret data m :=
  ⟨⟨rfl, rfl⟩, ⟨rfl, rfl, rfl, rfl, rfl⟩, _, rfl, rfl, rfl, rfl, rfl, rfl⟩

/-! ### The forms (spec/04 R96, R97) -/

/-- Every load form is the model's load of its address, bytes, extension and modifiers, and has the length of its operands. -/
theorem loadForms_exec {s : State} {o : Opnd} {i : Instr} {ea size : Nat} {sg : Bool} {m : Mods}
    (h : (i, ea, size, sg, m) ∈ loadForms s o) :
    exec i s = s.act (s.load o m ea size sg) ∧ (encode i).length = o.halves 0 := by
  simp only [loadForms, ← memEa_eq, List.mem_cons, List.not_mem_nil, or_false, Prod.mk.injEq] at h
  rcases h with ⟨rfl, rfl, rfl, rfl, rfl⟩ | ⟨rfl, rfl, rfl, rfl, rfl⟩ | ⟨rfl, rfl, rfl, rfl, rfl⟩ | ⟨rfl, rfl, rfl, rfl, rfl⟩ |
    ⟨rfl, rfl, rfl, rfl, rfl⟩ | ⟨rfl, rfl, rfl, rfl, rfl⟩ | ⟨rfl, rfl, rfl, rfl, rfl⟩ | ⟨rfl, rfl, rfl, rfl, rfl⟩
  all_goals exact ⟨rfl, encode_length_page rfl rfl rfl⟩

theorem storeForms_exec {s : State} {o : Opnd} {i : Instr} {ea size : Nat} {m : Mods} (h : (i, ea, size, m) ∈ storeForms s o) :
    exec i s = s.act (s.store o m ea size) ∧ (encode i).length = o.halves 0 := by
  simp only [storeForms, ← memEa_eq, List.mem_cons, List.not_mem_nil, or_false, Prod.mk.injEq] at h
  rcases h with ⟨rfl, rfl, rfl, rfl⟩ | ⟨rfl, rfl, rfl, rfl⟩ | ⟨rfl, rfl, rfl, rfl⟩ | ⟨rfl, rfl, rfl, rfl⟩
  all_goals exact ⟨rfl, encode_length_page rfl rfl rfl⟩

theorem exec_load_trap {s u : State} {o : Opnd} {i : Instr} {ea size : Nat} {sg : Bool} {m : Mods} {c d x : Nat}
    (hs : s.halt = none) (hi : (i, ea, size, sg, m) ∈ loadForms s o)
    (h : s.scalarCheck ea size .r .plain false = (u, some (c, d, x))) : exec i s = .next (u.trap c d (BitVec.ofNat 64 x)) := by
  rw [(loadForms_exec hi).1, load_trap h, act_running hs]

theorem exec_store_trap {s u : State} {o : Opnd} {i : Instr} {ea size : Nat} {m : Mods} {c d x : Nat} (hs : s.halt = none)
    (hi : (i, ea, size, m) ∈ storeForms s o) (h : s.scalarCheck ea size .w .plain true = (u, some (c, d, x))) :
    exec i s = .next (u.trap c d (BitVec.ofNat 64 x)) := by
  rw [(storeForms_exec hi).1, store_trap h, act_running hs]

/-! ### The checks in their order (spec/04 R98, spec/14 R305) -/

theorem windowOf_device {ea : Nat} (hlo : 0xFF00000000 ≤ ea) (hhi : ea ≤ 0xFFFFFFFFFF) : windowOf ea = .dev := by
  rw [windowOf, if_neg (by simp only [l1Bytes]; omega), if_neg (by simp only [l1Bytes]; omega),
    if_neg (by simp only [apBase]; omega), if_pos (by simp only [regWindow]; omega)]

theorem windowOf_beyond {ea : Nat} (h : 2 ^ 48 ≤ ea) : windowOf ea = .none := by
  rw [windowOf, if_neg (by simp only [l1Bytes]; omega), if_neg (by simp only [l1Bytes]; omega),
    if_neg (by simp only [apBase]; omega), if_neg (by simp only [regWindow]; omega), if_neg (by omega)]

section
variable {s : State} {ea size : Nat} (need : Need) (k : AKind) (guard : Bool)

theorem scalarCheck_misaligned (h : ea % size ≠ 0) : s.scalarCheck ea size need k guard = (s, some (0x04, 0, ea)) := if_pos h

/-- What denies an aligned address is the first that fails. -/
theorem scalarCheck_denied (ha : ea % size = 0) {u : State} {c d : Nat}
    (h : s.checkAddr s.cur ea size need k = (u, some (c, d))) : s.scalarCheck ea size need k guard = (u, some (c, d, ea)) := by
  simp only [State.scalarCheck, ha, h, ne_eq, not_true_eq_false, if_false]

theorem checkAddr_device (hw : windowOf ea = .dev) (hu : s.me.priv = .u) :
    s.checkAddr s.cur ea size need k = (s, some (0x10, 0)) := by
  have hu : (s.frame s.cur).priv = .u := hu
  simp only [State.checkAddr, hw, hu, if_true]

theorem checkAddr_none (hw : windowOf ea = .none) : s.checkAddr s.cur ea size need k = (s, some (0x05, 0)) := by
  simp only [State.checkAddr, hw]

end

end Sys2Proof.Machine

/-! ### O5 and O6: scalar accesses -/

namespace Sys2Proof.ScalarAccesses
open Sys2Proof.Machine

theorem scalarLoadIssues : ScalarLoadIssues := by
  intro o s u i ea size sg m hi hs
  obtain ⟨hexec, hlen⟩ := loadForms_exec hi
  refine ⟨fun hc _ => ?_, fun c d x hc => exec_load_trap hs hi hc⟩
  rw [hexec, load_issue hc, act_running hs]
  exact ⟨_, _, rfl, issueAcc_issues u _ _ _ _ _ _ _ _ hlen, accRecord_oneAccess .., rfl⟩

theorem scalarStoreIssues : ScalarStoreIssues := by
  intro o s u i ea size m hi hs
  obtain ⟨hexec, hlen⟩ := storeForms_exec hi
  refine ⟨fun hc _ _ => ?_, fun c d x hc => exec_store_trap hs hi hc⟩
  rw [hexec, store_issue hc, act_running hs]
  exact ⟨_, _, rfl, issueAcc_issues u _ _ _ _ _ _ _ _ hlen, accRecord_oneAccess .., rfl, fun p hp => by
    rw [List.mem_singleton.1 hp]; rfl⟩

/-- Settles O5: each form is the model's load or store, which traps as its checks say and else issues one record. -/
theorem scalarAccessesIssue : Obligations.ScalarAccessesIssue :=
  ⟨scalarLoadIssues, scalarStoreIssues⟩

/-- Settles O6: a load or store traps with the first check that fails, and these three stand first. -/
theorem scalarAccessCheckOrder : Obligations.ScalarAccessCheckOrder := by
  intro o s i ea size hs hi
  have htrap : ∀ c, (∀ need guard, s.scalarCheck ea size need .plain guard = (s, some (c, 0, ea))) →
      exec i s = .next (s.trap c 0 (BitVec.ofNat 64 ea)) := fun c hc => by
    rcases hi with ⟨sg, m, hi⟩ | ⟨m, hi⟩
    · exact exec_load_trap hs hi (hc .r false)
    · exact exec_store_trap hs hi (hc .w true)
  refine ⟨fun hmis => htrap _ fun need guard => scalarCheck_misaligned need _ guard hmis,
    fun ha hlo hhi hu => htrap _ fun need guard => ?device, fun ha hfar => htrap _ fun need guard => ?beyond⟩
  case device => exact scalarCheck_denied need _ guard ha (checkAddr_device need _ (windowOf_device hlo hhi) hu)
  case beyond => exact scalarCheck_denied need _ guard ha (checkAddr_none need _ (windowOf_beyond hfar))

end Sys2Proof.ScalarAccesses
end

section
/-!
PROOFS. The return of data (spec/04 R97–R100, spec/07 R166–R168, spec/09 R210): the record of an instruction whose accesses have
ended leaves, and its registers take their values or its late outcome is reported.
-/
namespace Sys2Proof.Machine

/-! ### Nothing but some frames differs -/

theorem Within.refl (s : State) (fs : List Nat) : Within s s fs := ⟨rfl, fun _ _ => rfl, fun _ => rfl⟩

theorem Within.trans {s t u : State} {fs : List Nat} (h : Within s t fs) (k : Within t u fs) : Within s u fs :=
  ⟨by rw [k.rest, h.rest], fun f hf => (k.others f hf).trans (h.others f hf), fun a => (k.bytes a).trans (h.bytes a)⟩

/-! ### Accesses that have ended -/

theorem done_of_ended {p : Part} (h : p.stage = .performed ∨ ∃ c, p.stage = .failed c) : p.done = true := by
  rcases h with h | ⟨c, h⟩ <;> rw [Part.done, h]

theorem cause_performed {p : Part} (h : p.stage = .performed) : p.cause = none := by rw [Part.cause, h]

theorem cause_failed {p : Part} {c : Nat} (h : p.stage = .failed c) : p.cause = some c := by rw [Part.cause, h]

theorem cause_isSome {p : Part} (h : p.cause.isSome = true) : ∃ c, p.stage = .failed c := by
  unfold Part.cause at h
  split at h
  · next c hc => exact ⟨c, hc⟩
  · cases h

/-- An access that has ended is performed no more. -/
theorem eligible_of_done {s : State} {a : Acc} {i : Nat} {p : Part} (hp : a.parts[i]? = some p) (hd : p.done = true) :
    s.eligible a i = false := by
  unfold Part.done at hd
  rw [State.eligible, hp]
  split at hd
  · next h => simp [h]
  · next h => simp [h]
  · cases hd

/-- Reads of registers and post lines that have been made are not made again. -/
theorem readIo_of_done {s : State} {a : Acc} (ha : s.accOf a.frame a.seq = some a) (hd : a.done = true) : s.readIo a = s := by
  refine List.foldl_fixed' (fun i => ?_) _
  simp only [ha]
  cases hp : a.parts[i]? with
  | none => rfl
  | some p =>
    have he : s.eligible a i = false := eligible_of_done hp (List.all_eq_true.1 hd p (List.mem_of_getElem? hp))
    cases ht : p.tgt <;> simp [he, ht]

/-- An instruction that waits for nothing more returns. -/
theorem exec_loadDataReturn_done {s : State} {f seq : Nat} {a : Acc} (h : s.halt = none) (ha : s.accOf f seq = some a)
    (hid : a.frame = f ∧ a.seq = seq) (hret : a.ret ≠ .none) (hop : a.op ≠ .waitrs) (hd : a.done = true) :
    exec (.loadDataReturn f seq) s = .next (s.returnAcc a) := by
  obtain ⟨rfl, rfl⟩ := hid
  change execLoadDataReturn a.frame a.seq s = _
  simp only [execLoadDataReturn, ha, hret, hop, or_self, if_false, readIo_of_done ha hd, hd, if_true, act_running h]

/-! ### The late outcome (spec/07 R168) -/

/-- Of two failed accesses the one of the lower element. -/
def lowerPart (b : Option Part) (p : Part) : Option Part :=
  match b with
  | some q => if p.elem < q.elem then some p else b
  | none => some p

theorem lateOf_eq (a : Acc) : a.lateOf = ((a.parts.filter fun p => p.cause.isSome).foldl lowerPart none).map
    fun p => ⟨a.seq, 0, p.cause.getD 0, p.va, a.lateDetail⟩ := rfl

/-- The lowest of some accesses is the one that no other equals in its element. -/
theorem foldl_lowerPart {p : Part} {l : List Part} (hlow : ∀ q ∈ l, p.elem ≤ q.elem) (hone : ∀ q ∈ l, q.elem = p.elem → q = p)
    (b : Option Part) (hb : b = some p ∨ p ∈ l ∧ ∀ q, b = some q → p.elem < q.elem) : l.foldl lowerPart b = some p := by
  induction l generalizing b with
  | nil => simpa using hb
  | cons x t ih =>
    obtain ⟨hx, hlow⟩ := List.forall_mem_cons.1 hlow
    obtain ⟨hxp, hone⟩ := List.forall_mem_cons.1 hone
    refine ih hlow hone _ ?_
    rcases hb with rfl | ⟨hmem, hb⟩
    · exact .inl (if_neg (Nat.not_lt.2 hx))
    · by_cases he : x.elem = p.elem
      · obtain rfl := hxp he
        left
        cases b with
        | none => rfl
        | some q => exact if_pos (hb q rfl)
      · have hne : p ≠ x := fun e => he (e ▸ rfl)
        refine .inr ⟨(List.mem_cons.1 hmem).resolve_left hne, fun q hq => ?_⟩
        unfold lowerPart at hq
        split at hq
        · next q' => split at hq <;> cases hq; exacts [by omega, hb _ rfl]
        · cases hq; omega

theorem lateOf_performed {a : Acc} (h : ∀ p ∈ a.parts, p.stage = .performed) : a.lateOf = none := by
  have hnil : (a.parts.filter fun p => p.cause.isSome) = [] :=
    List.filter_eq_nil_iff.2 fun p hp => by rw [cause_performed (h p hp)]; simp
  rw [lateOf_eq, hnil]
  rfl

/-- The lowest element that failed gives the late outcome. -/
theorem lateOf_failed {a : Acc} {p : Part} {c : Nat} (hp : p ∈ a.parts) (hc : p.stage = .failed c)
    (hlow : ∀ q ∈ a.parts, (∃ c, q.stage = .failed c) → p.elem ≤ q.elem) (hone : ∀ q ∈ a.parts, q.elem = p.elem → q = p) :
    a.lateOf = some ⟨a.seq, 0, c, p.va, a.lateDetail⟩ := by
  have hmem : p ∈ a.parts.filter fun p => p.cause.isSome := List.mem_filter.2 ⟨hp, by rw [cause_failed hc]; rfl⟩
  have hfold : (a.parts.filter fun p => p.cause.isSome).foldl lowerPart none = some p :=
    foldl_lowerPart (fun q hq => hlow q (List.mem_of_mem_filter hq) (cause_isSome (List.mem_filter.1 hq).2))
      (fun q hq => hone q (List.mem_of_mem_filter hq)) none (.inr ⟨hmem, fun _ h => by cases h⟩)
  rw [lateOf_eq, hfold, Option.map_some, cause_failed hc, Option.getD_some]

theorem returnAcc_performed {s : State} {a : Acc} (h : ∀ p ∈ a.parts, p.stage = .performed) :
    s.returnAcc a = (s.dropAcc a.frame a.seq).deliver a := by
  simp only [State.returnAcc, lateOf_performed h]

theorem returnAcc_late {s : State} {a : Acc} {l : Late} (h : a.lateOf = some l) :
    s.returnAcc a = ((s.dropAcc a.frame a.seq).undeliver a).report a.frame l := by
  simp only [State.returnAcc, h]

/-! ### Registers and flags of a return -/

@[simp] theorem setGr_v (x : Frame) (n : Nat) (w : Word) : (x.setGr n w).v = x.v := by rw [setGr_kept]

@[simp] theorem setGr_amoFlags (x : Frame) (n : Nat) (w : Word) : (x.setGr n w).amoFlags = x.amoFlags := by rw [setGr_kept]

theorem extend_word (w : Word) (size : Nat) (sg : Bool) :
    extend w.toNat size sg = if sg then BitVec.ofInt 64 (sextNat w.toNat (8 * size)) else w := by
  rw [extend, BitVec.ofNat_toNat, BitVec.setWidth_eq]

/-- The entry that flags make among those of returned atomics: none without a flag (spec/01 R23). -/
def amoEntry (a : Acc) (fl : Nat) : List (Nat × Nat) := if fl = 0 then [] else [(a.arith.toNat / 256 % 256, fl)]

theorem amoReturn_within (s : State) (a : Acc) (fl : Nat) : Within s (s.amoReturn a fl) [a.frame] := by
  unfold State.amoReturn
  split
  · exact .refl s _
  · exact updFrame_within s _ _

theorem frame_amoReturn (s : State) (a : Acc) (fl : Nat) : (s.amoReturn a fl).frame a.frame =
    { s.frame a.frame with amoFlags := (s.frame a.frame).amoFlags ++ amoEntry a fl } := by
  unfold State.amoReturn amoEntry
  split
  · rw [List.append_nil]
  · rw [frame_updFrame_same]; rfl

section
variable {s : State} {a : Acc}

theorem deliver_g {p : Part} {rd size : Nat} {sg : Bool} (hret : a.ret = .g rd size sg) (hp : a.parts = [p]) :
    s.deliver a = s.updFrame a.frame (·.setGr rd (extend p.val.toNat size sg)) := by
  simp only [State.deliver, hret, hp]

theorem deliver_sc {p : Part} {rd : Nat} (hret : a.ret = .sc rd) (hp : a.parts = [p]) :
    s.deliver a = s.updFrame a.frame (·.setGr rd p.val) := by
  simp only [State.deliver, hret, hp, BitVec.ofNat_toNat, BitVec.setWidth_eq]

theorem deliver_amo {p : Part} {rd size : Nat} {sg : Bool} (hret : a.ret = .amo rd size sg) (hp : a.parts = [p]) :
    s.deliver a =
      (s.updFrame a.frame (·.setGr rd (extend p.val.toNat size sg))).amoReturn a (p.data2.toNat ||| a.fl0) := by
  simp only [State.deliver, hret, hp]

theorem deliver_v {rd : Nat} {elems : List (Nat × Nat × Nat × Nat × Nat)} {zero : List (Nat × Nat)}
    (hret : a.ret = .v rd 1 elems zero) :
    s.deliver a = s.loadV a.frame rd a.seq (s.loadedV a rd 0 elems zero) a.gang := by
  simp only [State.deliver, hret]
  rfl

theorem undeliver_scalar (hret : ∀ r n el z, a.ret ≠ .v r n el z) : s.undeliver a = s.amoReturn a a.fl0 := by
  cases h : a.ret with
  | v r n el z => exact absurd h (hret r n el z)
  | _ => simp only [State.undeliver, h]

/-- A failed load of registers behind which no unit stands leaves them. -/
theorem undeliver_unbound {r n : Nat} {el : List (Nat × Nat × Nat × Nat × Nat)} {z : List (Nat × Nat)} (hret : a.ret = .v r n el z)
    (hu : ∀ k < n, (s.frame a.frame).unitAt (r + k) = none) : s.undeliver a = s := by
  have hfold : ∀ l : List Nat, (∀ k ∈ l, (s.frame a.frame).unitAt (r + k) = none) →
      l.foldl (fun t k => t.withdrawV a.frame (r + k) a.seq) s = s := fun l hl => by
    induction l with
    | nil => rfl
    | cons k t ih =>
      obtain ⟨hk, ht⟩ := List.forall_mem_cons.1 hl
      have hone : s.withdrawV a.frame (r + k) a.seq = s := by simp only [State.withdrawV, hk]
      rw [List.foldl_cons, hone, ih ht]
  simp only [State.undeliver, hret]
  exact hfold _ fun k hk => hu k (List.mem_range.1 hk)

theorem undeliver_v {rd : Nat} {el : List (Nat × Nat × Nat × Nat × Nat)} {z : List (Nat × Nat)} (hret : a.ret = .v rd 1 el z) :
    s.undeliver a = s.withdrawV a.frame rd a.seq := by
  simp only [State.undeliver, hret]
  rfl

/-- What a failed return leaves of the thread's frame: the flags set at issue stand beside the others. -/
theorem undeliver_frame (hu : ∀ r n el z, a.ret = .v r n el z → ∀ k < n, (s.frame a.frame).unitAt (r + k) = none) :
    Within s (s.undeliver a) [a.frame] ∧ ∃ fl, (s.undeliver a).frame a.frame = { s.frame a.frame with amoFlags := fl } ∧
      ∀ r n sg, a.ret = .amo r n sg → fl = (s.frame a.frame).amoFlags ++ amoEntry a a.fl0 := by
  by_cases hv : ∃ r n el z, a.ret = .v r n el z
  · obtain ⟨r, n, el, z, hret⟩ := hv
    rw [undeliver_unbound hret (hu r n el z hret)]
    exact ⟨.refl s _, _, rfl, fun _ _ _ h => by rw [hret] at h; cases h⟩
  · rw [undeliver_scalar fun r n el z h => hv ⟨r, n, el, z, h⟩]
    exact ⟨amoReturn_within s a _, _, frame_amoReturn s a _, fun _ _ _ _ => rfl⟩

end

/-- A state that differs from the one without the record in those parts of the frame that a return may change. -/
theorem returned_of_within {s t : State} {f seq : Nat} (h : Within (s.dropAcc f seq) t [f])
    (hk : t.frame f = { s.frame f with g := (t.frame f).g, v := (t.frame f).v, amoFlags := (t.frame f).amoFlags,
                                       late := (t.frame f).late }) : Returned s t f seq := by
  refine ⟨?_, fun k hkf => h.others k (by simpa using hkf), h.bytes, hk⟩
  rw [h.rest]
  rfl

theorem gTakes_of_frame {s t : State} {f rd : Nat} {w : Word} (hg : (t.frame f).g = ((s.frame f).setGr rd w).g)
    (hv : (t.frame f).v = (s.frame f).v) : GTakes s t f rd w := by
  refine ⟨hv, fun k hk => ?_⟩
  rw [← gr_setGr _ _ _ _ hk, Frame.gr, Frame.gr, hg]

/-- The thread's register takes a value and the record is gone. -/
theorem setGr_returned (s : State) (f seq rd : Nat) (w : Word) :
    Returned s ((s.dropAcc f seq).updFrame f (·.setGr rd w)) f seq ∧
      GTakes s ((s.dropAcc f seq).updFrame f (·.setGr rd w)) f rd w := by
  have hf : ((s.dropAcc f seq).updFrame f (·.setGr rd w)).frame f = (s.frame f).setGr rd w := frame_updFrame_same ..
  refine ⟨returned_of_within (updFrame_within _ f _) ?_, gTakes_of_frame (by rw [hf]) (by rw [hf, setGr_v])⟩
  rw [hf, setGr_kept]

/-- An atomic's old value comes with its flags. -/
theorem amo_returned (s : State) (a : Acc) (rd fl : Nat) (w : Word) :
    let t := ((s.dropAcc a.frame a.seq).updFrame a.frame (·.setGr rd w)).amoReturn a fl
    Returned s t a.frame a.seq ∧ (t.frame a.frame).amoFlags = (s.frame a.frame).amoFlags ++ amoEntry a fl ∧
      GTakes s t a.frame rd w := by
  intro t
  have hf : t.frame a.frame = { (s.frame a.frame).setGr rd w with amoFlags := (s.frame a.frame).amoFlags ++ amoEntry a fl } := by
    rw [frame_amoReturn, frame_updFrame_same, setGr_amoFlags]
    rfl
  refine ⟨returned_of_within ((updFrame_within _ _ _).trans (amoReturn_within _ a fl)) ?_, by rw [hf],
    gTakes_of_frame (by rw [hf]) (by rw [hf, setGr_v])⟩
  rw [hf, setGr_kept]

/-- A failed return leaves the registers and reports. -/
theorem late_returned (s : State) (a : Acc) (l : Late)
    (hu : ∀ r n el z, a.ret = .v r n el z → ∀ k < n, (s.frame a.frame).unitAt (r + k) = none) :
    let t := ((s.dropAcc a.frame a.seq).undeliver a).report a.frame l
    Returned s t a.frame a.seq ∧ (t.frame a.frame).g = (s.frame a.frame).g ∧ (t.frame a.frame).v = (s.frame a.frame).v ∧
      (t.frame a.frame).late = (s.frame a.frame).late ++ [l] ∧
      ∀ r n sg, a.ret = .amo r n sg → (t.frame a.frame).amoFlags = (s.frame a.frame).amoFlags ++ amoEntry a a.fl0 := by
  intro t
  obtain ⟨hw, fl, hframe, hamo⟩ := undeliver_frame (s := s.dropAcc a.frame a.seq) hu
  have hf : t.frame a.frame = { s.frame a.frame with amoFlags := fl, late := (s.frame a.frame).late ++ [l] } := by
    change (State.report _ _ _).frame _ = _
    rw [State.report, frame_updFrame_same, hframe]
    rfl
  exact ⟨returned_of_within (hw.trans (updFrame_within _ _ _)) (by rw [hf]), by rw [hf], by rw [hf], by rw [hf],
    fun r n sg hr => by rw [hf]; exact hamo r n sg hr⟩

/-! ### Vector registers (spec/01 R20) -/

theorem oddOf_ne (f : Nat) : oddOf f ≠ f := Nat.succ_ne_self f

theorem setVregOf_slot (s : State) (f n w : Nat) :
    s.setVregOf f n w false = s.updFrame f (·.setVr n (BitVec.ofNat 128 w)) := rfl

theorem setVregOf_pair (s : State) (f n w : Nat) : s.setVregOf f n w true =
    (s.updFrame f (·.setVr n (BitVec.ofNat 128 w))).updFrame (oddOf f) (·.setVr n (BitVec.ofNat 128 (w / 2 ^ 128))) := rfl

theorem frame_setVregOf_same (s : State) (f n w : Nat) (gang : Bool) :
    (s.setVregOf f n w gang).frame f = (s.frame f).setVr n (BitVec.ofNat 128 w) := by
  cases gang with
  | false => rw [setVregOf_slot, frame_updFrame_same]
  | true => rw [setVregOf_pair, frame_updFrame_other _ _ (oddOf_ne f).symm, frame_updFrame_same]

theorem frame_setVregOf_odd (s : State) (f n w : Nat) :
    (s.setVregOf f n w true).frame (oddOf f) = (s.frame (oddOf f)).setVr n (BitVec.ofNat 128 (w / 2 ^ 128)) := by
  rw [setVregOf_pair, frame_updFrame_same, frame_updFrame_other _ _ (oddOf_ne f)]

theorem frame_setVregOf_other (s : State) {f n w k : Nat} {gang : Bool} (hf : k ≠ f) (hodd : ¬ (gang = true ∧ k = oddOf f)) :
    (s.setVregOf f n w gang).frame k = s.frame k := by
  cases gang with
  | false => rw [setVregOf_slot, frame_updFrame_other _ _ hf]
  | true =>
    have hne : k ≠ oddOf f := fun e => hodd ⟨rfl, e⟩
    rw [setVregOf_pair, frame_updFrame_other _ _ hne, frame_updFrame_other _ _ hf]

theorem setVregOf_rest (s : State) (f n w : Nat) (gang : Bool) :
    s.setVregOf f n w gang = { s with frames := (s.setVregOf f n w gang).frames } := by
  cases gang <;> rfl

theorem setVregOf_bytes (s : State) (f n w : Nat) (gang : Bool) : SameBytes s (s.setVregOf f n w gang) := by
  rw [setVregOf_rest]
  exact fun _ => rfl

/-- A vector register of a slot or a pair after a write of one: its low 128 or 256 bits. -/
theorem vregOf_setVregOf (s : State) (f n w : Nat) (gang : Bool) {k : Nat} (hk : k < 32) :
    (s.setVregOf f n w gang).vregOf f k gang =
      if k = n then w % 2 ^ (if gang then 256 else 128) else s.vregOf f k gang := by
  cases gang with
  | false =>
    simp only [State.vregOf, Bool.false_eq_true, if_false, frame_setVregOf_same, vr_setVr _ _ _ _ hk]
    split
    · rw [BitVec.toNat_ofNat]
    · rfl
  | true =>
    simp only [State.vregOf, if_true, frame_setVregOf_same, frame_setVregOf_odd, vr_setVr _ _ _ _ hk]
    split
    · rw [BitVec.toNat_ofNat, BitVec.toNat_ofNat]; omega
    · rfl

theorem loadV_unbound {s : State} {f r : Nat} (h : (s.frame f).unitAt r = none) (seq v : Nat) (gang : Bool) :
    s.loadV f r seq v gang = s.setVregOf f r v gang := by
  simp only [State.loadV, h]

theorem loadV_gen {s : State} {f r : Nat} {u : Unit} (h : (s.frame f).unitAt r = some u) (hk : u.kind = .gen) (seq v : Nat)
    (gang : Bool) : s.loadV f r seq v gang = s.setUnit f (r - 28) (u.fill seq v) := by
  simp only [State.loadV, h, hk]

theorem loadV_nbr {s : State} {f r : Nat} {u : Unit} (h : (s.frame f).unitAt r = some u) (hk : u.kind = .nbr) (seq v : Nat)
    (gang : Bool) : s.loadV f r seq v gang = s.pushUnit f u v gang := by
  simp only [State.loadV, h, hk]

end Sys2Proof.Machine

/-! ### O9: loads return or report -/

namespace Sys2Proof.LoadReturns
open Sys2Proof.Machine

/-- One access that has been performed: the record is delivered. -/
theorem exec_return_performed {s : State} {f seq : Nat} {a : Acc} (h : s.halt = none) (ha : s.accOf f seq = some a)
    (hid : a.frame = f ∧ a.seq = seq) (hret : a.ret ≠ .none) (hop : a.op ≠ .waitrs)
    (hp : ∀ p ∈ a.parts, p.stage = .performed) :
    exec (.loadDataReturn f seq) s = .next ((s.dropAcc a.frame a.seq).deliver a) := by
  have hd : a.done = true := List.all_eq_true.2 fun p hm => done_of_ended (.inl (hp p hm))
  rw [exec_loadDataReturn_done h ha hid hret hop hd, returnAcc_performed hp]

/-- Accesses that have ended, one of them failed: the record's late outcome is reported. -/
theorem exec_return_late {s : State} {f seq : Nat} {a : Acc} {l : Late} (h : s.halt = none) (ha : s.accOf f seq = some a)
    (hid : a.frame = f ∧ a.seq = seq) (hret : a.ret ≠ .none) (hop : a.op ≠ .waitrs)
    (hp : ∀ p ∈ a.parts, p.stage = .performed ∨ ∃ c, p.stage = .failed c) (hl : a.lateOf = some l) :
    exec (.loadDataReturn f seq) s = .next (((s.dropAcc a.frame a.seq).undeliver a).report a.frame l) := by
  have hd : a.done = true := List.all_eq_true.2 fun p hm => done_of_ended (hp p hm)
  rw [exec_loadDataReturn_done h ha hid hret hop hd, returnAcc_late hl]

theorem loadReturnsOrReports : LoadReturnsOrReports := by
  rintro s _ _ a p h ha hparts hop ⟨rfl, rfl⟩ flags
  have hperf (hp : p.stage = .performed) : ∀ q ∈ a.parts, q.stage = .performed := fun q hq => by
    rw [hparts] at hq
    rwa [List.mem_singleton.1 hq]
  have hexec (hret : a.ret ≠ .none) (hp : p.stage = .performed) :=
    exec_return_performed h ha ⟨rfl, rfl⟩ hret hop (hperf hp)
  refine ⟨fun rd size sg hret hp => ?g, fun rd hret hp => ?sc, fun rd size sg hret hp => ?amo, fun c hret hp hu => ?failed⟩
  case g =>
    obtain ⟨hr, hg⟩ := setGr_returned s a.frame a.seq rd (extend p.val.toNat size sg)
    refine ⟨_, hexec (by simp [hret]) hp, ?_, ?_⟩
    · rwa [deliver_g hret hparts]
    · rw [deliver_g hret hparts, ← extend_word]; exact hg
  case sc =>
    obtain ⟨hr, hg⟩ := setGr_returned s a.frame a.seq rd p.val
    refine ⟨_, hexec (by simp [hret]) hp, ?_, ?_⟩
    · rwa [deliver_sc hret hparts]
    · rwa [deliver_sc hret hparts]
  case amo =>
    refine ⟨_, hexec (by simp [hret]) hp, ?_⟩
    rw [deliver_amo hret hparts, ← extend_word]
    exact amo_returned s a rd _ _
  case failed =>
    have hfailed (q : Part) (hq : q ∈ a.parts) : q.stage = .failed c := by
      rw [hparts] at hq
      rwa [List.mem_singleton.1 hq]
    have hone (q : Part) (hq : q ∈ a.parts) : q = p := by rwa [hparts, List.mem_singleton] at hq
    have hl := lateOf_failed (by simp [hparts]) hp (fun q hq _ => by rw [hone q hq]) fun q hq _ => hone q hq
    exact ⟨_, exec_return_late h ha ⟨rfl, rfl⟩ hret hop (fun q hq => .inr ⟨c, hfailed q hq⟩) hl, late_returned s a _ hu⟩

theorem vectorLoadReturns : VectorLoadReturns := by
  rintro s _ _ rd a elems zero h ha hop ⟨rfl, rfl⟩ hret hrd gone low
  have hne : a.ret ≠ .none := by simp [hret]
  have hnw : a.op ≠ .waitrs := by simp [hop]
  have hvalue : gone.loadedV a rd 0 elems zero = s.loadedV a rd 0 elems zero := rfl
  have hexec (hp : ∀ p ∈ a.parts, p.stage = .performed) : exec (.loadDataReturn a.frame a.seq) s =
      .next (gone.loadV a.frame rd a.seq (s.loadedV a rd 0 elems zero) a.gang) := by
    rw [exec_return_performed h ha ⟨rfl, rfl⟩ hne hnw hp, deliver_v hret]
    rfl
  refine ⟨fun hp hu => ?register, fun u hp hu => ⟨fun hk => ?gen, fun hk => ?nbr⟩, fun p c hend hmem hc hlow hone => ?failed⟩
  case register =>
    have hu : (gone.frame a.frame).unitAt rd = none := hu
    refine ⟨_, hexec hp, ?_⟩
    rw [loadV_unbound hu]
    refine ⟨setVregOf_bytes gone _ _ _ _, setVregOf_rest gone _ _ _ _, fun k hk => vregOf_setVregOf gone _ _ _ _ hk, ?_,
      fun k hk hodd => frame_setVregOf_other gone hk hodd⟩
    rw [frame_setVregOf_same]
    rfl
  case gen => rw [hexec hp, loadV_gen (s := gone) hu hk]
  case nbr => rw [hexec hp, loadV_nbr (s := gone) hu hk]
  case failed =>
    have hlate := exec_return_late h ha ⟨rfl, rfl⟩ hne hnw hend (lateOf_failed hmem hc hlow hone)
    rw [undeliver_v hret] at hlate
    exact hlate

/-- Settles O9: what has ended leaves its record; its value or its late outcome goes to the thread. -/
theorem loadsReturn : Obligations.LoadsReturn :=
  ⟨loadReturnsOrReports, vectorLoadReturns⟩

end Sys2Proof.LoadReturns
end

section
/-!
PROOFS. Traps (spec/05 R109–R118): what the record of a trap and the split of a gang leave, the handler frame that starts, and the
frames in which a trap kills a launch.
-/
namespace Sys2Proof.Machine

/-! ### The record of a trap -/

theorem me_of_cur {s t : State} (h : t.cur = s.cur) : t.me = t.frame s.cur := by rw [State.me, h]

@[simp] theorem cur_updCore (s : State) (n : Nat) (u : CoreSt → CoreSt) : (s.updCore n u).cur = s.cur := rfl
@[simp] theorem frame_updCore (s : State) (n k : Nat) (u : CoreSt → CoreSt) : (s.updCore n u).frame k = s.frame k := rfl

theorem frame_recordTrap (s : State) (f k : Nat) (t : Trap) (g : Bool) : (s.recordTrap f t g).frame k =
    if k = f then { s.frame f with
      tcause := tcauseWord t.cause t.detail g, taddr := t.addr, tretpc := t.retpc.setWidth 64 } else s.frame k :=
  frame_updFrame s f k fun x =>
    { x with tcause := tcauseWord t.cause t.detail g, taddr := t.addr, tretpc := t.retpc.setWidth 64 }

/-- A thread that a trap stops: its trap registers are written, and its gang is split (spec/05 R109, R113). -/
def State.stopThread (s : State) (f : Nat) (t : Trap) : State :=
  if (s.frame f).gang then (s.recordTrap f t true).splitGang f .gangStop else s.recordTrap f t false

theorem trapThread_eq (s : State) (f : Nat) (t : Trap) : s.trapThread f t =
    if (s.stopThread f t).urgentFree (coreOf f) then (s.stopThread f t).enterHandler f
    else ((s.stopThread f t).updFrame f fun x => { x with stat := .parkTrap }).updCore (coreOf f)
      fun c => { c with parked := c.parked ++ [f] } := by
  unfold State.stopThread State.trapThread
  cases (s.frame f).gang <;> rfl

theorem frame_stopThread_same (s : State) (f : Nat) (t : Trap) : (s.stopThread f t).frame f = { s.frame f with
    gang := false, tcause := tcauseWord t.cause t.detail (s.frame f).gang, taddr := t.addr,
    tretpc := t.retpc.setWidth 64 } := by
  unfold State.stopThread
  split
  · next h => simp [State.splitGang, frame_updFrame, frame_recordTrap, (oddOf_ne f).symm, h]
  · next h => simp [frame_recordTrap, Bool.eq_false_iff.2 h]

theorem frame_stopThread_other (s : State) {f k : Nat} (t : Trap) (h : k ≠ f) : (s.stopThread f t).frame k =
    if (s.frame f).gang = true ∧ k = oddOf f then { s.frame k with stat := .gangStop } else s.frame k := by
  unfold State.stopThread
  split
  · next hg =>
    by_cases hk : k = oddOf f
    · subst hk; simp [State.splitGang, frame_updFrame, frame_recordTrap, h, hg]
    · simp [State.splitGang, frame_updFrame, frame_recordTrap, h, hk]
  · next hg => simp [frame_recordTrap, h, hg]

/-- Stopping a thread writes frames, and ends its reservation and what it waits for in WAITRS and SWAIT. -/
theorem stopThread_rest (s : State) (f : Nat) (t : Trap) : s.stopThread f t = { s with
    frames := (s.stopThread f t).frames
    resvs := s.resvs.filter fun r => r.frame ≠ f
    accs := s.accs.filter fun a => !(a.frame == f && a.op == .waitrs)
    svars := (s.stopThread f t).svars } := by
  unfold State.stopThread
  split <;> rfl

@[simp] theorem cur_stopThread (s : State) (f : Nat) (t : Trap) : (s.stopThread f t).cur = s.cur := by
  rw [stopThread_rest]
@[simp] theorem accums_stopThread (s : State) (f : Nat) (t : Trap) : (s.stopThread f t).accums = s.accums := by
  rw [stopThread_rest]
@[simp] theorem core_stopThread (s : State) (f k : Nat) (t : Trap) : (s.stopThread f t).core k = s.core k := by
  rw [stopThread_rest]; rfl

/-- The stop of a thread leaves the urgent frame of its core as free as it was: where the frame is in use, it stays so. -/
theorem urgentFree_stopThread (s : State) (f : Nat) (t : Trap) (core : Nat)
    (h : s.urgentFree core = false ∨ f ≠ urgentKey core ∧ oddOf f ≠ urgentKey core) :
    (s.stopThread f t).urgentFree core = s.urgentFree core := by
  unfold State.urgentFree at h ⊢
  rw [core_stopThread]
  by_cases hf : urgentKey core = f
  · rw [← hf, frame_stopThread_same]
  · rw [frame_stopThread_other s t hf]
    split
    · next hodd =>
      rcases h with hfree | ⟨-, hne⟩
      · rw [hfree]; rfl
      · exact absurd hodd.2.symm hne
    · rfl

/-- The executing thread, stopped by a trap at its own instruction. -/
abbrev State.stopped (s : State) (cause detail : Nat) (addr : Word) : State :=
  s.stopThread s.cur ⟨cause, detail, addr, s.me.pc⟩

/-! ### The handler frame (spec/05 R114) -/

@[simp] theorem frame_dropHeader (s : State) (f k : Nat) : (s.dropHeader f).frame k = s.frame k := rfl
@[simp] theorem frame_clearUrgentAccs (s : State) (core k : Nat) : (s.clearUrgentAccs core).frame k = s.frame k := rfl
@[simp] theorem core_clearUrgentAccs (s : State) (core k : Nat) : (s.clearUrgentAccs core).core k = s.core k := rfl

theorem coreOf_urgentKey (core : Nat) : coreOf (urgentKey core) = core := by unfold coreOf urgentKey; omega

theorem frame_enterHandler (s : State) (f k : Nat) : (s.enterHandler f).frame k =
    if k = urgentKey (coreOf f) then s.handlerFrame f
    else if k = f then { s.frame f with stat := .trapped } else s.frame k := by
  simp only [State.enterHandler, frame_clearUrgentAccs, frame_dropHeader, frame_setFrame, frame_updFrame]

theorem frame_enterHandler_urgent (s : State) (f : Nat) :
    (s.enterHandler f).frame (urgentKey (coreOf f)) = s.handlerFrame f := by
  rw [frame_enterHandler, if_pos rfl]
theorem frame_enterHandler_served (s : State) {f : Nat} (h : f ≠ urgentKey (coreOf f)) :
    (s.enterHandler f).frame f = { s.frame f with stat := .trapped } := by
  rw [frame_enterHandler, if_neg h, if_pos rfl]
theorem frame_enterHandler_other (s : State) {f k : Nat} (hu : k ≠ urgentKey (coreOf f)) (h : k ≠ f) :
    (s.enterHandler f).frame k = s.frame k := by
  rw [frame_enterHandler, if_neg hu, if_neg h]

/-- The handler of a stopped thread finds of it what it was before it stopped. -/
theorem handlerFrame_stopThread (s : State) (f : Nat) (t : Trap) : (s.stopThread f t).handlerFrame f = s.handlerFrame f := by
  have hstack (core part : Nat) : (s.stopThread f t).handlerStack core part = s.handlerStack core part := by
    rw [stopThread_rest]; rfl
  have hserials : (s.stopThread f t).serials = s.serials := by rw [stopThread_rest]
  simp only [State.handlerFrame, frame_stopThread_same, hstack, hserials]

/-- a8 and a9 of the core become CLEAR, and no other accumulator changes (spec/11 R255). -/
theorem accums_clearUrgentAccs (s : State) (core k : Nat) : lookD (s.clearUrgentAccs core).accums k .clear =
    if k = core * 6 + 4 ∨ k = core * 6 + 5 then .clear else lookD s.accums k .clear := by
  simp only [State.clearUrgentAccs, State.setAccum, lookD_put]
  by_cases h4 : k = core * 6 + 4 <;> by_cases h5 : k = core * 6 + 5 <;> simp [h4, h5]

theorem clearUrgentAccs_rest (s : State) (core : Nat) :
    s.clearUrgentAccs core = { s with accums := (s.clearUrgentAccs core).accums } := rfl
theorem dropHeader_rest (s : State) (f : Nat) : s.dropHeader f = { s with cores := (s.dropHeader f).cores } := rfl

/-- The start of a handler writes frames, its core and the accumulators of the urgent frame. -/
theorem enterHandler_rest (s : State) (f : Nat) :
    ∃ fr co ac, s.enterHandler f = { s with frames := fr, cores := co, accums := ac } := by
  unfold State.enterHandler
  rw [clearUrgentAccs_rest, dropHeader_rest]
  exact ⟨_, _, _, rfl⟩

@[simp] theorem cur_enterHandler (s : State) (f : Nat) : (s.enterHandler f).cur = s.cur := by
  obtain ⟨fr, co, ac, h⟩ := enterHandler_rest s f
  rw [h]

theorem accums_enterHandler (s : State) (f k : Nat) : lookD (s.enterHandler f).accums k .clear =
    if k = coreOf f * 6 + 4 ∨ k = coreOf f * 6 + 5 then .clear else lookD s.accums k .clear :=
  accums_clearUrgentAccs _ _ k

/-- The start of a handler takes the header of the table anew, and leaves the rest of every core (spec/14 R308). -/
theorem core_enterHandler (s : State) (f k : Nat) : (s.enterHandler f).core k =
    if k = coreOf f then { s.core k with plb := ((s.enterHandler f).core k).plb } else s.core k := by
  simp only [State.enterHandler, core_clearUrgentAccs, State.dropHeader, core_updCore, coreOf_urgentKey]
  split
  · next h => subst h; rfl
  · rfl

/-! ### Which trap does what -/

theorem trap_pagePark {s : State} (hk : s.me.kind ≠ .urgent) (detail : Nat) (addr : Word) : s.trap 0x06 detail addr =
    (s.recordTrap s.cur ⟨0x06, detail, addr, s.me.pc⟩ false).updFrame s.cur fun y => { y with stat := .parkPage } := by
  simp only [State.trap, State.takeTrap]
  split
  · next h => exact absurd h hk
  · rfl
  · rfl

/-- A thread that is neither urgent nor a handler takes a trap by itself. -/
theorem trap_thread {s : State} (hk : s.me.kind = .slot ∨ s.me.kind = .dispatch ∨ s.me.kind = .mgmt) {cause : Nat}
    (hc : cause ≠ 0x06) (detail : Nat) (addr : Word) :
    s.trap cause detail addr = s.trapThread s.cur ⟨cause, detail, addr, s.me.pc⟩ := by
  unfold State.me at hk
  rcases hk with h | h | h <;> simp only [State.trap, State.takeTrap, h, hc, if_false]

theorem trap_urgent {s : State} {e : Nat} (hk : s.me.kind = .urgent) (hl : s.me.launch = some e) (cause detail : Nat)
    (addr : Word) : s.trap cause detail addr = s.killLaunch e 0x04 cause := by
  unfold State.me at hk hl
  simp only [State.trap, State.takeTrap, hk, hl]

theorem trap_handler {s : State} {n e : Nat} (hk : s.me.kind = .handler n) {cause : Nat} (hc : cause ≠ 0x06)
    (hl : (s.frame n).launch = some e) (detail : Nat) (addr : Word) :
    s.trap cause detail addr = (s.freeUrgent s.myCore).killLaunch e 0x03 cause := by
  unfold State.me at hk
  simp only [State.trap, State.takeTrap, hk, hc, if_false, State.handlerFault, hl, State.myCore]

end Sys2Proof.Machine

/-! ### O31: traps -/

namespace Sys2Proof.Traps
open Sys2Proof.Machine

/-- A page fault parks its thread and leaves its gang to it, where it has none (spec/05 R118). -/
theorem pagePark_gives {s : State} (hk : s.me.kind ≠ .urgent) (hg : s.me.gang = false) (detail : Nat) (addr : Word) :
    (s.trap 0x06 detail addr).me = trappedFrame s.me 0x06 detail addr .parkPage ∧ TrapFrame s (s.trap 0x06 detail addr) := by
  rw [trap_pagePark hk]
  refine ⟨?_, rfl, fun _ => .inl rfl, fun _ => rfl, rfl, rfl⟩
  change State.frame _ s.cur = _
  rw [frame_updFrame_same, frame_recordTrap, if_pos rfl]
  unfold State.me at hg
  simp only [trappedFrame, tcauseWord, State.me, hg, Bool.false_eq_true, if_false]

/-- What a stopped thread leaves alone, with only frames, cores and the accumulators of the urgent frame written after. -/
theorem trapFrame_of_stopThread {s t : State} {tr : Trap} {fr : SMap Frame} {co : SMap CoreSt} {ac : SMap Accum}
    (h : t = { s.stopThread s.cur tr with frames := fr, cores := co, accums := ac })
    (hac : ∀ k, lookD ac k .clear = lookD s.accums k .clear ∨ UrgentAcc s.myCore k ∧ lookD ac k .clear = .clear) :
    TrapFrame s t := by
  rw [stopThread_rest] at h
  subst h
  exact ⟨rfl, hac, fun _ => rfl, rfl, rfl⟩

theorem trappedFrame_stopThread (s : State) (cause detail : Nat) (addr : Word) (st : FStat) :
    { (s.stopped cause detail addr).frame s.cur with stat := st } = trappedFrame s.me cause detail addr st := by
  rw [frame_stopThread_same]; rfl

/-- A thread stops and its handler starts in the free urgent frame (spec/05 R114). -/
theorem handler_starts {s : State} (hk : s.me.kind = .slot ∨ s.me.kind = .dispatch ∨ s.me.kind = .mgmt) {cause : Nat}
    (hc : cause ≠ 0x06) (hfree : s.urgentFree s.myCore = true) (hcur : s.cur ≠ urgentKey s.myCore)
    (hodd : oddOf s.cur ≠ urgentKey s.myCore) (detail : Nat) (addr : Word) : s.trap cause detail addr =
      (s.stopped cause detail addr).enterHandler s.cur := by
  rw [trap_thread hk hc, trapThread_eq, if_pos]
  exact (urgentFree_stopThread s _ _ _ (.inr ⟨hcur, hodd⟩)).trans hfree

/-- A thread parks behind what holds or awaits the urgent frame (spec/05 R115). -/
theorem trap_parks {s : State} (hk : s.me.kind = .slot ∨ s.me.kind = .dispatch ∨ s.me.kind = .mgmt) {cause : Nat}
    (hc : cause ≠ 0x06) (hfree : s.urgentFree s.myCore = false) (detail : Nat) (addr : Word) : s.trap cause detail addr =
      ((s.stopped cause detail addr).updFrame s.cur fun x => { x with stat := .parkTrap }).updCore
        s.myCore fun c => { c with parked := c.parked ++ [s.cur] } := by
  rw [trap_thread hk hc, trapThread_eq, if_neg]
  · rfl
  · have := urgentFree_stopThread s s.cur ⟨cause, detail, addr, s.me.pc⟩ s.myCore (.inl hfree)
    exact Bool.eq_false_iff.1 (this.trans hfree)

theorem trap_length (o : Opnd) : (encode (.trap o)).length = o.halves 3 :=
  (encode_length (i := .trap o) rfl rfl :)

theorem threadTrapsEnterAHandler : ThreadTrapsEnterAHandler := by
  intro o s cause detail addr h
  refine ⟨?software, fun hk => ⟨?page, ?handler, ?park⟩⟩
  case software =>
    rw [trap_length]
    exact act_running h _
  case page =>
    rintro rfl hg
    exact pagePark_gives (by rcases hk with h | h | h <;> simp [h]) hg detail addr
  case handler =>
    intro hc hfree hcur hodd
    rw [handler_starts hk hc hfree hcur hodd]
    obtain ⟨fr, co, ac, hrest⟩ := enterHandler_rest (s.stopped cause detail addr) s.cur
    have haccums (k : Nat) := accums_enterHandler (s.stopped cause detail addr) s.cur k
    rw [accums_stopThread] at haccums
    refine ⟨?_, fun k hk hne => ?_, trapFrame_of_stopThread hrest fun k => ?_, ?_, fun k hk => (haccums k).trans (if_pos hk)⟩
    · rw [me_of_cur ((cur_enterHandler ..).trans (cur_stopThread ..)), frame_enterHandler_served _ hcur, trappedFrame_stopThread]
    · rw [frame_enterHandler_other _ (fun e => hk (List.mem_singleton.2 e)) hne, frame_stopThread_other s _ hne]; rfl
    · have hk := haccums k
      rw [hrest] at hk
      by_cases hu : UrgentAcc s.myCore k
      · exact .inr ⟨hu, hk.trans (if_pos hu)⟩
      · exact .inl (hk.trans (if_neg hu))
    · exact (frame_enterHandler_urgent ..).trans (handlerFrame_stopThread ..)
  case park =>
    intro hc hfree
    rw [trap_parks hk hc hfree]
    refine ⟨?_, fun k _ hk => ?_, trapFrame_of_stopThread rfl fun _ => .inl ?_, ?_⟩
    · rw [me_of_cur (((cur_updCore ..).trans (cur_updFrame ..)).trans (cur_stopThread ..)), frame_updCore,
        frame_updFrame_same, trappedFrame_stopThread]
    · rw [frame_updCore, frame_updFrame_other _ _ hk, frame_stopThread_other s _ hk]; rfl
    · exact congrArg (lookD · _ .clear) (accums_stopThread ..)
    · rw [core_updCore, if_pos rfl, core_updFrame, core_stopThread]

theorem trapsOfUrgentFrames : TrapsOfUrgentFrames := by
  intro s cause detail addr e
  exact ⟨fun hk hl => trap_urgent hk hl cause detail addr, fun n hk hc hl => trap_handler hk hc hl detail addr,
    fun n hk hg => pagePark_gives (by simp [hk]) hg detail addr⟩

/-- Settles O31: a trap is its record, and after it the park, the start of the handler or the kill. -/
theorem trapsEnterAHandler : Obligations.TrapsEnterAHandler := ⟨threadTrapsEnterAHandler, trapsOfUrgentFrames⟩

end Sys2Proof.Traps
end

section
/-!
PROOFS. The end of a served thread (spec/05 R117): a state whose frames are listed out of the order of their keys, in which the
discard of the handler frame brings another thread of a launch to light.
-/
namespace Sys2Proof.Machine

/-- A handler's HALT ends the served thread where nothing is under way and the thread owes nothing (spec/05 R117). -/
theorem exec_halt_handler {s : State} (h : s.halt = none) (o : Opnd) {n : Nat} (hk : s.me.kind = .handler n)
    (hquiet : s.quietFrame s.cur = true) (hcommands : s.commandsOpen s.cur = false) (hready : s.haltReady n = true)
    (hgang : s.servedGang n = false) (howes : (s.frame n).owesTrap = false) :
    exec (.halt o) s = .next ((s.freeUrgent s.myCore).haltThread n false) := by
  refine (act_running h _).trans (congrArg _ ?_)
  simp [hk, hquiet, hcommands, hready, hgang, howes, State.myCore]

end Sys2Proof.Machine

/-! ### O32: a served thread that reads as free -/

namespace Sys2Proof.ServedHalt
open Sys2Proof.Machine
set_option maxRecDepth 1000

/-- A handler in the urgent frame of core 0 serves frame 0, and the frames are listed out of order: the search for key 0 ends at
key 4, so that frame 0 reads as a free frame. Behind it stand two threads of launch 0, which is past its deadline with
ABORT_ON_MISS set and has only frame 0 left to halt. -/
def hiddenThreads : State :=
  { State.reset with
      cur := 4, fk := 64
      frames := [(4, { Frame.empty (.handler 0) with stat := .ready, priv := .s }),
        (0, { Frame.empty .slot with stat := .trapped, launch := some 0 }),
        (1, { Frame.empty .slot with stat := .ready, launch := some 0 })]
      launches := [(0, { LEntry.none with st := .placed, rt := true, abort := true, live := [0] })] }

theorem hiddenThreads_quiet (f : Nat) (h : f = 0 ∨ f = 4) : FrameQuiet hiddenThreads f := by
  rcases h with rfl | rfl
  · exact ⟨nofun, by decide, by decide⟩
  · exact ⟨nofun, by decide, by decide⟩

/-- The HALT finds the launch past its deadline, and the kill ends the thread of frame 1 too. -/
theorem frames_halt_hiddenThreads : ((hiddenThreads.freeUrgent hiddenThreads.myCore).haltThread 0 false).frames = [] := rfl

/-- Refutes O32: HALT of the handler of a served frame that reads as free, and so as one of no launch, is said to drop the handler
frame and the served frame alone.  The statement holds for every list of frames, also for one whose keys do not rise, which no
step from reset makes (log 2): there the discard of the handler frame uncovers a thread of a launch past its deadline, whose kill
drops frame 1 as well. -/
theorem not_eretAndHalt : ¬ Obligations.EretAndHalt := by
  rintro ⟨-, hhalt⟩
  obtain ⟨-, -, -, -, -, hserved⟩ := hhalt ⟨0, 0, none, none, none, []⟩ hiddenThreads rfl
  obtain ⟨-, -, -, -, hended, -⟩ := hserved 0 rfl
  have hodd : ¬ (hiddenThreads.frame (oddOf 0)).stat = .gangStop := by decide
  have hready := hiddenThreads_quiet 0 (.inl rfl)
  have howes : ¬ OwesTrap hiddenThreads 0 := fun h => h.elim (absurd rfl) (absurd rfl)
  have hintime : InTime hiddenThreads [0] := by
    intro f hf e he
    rw [List.mem_singleton.1 hf] at he
    cases he
  obtain ⟨t, hexec, -, hframes⟩ := hended
    ⟨hiddenThreads_quiet 4 (.inr rfl), rfl, ⟨hready, nofun, nofun, nofun⟩, fun h => absurd h.2.2 hodd⟩
    rfl (by decide) howes (fun h => hodd h.2.2) hintime
  rw [exec_halt_handler rfl _ rfl (n := 0) rfl rfl rfl rfl rfl] at hexec
  cases hexec
  rw [frames_halt_hiddenThreads] at hframes
  cases hframes

end Sys2Proof.ServedHalt
end

section
/-!
PROOFS. The checker and the retirement of a core (spec/06 R143, R144), the freeze of its slots (R140), and the grant of its urgent
frame (spec/05 R115).
-/
namespace Sys2Proof.Machine

/-! ### Retirement (spec/06 R144) -/

theorem look_foldl_put_other {α : Type} {l : List (Nat × α)} {n : Nat} (h : ∀ p ∈ l, p.1 ≠ n) (m : SMap α) :
    look (l.foldl (fun m p => put m p.1 p.2) m) n = look m n := by
  induction l generalizing m with
  | nil => rfl
  | cons p t ih =>
    rw [List.foldl_cons, ih fun q hq => h q (List.mem_cons_of_mem _ hq),
      look_put_other _ _ (h p (List.mem_cons_self ..)).symm]

/-- Of entries that are put in turn, no key twice, each is found. -/
theorem look_foldl_put {α : Type} {l : List (Nat × α)} (hl : (l.map (·.1)).Nodup) {n : Nat} {x : α} (hx : (n, x) ∈ l) (m : SMap α) :
    look (l.foldl (fun m p => put m p.1 p.2) m) n = some x := by
  induction l generalizing m with
  | nil => cases hx
  | cons p t ih =>
    obtain ⟨hp, ht⟩ := List.nodup_cons.1 hl
    rw [List.foldl_cons]
    rcases List.mem_cons.1 hx with rfl | hx
    · rw [look_foldl_put_other, look_put_same]
      rintro q hq rfl
      exact hp (List.mem_map_of_mem (f := (·.1)) hq)
    · exact ih ht hx _

theorem mem_of_look {α : Type} {m : SMap α} {n : Nat} {x : α} (h : look m n = some x) : (n, x) ∈ m := by
  induction m with
  | nil => cases h
  | cons p t ih =>
    obtain ⟨k, y⟩ := p
    rw [look_cons] at h
    split at h
    · next e => cases h; subst e; exact List.mem_cons_self ..
    · split at h
      · cases h
      · exact List.mem_cons_of_mem _ (ih h)

/-- A frame that is in use is listed. -/
theorem mem_frames {s : State} {n : Nat} (h : (s.frame n).stat ≠ .free) : (n, s.frame n) ∈ s.frames := by
  cases e : look s.frames n with
  | none => exact absurd (by simp [State.frame, lookD, e, Frame.empty]) h
  | some x => simpa [State.frame, lookD, e] using mem_of_look e

/-- The contexts of a core as its retirement leaves them, by their keys. -/
def State.retiredFrames (s : State) (core frame : Nat) : List (Nat × Frame) :=
  (s.frames.filter fun p => coreOf p.1 == core && p.2.stat != .free).map fun p =>
    (p.1, p.2.retired (s.headHalf frame) (p.1 == frame))

/-- Every context of the core is one of them, and is found among frames into which they are put. -/
theorem look_retiredFrames {s : State} (hn : (s.frames.map (·.1)).Nodup) {core n : Nat} (hc : coreOf n = core)
    (hs : (s.frame n).stat ≠ .free) (frame : Nat) (m : SMap Frame) :
    look ((s.retiredFrames core frame).foldl (fun m p => put m p.1 p.2) m) n =
      some ((s.frame n).retired (s.headHalf frame) (n == frame)) := by
  have hmem : (n, (s.frame n).retired (s.headHalf frame) (n == frame)) ∈ s.retiredFrames core frame :=
    List.mem_map.2 ⟨(n, s.frame n), List.mem_filter.2 ⟨mem_frames hs, by simp [hc, hs]⟩, rfl⟩
  refine look_foldl_put ?_ hmem m
  rw [State.retiredFrames, List.map_map]
  exact hn.sublist (List.filter_sublist.map _)

/-- What a retirement leaves before the core is reported: its contexts as they have ended, and the core retired. -/
theorem retireCore_eq (s : State) (core frame : Nat) : ∃ (u old : State) (m : SMap Frame),
    u.frames = (s.retiredFrames core frame).foldl (fun m p => put m p.1 p.2) m ∧ (u.core core).retired = true ∧
    s.retireCore core frame =
      if isTileCore core then
        ((u.keepCommands old core).updTile (tileOf core) fun t => { t with excluded := true }).notify (clusterOf core) 1 core
      else if core = mgmtCore then { u with halt := some .fatal }
      else u.setRegBits .mevt (2 ^ (core - 16384)) := by
  unfold State.retireCore
  exact ⟨_, _, _, rfl, by rw [core_updCore, if_pos rfl], rfl⟩

theorem retired_keepCommands (s old : State) (core : Nat) :
    ((s.keepCommands old core).core core).retired = (s.core core).retired := by
  simp only [State.keepCommands, State.core, State.updTile, State.setTile, State.updCore, State.setCore, lookD_put_same]

theorem frames_retireCore (s : State) (core frame : Nat) :
    ∃ m, (s.retireCore core frame).frames = (s.retiredFrames core frame).foldl (fun m p => put m p.1 p.2) m := by
  obtain ⟨u, old, m, hframes, -, he⟩ := retireCore_eq s core frame
  refine ⟨m, ?_⟩
  rw [he, ← hframes]
  split
  · rfl
  · split <;> rfl

theorem retired_retireCore (s : State) (core frame : Nat) : ((s.retireCore core frame).core core).retired = true := by
  obtain ⟨u, old, m, -, hretired, he⟩ := retireCore_eq s core frame
  rw [he, ← hretired]
  split
  · exact retired_keepCommands u old core
  · split <;> rfl

/-- A core of a tile takes its tile out of placement and is reported. -/
theorem retireCore_tile (s : State) {core : Nat} (h : core < 16384) (frame : Nat) :
    ((s.retireCore core frame).tile (core / 16)).excluded = true ∧ ∃ p, (p, 1, core) ∈ (s.retireCore core frame).notices := by
  obtain ⟨u, old, m, -, -, he⟩ := retireCore_eq s core frame
  rw [he, if_pos (by simpa [isTileCore] using h)]
  have htile : tileOf core = core / 16 := if_pos h
  constructor
  · simp only [State.notify, State.tile, State.updTile, State.setTile, htile, lookD_put_same]
  · exact ⟨_, List.mem_append_right _ (List.mem_singleton.2 rfl)⟩

theorem retireCore_mgmt (s : State) (frame : Nat) : (s.retireCore mgmtCore frame).halt = some .fatal := by
  obtain ⟨u, old, m, -, -, he⟩ := retireCore_eq s mgmtCore frame
  rw [he, if_neg (by decide), if_pos rfl]

theorem retireCore_dispatch (s : State) {core : Nat} (h : core = 16384 ∨ core = 16385) (frame : Nat) :
    ((s.retireCore core frame).reg .mevt).getLsbD (core - 16384) = true := by
  obtain ⟨u, old, m, -, -, he⟩ := retireCore_eq s core frame
  rw [he, if_neg (by rcases h with rfl | rfl <;> decide), if_neg (by rcases h with rfl | rfl <;> decide), State.setRegBits,
    reg_setReg_same, BitVec.getLsbD_or]
  rcases h with rfl | rfl <;> simp

/-! ### The freeze of slots 0–3 (spec/06 R140) -/

/-- A frame that holds a context is frozen, and its reservation ends. -/
def State.freezeSlot (s : State) (f : Nat) : State :=
  match look s.frames f with
  | some x => (s.setFrame f { x with frozen := true }).unreserve f
  | none => s

theorem look_freezeSlot (s : State) (f n : Nat) : look (s.freezeSlot f).frames n =
    if n = f then (look s.frames n).map fun x => { x with frozen := true } else look s.frames n := by
  unfold State.freezeSlot
  split
  · next x hx =>
    by_cases h : n = f
    · subst h
      rw [if_pos rfl, hx]
      exact look_put_same ..
    · rw [if_neg h]
      exact look_put_other _ _ h
  · next hx =>
    split
    · next h => rw [h, hx]; rfl
    · rfl

theorem resvs_freezeSlot (s : State) (f : Nat) : (s.freezeSlot f).resvs =
    s.resvs.filter fun r => !(r.frame == f && (look s.frames r.frame).isSome) := by
  unfold State.freezeSlot
  split
  · next x hx =>
    refine List.filter_congr fun r _ => ?_
    by_cases h : r.frame = f
    · simp [h, hx]
    · simp [h]
  · next hx =>
    refine (List.filter_eq_self.2 fun r _ => ?_).symm
    by_cases h : r.frame = f
    · simp [h, hx]
    · simp [h]

theorem freezeSlot_rest (s : State) (f : Nat) :
    s.freezeSlot f = { s with frames := (s.freezeSlot f).frames, resvs := (s.freezeSlot f).resvs } := by
  unfold State.freezeSlot
  split <;> rfl

/-- Freezing frames one after the other leaves all but the frames and reservations. -/
theorem freezeSlots_rest (fs : List Nat) (s : State) : fs.foldl State.freezeSlot s =
    { s with frames := (fs.foldl State.freezeSlot s).frames, resvs := (fs.foldl State.freezeSlot s).resvs } := by
  induction fs generalizing s with
  | nil => rfl
  | cons f t ih =>
    rw [List.foldl_cons, ih, freezeSlot_rest]

theorem core_freezeSlots (fs : List Nat) (s : State) (k : Nat) : (fs.foldl State.freezeSlot s).core k = s.core k := by
  rw [freezeSlots_rest]; rfl

theorem look_freezeSlots (fs : List Nat) (s : State) (n : Nat) : look (fs.foldl State.freezeSlot s).frames n =
    if n ∈ fs then (look s.frames n).map fun x => { x with frozen := true } else look s.frames n := by
  induction fs generalizing s with
  | nil => rfl
  | cons f t ih =>
    rw [List.foldl_cons, ih, look_freezeSlot]
    by_cases h : n = f
    · subst h; by_cases ht : n ∈ t <;> simp [ht, Function.comp_def]
    · simp [h]

theorem frame_freezeSlots (fs : List Nat) (s : State) (n : Nat) : (fs.foldl State.freezeSlot s).frame n =
    if n ∈ fs ∧ (look s.frames n).isSome = true then { s.frame n with frozen := true } else s.frame n := by
  simp only [State.frame, lookD, look_freezeSlots]
  by_cases hn : n ∈ fs
  · cases look s.frames n <;> simp [hn]
  · simp [hn]

theorem resvs_freezeSlots (fs : List Nat) (s : State) : (fs.foldl State.freezeSlot s).resvs =
    s.resvs.filter fun r => !(fs.contains r.frame && (look s.frames r.frame).isSome) := by
  induction fs generalizing s with
  | nil => simp
  | cons f t ih =>
    rw [List.foldl_cons, ih, resvs_freezeSlot, List.filter_filter]
    refine List.filter_congr fun r _ => ?_
    rw [look_freezeSlot]
    by_cases h : r.frame = f
    · cases hl : look s.frames f <;> simp [h, hl]
    · simp [h]

/-- The frames of slots 0–3 of a core. -/
def slotKeys (core : Nat) : List Nat := [0, 1, 2, 3].map (frameKey core)

theorem mem_slotKeys {core n : Nat} : n ∈ slotKeys core ↔ n / 5 = core ∧ n % 5 < 4 := by
  simp only [slotKeys, frameKey, List.map_cons, List.map_nil, List.mem_cons, List.not_mem_nil, or_false]
  omega

theorem exec_freezeRequest_idle {s : State} (h : s.halt = none) {core : Nat}
    (hi : (s.core core).waitUrg = none ∨ (s.core core).freeze = (s.core core).waitUrg) :
    exec (.freezeRequest core) s = .next s := by
  refine (act_running h _).trans (congrArg _ ?_)
  cases hw : (s.core core).waitUrg with
  | none => rfl
  | some e =>
    rcases hi with hi | hi
    · rw [hi] at hw; cases hw
    · exact if_pos (hi.trans hw)

/-- A freeze that is due notes itself at its core and marks the arrivals that have left, and then freezes slot after slot. -/
theorem exec_freezeRequest_due {s : State} (h : s.halt = none) {core e : Nat} (hw : (s.core core).waitUrg = some e)
    (hf : (s.core core).freeze ≠ some e) : ∃ co,
      exec (.freezeRequest core) s =
        .next ((slotKeys core).foldl State.freezeSlot { s with cores := co, arrs := (s.markLeft core).arrs }) ∧
      lookD co core .empty = { s.core core with freeze := some e } := by
  refine ⟨put s.cores core { s.core core with freeze := some e },
    (act_running h _).trans (congrArg _ ?_), lookD_put_same ..⟩
  rw [hw]
  exact if_neg hf

/-! ### The grant of the urgent frame (spec/05 R115) -/

@[simp] theorem slotOf_urgentKey (core : Nat) : slotOf (urgentKey core) = 4 := by unfold slotOf urgentKey; omega

theorem stat_startFrame (s : State) (e f l : Nat) : (s.startFrame e f l).stat = .ready := rfl
theorem launch_startFrame (s : State) (e f l : Nat) : (s.startFrame e f l).launch = some e := rfl

/-- The thread of an urgent launch starts in the urgent frame of a core, and finds a8 and a9 CLEAR (spec/11 R255). -/
theorem startThread_urgent (s : State) (e core l : Nat) : s.startThread e (urgentKey core) l =
    ((s.setFrame (urgentKey core) { s.startFrame e (urgentKey core) l with frozen := false }).dropHeader
      (urgentKey core)).clearUrgentAccs core := by
  simp only [State.startThread, slotOf_urgentKey, bne_self_eq_false, Bool.false_and, if_true, coreOf_urgentKey]

theorem startThread_urgent_rest (s : State) (e core l : Nat) :
    ∃ fr co ac, s.startThread e (urgentKey core) l = { s with frames := fr, cores := co, accums := ac } := by
  rw [startThread_urgent, clearUrgentAccs_rest, dropHeader_rest]
  exact ⟨_, _, _, rfl⟩

theorem frame_startThread_urgent (s : State) (e core l n : Nat) : (s.startThread e (urgentKey core) l).frame n =
    if n = urgentKey core then { s.startFrame e (urgentKey core) l with frozen := false } else s.frame n := by
  rw [startThread_urgent, frame_clearUrgentAccs, frame_dropHeader, frame_setFrame]

theorem waitUrg_startThread_urgent (s : State) (e core l : Nat) :
    ((s.startThread e (urgentKey core) l).core core).waitUrg = (s.core core).waitUrg := by
  rw [startThread_urgent, core_clearUrgentAccs, State.dropHeader, core_updCore, coreOf_urgentKey, if_pos rfl, core_setFrame]

theorem accums_startThread_urgent (s : State) (e core l k : Nat) :
    lookD (s.startThread e (urgentKey core) l).accums k .clear =
      if k = core * 6 + 4 ∨ k = core * 6 + 5 then .clear else lookD s.accums k .clear := by
  rw [startThread_urgent]
  exact accums_clearUrgentAccs ..

theorem exec_handlerFrameGrant_taken {s : State} (h : s.halt = none) {core : Nat}
    (hb : ¬ ((s.frame (urgentKey core)).stat = .free ∧ (s.core core).retired = false)) :
    exec (.handlerFrameGrant core) s = .next s := by
  refine (act_running h _).trans (congrArg _ (if_pos ?_))
  rw [← Bool.not_eq_true] at hb
  tauto

/-- What a free urgent frame of a core in use is given to (spec/05 R115). -/
theorem exec_handlerFrameGrant_free {s : State} (h : s.halt = none) {core : Nat}
    (hf : (s.frame (urgentKey core)).stat = .free ∧ (s.core core).retired = false) :
    exec (.handlerFrameGrant core) s = .next (match (s.core core).waitUrg with
      | some e =>
        if (s.core core).freeze ≠ some e then s
        else (s.updCore core fun c => { c with waitUrg := none }).startThread e (urgentKey core)
          ((s.entry e).logical (tileOf core))
      | none => match (s.core core).parked with
        | t :: rest =>
          if (s.frame t).stat ≠ .parkTrap then s.updCore core fun c => { c with parked := rest }
          else if (s.frame t).frozen then s
          else (s.updCore core fun c => { c with parked := rest }).enterHandler t
        | [] => s) := by
  refine (act_running h _).trans (congrArg _ ((if_neg ?_).trans ?_))
  · simp [hf.1, hf.2]
  · rfl

end Sys2Proof.Machine

/-! ### O34: the checker, retirement, the freeze and the grant -/

namespace Sys2Proof.CoreEvents
open Sys2Proof.Machine

theorem exec_checkerRetry {s : State} (h : s.halt = none) (f : Nat) : exec (.checkerRetry f) s =
    .next (if (s.core (coreOf f)).retired = true ∨ (s.core (coreOf f)).retry = some f ∨ (s.frame f).stat = .free then s
      else s.setCore (coreOf f) { s.core (coreOf f) with
        retry := some f, checks := min (2 ^ 32 - 1) ((s.core (coreOf f)).checks + 1) }) :=
  act_running h _

theorem exec_coreRetire {s : State} (h : s.halt = none) (f : Nat) : exec (.coreRetire f) s =
    .next (if (s.core (coreOf f)).retry = some f then s.retireCore (coreOf f) f else s) := act_running h _

theorem exec_packageFatal {s : State} (h : s.halt = none) : exec .packageFatal s =
    .next (if (s.core mgmtCore).retry.isSome then { s with halt := some .fatal } else s) := act_running h _

/-- Every context of a core that retires ends with its trap registers written (spec/05 R110, R120). -/
theorem retireCore_frame {s : State} (hn : (s.frames.map (·.1)).Nodup) {core n : Nat} (hc : coreOf n = core)
    (hs : (s.frame n).stat ≠ .free) (f : Nat) :
    (s.retireCore core f).frame n = (s.frame n).retired (s.headHalf f) (n == f) := by
  obtain ⟨m, hm⟩ := frames_retireCore s core f
  rw [State.frame, hm, lookD, look_retiredFrames hn hc hs]
  rfl

/-- The freeze of slots 0–3 of a core. -/
theorem freezeRequest_gives {s : State} (h : s.halt = none) {core e : Nat} (hw : (s.core core).waitUrg = some e)
    (hf : (s.core core).freeze ≠ some e) : Gives (.freezeRequest core) s fun t =>
      t = { s with
        cores := t.cores, frames := t.frames
        resvs := s.resvs.filter fun r => !(coreOf r.frame == core && slotOf r.frame < 4 && (look s.frames r.frame).isSome)
        arrs := s.arrs.map fun a =>
          if coreOf a.frame = core ∧ slotOf a.frame < 4 ∧ s.arrLeaves a = true then { a with left := true } else a } ∧
      (t.core core) = { s.core core with freeze := some e } ∧
      ∀ n, t.frame n = if n / 5 = core ∧ n % 5 < 4 ∧ (look s.frames n).isSome = true then { s.frame n with frozen := true }
        else s.frame n := by
  obtain ⟨co, hexec, hcore⟩ := exec_freezeRequest_due h hw hf
  refine ⟨_, hexec, ?_, (core_freezeSlots ..).trans hcore, fun n => ?_⟩
  · have hslots (r : Resv) : (slotKeys core).contains r.frame = (coreOf r.frame == core && slotOf r.frame < 4) := by
      refine Bool.eq_iff_iff.2 ?_
      simp only [List.contains_iff_mem, mem_slotKeys, Bool.and_eq_true, beq_iff_eq, decide_eq_true_eq]
      rfl
    rw [freezeSlots_rest, resvs_freezeSlots]
    simp only [hslots]
    rfl
  · rw [frame_freezeSlots]
    simp only [mem_slotKeys, and_assoc]
    rfl

/-- The start of an urgent launch's thread in the urgent frame of a core. -/
theorem grant_launch_gives {s : State} (h : s.halt = none) {core e : Nat}
    (hfree : (s.frame (urgentKey core)).stat = .free ∧ (s.core core).retired = false) (hw : (s.core core).waitUrg = some e)
    (hf : (s.core core).freeze = some e) : Gives (.handlerFrameGrant core) s fun t =>
      (t.core core).waitUrg = none ∧ (t.frame (urgentKey core)).stat = .ready ∧ (t.frame (urgentKey core)).launch = some e ∧
      (∀ n, n ≠ urgentKey core → t.frame n = s.frame n) ∧ (∀ n, UrgentAcc core n → lookD t.accums n .clear = .clear) ∧
      (∀ n, ¬ UrgentAcc core n → lookD t.accums n .clear = lookD s.accums n .clear) ∧
      t = { s with cores := t.cores, frames := t.frames, accums := t.accums } := by
  have hexec := exec_handlerFrameGrant_free h hfree
  simp only [hw, hf, ne_eq, not_true_eq_false, if_false] at hexec
  have hurgent := frame_startThread_urgent (s.updCore core fun c => { c with waitUrg := none }) e core
    ((s.entry e).logical (tileOf core)) (urgentKey core)
  rw [if_pos rfl] at hurgent
  refine ⟨_, hexec, ?_, ?_, ?_, fun n hn => ?_, fun n hn => ?_, fun n hn => ?_, ?_⟩
  · rw [waitUrg_startThread_urgent, core_updCore, if_pos rfl]
  · rw [hurgent]; exact stat_startFrame ..
  · rw [hurgent]; exact launch_startFrame ..
  · rw [frame_startThread_urgent, if_neg hn, frame_updCore]
  · exact (accums_startThread_urgent ..).trans (if_pos hn)
  · exact (accums_startThread_urgent ..).trans (if_neg hn)
  · obtain ⟨fr, co, ac, hrest⟩ := startThread_urgent_rest (s.updCore core fun c => { c with waitUrg := none }) e core
      ((s.entry e).logical (tileOf core))
    rw [hrest]; rfl

/-- The handler of the oldest parked trap starts. -/
theorem grant_trap_gives {s : State} (h : s.halt = none) {core n : Nat} {rest : List Nat}
    (hfree : (s.frame (urgentKey core)).stat = .free ∧ (s.core core).retired = false) (hw : (s.core core).waitUrg = none)
    (hp : (s.core core).parked = n :: rest) (hs : (s.frame n).stat = .parkTrap) (hz : (s.frame n).frozen = false)
    (hn : n ≠ urgentKey core) (hc : coreOf n = core) : Gives (.handlerFrameGrant core) s fun t =>
      (t.core core).parked = rest ∧ (t.frame n).stat = .trapped ∧ (t.frame (urgentKey core)).kind = .handler n ∧
      (t.frame (urgentKey core)).stat = .ready ∧
      (t.frame (urgentKey core)).pc = BitVec.ofNat 48 ((s.frame n).tvec.toNat / 2 * 2) ∧
      (∀ n, UrgentAcc core n → lookD t.accums n .clear = .clear) ∧
      (∀ n, ¬ UrgentAcc core n → lookD t.accums n .clear = lookD s.accums n .clear) ∧
      t = { s with cores := t.cores, frames := t.frames, accums := t.accums } := by
  have hexec := exec_handlerFrameGrant_free h hfree
  simp only [hw, hp, hs, hz, ne_eq, not_true_eq_false, if_false, Bool.false_eq_true] at hexec
  subst hc
  obtain ⟨fr, co, ac, hrest⟩ := enterHandler_rest (s.updCore (coreOf n) fun c => { c with parked := rest }) n
  have hurgent := frame_enterHandler_urgent (s.updCore (coreOf n) fun c => { c with parked := rest }) n
  refine ⟨_, hexec, ?_, ?_, ?_, ?_, ?_, fun k hk => ?_, fun k hk => ?_, ?_⟩
  · rw [core_enterHandler, if_pos rfl, core_updCore, if_pos rfl]
  · rw [frame_enterHandler_served _ hn]
  · rw [hurgent]; rfl
  · rw [hurgent]; rfl
  · rw [hurgent]; rfl
  · exact (accums_enterHandler ..).trans (if_pos hk)
  · exact (accums_enterHandler ..).trans (if_neg hk)
  · rw [hrest]; rfl

/-- Settles O34: a retirement puts the ended contexts of its core among the frames last, a freeze acts slot by slot, and the grant
starts a thread or a handler as a launch or a trap does. -/
theorem coreEvents : Obligations.CoreEvents := by
  intro s f core h
  have hgrant := exec_handlerFrameGrant_free (core := core) h
  refine ⟨fun hagain => ?again, fun hfirst => ?once, fun hidle => ?noRetry, fun hretry => ?retire, fun hnone => ?noFatal,
    fun hsome => ?fatal, exec_freezeRequest_idle h, fun e => freezeRequest_gives h, exec_handlerFrameGrant_taken h,
    fun e hfree hw hf => ?notYet, fun e hfree hw => grant_launch_gives h hfree hw,
    fun n rest hfree hw hp hs hz hn hc => grant_trap_gives h hfree hw hp hs hz hn hc, fun hfree hw hp => ?nothing⟩
  case again => rw [exec_checkerRetry h, if_pos hagain]
  case once =>
    exact ⟨_, (exec_checkerRetry h f).trans (congrArg _ (if_neg hfirst)), rfl, fun n => core_setCore ..⟩
  case noRetry => rw [exec_coreRetire h, if_neg hidle]
  case retire =>
    refine ⟨_, (exec_coreRetire h f).trans (congrArg _ (if_pos hretry)), retired_retireCore .., fun hn n hc hs => ?_,
      fun hk => retireCore_tile s hk f, fun hk => ?_, fun hk => retireCore_dispatch s hk f⟩
    · rw [retireCore_frame hn hc hs]
      refine ⟨rfl, ?_, rfl, rfl⟩
      by_cases hf : n = f <;> simp [Frame.retired, tcauseWord, hf]
    · rw [hk]; exact retireCore_mgmt s f
  case noFatal => rw [exec_packageFatal h, hnone]; rfl
  case fatal => rw [exec_packageFatal h, if_pos (Option.isSome_iff_ne_none.2 hsome)]
  case notYet => rw [hgrant hfree, hw]; exact congrArg _ (if_pos hf)
  case nothing => rw [hgrant hfree, hw, hp]

end Sys2Proof.CoreEvents
end

section
/-!
PROOFS. Gangs (spec/06 R137, R139), and the guards of the forms that other cores (spec/06 R146) or handler frames (spec/15,
Instruction entries) may not execute.
-/
namespace Sys2Proof.Machine

/-! ### Updates of two frames -/

theorem Within.mono {s t : State} {fs gs : List Nat} (h : Within s t fs) (hs : fs ⊆ gs) : Within s t gs :=
  ⟨h.rest, fun k hk => h.others k fun hm => hk (hs hm), h.bytes⟩

theorem updFrame_pair_within (s : State) (f g : Nat) (u v : Frame → Frame) :
    Within s ((s.updFrame f u).updFrame g v) [f, g] :=
  ((updFrame_within s f u).mono (by simp)).trans ((updFrame_within _ g v).mono (by simp))

theorem frame_updFrame_pair_first (s : State) {f g : Nat} (h : f ≠ g) (u v : Frame → Frame) :
    ((s.updFrame f u).updFrame g v).frame f = u (s.frame f) := by
  rw [frame_updFrame_other _ v h, frame_updFrame_same]

theorem frame_updFrame_pair_second (s : State) {f g : Nat} (h : f ≠ g) (u v : Frame → Frame) :
    ((s.updFrame f u).updFrame g v).frame g = v (s.frame g) := by
  rw [frame_updFrame_same, frame_updFrame_other _ u h.symm]

/-! ### The bound units of a slot (spec/08 R187) -/

section
variable {v : Vector Unit 4}

theorem unit_getD_eq {k : Nat} (hk : k < 4) : v.getD k Unit.none = v.toList[k]'(by simpa using hk) := by
  simp [Vector.getD, hk]

theorem any_bound_eq_false (h : ∀ k < 4, (v.getD k Unit.none).kind = .unbound) :
    v.toList.any (fun u => u.kind != .unbound) = false := by
  refine List.any_eq_false.2 fun u hu => ?_
  obtain ⟨k, hk, rfl⟩ := List.getElem_of_mem hu
  have hk4 : k < 4 := by simpa using hk
  simpa [unit_getD_eq hk4] using h k hk4

/-- The lowest bound unit is the one that the search finds. -/
theorem findIdx_bound {k : Nat} (hk : k < 4) (hb : (v.getD k Unit.none).kind ≠ .unbound)
    (hlow : ∀ j < k, (v.getD j Unit.none).kind = .unbound) : v.toList.findIdx (fun u => u.kind != .unbound) = k := by
  have hlen : k < v.toList.length := by simpa using hk
  refine (List.findIdx_eq hlen).2 ⟨?_, fun j hj => ?_⟩
  · rw [← unit_getD_eq hk]; exact bne_iff_ne.2 hb
  · rw [← unit_getD_eq (hj.trans hk), hlow j hj]; rfl

theorem any_bound {k : Nat} (hk : k < 4) (hb : (v.getD k Unit.none).kind ≠ .unbound) :
    v.toList.any (fun u => u.kind != .unbound) = true := by
  refine List.any_eq_true.2 ⟨v.getD k Unit.none, ?_, bne_iff_ne.2 hb⟩
  rw [unit_getD_eq hk]
  exact List.getElem_mem _

end

/-! ### GANG (spec/06 R137) -/

theorem alive_eq_false {x : Frame} : x.alive = false ↔ x.stat = .free := by simp [Frame.alive]

theorem partnerOf_ne {f : Nat} : partnerOf f ≠ f := by unfold partnerOf slotOf; split <;> omega

/-- The even slot of the pair of a slot. -/
def evenOf (f : Nat) : Nat := if slotOf f % 2 = 0 then f else partnerOf f
/-- The odd slot of the pair of a slot. -/
def oddOfPair (f : Nat) : Nat := if slotOf f % 2 = 0 then partnerOf f else f

theorem evenOf_ne_oddOfPair (f : Nat) : evenOf f ≠ oddOfPair f := by
  unfold evenOf oddOfPair
  split
  · exact partnerOf_ne.symm
  · exact partnerOf_ne

theorem pair_subset (f : Nat) : [evenOf f, oddOfPair f] ⊆ [f, partnerOf f] := by
  unfold evenOf oddOfPair
  split <;> simp

/-- The executing slot has no live partner of its launch that it could form a gang with. -/
def State.gangRefused (s : State) : Prop :=
  s.onTile = false ∨ slotOf s.cur = 4 ∨ s.me.gang = true ∨ (s.frame (partnerOf s.cur)).stat = .free ∨
    (s.frame (partnerOf s.cur)).launch ≠ s.me.launch

section
variable {s : State} (h : s.halt = none) (o : Opnd)
include h

theorem exec_gang_refused (hr : s.gangRefused) : exec (.gang o) s = .next (s.illegalValue (.gang o)) := by
  refine (act_running h _).trans (congrArg _ (if_pos ?_))
  simpa [State.gangRefused, alive_eq_false] using hr

/-- Past the check of its partner, GANG looks at the units of an odd slot, and then at what the partner does. -/
theorem exec_gang_open (hr : ¬ s.gangRefused) : exec (.gang o) s = .next (
    if slotOf s.cur % 2 = 1 ∧ s.me.units.toList.any (fun u => u.kind != .unbound) = true then
      s.trap 0x0E 0x0B (BitVec.ofNat 64 (s.me.units.toList.findIdx fun u => u.kind != .unbound))
    else if (s.frame (partnerOf s.cur)).stat = .ready ∧ (s.frame (partnerOf s.cur)).prog = gangMark then
      if slotOf s.cur % 2 = 0 then s.formGang s.cur (partnerOf s.cur) (o.halves 1)
      else s.formGang (partnerOf s.cur) s.cur (o.halves 1)
    else s.updMe fun z => { z with prog := gangMark }) := by
  refine (act_running h _).trans (congrArg _ (if_neg ?_))
  simpa [State.gangRefused, alive_eq_false] using hr

theorem exec_gang_bound (hr : ¬ s.gangRefused) (hodd : slotOf s.cur % 2 = 1) {k : Nat} (hk : k < 4)
    (hb : (s.me.units.getD k Unit.none).kind ≠ .unbound)
    (hlow : ∀ j < k, (s.me.units.getD j Unit.none).kind = .unbound) :
    exec (.gang o) s = .next (s.trap 0x0E 0x0B (BitVec.ofNat 64 k)) := by
  rw [exec_gang_open h o hr, if_pos ⟨hodd, any_bound hk hb⟩, findIdx_bound hk hb hlow]

/-- An even slot, or an odd one without a bound unit, forms the gang or waits. -/
theorem exec_gang_plain (hr : ¬ s.gangRefused)
    (hfree : slotOf s.cur % 2 = 0 ∨ ∀ k < 4, (s.me.units.getD k Unit.none).kind = .unbound) : exec (.gang o) s = .next (
    if (s.frame (partnerOf s.cur)).stat = .ready ∧ (s.frame (partnerOf s.cur)).prog = gangMark then
      s.formGang (evenOf s.cur) (oddOfPair s.cur) (o.halves 1)
    else s.updMe fun z => { z with prog := gangMark }) := by
  have hunits : ¬ (slotOf s.cur % 2 = 1 ∧ s.me.units.toList.any (fun u => u.kind != .unbound) = true) := by
    rintro ⟨hodd, hany⟩
    rcases hfree with heven | hplain
    · omega
    · rw [any_bound_eq_false hplain] at hany; cases hany
  rw [exec_gang_open h o hr, if_neg hunits, evenOf, oddOfPair]
  split_ifs <;> rfl

end

theorem formGang_eq (s : State) (even odd n : Nat) : s.formGang even odd n =
    (s.updFrame even fun x => pastFrame x n true .ready).updFrame odd fun x => pastFrame x n x.gang .gangOdd := rfl

/-! ### UNGANG (spec/06 R139) -/

theorem exec_ungang_outside {s : State} (h : s.halt = none) (o : Opnd) (hg : s.me.gang = false) :
    exec (.ungang o) s = .next (s.illegalValue (.ungang o)) :=
  (act_running h _).trans (congrArg _ (if_pos (by rw [hg]; rfl)))

theorem exec_ungang_gang {s : State} (h : s.halt = none) (o : Opnd) (hg : s.me.gang = true) : exec (.ungang o) s = .next
    ((s.updFrame s.cur fun x => pastFrame x (o.halves 1) false x.stat).updFrame (oddOf s.cur)
      fun x => { x with stat := .ready }) := by
  refine (act_running h _).trans (congrArg _ ((if_neg (by rw [hg]; decide)).trans ?_))
  exact congrArg (·.updFrame (oddOf s.cur) fun x => { x with stat := .ready }) (updFrame_updFrame s s.cur _ _)

/-! ### Forms that some contexts may not execute -/

theorem tileOnly_elsewhere {s : State} (h : s.onTile = false) (i : Instr) (go : State) : s.tileOnly i go = s.illegalValue i := by
  rw [State.tileOnly, h]; rfl

theorem notHandler_inside {s : State} (h : s.inHandler = true) (i : Instr) (go : State) : s.notHandler i go = s.illegalValue i :=
  if_pos h

/-- The first thing that a form of page 2 of a tile asks is whether its core lies in one. -/
theorem exec_tileOnlyForms {o : Opnd} {i : Instr} (hi : i ∈ tileOnlyForms o) (s : State) :
    ∃ go, exec i s = s.act (s.tileOnly i go) := by
  unfold tileOnlyForms at hi
  fin_cases hi <;> exact ⟨_, rfl⟩

/-- The first thing that a form of spec/15 asks is whether its frame is a handler frame. -/
theorem exec_noHandlerForms {o : Opnd} {i : Instr} (hi : i ∈ noHandlerForms o) (s : State) :
    ∃ go, exec i s = s.act (s.notHandler i go) := by
  unfold noHandlerForms at hi
  fin_cases hi <;> exact ⟨_, rfl⟩

end Sys2Proof.Machine

/-! ### O15: gangs -/

namespace Sys2Proof.GangPairs
open Sys2Proof.Machine

theorem gangForms : GangForms := by
  rintro o s p h n even odd bad plain waits rfl
  have hlen : o.halves 1 = n := (encode_length_page (i := .gang o) rfl rfl rfl).symm
  refine ⟨fun hbad => exec_gang_refused h o hbad, fun hok hodd k hk hb hlow => exec_gang_bound h o hok hodd hk hb hlow,
    fun hok hfree hw => ⟨_, (exec_gang_plain h o hok hfree).trans (congrArg _ (if_pos hw)), ?forms⟩,
    fun hok hfree hw => ⟨_, (exec_gang_plain h o hok hfree).trans (congrArg _ (if_neg hw)), updFrame_within .., me_updMe ..⟩⟩
  case forms =>
    rw [hlen, formGang_eq]
    have hne := evenOf_ne_oddOfPair s.cur
    exact ⟨(updFrame_pair_within ..).mono (pair_subset s.cur), frame_updFrame_pair_first s hne ..,
      frame_updFrame_pair_second s hne ..⟩

theorem ungangSplits : UngangSplits := by
  intro o s h
  refine ⟨fun hg => ⟨_, exec_ungang_gang h o hg, updFrame_pair_within .., ?me, ?odd⟩, exec_ungang_outside h o⟩
  case me =>
    rw [encode_length_page (i := .ungang o) rfl rfl rfl]
    exact frame_updFrame_pair_first s (oddOf_ne s.cur).symm ..
  case odd => exact frame_updFrame_pair_second s (oddOf_ne s.cur).symm ..

/-- Settles O15: the four cases of GANG in the order of its checks, and the two of UNGANG. -/
theorem gangs : Obligations.Gangs := ⟨gangForms, ungangSplits⟩

end Sys2Proof.GangPairs

/-! ### O18: forms that are illegal elsewhere -/

namespace Sys2Proof.IllegalElsewhere
open Sys2Proof.Machine

theorem tileInstructionsIllegalElsewhere : TileInstructionsIllegalElsewhere := by
  intro o s i hi h ht
  obtain ⟨go, he⟩ := exec_tileOnlyForms hi s
  rw [he, act_running h, tileOnly_elsewhere ht]

theorem handlersMayNotSynchronise : HandlersMayNotSynchronise := by
  intro o s i hi h hh
  obtain ⟨go, he⟩ := exec_noHandlerForms hi s
  rw [he, act_running h, notHandler_inside hh]

/-- Settles O18: each form asks first where it runs, and is illegal there. -/
theorem instructionsIllegalElsewhere : Obligations.InstructionsIllegalElsewhere :=
  ⟨tileInstructionsIllegalElsewhere, handlersMayNotSynchronise⟩

end Sys2Proof.IllegalElsewhere
end

section
/-!
PROOFS. The end of a vector instruction: its flags and their trap (spec/01 R22, R24, spec/05 R119), the words that it draws
(spec/02 R54, R55), and its destination (spec/07 R149–R151).
-/
namespace Sys2Proof.Machine

/-! ### The element that a trap names (spec/05 R119) -/

theorem orFlags_append_singleton (l : ElemFlags) (p : Nat × Nat) : orFlags (l ++ [p]) = orFlags l ||| p.2 := by
  simp [orFlags]

theorem orFlags_and_eq_zero {l : ElemFlags} {m : Nat} (h : ∀ x ∈ l, x.2 &&& m = 0) : orFlags l &&& m = 0 := by
  induction l using List.reverseRecOn with
  | nil => exact Nat.zero_and m
  | append_singleton l p ih =>
    rw [orFlags_append_singleton, Nat.and_or_distrib_right, ih fun x hx => h x (List.mem_append_left _ hx),
      h p (List.mem_append_right _ (List.mem_singleton_self p)), Nat.zero_or]

/-- What `lowestWith` answers: no entry has a flag of `m`, or one that has is named, and none that has is lower. -/
def Lowest (l : ElemFlags) (m : Nat) : Option (Nat × Nat) → Prop
  | none => ∀ x ∈ l, x.2 &&& m = 0
  | some p => p ∈ l ∧ p.2 &&& m ≠ 0 ∧ ∀ x ∈ l, x.2 &&& m ≠ 0 → p.1 ≤ x.1

theorem lowestWith_append_singleton (l : ElemFlags) (p : Nat × Nat) (m : Nat) : lowestWith (l ++ [p]) m =
    if p.2 &&& m = 0 then lowestWith l m else match lowestWith l m with
      | some q => if p.1 < q.1 then some p else lowestWith l m
      | none => some p :=
  List.foldl_append

theorem lowestWith_lowest (l : ElemFlags) (m : Nat) : Lowest l m (lowestWith l m) := by
  induction l using List.reverseRecOn with
  | nil => exact fun _ hx => nomatch hx
  | append_singleton l p ih =>
    rw [lowestWith_append_singleton]
    by_cases hp : p.2 &&& m = 0
    · rw [if_pos hp]
      cases hl : lowestWith l m with
      | none => rw [hl] at ih; grind [Lowest]
      | some q => rw [hl] at ih; grind [Lowest]
    · rw [if_neg hp]
      cases hl : lowestWith l m with
      | none => rw [hl] at ih; grind [Lowest]
      | some q =>
        rw [hl] at ih
        by_cases hlt : p.1 < q.1
        · simp only [if_pos hlt]; grind [Lowest]
        · simp only [if_neg hlt]; grind [Lowest]

theorem arithTrap_of_disabled {s : State} {l : ElemFlags} (h : enabledOf s l = 0) : s.arithTrap s.cur l false = none :=
  if_pos h

/-- Enabled flags raise one trap: 0x09 for TRI alone and else 0x08, with the flags in DETAIL and the lowest element that has one in
TADDR. -/
theorem arithTrap_of_enabled {s : State} {l : ElemFlags} (h : enabledOf s l ≠ 0) : ∃ e,
    s.arithTrap s.cur l false = some (if enabledOf s l = 64 then 0x09 else 0x08, enabledOf s l, BitVec.ofNat 64 e) ∧
    (∃ f, (e, f) ∈ l ∧ f &&& enabledOf s l ≠ 0) ∧ ∀ x ∈ l, x.2 &&& enabledOf s l ≠ 0 → e ≤ x.1 := by
  have hself : orFlags l &&& enabledOf s l = enabledOf s l := by
    rw [enabledOf, ← Nat.and_assoc, Nat.and_self]
  have hlow := lowestWith_lowest l (enabledOf s l)
  cases hl : lowestWith l (enabledOf s l) with
  | none =>
    rw [hl] at hlow
    exact absurd (hself ▸ orFlags_and_eq_zero hlow) h
  | some p =>
    rw [hl] at hlow
    obtain ⟨hmem, hp, hle⟩ := hlow
    refine ⟨p.1, ?_, ⟨p.2, hmem, hp⟩, hle⟩
    have hl : lowestWith l (orFlags l &&& trapEnables (s.frame s.cur).arith) = some p := hl
    simp only [State.arithTrap, arithTrapOf, hl]
    exact if_neg h

/-! ### Random words (spec/02 R54, R55) -/

/-- The words that an instruction which asks for `k` draws: none unless rounding is stochastic. -/
def State.drawCount (s : State) (k : Nat) : Nat := if (AR.ofWord s.me.arith).stoch then k else 0

theorem drawStoch_within (s : State) (k : Nat) : Within s (s.drawStoch k).1 [s.cur] := by
  unfold State.drawStoch State.drawRng
  split
  · dsimp only
    split
    · exact Within.refl ..
    · exact updFrame_within ..
  · exact Within.refl ..

@[simp] theorem drawStoch_cur (s : State) (k : Nat) : (s.drawStoch k).1.cur = s.cur := by
  rw [(drawStoch_within s k).rest]

theorem frame_drawStoch_cur (s : State) (k : Nat) : (s.drawStoch k).1.frame s.cur =
    { s.me with rngc := BitVec.ofNat 48 (s.me.rngc.toNat + s.drawCount k) } := by
  have hsame : s.me = { s.me with rngc := BitVec.ofNat 48 (s.me.rngc.toNat + 0) } := by
    rw [Nat.add_zero, BitVec.ofNat_toNat, BitVec.setWidth_eq]
  unfold State.drawStoch State.drawRng State.drawCount
  split
  · dsimp only
    split
    · next hk => subst hk; exact hsame
    · exact frame_updFrame_same ..
  · exact hsame

theorem drawStoch_other (s : State) (n : Nat) {k : Nat} (h : k ≠ s.cur) : (s.drawStoch n).1.frame k = s.frame k :=
  (drawStoch_within s n).others k (by simpa using h)

/-- The flag records of every frame stand as they stood when words are drawn. -/
theorem drawStoch_flags (s : State) (n k : Nat) : ((s.drawStoch n).1.frame k).flags = (s.frame k).flags ∧
    ((s.drawStoch n).1.frame k).faultel = (s.frame k).faultel := by
  by_cases h : k = s.cur
  · subst h
    rw [frame_drawStoch_cur]
    exact ⟨rfl, rfl⟩
  · rw [drawStoch_other s n h]
    exact ⟨rfl, rfl⟩

theorem named_drawStoch (s : State) (n : Nat) : (s.drawStoch n).1.named s.cur = s.named s.cur := by
  simp only [State.named, frame_drawStoch_cur]
  rfl

/-- The `i`th drawn word, or zero where none is drawn. -/
theorem drawStoch_word (s : State) {i k : Nat} (h : i < k) : ((s.drawStoch k).2.1.getD i 0).toNat =
    if (AR.ofWord s.me.arith).stoch then
      (zrng s.me.seed (s.frame (s.named s.cur)).ltid ((s.me.rngc.toNat + i) % 2 ^ 48)).toNat else 0 := by
  unfold State.drawStoch State.drawRng
  split
  · simp [List.getD, h, State.me]
  · rfl

/-- RNGW stands at the word after the wrap of the counter, or at the last word (log 13). -/
theorem rngwFlag_drawStoch (s : State) (k : Nat) (e : Nat → Nat) : rngwFlag (s.drawStoch k).2.2 e =
    if s.drawCount k = 0 ∨ s.me.rngc.toNat + s.drawCount k < 2 ^ 48 then []
    else [(e (min (2 ^ 48 - s.me.rngc.toNat) (s.drawCount k - 1)), 128)] := by
  unfold State.drawStoch State.drawRng State.drawCount
  split
  · change rngwFlag (if k = 0 ∨ s.me.rngc.toNat + k < 2 ^ 48 then none else some _) e = _
    split <;> rfl
  · rw [if_pos (Or.inl rfl)]; rfl

/-! ### The state that an instruction leaves besides its destination -/

/-- The executing instruction's words are drawn and its flags taken. -/
def State.flagged (s : State) (k : Nat) (fl : ElemFlags) : State := (s.drawStoch k).1.mergeFlags s.cur fl false

@[simp] theorem mergeFlags_cur (s : State) (f : Nat) (l : ElemFlags) (eng : Bool) : (s.mergeFlags f l eng).cur = s.cur := by
  rw [(mergeFlags_within s f l eng).rest]

@[simp] theorem flagged_cur (s : State) (k : Nat) (fl : ElemFlags) : (s.flagged k fl).cur = s.cur := by
  rw [State.flagged, mergeFlags_cur, drawStoch_cur]

theorem frame_mergeFlags (s : State) (f k : Nat) (l : ElemFlags) (eng : Bool) : (s.mergeFlags f l eng).frame k =
    { s.frame k with flags := ((s.mergeFlags f l eng).frame k).flags,
                     faultel := ((s.mergeFlags f l eng).frame k).faultel } := by
  unfold State.mergeFlags
  split
  · rfl
  · rw [frame_updFrame]
    split
    · next e => rw [e]
    · rfl

theorem flagged_within (s : State) (k : Nat) (fl : ElemFlags) : Within s (s.flagged k fl) [s.cur, s.named s.cur] := by
  have hmerge := mergeFlags_within (s.drawStoch k).1 s.cur fl false
  rw [named_drawStoch] at hmerge
  exact ((drawStoch_within s k).mono (by simp)).trans (hmerge.mono (by simp))

theorem flagged_me (s : State) (k : Nat) (fl : ElemFlags) : (s.flagged k fl).me =
    { s.me with rngc := BitVec.ofNat 48 (s.me.rngc.toNat + s.drawCount k), flags := (s.flagged k fl).me.flags,
                faultel := (s.flagged k fl).me.faultel } := by
  have h := frame_mergeFlags (s.drawStoch k).1 s.cur (s.flagged k fl).cur fl false
  rw [flagged_cur, frame_drawStoch_cur] at h
  rw [State.me, flagged_cur]
  exact h

theorem flagged_other (s : State) (n : Nat) (fl : ElemFlags) {k : Nat} (h : k ≠ s.cur) : (s.flagged n fl).frame k =
    { s.frame k with flags := ((s.flagged n fl).frame k).flags, faultel := ((s.flagged n fl).frame k).faultel } := by
  have hmerge := frame_mergeFlags (s.drawStoch n).1 s.cur k fl false
  rw [drawStoch_other s n h] at hmerge
  exact hmerge

theorem flagged_takesFlags (s : State) (k : Nat) (fl : ElemFlags) : TakesFlags s (s.flagged k fl) s.cur fl := by
  obtain ⟨hf, he⟩ := mergeFlags_takesFlags (s.drawStoch k).1 s.cur fl
  obtain ⟨hf0, he0⟩ := drawStoch_flags s k (s.named s.cur)
  rw [named_drawStoch, hf0] at hf
  rw [named_drawStoch, he0] at he
  exact ⟨hf, he⟩

/-- A frame whose flags the instruction does not take keeps them. -/
theorem flagged_unnamed (s : State) (n : Nat) (fl : ElemFlags) {k : Nat} (h : k ≠ s.named s.cur) :
    ((s.flagged n fl).frame k).flags = (s.frame k).flags ∧ ((s.flagged n fl).frame k).faultel = (s.frame k).faultel := by
  have hk := (mergeFlags_within (s.drawStoch n).1 s.cur fl false).others k (by simpa [named_drawStoch] using h)
  rw [State.flagged, hk]
  exact drawStoch_flags s n k

theorem flagged_gives (s : State) (k : Nat) (fl : ElemFlags) : Flagged s (s.flagged k fl) (s.drawCount k) fl :=
  ⟨flagged_within s k fl, flagged_takesFlags s k fl, flagged_me s k fl, fun _ h => flagged_other s k fl h⟩

/-- Neither words nor flags change what a frame holds in its vector and predicate registers. -/
theorem flagged_registers (s : State) (n : Nat) (fl : ElemFlags) (k : Nat) : ((s.flagged n fl).frame k).v = (s.frame k).v ∧
    ((s.flagged n fl).frame k).p = (s.frame k).p ∧ ((s.flagged n fl).frame k).gang = (s.frame k).gang := by
  by_cases h : k = s.cur
  · subst h
    have hme := flagged_me s n fl
    simp only [State.me, flagged_cur] at hme
    rw [hme]
    exact ⟨rfl, rfl, rfl⟩
  · rw [flagged_other s n fl h]
    exact ⟨rfl, rfl, rfl⟩

theorem arithTrap_drawStoch (s : State) (k : Nat) (fl : ElemFlags) :
    (s.drawStoch k).1.arithTrap s.cur fl false = s.arithTrap s.cur fl false := by
  rw [State.arithTrap, State.arithTrap, frame_drawStoch_cur]
  rfl

theorem retire_drawStoch_done {s : State} {k n : Nat} {fl : ElemFlags} (h : enabledOf s fl = 0) (write : State → State) :
    (s.drawStoch k).1.retire n fl write = (write (s.flagged k fl)).advance n := by
  have hnone := (arithTrap_drawStoch s k fl).trans (arithTrap_of_disabled h)
  rw [← drawStoch_cur s k] at hnone
  rw [retire_done hnone, State.flagged, drawStoch_cur]

theorem retire_drawStoch_trap {s : State} {k : Nat} {fl : ElemFlags} {c d : Nat} {a : Word}
    (h : s.arithTrap s.cur fl false = some (c, d, a)) (n : Nat) (write : State → State) :
    (s.drawStoch k).1.retire n fl write = (s.flagged k fl).trap c d a := by
  have hsome := (arithTrap_drawStoch s k fl).trans h
  rw [← drawStoch_cur s k] at hsome
  rw [retire_trap hsome, State.flagged, drawStoch_cur]

end Sys2Proof.Machine
end

section
/-!
PROOFS. Vector destinations: lanes of a register, the streams that an instruction takes and is offered (spec/07 R149–R151,
spec/08 R178–R186), and the two ends of an instruction that writes a vector or a predicate register.
-/
namespace Sys2Proof.Machine

/-! ### Lanes (spec/07 R147) -/

theorem elemCount_eq (s : State) (w : Nat) : elemCount s w = s.lanes w := by
  unfold elemCount State.lanes Frame.vbytes
  split <;> rfl

theorem lanesNat_lt (w : Nat) (l : List Nat) : lanesNat w l < 2 ^ (w * l.length) := by
  induction l with
  | nil => simp [lanesNat]
  | cons x t ih =>
    rw [lanesNat, List.length_cons, Nat.mul_add_one, Nat.add_comm (w * t.length), Nat.pow_add]
    calc x % 2 ^ w + 2 ^ w * lanesNat w t
        < 2 ^ w + 2 ^ w * lanesNat w t := Nat.add_lt_add_right (Nat.mod_lt _ (Nat.two_pow_pos w)) _
      _ = 2 ^ w * (lanesNat w t + 1) := by ring
      _ ≤ 2 ^ w * 2 ^ (w * t.length) := Nat.mul_le_mul_left _ ih

/-- The bits of a register that are not part of a lane are cut off each lane. -/
theorem lanesNat_map_mod (w : Nat) (l : List Nat) : lanesNat w (l.map (· % 2 ^ w)) = lanesNat w l := by
  induction l with
  | nil => rfl
  | cons x t ih => rw [List.map_cons, lanesNat, lanesNat, ih, Nat.mod_mod]

theorem lanesNat_congr {w n : Nat} {f g : Nat → Nat} (h : ∀ e < n, f e % 2 ^ w = g e % 2 ^ w) :
    lanesNat w ((List.range n).map f) = lanesNat w ((List.range n).map g) := by
  rw [← lanesNat_map_mod, ← lanesNat_map_mod w ((List.range n).map g), List.map_map, List.map_map]
  exact congrArg _ (List.map_congr_left fun e he => h e (List.mem_range.1 he))

/-- Bits of a vector register (spec/01 R20). -/
def State.vbits (s : State) : Nat := if s.me.gang then 256 else 128

theorem lanesNat_lt_vbits {s : State} {w n : Nat} (h : w * n ≤ s.vbits) (f : Nat → Nat) :
    lanesNat w ((List.range n).map f) < 2 ^ s.vbits := by
  refine Nat.lt_of_lt_of_le (lanesNat_lt w _) (Nat.pow_le_pow_right (by decide) ?_)
  rwa [List.length_map, List.length_range]

/-- The elements of one layout fill a register, or less where another one, wider, counts them. -/
theorem mul_elemCount_le (s : State) {w gw : Nat} (h : w ≤ gw) : w * elemCount s gw ≤ s.vbits := by
  unfold elemCount State.vbits
  exact Nat.le_trans (Nat.mul_le_mul_right _ h) (Nat.mul_div_le ..)

/-! ### What the streams of an instruction change -/

/-- Nothing of a frame but its vector registers and its stream units differs, and the executing frame is the same. -/
structure StreamsOnly (s t : State) : Prop where
  cur   : t.cur = s.cur
  frame : ∀ k, t.frame k = { s.frame k with v := (t.frame k).v, units := (t.frame k).units }

theorem StreamsOnly.refl (s : State) : StreamsOnly s s := ⟨rfl, fun _ => rfl⟩

theorem StreamsOnly.trans {s t u : State} (h : StreamsOnly s t) (k : StreamsOnly t u) : StreamsOnly s u :=
  ⟨k.cur.trans h.cur, fun n => by rw [k.frame n, h.frame n]⟩

theorem StreamsOnly.me {s t : State} (h : StreamsOnly s t) : t.me = { s.me with v := t.me.v, units := t.me.units } := by
  have hme := h.frame s.cur
  rw [← h.cur] at hme
  rw [State.me, hme, h.cur, State.me]

theorem streamsOnly_of_frames {s t : State} (hc : t.cur = s.cur) (hf : t.frames = s.frames) : StreamsOnly s t :=
  ⟨hc, fun k => by rw [State.frame, State.frame, hf]⟩

theorem streamsOnly_updFrame (s : State) (f : Nat) {u : Frame → Frame}
    (h : ∀ x, u x = { x with v := (u x).v, units := (u x).units }) : StreamsOnly s (s.updFrame f u) := by
  refine ⟨rfl, fun k => ?_⟩
  rw [frame_updFrame]
  split
  · next e => rw [e, h]
  · rfl

theorem setUnit_streamsOnly (s : State) (f n : Nat) (u : Unit) : StreamsOnly s (s.setUnit f n u) :=
  streamsOnly_updFrame s f fun _ => rfl

theorem setChan_streamsOnly (s : State) (c n : Nat) (x : Chan) : StreamsOnly s (s.setChan c n x) := streamsOnly_of_frames rfl rfl

theorem takeUnit_streamsOnly (s : State) (f n : Nat) (u : Unit) : StreamsOnly s (s.takeUnit f n u) := by
  unfold State.takeUnit
  dsimp only
  split
  · exact .refl s
  · exact setUnit_streamsOnly ..
  · exact (setChan_streamsOnly ..).trans (setUnit_streamsOnly ..)
  · split
    · exact streamsOnly_of_frames rfl rfl
    · exact streamsOnly_of_frames rfl rfl

theorem takeUnits_streamsOnly (s : State) (f : Nat) (reads : List Nat) : StreamsOnly s (s.takeUnits f reads) := by
  refine List.foldlRecOn (motive := StreamsOnly s) _ _ (.refl s) fun t ht n _ => ?_
  split
  · split
    · exact ht.trans (takeUnit_streamsOnly ..)
    · exact ht
  · exact ht

theorem setVreg_streamsOnly (s : State) (f r v : Nat) : StreamsOnly s (s.setVreg f r v) := by
  unfold State.setVreg State.setVregOf
  dsimp only
  split
  · exact .trans (streamsOnly_updFrame s f fun _ => rfl) (streamsOnly_updFrame _ _ fun _ => rfl)
  · exact streamsOnly_updFrame s f fun _ => rfl

theorem dstV_streamsOnly (s : State) (f r seq v : Nat) : StreamsOnly s (s.dstV f r seq v) := by
  unfold State.dstV State.offerUnit
  split
  · split
    · exact setUnit_streamsOnly ..
    · exact streamsOnly_of_frames rfl rfl
    · exact .refl s
  · exact setVreg_streamsOnly ..

theorem offers_streamsOnly (s m : State) (regs : List Nat) (r v : Nat) : StreamsOnly m (offers s regs r v m) :=
  (takeUnits_streamsOnly ..).trans (dstV_streamsOnly ..)

/-! ### Registers without a bound stream (spec/01 R16) -/

theorem streamTest_plain {s : State} {reads writes : List Nat} (h : plainRegs s (reads ++ writes)) :
    s.streamTest s.cur reads writes = .ok := by
  refine List.foldlRecOn (motive := (· = VRes.ok)) _ _ rfl fun r hr n _ => ?_
  split
  · next u hu =>
    have hnot (l : List Nat) (hl : l ⊆ reads ++ writes) : l.contains (28 + n) = false := by
      by_contra hc
      have hmem := hl (List.contains_iff_mem.1 (Bool.eq_true_of_not_eq_false hc))
      exact absurd ((h _ hmem).symm.trans hu) (by simp)
    rw [hr, hnot reads (by simp), hnot writes (by simp)]
    unfold State.unitTest
    cases hk : u.kind <;> simp [VRes.join]
  · exact hr

theorem takeUnits_plain {s : State} {f : Nat} {regs : List Nat} (h : ∀ r ∈ regs, (s.frame f).unitAt r = none) :
    s.takeUnits f regs = s := by
  refine List.foldlRecOn (motive := (· = s)) _ _ rfl fun t ht n _ => ?_
  subst ht
  split
  · next hc => rw [h _ (List.contains_iff_mem.1 hc)]
  · rfl

theorem dstV_plain {s : State} {f r : Nat} (h : (s.frame f).unitAt r = none) (seq v : Nat) :
    s.dstV f r seq v = s.setVreg f r v := by
  simp only [State.dstV, h]

theorem sources_plain {s : State} {r : Nat} (h : s.me.unitAt r = none) (regs : List Nat) : sources s regs r = s.vreg s.cur r := by
  have h : (s.frame s.cur).unitAt r = none := h
  simp only [sources, State.srcV, h]

theorem oldV_eq_oldDest (s : State) (r : Nat) : s.oldV s.cur r = oldDest s r := by
  unfold State.oldV State.oldVOf oldDest State.vreg State.me
  cases (s.frame s.cur).unitAt r <;> rfl

/-- An instruction that reads one register has no lower unit before it. -/
theorem srcV_single (s : State) (f r : Nat) : s.srcV f r [r] = s.srcV f r := by
  unfold State.srcV
  split
  · next u hu =>
    have hr : 28 ≤ r := by
      by_contra hlt
      rw [Frame.unitAt, if_pos (by omega)] at hu
      cases hu
    have htakers (l : List Nat) (hl : ∀ x ∈ l, r ≤ x) : (s.frame f).takersBefore l (r - 28) u = 0 := by
      rw [Frame.takersBefore, List.length_eq_zero_iff, List.filter_eq_nil_iff]
      intro m hm
      have hnot : l.contains (28 + m) = false := by
        by_contra hc
        have := hl _ (List.contains_iff_mem.1 (Bool.eq_true_of_not_eq_false hc))
        have := List.mem_range.1 hm
        omega
      rw [hnot]
      simp
    rw [htakers [r] (by simp), htakers [] (by simp)]
  · rfl

theorem withStreams_ok {s : State} {reads writes : List Nat} (h : s.streamTest s.cur reads writes = .ok) (go : State) :
    s.withStreams reads writes go = go := by
  simp only [State.withStreams, h]

end Sys2Proof.Machine
end

section
/-!
PROOFS. The ends of an instruction that has flags: what it writes and moves on, or the trap of its flags (spec/05 R119).
-/
namespace Sys2Proof.Machine

/-! ### Writing a vector or a predicate register of a thread (spec/01 R15, R20) -/

theorem vreg_congr {s t : State} {f : Nat} (hv : ∀ k, (t.frame k).v = (s.frame k).v) (hg : (t.frame f).gang = (s.frame f).gang)
    (n : Nat) : t.vreg f n = s.vreg f n := by
  unfold State.vreg State.vregOf Frame.vr
  rw [hg, hv, hv]

theorem preg_congr {s t : State} {f : Nat} (hp : ∀ k, (t.frame k).p = (s.frame k).p) (hg : (t.frame f).gang = (s.frame f).gang)
    (n : Nat) : t.preg f n = s.preg f n := by
  unfold State.preg Frame.pr
  dsimp only
  rw [hg, hp, hp]

theorem frame_advance (s : State) (n k : Nat) : (s.advance n).frame k =
    { s.frame k with pc := ((s.advance n).frame k).pc, seq := ((s.advance n).frame k).seq,
                     since := ((s.advance n).frame k).since, prog := ((s.advance n).frame k).prog } := by
  unfold State.advance State.updMe
  rw [frame_updFrame]
  split
  · next e => rw [e]
  · rfl

theorem frame_setVreg (s : State) (f r v k : Nat) :
    (s.setVreg f r v).frame k = { s.frame k with v := ((s.setVreg f r v).frame k).v } := by
  unfold State.setVreg
  cases (s.frame f).gang with
  | false => rw [setVregOf_slot, frame_updFrame]; split
             · next e => rw [e]; rfl
             · rfl
  | true =>
    rw [setVregOf_pair, frame_updFrame]
    split
    · next e => rw [e, frame_updFrame_other _ _ (oddOf_ne f)]; rfl
    · rw [frame_updFrame]; split
      · next e => rw [e]; rfl
      · rfl

theorem frame_setVreg_other (s : State) {f r v k : Nat} (hf : k ≠ f) (hodd : k ≠ oddOf f) :
    (s.setVreg f r v).frame k = s.frame k :=
  frame_setVregOf_other s hf fun h => hodd h.2

@[simp] theorem cur_setVreg (s : State) (f r v : Nat) : (s.setVreg f r v).cur = s.cur := (setVreg_streamsOnly ..).cur

theorem setVreg_within (s : State) (f r v : Nat) : Within s (s.setVreg f r v) [f, oddOf f] := by
  refine ⟨setVregOf_rest .., fun k hk => ?_, setVregOf_bytes s f r v _⟩
  simp only [List.mem_cons, List.not_mem_nil, or_false, not_or] at hk
  exact frame_setVreg_other s hk.1 hk.2

theorem vreg_setVreg (s : State) (f r v : Nat) {k : Nat} (hk : k < 32) : (s.setVreg f r v).vreg f k =
    if k = r then v % 2 ^ (if (s.frame f).gang then 256 else 128) else s.vreg f k := by
  have hg : ((s.setVreg f r v).frame f).gang = (s.frame f).gang := by rw [frame_setVreg]
  rw [State.vreg, hg]
  exact vregOf_setVregOf s f r v _ hk

theorem setPreg_eq (s : State) (f n w : Nat) : s.setPreg f n w =
    if (s.frame f).gang then (s.updFrame f (·.setPr n (BitVec.ofNat 16 w))).updFrame (oddOf f) (·.setPr n (BitVec.ofNat 16 (w / 2 ^ 16)))
    else s.updFrame f (·.setPr n (BitVec.ofNat 16 w)) := rfl

theorem setPr_kept (x : Frame) (n : Nat) (w : Pred) : x.setPr n w = { x with p := (x.setPr n w).p } := by
  unfold Frame.setPr; split <;> rfl

theorem setPr_gang (x : Frame) (n : Nat) (w : Pred) : (x.setPr n w).gang = x.gang := by rw [setPr_kept]

theorem frame_setPreg (s : State) (f n w k : Nat) :
    (s.setPreg f n w).frame k = { s.frame k with p := ((s.setPreg f n w).frame k).p } := by
  rw [setPreg_eq]
  split
  · rw [frame_updFrame]
    split
    · next e => rw [e, frame_updFrame_other _ _ (oddOf_ne f)]; exact setPr_kept ..
    · rw [frame_updFrame]; split
      · next e => rw [e]; exact setPr_kept ..
      · rfl
  · rw [frame_updFrame]; split
    · next e => rw [e]; exact setPr_kept ..
    · rfl

theorem frame_setPreg_other (s : State) {f n w k : Nat} (hf : k ≠ f) (hodd : k ≠ oddOf f) :
    (s.setPreg f n w).frame k = s.frame k := by
  rw [setPreg_eq]
  split
  · rw [frame_updFrame_other _ _ hodd, frame_updFrame_other _ _ hf]
  · exact frame_updFrame_other _ _ hf

theorem setPreg_rest (s : State) (f n w : Nat) : s.setPreg f n w = { s with frames := (s.setPreg f n w).frames } := by
  rw [setPreg_eq]
  split <;> rfl

@[simp] theorem cur_setPreg (s : State) (f n w : Nat) : (s.setPreg f n w).cur = s.cur := by rw [setPreg_rest]

theorem setPreg_within (s : State) (f n w : Nat) : Within s (s.setPreg f n w) [f, oddOf f] := by
  refine ⟨setPreg_rest .., fun k hk => ?_, fun a => by rw [setPreg_rest]; rfl⟩
  simp only [List.mem_cons, List.not_mem_nil, or_false, not_or] at hk
  exact frame_setPreg_other s hk.1 hk.2

/-- A predicate of a thread after a write of one: p0 stays all-true. -/
theorem preg_setPreg (s : State) (f n w : Nat) {k : Nat} (hk : k < 8) : (s.setPreg f n w).preg f k =
    if k = 0 then s.preg f 0 else if k = n then w % 2 ^ (if (s.frame f).gang then 32 else 16) else s.preg f k := by
  unfold State.preg
  dsimp only
  cases hg : (s.frame f).gang with
  | false =>
    have hf : (s.setPreg f n w).frame f = (s.frame f).setPr n (BitVec.ofNat 16 w) := by
      rw [setPreg_eq, if_neg (by simp [hg]), frame_updFrame_same]
    rw [hf, setPr_gang, hg, pr_setPr _ _ _ _ hk]
    simp only [Bool.false_eq_true, if_false]
    split
    · rw [pr_zero]
    · split
      · exact BitVec.toNat_ofNat ..
      · rfl
  | true =>
    have hf : (s.setPreg f n w).frame f = (s.frame f).setPr n (BitVec.ofNat 16 w) := by
      rw [setPreg_eq, if_pos hg, frame_updFrame_pair_first s (oddOf_ne f).symm]
    have hodd : (s.setPreg f n w).frame (oddOf f) = (s.frame (oddOf f)).setPr n (BitVec.ofNat 16 (w / 2 ^ 16)) := by
      rw [setPreg_eq, if_pos hg, frame_updFrame_pair_second s (oddOf_ne f).symm]
    rw [hf, hodd, setPr_gang, hg, pr_setPr _ _ _ _ hk, pr_setPr _ _ _ _ hk]
    simp only [if_true]
    split
    · rw [pr_zero, pr_zero]
    · split
      · rw [BitVec.toNat_ofNat, BitVec.toNat_ofNat]; omega
      · rfl

/-! ### The two ends -/

section
variable {s : State} {i : Instr} {k n : Nat} {fl : ElemFlags} {write : State → State}

/-- An instruction that ends by `retire` ends as its flags say. -/
theorem endsWith_of_exec (hn : (encode i).length = n) (he : exec i s = .next ((s.drawStoch k).1.retire n fl write))
    {w : State → State} (hw : write (s.flagged k fl) = w (s.flagged k fl))
    (hso : ∀ m, (w m).me.pc = m.me.pc) : EndsWith s i (s.drawCount k) fl w := by
  refine ⟨fun hon => ?_, fun hon => ?_⟩
  · refine ⟨_, _, flagged_gives s k fl, he.trans (congrArg _ (retire_drawStoch_done hon write)), ?_⟩
    have hnext : (w (s.flagged k fl)).next i = s.next i := by
      rw [State.next, hso, flagged_me, State.next]
    rw [hw, ← hnext]
    exact advance_goesTo _ hn
  · obtain ⟨e, htrap, hmem, hlow⟩ := arithTrap_of_enabled hon
    exact ⟨_, e, flagged_gives s k fl, he.trans (congrArg _ (retire_drawStoch_trap htrap n write)), hmem, hlow⟩

/-- What the flags of an instruction and its move past itself leave of the state that its write gives. -/
theorem takesFlags_write {u : State} (hu : ∀ k, (u.frame k).flags = ((s.flagged n fl).frame k).flags ∧
    (u.frame k).faultel = ((s.flagged n fl).frame k).faultel) : TakesFlags s u s.cur fl := by
  obtain ⟨hf, he⟩ := flagged_takesFlags s n fl
  exact ⟨(hu _).1.trans hf, (hu _).2.trans he⟩

/-- An instruction that writes a vector register after its flags, and moves past itself. -/
theorem flagged_setVreg_writesV (s : State) (i : Instr) (k r : Nat) {v : Nat} (fl : ElemFlags) (hv : v < 2 ^ s.vbits) :
    WritesV s (((s.flagged k fl).setVreg s.cur r v).advance (encode i).length) i r v (s.drawCount k) fl := by
  have hreg := flagged_registers s k fl
  have hw := frame_setVreg (s.flagged k fl) s.cur r v
  have ha := frame_advance ((s.flagged k fl).setVreg s.cur r v) (encode i).length
  have hcur : ((s.flagged k fl).setVreg s.cur r v).cur = s.cur := by rw [cur_setVreg, flagged_cur]
  have hother {j : Nat} (hj : j ≠ s.cur) := advance_other ((s.flagged k fl).setVreg s.cur r v) (encode i).length (hcur ▸ hj)
  have hwithin := ((flagged_within s k fl).mono (gs := [s.cur, s.named s.cur, oddOf s.cur]) (by simp)).trans
    (((setVreg_within _ s.cur r v).mono (by simp)).trans ((advance_goesTo _ (i := i) rfl).within.mono (by simp)))
  refine ⟨hwithin.rest, hwithin.bytes, fun j hj => ?_, takesFlags_write (n := k) fun j => ?_, ?_, fun j hj => ?_, fun j hj hodd => ?_,
    fun j hj => ?_⟩
  · have hgang : ((s.flagged k fl).frame s.cur).gang = s.me.gang := (hreg _).2.2
    rw [vreg_congr (s := (s.flagged k fl).setVreg s.cur r v) (fun j => by rw [ha]) (by rw [ha]), vreg_setVreg _ _ _ _ hj, hgang,
      vreg_congr (fun j => (hreg j).1) (hreg _).2.2]
    split
    · exact Nat.mod_eq_of_lt hv
    · rfl
  · rw [ha, hw]; exact ⟨rfl, rfl⟩
  · rw [advance_me, State.me, hcur, hw, ← flagged_cur s k fl, ← State.me, flagged_me]
    rfl
  · rw [hother hj, hw, flagged_other s k fl hj]
  · rw [hother hj, frame_setVreg_other _ hj hodd, (hreg j).1]
  · rw [ha, hw]; exact flagged_unnamed s k fl hj

/-- An instruction that writes a predicate after its flags, and moves past itself. -/
theorem flagged_setPreg_writesP (s : State) (i : Instr) (d : Nat) {v : Nat} (fl : ElemFlags)
    (hv : v < 2 ^ (if s.me.gang then 32 else 16)) :
    WritesP s (((s.flagged 0 fl).setPreg s.cur d v).advance (encode i).length) i d v fl := by
  have hreg := flagged_registers s 0 fl
  have hw := frame_setPreg (s.flagged 0 fl) s.cur d v
  have ha := frame_advance ((s.flagged 0 fl).setPreg s.cur d v) (encode i).length
  have hcur : ((s.flagged 0 fl).setPreg s.cur d v).cur = s.cur := by rw [cur_setPreg, flagged_cur]
  have hother {j : Nat} (hj : j ≠ s.cur) := advance_other ((s.flagged 0 fl).setPreg s.cur d v) (encode i).length (hcur ▸ hj)
  have hwithin := ((flagged_within s 0 fl).mono (gs := [s.cur, s.named s.cur, oddOf s.cur]) (by simp)).trans
    (((setPreg_within _ s.cur d v).mono (by simp)).trans ((advance_goesTo _ (i := i) rfl).within.mono (by simp)))
  refine ⟨hwithin.rest, hwithin.bytes, fun j hj => ?_, takesFlags_write (n := 0) fun j => ?_, ?_, fun j hj => ?_, fun j hj hodd => ?_,
    fun j hj => ?_⟩
  · have hgang : ((s.flagged 0 fl).frame s.cur).gang = s.me.gang := (hreg _).2.2
    have hsame := preg_congr (f := s.cur) (fun j => (hreg j).2.1) (hreg _).2.2
    rw [preg_congr (s := (s.flagged 0 fl).setPreg s.cur d v) (fun j => by rw [ha]) (by rw [ha]), preg_setPreg _ _ _ _ hj, hgang,
      hsame, hsame, Nat.mod_eq_of_lt hv]
  · rw [ha, hw]; exact ⟨rfl, rfl⟩
  · have hrng : BitVec.ofNat 48 (s.me.rngc.toNat + s.drawCount 0) = s.me.rngc := by simp [State.drawCount]
    rw [advance_me, State.me, hcur, hw, ← flagged_cur s 0 fl, ← State.me, flagged_me, hrng]
    rfl
  · rw [hother hj, hw, flagged_other s 0 fl hj]
  · rw [hother hj, frame_setPreg_other _ hj hodd, (hreg j).2.1]
  · rw [ha, hw]; exact flagged_unnamed s 0 fl hj

/-- The streams of a thread are the same after the words and flags of its instruction. -/
theorem flagged_unitAt (s : State) (k : Nat) (fl : ElemFlags) (r : Nat) : ((s.flagged k fl).frame s.cur).unitAt r = s.me.unitAt r := by
  have hme := flagged_me s k fl
  rw [State.me, flagged_cur] at hme
  rw [hme]
  rfl

theorem commitV_flagged (s : State) (k : Nat) (fl : ElemFlags) (regs : List Nat) (r v : Nat) :
    (s.flagged k fl).commitV regs r v = offers s regs r v (s.flagged k fl) := by
  rw [State.commitV, offers, flagged_cur, flagged_me]

theorem offers_flagged_plain {regs : List Nat} {r : Nat} (h : plainRegs s (r :: regs)) (k : Nat) (fl : ElemFlags) (v : Nat) :
    offers s regs r v (s.flagged k fl) = (s.flagged k fl).setVreg s.cur r v := by
  have hplain : ∀ q ∈ r :: regs, ((s.flagged k fl).frame s.cur).unitAt q = none := fun q hq =>
    (flagged_unitAt s k fl q).trans (h q hq)
  rw [offers, takeUnits_plain fun q hq => hplain q (List.mem_cons_of_mem r hq), dstV_plain (hplain r List.mem_cons_self)]

/-- What an instruction gives that takes its flags and writes a vector register: where its registers are no bound streams and no
flag traps, that register; where its bound streams can go on, the end that its flags ask for.  `value` and `fl` are what it writes
and flags when its source registers hold `rv`. -/
theorem writesVector_of_exec {regs : List Nat} {r : Nat} {value : (Nat → Nat) → Nat} {fl : (Nat → Nat) → ElemFlags}
    (hs : s.halt = none)
    (he : exec i s = s.act (s.withStreams regs [r] ((s.drawStoch k).1.retire (encode i).length (fl (sources s regs)) fun u =>
      u.commitV regs r (value (sources s regs)))))
    (hdep : ∀ rv rw : Nat → Nat, (∀ q ∈ regs, rv q = rw q) → value rv = value rw ∧ fl rv = fl rw)
    (hv : value (s.vreg s.cur) < 2 ^ s.vbits) :
    (plainRegs s (r :: regs) → enabledOf s (fl (s.vreg s.cur)) = 0 →
      ∃ t, exec i s = .next t ∧ WritesV s t i r (value (s.vreg s.cur)) (s.drawCount k) (fl (s.vreg s.cur))) ∧
    (s.streamTest s.cur regs [r] = .ok →
      EndsWith s i (s.drawCount k) (fl (sources s regs)) (offers s regs r (value (sources s regs)))) := by
  have hexec (hok : s.streamTest s.cur regs [r] = .ok) := he.trans ((act_running hs _).trans (congrArg _ (withStreams_ok hok _)))
  refine ⟨fun hp hon => ?_, fun hok => endsWith_of_exec rfl (hexec hok) (commitV_flagged ..) fun m => ?_⟩
  · obtain ⟨hvalue, hfl⟩ := hdep (sources s regs) (s.vreg s.cur) fun q hq => sources_plain (hp q (List.mem_cons_of_mem r hq)) regs
    have hrun := hexec (streamTest_plain fun q hq => hp q (by simpa [or_comm] using hq))
    rw [hvalue, hfl, retire_drawStoch_done hon, commitV_flagged, offers_flagged_plain hp] at hrun
    exact ⟨_, hrun, flagged_setVreg_writesV s i k r _ hv⟩
  · rw [(offers_streamsOnly ..).me]

end

end Sys2Proof.Machine
end

section
/-!
PROOFS. Element-wise vector instructions (spec/07 R147–R159, R172–R174): the frame that they share, element by element, and the forms
of two sources, of an accumulator and of one source.
-/
namespace Sys2Proof.Machine

/-! ### Active elements and their results (spec/07 R149) -/

/-- The active elements in their order, each with its place among them. -/
theorem zipIdx_of_nodup {l : List Nat} (h : l.Nodup) : l.zipIdx = l.map fun e => (e, l.idxOf e) := by
  refine List.ext_getElem (by simp) fun i hi _ => ?_
  rw [List.getElem_map, List.getElem_zipIdx, h.idxOf_getElem, Nat.zero_add]

theorem find?_map_key (l : List Nat) (f : Nat → Nat × Nat) (e : Nat) :
    (l.map fun x => (x, f x)).find? (fun r => r.1 == e) = if e ∈ l then some (e, f e) else none := by
  induction l with
  | nil => rfl
  | cons x t ih =>
    rw [List.map_cons, List.find?_cons]
    by_cases h : x = e
    · subst h; simp
    · simp [beq_false_of_ne h, ih, Ne.symm h]

/-- A destination element by element: an active one takes its result, another is zero under ZM, else keeps its old value. -/
theorem assemble_map (w n old : Nat) (zm : Bool) (l : List Nat) (f : Nat → Nat × Nat) :
    assemble w n old zm (l.map fun x => (x, f x)) =
      lanesNat w ((List.range n).map fun e => if e ∈ l then (f e).1 % 2 ^ w else if zm then 0 else laneAt old w e) := by
  refine lanesNat_congr fun e _ => ?_
  rw [find?_map_key]
  by_cases h : e ∈ l
  · simp only [if_pos h, Nat.mod_mod]
  · simp only [if_neg h]

/-- The words of an element of an instruction that draws `parts` for each of `k`. -/
theorem drawn_words (s : State) {k j : Nat} (parts : Nat) (hj : j < k) :
    ((List.range parts).map fun p => ((s.drawStoch (parts * k)).2.1.getD (p * k + j) 0).toNat) =
      (List.range parts).map fun p => eventWord s k p j := by
  refine List.map_congr_left fun p hp => ?_
  have hlt : p * k + j < parts * k := by
    calc p * k + j < (p + 1) * k := by rw [Nat.add_one_mul]; omega
      _ ≤ parts * k := Nat.mul_le_mul_right k (List.mem_range.1 hp)
  exact drawStoch_word s hlt

/-- What `op` gives for an active element, with the words that fall to it. -/
def activeResult (s : State) (acts : List Nat) (parts : Nat) (op : Nat → List Nat → Nat × Nat) (e : Nat) : Nat × Nat :=
  op e ((List.range parts).map fun p => eventWord s acts.length p (acts.idxOf e))

theorem drawn_results (s : State) {acts : List Nat} (h : acts.Nodup) (parts : Nat) (op : Nat → List Nat → Nat × Nat) :
    (acts.zipIdx.map fun q => (q.1, op q.1 ((List.range parts).map fun p =>
      ((s.drawStoch (parts * acts.length)).2.1.getD (p * acts.length + q.2) 0).toNat))) =
      acts.map fun e => (e, activeResult s acts parts op e) := by
  rw [zipIdx_of_nodup h, List.map_map]
  refine List.map_congr_left fun e he => ?_
  rw [Function.comp_apply, drawn_words s parts (List.idxOf_lt_length_iff.2 he), activeResult]

/-- An element-wise instruction draws its words, takes the flags of its active elements and writes its result (spec/07 R149). -/
theorem vmap_eq (s : State) (o : Opnd) (regs : List Nat) (n w gw parts : Nat) (op : Nat → List Nat → Nat × Nat) :
    s.vmap o regs n w gw parts op = s.withStreams regs [o.ra]
      ((s.drawStoch (parts * ((List.range n).filter (isActive s o gw)).length)).1.retire (o.halves 1)
        (resultFlags s o n gw parts op) fun u =>
          u.commitV regs o.ra (lanesNat w ((List.range n).map (resultLane s o w n gw parts op)))) := by
  let acts := (List.range n).filter (isActive s o gw)
  have hres := drawn_results s (List.nodup_range.filter (isActive s o gw) : acts.Nodup) parts op
  have hvalue := (congrArg (assemble w n (s.oldV s.cur o.ra) o.zm) hres).trans (assemble_map ..)
  conv_rhs at hvalue => rw [oldV_eq_oldDest]
  have hflags := (congrArg (List.filterMap fun r : Nat × Nat × Nat => if r.2.2 = 0 then none else some (r.1, r.2.2)) hres).trans
    List.filterMap_map
  refine congrArg (s.withStreams regs [o.ra]) ?_
  refine congrArg₂ (State.retire _ _) ?_ (funext fun u => congrArg (u.commitV regs o.ra) hvalue)
  exact congrArg₂ (· ++ ·) hflags (rngwFlag_drawStoch ..)

/-- An instruction that is an element-wise one of the model is one of the rules, where what it computes depends on the vector registers
that it names alone. -/
theorem elementwise_of_vmap {s : State} {o : Opnd} {i : Instr} {regs : List Nat} {n w gw parts : Nat}
    {op : (Nat → Nat) → Nat → List Nat → Nat × Nat} (hn : (encode i).length = o.halves 1)
    (he : exec i s = s.act (s.vmap o regs n w gw parts (op (sources s regs))))
    (hop : ∀ rv rw : Nat → Nat, (∀ q ∈ regs, rv q = rw q) → op rv = op rw) (hw : w * n ≤ s.vbits) :
    Elementwise s o i regs n w gw parts op := by
  rw [vmap_eq, ← hn] at he
  exact fun hs => writesVector_of_exec (value := fun rv => lanesNat w ((List.range n).map (resultLane s o w n gw parts (op rv))))
    (fl := fun rv => resultFlags s o n gw parts (op rv)) hs he (fun rv rw h => by rw [hop rv rw h]; exact ⟨rfl, rfl⟩)
    (lanesNat_lt_vbits hw _)

/-! ### Sources (spec/07 R147, R150) -/

section
variable (s : State) (o : Opnd) (regs : List Nat) (w e : Nat)

theorem src1_at : (s.src1 o regs).at w e = (srcOne s (sources s regs) o w e).1 := by
  unfold State.src1 srcOne
  split <;> rfl

theorem src1_fl : (s.src1 o regs).fl = (srcOne s (sources s regs) o w e).2 := by
  unfold State.src1 srcOne
  split <;> rfl

theorem src2_at : (s.src2 o regs).at w e = (srcTwo s (sources s regs) o w e).1 := by
  unfold State.src2 srcTwo
  split <;> rfl

theorem src2_fl : (s.src2 o regs).fl = (srcTwo s (sources s regs) o w e).2 := by
  unfold State.src2 srcTwo
  split <;> rfl

end

theorem srcOne_congr (s : State) {o : Opnd} {rv rw : Nat → Nat} (h : ∀ q ∈ twoRegs o, rv q = rw q) (w e : Nat) :
    srcOne s rv o w e = srcOne s rw o w e := by
  unfold srcOne
  split
  · rfl
  · next hsel => rw [h _ (by simp [twoRegs, hsel])]

theorem srcTwo_congr (s : State) {o : Opnd} {rv rw : Nat → Nat} (h : ∀ q ∈ twoRegs o, rv q = rw q) (w e : Nat) :
    srcTwo s rv o w e = srcTwo s rw o w e := by
  unfold srcTwo
  split
  · rfl
  · next hsel => rw [h _ (by simp [twoRegs, hsel])]

/-! ### The forms -/

/-- An element-wise instruction of two sources, by the two sources of the rule. -/
theorem vbin_eq (s : State) (o : Opnd) (parts : Nat) (f : AR → ET → Nat → Nat → List Nat → Nat × Nat) : s.vbin o parts f =
    s.vmap o (twoRegs o) (elemCount s o.et.width) o.et.width o.et.width parts fun e ws =>
      let a := srcOne s (sources s (twoRegs o)) o o.et.width e
      let b := srcTwo s (sources s (twoRegs o)) o o.et.width e
      ((f (AR.ofWord s.me.arith) o.et a.1 b.1 ws).1, (f (AR.ofWord s.me.arith) o.et a.1 b.1 ws).2 ||| a.2 ||| b.2) := by
  unfold State.vbin
  dsimp only
  rw [elemCount_eq]
  congr 1
  funext e ws
  rw [src1_at, src2_at, src1_fl s o _ o.et.width e, src2_fl s o _ o.et.width e]
  rfl

theorem twoSource_of_exec {s : State} {o : Opnd} {i : Instr} {parts : Nat} {op : Nat → Nat → List Nat → Nat × Nat}
    {f : AR → ET → Nat → Nat → List Nat → Nat × Nat} (hn : (encode i).length = o.halves 1)
    (he : exec i s = s.act (s.vbin o parts f)) (hf : f (AR.ofWord s.me.arith) o.et = op) : TwoSource s o i parts op := by
  unfold TwoSource
  intro w
  rw [vbin_eq, hf] at he
  refine elementwise_of_vmap hn he (fun rv rw h => ?_) (mul_elemCount_le s (Nat.le_refl _))
  funext e ws
  rw [srcOne_congr s h, srcTwo_congr s h]

/-- An element-wise instruction of two sources and the accumulator vA. -/
theorem vacc_eq (s : State) (o : Opnd) (parts : Nat) (f : AR → ET → Nat → Nat → Nat → List Nat → Nat × Nat) : s.vacc o parts f =
    s.vmap o (o.ra :: twoRegs o) (elemCount s o.et.width) o.et.width o.et.width parts fun e ws =>
      let rv := sources s (o.ra :: twoRegs o)
      let a := srcOne s rv o o.et.width e
      let b := srcTwo s rv o o.et.width e
      let r := f (AR.ofWord s.me.arith) o.et a.1 b.1 (laneAt (rv o.ra) o.et.width e) ws
      (r.1, r.2 ||| a.2 ||| b.2) := by
  unfold State.vacc
  dsimp only
  rw [elemCount_eq]
  congr 1
  funext e ws
  rw [src1_at, src2_at, src1_fl s o _ o.et.width e, src2_fl s o _ o.et.width e]
  rfl

theorem accumulates_of_exec {s : State} {o : Opnd} {i : Instr} {parts : Nat} {op : Nat → Nat → Nat → List Nat → Nat × Nat}
    {f : AR → ET → Nat → Nat → Nat → List Nat → Nat × Nat} (hn : (encode i).length = o.halves 1)
    (he : exec i s = s.act (s.vacc o parts f)) (hf : f (AR.ofWord s.me.arith) o.et = op) :
    Elementwise s o i (o.ra :: twoRegs o) (elemCount s o.et.width) o.et.width o.et.width parts fun rv e ws =>
      let a := srcOne s rv o o.et.width e
      let b := srcTwo s rv o o.et.width e
      let r := op a.1 b.1 (laneAt (rv o.ra) o.et.width e) ws
      (r.1, r.2 ||| a.2 ||| b.2) := by
  rw [vacc_eq, hf] at he
  refine elementwise_of_vmap hn he (fun rv rw h => ?_) (mul_elemCount_le s (Nat.le_refl _))
  have htwo : ∀ q ∈ twoRegs o, rv q = rw q := fun q hq => h q (List.mem_cons_of_mem _ hq)
  funext e ws
  rw [srcOne_congr s htwo, srcTwo_congr s htwo, h o.ra List.mem_cons_self]

/-- VDOT: each destination lane of the sum of its products and of its accumulator. -/
theorem vdot_elementwise (s : State) (o : Opnd) :
    Elementwise s o (.vdot o) (o.ra :: twoRegs o) (elemCount s 32) 32 32 (if dotAcc o.et == .fp32 then 1 else 0) fun rv j ws =>
      let w := o.et.width
      let ps := (List.range (32 / w)).map fun k =>
        ((srcOne s rv o w (32 / w * j + k)).1, (srcTwo s rv o w (32 / w * j + k)).1)
      let r := elemDot (AR.ofWord s.me.arith) o.et (laneAt (rv o.ra) 32 j) ps (ws.getD 0 0)
      (r.1, r.2 ||| (srcOne s rv o w 0).2 ||| (srcTwo s rv o w 0).2) := by
  refine elementwise_of_vmap (encode_length_page rfl rfl rfl) ?_ (fun rv rw h => ?_) (mul_elemCount_le s (Nat.le_refl _))
  · change execVdot o s = _
    unfold execVdot
    dsimp only
    rw [elemCount_eq]
    congr 2
    funext j ws
    simp only [src1_at, src2_at]
    rw [src1_fl s o _ o.et.width 0, src2_fl s o _ o.et.width 0]
    rfl
  · have htwo : ∀ q ∈ twoRegs o, rv q = rw q := fun q hq => h q (List.mem_cons_of_mem _ hq)
    funext j ws
    simp only [srcOne_congr s htwo, srcTwo_congr s htwo, h o.ra List.mem_cons_self]

/-- An element-wise instruction of one source. -/
theorem unary_of_exec {s : State} {o : Opnd} {i : Instr} {parts : Nat} {op : Nat → List Nat → Nat × Nat}
    {f : AR → ET → Nat → List Nat → Nat × Nat} (hn : (encode i).length = o.halves 1)
    (he : exec i s = s.act (s.vun o parts f)) (hf : f (AR.ofWord s.me.arith) o.et = op) :
    Elementwise s o i [unReg o] (elemCount s o.et.width) o.et.width o.et.width parts
      fun rv e ws => op (srcUn rv o o.et.width e) ws := by
  refine elementwise_of_vmap hn (he.trans (congrArg s.act ?_)) (fun rv rw h => ?_) (mul_elemCount_le s (Nat.le_refl _))
  · unfold State.vun
    dsimp only
    rw [hf, elemCount_eq, ← srcV_single]
    rfl
  · have hreg : rv (if o.hasR then o.rc else o.ra) = rw (if o.hasR then o.rc else o.ra) := h (unReg o) List.mem_cons_self
    funext e ws
    rw [srcUn, srcUn, hreg]

theorem vbcast_elementwise (s : State) (o : Opnd) :
    Elementwise s o (.vbcast o) (if o.sel = 2 then [] else [unReg o]) (elemCount s o.et.width) o.et.width o.et.width 0 fun rv _ _ =>
      if o.sel = 2 then bcastElem (AR.ofWord s.me.arith) o.et (s.g o.rc) else (canonElem o.et (srcUn rv o o.et.width 0), 0) := by
  refine elementwise_of_vmap (encode_length_page rfl rfl rfl) ?_ (fun rv rw h => ?_) (mul_elemCount_le s (Nat.le_refl _))
  · change execVbcast o s = _
    unfold execVbcast
    dsimp only
    rw [elemCount_eq, ← srcV_single]
    split <;> rfl
  · funext e ws
    split
    · rfl
    · next hsel =>
      have hreg : rv (if o.hasR then o.rc else o.ra) = rw (if o.hasR then o.rc else o.ra) := h (unReg o) (by simp [hsel])
      rw [srcUn, srcUn, hreg]

/-- VCVT: as many elements as the wider of the two layouts has, in lanes of the result's. -/
theorem vcvt_elementwise (s : State) (o : Opnd) :
    Elementwise s o (.vcvt o) [unReg o] (elemCount s (max o.et.width (ET.ofCode o.et2).width)) o.et.width
      (max o.et.width (ET.ofCode o.et2).width) (cvtEvents o.et (ET.ofCode o.et2)) fun rv e ws =>
        convElem (AR.ofWord s.me.arith) o.et (ET.ofCode o.et2) (srcUn rv o (ET.ofCode o.et2).width e) ws := by
  refine elementwise_of_vmap (encode_length_page rfl rfl rfl) ?_ (fun rv rw h => ?_) (mul_elemCount_le s (Nat.le_max_left ..))
  · change execVcvt o s = _
    unfold execVcvt
    rw [elemCount_eq, ← srcV_single]
    rfl
  · have hreg : rv (if o.hasR then o.rc else o.ra) = rw (if o.hasR then o.rc else o.ra) := h (unReg o) List.mem_cons_self
    funext e ws
    rw [srcUn, srcUn, hreg]

end Sys2Proof.Machine

namespace Sys2Proof.VectorForms
open Sys2Proof.Machine

theorem vectorTwoSourceResult : VectorTwoSourceResult := by
  intro o s
  refine ⟨?_, ?_, ?_, ?_, ?_, ?_, ?_, ?_, ?_, ?_, ?_⟩
  all_goals exact twoSource_of_exec (encode_length_page rfl rfl rfl) rfl rfl

theorem vectorAccumulateResult : VectorAccumulateResult := by
  unfold VectorAccumulateResult
  intro o s ar t w acc all
  have hall (i : Instr) {parts : Nat} {f : AR → ET → Nat → Nat → Nat → List Nat → Nat × Nat} (hn : (encode i).length = o.halves 1)
      (he : exec i s = s.act (s.vacc o parts f)) : all i parts (f ar t) := accumulates_of_exec hn he rfl
  exact ⟨(hall (.vmac o) (encode_length_page rfl rfl rfl) rfl :), (hall (.vfma o) (encode_length_page rfl rfl rfl) rfl :),
    (hall (.vcmac o) (encode_length_page rfl rfl rfl) rfl :), vdot_elementwise s o⟩

theorem vectorUnaryResult : VectorUnaryResult := by
  unfold VectorUnaryResult
  intro o s ar t w un
  have hun (i : Instr) {parts : Nat} {f : AR → ET → Nat → List Nat → Nat × Nat} (hn : (encode i).length = o.halves 1)
      (he : exec i s = s.act (s.vun o parts f)) : un i parts (f ar t) := unary_of_exec hn he rfl
  exact ⟨(hun (.vshlI o) (encode_length_page rfl rfl rfl) rfl :), (hun (.vshrI o) (encode_length_page rfl rfl rfl) rfl :),
    (hun (.vabs o) (encode_length_page rfl rfl rfl) rfl :), (hun (.vneg o) (encode_length_page rfl rfl rfl) rfl :),
    (hun (.vsat o) (encode_length_page rfl rfl rfl) rfl :), (hun (.vrcp o) (encode_length_page rfl rfl rfl) rfl :),
    (hun (.vrsq o) (encode_length_page rfl rfl rfl) rfl :), (hun (.vexp2 o) (encode_length_page rfl rfl rfl) rfl :),
    (hun (.vlog2 o) (encode_length_page rfl rfl rfl) rfl :), (hun (.vsincos o) (encode_length_page rfl rfl rfl) rfl :),
    vbcast_elementwise s o, vcvt_elementwise s o⟩

/-- Settles O10: every form is the model's element-wise instruction, whose frame is that of the rules. -/
theorem vectorArithmetic : Obligations.VectorArithmetic :=
  ⟨vectorTwoSourceResult, vectorAccumulateResult, vectorUnaryResult⟩

end Sys2Proof.VectorForms
end

section
/-!
PROOFS. Comparison, loop control and reduction (spec/07 R161, R162, R165): what the instructions that write a predicate give, and the
fold of a reduction over its active elements.
-/
namespace Sys2Proof.Machine

/-! ### Instructions that draw no words -/

theorem drawStoch_zero (s : State) : (s.drawStoch 0).1 = s := by
  unfold State.drawStoch State.drawRng
  split <;> rfl

theorem drawCount_zero (s : State) : s.drawCount 0 = 0 := ite_self 0

theorem flagged_zero_nil (s : State) : s.flagged 0 [] = s := by
  rw [State.flagged, mergeFlags_nil, drawStoch_zero]

/-- A list with its places, where it is the image of the first numbers. -/
theorem zipIdx_map_range {α : Type} (n : Nat) (f : Nat → α) : ((List.range n).map f).zipIdx = (List.range n).map fun e => (f e, e) := by
  refine List.ext_getElem (by simp) fun i hi _ => ?_
  simp

/-! ### Instructions that write a predicate -/

theorem predOf_lt (s : State) (w : Nat) (f : Nat → Bool) :
    predOf w ((List.range (elemCount s w)).map f) < 2 ^ (if s.me.gang then 32 else 16) := by
  have hbits : w / 8 * elemCount s w ≤ if s.me.gang then 32 else 16 := by
    have hle : w / 8 * elemCount s w * 8 ≤ s.vbits := by
      calc w / 8 * elemCount s w * 8 = w / 8 * 8 * elemCount s w := by ring
        _ ≤ w * elemCount s w := Nat.mul_le_mul_right _ (Nat.div_mul_le_self w 8)
        _ ≤ s.vbits := mul_elemCount_le s (Nat.le_refl w)
    unfold State.vbits at hle
    cases hg : s.me.gang with
    | false => rw [hg, if_neg (by decide)] at hle; exact (Nat.le_of_mul_le_mul_right hle (by decide) : _ ≤ 16)
    | true => rw [hg, if_pos rfl] at hle; exact (Nat.le_of_mul_le_mul_right hle (by decide) : _ ≤ 32)
  refine Nat.lt_of_lt_of_le (lanesNat_lt _ _) (Nat.pow_le_pow_right (by decide) ?_)
  rwa [List.length_map, List.length_map, List.length_range]

/-- What an instruction gives that takes its flags and writes a predicate, as `writesVector_of_exec` says it of a vector register. -/
theorem writesPredicate_of_exec {s : State} {i : Instr} {regs : List Nat} {d : Nat} {value : (Nat → Nat) → Nat}
    {fl : (Nat → Nat) → ElemFlags} (hs : s.halt = none)
    (he : exec i s = s.act (s.withStreams regs [] ((s.drawStoch 0).1.retire (encode i).length (fl (sources s regs)) fun u =>
      (u.takeUnits u.cur regs).setPreg u.cur d (value (sources s regs)))))
    (hdep : ∀ rv rw : Nat → Nat, (∀ q ∈ regs, rv q = rw q) → value rv = value rw ∧ fl rv = fl rw)
    (hv : value (s.vreg s.cur) < 2 ^ (if s.me.gang then 32 else 16)) :
    (plainRegs s regs → enabledOf s (fl (s.vreg s.cur)) = 0 →
      ∃ t, exec i s = .next t ∧ WritesP s t i d (value (s.vreg s.cur)) (fl (s.vreg s.cur))) ∧
    (s.streamTest s.cur regs [] = .ok → EndsWith s i 0 (fl (sources s regs)) fun m =>
      (m.takeUnits s.cur regs).setPreg s.cur d (value (sources s regs))) := by
  have hexec (hok : s.streamTest s.cur regs [] = .ok) := he.trans ((act_running hs _).trans (congrArg _ (withStreams_ok hok _)))
  refine ⟨fun hp hon => ?_, fun hok => ?_⟩
  · obtain ⟨hvalue, hfl⟩ := hdep (sources s regs) (s.vreg s.cur) fun q hq => sources_plain (hp q hq) regs
    have hrun := hexec (streamTest_plain fun q hq => hp q (by simpa using hq))
    have hplain : ∀ q ∈ regs, ((s.flagged 0 (fl (s.vreg s.cur))).frame s.cur).unitAt q = none := fun q hq =>
      (flagged_unitAt s 0 _ q).trans (hp q hq)
    rw [hvalue, hfl, retire_drawStoch_done hon, flagged_cur, takeUnits_plain hplain] at hrun
    exact ⟨_, hrun, flagged_setPreg_writesP s i d _ hv⟩
  · rw [← drawCount_zero s]
    refine endsWith_of_exec rfl (hexec hok) (by rw [flagged_cur]) fun m => ?_
    have hpred := frame_setPreg (m.takeUnits s.cur regs) s.cur d (value (sources s regs)) m.cur
    have htake := takeUnits_streamsOnly m s.cur regs
    rw [State.me, cur_setPreg, htake.cur, hpred, htake.frame]
    rfl

/-! ### VCMP (spec/07 R161) -/

/-- The truth value of an element that a comparison writes, and its flags. -/
def cmpElem (s : State) (o : Opnd) (rv : Nat → Nat) (e : Nat) : Bool × Nat :=
  let a := srcOne s rv o o.et.width e
  let b := srcTwo s rv o o.et.width e
  if isActive s o o.et.width e then
    ((elemCmp (AR.ofWord s.me.arith) o.et (o.ra / 8) a.1 b.1).1, (elemCmp (AR.ofWord s.me.arith) o.et (o.ra / 8) a.1 b.1).2 ||| a.2 ||| b.2)
  else (!o.zm && (s.preg s.cur (o.ra % 8)).testBit (e * o.et.width / 8), 0)

/-- The flags of a comparison's elements. -/
def cmpFlags (s : State) (o : Opnd) (rv : Nat → Nat) : ElemFlags := (List.range (elemCount s o.et.width)).filterMap fun e =>
  if (cmpElem s o rv e).2 = 0 then none else some (e, (cmpElem s o rv e).2)

/-- The predicate that a comparison writes. -/
def cmpPred (s : State) (o : Opnd) (rv : Nat → Nat) : Nat :=
  predOf o.et.width ((List.range (elemCount s o.et.width)).map fun e => (cmpElem s o rv e).1)

theorem cmpElem_congr (s : State) {o : Opnd} {rv rw : Nat → Nat} (h : ∀ q ∈ twoRegs o, rv q = rw q) :
    cmpElem s o rv = cmpElem s o rw := by
  funext e
  unfold cmpElem
  rw [srcOne_congr s h, srcTwo_congr s h]

theorem exec_vcmp (s : State) (o : Opnd) : exec (.vcmp o) s = s.act (s.withStreams (twoRegs o) []
    ((s.drawStoch 0).1.retire (encode (.vcmp o)).length (cmpFlags s o (sources s (twoRegs o))) fun u =>
      (u.takeUnits u.cur (twoRegs o)).setPreg u.cur (o.ra % 8) (cmpPred s o (sources s (twoRegs o))))) := by
  have hlen : (encode (.vcmp o)).length = o.halves 1 := encode_length_page rfl rfl rfl
  have helem (e : Nat) : (if s.active o o.et.width e then
        let q := elemCmp (AR.ofWord s.me.arith) o.et (o.ra / 8) ((s.src1 o).at o.et.width e) ((s.src2 o).at o.et.width e)
        (q.1, q.2 ||| (s.src1 o).fl ||| (s.src2 o).fl)
      else (!o.zm && (s.preg s.cur (o.ra % 8)).testBit (e * o.et.width / 8), 0)) = cmpElem s o (sources s (twoRegs o)) e := by
    rw [src1_at, src2_at, src1_fl s o _ o.et.width e, src2_fl s o _ o.et.width e]
    rfl
  have hres := List.map_congr_left (l := List.range (s.lanes o.et.width)) fun e _ => helem e
  have hflags := congrArg (fun l : List (Bool × Nat) => l.zipIdx.filterMap fun q => if q.1.2 = 0 then none else some (q.2, q.1.2)) hres
  have hpred := congrArg (fun l : List (Bool × Nat) => predOf o.et.width (l.map (·.1))) hres
  conv_rhs at hflags => rw [zipIdx_map_range, List.filterMap_map]
  conv_rhs at hpred => rw [List.map_map]
  rw [drawStoch_zero, hlen, cmpFlags, cmpPred, elemCount_eq]
  refine congrArg (fun go => s.act (s.withStreams (twoRegs o) [] go)) ?_
  exact congrArg₂ (State.retire s _) hflags (funext fun u => congrArg (State.setPreg _ _ _) hpred)

theorem exec_vwhile (s : State) (o : Opnd) : exec (.vwhile o) s = s.act ((s.setPreg s.cur (o.ra % 8)
    (predOf o.et.width ((List.range (elemCount s o.et.width)).map fun (e : Nat) =>
      decide ((s.g o.rb).toInt + e < (s.g o.rc).toInt)))).advance (encode (.vwhile o)).length) := by
  have hlen : (encode (.vwhile o)).length = o.halves 1 := encode_length_page rfl rfl rfl
  rw [hlen, elemCount_eq]
  rfl

/-! ### Reductions (spec/07 R165) -/

section
variable (s : State) (o : Opnd) (parts : Nat) (op : Nat → Nat → List Nat → Nat × Nat)

/-- The active elements of a reduction. -/
def redActs : List Nat := (List.range (elemCount s o.et.width)).filter (isActive s o o.et.width)

/-- Word `p` of step `j`: the words of a step stand together. -/
def redWord (j p : Nat) : Nat :=
  if (AR.ofWord s.me.arith).stoch then
    (zrng s.me.seed (s.frame (s.named s.cur)).ltid ((s.me.rngc.toNat + (j * parts + p)) % 2 ^ 48)).toNat else 0

/-- One step: the next active element and the running value, and the flags of the element. -/
def redStep (rv : Nat → Nat) (p : Nat × ElemFlags) (q : Nat × Nat) : Nat × ElemFlags :=
  let x := op (srcTwo s rv o o.et.width q.1).1 p.1 ((List.range parts).map (redWord s parts q.2))
  (x.1, addFlag p.2 q.1 (x.2 ||| (srcOne s rv o o.et.width 0).2 ||| (srcTwo s rv o o.et.width 0).2))

/-- The value of a reduction, and the flags of its steps. -/
def reduction (rv : Nat → Nat) : Nat × ElemFlags :=
  (redActs s o).zipIdx.foldl (redStep s o parts op rv) ((srcOne s rv o o.et.width 0).1, [])

/-- The flags of a reduction: those of its steps, and RNGW. -/
def reductionFlags (rv : Nat → Nat) : ElemFlags := (reduction s o parts op rv).2 ++
  if s.drawCount (parts * (redActs s o).length) = 0 ∨ s.me.rngc.toNat + s.drawCount (parts * (redActs s o).length) < 2 ^ 48 then []
  else [((redActs s o).getD (min (2 ^ 48 - s.me.rngc.toNat) (s.drawCount (parts * (redActs s o).length) - 1) / parts) 0, 128)]

end

theorem reduction_congr (s : State) {o : Opnd} (parts : Nat) (op : Nat → Nat → List Nat → Nat × Nat) {rv rw : Nat → Nat}
    (h : ∀ q ∈ twoRegs o, rv q = rw q) : reduction s o parts op rv = reduction s o parts op rw := by
  have hstep : redStep s o parts op rv = redStep s o parts op rw := by
    funext p q
    unfold redStep
    rw [srcTwo_congr s h, srcTwo_congr s h, srcOne_congr s h]
  rw [reduction, reduction, hstep, srcOne_congr s h]

theorem vred_eq (s : State) (o : Opnd) (parts : Nat) (f : AR → ET → Nat → Nat → List Nat → Nat × Nat) : s.vred o parts f =
    s.withStreams (twoRegs o) [o.ra] ((s.drawStoch (parts * (redActs s o).length)).1.retire (o.halves 1)
      (reductionFlags s o parts (f (AR.ofWord s.me.arith) o.et) (sources s (twoRegs o))) fun u =>
        u.commitV (twoRegs o) o.ra ((reduction s o parts (f (AR.ofWord s.me.arith) o.et) (sources s (twoRegs o))).1 % 2 ^ o.et.width)) := by
  let k := parts * (redActs s o).length
  have hacts : (List.range (s.lanes o.et.width)).filter (s.active o o.et.width) = redActs s o := by
    rw [redActs, elemCount_eq]; rfl
  have hwords {q : Nat × Nat} (hq : q ∈ (redActs s o).zipIdx) :
      ((List.range parts).map fun i => ((s.drawStoch k).2.1.getD (q.2 * parts + i) 0).toNat) =
        (List.range parts).map (redWord s parts q.2) := by
    refine List.map_congr_left fun p hp => drawStoch_word s ?_
    have hj : q.2 < (redActs s o).length := by simpa using List.snd_lt_add_of_mem_zipIdx hq
    calc q.2 * parts + p < q.2 * parts + parts := Nat.add_lt_add_left (List.mem_range.1 hp) _
      _ = parts * (q.2 + 1) := by ring
      _ ≤ k := Nat.mul_le_mul_left parts hj
  have hfold : (redActs s o).zipIdx.foldl (fun (p : Nat × ElemFlags) (q : Nat × Nat) =>
      let x := f (AR.ofWord s.me.arith) o.et ((s.src2 o).at o.et.width q.1) p.1
        ((List.range parts).map fun i => ((s.drawStoch k).2.1.getD (q.2 * parts + i) 0).toNat)
      (x.1, addFlag p.2 q.1 (x.2 ||| (s.src1 o).fl ||| (s.src2 o).fl))) ((s.src1 o).at o.et.width 0, []) =
      reduction s o parts (f (AR.ofWord s.me.arith) o.et) (sources s (twoRegs o)) := by
    rw [src1_at]
    refine List.foldl_ext _ _ _ fun p q hq => ?_
    rw [hwords hq, src2_at, src1_fl s o _ o.et.width 0, src2_fl s o _ o.et.width 0]
    rfl
  unfold State.vred
  dsimp only
  rw [hacts]
  refine congrArg (s.withStreams (twoRegs o) [o.ra]) ?_
  refine (congrArg (fun v : Nat × ElemFlags => (s.drawStoch k).1.retire (o.halves 1)
    (v.2 ++ rngwFlag (s.drawStoch k).2.2 fun i => (redActs s o).getD (i / parts) 0) fun u =>
      u.commitV (twoRegs o) o.ra (v.1 % 2 ^ o.et.width)) hfold).trans ?_
  rw [rngwFlag_drawStoch]
  rfl

theorem width_le (t : ET) : t.width ≤ 64 := by cases t <;> decide

theorem reduces_of_exec {s : State} {o : Opnd} {i : Instr} {parts : Nat} {op : Nat → Nat → List Nat → Nat × Nat}
    {f : AR → ET → Nat → Nat → List Nat → Nat × Nat} (hn : (encode i).length = o.halves 1)
    (he : exec i s = s.act (s.vred o parts f)) (hf : f (AR.ofWord s.me.arith) o.et = op) : Reduces s o i parts op := by
  rw [vred_eq, hf, ← hn] at he
  intro hs
  refine writesVector_of_exec (value := fun rv => (reduction s o parts op rv).1 % 2 ^ o.et.width) (fl := reductionFlags s o parts op) hs he
    (fun rv rw h => ?_) ?_
  · have hred := reduction_congr s parts op h
    simp only [reductionFlags, hred, and_self]
  · refine Nat.lt_of_lt_of_le (Nat.mod_lt _ (Nat.two_pow_pos _)) (Nat.pow_le_pow_right (by decide) ((width_le o.et).trans ?_))
    unfold State.vbits
    split <;> decide

end Sys2Proof.Machine

/-! ### O12: comparison, loop control and reduction -/

namespace Sys2Proof.VectorForms
open Sys2Proof.Machine

theorem vectorPredicateResult : VectorPredicateResult := by
  intro o s t w n cmp fl value
  have hfl : fl = cmpFlags s o := by
    funext rv
    refine congrArg (fun f => List.filterMap f (List.range n)) (funext fun e => ?_)
    rw [cmpElem, apply_ite Prod.snd]
  have hvalue : value = cmpPred s o := by
    funext rv
    refine congrArg (fun f => predOf w ((List.range n).map f)) (funext fun e => ?_)
    rw [cmpElem, apply_ite Prod.fst]
  have hends (hs : s.halt = none) := writesPredicate_of_exec hs (exec_vcmp s o)
    (fun rv rw h => by rw [cmpPred, cmpPred, cmpFlags, cmpFlags, cmpElem_congr s h]; exact ⟨rfl, rfl⟩) (predOf_lt s w _)
  rw [hfl, hvalue]
  refine ⟨fun hs => (hends hs).1, fun hs => (hends hs).2, fun hs => ⟨_, (exec_vwhile s o).trans (act_running hs _), ?_⟩⟩
  have hwrites := flagged_setPreg_writesP s (.vwhile o) (o.ra % 8) [] (predOf_lt s w fun e =>
    decide ((s.g o.rb).toInt + e < (s.g o.rc).toInt))
  rwa [flagged_zero_nil] at hwrites

theorem vectorReductionResult : VectorReductionResult := by
  intro o s
  exact ⟨reduces_of_exec (encode_length_page rfl rfl rfl) rfl rfl, reduces_of_exec (encode_length_page rfl rfl rfl) rfl rfl,
    reduces_of_exec (encode_length_page rfl rfl rfl) rfl rfl⟩

/-- Settles O12: a comparison and VWHILE write one predicate, and the model's fold is the reduction of the rules. -/
theorem vectorPredicatesAndReductions : Obligations.VectorPredicatesAndReductions :=
  ⟨vectorPredicateResult, vectorReductionResult⟩

end Sys2Proof.VectorForms
end

section
/-!
PROOFS. Selection, rearrangement, lane moves and ternary decoding (spec/07 R160, R163, R164, R170, R171; spec/02 R50, R51).
-/
namespace Sys2Proof.Machine

/-! ### VSEL (spec/07 R160) -/

/-- The value of an element that a selection takes, and the flags of its broadcast. -/
def selElem (s : State) (o : Opnd) (rv : Nat → Nat) (e : Nat) : Nat × Nat :=
  if isActive s o o.et.width e then srcOne s rv o o.et.width e else srcTwo s rv o o.et.width e

/-- The flags of a selection. -/
def selFlags (s : State) (o : Opnd) (rv : Nat → Nat) : ElemFlags := (List.range (elemCount s o.et.width)).filterMap fun e =>
  if (selElem s o rv e).2 = 0 then none else some (e, (selElem s o rv e).2)

/-- The register that a selection writes. -/
def selValue (s : State) (o : Opnd) (rv : Nat → Nat) : Nat :=
  lanesNat o.et.width ((List.range (elemCount s o.et.width)).map fun e => canonElem o.et (selElem s o rv e).1)

theorem selElem_congr (s : State) {o : Opnd} {rv rw : Nat → Nat} (h : ∀ q ∈ twoRegs o, rv q = rw q) :
    selElem s o rv = selElem s o rw := by
  funext e
  unfold selElem
  rw [srcOne_congr s h, srcTwo_congr s h]

/-- A destination that is written whole. -/
theorem assemble_range (w n old : Nat) (zm : Bool) (f : Nat → Nat × Nat) :
    assemble w n old zm ((List.range n).map fun e => (e, f e)) = lanesNat w ((List.range n).map fun e => (f e).1) := by
  rw [assemble_map]
  refine lanesNat_congr fun e he => ?_
  rw [if_pos (List.mem_range.2 he), Nat.mod_mod]

theorem exec_vsel (s : State) (o : Opnd) : exec (.vsel o) s = s.act (s.withStreams (twoRegs o) [o.ra]
    ((s.drawStoch 0).1.retire (encode (.vsel o)).length (selFlags s o (sources s (twoRegs o))) fun u =>
      u.commitV (twoRegs o) o.ra (selValue s o (sources s (twoRegs o))))) := by
  have hlen : (encode (.vsel o)).length = o.halves 1 := encode_length_page rfl rfl rfl
  have helem (e : Nat) : (e, canonElem o.et ((if s.active o o.et.width e then s.src1 o else s.src2 o).at o.et.width e),
      (if s.active o o.et.width e then s.src1 o else s.src2 o).fl) =
      (e, canonElem o.et (selElem s o (sources s (twoRegs o)) e).1, (selElem s o (sources s (twoRegs o)) e).2) := by
    have hactive : isActive s o o.et.width e = s.active o o.et.width e := rfl
    unfold selElem
    rw [hactive]
    cases s.active o o.et.width e with
    | true => simp only [if_true]; rw [src1_at, src1_fl s o _ o.et.width e]; rfl
    | false => simp only [Bool.false_eq_true, if_false]; rw [src2_at, src2_fl s o _ o.et.width e]; rfl
  have hres := List.map_congr_left (l := List.range (s.lanes o.et.width)) fun e _ => helem e
  have hflags := congrArg (List.filterMap fun r : Nat × Nat × Nat => if r.2.2 = 0 then none else some (r.1, r.2.2)) hres
  have hvalue := (congrArg (assemble o.et.width (s.lanes o.et.width) 0 false) hres).trans (assemble_range _ _ _ _ fun e =>
    (canonElem o.et (selElem s o (sources s (twoRegs o)) e).1, (selElem s o (sources s (twoRegs o)) e).2))
  conv_rhs at hflags => rw [List.filterMap_map]
  rw [drawStoch_zero, hlen, selFlags, selValue, elemCount_eq]
  refine congrArg (fun go => s.act (s.withStreams (twoRegs o) [o.ra] go)) ?_
  exact congrArg₂ (State.retire s _) hflags (funext fun u => congrArg (State.commitV _ _ _) hvalue)

theorem vsel_writes {s : State} (hs : s.halt = none) (o : Opnd) :
    (plainRegs s (o.ra :: twoRegs o) → enabledOf s (selFlags s o (s.vreg s.cur)) = 0 → ∃ u, exec (.vsel o) s = .next u ∧
      WritesV s u (.vsel o) o.ra (selValue s o (s.vreg s.cur)) 0 (selFlags s o (s.vreg s.cur))) ∧
    (s.streamTest s.cur (twoRegs o) [o.ra] = .ok → EndsWith s (.vsel o) 0 (selFlags s o (sources s (twoRegs o)))
      (offers s (twoRegs o) o.ra (selValue s o (sources s (twoRegs o))))) := by
  have hends := writesVector_of_exec hs (exec_vsel s o)
    (fun rv rw h => by rw [selValue, selValue, selFlags, selFlags, selElem_congr s h]; exact ⟨rfl, rfl⟩)
    (lanesNat_lt_vbits (mul_elemCount_le s (Nat.le_refl _)) _)
  rwa [drawCount_zero] at hends

/-! ### Rearrangement (spec/07 R164) -/

/-- The element that a rearrangement picks: a lane of vB, a lane of vC, or zero. -/
def movedElem (o : Opnd) (rv : Nat → Nat) : Option (Bool × Nat) → Nat
  | some (true, i) => canonElem o.et (laneAt (rv o.rb) o.et.width i)
  | some (false, i) => canonElem o.et (laneAt (rv o.rc) o.et.width i)
  | none => 0

theorem vmove_eq (s : State) (o : Opnd) (pick : Nat → Nat → (Nat → Nat) → Option (Bool × Nat)) : s.vmove o pick =
    s.vmap o [o.rb, o.rc] (elemCount s o.et.width) o.et.width o.et.width 0 fun e _ =>
      (movedElem o (sources s [o.rb, o.rc]) (pick (elemCount s o.et.width) e (laneAt (sources s [o.rb, o.rc] o.rc) o.et.width)), 0) := by
  unfold State.vmove
  dsimp only
  rw [elemCount_eq]
  refine congrArg (s.vmap o [o.rb, o.rc] _ _ _ _) (funext fun e => funext fun _ => ?_)
  unfold movedElem
  change (match pick _ e (laneAt (sources s [o.rb, o.rc] o.rc) o.et.width) with | some (true, i) => _ | some (false, i) => _ | none => _) = _
  rcases pick _ e (laneAt (sources s [o.rb, o.rc] o.rc) o.et.width) with _ | ⟨_ | _, i⟩ <;> rfl

theorem moves_of_exec {s : State} {o : Opnd} {i : Instr} {pick : Nat → Nat → (Nat → Nat) → Option (Bool × Nat)}
    {op : (Nat → Nat) → Nat → Nat} (hn : (encode i).length = o.halves 1) (he : exec i s = s.act (s.vmove o pick))
    (hop : ∀ rv e, movedElem o rv (pick (elemCount s o.et.width) e (laneAt (rv o.rc) o.et.width)) = op rv e) :
    Elementwise s o i [o.rb, o.rc] (elemCount s o.et.width) o.et.width o.et.width 0 fun rv e _ => (op rv e, 0) := by
  rw [vmove_eq] at he
  simp only [hop] at he
  refine elementwise_of_vmap hn he (fun rv rw h => ?_) (mul_elemCount_le s (Nat.le_refl _))
  have hb : rv o.rb = rw o.rb := h _ (by simp)
  have hc : rv o.rc = rw o.rc := h _ (by simp)
  funext e ws
  rw [← hop, ← hop, hc]
  unfold movedElem
  rw [hb, hc]

/-! ### Lane moves (spec/07 R163, R170) -/

theorem laneOk_iff (o : Opnd) (n : Nat) : laneOk o n = true ↔ 0 ≤ o.simm ∧ o.simm < n := by
  rw [laneOk, Bool.and_eq_true, decide_eq_true_iff, decide_eq_true_iff]

section
variable {s : State} {o : Opnd}

theorem vmovsToG_setRule (hs : s.halt = none) (hlane : laneOk o (elemCount s o.et.width) = true) (hp : plainRegs s [o.rc]) :
    SetRule s o (.vmovsToG o) (if o.et.isInt && o.et.isSigned then BitVec.ofInt 64 (partVal o.et
      (laneAt (s.vreg s.cur o.rc) o.et.width o.simm.toNat)) else BitVec.ofNat 64 (laneAt (s.vreg s.cur o.rc) o.et.width o.simm.toNat)) := by
  have hsrc : s.srcV s.cur o.rc = s.vreg s.cur o.rc := sources_plain (hp _ List.mem_cons_self) []
  refine setRule_of_exec hs (encode_length_page rfl rfl rfl) ?_ rfl
  change execVmovsToG o s = _
  unfold execVmovsToG
  dsimp only
  rw [hsrc, ← elemCount_eq, hlane, if_neg (by decide), withStreams_ok (streamTest_plain (by simpa using hp)),
    takeUnits_plain hp]

theorem exec_vmovsToV (hlane : laneOk o (elemCount s o.et.width) = true) : exec (.vmovsToV o) s = s.act (s.withStreams [] [o.ra]
    ((s.drawStoch 0).1.retire (encode (.vmovsToV o)).length
      (if (bcastElem (AR.ofWord s.me.arith) o.et (s.g o.rc)).2 = 0 then []
        else [(o.simm.toNat, (bcastElem (AR.ofWord s.me.arith) o.et (s.g o.rc)).2)]) fun u =>
      u.commitV [] o.ra (lanesNat o.et.width ((List.range (elemCount s o.et.width)).map fun e => if e = o.simm.toNat then
        (bcastElem (AR.ofWord s.me.arith) o.et (s.g o.rc)).1 else laneAt (oldDest s o.ra) o.et.width e)))) := by
  have hlen : (encode (.vmovsToV o)).length = o.halves 1 := encode_length_page rfl rfl rfl
  have hvalue := assemble_map o.et.width (s.lanes o.et.width) (s.oldV s.cur o.ra) false [o.simm.toNat] fun _ =>
    bcastElem (AR.ofWord s.me.arith) o.et (s.g o.rc)
  conv_rhs at hvalue => rw [oldV_eq_oldDest]
  change execVmovsToV o s = _
  unfold execVmovsToV
  dsimp only
  rw [drawStoch_zero, hlen, ← elemCount_eq, hlane, if_neg (by decide)]
  refine congrArg (fun go => s.act (s.withStreams [] [o.ra] go)) (congrArg₂ (State.retire s _) rfl (funext fun u =>
    congrArg (State.commitV _ _ _) ?_))
  rw [elemCount_eq]
  refine hvalue.trans (lanesNat_congr fun e _ => ?_)
  by_cases h : e = o.simm.toNat <;> simp [h]

theorem exec_vmovs_illegal (hs : s.halt = none) (hlane : laneOk o (elemCount s o.et.width) = false) :
    exec (.vmovsToG o) s = .next (s.illegalValue (.vmovsToG o)) ∧ exec (.vmovsToV o) s = .next (s.illegalValue (.vmovsToV o)) := by
  rw [elemCount_eq] at hlane
  constructor
  · change execVmovsToG o s = _
    unfold execVmovsToG
    dsimp only
    rw [hlane, Bool.not_false, if_pos rfl, act_running hs]
  · change execVmovsToV o s = _
    unfold execVmovsToV
    dsimp only
    rw [hlane, Bool.not_false, if_pos rfl, act_running hs]

end

/-! ### VTUNP (spec/07 R171, spec/02 R50, R51) -/

theorem decodeTr5_bad (b : Nat) : (decodeTr5 b).2 = decide (243 ≤ b) := by
  unfold decodeTr5
  split
  · next h => exact (decide_eq_true h).symm
  · next h => exact (decide_eq_false h).symm

theorem orFlags_of_tri {l : ElemFlags} (h : ∀ x ∈ l, x.2 = 64) : orFlags l = 0 ∨ orFlags l = 64 := by
  induction l using List.reverseRecOn with
  | nil => exact Or.inl rfl
  | append_singleton l p ih =>
    rw [orFlags_append_singleton, h p (List.mem_append_right _ (List.mem_singleton_self p))]
    rcases ih fun x hx => h x (List.mem_append_left _ hx) with h0 | h0 <;> simp [h0]

theorem and_tri (t : Nat) : t &&& 64 = 0 ∨ t &&& 64 = 64 := by
  have h := Nat.and_two_pow t 6
  cases ht : t.testBit 6 with
  | false => rw [ht] at h; exact Or.inl h
  | true => rw [ht] at h; exact Or.inr h

/-- TRI alone can be enabled among flags that are all TRI. -/
theorem enabledOf_tri {s : State} {l : ElemFlags} (h : ∀ x ∈ l, x.2 = 64) (hon : enabledOf s l ≠ 0) : enabledOf s l = 64 := by
  unfold enabledOf at hon ⊢
  rcases orFlags_of_tri h with h0 | h0
  · rw [h0, Nat.zero_and] at hon
    exact absurd rfl hon
  · rw [h0, Nat.and_comm] at hon ⊢
    exact (and_tri _).resolve_left hon

section
variable (s : State) (o : Opnd)

/-- The active elements of VTUNP. -/
def triActs : List Nat := (List.range (elemCount s o.et.width)).filter (isActive s o o.et.width)

/-- Byte of the packed source that holds the trit of element `i`. -/
def triByte (i : Nat) : Nat := (o.uimm * elemCount s o.et.width + i) / 5

/-- TRI on the five elements of each invalid byte that an active element reads. -/
def triFlags : ElemFlags :=
  (((triActs s o).map (triByte s o)).eraseDups.filter fun b => 243 ≤ laneAt (s.srcV s.cur o.rc) 8 b).flatMap fun b =>
    (List.range 5).map fun k => (5 * b + k, 64)

/-- The register that VTUNP writes. -/
def triValue : Nat := lanesNat o.et.width ((List.range (elemCount s o.et.width)).map fun i =>
  if i ∈ triActs s o then truncInt ((decodeTr5 (laneAt (s.srcV s.cur o.rc) 8 (triByte s o i))).1.getD
    ((o.uimm * elemCount s o.et.width + i) % 5) 0) o.et.width % 2 ^ o.et.width
  else if o.zm then 0 else laneAt (oldDest s o.ra) o.et.width i)

/-- The state in which VTUNP has taken its flags and written its destination. -/
def State.unpacked : State := offers s [o.rc] o.ra (triValue s o) (s.flagged 0 (triFlags s o))

/-- The end of VTUNP: the trap of its flags, or the next instruction. -/
def State.unpackEnd : Option (Nat × Nat × Word) → State
  | some (c, d, a) => (s.unpacked o).trap c d a
  | none => (s.unpacked o).advance (encode (.vtunp o)).length

theorem triFlags_tri : ∀ x ∈ triFlags s o, x.2 = 64 := by
  intro x hx
  obtain ⟨b, _, hx⟩ := List.mem_flatMap.1 hx
  obtain ⟨k, _, rfl⟩ := List.mem_map.1 hx
  rfl

theorem triValue_lt : triValue s o < 2 ^ s.vbits := lanesNat_lt_vbits (mul_elemCount_le s (Nat.le_refl _)) _

theorem exec_vtunp : exec (.vtunp o) s =
    s.act (s.withStreams [o.rc] [o.ra] (s.unpackEnd o (s.arithTrap s.cur (triFlags s o) false))) := by
  have hlen : (encode (.vtunp o)).length = o.halves 1 := encode_length_page rfl rfl rfl
  have hacts : (List.range (s.lanes o.et.width)).filter (s.active o o.et.width) = triActs s o := by
    rw [triActs, elemCount_eq]; rfl
  have hvalue : assemble o.et.width (elemCount s o.et.width) (s.oldV s.cur o.ra) o.zm ((triActs s o).map fun i =>
      (i, truncInt ((decodeTr5 (laneAt (s.srcV s.cur o.rc) 8 ((o.uimm * elemCount s o.et.width + i) / 5))).1.getD
        ((o.uimm * elemCount s o.et.width + i) % 5) 0) o.et.width, 0)) = triValue s o := by
    rw [oldV_eq_oldDest]
    exact assemble_map _ _ _ _ _ fun i => (truncInt ((decodeTr5 (laneAt (s.srcV s.cur o.rc) 8 (triByte s o i))).1.getD
      ((o.uimm * elemCount s o.et.width + i) % 5) 0) o.et.width, 0)
  have hflags : ((((triActs s o).map fun i => (o.uimm * elemCount s o.et.width + i) / 5).eraseDups.filter fun j =>
      (decodeTr5 (laneAt (s.srcV s.cur o.rc) 8 j)).2).flatMap fun j => (List.range 5).map fun k => (5 * j + k, fTRI)) = triFlags s o := by
    simp only [decodeTr5_bad]
    rfl
  have hmerged : s.mergeFlags s.cur (triFlags s o) false = s.flagged 0 (triFlags s o) := by rw [State.flagged, drawStoch_zero]
  change execVtunp o s = _
  unfold execVtunp
  dsimp only
  rw [hacts, ← elemCount_eq, hflags, hvalue, arithTrap_mergeFlags, hmerged, commitV_flagged, ← hlen]
  cases s.arithTrap s.cur (triFlags s o) false <;> rfl

end

section
variable {s : State} {o : Opnd}

theorem vtunp_done (hs : s.halt = none) (hok : s.streamTest s.cur [o.rc] [o.ra] = .ok) (hon : enabledOf s (triFlags s o) = 0) :
    exec (.vtunp o) s = .next ((s.unpacked o).advance (encode (.vtunp o)).length) := by
  rw [exec_vtunp, act_running hs, withStreams_ok hok, arithTrap_of_disabled hon, State.unpackEnd]

theorem vtunp_traps (hs : s.halt = none) (hok : s.streamTest s.cur [o.rc] [o.ra] = .ok) (hon : enabledOf s (triFlags s o) ≠ 0) :
    ∃ e, exec (.vtunp o) s = .next ((s.unpacked o).trap 0x09 64 e) := by
  obtain ⟨e, htrap, _⟩ := arithTrap_of_enabled hon
  rw [enabledOf_tri (triFlags_tri s o) hon, if_pos rfl] at htrap
  exact ⟨BitVec.ofNat 64 e, by rw [exec_vtunp, act_running hs, withStreams_ok hok, htrap, State.unpackEnd]⟩

theorem unpacked_plain (hp : plainRegs s [o.ra, o.rc]) :
    s.unpacked o = (s.flagged 0 (triFlags s o)).setVreg s.cur o.ra (triValue s o) :=
  offers_flagged_plain hp 0 _ _

theorem unpacked_plain_gives (hp : plainRegs s [o.ra, o.rc]) : (s.unpacked o).vreg s.cur o.ra = triValue s o ∧
    TakesFlags s (s.unpacked o) s.cur (triFlags s o) ∧ SameBytes s (s.unpacked o) := by
  have hgang := (flagged_registers s 0 (triFlags s o) s.cur).2.2
  rw [unpacked_plain hp]
  refine ⟨?_, takesFlags_write (n := 0) fun k => ?_, fun a => ?_⟩
  · have hra : o.ra < 32 := o.a.isLt
    rw [vreg_setVreg _ _ _ _ hra, if_pos rfl, hgang]
    exact Nat.mod_eq_of_lt (triValue_lt s o)
  · rw [frame_setVreg]
    exact ⟨rfl, rfl⟩
  · exact ((setVreg_within ..).bytes a).trans ((flagged_within ..).bytes a)

theorem unpacked_pc (s : State) (o : Opnd) : (s.unpacked o).me.pc = s.me.pc := by
  rw [State.unpacked, (offers_streamsOnly ..).me, flagged_me]

end

end Sys2Proof.Machine

/-! ### O11: selection, rearrangement, lane moves and ternary decoding -/

namespace Sys2Proof.VectorForms
open Sys2Proof.Machine

theorem vectorSelectAndRearrange : VectorSelectAndRearrange := by
  intro o s
  refine ⟨fun hs => (vsel_writes hs o).1, fun hs => (vsel_writes hs o).2, ?_, ?_, ?_⟩
  · refine moves_of_exec (encode_length_page rfl rfl rfl) rfl fun rv e => ?_
    split
    · rfl
    · rfl
  · refine moves_of_exec (encode_length_page rfl rfl rfl) rfl fun rv e => ?_
    rcases Nat.mod_two_eq_zero_or_one e with h | h <;> simp [h, movedElem]
  · refine moves_of_exec (encode_length_page rfl rfl rfl) rfl fun rv e => ?_
    split
    · rfl
    · rfl

theorem vectorLaneMoves : VectorLaneMoves := by
  intro o s hs t w n lane old x fl
  refine ⟨setRule_of_exec hs (encode_length_page rfl rfl rfl) rfl (by rw [← elemCount_eq]), fun h0 hn => ?_, fun h => ?_⟩
  · have hlane : laneOk o n = true := (laneOk_iff o n).2 ⟨h0, hn⟩
    have hends := writesVector_of_exec (value := fun _ => lanesNat w ((List.range n).map fun e =>
        if e = lane then x.1 else laneAt (oldDest s o.ra) w e)) (fl := fun _ => fl) hs (exec_vmovsToV hlane) (fun _ _ _ => ⟨rfl, rfl⟩)
      (lanesNat_lt_vbits (mul_elemCount_le s (Nat.le_refl _)) _)
    rw [drawCount_zero] at hends
    refine ⟨vmovsToG_setRule hs hlane, fun hp hon => ?_, hends.2⟩
    have hold : oldDest s o.ra = s.vreg s.cur o.ra := if_neg (by rw [hp _ List.mem_cons_self]; decide)
    rw [← hold]
    exact hends.1 hp hon
  · refine exec_vmovs_illegal hs (Bool.eq_false_iff.2 fun hlane => ?_)
    obtain ⟨h0, hn⟩ : 0 ≤ o.simm ∧ o.simm < n := (laneOk_iff ..).1 hlane
    omega

theorem ternaryUnpackResult : TernaryUnpackResult := by
  intro o s hs w n src ready plain acts j fl v
  have hok (hp : plain) : ready := streamTest_plain fun q hq => hp q (by simpa [or_comm] using hq)
  have hflagged := flagged_gives s 0 (triFlags s o)
  have hwrites := flagged_setVreg_writesV s (.vtunp o) 0 o.ra (triFlags s o) (triValue_lt s o)
  rw [drawCount_zero] at hflagged hwrites
  refine ⟨fun hr hon => ⟨_, _, hflagged, vtunp_done hs hr hon, ?_⟩, fun hr hon => ?_, fun hp hon => ?_, fun hp hon => ?_⟩
  · have hgoes := advance_goesTo (s.unpacked o) (i := .vtunp o) rfl
    rw [State.next, unpacked_pc] at hgoes
    exact hgoes
  · obtain ⟨e, he⟩ := vtunp_traps hs hr hon
    exact ⟨_, e, hflagged, he⟩
  · refine ⟨_, vtunp_done hs (hok hp) hon, ?_⟩
    rw [unpacked_plain hp]
    exact hwrites
  · obtain ⟨e, he⟩ := vtunp_traps hs (hok hp) hon
    exact ⟨_, e, he, unpacked_pc s o, unpacked_plain_gives hp⟩

/-- Settles O11: each form is the model's, element by element; VTUNP takes its flags and writes before its trap. -/
theorem vectorMoves : Obligations.VectorMoves :=
  ⟨vectorSelectAndRearrange, vectorLaneMoves, ternaryUnpackResult⟩

end Sys2Proof.VectorForms
end

section
/-!
PROOFS. Vector loads, stores and bursts (spec/07 R166–R169, spec/15 R333): the bytes that the accesses of an instruction store and
read are those of its elements, element by element or gathered into words.
-/
namespace Sys2Proof.Machine

/-! ### Digits of a number that is put together of bits or bytes -/

/-- Digit `k` of `m` in base `b`. -/
def digit (b m k : Nat) : Nat := m / b ^ k % b

theorem digit_add_same {b m k v : Nat} (hz : digit b m k = 0) (hv : v < b) : digit b (m + v * b ^ k) k = v := by
  have hb : 0 < b := Nat.zero_lt_of_lt hv
  unfold digit at *
  rw [Nat.add_mul_div_right _ _ (Nat.pow_pos hb), Nat.add_mod, hz, Nat.zero_add, Nat.mod_mod, Nat.mod_eq_of_lt hv]

theorem digit_add_other {b m j k v : Nat} (hb : 0 < b) (hz : digit b m k = 0) (hv : v < b) (h : j ≠ k) :
    digit b (m + v * b ^ k) j = digit b m j := by
  unfold digit at *
  rcases Nat.lt_or_gt_of_ne h with hlt | hgt
  · obtain ⟨d, rfl⟩ := Nat.exists_eq_add_of_lt hlt
    have hsplit : v * b ^ (j + d + 1) = b ^ j * (b * (v * b ^ d)) := by ring
    rw [hsplit, Nat.add_mul_div_left _ _ (Nat.pow_pos hb), Nat.add_mul_mod_self_left]
  · obtain ⟨d, rfl⟩ := Nat.exists_eq_add_of_lt hgt
    have hdiv : (m + v * b ^ k) / b ^ (k + 1) = m / b ^ (k + 1) := by
      rw [Nat.pow_succ, ← Nat.div_div_eq_div_mul, ← Nat.div_div_eq_div_mul, Nat.add_mul_div_right _ _ (Nat.pow_pos hb)]
      obtain ⟨q, hq⟩ := Nat.dvd_of_mod_eq_zero hz
      rw [hq, Nat.mul_add_div hb, Nat.div_eq_of_lt hv, Nat.add_zero, Nat.mul_div_cancel_left _ hb]
    have hpow : b ^ (k + d + 1) = b ^ (k + 1) * b ^ d := by ring
    rw [hpow, ← Nat.div_div_eq_div_mul, ← Nat.div_div_eq_div_mul, hdiv]

/-! ### The bytes of pieces -/

/-- The bytes of a piece: address and value. -/
def Piece.bytes (p : Piece) : List (Nat × Nat) := (List.range p.size).map fun i => (p.addr + i, p.val / 256 ^ i % 256)

theorem mem_bytes {p : Piece} {x : Nat × Nat} : x ∈ p.bytes ↔ ∃ i < p.size, x = (p.addr + i, p.val / 256 ^ i % 256) := by
  simp [Piece.bytes, eq_comm]

theorem pieceByte_iff (ps : List Piece) (addr : Nat) (b : Byte) :
    pieceByte ps addr b ↔ ∃ v, (addr, v) ∈ ps.flatMap Piece.bytes ∧ b = BitVec.ofNat 8 v := by
  simp only [pieceByte, List.mem_flatMap, mem_bytes, Prod.mk.injEq]
  constructor
  · rintro ⟨q, hq, i, hi, ha, hb⟩
    exact ⟨_, ⟨q, hq, i, hi, ha, rfl⟩, by rw [hb]; exact BitVec.eq_of_toNat_eq (by simp)⟩
  · rintro ⟨v, ⟨q, hq, i, hi, ha, hv⟩, hb⟩
    exact ⟨q, hq, i, hi, ha, by rw [hb, hv]; exact BitVec.eq_of_toNat_eq (by simp)⟩

/-- One byte joins the mask and the data of the word `w`. -/
def joinByte (w : Nat) (acc : Nat × Nat) (x : Nat × Nat) : Nat × Nat :=
  if x.1 / 8 = w then (acc.1 + 2 ^ (x.1 % 8), acc.2 + x.2 * 256 ^ (x.1 % 8)) else acc

theorem wordData_eq (ps : List Piece) (w : Nat) : wordData ps w = (ps.flatMap Piece.bytes).foldl (joinByte w) (0, 0) := by
  rw [List.foldl_flatMap]
  refine congrArg (fun f => List.foldl f (0, 0) ps) (funext fun acc => funext fun p => ?_)
  rw [Piece.bytes, List.foldl_map]
  rfl

/-- Bytes at addresses of their own put together: each stands in the word at its place, and the places of others stay. -/
theorem foldl_joinByte (w : Nat) (l : List (Nat × Nat)) (hv : ∀ x ∈ l, x.2 < 256) (hd : (l.map (·.1)).Nodup) (acc : Nat × Nat)
    (hz : ∀ x ∈ l, x.1 / 8 = w → digit 2 acc.1 (x.1 % 8) = 0 ∧ digit 256 acc.2 (x.1 % 8) = 0) :
    (∀ x ∈ l, x.1 / 8 = w → digit 2 (l.foldl (joinByte w) acc).1 (x.1 % 8) = 1 ∧
      digit 256 (l.foldl (joinByte w) acc).2 (x.1 % 8) = x.2) ∧
    ∀ j, (∀ x ∈ l, x.1 / 8 = w → x.1 % 8 ≠ j) → digit 2 (l.foldl (joinByte w) acc).1 j = digit 2 acc.1 j ∧
      digit 256 (l.foldl (joinByte w) acc).2 j = digit 256 acc.2 j := by
  induction l generalizing acc with
  | nil => simp
  | cons y t ih =>
    obtain ⟨hy, ht⟩ := List.nodup_cons.1 (List.map_cons ▸ hd)
    have hv' : ∀ x ∈ t, x.2 < 256 := fun x hx => hv x (List.mem_cons_of_mem _ hx)
    have hz' : ∀ x ∈ t, x.1 / 8 = w → digit 2 acc.1 (x.1 % 8) = 0 ∧ digit 256 acc.2 (x.1 % 8) = 0 := fun x hx =>
      hz x (List.mem_cons_of_mem _ hx)
    rw [List.foldl_cons]
    by_cases hw : y.1 / 8 = w
    · have hne : ∀ x ∈ t, x.1 / 8 = w → x.1 % 8 ≠ y.1 % 8 := fun x hx hxw e =>
        hy (List.mem_map.2 ⟨x, hx, by omega⟩)
      obtain ⟨hm, hb⟩ := hz y List.mem_cons_self hw
      have hyv := hv y List.mem_cons_self
      have hacc : joinByte w acc y = (acc.1 + 1 * 2 ^ (y.1 % 8), acc.2 + y.2 * 256 ^ (y.1 % 8)) := by
        rw [joinByte, if_pos hw, Nat.one_mul]
      have hkeep {j : Nat} (hj : j ≠ y.1 % 8) : digit 2 (joinByte w acc y).1 j = digit 2 acc.1 j ∧
          digit 256 (joinByte w acc y).2 j = digit 256 acc.2 j := by
        rw [hacc]
        exact ⟨digit_add_other (by decide) hm (by decide) hj, digit_add_other (by decide) hb hyv hj⟩
      obtain ⟨hin, hout⟩ := ih hv' ht (joinByte w acc y) fun x hx hxw => by
        rw [(hkeep (hne x hx hxw)).1, (hkeep (hne x hx hxw)).2]; exact hz' x hx hxw
      refine ⟨fun x hx hxw => ?_, fun j hj => ?_⟩
      · rcases List.mem_cons.1 hx with rfl | hx
        · rw [(hout _ hne).1, (hout _ hne).2, hacc]
          exact ⟨digit_add_same hm (by decide), digit_add_same hb hyv⟩
        · exact hin x hx hxw
      · have hjt := hout j fun x hx => hj x (List.mem_cons_of_mem _ hx)
        rw [hjt.1, hjt.2]
        exact hkeep (hj y List.mem_cons_self hw).symm
    · have hacc : joinByte w acc y = acc := if_neg hw
      rw [hacc]
      obtain ⟨hin, hout⟩ := ih hv' ht acc hz'
      refine ⟨fun x hx hxw => ?_, fun j hj => hout j fun x hx => hj x (List.mem_cons_of_mem _ hx)⟩
      rcases List.mem_cons.1 hx with rfl | hx
      · exact absurd hxw hw
      · exact hin x hx hxw

end Sys2Proof.Machine
end

section
/-!
PROOFS. The parts of vector accesses (spec/07 R169): one of each word that bytes of the elements lie in, or one of each element.
-/
namespace Sys2Proof.Machine

/-! ### The byte that a part stores -/

/-- The part stores the byte `b` at `addr`. -/
def partByte (p : Part) (addr : Nat) (b : Byte) : Prop :=
  p.base ≤ addr ∧ addr < p.base + p.size ∧ p.mask.getLsbD (addr - p.base) = true ∧
    b = BitVec.ofNat 8 (p.data.toNat / 256 ^ (addr - p.base))

/-- The bytes that a record reads are those that it would store. -/
theorem readsByte_iff (a : Acc) (addr : Nat) : readsByte a addr ↔ ∃ b, storesByte a addr b := by
  constructor
  · rintro ⟨p, hp, hlo, hhi, hm⟩
    exact ⟨_, p, hp, hlo, hhi, hm, rfl⟩
  · rintro ⟨b, p, hp, hlo, hhi, hm, _⟩
    exact ⟨p, hp, hlo, hhi, hm⟩

theorem digit_mod_two_pow_64 (d : Nat) {j : Nat} (hj : j < 8) : digit 256 (d % 2 ^ 64) j = digit 256 d j := by
  have hpow : 2 ^ 64 = 256 ^ j * (256 * 256 ^ (7 - j)) := by
    rw [← Nat.pow_succ', ← Nat.pow_add, show j + (7 - j).succ = 8 by omega]
    rfl
  rw [digit, digit, hpow, Nat.mod_mul_right_div_self, Nat.mod_mul_right_mod]

theorem ofNat_byte_eq {m n : Nat} (h : m % 256 = n % 256) : BitVec.ofNat 8 m = BitVec.ofNat 8 n :=
  BitVec.eq_of_toNat_eq (by rw [BitVec.toNat_ofNat, BitVec.toNat_ofNat]; exact h)

/-- The byte of a data word at one of its eight places. -/
theorem ofNat_byte_data (d : Nat) {j : Nat} (hj : j < 8) :
    BitVec.ofNat 8 ((BitVec.ofNat 64 d).toNat / 256 ^ j) = BitVec.ofNat 8 (d / 256 ^ j) := by
  rw [BitVec.toNat_ofNat]
  exact ofNat_byte_eq (digit_mod_two_pow_64 d hj)

theorem getLsbD_mask (m : Nat) {j : Nat} (hj : j < 8) : (BitVec.ofNat 8 m).getLsbD j = true ↔ digit 2 m j = 1 := by
  rw [BitVec.getLsbD_ofNat, Bool.and_eq_true, decide_eq_true_iff, Nat.testBit_eq_decide_div_mod_eq, decide_eq_true_iff, digit]
  exact ⟨fun h => h.2, fun h => ⟨hj, h⟩⟩

/-! ### One part of each element -/

/-- The part accesses the bytes of one piece. -/
def Part.carries (p : Part) (q : Piece) : Prop :=
  p.base = q.addr ∧ p.size = q.size ∧ p.mask = BitVec.ofNat 8 (2 ^ q.size - 1) ∧ p.data = BitVec.ofNat 64 q.val

theorem partByte_of_carries {p : Part} {q : Piece} (h : p.carries q) (hq : q.size ≤ 8) (addr : Nat) (b : Byte) :
    partByte p addr b ↔ ∃ i < q.size, addr = q.addr + i ∧ b = BitVec.ofNat 8 (q.val / 256 ^ i) := by
  obtain ⟨hbase, hsize, hmask, hdata⟩ := h
  rw [partByte, hbase, hsize, hmask, hdata]
  constructor
  · rintro ⟨hlo, hhi, -, hb⟩
    refine ⟨addr - q.addr, by omega, by omega, ?_⟩
    rw [hb, ofNat_byte_data _ (by omega)]
  · rintro ⟨i, hi, rfl, hb⟩
    rw [Nat.add_sub_cancel_left, ofNat_byte_data _ (by omega), BitVec.getLsbD_ofNat, Nat.testBit_two_pow_sub_one]
    exact ⟨by omega, by omega, by simp [hi]; omega, hb⟩

/-- A record whose parts are those of its pieces stores their bytes. -/
theorem storesByte_of_carries {a : Acc} {ps : List Piece} (hsize : ∀ q ∈ ps, q.size ≤ 8)
    (hp : ∀ p ∈ a.parts, ∃ q ∈ ps, p.carries q) (hq : ∀ q ∈ ps, ∃ p ∈ a.parts, p.carries q) (addr : Nat) (b : Byte) :
    storesByte a addr b ↔ pieceByte ps addr b := by
  constructor
  · rintro ⟨p, hmem, h⟩
    obtain ⟨q, hqm, hc⟩ := hp p hmem
    exact ⟨q, hqm, (partByte_of_carries hc (hsize q hqm) addr b).1 h⟩
  · rintro ⟨q, hmem, h⟩
    obtain ⟨p, hpm, hc⟩ := hq q hmem
    exact ⟨p, hpm, (partByte_of_carries hc (hsize q hmem) addr b).2 h⟩

section
variable {s u : State} {a : Acc} {ps : List Piece}

theorem storesByte_elemParts (h : a.parts = u.elemParts ps) (hsize : ∀ q ∈ ps, q.size ≤ 8) (addr : Nat) (b : Byte) :
    storesByte a addr b ↔ pieceByte ps addr b := by
  refine storesByte_of_carries hsize (fun p hp => ?_) (fun q hq => ?_) addr b
  · rw [h, State.elemParts, List.mem_map] at hp
    obtain ⟨⟨q, j⟩, hq, rfl⟩ := hp
    exact ⟨q, List.fst_mem_of_mem_zipIdx hq, rfl, rfl, rfl, rfl⟩
  · obtain ⟨j, hj, rfl⟩ := List.getElem_of_mem hq
    rw [h, State.elemParts]
    exact ⟨_, List.mem_map.2 ⟨(ps[j], j), List.mk_mem_zipIdx_iff_getElem?.2 (List.getElem?_eq_getElem hj), rfl⟩, rfl, rfl, rfl, rfl⟩

/-! ### One part of each word -/

/-- One word joins those that have been touched. -/
def addWord (l : List (Nat × Nat × Nat)) (x : Nat × Nat × Nat) : List (Nat × Nat × Nat) :=
  if l.any (fun y => y.1 == x.1) then l else l ++ [x]

theorem exists_mem_addWord (l : List (Nat × Nat × Nat)) (y : Nat × Nat × Nat) (w : Nat) :
    (∃ x ∈ addWord l y, x.1 = w) ↔ (∃ x ∈ l, x.1 = w) ∨ y.1 = w := by
  unfold addWord
  split
  · next h =>
    obtain ⟨x, hx, he⟩ := List.any_eq_true.1 h
    exact ⟨Or.inl, fun h => h.elim id fun hy => ⟨x, hx, (beq_iff_eq.1 he).trans hy⟩⟩
  · simp only [List.mem_append, List.mem_singleton, or_and_right, exists_or, exists_eq_left]

theorem exists_mem_foldl_addWord (t l : List (Nat × Nat × Nat)) (w : Nat) :
    (∃ x ∈ t.foldl addWord l, x.1 = w) ↔ (∃ x ∈ l, x.1 = w) ∨ ∃ x ∈ t, x.1 = w := by
  induction t generalizing l with
  | nil => simp
  | cons y t ih =>
    rw [List.foldl_cons, ih, exists_mem_addWord, or_assoc]
    simp only [List.mem_cons, or_and_right, exists_or, exists_eq_left]

/-- The words that pieces touch are those of their bytes. -/
theorem exists_mem_wordsOf (ps : List Piece) (w : Nat) :
    (∃ x ∈ wordsOf ps, x.1 = w) ↔ ∃ p ∈ ps, ∃ i < p.size, (p.addr + i) / 8 = w := by
  have heq : wordsOf ps =
      (ps.flatMap fun p => (List.range p.size).map fun i => ((p.addr + i) / 8, p.elem, p.addr)).foldl addWord [] := by
    rw [List.foldl_flatMap]
    refine congrArg (fun f => List.foldl f [] ps) (funext fun acc => funext fun p => ?_)
    rw [List.foldl_map]
    rfl
  rw [heq, exists_mem_foldl_addWord]
  simp only [List.mem_flatMap, List.mem_map, List.mem_range]
  constructor
  · rintro (⟨x, hx, _⟩ | ⟨x, ⟨p, hp, i, hi, rfl⟩, hw⟩)
    · cases hx
    · exact ⟨p, hp, i, hi, hw⟩
  · rintro ⟨p, hp, i, hi, hw⟩
    exact Or.inr ⟨_, ⟨p, hp, i, hi, rfl⟩, hw⟩

/-- Bytes at addresses of their own stand in the mask and data of their word. -/
theorem digit_wordData (hd : ((ps.flatMap Piece.bytes).map (·.1)).Nodup) (w : Nat) :
    (∀ x ∈ ps.flatMap Piece.bytes, x.1 / 8 = w → digit 2 (wordData ps w).1 (x.1 % 8) = 1 ∧
      digit 256 (wordData ps w).2 (x.1 % 8) = x.2) ∧
    ∀ j, (∀ x ∈ ps.flatMap Piece.bytes, x.1 / 8 = w → x.1 % 8 ≠ j) → digit 2 (wordData ps w).1 j = 0 := by
  have hzero (b j : Nat) : digit b 0 j = 0 := by rw [digit, Nat.zero_div, Nat.zero_mod]
  have hv : ∀ x ∈ ps.flatMap Piece.bytes, x.2 < 256 := by
    intro x hx
    obtain ⟨p, _, hx⟩ := List.mem_flatMap.1 hx
    obtain ⟨i, _, rfl⟩ := mem_bytes.1 hx
    exact Nat.mod_lt _ (by decide)
  rw [wordData_eq]
  obtain ⟨hin, hout⟩ := foldl_joinByte w _ hv hd (0, 0) fun x _ _ => ⟨hzero .., hzero ..⟩
  exact ⟨hin, fun j hj => (hout j hj).1.trans (hzero ..)⟩

/-- A record with one part of each word stores the bytes of its pieces, where these stand at addresses of their own and in the words
of its elements. -/
theorem storesByte_wordParts {els : List Piece} (h : a.parts = u.wordParts els ps)
    (hd : ((ps.flatMap Piece.bytes).map (·.1)).Nodup)
    (hcov : ∀ x ∈ ps.flatMap Piece.bytes, ∃ p ∈ els, ∃ i < p.size, (p.addr + i) / 8 = x.1 / 8) (addr : Nat) (b : Byte) :
    storesByte a addr b ↔ pieceByte ps addr b := by
  rw [pieceByte_iff]
  have hpart (w e va : Nat) : partByte (u.newPart u.cur e va (w * 8) 8 (BitVec.ofNat 8 (wordData ps w).1)
      (BitVec.ofNat 64 (wordData ps w).2) 0) addr b ↔ addr / 8 = w ∧ digit 2 (wordData ps w).1 (addr % 8) = 1 ∧
        b = BitVec.ofNat 8 ((wordData ps w).2 / 256 ^ (addr % 8)) := by
    have hmod : addr % 8 < 8 := Nat.mod_lt _ (by decide)
    rw [partByte, ← getLsbD_mask _ hmod, ← ofNat_byte_data _ hmod]
    change w * 8 ≤ addr ∧ addr < w * 8 + 8 ∧ (BitVec.ofNat 8 _).getLsbD (addr - w * 8) = true ∧
      b = BitVec.ofNat 8 (_ / 256 ^ (addr - w * 8)) ↔ _
    constructor
    · rintro ⟨hlo, hhi, h⟩
      rw [show addr - w * 8 = addr % 8 by omega] at h
      exact ⟨by omega, h⟩
    · rintro ⟨hw, h⟩
      rw [show addr - w * 8 = addr % 8 by omega]
      exact ⟨by omega, by omega, h⟩
  constructor
  · rintro ⟨p, hp, hbyte⟩
    rw [h, State.wordParts, List.mem_map] at hp
    obtain ⟨⟨w, e, va⟩, -, rfl⟩ := hp
    obtain ⟨hw, hone, hb⟩ := (hpart w e va).1 hbyte
    obtain ⟨hin, hout⟩ := digit_wordData hd w
    by_contra hno
    have hzero := hout (addr % 8) fun x hx hxw he => hno ⟨x.2, by
      have hxa : x.1 = addr := by omega
      have hval := (hin x hx hxw).2
      rw [he] at hval
      exact ⟨hxa ▸ hx, hb.trans (ofNat_byte_eq (by rw [← hval, digit, Nat.mod_mod]))⟩⟩
    omega
  · rintro ⟨v, hv, hb⟩
    obtain ⟨p, hp, i, hi, hw⟩ := hcov _ hv
    obtain ⟨⟨w, e, va⟩, hmem, rfl⟩ := (exists_mem_wordsOf els (addr / 8)).2 ⟨p, hp, i, hi, hw⟩
    obtain ⟨hone, hval⟩ : digit 2 (wordData ps (addr / 8)).1 (addr % 8) = 1 ∧ digit 256 (wordData ps (addr / 8)).2 (addr % 8) = v :=
      (digit_wordData hd (addr / 8)).1 _ hv rfl
    refine ⟨_, h ▸ List.mem_map.2 ⟨_, hmem, rfl⟩, (hpart _ e va).2 ⟨rfl, hone, hb.trans (ofNat_byte_eq ?_)⟩⟩
    have hlt : v % 256 = v := by rw [← hval, digit, Nat.mod_mod]
    rw [hlt]
    exact hval.symm

end

end Sys2Proof.Machine
end

section
/-!
PROOFS. Contiguous, strided and indexed accesses and bursts (spec/07 R166–R168): their pieces, their checks, and what each form issues.
-/
namespace Sys2Proof.Machine

/-! ### Elements lie apart (spec/07 R166) -/

theorem nodup_flatMap_bytes {l : List Nat} (hl : l.Nodup) {mk : Nat → Piece} (h : ∀ e ∈ l, ∀ f ∈ l, e ≠ f →
    ∀ i < (mk e).size, ∀ j < (mk f).size, (mk e).addr + i ≠ (mk f).addr + j) :
    (((l.map mk).flatMap Piece.bytes).map (·.1)).Nodup := by
  rw [List.map_flatMap, List.flatMap_map, List.nodup_flatMap]
  have hbytes (e : Nat) : (mk e).bytes.map (·.1) = (List.range (mk e).size).map ((mk e).addr + ·) := by
    rw [Piece.bytes, List.map_map]; rfl
  refine ⟨fun e _ => ?_, hl.imp_of_mem fun {e f} he hf hne => ?_⟩
  · rw [hbytes]
    exact List.nodup_range.map fun _ _ => Nat.add_left_cancel
  · rw [Function.onFun, hbytes, hbytes]
    intro x hx hy
    obtain ⟨i, hi, rfl⟩ := List.mem_map.1 hx
    obtain ⟨j, hj, hsame⟩ := List.mem_map.1 hy
    exact h e he f hf hne i (List.mem_range.1 hi) j (List.mem_range.1 hj) hsame.symm

/-- Elements of at most eight bytes at multiples of their size share no byte, also where addresses wrap. -/
theorem elem_bytes_ne {m e f : Nat} (ea : Nat) (hm : m ≤ 8) (he : e ≤ 256) (hf : f ≤ 256) (hne : e ≠ f) {i j : Nat} (hi : i < m)
    (hj : j < m) : trunc64 (ea + e * m) + i ≠ trunc64 (ea + f * m) + j := by
  have hfar {d : Nat} (x : Nat) (hlo : m ≤ d) (hhi : d ≤ 2 ^ 63) {i j : Nat} (hi : i < m) (hj : j < m) :
      trunc64 x + i ≠ trunc64 (x + d) + j := by
    unfold trunc64; omega
  have hstep {e k : Nat} (hk : e + (k + 1) ≤ 256) : m ≤ (k + 1) * m ∧ (k + 1) * m ≤ 2 ^ 63 :=
    ⟨Nat.le_mul_of_pos_left m (Nat.succ_pos k), (Nat.mul_le_mul (by omega : k + 1 ≤ 256) hm).trans (by decide)⟩
  rcases Nat.lt_or_gt_of_ne hne with hlt | hgt
  · obtain ⟨k, rfl⟩ := Nat.exists_eq_add_of_lt hlt
    rw [show ea + (e + k + 1) * m = ea + e * m + (k + 1) * m by ring]
    exact hfar _ (hstep (k := k) hf).1 (hstep (k := k) hf).2 hi hj
  · obtain ⟨k, rfl⟩ := Nat.exists_eq_add_of_lt hgt
    rw [show ea + (f + k + 1) * m = ea + f * m + (k + 1) * m by ring]
    exact (hfar _ (hstep (k := k) he).1 (hstep (k := k) he).2 hj hi).symm

theorem elemCount_le (s : State) (w : Nat) : elemCount s w ≤ 256 :=
  (Nat.div_le_self _ _).trans (by split <;> decide)

theorem msize_pos (t : ET) : 0 < t.msize := by cases t <;> decide
theorem msize_le (t : ET) : t.msize ≤ 8 := by cases t <;> decide

/-- One piece of each element, which all types but INT12 have. -/
theorem vecPieces_of_ne {t : ET} (h : t ≠ .int12) (ea v : Nat) (acts : List Nat) : vecPieces t ea v acts =
    acts.map fun e => ⟨e, trunc64 (ea + e * t.msize), t.msize, memOf t (laneAt v t.width e)⟩ := by
  cases t with
  | int12 => exact absurd rfl h
  | _ => rfl

theorem elemSpan_of_ne {t : ET} (h : t ≠ .int12) (ea e : Nat) : elemSpan t ea e = (trunc64 (ea + e * t.msize), t.msize) := by
  cases t with
  | int12 => exact absurd rfl h
  | ci12 => rw [Nat.mul_comm e]; rfl
  | _ => rfl

section
variable {t : ET} {ea v n : Nat} {acts : List Nat}

theorem vecPieces_size_pos : ∀ q ∈ vecPieces t ea v acts, 0 < q.size := by
  intro q hq
  by_cases ht : t = .int12
  · subst ht
    obtain ⟨e, _, rfl⟩ := List.mem_map.1 hq
    exact Nat.succ_pos 2
  · rw [vecPieces_of_ne ht] at hq
    obtain ⟨e, _, rfl⟩ := List.mem_map.1 hq
    exact msize_pos t

/-- The pieces of a contiguous register share no byte. -/
theorem vecPieces_nodup (hacts : acts.Nodup) (hle : ∀ e ∈ acts, e ≤ 256) :
    (((vecPieces t ea v acts).flatMap Piece.bytes).map (·.1)).Nodup := by
  by_cases ht : t = .int12
  · subst ht
    refine nodup_flatMap_bytes (hacts.filter _) fun e he f hf hne i hi j hj => ?_
    obtain ⟨he, heven⟩ := List.mem_filter.1 he
    obtain ⟨hf, hfeven⟩ := List.mem_filter.1 hf
    have hhalf : e / 2 ≠ f / 2 := by simp only [decide_eq_true_eq] at heven hfeven; omega
    exact elem_bytes_ne ea (by decide) ((Nat.div_le_self ..).trans (hle e he)) ((Nat.div_le_self ..).trans (hle f hf)) hhalf hi hj
  · rw [vecPieces_of_ne ht]
    exact nodup_flatMap_bytes hacts fun e he f hf hne i hi j hj => elem_bytes_ne ea (msize_le t) (hle e he) (hle f hf) hne hi hj

/-- Every byte of the pieces lies in a word of the active elements: an INT12 group has two elements, and both are active or none. -/
theorem vecElems_cover (hpair : t = .int12 → ∀ e ∈ acts, e % 2 = 0 → e + 1 ∈ acts) :
    ∀ x ∈ (vecPieces t ea v acts).flatMap Piece.bytes, ∃ p ∈ vecElems t ea acts, ∃ i < p.size, (p.addr + i) / 8 = x.1 / 8 := by
  intro x hx
  obtain ⟨q, hq, hx⟩ := List.mem_flatMap.1 hx
  obtain ⟨i, hi, rfl⟩ := mem_bytes.1 hx
  by_cases ht : t = .int12
  · subst ht
    obtain ⟨e, he, rfl⟩ := List.mem_map.1 hq
    obtain ⟨he, heven⟩ := List.mem_filter.1 he
    have heven : e % 2 = 0 := of_decide_eq_true heven
    have hi : i < 3 := hi
    have heven_span : (elemSpan .int12 ea e).1 = trunc64 (ea + e / 2 * 3) := by rw [elemSpan, heven]; rfl
    have hodd_span : (elemSpan .int12 ea (e + 1)).1 = trunc64 (ea + e / 2 * 3 + 1) := by
      rw [elemSpan, show (e + 1) / 2 = e / 2 by omega, show (e + 1) % 2 = 1 by omega]
    have hmem {f : Nat} (hf : f ∈ acts) : ⟨f, (elemSpan .int12 ea f).1, 2, 0⟩ ∈ vecElems .int12 ea acts :=
      List.mem_map.2 ⟨f, hf, rfl⟩
    by_cases hlow : i < 2
    · exact ⟨_, hmem he, i, hlow, by rw [heven_span]⟩
    by_cases hwrap : trunc64 (ea + e / 2 * 3) = 2 ^ 64 - 1
    · refine ⟨_, hmem he, 1, Nat.one_lt_two, ?_⟩
      simp only [heven_span, hwrap]
      omega
    · refine ⟨_, hmem (hpair rfl e he heven), 1, Nat.one_lt_two, ?_⟩
      simp only [hodd_span]
      unfold trunc64 at hwrap ⊢
      omega
  · rw [vecPieces_of_ne ht] at hq
    obtain ⟨e, he, rfl⟩ := List.mem_map.1 hq
    exact ⟨_, List.mem_map.2 ⟨e, he, rfl⟩, i, by rw [elemSpan_of_ne ht]; exact hi, by rw [elemSpan_of_ne ht]⟩

/-- A contiguous access has pieces as long as it has active elements. -/
theorem vecPieces_eq_nil (hbase : t = .int12 → ∀ e ∈ acts, e / 2 * 2 ∈ acts) (h : vecPieces t ea v acts = []) : acts = [] := by
  by_cases ht : t = .int12
  · subst ht
    have hnone : acts.filter (fun e => e % 2 = 0) = [] := List.map_eq_nil_iff.1 h
    refine List.eq_nil_iff_forall_not_mem.2 fun e he => ?_
    have hmem : e / 2 * 2 ∈ acts.filter fun e => e % 2 = 0 := List.mem_filter.2 ⟨hbase rfl e he, by simp⟩
    rw [hnone] at hmem
    cases hmem
  · rw [vecPieces_of_ne ht] at h
    exact List.map_eq_nil_iff.1 h

end

/-- Words are accessed as long as there are pieces. -/
theorem wordParts_eq_nil_iff {u : State} {els ps : List Piece} (hpos : ∀ q ∈ ps, 0 < q.size)
    (hcov : ∀ x ∈ ps.flatMap Piece.bytes, ∃ p ∈ els, ∃ i < p.size, (p.addr + i) / 8 = x.1 / 8) (hels : ps = [] → els = []) :
    u.wordParts els ps = [] ↔ ps = [] := by
  rw [State.wordParts, List.map_eq_nil_iff]
  constructor
  · intro h
    refine List.eq_nil_iff_forall_not_mem.2 fun q hq => ?_
    obtain ⟨p, hp, i, hi, hw⟩ := hcov _ (List.mem_flatMap.2 ⟨q, hq, mem_bytes.2 ⟨0, hpos q hq, rfl⟩⟩)
    obtain ⟨x, hx, _⟩ := (exists_mem_wordsOf els _).2 ⟨p, hp, i, hi, hw⟩
    rw [h] at hx
    cases hx
  · intro h
    rw [hels h]
    rfl

/-! ### What a form issues -/

section
variable {s u : State} {i : Instr} {o : Opnd} {ps : List Piece} {parts : List Part}

theorem storesPieces_of_exec (hn : (encode i).length = o.halves 1) (he : exec i s = .next (u.issueVstore o parts))
    (hnil : parts = [] ↔ ps = []) (hw : ∀ p ∈ parts, p.stage = .waiting)
    (hb : ∀ a : Acc, a.parts = parts → ∀ addr b, storesByte a addr b ↔ pieceByte ps addr b) : StoresPieces u i s o.ra ps := by
  refine ⟨fun h => ⟨_, he, ?_⟩, fun h => ?_⟩
  · rw [State.issueVstore, hnil.2 h]
    exact advance_goesTo u hn
  · have hparts : parts.isEmpty = false := by
      rw [List.isEmpty_eq_false_iff]; exact fun hp => h (hnil.1 hp)
    refine ⟨_, u.accRecord .store (modsOf o) true [] o.ra 0 .none parts, he, ?_, rfl, rfl, rfl, hw, hb _ rfl⟩
    rw [State.issueVstore, hparts]
    exact issueAcc_issues u _ _ _ _ _ _ _ _ hn

theorem loadsPieces_of_exec {ret : Ret} (hn : (encode i).length = o.halves 1)
    (he : exec i s = .next ((u.issueAcc .load (modsOf o) false [] o.ra 0 ret parts).advance (o.halves 1)))
    (hw : ∀ p ∈ parts, p.stage = .waiting)
    (hb : ∀ a : Acc, a.parts = parts → ∀ addr, (∃ b, storesByte a addr b) ↔ ∃ b, pieceByte ps addr b) :
    LoadsPieces u i s o.ra ps ret :=
  ⟨_, u.accRecord .load (modsOf o) false [] o.ra 0 ret parts, he, issueAcc_issues u _ _ _ _ _ _ _ _ hn, rfl, rfl, rfl, rfl, hw,
    fun addr => (readsByte_iff _ addr).trans (hb _ rfl addr)⟩

/-- An instruction that checks its elements and then does `go`. -/
theorem checked_of_exec {need : Need} {align : Nat} {spans : List (Nat × Nat)} {go : State → State} {done : State → Prop}
    (he : exec i s = .next (.orTrap (s.vecCheck need align spans) go))
    (hgo : ∀ u, u.cur = s.cur → u.frames = s.frames → exec i s = .next (go u) → done u) : Checked s i need align spans done := by
  refine fun u => ⟨fun hc hcur hframes => hgo u hcur hframes ?_, fun c d x hc => ?_⟩
  · rw [he, hc]; rfl
  · rw [he, hc]; rfl

theorem wordParts_waiting {els : List Piece} : ∀ p ∈ u.wordParts els ps, p.stage = .waiting := by
  intro p hp
  obtain ⟨x, _, rfl⟩ := List.mem_map.1 hp
  rfl

theorem elemParts_waiting : ∀ p ∈ u.elemParts ps, p.stage = .waiting := by
  intro p hp
  obtain ⟨x, _, rfl⟩ := List.mem_map.1 hp
  rfl

theorem elemParts_eq_nil_iff : u.elemParts ps = [] ↔ ps = [] := by
  rw [State.elemParts, List.map_eq_nil_iff, List.zipIdx_eq_nil_iff]

end

end Sys2Proof.Machine
end

section
/-!
PROOFS. The forms of vector loads and stores (spec/07 R166, R167): contiguous, strided and indexed ones, bursts, and posts
(spec/15 R333).
-/
namespace Sys2Proof.Machine

theorem vecEa_eq (s : State) (o : Opnd) : s.vecEa o = memAddress s o 16 := memEa_eq s o 16

/-! ### Contiguous registers (spec/07 R166) -/

/-- The active elements of a contiguous access: both of an INT12 group follow the even one. -/
def contActs (s : State) (o : Opnd) : List Nat := (List.range (elemCount s o.et.width)).filter fun e =>
  isActive s o o.et.width (if o.et = .int12 then e / 2 * 2 else e)

/-- The active elements of a strided or indexed access. -/
def govActs (s : State) (o : Opnd) : List Nat := (List.range (elemCount s o.et.width)).filter (isActive s o o.et.width)

/-- The lanes that ZM zeroes beside the elements `l`. -/
def zeroedLanes (s : State) (o : Opnd) (l : List Nat) : List (Nat × Nat) :=
  if o.zm then ((List.range (elemCount s o.et.width)).filter fun e => !l.contains e).map fun e => (e * o.et.width, o.et.width) else []

theorem zeroLanes_eq (s : State) (o : Opnd) (l : List Nat) : s.zeroLanes o l = zeroedLanes s o l := by
  rw [zeroedLanes, elemCount_eq]; rfl

theorem vecActs_eq (s : State) (o : Opnd) : s.vecActs o = contActs s o := by
  rw [contActs, elemCount_eq]; rfl

theorem contActs_nodup (s : State) (o : Opnd) : (contActs s o).Nodup := List.nodup_range.filter _

theorem contActs_le (s : State) (o : Opnd) : ∀ e ∈ contActs s o, e ≤ 256 := fun _ he =>
  (Nat.le_of_lt (List.mem_range.1 (List.mem_of_mem_filter he))).trans (elemCount_le ..)

/-- Elements of an INT12 group are active together. -/
theorem mem_contActs_int12 {s : State} {o : Opnd} (ht : o.et = .int12) {e f : Nat} (hgroup : e / 2 = f / 2) :
    e ∈ contActs s o → f ∈ contActs s o := by
  unfold contActs
  rw [ht, List.mem_filter, List.mem_filter, List.mem_range, List.mem_range, if_pos rfl, if_pos rfl, hgroup]
  refine fun h => ⟨?_, h.2⟩
  have hcount : elemCount s (ET.width .int12) = 16 ∨ elemCount s (ET.width .int12) = 8 := by
    unfold elemCount
    split
    · exact Or.inl rfl
    · exact Or.inr rfl
  omega

section
variable {s : State} {o : Opnd}

theorem contActs_cover (ea v : Nat) : ∀ x ∈ (vecPieces o.et ea v (contActs s o)).flatMap Piece.bytes,
    ∃ p ∈ vecElems o.et ea (contActs s o), ∃ i < p.size, (p.addr + i) / 8 = x.1 / 8 :=
  vecElems_cover fun ht e he heven => mem_contActs_int12 ht (by omega) he

/-- The parts of a contiguous access have the bytes of its pieces. -/
theorem storesByte_contiguous (u : State) (ea v : Nat) (a : Acc)
    (ha : a.parts = u.wordParts (vecElems o.et ea (contActs s o)) (vecPieces o.et ea v (contActs s o))) (addr : Nat) (b : Byte) :
    storesByte a addr b ↔ pieceByte (vecPieces o.et ea v (contActs s o)) addr b :=
  storesByte_wordParts ha (vecPieces_nodup (contActs_nodup s o) (contActs_le s o)) (contActs_cover ea v) addr b

theorem contiguous_eq_nil_iff (u : State) (ea v : Nat) :
    u.wordParts (vecElems o.et ea (contActs s o)) (vecPieces o.et ea v (contActs s o)) = [] ↔ vecPieces o.et ea v (contActs s o) = [] :=
  wordParts_eq_nil_iff vecPieces_size_pos (contActs_cover ea v) fun h => by
    rw [vecPieces_eq_nil (fun ht e he => mem_contActs_int12 ht (by omega) he) h]; rfl

theorem vst_single (hs : s.halt = none) (hbl : o.bl = 0) (hok : s.streamTest s.cur [o.ra] [] = .ok) :
    Checked s (.vst o) .w (elemAlign o.et) ((contActs s o).map (elemSpan o.et (memAddress s o 16))) fun u =>
      StoresPieces (u.takeUnits s.cur [o.ra]) (.vst o) s o.ra (vecPieces o.et (memAddress s o 16) (s.srcV s.cur o.ra) (contActs s o)) := by
  have he : exec (.vst o) s = .next (.orTrap (s.vecCheck .w (elemAlign o.et) ((contActs s o).map (elemSpan o.et (memAddress s o 16))))
      fun u => (u.takeUnits u.cur [o.ra]).issueVstore o (u.wordParts (vecElems o.et (memAddress s o 16) (contActs s o))
        (vecPieces o.et (memAddress s o 16) (s.srcV s.cur o.ra) (contActs s o)))) := by
    change execVst o s = _
    unfold execVst
    dsimp only
    rw [if_neg (not_not.2 hbl), withStreams_ok hok, vecEa_eq, vecActs_eq, act_running hs]
  refine checked_of_exec he fun u hcur _ hgo => ?_
  rw [hcur] at hgo
  exact storesPieces_of_exec (encode_length_page rfl rfl rfl) hgo (contiguous_eq_nil_iff u _ _) wordParts_waiting
    (storesByte_contiguous u _ _)

theorem me_of_frames {u : State} (hcur : u.cur = s.cur) (hf : u.frames = s.frames) : u.me = s.me := by
  rw [State.me, State.me, State.frame, State.frame, hcur, hf]

theorem vld_single (hs : s.halt = none) (hbl : o.bl = 0) (hok : s.streamTest s.cur [] [o.ra] = .ok) :
    Checked s (.vld o) .r (elemAlign o.et) ((contActs s o).map (elemSpan o.et (memAddress s o 16))) fun u =>
      LoadsPieces (u.reserveV s.cur o.ra s.me.seq) (.vld o) s o.ra (vecPieces o.et (memAddress s o 16) 0 (contActs s o))
        (.v o.ra 1 ((contActs s o).map (elemRet o.et (memAddress s o 16))) (zeroedLanes s o (contActs s o))) := by
  have he : exec (.vld o) s = .next (.orTrap (s.vecCheck .r (elemAlign o.et) ((contActs s o).map (elemSpan o.et (memAddress s o 16))))
      fun u => u.issueVload o (.v o.ra 1 ((contActs s o).map (elemRet o.et (memAddress s o 16))) (zeroedLanes s o (contActs s o)))
        (u.wordParts (vecElems o.et (memAddress s o 16) (contActs s o)) (vecPieces o.et (memAddress s o 16) 0 (contActs s o)))) := by
    change execVld o s = _
    unfold execVld
    dsimp only
    rw [if_neg (not_not.2 hbl), withStreams_ok hok, vecEa_eq, vecActs_eq, zeroLanes_eq, act_running hs]
  refine checked_of_exec he fun u hcur hframes hgo => ?_
  rw [State.issueVload, hcur, me_of_frames hcur hframes] at hgo
  exact loadsPieces_of_exec (encode_length_page rfl rfl rfl) hgo wordParts_waiting fun a ha addr =>
    exists_congr fun b => storesByte_contiguous u _ _ a ha addr b

/-! ### Strided and indexed accesses (spec/07 R167) -/

/-- The pieces of a strided or indexed access: one of each active element. -/
def eachPiece (s : State) (o : Opnd) (addr : Nat → Nat) (v : Nat) : List Piece :=
  (govActs s o).map fun e => ⟨e, addr e, o.et.msize, laneAt v o.et.width e⟩

theorem gatherPieces_eq (s : State) (o : Opnd) (v : Nat) (addr : Nat → Nat) : s.gatherPieces o v addr = eachPiece s o addr v := by
  rw [eachPiece, govActs, elemCount_eq]; rfl

theorem eachPiece_size (addr : Nat → Nat) (v : Nat) : ∀ q ∈ eachPiece s o addr v, q.size ≤ 8 := by
  intro q hq
  obtain ⟨e, _, rfl⟩ := List.mem_map.1 hq
  exact msize_le o.et

theorem eachPiece_spans (addr : Nat → Nat) (v : Nat) :
    (eachPiece s o addr v).map (fun p => (p.addr, p.size)) = (govActs s o).map fun e => (addr e, o.et.msize) := by
  rw [eachPiece, List.map_map]; rfl

theorem vsts_each (hs : s.halt = none) (hok : s.streamTest s.cur [o.ra] [] = .ok) :
    Checked s (.vsts o) .w o.et.msize
      ((govActs s o).map fun e => (stridedAddr (memAddress s o 16) (s.g o.rc).toInt e, o.et.msize)) fun u =>
      StoresPieces (u.takeUnits s.cur [o.ra]) (.vsts o) s o.ra
        (eachPiece s o (stridedAddr (memAddress s o 16) (s.g o.rc).toInt) (s.srcV s.cur o.ra)) := by
  have he : exec (.vsts o) s = .next (.orTrap (s.vecCheck .w o.et.msize
      ((govActs s o).map fun e => (stridedAddr (memAddress s o 16) (s.g o.rc).toInt e, o.et.msize))) fun u =>
        (u.takeUnits u.cur [o.ra]).issueVstore o
          (u.elemParts (eachPiece s o (stridedAddr (memAddress s o 16) (s.g o.rc).toInt) (s.srcV s.cur o.ra)))) := by
    change execVsts o s = _
    unfold execVsts
    dsimp only
    rw [withStreams_ok hok, vecEa_eq, gatherPieces_eq, eachPiece_spans, act_running hs]
  refine checked_of_exec he fun u hcur _ hgo => ?_
  rw [hcur] at hgo
  exact storesPieces_of_exec (encode_length_page rfl rfl rfl) hgo elemParts_eq_nil_iff elemParts_waiting
    fun a ha => storesByte_elemParts ha (eachPiece_size _ _)

theorem gather_each {i : Instr} {reads : List Nat} {addr : Nat → Nat} (hs : s.halt = none)
    (hok : s.streamTest s.cur reads [o.ra] = .ok) (hn : (encode i).length = o.halves 1)
    (he : exec i s = s.act (s.gather o reads addr)) :
    Checked s i .r o.et.msize ((govActs s o).map fun e => (addr e, o.et.msize)) fun u =>
      LoadsPieces ((u.takeUnits s.cur reads).reserveV s.cur o.ra s.me.seq) i s o.ra (eachPiece s o addr 0)
        (.v o.ra 1 ((govActs s o).map fun e => (e * o.et.width, o.et.width, addr e * 8, o.et.msize * 8, 3))
          (zeroedLanes s o (govActs s o))) := by
  have hret : (eachPiece s o addr 0).map (fun p => (p.elem * o.et.width, o.et.width, p.addr * 8, o.et.msize * 8, 3)) =
      (govActs s o).map fun e => (e * o.et.width, o.et.width, addr e * 8, o.et.msize * 8, 3) := by
    rw [eachPiece, List.map_map]; rfl
  have helems : (eachPiece s o addr 0).map (·.elem) = govActs s o := by
    rw [eachPiece, List.map_map]; exact List.map_id' _
  unfold State.gather at he
  dsimp only at he
  rw [withStreams_ok hok, gatherPieces_eq, eachPiece_spans, hret, helems, zeroLanes_eq, act_running hs] at he
  refine checked_of_exec he fun u hcur hframes hgo => ?_
  have htake := takeUnits_streamsOnly u s.cur reads
  have hseq : (u.takeUnits s.cur reads).me.seq = s.me.seq := by rw [htake.me, me_of_frames hcur hframes]
  rw [hcur, State.issueVload, htake.cur, hcur, hseq] at hgo
  exact loadsPieces_of_exec hn hgo elemParts_waiting fun a ha addr =>
    exists_congr fun b => storesByte_elemParts ha (eachPiece_size _ _) addr b

theorem takeUnits_nil (u : State) (f : Nat) : u.takeUnits f [] = u := takeUnits_plain (by simp)

theorem vlds_each (hs : s.halt = none) (hok : s.streamTest s.cur [] [o.ra] = .ok) :
    Checked s (.vlds o) .r o.et.msize
      ((govActs s o).map fun e => (stridedAddr (memAddress s o 16) (s.g o.rc).toInt e, o.et.msize)) fun u =>
      LoadsPieces (u.reserveV s.cur o.ra s.me.seq) (.vlds o) s o.ra
        (eachPiece s o (stridedAddr (memAddress s o 16) (s.g o.rc).toInt) 0)
        (.v o.ra 1 ((govActs s o).map fun e => (e * o.et.width, o.et.width,
          stridedAddr (memAddress s o 16) (s.g o.rc).toInt e * 8, o.et.msize * 8, 3)) (zeroedLanes s o (govActs s o))) := by
  have he : exec (.vlds o) s = s.act (s.gather o [] (stridedAddr (memAddress s o 16) (s.g o.rc).toInt)) := by
    rw [← vecEa_eq]; rfl
  have hgather := gather_each hs hok (encode_length_page rfl rfl rfl) he
  simp only [takeUnits_nil] at hgather
  exact hgather

/-- Address of an element under an index vector. -/
def indexedAddr (s : State) (o : Opnd) (e : Nat) : Nat :=
  trunc64 (memAddress s o 16 + laneAt (s.srcV s.cur o.rc) o.et.width e * o.et.msize)

theorem exec_vldx (s : State) (o : Opnd) : exec (.vldx o) s = s.act (s.gather o [o.rc] (indexedAddr s o)) := by
  unfold indexedAddr
  rw [← vecEa_eq]
  rfl

end

/-! ### Bursts (spec/07 R166) -/

/-- Words of a burst in one register. -/
def burstWpr (s : State) : Nat := if s.me.gang then 4 else 2

/-- The words of a burst with the values `v`. -/
def burstWords (s : State) (o : Opnd) (v : Nat → Nat) : List Piece :=
  (List.range (o.bl + 1)).map fun i => ⟨i, (memAddress s o 16 + 8 * i) % 2 ^ 64, 8, v i⟩

/-- The value of a word that a burst stores. -/
def burstValue (s : State) (o : Opnd) (i : Nat) : Nat := laneAt (s.vreg s.cur (o.ra + i / burstWpr s)) 64 (i % burstWpr s)

/-- The address and size of each word of a burst. -/
def burstSpans (s : State) (o : Opnd) : List (Nat × Nat) :=
  (List.range (o.bl + 1)).map fun i => ((memAddress s o 16 + 8 * i) % 2 ^ 64, 8)

/-- The burst fills whole registers, none past v31. -/
def burstFits (s : State) (o : Opnd) : Prop := (o.bl + 1) % burstWpr s = 0 ∧ o.ra + max 1 ((o.bl + 1) / burstWpr s) ≤ 32

theorem wpr_eq (s : State) : s.me.wpr = burstWpr s := by
  unfold Frame.wpr Frame.vbytes burstWpr
  split <;> rfl

theorem burstPieces_eq (s : State) (o : Opnd) : s.burstPieces o = burstWords s o (burstValue s o) := by
  unfold State.burstPieces burstWords burstValue
  rw [wpr_eq, vecEa_eq]
  rfl

theorem burstSpans_eq (s : State) (o : Opnd) : (s.burstPieces o).map (fun p => (p.addr, 8)) = burstSpans s o := by
  rw [burstPieces_eq, burstWords, List.map_map]; rfl

theorem burstOk_iff (s : State) (o : Opnd) : burstOk o s.me.wpr = true ↔ burstFits s o := by
  rw [burstOk, Bool.and_eq_true, beq_iff_eq, decide_eq_true_iff, wpr_eq]; rfl

section
variable {s : State} {o : Opnd}

theorem storesByte_burst {a : Acc} (h : a.parts = s.burstParts o) (addr : Nat) (b : Byte) :
    storesByte a addr b ↔ pieceByte (burstWords s o (burstValue s o)) addr b := by
  rw [State.burstParts, burstPieces_eq] at h
  have hsize : ∀ q ∈ burstWords s o (burstValue s o), q.size = 8 := by
    intro q hq
    obtain ⟨i, _, rfl⟩ := List.mem_map.1 hq
    rfl
  have hcarries {p : Part} {q : Piece} (hq : q ∈ burstWords s o (burstValue s o)) (hbase : p.base = q.addr) (hp : p.size = 8)
      (hm : p.mask = 255) (hd : p.data = BitVec.ofNat 64 q.val) : p.carries q :=
    ⟨hbase, hp.trans (hsize q hq).symm, by rw [hm, hsize q hq]; rfl, hd⟩
  refine storesByte_of_carries (fun q hq => (hsize q hq).le) (fun p hp => ?_) (fun q hq => ?_) addr b
  · rw [h] at hp
    obtain ⟨q, hq, rfl⟩ := List.mem_map.1 hp
    exact ⟨q, hq, hcarries hq rfl rfl rfl rfl⟩
  · exact ⟨_, h ▸ List.mem_map.2 ⟨q, hq, rfl⟩, hcarries hq rfl rfl rfl rfl⟩

/-- Which bytes a burst moves does not depend on their values. -/
theorem exists_pieceByte_burst (v w : Nat → Nat) (addr : Nat) :
    (∃ b, pieceByte (burstWords s o v) addr b) → ∃ b, pieceByte (burstWords s o w) addr b := by
  rintro ⟨b, q, hq, i, hi, ha, _⟩
  obtain ⟨k, hk, rfl⟩ := List.mem_map.1 hq
  exact ⟨_, _, List.mem_map.2 ⟨k, hk, rfl⟩, i, hi, ha, rfl⟩

theorem burstParts_waiting : ∀ p ∈ s.burstParts o, p.stage = .waiting := by
  intro p hp
  obtain ⟨q, _, rfl⟩ := List.mem_map.1 hp
  rfl

theorem burstParts_eq_nil_iff : s.burstParts o = [] ↔ burstWords s o (burstValue s o) = [] := by
  rw [State.burstParts, List.map_eq_nil_iff, burstPieces_eq]

theorem burst_checks {i : Instr} (hf : burstFits s o) (hu : s.burstUnit o = none) (need : Need) (go : State → State) :
    s.burst i o need go = .orTrap (s.vecCheck need 8 (burstSpans s o)) go := by
  rw [State.burst, (burstOk_iff s o).2 hf, hu, burstSpans_eq]; rfl

theorem burst_illegal {i : Instr} (hf : ¬ burstFits s o) (need : Need) (go : State → State) :
    s.burst i o need go = s.illegalValue i := by
  rw [State.burst, Bool.eq_false_iff.2 (mt (burstOk_iff s o).1 hf)]; rfl

theorem burst_bound {i : Instr} {r : Nat} (hf : burstFits s o) (hu : s.burstUnit o = some r) (need : Need) (go : State → State) :
    s.burst i o need go = s.trap 0x0E 0x0C (BitVec.ofNat 64 (r - 28)) := by
  rw [State.burst, (burstOk_iff s o).2 hf, hu]; rfl

theorem post_illegal {tag : Nat} (hf : ¬ burstFits s o) : s.post o tag = s.illegalValue (.vst o) := by
  rw [State.post, Bool.eq_false_iff.2 (mt (burstOk_iff s o).1 hf)]; rfl

theorem post_bound {tag r : Nat} (hf : burstFits s o) (hu : s.burstUnit o = some r) :
    s.post o tag = s.trap 0x0E 0x0C (BitVec.ofNat 64 (r - 28)) := by
  rw [State.post, (burstOk_iff s o).2 hf, hu]; rfl

theorem exec_vld_burst (hs : s.halt = none) (hbl : o.bl ≠ 0) : exec (.vld o) s =
    .next (s.burst (.vld o) o .r fun u => u.issueVload o (s.burstRet o) (s.burstParts o)) := by
  change execVld o s = _
  unfold execVld
  dsimp only
  rw [if_pos hbl, act_running hs]

theorem exec_vst_burst (hs : s.halt = none) (hbl : o.bl ≠ 0) (hp : postLine (memAddress s o 16) o.bl = none) : exec (.vst o) s =
    .next (s.burst (.vst o) o .w fun u => u.issueVstore o (s.burstParts o)) := by
  change execVst o s = _
  unfold execVst
  dsimp only
  rw [if_pos hbl, vecEa_eq, hp, act_running hs]

theorem exec_vst_post {tag : Nat} (hs : s.halt = none) (hbl : o.bl ≠ 0) (hp : postLine (memAddress s o 16) o.bl = some tag) :
    exec (.vst o) s = .next (s.post o tag) := by
  change execVst o s = _
  unfold execVst
  dsimp only
  rw [if_pos hbl, vecEa_eq, hp, act_running hs]

theorem stores_burst {u : State} (he : exec (.vst o) s = .next (u.issueVstore o (s.burstParts o))) :
    StoresPieces u (.vst o) s o.ra (burstWords s o (burstValue s o)) :=
  storesPieces_of_exec (encode_length_page rfl rfl rfl) he burstParts_eq_nil_iff burstParts_waiting fun _ ha => storesByte_burst ha

theorem vst_burst (hs : s.halt = none) (hbl : o.bl ≠ 0) (hp : postLine (memAddress s o 16) o.bl = none) (hf : burstFits s o)
    (hu : s.burstUnit o = none) : Checked s (.vst o) .w 8 (burstSpans s o) fun u =>
      StoresPieces u (.vst o) s o.ra (burstWords s o (burstValue s o)) := by
  have he := exec_vst_burst hs hbl hp
  rw [burst_checks hf hu] at he
  exact checked_of_exec he fun u _ _ hgo => stores_burst hgo

/-- No register of a burst is a bound stream, so that a load offers none. -/
theorem reserveV_burst (hu : s.burstUnit o = none) {u : State} (hcur : u.cur = s.cur) (hf : u.frames = s.frames) (seq : Nat) :
    u.reserveV u.cur o.ra seq = u := by
  have hnone : (u.frame u.cur).unitAt o.ra = none := by
    have hfirst := List.find?_eq_none.1 hu o.ra
      (List.mem_map.2 ⟨0, List.mem_range.2 (Nat.lt_of_lt_of_le Nat.one_pos (Nat.le_max_left ..)), rfl⟩)
    rw [State.frame, hf, hcur]
    simpa [State.me, State.frame] using hfirst
  rw [State.reserveV, hnone]

theorem vld_burst (hs : s.halt = none) (hbl : o.bl ≠ 0) (hf : burstFits s o) (hu : s.burstUnit o = none) :
    Checked s (.vld o) .r 8 (burstSpans s o) fun u => LoadsPieces u (.vld o) s o.ra (burstWords s o fun _ => 0)
      (.v o.ra (max 1 ((o.bl + 1) / burstWpr s)) ((List.range (o.bl + 1)).map fun i =>
        (i / burstWpr s * 256 + i % burstWpr s * 64, 64, (memAddress s o 16 + 8 * i) % 2 ^ 64 * 8, 64, 0)) []) := by
  have he := exec_vld_burst hs hbl
  rw [burst_checks hf hu] at he
  have hret : s.burstRet o = .v o.ra (max 1 ((o.bl + 1) / burstWpr s)) ((List.range (o.bl + 1)).map fun i =>
      (i / burstWpr s * 256 + i % burstWpr s * 64, 64, (memAddress s o 16 + 8 * i) % 2 ^ 64 * 8, 64, 0)) [] := by
    rw [State.burstRet, burstPieces_eq, wpr_eq, burstWords, List.map_map]; rfl
  refine checked_of_exec he fun u hcur hframes hgo => ?_
  rw [State.issueVload, reserveV_burst hu hcur hframes, hret] at hgo
  exact loadsPieces_of_exec (encode_length_page rfl rfl rfl) hgo burstParts_waiting fun a ha addr =>
    (exists_congr fun b => storesByte_burst ha addr b).trans ⟨exists_pieceByte_burst _ _ addr, exists_pieceByte_burst _ _ addr⟩

theorem bursts_illegal (hs : s.halt = none) (hbl : o.bl ≠ 0) (hf : ¬ burstFits s o) :
    exec (.vld o) s = .next (s.illegalValue (.vld o)) ∧ exec (.vst o) s = .next (s.illegalValue (.vst o)) := by
  refine ⟨by rw [exec_vld_burst hs hbl, burst_illegal hf], ?_⟩
  cases hp : postLine (memAddress s o 16) o.bl with
  | none => rw [exec_vst_burst hs hbl hp, burst_illegal hf]
  | some tag => rw [exec_vst_post hs hbl hp, post_illegal hf]

theorem bursts_bound {r : Nat} (hs : s.halt = none) (hbl : o.bl ≠ 0) (hf : burstFits s o) (hu : s.burstUnit o = some r) :
    exec (.vld o) s = .next (s.trap 0x0E 0x0C (BitVec.ofNat 64 (r - 28))) ∧
    exec (.vst o) s = .next (s.trap 0x0E 0x0C (BitVec.ofNat 64 (r - 28))) := by
  refine ⟨by rw [exec_vld_burst hs hbl, burst_bound hf hu], ?_⟩
  cases hp : postLine (memAddress s o 16) o.bl with
  | none => rw [exec_vst_burst hs hbl hp, burst_bound hf hu]
  | some tag => rw [exec_vst_post hs hbl hp, post_bound hf hu]

/-! ### Posts (spec/15 R333, spec/09 R220) -/

section
variable {tag : Nat} {u : State}

theorem post_denied (hf : burstFits s o) (hu : s.burstUnit o = none) {c d : Nat}
    (hc : s.postCheck s.cur tag = (u, some (c, d))) : s.post o tag = u.trap c d (BitVec.ofNat 64 (memAddress s o 16)) := by
  rw [State.post, (burstOk_iff s o).2 hf, hu, hc, vecEa_eq]; rfl

theorem post_breach (hf : burstFits s o) (hu : s.burstUnit o = none) (hc : s.postCheck s.cur tag = (u, none)) {b : Nat}
    (hb : u.guardBreach u.cur (memAddress s o 16) 64 = some b) : s.post o tag = u.trap 0x07 0 (BitVec.ofNat 64 b) := by
  simp only [State.post, (burstOk_iff s o).2 hf, hu, hc, vecEa_eq, hb]; rfl

theorem post_issues (hf : burstFits s o) (hu : s.burstUnit o = none) (hc : s.postCheck s.cur tag = (u, none))
    (hb : u.guardBreach u.cur (memAddress s o 16) 64 = none) : s.post o tag = u.issueVstore o (s.burstParts o) := by
  simp only [State.post, (burstOk_iff s o).2 hf, hu, hc, vecEa_eq, hb]; rfl

end

end

end Sys2Proof.Machine

/-! ### O14: vector memory -/

namespace Sys2Proof.VectorMemoryForms
open Sys2Proof.Machine

theorem vectorMemoryElements : VectorMemoryElements := by
  intro o s hs
  have hindexed (hok : s.streamTest s.cur [o.rc] [o.ra] = .ok) :=
    gather_each hs hok (encode_length_page rfl rfl rfl) (exec_vldx s o)
  exact ⟨vst_single hs, vld_single hs, vsts_each hs, vlds_each hs, hindexed⟩

theorem vectorBursts : VectorBursts := by
  intro o s hs hbl
  refine ⟨vst_burst hs hbl, vld_burst hs hbl, bursts_illegal hs hbl, fun hf r _ _ hu => bursts_bound hs hbl hf hu,
    fun tag u hp hf hu => ⟨fun hc hcur _ => ⟨fun hb => ?_, fun b hb => ?_⟩, fun c d hc => ?_⟩⟩
  · rw [← hcur] at hb
    exact stores_burst (by rw [exec_vst_post hs hbl hp, post_issues hf hu hc hb])
  · rw [← hcur] at hb
    rw [exec_vst_post hs hbl hp, post_breach hf hu hc hb]
  · rw [exec_vst_post hs hbl hp, post_denied hf hu hc]

/-- Settles O14: the parts of each form carry the bytes of its pieces, and its checks, bindings and posts come first. -/
theorem vectorMemory : Obligations.VectorMemory :=
  ⟨vectorMemoryElements, vectorBursts⟩

end Sys2Proof.VectorMemoryForms
end

section
/-!
PROOFS. Vector instructions on bound streams (spec/08 R178, spec/05 R116): a trap that ends the context of an urgent frame, whose
program counter and units are then those of a free frame.
-/
namespace Sys2Proof.UrgentStreamTrap
open Sys2Proof.Machine
set_option maxRecDepth 1000

/-- A read stream of eight INT16 elements, all of which have been read ahead: one register. -/
def fullStream : Machine.Unit :=
  { Unit.none with kind := .gen, et := 2, count := 8, ahead := 8, data := List.replicate 8 0 }

/-- The urgent frame of core 0 runs the last instruction of the address space, unit 0 bound to the stream, and every g register
names an address in no window. -/
def atLastWord : State :=
  { State.reset with
      wipe := false
      cur := 4
      frames := [(4, { Frame.empty .urgent with
        stat := .ready, launch := some 0, pc := BitVec.ofNat 48 (2 ^ 48 - 4), g := Vector.replicate 32 (BitVec.allOnes 64)
        units := #v[fullStream, Unit.none, Unit.none, Unit.none] })]
      launches := [(0, { LEntry.none with st := .placed, urgent := true })] }

/-- VST of v28 at the address in g1. -/
def storeOfStream : Opnd := ⟨28, 1, none, none, none, []⟩

/-- Unit 0 of the executing frame in the next state. -/
def unitAfter : Out → Option Machine.Unit
  | .next t => t.me.units[0]?
  | _ => none

/-- The store may not be made; its trap kills the launch, and the frame is free. -/
theorem unitAfter_store : unitAfter (exec (.vst storeOfStream) atLastWord) = some Unit.none := rfl

/-- Refutes O13: an instruction that leaves its own thread's program counter at the address after it is said to have taken its
streams.  The trap of an urgent frame frees the frame (spec/05 R116), whose program counter then reads 0; at the top of the address
space that is the address after the instruction, and the unit is unbound instead of one register further. -/
theorem not_streamOperandsHoldOrTrap : ¬ Obligations.StreamOperandsHoldOrTrap := by
  rintro ⟨-, hoperands⟩
  have hform : (Instr.vst storeOfStream, [28], []) ∈ streamForms storeOfStream := List.mem_append_right _ (.tail _ (.head _))
  obtain ⟨-, -, hok⟩ := hoperands storeOfStream atLastWord (.vst storeOfStream) [28] [] hform rfl
  have htaken := hok rfl _ 0 fullStream rfl rfl rfl rfl rfl (by decide) (by decide)
  exact absurd (unitAfter_store.symm.trans htaken) (by decide)

end Sys2Proof.UrgentStreamTrap
end

section
/-!
PROOFS. Engines and the protection table (spec/14 R306–R308, spec/10 R233): the check of an engine's first access reads the header
of the table of its command's context, which fetches a line into L2.  A copy and an MSTA within the own L1 so change bytes that
they do not write.
-/
namespace Sys2Proof.EngineTableReads
open Sys2Proof.Machine
set_option maxRecDepth 1000

/-- Launch 0 has its protection table at the start of the global space, in a page of HBM whose translation is at hand; the header
permits loads and stores in logical cluster 0.  No line of it is in L2, and no core holds the header. -/
def headerInHbm : State :=
  { State.reset with
      wipe := false
      mem := [(hbmKey 0, 3)]
      slices := [(homeSlice globBase, { Slice.empty with xlat := [⟨globBase, false, 3⟩] })]
      launches := [(0, { LEntry.none with st := .placed, ptab := BitVec.ofNat 64 globBase })] }

/-- A command of the thread in slot 0 of core 0, of weak order, with A zero. -/
def commandOf (op : COp) (b c : Word) : Cmd :=
  { serial := 0, op := op, frame := 0, launch := some 0, urg := false, a := 0, b := b, c := c, x := 0, acc := 0, et := 0, et2 := 0,
    scope := 0, strong := false, cp := 0, bl := 0, arith := 0, phase := 0, priv := .u, region := [], seed := 0, ltid := 0,
    ctr := 0, part := 0, lcl := 0, hand := false, stack := (0, 0) }

/-- A CPY of one byte from L1 offset 8 to offset 0. -/
def copyJob : Job := { Job.new (commandOf .cpy 8 1) 0 with stage := .running }

/-- An MSTA of a CLEAR accumulator to offset 0, as one INT32 element. -/
def storeJob : Job := { Job.new (commandOf .msta 0 0x40001) 0 with stage := .running }

/-- What the MSTA transfers. -/
def storeGeo : MGeo := ⟨.int32, 1, 1, .int32, 4, 0, 4⟩

/-- Tile 0 works on the job in its normal channel of the copy or the matrix engine. -/
def working (mat : Bool) (j : Job) : State := headerInHbm.setCur 0 mat false (some j)

/-- After the copy L2 holds the header, where it held nothing. -/
theorem byte_copyStep : ((working false copyJob).copyStep 0 false copyJob).byte (l2Key globBase) = 3 := rfl

/-- So it does after the MSTA. -/
theorem byte_matrixRun : ((working true storeJob).matrixRun 0 false storeJob).byte (l2Key globBase) = 3 := rfl

/-- Refutes O38: a copy is said to change no byte but those of its destination; but the check of its rights reads the header of the
protection table, which fetches the header's line into L2 (spec/14 R308). -/
theorem not_streamAndEngineTakeEvents : ¬ Obligations.StreamAndEngineTakeEvents := by
  rintro ⟨-, -, -, -, hmoves⟩
  obtain ⟨hrun, -⟩ := hmoves (working false copyJob) 0 false copyJob rfl rfl rfl rfl rfl rfl rfl
  obtain ⟨-, -, -, hkept⟩ := hrun rfl (by decide) (by decide) _ _ rfl rfl
  have hbyte := hkept (l2Key globBase) (by decide)
  rw [byte_copyStep] at hbyte
  exact absurd hbyte (by decide)

/-- The header's line lies in no L1. -/
theorem l2Key_globBase_ne {b : Nat} (hb : b < 4) : l2Key globBase ≠ l1Key 0 (0 + b) := by
  unfold l2Key globBase l1Key
  omega

/-- Refutes O39: an MSTA is said to change no byte but those of the elements that it writes; but the check of its rights reads the
header of the protection table, which fetches the header's line into L2 (spec/14 R308). -/
theorem not_engineEndEvents : ¬ Obligations.EngineEndEvents := by
  rintro ⟨-, htransfers, -⟩
  obtain ⟨-, hstore⟩ := htransfers (working true storeJob) 0 false storeJob storeGeo rfl rfl rfl rfl
  obtain ⟨-, hdone⟩ := hstore rfl _ _ _ none rfl
  obtain ⟨part, -, -, -, -, -, hwhole, -, hkept, -⟩ := hdone rfl
  have hpart : part = 0 := hwhole rfl
  have hbyte := hkept (l2Key globBase) ?elsewhere
  · rw [byte_matrixRun] at hbyte
    exact absurd hbyte (by decide)
  case elsewhere =>
    rintro i b (⟨hi, hb⟩ | ⟨-, hb⟩)
    · obtain rfl : i = 0 := Nat.lt_one_iff.1 hi
      exact l2Key_globBase_ne hb
    · omega

end Sys2Proof.EngineTableReads
end

section
/-!
PROOFS. Issue of the copy commands (spec/10 R231, R241): the checks in their order, and the queue entry (spec/08 R191, R192).
-/
namespace Sys2Proof.Machine

/-! ### Command queues (spec/08 R191) -/

theorem tileOnly_inside {s : State} (h : s.onTile = true) (i : Instr) (go : State) : s.tileOnly i go = go := if_pos h

theorem queue_setQueue (k : CoreSt) (mat urg m g : Bool) (l : List Cmd) :
    (k.setQueue mat urg l).queue m g = if m = mat ∧ g = urg then l else k.queue m g := by
  cases mat <;> cases urg <;> cases m <;> cases g <;> rfl

/-- A command takes the last place of its queue, and nothing else differs. -/
theorem enqueue_enqueued (s : State) (mat : Bool) (c : Cmd) : Enqueued s (s.enqueue mat c) mat c := by
  have hcore (k : Nat) : (s.enqueue mat c).core k = if k = s.myCore
      then (s.core s.myCore).setQueue mat s.inUrgent ((s.core s.myCore).queue mat s.inUrgent ++ [c]) else s.core k :=
    core_updCore ..
  refine ⟨rfl, ?_, fun m g h => ?_, fun k hk => ?_⟩
  · rw [hcore, if_pos rfl, queue_setQueue, if_pos ⟨rfl, rfl⟩]
  · rw [hcore, if_pos rfl, queue_setQueue, if_neg h]
  · rw [hcore, if_neg hk]

theorem queueFull_iff (s : State) (mat : Bool) :
    s.queueFull mat = true ↔ 2 ≤ ((s.core s.myCore).queue mat s.inUrgent).length := decide_eq_true_iff

theorem command_captured (s : State) (op : COp) (o : Opnd) (a b c x : Word) : Captured s o (s.command op o a b c x) op :=
  ⟨⟨rfl, rfl, rfl, rfl⟩, ⟨rfl, rfl, rfl, rfl, rfl, rfl⟩, ⟨rfl, rfl, rfl, rfl, rfl⟩, ⟨rfl, rfl⟩⟩

section
variable {s : State} {i : Instr} {urg : Bool} (go : State)

theorem withQueue_own (h : s.inUrgent = urg) : s.withQueue i urg go = go := if_pos h

theorem withQueue_urgent (h : s.inUrgent ≠ urg) (hu : s.inUrgent = true) :
    s.withQueue i urg go = s.trap 0x13 0 (chainWord (encode i)) := (if_neg h).trans (if_pos hu)

theorem withQueue_slot (h : s.inUrgent ≠ urg) (hu : s.inUrgent = false) : s.withQueue i urg go = s.illegalValue i :=
  (if_neg h).trans (if_neg (by rw [hu]; decide))

end

/-! ### The copy commands (spec/10 R231, R241) -/

theorem exec_copyForms {o : Opnd} {i : Instr} {op : COp} (h : (i, op) ∈ copyForms o) (s : State) :
    exec i s = s.act (s.copyIssue i op o) := by
  unfold copyForms at h
  fin_cases h <;> rfl

theorem copyForms_length {o : Opnd} {i : Instr} {op : COp} (h : (i, op) ∈ copyForms o) : (encode i).length = o.halves 2 := by
  unfold copyForms at h
  fin_cases h <;> exact encode_length_page rfl rfl rfl

theorem elems_iff (op : COp) : op.elems = true ↔ op = .cpyg ∨ op = .cpys := by
  simp [COp.elems]

theorem copyMisaligned_none {op : COp} {a b c x : Word}
    (h : op = .cpyg ∨ op = .cpys → a.toNat % ctlSize c = 0 ∧ b.toNat % ctlSize c = 0 ∧ x.toNat % 4 = 0) :
    copyMisaligned op a b c x = none := by
  unfold copyMisaligned
  split
  · next he =>
    obtain ⟨ha, hb, hx⟩ := h ((elems_iff op).1 he)
    simp [ha, hb, hx]
  · rfl

theorem copyMisaligned_first {op : COp} {a c : Word} (b x : Word) (h : op = .cpyg ∨ op = .cpys) (ha : a.toNat % ctlSize c ≠ 0) :
    copyMisaligned op a b c x = some a := by
  simp [copyMisaligned, (elems_iff op).2 h, ha]

/-- CPY and CPY2 demand no alignment. -/
theorem copyMisaligned_bytes {op : COp} (a b c x : Word) (h : op = .cpy ∨ op = .cpy2) : copyMisaligned op a b c x = none :=
  copyMisaligned_none fun he => by rcases h with rfl | rfl <;> simp at he

/-- The register after gC that a copy command captures: CPY has none. -/
def State.copyExtra (s : State) (op : COp) (o : Opnd) : Word := if op = .cpy then 0 else s.g (o.rc + 1)

/-- A copy command past the checks of its control word and its descriptor: alignment, guard, and its queue. -/
def State.copyPlaced (s : State) (op : COp) (o : Opnd) : State :=
  match copyMisaligned op (s.g o.ra) (s.g o.rb) (s.g o.rc) (s.copyExtra op o) with
  | some v => s.trap 0x04 0 v
  | none => match s.copyGuard op (s.g o.ra) (s.g o.rc) (s.copyExtra op o) with
    | some v => s.trap 0x07 0 (BitVec.ofNat 64 v)
    | none => if s.queueFull false then s
        else (s.enqueue false (s.command op o (s.g o.ra) (s.g o.rb) (s.g o.rc) (s.copyExtra op o))).advance (o.halves 2)

section
variable {s : State} {o : Opnd} {i : Instr} {op : COp} (hi : (i, op) ∈ copyForms o) (hs : s.halt = none) (ht : s.onTile = true)
include hi hs ht

/-- A copy command of a core of a tile asks first whose queue it names. -/
theorem exec_copy : exec i s = .next (s.withQueue i o.urg <|
    if !ctlOk op (s.g o.rc) then s.illegalAddr i (s.g o.rc)
    else if op = .cpyt ∧ (s.copyExtra op o).toNat / 2 ^ 32 ≠ 0 then s.illegalAddr i (s.copyExtra op o)
    else if op = .cpyt ∧ !s.descAllowed s.cur (s.g o.ra).toNat then s.illegalAddr i (s.g o.ra)
    else s.copyPlaced op o) := by
  rw [exec_copyForms hi, act_running hs]
  exact congrArg _ (tileOnly_inside ht i _)

variable (hq : s.inUrgent = o.urg)
include hq

theorem exec_copy_badControl (hc : ctlOk op (s.g o.rc) = false) : exec i s = .next (s.illegalAddr i (s.g o.rc)) := by
  rw [exec_copy hi hs ht, withQueue_own _ hq, if_pos (by rw [hc]; rfl)]

variable (hc : ctlOk op (s.g o.rc) = true)
include hc

theorem exec_copy_badStride (hop : op = .cpyt) (hx : 2 ^ 32 ≤ (s.copyExtra op o).toNat) :
    exec i s = .next (s.illegalAddr i (s.copyExtra op o)) := by
  have hhigh : (s.copyExtra op o).toNat / 2 ^ 32 ≠ 0 := by omega
  rw [exec_copy hi hs ht, withQueue_own _ hq, if_neg (by rw [hc]; decide), if_pos ⟨hop, hhigh⟩]

theorem exec_copy_badDesc (hop : op = .cpyt) (hx : (s.copyExtra op o).toNat < 2 ^ 32)
    (hd : s.descAllowed s.cur (s.g o.ra).toNat = false) : exec i s = .next (s.illegalAddr i (s.g o.ra)) := by
  have hlow : ¬ (op = .cpyt ∧ (s.copyExtra op o).toNat / 2 ^ 32 ≠ 0) := by omega
  rw [exec_copy hi hs ht, withQueue_own _ hq, if_neg (by rw [hc]; decide), if_neg hlow, if_pos ⟨hop, by rw [hd]; rfl⟩]

theorem exec_copy_placed
    (hok : op = .cpyt → (s.copyExtra op o).toNat < 2 ^ 32 ∧ s.descAllowed s.cur (s.g o.ra).toNat = true) :
    exec i s = .next (s.copyPlaced op o) := by
  have hlow : ¬ (op = .cpyt ∧ (s.copyExtra op o).toNat / 2 ^ 32 ≠ 0) := fun h => by
    have := (hok h.1).1
    omega
  have hdesc : ¬ (op = .cpyt ∧ (!s.descAllowed s.cur (s.g o.ra).toNat) = true) := fun h => by
    rw [(hok h.1).2] at h
    exact absurd h.2 (by decide)
  rw [exec_copy hi hs ht, withQueue_own _ hq, if_neg (by rw [hc]; decide), if_neg hlow, if_neg hdesc]

end

end Sys2Proof.Machine

/-! ### O21: copy commands -/

namespace Sys2Proof.CopyIssue
open Sys2Proof.Machine

theorem copyCommandsEnqueue : CopyCommandsEnqueue := by
  intro o s i op hi hs ht a b c x hq hc hdesc halign hguard
  have hexec := exec_copy_placed hi hs ht hq hc hdesc
  have hplaced : s.copyPlaced op o = if s.queueFull false then s
      else (s.enqueue false (s.command op o a b c x)).advance (o.halves 2) := by
    have hmis : copyMisaligned op (s.g o.ra) (s.g o.rb) (s.g o.rc) (s.copyExtra op o) = none := copyMisaligned_none halign
    have hnone : s.copyGuard op (s.g o.ra) (s.g o.rc) (s.copyExtra op o) = none := hguard
    simp only [State.copyPlaced, hmis, hnone]
    rfl
  rw [hplaced] at hexec
  refine ⟨fun hroom => ?_, fun hfull => ?_⟩
  · rw [if_neg fun hfull => absurd ((queueFull_iff s false).1 hfull) (by omega)] at hexec
    exact ⟨_, _, _, hexec, command_captured s op o a b c x, rfl, rfl, rfl, rfl, enqueue_enqueued s false _,
      advance_goesTo (s.enqueue false (s.command op o a b c x)) (copyForms_length hi)⟩
  · rw [hexec, if_pos ((queueFull_iff s false).2 hfull)]

theorem copyCommandChecks : CopyCommandChecks := by
  intro o s i op hi hs ht a c x q
  refine ⟨fun hq hu => ?_, fun hq hu => ?_, exec_copy_badControl hi hs ht, exec_copy_badStride hi hs ht,
    exec_copy_badDesc hi hs ht, fun hq hc hop ha => ?_, fun v hq hc hop hv => ?_⟩
  · rw [exec_copy hi hs ht, withQueue_urgent _ hq hu]
  · rw [exec_copy hi hs ht, withQueue_slot _ hq hu]
  · have hop' : op ≠ .cpyt := by rcases hop with rfl | rfl <;> decide
    rw [exec_copy_placed hi hs ht hq hc (absurd · hop'), State.copyPlaced, copyMisaligned_first _ _ hop ha]
  · have hguard : s.copyGuard op (s.g o.ra) (s.g o.rc) (s.copyExtra op o) = some v := hv
    have hop' : op ≠ .cpyt := by rcases hop with rfl | rfl <;> decide
    rw [exec_copy_placed hi hs ht hq hc (absurd · hop')]
    simp only [State.copyPlaced, copyMisaligned_bytes _ _ _ _ hop, hguard]

/-- Settles O21: a copy command passes its checks in the order of R241, and then takes the last place of its queue. -/
theorem copyCommands : Obligations.CopyCommands := ⟨copyCommandsEnqueue, copyCommandChecks⟩

end Sys2Proof.CopyIssue
end


section
/-!
PROOFS. FENCEX (spec/08 R196; log 35), INPEEK and INPOP (spec/08 R194): the stores that a fence waits for, the writes that it
orders, and what a popped completion merges and raises.
-/
namespace Sys2Proof.Machine

/-! ### FENCEX (spec/08 R196) -/

/-- Every store of the frame's thread is performed: its accesses that write, its ticketed updates and its write streams. -/
theorem storesDone_iff (s : State) (f : Nat) : s.storesDone f = true ↔
    (∀ a ∈ s.accs, a.frame = f → a.writes = true → ∀ p ∈ a.parts, p.stage = .performed) ∧
    (∀ t ∈ (s.frame f).tickets, t = none) ∧ ∀ u ∈ (s.frame f).units.toList, u.stores = [] := by
  have hacc (a : Acc) : (!a.writes || a.parts.all fun p => p.stage == .performed) = true ↔
      (a.writes = true → ∀ p ∈ a.parts, p.stage = .performed) := by
    cases a.writes <;> simp
  simp only [State.storesDone, State.pendingOf, Bool.and_eq_true, List.all_eq_true, List.mem_filter, beq_iff_eq, hacc, and_imp,
    Option.isNone_iff_eq_none, List.isEmpty_iff, and_assoc]

/-- A FENCEX of a core of a tile goes on once the stores are done. -/
theorem fencex_inside {s : State} (ht : s.onTile = true) (i : Instr) (o : Opnd) (copy mat : Bool) : s.fencex i o copy mat =
    if s.storesDone s.cur then (s.orderStores s.cur copy mat).advance (o.halves 2) else s :=
  tileOnly_inside ht i _

theorem exec_fencexForms {o : Opnd} {s : State} {i : Instr} {copy mat : Bool}
    (h : (i, copy, mat) ∈ [(Instr.fencex o, true, true), (.fencexCopy o, true, false), (.fencexMatrix o, false, true)]) :
    exec i s = s.act (s.fencex i o copy mat) := by
  fin_cases h <;> rfl

theorem fencexForms_length {o : Opnd} {i : Instr} {copy mat : Bool}
    (h : (i, copy, mat) ∈ [(Instr.fencex o, true, true), (.fencexCopy o, true, false), (.fencexMatrix o, false, true)]) :
    (encode i).length = o.halves 2 := by
  fin_cases h <;> exact encode_length_page rfl rfl rfl

theorem matrix_iff (op : COp) : op.matrix = true ↔ op ∈ [COp.mma, .mmac, .mtern, .mlda, .msta, .mzero] := by
  cases op <;> decide

/-- A later command of a selected engine captures the number below which every write so far is ordered. -/
theorem fenced_command_orderStores (s : State) (copy mat : Bool) (op : COp) (o : Opnd) (a b c x : Word)
    (h : (if op.matrix then mat else copy) = true) : ((s.orderStores s.cur copy mat).command op o a b c x).fenced = s.olds := by
  have hme : (s.orderStores s.cur copy mat).me = { s.me with
      fenceC := if copy then s.olds else s.me.fenceC, fenceM := if mat then s.olds else s.me.fenceM } := me_updMe s _
  simp only [State.command, hme]
  split at h <;> simp_all

/-- A fold that starts again at every write keeps none. -/
theorem foldl_ordered_nil {l : List Unfenced} {mark q : Nat} (h : ∀ u ∈ l, u.num < mark) (acc : List Unfenced) :
    l ≠ [] ∨ acc = [] → l.foldl (fun l u => if u.num < mark ∨ u.queue = some q then [] else l ++ [u]) acc = [] := by
  induction l generalizing acc with
  | nil => simp
  | cons u t ih =>
    intro _
    rw [List.foldl_cons, if_pos (.inl (h u (List.mem_cons_self ..)))]
    exact ih (fun v hv => h v (List.mem_cons_of_mem _ hv)) [] (.inr rfl)

/-- A command whose mark lies above every write so far misses none of them. -/
theorem unseen_of_ordered {s : State} {mark : Nat} (h : ∀ w ∈ s.unfenced, w.num < mark) (q loc : Nat) :
    s.unseen mark q loc = [] :=
  foldl_ordered_nil (fun u hu => h u (List.mem_of_mem_filter hu)) [] (.inr rfl)

/-! ### The inbox (spec/08 R194) -/

section
variable {s : State} (o : Opnd) (hs : s.halt = none) (ht : s.onTile = true)
include hs ht

theorem exec_inpeek : exec (.inpeek o) s = .next
    ((s.setG o.ra (match s.myInbox.take s.cur with | some (e, _) => e.word | none => 0)).advance (o.halves 2)) :=
  (act_running hs _).trans (congrArg _ (tileOnly_inside ht _ _))

theorem exec_inpop_waits (h : s.myInbox.take s.cur = none) : exec (.inpop o) s = .next s := by
  refine (act_running hs _).trans (congrArg _ ((tileOnly_inside ht _ _).trans ?_))
  simp only [h]

theorem exec_inpop_takes {e : Entry} {x : Inbox} (h : s.myInbox.take s.cur = some (e, x)) : exec (.inpop o) s = .next
    ((((s.updCore s.myCore fun c => c.setInbox s.inUrgent x).setG o.ra e.word).advance (o.halves 2)).popOutcome e) := by
  refine (act_running hs _).trans (congrArg _ ((tileOnly_inside ht _ _).trans ?_))
  simp only [h]

end

/-! ### A popped completion (spec/08 INPOP, spec/11 R251) -/

/-- The record of a popped command. -/
def CmdRec.observed (c : CmdRec) : CmdRec := { c with merged := true, popped := true }

/-- The state once the flags of a popped command have merged and its record is observed. -/
def State.popMerged (s : State) (e : Entry) : State :=
  match e.serial with
  | some n => (s.mergeFlags s.cur (s.cmdFlags s.cur e) true).updCmd s.cur n CmdRec.observed
  | none => s.mergeFlags s.cur (s.cmdFlags s.cur e) true

/-- The records of a frame once the command of an entry is observed. -/
def observedCmds (e : Entry) (l : List CmdRec) : List CmdRec := l.map fun c => if e.serial = some c.serial then c.observed else c

/-- Besides what the flags change, the executing frame's records alone differ. -/
theorem frame_popMerged (s : State) (e : Entry) (k : Nat) : (s.popMerged e).frame k =
    { (s.mergeFlags s.cur (s.cmdFlags s.cur e) true).frame k with
      cmds := if k = s.cur then observedCmds e s.me.cmds else (s.frame k).cmds } := by
  have hcmds : ((s.mergeFlags s.cur (s.cmdFlags s.cur e) true).frame k).cmds = (s.frame k).cmds := by rw [frame_mergeFlags]
  unfold State.popMerged
  split
  · next n hn =>
    rw [State.updCmd, frame_updFrame]
    split
    · next hk =>
      subst hk
      have hsame : updWhere (fun c => c.serial == n) CmdRec.observed (s.frame s.cur).cmds = observedCmds e s.me.cmds := by
        simp [updWhere, observedCmds, hn, State.me, eq_comm (a := n)]
      rw [← hsame, ← hcmds]
    · rw [← hcmds]
  · next hn =>
    have hid : observedCmds e s.me.cmds = s.me.cmds := by simp [observedCmds, hn]
    rw [hid, ← hcmds]
    split
    · next hk => subst hk; rw [State.me, ← hcmds]
    · rfl

@[simp] theorem cur_popMerged (s : State) (e : Entry) : (s.popMerged e).cur = s.cur := by
  unfold State.popMerged
  split
  · rw [State.updCmd, cur_updFrame, mergeFlags_cur]
  · rw [mergeFlags_cur]

theorem popMerged_within (s : State) (e : Entry) : Within s (s.popMerged e) [s.cur, s.named s.cur] := by
  have hmerge := (mergeFlags_within s s.cur (s.cmdFlags s.cur e) true).mono (gs := [s.cur, s.named s.cur]) (by simp)
  unfold State.popMerged
  split
  · exact hmerge.trans ((updFrame_within _ s.cur _).mono (by simp))
  · exact hmerge

/-- FLAGS of the thread that the frame names take the command's flags. -/
theorem flags_popMerged (s : State) (e : Entry) : ((s.popMerged e).frame (s.named s.cur)).flags =
    (s.frame (s.named s.cur)).flags ||| (if lowestWith (s.cmdFlags s.cur e) 255 = none then 0
      else BitVec.ofNat 64 (orFlags (s.cmdFlags s.cur e))) := by
  rw [frame_popMerged]
  cases hl : lowestWith (s.cmdFlags s.cur e) 255 with
  | none => simp [State.mergeFlags, hl]
  | some p => simp [State.mergeFlags, hl]

theorem me_popMerged (s : State) (e : Entry) : (s.popMerged e).me = { s.me with
    flags := (s.popMerged e).me.flags, faultel := (s.popMerged e).me.faultel, cmds := observedCmds e s.me.cmds } := by
  have hme := frame_popMerged s e s.cur
  rw [if_pos rfl, frame_mergeFlags] at hme
  rw [State.me, cur_popMerged, hme]
  rfl

/-- An entry that is no completion merges nothing. -/
theorem popOutcome_other {s : State} {e : Entry} (h : e.word.toNat % 16 ≠ 1) (h2 : e.word.toNat % 16 ≠ 2) : s.popOutcome e = s :=
  if_pos ⟨h, h2⟩

/-- The trap that a completion raises once its flags have merged: its error, its dead target, or its flags. -/
theorem popOutcome_completion {s : State} {e : Entry} (h : e.word.toNat % 16 = 1 ∨ e.word.toNat % 16 = 2) : s.popOutcome e =
    if e.word.toNat.testBit 5 then (s.popMerged e).trap 0x0D (e.word.toNat % 16 - 1) (BitVec.ofNat 64 (e.word.toNat / 65536 % 65536))
    else if e.word.toNat % 16 = 1 ∧ e.word.toNat / 256 % 256 = 7 then
      (s.popMerged e).trap 0x11 0 (BitVec.ofNat 64 (e.word.toNat / 65536 % 65536))
    else match s.arithTrap s.cur (s.cmdFlags s.cur e) true with
      | some (c, d, a) => (s.popMerged e).trap c d a
      | none => s.popMerged e := by
  have hkind : ¬ (e.word.toNat % 16 ≠ 1 ∧ e.word.toNat % 16 ≠ 2) := by omega
  have hte : (s.popMerged e).arithTrap s.cur (s.cmdFlags s.cur e) true = s.arithTrap s.cur (s.cmdFlags s.cur e) true := by
    rw [State.arithTrap, State.arithTrap, frame_popMerged, ← arith_mergeFlags s s.cur s.cur (s.cmdFlags s.cur e) true]
  rw [← hte]
  exact if_neg hkind

/-- Flags of an engine's command that ARITH.TE does not enable raise no trap. -/
theorem engineTrap_of_disabled {s : State} {l : ElemFlags} (h : enabledOf s l = 0) : s.arithTrap s.cur l true = none := if_pos h

theorem engineTrap_of_enabled {s : State} {l : ElemFlags} (h : enabledOf s l ≠ 0) : ∃ c a,
    s.arithTrap s.cur l true = some (c, enabledOf s l + 256, a) ∧ (c = 0x08 ∨ c = 0x09) := by
  refine ⟨_, _, if_neg h, ?_⟩
  split
  · exact .inr rfl
  · exact .inl rfl

/-- What INPOP leaves once it has taken an entry and written it to gA. -/
def State.popped (s : State) (o : Opnd) (e : Entry) (x : Inbox) : State :=
  ((s.updCore s.myCore fun c => c.setInbox s.inUrgent x).setG o.ra e.word).advance (o.halves 2)

theorem me_popped (s : State) (o : Opnd) (e : Entry) (x : Inbox) : (s.popped o e x).me = { s.me with
    g := (s.me.setGr o.ra e.word).g, pc := pcAfter s.me.pc (o.halves 2), seq := s.me.seq + 1, since := 0, prog := 0 } := by
  rw [State.popped, advance_me, setG_me, setGr_kept]
  rfl

/-- The flags that an entry's command raised are read from the records of the frame alone. -/
theorem cmdFlags_congr {s t : State} {f g : Nat} (h : (t.frame g).cmds = (s.frame f).cmds) (d : Entry) :
    t.cmdFlags g d = s.cmdFlags f d := by
  simp only [State.cmdFlags, h]

theorem cmdFlags_popped (s : State) (o : Opnd) (e d : Entry) (x : Inbox) :
    (s.popped o e x).cmdFlags (s.popped o e x).cur d = s.cmdFlags s.cur d := by
  have hcmds : (s.popped o e x).me.cmds = s.me.cmds := by rw [me_popped]
  exact cmdFlags_congr hcmds d

/-- Whom a frame names is read from its kind alone. -/
theorem named_congr {s t : State} {f : Nat} (h : (t.frame f).kind = (s.frame f).kind) : t.named f = s.named f := by
  simp only [State.named, h]

theorem named_popped (s : State) (o : Opnd) (e : Entry) (x : Inbox) : (s.popped o e x).named (s.popped o e x).cur = s.named s.cur := by
  have hkind : (s.popped o e x).me.kind = s.me.kind := by rw [me_popped]
  exact named_congr hkind

theorem enabledOf_popped (s : State) (o : Opnd) (e : Entry) (x : Inbox) (l : ElemFlags) :
    enabledOf (s.popped o e x) l = enabledOf s l := by
  rw [enabledOf, enabledOf, me_popped]

end Sys2Proof.Machine

/-! ### O17: INPOP, INPEEK and FENCEX -/

namespace Sys2Proof.InboxForms
open Sys2Proof.Machine

theorem fencexWaitsForStores : FencexWaitsForStores := by
  intro o s i copy mat hi hs ht done v
  have hexec : exec i s = .next (if s.storesDone s.cur then (s.orderStores s.cur copy mat).advance (o.halves 2) else s) := by
    rw [exec_fencexForms hi, act_running hs, fencex_inside ht]
  refine ⟨fun h => ⟨_, hexec.trans (congrArg _ (if_pos ((storesDone_iff s s.cur).2 h))), ?goes⟩,
    fun h => hexec.trans (congrArg _ (if_neg (mt (storesDone_iff s s.cur).1 h))), fun op a b c x h => ?fenced,
    fun h q loc => unseen_of_ordered h q loc⟩
  case goes =>
    have hnext : (s.orderStores s.cur copy mat).next i = s.next i := by
      rw [State.orderStores, next_updFrame]
      exact fun _ => rfl
    rw [← hnext]
    exact advance_goesTo (s.orderStores s.cur copy mat) (fencexForms_length hi)
  case fenced =>
    refine fenced_command_orderStores s copy mat op o a b c x ?_
    simpa only [← matrix_iff] using h

theorem inboxPopAndPeek : InboxPopAndPeek := by
  intro o s hs ht
  refine ⟨⟨_, exec_inpeek o hs ht, setG_advance_writesG s o.ra _ (encode_length_page (i := .inpeek o) rfl rfl rfl)⟩,
    exec_inpop_waits o hs ht, ?takes⟩
  intro e x htake w l tag s1
  have hexec : exec (.inpop o) s = .next ((s.popped o e x).popOutcome e) := exec_inpop_takes o hs ht htake
  have hflags : (s.popped o e x).cmdFlags (s.popped o e x).cur e = l := cmdFlags_popped s o e e x
  have hon : enabledOf (s.popped o e x) l = enabledOf s l := enabledOf_popped s o e x l
  have hnamed := named_popped s o e x
  refine ⟨s.popped o e x, setG_advance_writesG s1 o.ra _ (encode_length_page (i := .inpop o) rfl rfl rfl),
    fun h1 h2 => hexec.trans (congrArg _ (popOutcome_other h1 h2)), fun hkind => ?_⟩
  rw [popOutcome_completion hkind, hflags] at hexec
  have hwithin := popMerged_within (s.popped o e x) e
  have hmerged := flags_popMerged (s.popped o e x) e
  have hme := me_popMerged (s.popped o e x) e
  rw [hnamed] at hwithin hmerged
  rw [hflags] at hmerged
  refine ⟨(s.popped o e x).popMerged e, hwithin, hmerged, by rw [hme]; rfl, by rw [hme], by rw [hme], fun herr => ?err,
    fun herr h1 h7 => ?dead, fun herr hdead hoff => ?quiet, fun herr hdead hen => ?trap⟩
  case err => exact hexec.trans (congrArg _ (if_pos herr))
  case dead => rw [hexec, if_neg (by rw [herr]; decide), if_pos ⟨h1, h7⟩]
  case quiet =>
    rw [hexec, if_neg (by rw [herr]; decide), if_neg hdead, engineTrap_of_disabled (hon.trans hoff)]
  case trap =>
    obtain ⟨c, a, htrap, hc⟩ := engineTrap_of_enabled (s := s.popped o e x) (l := l) (by rwa [hon])
    refine ⟨c, a, ?_, hc⟩
    rw [hexec, if_neg (by rw [herr]; decide), if_neg hdead, htrap, hon]

/-- Settles O17: INPOP merges what its entry reports before the one trap that the entry raises; FENCEX waits for the stores that R196
lists, and its mark lies above every write so far. -/
theorem inboxAndFencex : Obligations.InboxAndFencex := ⟨inboxPopAndPeek, fencexWaitsForStores⟩

end Sys2Proof.InboxForms
end

section
/-!
PROOFS. Binding, unbinding and status of the stream units (spec/08 R177, R179, R183, R185, R189, R190, STSTAT): what the end of a
binding changes, the checks of STBIND, and the fields of the status word.
-/
namespace Sys2Proof.Machine

/-! ### The end of a binding (spec/08 R189, spec/01 R16) -/

theorem units_get?_eq (v : Vector Unit 4) {n : Nat} (hn : n < 4) : v[n]? = some (v.getD n Unit.none) := by
  simp [Vector.getD, hn]

theorem getD_units (v : Vector Unit 4) (k : Nat) : v.getD k Unit.none = (v[k]?).getD Unit.none := by simp [Vector.getD]

theorem getD_setIfInBounds_unit (v : Vector Unit 4) (b : Unit) {n : Nat} (hn : n < 4) (k : Nat) :
    (v.setIfInBounds n b).getD k Unit.none = if k = n then b else v.getD k Unit.none := by
  rw [getD_units, getD_units, Vector.getElem?_setIfInBounds]
  simp only [hn, if_true, eq_comm (a := n)]
  split <;> rfl

theorem freeItem_rest (s : State) (f : Nat) (u : Unit) : s.freeItem f u = { s with chans := (s.freeItem f u).chans } := by
  unfold State.freeItem
  split <;> rfl

/-- A channel unit that holds an item frees its slot; no other unit frees any. -/
theorem lookD_freeItem (s : State) (f : Nat) (u : Unit) (k : Nat) : lookD (s.freeItem f u).chans k .none =
    if u.kind = .chan ∧ u.item ≠ [] ∧ k = clusterOf (coreOf f) * 64 + u.id
    then { lookD s.chans k .none with taken := (lookD s.chans k .none).taken - 1 } else lookD s.chans k .none := by
  unfold State.freeItem
  split
  · next h =>
    refine (lookD_put ..).trans ?_
    split
    · next hk => rw [if_pos ⟨h.1, h.2, hk⟩, hk]; rfl
    · next hk => rw [if_neg fun c => hk c.2.2]
  · next h => rw [if_neg fun c => h ⟨c.1, c.2.1⟩]

/-- Unit `n` of the executing frame holds no binding, nor an item of a channel; besides, its own register alone may differ. -/
structure Vacated (s u : State) (n : Nat) : Prop where
  rest    : u = { s with frames := u.frames, chans := u.chans }
  streams : StreamsOnly s u
  others  : ∀ k, k ≠ s.cur → (u.frame k).units = (s.frame k).units
  vectors : ∀ k, k ≠ s.cur → k ≠ oddOf s.cur → (u.frame k).v = (s.frame k).v
  units   : ∀ k < 4, k ≠ n → u.me.units.getD k Unit.none = s.me.units.getD k Unit.none
  unbound : (u.me.units.getD n Unit.none).kind = .unbound
  values  : ∀ k < 32, k ≠ 28 + n → u.vreg s.cur k = s.vreg s.cur k
  chans   : ∀ k, lookD u.chans k .none =
    if (s.me.units.getD n Unit.none).kind = .chan ∧ (s.me.units.getD n Unit.none).item ≠ [] ∧
      k = clusterOf (coreOf s.cur) * 64 + (s.me.units.getD n Unit.none).id
    then { lookD s.chans k .none with taken := (lookD s.chans k .none).taken - 1 } else lookD s.chans k .none

/-- A unit without a binding is vacated as it stands. -/
theorem vacated_refl {s : State} {n : Nat} (h : (s.me.units.getD n Unit.none).kind = .unbound) : Vacated s s n where
  rest := rfl
  streams := .refl s
  others _ _ := rfl
  vectors _ _ _ := rfl
  units _ _ _ := rfl
  unbound := h
  values _ _ _ := rfl
  chans k := (if_neg fun c => by rw [h] at c; cases c.1).symm

/-- The state once unit `n` has freed the slot of its item and holds no binding. -/
def State.emptied (s : State) (n : Nat) : State :=
  (s.freeItem s.cur (s.me.units.getD n Unit.none)).setUnit s.cur n Unit.none

theorem frame_emptied (s : State) (n k : Nat) : (s.emptied n).frame k =
    if k = s.cur then { s.me with units := s.me.units.setIfInBounds n Unit.none } else s.frame k := by
  rw [State.emptied, State.setUnit, frame_updFrame, freeItem_rest]
  rfl

theorem vacated_emptied (s : State) {n : Nat} (hn : n < 4) : Vacated s (s.emptied n) n := by
  have hrest : s.emptied n = { s with frames := (s.emptied n).frames, chans := (s.emptied n).chans } := by
    rw [State.emptied, freeItem_rest]
    rfl
  have hcur : (s.emptied n).cur = s.cur := by rw [hrest]
  have hme : (s.emptied n).me = { s.me with units := s.me.units.setIfInBounds n Unit.none } := by
    rw [State.me, hcur, frame_emptied, if_pos rfl]
  have hv (k : Nat) : ((s.emptied n).frame k).v = (s.frame k).v := by
    rw [frame_emptied]
    split
    · next hk => rw [hk]; rfl
    · rfl
  have hgang : ((s.emptied n).frame s.cur).gang = (s.frame s.cur).gang := by
    rw [frame_emptied, if_pos rfl]
    rfl
  refine ⟨hrest, ⟨hcur, fun k => ?frame⟩, fun k hk => ?others, fun k _ _ => hv k, fun k _ hk => ?units, ?unbound,
    fun k _ _ => vreg_congr hv hgang k, lookD_freeItem s s.cur _⟩
  case frame =>
    rw [frame_emptied]
    split
    · next hk => rw [hk]; rfl
    · rfl
  case others => rw [frame_emptied, if_neg hk]
  case units => rw [hme, getD_setIfInBounds_unit _ _ hn, if_neg hk]
  case unbound => rw [hme, getD_setIfInBounds_unit _ _ hn, if_pos rfl]; rfl

/-- The register of a unit holds the zero that it takes. -/
theorem vreg_zeroed (u : State) (f : Nat) {n : Nat} (hn : n < 4) : (u.setVreg f (28 + n) 0).vreg f (28 + n) = 0 := by
  rw [vreg_setVreg u _ _ _ (by omega), if_pos rfl, Nat.zero_mod]

section
variable {s u : State} {n : Nat} (h : Vacated s u n)
include h

/-- A vacated unit stays so when its register takes zero. -/
theorem Vacated.zeroed : Vacated s (u.setVreg s.cur (28 + n) 0) n := by
  have hframe (k : Nat) := frame_setVreg u s.cur (28 + n) 0 k
  have hunits (k : Nat) : ((u.setVreg s.cur (28 + n) 0).frame k).units = (u.frame k).units := by rw [hframe]
  have hme : (u.setVreg s.cur (28 + n) 0).me.units = u.me.units := by rw [State.me, cur_setVreg, hunits]; rfl
  have hrest := (setVreg_within u s.cur (28 + n) 0).rest
  refine ⟨?rest, h.streams.trans (setVreg_streamsOnly ..), fun k hk => (hunits k).trans (h.others k hk), fun k hk hodd => ?vectors,
    fun k hk hkn => ?units, ?unbound, fun k hk hkn => ?values, fun k => ?chans⟩
  case rest => rw [hrest, h.rest]
  case vectors => rw [frame_setVreg_other u hk hodd, h.vectors k hk hodd]
  case units => rw [hme, h.units k hk hkn]
  case unbound => rw [hme, h.unbound]
  case values => rw [vreg_setVreg u _ _ _ hk, if_neg hkn, h.values k hk hkn]
  case chans => rw [hrest]; exact h.chans k

/-- The binding has ended when the register also holds what it is to hold. -/
theorem Vacated.ended {binds : Bool} (hreg : u.vreg s.cur (28 + n) =
    if binds = true ∨ (s.me.units.getD n Unit.none).kind ≠ .unbound then 0 else s.vreg s.cur (28 + n)) : Unbound s u n binds where
  rest := h.rest
  others k hk := by
    have hk' := h.streams.frame k
    rwa [h.others k hk] at hk'
  vectors := h.vectors
  kept := h.streams.me
  units := h.units
  unbound := h.unbound
  value k hk := by
    rcases eq_or_ne k (28 + n) with e | e
    · rw [e, hreg]; simp only [true_and]
    · rw [if_neg fun c => e c.1, h.values k hk e]
  chans := h.chans

end

section
variable {s : State} {n : Nat}

theorem unbind_unbound (hn : n < 4) (h : (s.me.units.getD n Unit.none).kind = .unbound) : s.unbind s.cur n = s := by
  have hget := units_get?_eq s.me.units hn
  unfold State.unbind
  rw [show (s.frame s.cur).units[n]? = _ from hget]
  exact if_pos h

theorem unbind_bound (hn : n < 4) (h : (s.me.units.getD n Unit.none).kind ≠ .unbound) :
    s.unbind s.cur n = (s.emptied n).setVreg s.cur (28 + n) 0 := by
  have hget := units_get?_eq s.me.units hn
  unfold State.unbind
  rw [show (s.frame s.cur).units[n]? = _ from hget]
  exact if_neg h

theorem vacated_unbind (s : State) (hn : n < 4) : Vacated s (s.unbind s.cur n) n := by
  rcases eq_or_ne (s.me.units.getD n Unit.none).kind .unbound with h | h
  · rw [unbind_unbound hn h]; exact vacated_refl h
  · rw [unbind_bound hn h]; exact (vacated_emptied s hn).zeroed

/-- STUNBIND's end of a binding. -/
theorem unbound_unbind (s : State) (hn : n < 4) : Unbound s (s.unbind s.cur n) n false := by
  refine (vacated_unbind s hn).ended ?_
  rcases eq_or_ne (s.me.units.getD n Unit.none).kind .unbound with h | h
  · rw [unbind_unbound hn h, if_neg (by simpa using h)]
  · rw [unbind_bound hn h, if_pos (.inr h)]; exact vreg_zeroed _ _ hn

/-- The end of the earlier binding where another one takes its place. -/
theorem unbound_unbind_zeroed (s : State) (hn : n < 4) : Unbound s ((s.unbind s.cur n).setVreg s.cur (28 + n) 0) n true :=
  (vacated_unbind s hn).zeroed.ended (by rw [if_pos (.inl rfl)]; exact vreg_zeroed _ _ hn)

/-- What differs in the streams alone does not move the thread. -/
theorem StreamsOnly.next {s t : State} (h : StreamsOnly s t) (i : Instr) : t.next i = s.next i := by
  rw [State.next, State.next, h.me]

/-- An instruction that ends in `rebind` binds the unit. -/
theorem binds_of_rebind {s : State} {i : Instr} {halves : Nat} {b : Unit} (hn : n < 4) (hlen : (encode i).length = halves)
    (h : exec i s = .next (s.rebind n halves b)) : Binds s i n b := by
  refine ⟨fun hidle => ⟨_, _, h.trans (congrArg _ (if_pos hidle)), unbound_unbind_zeroed s hn, ?_⟩, fun hidle => ?_⟩
  · have hstreams := ((vacated_unbind s hn).zeroed.streams.trans (setUnit_streamsOnly _ s.cur n { b with seq := s.me.seq }))
    rw [← hstreams.next i]
    exact advance_goesTo _ hlen
  · exact h.trans (congrArg _ (if_neg (by rw [hidle]; decide)))

end

/-! ### Configurations of an address generator (spec/08 R179) -/

theorem genValid_iff (base cfg : Word) : genValid base cfg = true ↔
    ¬ (cfg.toNat / 32 % 8 ≠ 0 ∨ cfg.toNat / 256 % 2 ^ 24 = 0 ∨ ET.ofCode (cfg.toNat % 16) = .int12 ∨
      (ET.ofCode (cfg.toNat % 16) ≠ .ci12 ∧ (base.toNat % (ET.ofCode (cfg.toNat % 16)).msize ≠ 0 ∨
        sextNat (cfg.toNat / 2 ^ 32) 32 % (ET.ofCode (cfg.toNat % 16)).msize ≠ 0))) := by
  simp only [genValid, Bool.and_eq_true, Bool.or_eq_true, beq_iff_eq, bne_iff_ne, decide_eq_true_eq]
  tauto

theorem genInside_iff (u : Unit) : genInside u = true ↔
    ¬ (l1Bytes ≤ u.elemAddr 0 ∨ l1Bytes ≤ u.elemAddr (u.count - 1) + (ET.ofCode u.et).msize - 1) := by
  simp only [genInside, Bool.and_eq_true, decide_eq_true_eq, not_or, Nat.not_le]

/-! ### The status word (spec/08 STSTAT) -/

/-- KIND of a status word. -/
def UKind.status (k : UKind) : Nat := match k with | .unbound => 0 | .gen => 1 | .chan => 2 | .nbr => 3

/-- The remaining elements or bytes of a status word. -/
def Unit.remaining (u : Unit) : Nat := match u.kind with | .gen => u.count - u.next | .chan => u.item.length | _ => 0

/-- The channel or the side of a status word. -/
def Unit.partnerId (u : Unit) : Nat := match u.kind with | .chan | .nbr => u.id % 64 | _ => 0

theorem status_lt (k : UKind) : k.status < 4 := by cases k <;> decide

/-- A status word of nine low bits, whose bit 3 says that the unit is in FAULT, and the fields above them. -/
structure StatusWord (s : State) (f : Nat) (u : Unit) (fault high : Nat) : Prop where
  lowBits : fault < 2
  word    : (s.unitWord f u).toNat =
    u.kind.status + 4 * u.dir.toNat + 8 * fault + 16 * (s.unitFill f u % 32) + 512 * high

theorem unitWord_fault (s : State) (f : Nat) {u : Unit} {c a : Nat} (h : u.fault = some (c, a)) :
    StatusWord s f u 1 (c % 128 + 128 * (a % 2 ^ 48)) := by
  refine ⟨by decide, ?_⟩
  have hk := status_lt u.kind
  rw [show s.unitWord f u = BitVec.ofNat 64
    (u.kind.status + (if u.dir then 4 else 0) + s.unitFill f u % 32 * 16 + 8 + c % 128 * 512 + a % 2 ^ 48 * 65536) by
      simp only [State.unitWord, h]; rfl, BitVec.toNat_ofNat]
  cases u.dir <;> simp only [Bool.toNat, cond, if_true, Bool.false_eq_true, if_false] <;> omega

theorem unitWord_running (s : State) (f : Nat) {u : Unit} (h : u.fault = none) :
    StatusWord s f u 0 (128 * (u.remaining % 2 ^ 24) + 2 ^ 31 * u.partnerId) := by
  refine ⟨by decide, ?_⟩
  have hk := status_lt u.kind
  have hid : u.partnerId < 64 := by unfold Unit.partnerId; split <;> omega
  rw [show s.unitWord f u = BitVec.ofNat 64
    (u.kind.status + (if u.dir then 4 else 0) + s.unitFill f u % 32 * 16 + u.remaining % 2 ^ 24 * 65536 + u.partnerId * 2 ^ 40) by
      simp only [State.unitWord, h, UKind.status, Unit.remaining, Unit.partnerId]; cases u.kind <;> rfl, BitVec.toNat_ofNat]
  cases u.dir <;> simp only [Bool.toNat, cond, if_true, Bool.false_eq_true, if_false] <;> omega

section
variable {s : State} {f : Nat} {u : Unit} {fault high : Nat} (h : StatusWord s f u fault high)
include h

theorem StatusWord.kind : (s.unitWord f u).toNat % 4 = u.kind.status := by
  have hk := status_lt u.kind
  rw [h.word]
  omega

theorem StatusWord.dir : (s.unitWord f u).getLsbD 2 = u.dir := by
  have hk := status_lt u.kind
  rw [BitVec.getLsbD, Nat.testBit_eq_decide_div_mod_eq, h.word]
  cases u.dir <;> simp only [Bool.toNat, cond, decide_eq_true_eq, decide_eq_false_iff_not] <;> omega

theorem StatusWord.faulted : (s.unitWord f u).getLsbD 3 = decide (fault = 1) := by
  have hk := status_lt u.kind
  have hf := h.lowBits
  have hd : u.dir.toNat < 2 := u.dir.toNat_lt
  rw [BitVec.getLsbD, Nat.testBit_eq_decide_div_mod_eq, h.word, decide_eq_decide]
  omega

theorem StatusWord.upper : (s.unitWord f u).toNat / 512 = high := by
  have hk := status_lt u.kind
  have hf := h.lowBits
  have hd : u.dir.toNat < 2 := u.dir.toNat_lt
  rw [h.word]
  omega

end

end Sys2Proof.Machine

/-! ### O16: the instructions of the stream units -/

namespace Sys2Proof.StreamForms
open Sys2Proof.Machine

section
variable {o : Opnd} {s : State} (hs : s.halt = none) (ht : s.onTile = true)
include hs ht

theorem exec_stbind : exec (.stbind o) s = .next (
    if genValid (s.g o.rb) (s.g o.rc) then
      if genInside (genUnit (s.g o.rb) (s.g o.rc)) then s.rebind o.ra (o.halves 2) (genUnit (s.g o.rb) (s.g o.rc))
      else s.trap 0x0E 6 (BitVec.ofNat 64 o.ra)
    else s.trap 0x0E 5 (BitVec.ofNat 64 o.ra)) := by
  refine (act_running hs _).trans (congrArg _ ((tileOnly_inside ht _ _).trans ?_))
  simp only [Bool.not_eq_true', Bool.eq_false_iff, ite_not]
  rfl

theorem exec_stbindc : exec (.stbindc o) s = .next (
    if s.declares s.cur o.uimm 1 then s.rebind o.ra (o.halves 2) { Unit.none with kind := .chan, id := o.uimm }
    else s.trap 0x0E 7 (BitVec.ofNat 64 o.ra)) :=
  (act_running hs _).trans (congrArg _ (tileOnly_inside ht _ _))

theorem exec_stbindn : exec (.stbindn o) s = .next (
    if s.flowTaken s.cur (o.ra % 4) o.uimm then s.trap 0x0E 8 (BitVec.ofNat 64 (o.ra % 4))
    else s.rebind (o.ra % 4) (o.halves 2) { Unit.none with kind := .nbr, id := o.uimm, dir := o.ra.testBit 2 }) :=
  (act_running hs _).trans (congrArg _ (tileOnly_inside ht _ _))

theorem exec_stunbind : exec (.stunbind o) s = .next (
    if s.unitIdle s.cur o.ra then (s.unbind s.cur o.ra).advance (o.halves 2) else s) :=
  (act_running hs _).trans (congrArg _ (tileOnly_inside ht _ _))

theorem exec_ststat : exec (.ststat o) s = .next
    ((s.setG o.ra (s.unitWord s.cur (s.me.units.getD (o.uimm % 4) Unit.none))).advance (o.halves 2)) :=
  (act_running hs _).trans (congrArg _ (tileOnly_inside ht _ _))

end

theorem streamBindings : StreamBindings := by
  intro o s hs ht cfg et stride gen bad addr outside
  have hbind := exec_stbind (o := o) hs ht
  have hchan := exec_stbindc (o := o) hs ht
  have hnbr := exec_stbindn (o := o) hs ht
  have hvalid : genValid (s.g o.rb) (s.g o.rc) = true ↔ ¬ bad := genValid_iff ..
  have hinside : genInside (genUnit (s.g o.rb) (s.g o.rc)) = true ↔ ¬ outside := genInside_iff _
  refine ⟨fun hra hb ho => ?_, fun hb => ?_, fun hb ho => ?_, fun hra hd => ?_, fun hd => ?_, fun hf => ?_, fun hf => ?_⟩
  · rw [if_pos (hvalid.2 hb), if_pos (hinside.2 ho)] at hbind
    exact binds_of_rebind hra (encode_length_page (i := .stbind o) rfl rfl rfl) hbind
  · rw [hbind, if_neg fun hv => hvalid.1 hv hb]
  · rw [hbind, if_pos (hvalid.2 hb), if_neg fun hi => hinside.1 hi ho]
  · rw [if_pos hd] at hchan
    exact binds_of_rebind hra (encode_length_page (i := .stbindc o) rfl rfl rfl) hchan
  · rw [hchan, if_neg (by rw [hd]; decide)]
  · rw [if_neg (by rw [hf]; decide)] at hnbr
    exact binds_of_rebind (Nat.mod_lt _ (by decide)) (encode_length_page (i := .stbindn o) rfl rfl rfl) hnbr
  · rw [hnbr, if_pos hf]

theorem streamUnbindAndStatus : StreamUnbindAndStatus := by
  intro o s hs ht u
  have hend := exec_stunbind (o := o) hs ht
  refine ⟨fun hra hidle => ?ends, fun hidle => by rw [hend, if_neg (by rw [hidle]; decide)], _, s.unitWord s.cur u, exec_ststat hs ht,
    setG_advance_writesG s o.ra _ (encode_length_page (i := .ststat o) rfl rfl rfl), ?status⟩
  case ends =>
    rw [if_pos hidle] at hend
    refine ⟨_, _, hend, unbound_unbind s hra, ?_⟩
    rw [← (vacated_unbind s hra).streams.next]
    exact advance_goesTo _ (encode_length_page (i := .stunbind o) rfl rfl rfl)
  case status =>
    cases hfault : u.fault with
    | some ca =>
      have hw := unitWord_fault s s.cur hfault
      have hhigh := hw.upper
      refine ⟨hw.kind, hw.dir, hw.faulted, fun c a hca => ?_, nofun⟩
      obtain rfl := Option.some.inj hca
      omega
    | none =>
      have hw := unitWord_running s s.cur hfault
      have hhigh := hw.upper
      refine ⟨hw.kind, hw.dir, hw.faulted, nofun, fun _ => ⟨?_, ?_⟩⟩
      · change _ = u.remaining % 2 ^ 24
        omega
      · change _ = u.partnerId
        omega

/-- Settles O16: the end of a binding touches the unit, its register and its item's slot alone; the status word's fields lie in
disjoint bits. -/
theorem streamInstructions : Obligations.StreamInstructions := ⟨streamBindings, streamUnbindAndStatus⟩

end Sys2Proof.StreamForms
end

section
/-!
PROOFS. What every step keeps: the words for it, and the rules of maps, parts of the state and outcomes (O58).
-/
namespace Sys2Proof.Machine

/-! ### What a step keeps -/

/-- Memory and the maps stand in their form in `t` if they do in `s`, and nothing of what has left the package is gone
(log 2, log 10). -/
structure KeepsForm (s t : State) : Prop where
  mem     : Memory.wf s.mem = true → Memory.wf t.mem = true
  maps    : s.mapsSorted = true → t.mapsSorted = true
  hostOut : s.hostOut <+: t.hostOut
  msi     : s.msi <+: t.msi
  reports : s.reports <+: t.reports
  ringOut : s.ringOut <+: t.ringOut

/-- Nor does the life cycle move, nor a scrub end.  All operations of the machine but LCREQ and HBM_SCRUB_END are of this
kind. -/
structure Keeps (s t : State) : Prop extends KeepsForm s t where
  life : t.life = s.life
  wipe : s.wipe = true → t.wipe = true

/-- What a step may do to the life cycle (spec/16 R369, R370). -/
structure Goes (s t : State) : Prop extends KeepsForm s t where
  life : t.life = s.life ∨ (t.life = s.life + 1 ∧ t.life ≤ 3 ∧ t.wipe = true)

/-- Every next state that an outcome answers has come from `s` as a step may bring it. -/
def Leads (s : State) (o : Out) : Prop := ∀ t, o = .next t → Goes s t

theorem KeepsForm.refl (s : State) : KeepsForm s s :=
  ⟨id, id, List.prefix_rfl, List.prefix_rfl, List.prefix_rfl, List.prefix_rfl⟩

theorem KeepsForm.trans {s t u : State} (h : KeepsForm s t) (k : KeepsForm t u) : KeepsForm s u :=
  ⟨k.mem ∘ h.mem, k.maps ∘ h.maps, h.hostOut.trans k.hostOut, h.msi.trans k.msi, h.reports.trans k.reports,
    h.ringOut.trans k.ringOut⟩

theorem Keeps.refl (s : State) : Keeps s s := ⟨.refl s, rfl, id⟩

theorem Keeps.trans {s t u : State} (h : Keeps s t) (k : Keeps t u) : Keeps s u :=
  ⟨h.toKeepsForm.trans k.toKeepsForm, k.life.trans h.life, k.wipe ∘ h.wipe⟩

theorem Keeps.goes {s t : State} (h : Keeps s t) : Goes s t := ⟨h.toKeepsForm, .inl h.life⟩

/-- A step whose end keeps what it found. -/
theorem Goes.keeps {s t u : State} (h : Goes s t) (k : Keeps t u) : Goes s u :=
  ⟨h.toKeepsForm.trans k.toKeepsForm,
    h.life.imp (k.life.trans ·) fun ⟨hnext, hle, hwipe⟩ => ⟨k.life.trans hnext, k.life ▸ hle, k.wipe hwipe⟩⟩

/-! ### Outcomes -/

section
variable {s₀ s t : State} {o o' : Out}

theorem Leads.next (hk : Keeps s₀ t) : Leads s₀ (.next t) := by rintro _ ⟨⟩; exact hk.goes

theorem Leads.fault {r : Fault} : Leads s₀ (.fault r) := nofun

theorem Leads.act_goes (hk : Goes s₀ t) : Leads s₀ (s.act t) := by
  unfold State.act
  split
  · exact .fault
  · rintro _ ⟨⟩; exact hk

theorem Leads.act (hk : Keeps s₀ t) : Leads s₀ (s.act t) := .act_goes hk.goes

theorem Leads.ite {c : Prop} [Decidable c] (h : Leads s₀ o) (h' : Leads s₀ o') : Leads s₀ (if c then o else o') := by
  split
  · exact h
  · exact h'

theorem Leads.onNext {g : State → State} (h : Leads s₀ o) (hg : ∀ u, Keeps u (g u)) : Leads s₀ (onNext o g) := by
  cases o with
  | next u => rintro _ ⟨⟩; exact (h u rfl).keeps (hg u)
  | fault r => nofun
  | refused r => nofun

end

/-! ### Maps -/

theorem mapsSorted_iff {s : State} : s.mapsSorted = true ↔
    sorted s.frames = true ∧ sorted s.cores = true ∧ sorted s.tiles = true ∧ sorted s.clusters = true ∧
    sorted s.power = true ∧ sorted s.accums = true ∧ sorted s.poison = true ∧ sorted s.windows = true ∧
    sorted s.slices = true ∧ sorted s.regs = true ∧ sorted s.launches = true ∧ sorted s.arrivals = true ∧
    sorted s.share = true ∧ sorted s.chans = true ∧ sorted s.svars = true ∧ sorted s.tags = true ∧
    sorted s.posters = true ∧ sorted s.integrity = true ∧ sorted s.twoPhase = true ∧ sorted s.slotErr = true ∧
    sorted s.ring = true := by
  simp only [State.mapsSorted, Bool.and_eq_true, and_assoc]

section
variable {α : Type} {m : SMap α}

/-- A map whose keys are those of a sorted map, in their order, is sorted. -/
theorem sorted_iff_pairwise : sorted m = true ↔ (m.map Prod.fst).Pairwise (· < ·) := by
  induction m with
  | nil => simp [sorted]
  | cons c t ih =>
    obtain ⟨k, x⟩ := c
    simp only [sorted_cons, ih, List.map_cons, List.pairwise_cons, List.forall_mem_map, above]

/-- `m'` stands in order if `m` does. -/
def KeepsOrder {α : Type} (m m' : SMap α) : Prop := sorted m = true → sorted m' = true

theorem KeepsOrder.imp {m'} (h : KeepsOrder m m') : sorted m = true → sorted m' = true := h

theorem KeepsOrder.put {n x} : KeepsOrder m (put m n x) := fun h => sorted_put h n x

theorem KeepsOrder.drop {n} : KeepsOrder m (drop m n) := fun h => sorted_drop h n

theorem KeepsOrder.filter {p} : KeepsOrder m (m.filter p) := fun h => sorted_filter h p

theorem KeepsOrder.nil : KeepsOrder m [] := fun _ => rfl

theorem sorted_mapVals (m : SMap α) (g : Nat → α → α) : sorted (mapVals g m) = sorted m := by
  have hkeys : (mapVals g m).map Prod.fst = m.map Prod.fst := by simp [mapVals]
  rw [Bool.eq_iff_iff, sorted_iff_pairwise, sorted_iff_pairwise, hkeys]

theorem KeepsOrder.mapVals {g} : KeepsOrder m (mapVals g m) := (sorted_mapVals m g).trans

theorem KeepsOrder.putFlag {m : SMap Bool} {n b} : KeepsOrder m (putFlag m n b) := by
  unfold Machine.putFlag
  split
  · exact .put
  · exact .drop

/-- Updates that each keep the order keep it together. -/
theorem KeepsOrder.foldl {β : Type} {l : List β} {g : SMap α → β → SMap α} (hg : ∀ m x, KeepsOrder m (g m x)) :
    KeepsOrder m (l.foldl g m) :=
  fun h => List.foldlRecOn l g h fun m hm x _ => hg m x hm

end

section
variable {s₀ s : State} (hk : Keeps s₀ s)
include hk

/-! ### Parts of State -/

/-- The claim speaks of none of these parts. -/
theorem Keeps.rest {tape turn cur ck fk ckRate fkRate fresh accs resvs barriers arrs unfenced olds wakes faults fids items uposts
    images keys placing serials fwOk fwDigest idKey d2dBad halt notices ringPos ringN ringSet ringCfg farDown} :
    Keeps s₀ { s with
      tape := tape, turn := turn, cur := cur, ck := ck, fk := fk, ckRate := ckRate, fkRate := fkRate, fresh := fresh,
      accs := accs, resvs := resvs, barriers := barriers, arrs := arrs, unfenced := unfenced, olds := olds, wakes := wakes,
      faults := faults, fids := fids, items := items, uposts := uposts, images := images, keys := keys, placing := placing,
      serials := serials, fwOk := fwOk, fwDigest := fwDigest, idKey := idKey, d2dBad := d2dBad, halt := halt,
      notices := notices, ringPos := ringPos, ringN := ringN, ringSet := ringSet, ringCfg := ringCfg, farDown := farDown } :=
  ⟨⟨hk.mem, hk.maps, hk.hostOut, hk.msi, hk.reports, hk.ringOut⟩, hk.life, hk.wipe⟩

/-- A state that differs in its maps, which stand in order, and in the parts of which the claim does not speak. -/
theorem Keeps.ofMaps {t : State} (hmaps : s.mapsSorted = true → t.mapsSorted = true)
    (hrest : (t.mem, t.life, t.wipe, t.hostOut, t.msi, t.reports, t.ringOut) =
      (s.mem, s.life, s.wipe, s.hostOut, s.msi, s.reports, s.ringOut)) : Keeps s₀ t := by
  simp only [Prod.mk.injEq] at hrest
  obtain ⟨hmem, hlife, hwipe, hhost, hmsi, hreports, hring⟩ := hrest
  exact ⟨⟨hmem ▸ hk.mem, hmaps ∘ hk.maps, hhost ▸ hk.hostOut, hmsi ▸ hk.msi, hreports ▸ hk.reports, hring ▸ hk.ringOut⟩,
    hlife.trans hk.life, hwipe ▸ hk.wipe⟩

theorem Keeps.memory {m} (hm : Memory.wf s.mem = true → Memory.wf m = true) : Keeps s₀ { s with mem := m } :=
  ⟨⟨hm ∘ hk.mem, hk.maps, hk.hostOut, hk.msi, hk.reports, hk.ringOut⟩, hk.life, hk.wipe⟩

theorem Keeps.wiping : Keeps s₀ { s with wipe := true } :=
  ⟨⟨hk.mem, hk.maps, hk.hostOut, hk.msi, hk.reports, hk.ringOut⟩, hk.life, fun _ => rfl⟩

theorem Keeps.hostOuts {l} : Keeps s₀ { s with hostOut := s.hostOut ++ l } :=
  ⟨⟨hk.mem, hk.maps, hk.hostOut.trans (List.prefix_append ..), hk.msi, hk.reports, hk.ringOut⟩, hk.life, hk.wipe⟩

theorem Keeps.msis {l} : Keeps s₀ { s with msi := s.msi ++ l } :=
  ⟨⟨hk.mem, hk.maps, hk.hostOut, hk.msi.trans (List.prefix_append ..), hk.reports, hk.ringOut⟩, hk.life, hk.wipe⟩

theorem Keeps.reportss {l} : Keeps s₀ { s with reports := s.reports ++ l } :=
  ⟨⟨hk.mem, hk.maps, hk.hostOut, hk.msi, hk.reports.trans (List.prefix_append ..), hk.ringOut⟩, hk.life, hk.wipe⟩

theorem Keeps.ringOuts {l} : Keeps s₀ { s with ringOut := s.ringOut ++ l } :=
  ⟨⟨hk.mem, hk.maps, hk.hostOut, hk.msi, hk.reports, hk.ringOut.trans (List.prefix_append ..)⟩, hk.life, hk.wipe⟩

theorem Keeps.frames {m} (hm : KeepsOrder s.frames m) : Keeps s₀ { s with frames := m } :=
  hk.ofMaps (fun h => by simp_all [mapsSorted_iff, hm.imp]) rfl

theorem Keeps.cores {m} (hm : KeepsOrder s.cores m) : Keeps s₀ { s with cores := m } :=
  hk.ofMaps (fun h => by simp_all [mapsSorted_iff, hm.imp]) rfl

theorem Keeps.tiles {m} (hm : KeepsOrder s.tiles m) : Keeps s₀ { s with tiles := m } :=
  hk.ofMaps (fun h => by simp_all [mapsSorted_iff, hm.imp]) rfl

theorem Keeps.clusters {m} (hm : KeepsOrder s.clusters m) : Keeps s₀ { s with clusters := m } :=
  hk.ofMaps (fun h => by simp_all [mapsSorted_iff, hm.imp]) rfl

theorem Keeps.power {m} (hm : KeepsOrder s.power m) : Keeps s₀ { s with power := m } :=
  hk.ofMaps (fun h => by simp_all [mapsSorted_iff, hm.imp]) rfl

theorem Keeps.accums {m} (hm : KeepsOrder s.accums m) : Keeps s₀ { s with accums := m } :=
  hk.ofMaps (fun h => by simp_all [mapsSorted_iff, hm.imp]) rfl

theorem Keeps.poison {m} (hm : KeepsOrder s.poison m) : Keeps s₀ { s with poison := m } :=
  hk.ofMaps (fun h => by simp_all [mapsSorted_iff, hm.imp]) rfl

theorem Keeps.windows {m} (hm : KeepsOrder s.windows m) : Keeps s₀ { s with windows := m } :=
  hk.ofMaps (fun h => by simp_all [mapsSorted_iff, hm.imp]) rfl

theorem Keeps.slices {m} (hm : KeepsOrder s.slices m) : Keeps s₀ { s with slices := m } :=
  hk.ofMaps (fun h => by simp_all [mapsSorted_iff, hm.imp]) rfl

theorem Keeps.regs {m} (hm : KeepsOrder s.regs m) : Keeps s₀ { s with regs := m } :=
  hk.ofMaps (fun h => by simp_all [mapsSorted_iff, hm.imp]) rfl

theorem Keeps.launches {m} (hm : KeepsOrder s.launches m) : Keeps s₀ { s with launches := m } :=
  hk.ofMaps (fun h => by simp_all [mapsSorted_iff, hm.imp]) rfl

theorem Keeps.arrivals {m} (hm : KeepsOrder s.arrivals m) : Keeps s₀ { s with arrivals := m } :=
  hk.ofMaps (fun h => by simp_all [mapsSorted_iff, hm.imp]) rfl

theorem Keeps.share {m} (hm : KeepsOrder s.share m) : Keeps s₀ { s with share := m } :=
  hk.ofMaps (fun h => by simp_all [mapsSorted_iff, hm.imp]) rfl

theorem Keeps.chans {m} (hm : KeepsOrder s.chans m) : Keeps s₀ { s with chans := m } :=
  hk.ofMaps (fun h => by simp_all [mapsSorted_iff, hm.imp]) rfl

theorem Keeps.svars {m} (hm : KeepsOrder s.svars m) : Keeps s₀ { s with svars := m } :=
  hk.ofMaps (fun h => by simp_all [mapsSorted_iff, hm.imp]) rfl

theorem Keeps.tags {m} (hm : KeepsOrder s.tags m) : Keeps s₀ { s with tags := m } :=
  hk.ofMaps (fun h => by simp_all [mapsSorted_iff, hm.imp]) rfl

theorem Keeps.posters {m} (hm : KeepsOrder s.posters m) : Keeps s₀ { s with posters := m } :=
  hk.ofMaps (fun h => by simp_all [mapsSorted_iff, hm.imp]) rfl

theorem Keeps.integrity {m} (hm : KeepsOrder s.integrity m) : Keeps s₀ { s with integrity := m } :=
  hk.ofMaps (fun h => by simp_all [mapsSorted_iff, hm.imp]) rfl

theorem Keeps.twoPhase {m} (hm : KeepsOrder s.twoPhase m) : Keeps s₀ { s with twoPhase := m } :=
  hk.ofMaps (fun h => by simp_all [mapsSorted_iff, hm.imp]) rfl

theorem Keeps.slotErr {m} (hm : KeepsOrder s.slotErr m) : Keeps s₀ { s with slotErr := m } :=
  hk.ofMaps (fun h => by simp_all [mapsSorted_iff, hm.imp]) rfl

theorem Keeps.ring {m} (hm : KeepsOrder s.ring m) : Keeps s₀ { s with ring := m } :=
  hk.ofMaps (fun h => by simp_all [mapsSorted_iff, hm.imp]) rfl

/-! ### Branches and folds -/

theorem Keeps.ite {c : Prop} [Decidable c] {t : State} (ht : Keeps s₀ t) : Keeps s₀ (if c then s else t) := by
  split
  · exact hk
  · exact ht

theorem Keeps.foldl {α : Type} {l : List α} {g : State → α → State} (hg : ∀ u x, Keeps s₀ u → Keeps s₀ (g u x)) :
    Keeps s₀ (l.foldl g s) :=
  List.foldlRecOn l g hk fun u hu x _ => hg u x hu

end

section
variable {s₀ : State} {α : Type} {p : State × α}

theorem Keeps.ite_fst {c : Prop} [Decidable c] {q : State × α} (hp : Keeps s₀ p.1) (hq : Keeps s₀ q.1) :
    Keeps s₀ (if c then p else q).1 := by
  split
  · exact hp
  · exact hq

theorem Keeps.foldl_fst {β : Type} {l : List β} {g : State × α → β → State × α} (hk : Keeps s₀ p.1)
    (hg : ∀ u x, Keeps s₀ u.1 → Keeps s₀ (g u x).1) : Keeps s₀ (l.foldl g p).1 :=
  List.foldlRecOn l g (motive := fun u => Keeps s₀ u.1) hk fun u hu x _ => hg u x hu

theorem Keeps.pair {u : State} {a : α} (hk : Keeps s₀ u) : Keeps s₀ (u, a).1 := hk

/-- The state of a pair that a match has taken apart. -/
theorem Keeps.left {u a} (he : p = (u, a)) (hk : Keeps s₀ p.1) : Keeps s₀ u := by rwa [he] at hk

end

end Sys2Proof.Machine
end

section
/-!
PROOFS. What every step keeps: the accessors of the state, memory, accesses, launches and traps each keep the form of
memory and of the maps, the life cycle, and what has left the package (O58; spec/09 R197, spec/16 R369).
-/
namespace Sys2Proof.Machine

section
variable {s₀ s : State} (hk : Keeps s₀ s)
include hk

/-! ### State and maps -/

theorem Keeps.setFrame {f x} : Keeps s₀ (s.setFrame f x) := hk.frames .put
theorem Keeps.updFrame {f x} : Keeps s₀ (s.updFrame f x) := hk.setFrame
theorem Keeps.setCore {k x} : Keeps s₀ (s.setCore k x) := hk.cores .put
theorem Keeps.updCore {k x} : Keeps s₀ (s.updCore k x) := hk.setCore
theorem Keeps.setTile {t x} : Keeps s₀ (s.setTile t x) := hk.tiles .put
theorem Keeps.updTile {t x} : Keeps s₀ (s.updTile t x) := hk.setTile
theorem Keeps.setCluster {c x} : Keeps s₀ (s.setCluster c x) := hk.clusters .put
theorem Keeps.updCluster {c x} : Keeps s₀ (s.updCluster c x) := hk.setCluster
theorem Keeps.setSlice {n x} : Keeps s₀ (s.setSlice n x) := hk.slices .put
theorem Keeps.setEntry {e x} : Keeps s₀ (s.setEntry e x) := hk.launches .put
theorem Keeps.updEntry {e x} : Keeps s₀ (s.updEntry e x) := hk.setEntry
theorem Keeps.setChan {pcl c x} : Keeps s₀ (s.setChan pcl c x) := hk.chans .put
theorem Keeps.setTag {t x} : Keeps s₀ (s.setTag t x) := hk.tags .put
theorem Keeps.setAccum {k n x} : Keeps s₀ (s.setAccum k n x) := hk.accums .put
theorem Keeps.updMe {x} : Keeps s₀ (s.updMe x) := hk.updFrame
theorem Keeps.setG {n w} : Keeps s₀ (s.setG n w) := hk.updMe
theorem Keeps.setVregOf {f n w gang} : Keeps s₀ (s.setVregOf f n w gang) := .ite hk.updFrame.updFrame hk.updFrame
theorem Keeps.setVreg {f n w} : Keeps s₀ (s.setVreg f n w) := hk.setVregOf
theorem Keeps.setPreg {f n w} : Keeps s₀ (s.setPreg f n w) := .ite hk.updFrame.updFrame hk.updFrame
theorem Keeps.setReg {r w} : Keeps s₀ (s.setReg r w) := hk.regs .put
theorem Keeps.setRegBits {r m} : Keeps s₀ (s.setRegBits r m) := hk.setReg
theorem Keeps.clearRegBits {r m} : Keeps s₀ (s.clearRegBits r m) := hk.setReg

/-! ### Memory and arithmetic state -/

theorem Keeps.setByte {k b} : Keeps s₀ (s.setByte k b) := hk.memory (wf_putCanon · k b)

theorem Keeps.writeN {k v mask n} : Keeps s₀ (s.writeN k v mask n) := by
  induction n generalizing s k v mask with
  | zero => exact hk
  | succ n ih => exact ih (.ite hk.setByte hk)

theorem Keeps.writeBytes {k bs} : Keeps s₀ (s.writeBytes k bs) := by
  induction bs generalizing s k with
  | nil => exact hk
  | cons b t ih => exact ih hk.setByte

theorem Keeps.zeroBytes {lo hi} : Keeps s₀ (s.zeroBytes lo hi) := hk.memory (wf_filter · _)
theorem Keeps.setPoison {k b} : Keeps s₀ (s.setPoison k b) := hk.poison .putFlag
theorem Keeps.clearPoison {lo hi} : Keeps s₀ (s.clearPoison lo hi) := hk.poison .filter

theorem Keeps.poisonEvent {f va} : Keeps s₀ (s.poisonEvent f va) := by
  dsimp only [State.poisonEvent]
  split
  · exact hk
  · exact .ite hk hk.updCore

theorem Keeps.breakResv {loc} : Keeps s₀ (s.breakResv loc) := hk.rest
theorem Keeps.hitWatches {loc} : Keeps s₀ (s.hitWatches loc) := hk.rest
theorem Keeps.glazeNote {key bs} : Keeps s₀ (s.glazeNote key bs) := hk.tiles .mapVals
theorem Keeps.poisonL1 {key} : Keeps s₀ (s.poisonL1 key) := hk.setPoison.tiles .mapVals

theorem Keeps.noteOld {launch key loc} : Keeps s₀ (s.noteOld launch key loc) := by
  dsimp only [State.noteOld]
  split
  · exact .ite hk hk.rest
  · exact hk

theorem Keeps.ownOlds {n q} : Keeps s₀ (s.ownOlds n q) := hk.rest
theorem Keeps.settleOlds {n} : Keeps s₀ (s.settleOlds n) := hk.rest

theorem Keeps.performWrite {who va key loc size data mask} : Keeps s₀ (s.performWrite who va key loc size data mask) := by
  unfold State.performWrite
  extract_lets full was s1 s2 s3
  have h1 : Keeps s₀ s1 := hk.noteOld.writeN
  have h3 : Keeps s₀ s3 := .hitWatches (.breakResv (.ite (.ite h1.setPoison h1) (.ite h1.poisonEvent h1)))
  exact .ite h3.glazeNote h3

theorem Keeps.noteSpan {key len} : Keeps s₀ (s.noteSpan key len) := .ite (hk.rest.foldl fun _ _ hu => hu.glazeNote) hk.rest
theorem Keeps.noteHost {va} : Keeps s₀ (s.noteHost va) := hk.breakResv.hitWatches
theorem Keeps.installLeaf {sl va crumb e2 leaf} : Keeps s₀ (s.installLeaf sl va crumb e2 leaf) := hk.setSlice

theorem Keeps.translate {sl va crumb} : Keeps s₀ (s.translate sl va crumb).1 := by
  unfold State.translate
  split
  · exact hk
  · split
    · exact hk
    · exact hk.installLeaf

theorem Keeps.updLine {va x} : Keeps s₀ (s.updLine va x) := hk.setSlice
theorem Keeps.copyLine {src dst} : Keeps s₀ (s.copyLine src dst) := hk.writeBytes.foldl fun _ _ hu => hu.setPoison
theorem Keeps.dropLineBytes {la} : Keeps s₀ (s.dropLineBytes la) := hk.zeroBytes.clearPoison
theorem Keeps.writeBack {sl l} : Keeps s₀ (s.writeBack sl l) := .ite hk.copyLine.setSlice hk
theorem Keeps.evict {sl l} : Keeps s₀ (s.evict sl l) := hk.writeBack.dropLineBytes.setSlice
theorem Keeps.countPinByp {sl part} : Keeps s₀ (s.countPinByp sl part) := .ite hk hk.setReg

theorem Keeps.fillLine {va part cp crumb leaf} : Keeps s₀ (s.fillLine va part cp crumb leaf).1 := by
  dsimp only [State.fillLine]
  split
  · exact hk.countPinByp
  · refine .pair (.setSlice (.copyLine ?_))
    split
    · exact hk.evict
    · exact hk

theorem Keeps.touchLine {va cp} : Keeps s₀ (s.touchLine va cp) := hk.updLine

theorem Keeps.reach {va part cp crumb} : Keeps s₀ (s.reach va part cp crumb).1 := by
  unfold State.reach
  split
  · exact hk.touchLine
  · split
    · next he => exact hk.translate.left he
    · next he =>
        have hu1 := hk.translate.left he
        refine .ite_fst hu1 (.ite_fst hu1 ?_)
        split
        · next he => exact hu1.fillLine.left he
        · next he => exact hu1.fillLine.left he

theorem Keeps.pageHand {va crumb} : Keeps s₀ (s.pageHand va crumb).1 := by
  unfold State.pageHand
  split
  · exact hk
  · split
    · next he => exact hk.translate.left he
    · next he => exact hk.translate.left he

theorem Keeps.markDirty {va} : Keeps s₀ (s.markDirty va) := hk.updLine
theorem Keeps.draw : Keeps s₀ s.draw.1 := hk.rest
theorem Keeps.toHost {l} : Keeps s₀ (s.toHost l).1 := .ite_fst hk.draw hk.draw.hostOuts

theorem Keeps.globRead {va n part cp crumb} : Keeps s₀ (s.globRead va n part cp crumb).1 := by
  dsimp only [State.globRead]
  split
  · next he => exact hk.reach.left he
  · next he => exact (hk.reach.left he).draw
  · next he =>
      have hu := hk.reach.left he
      exact .ite_fst hu hu

theorem Keeps.globWrite {who va n part cp crumb data mask} : Keeps s₀ (s.globWrite who va n part cp crumb data mask).1 := by
  unfold State.globWrite
  split
  · next he => exact hk.reach.left he
  · next he => exact (hk.reach.left he).hostOuts
  · next he => exact (hk.reach.left he).performWrite.markDirty

/-! ### Rights and translation -/

theorem Keeps.plbInstall {core k v} : Keeps s₀ (s.plbInstall core k v) := hk.updCore

theorem Keeps.tableWord {f a} : Keeps s₀ (s.tableWord f a).1 := by
  unfold State.tableWord
  split
  · next he => exact hk.globRead.left he
  · next he => exact hk.globRead.left he

theorem Keeps.tableHeader {f} : Keeps s₀ (s.tableHeader f).1 := by
  dsimp only [State.tableHeader]
  split
  · exact hk
  · split
    · next he => exact (hk.tableWord.left he).plbInstall
    · next he => exact hk.tableWord.left he

theorem Keeps.scanTable {f va a low n} : Keeps s₀ (s.scanTable f va a low n).1 := by
  induction n generalizing s a low with
  | zero => exact hk
  | succ n ih =>
    unfold State.scanTable
    split
    · next he => exact hk.tableWord.left he
    · next he =>
        have hu := hk.tableWord.left he
        split
        · exact .ite_fst hu (ih hu)
        · exact ih hu

omit hk in
theorem Keeps.rightsOutcome {need} {p : State × Option Nat} (hp : Keeps s₀ p.1) : Keeps s₀ (rightsOutcome need p).1 := by
  unfold Machine.rightsOutcome
  split <;> exact hp

theorem Keeps.globRights {f va} : Keeps s₀ (s.globRights f va).1 := by
  dsimp only [State.globRights]
  refine .ite_fst hk ?_
  split
  · exact hk
  · split
    · next he => exact hk.tableHeader.left he
    · next he =>
        have hu1 := hk.tableHeader.left he
        split
        · next he => exact hu1.scanTable.left he
        · next he => exact hu1.scanTable.left he
        · next he => exact (hu1.scanTable.left he).plbInstall

theorem Keeps.hdrRights {f c} : Keeps s₀ (s.hdrRights f c).1 := by
  unfold State.hdrRights
  refine .ite_fst hk ?_
  split
  · next he => exact hk.tableHeader.left he
  · next he => exact hk.tableHeader.left he

theorem Keeps.checkAddr {f ea size need k} : Keeps s₀ (s.checkAddr f ea size need k).1 := by
  dsimp only [State.checkAddr]
  split
  · refine .ite_fst hk (.ite_fst hk ?_)
    split
    · exact hk
    · exact hk
  · exact hk
  · exact .ite_fst hk hk.hdrRights.rightsOutcome
  · exact hk.globRights.rightsOutcome
  · split
    · exact hk
    · exact .ite_fst hk hk.hdrRights.rightsOutcome
  · split
    · exact hk
    · exact .ite_fst hk hk.hdrRights.rightsOutcome

theorem Keeps.checkSpan {f ea size need k} : Keeps s₀ (s.checkSpan f ea size need k).1 := by
  unfold State.checkSpan
  split
  · next he => exact hk.checkAddr.left he
  · next he =>
      have hu := hk.checkAddr.left he
      exact .ite_fst hu hu.checkAddr

/-! ### Streams of a frame -/

theorem Keeps.setUnit {f n x} : Keeps s₀ (s.setUnit f n x) := hk.updFrame
theorem Keeps.setLinkWords {core key l} : Keeps s₀ (s.setLinkWords core key l) := hk.updCluster
theorem Keeps.pushLink {core side ws} : Keeps s₀ (s.pushLink core side ws) := hk.setLinkWords

theorem Keeps.takeUnit {f n x} : Keeps s₀ (s.takeUnit f n x) := by
  dsimp only [State.takeUnit]
  split
  · exact hk
  · exact hk.setUnit
  · exact hk.setChan.setUnit
  · exact .ite hk.setLinkWords.pushLink hk.setLinkWords

theorem Keeps.takeUnits {f reads} : Keeps s₀ (s.takeUnits f reads) := by
  unfold State.takeUnits
  refine hk.foldl fun _ _ hu => ?_
  refine .ite ?_ hu
  split
  · exact hu.takeUnit
  · exact hu

theorem Keeps.queueStores {f n x seq v ready} : Keeps s₀ (s.queueStores f n x seq v ready) := hk.setUnit
theorem Keeps.pushUnit {f x v gang} : Keeps s₀ (s.pushUnit f x v gang) := hk.pushLink

theorem Keeps.offerUnit {f n x seq v} : Keeps s₀ (s.offerUnit f n x seq v) := by
  unfold State.offerUnit
  split
  · exact hk.queueStores
  · exact hk.pushUnit
  · exact hk

theorem Keeps.dstV {f r seq v} : Keeps s₀ (s.dstV f r seq v) := by
  unfold State.dstV
  split
  · exact hk.offerUnit
  · exact hk.setVreg

theorem Keeps.reserveV {f r seq} : Keeps s₀ (s.reserveV f r seq) := by
  unfold State.reserveV
  split
  · exact .ite hk.queueStores hk
  · exact hk

theorem Keeps.loadV {f r seq v gang} : Keeps s₀ (s.loadV f r seq v gang) := by
  unfold State.loadV
  split
  · split
    · exact hk.setUnit
    · exact hk.pushUnit
    · exact hk
  · exact hk.setVregOf

theorem Keeps.withdrawV {f r seq} : Keeps s₀ (s.withdrawV f r seq) := by
  unfold State.withdrawV
  split
  · exact hk.setUnit
  · exact hk

/-! ### Accesses -/

theorem Keeps.setPart {f seq i p} : Keeps s₀ (s.setPart f seq i p) := hk.rest
theorem Keeps.dropAcc {f seq} : Keeps s₀ (s.dropAcc f seq) := hk.rest
theorem Keeps.report {f l} : Keeps s₀ (s.report f l) := hk.updFrame

theorem Keeps.settle {f seq} : Keeps s₀ (s.settle f seq) := by
  dsimp only [State.settle]
  split
  · exact hk
  · refine .ite ?_ hk
    split
    · exact hk.dropAcc.report
    · exact hk.dropAcc

theorem Keeps.reserve {f loc x} : Keeps s₀ (s.reserve f loc x) := hk.rest
theorem Keeps.unreserve {f} : Keeps s₀ (s.unreserve f) := hk.rest

theorem Keeps.performPart {a p key} : Keeps s₀ (s.performPart a p key).1 := by
  dsimp only [State.performPart]
  split
  · exact hk.performWrite
  · exact .ite_fst hk hk
  · exact .ite_fst hk hk.reserve
  · exact .ite_fst hk.unreserve (.ite_fst hk.unreserve.performWrite hk.unreserve)
  · exact .ite_fst hk (.ite_fst hk hk)
  · refine .ite_fst hk (.pair ?_)
    split
    · exact hk.performWrite
    · exact hk

theorem Keeps.performAt {a i p key} : Keeps s₀ (s.performAt a i p key) := hk.performPart.setPart.settle
theorem Keeps.failPart {a i p cause} : Keeps s₀ (s.failPart a i p cause) := hk.setPart.settle
theorem Keeps.stagePart {a i p st} : Keeps s₀ (s.stagePart a i p st) := hk.setPart
theorem Keeps.amoReturn {a fl} : Keeps s₀ (s.amoReturn a fl) := .ite hk hk.updFrame

theorem Keeps.deliver {a} : Keeps s₀ (s.deliver a) := by
  dsimp only [State.deliver]
  split
  · exact hk
  · exact hk.updFrame
  · exact hk.updFrame
  · exact hk.updFrame.amoReturn
  · exact hk.foldl fun _ _ hu1 => hu1.loadV

theorem Keeps.undeliver {a} : Keeps s₀ (s.undeliver a) := by
  unfold State.undeliver
  split
  · exact hk.foldl fun _ _ hu1 => hu1.withdrawV
  · exact hk.amoReturn

theorem Keeps.readIo {a} : Keeps s₀ (s.readIo a) := by
  unfold State.readIo
  refine hk.foldl fun _ _ hu => ?_
  split
  · exact hu
  · split
    · exact hu
    · split
      · exact .ite hu.setPart hu
      · exact .ite hu.setPart hu
      · exact hu

theorem Keeps.returnAcc {a} : Keeps s₀ (s.returnAcc a) := by
  dsimp only [State.returnAcc]
  split
  · exact hk.dropAcc.undeliver.report
  · exact hk.dropAcc.deliver

theorem Keeps.bankTook {pcl off req} : Keeps s₀ (s.bankTook pcl off req) := hk.updCluster
theorem Keeps.l1Write {who va pcl off n req data mask} : Keeps s₀ (s.l1Write who va pcl off n req data mask) :=
  hk.performWrite.bankTook

/-! ### The end of threads and launches -/

theorem Keeps.endHost {a p b} : Keeps s₀ (s.endHost a p b) := by
  dsimp only [State.endHost]
  split
  · exact hk.hostOuts.noteHost
  · exact .ite hk.hostOuts.noteHost hk
  · split
    · exact hk.draw.hostOuts.noteHost
    · exact hk.draw
  · exact hk

theorem Keeps.endAccess {a p} : Keeps s₀ (s.endAccess a p) := by
  dsimp only [State.endAccess]
  split
  · refine .ite hk.performWrite.markDirty ?_
    split
    · next he =>
        have hu1 := hk.translate.left he
        exact .ite hu1.endHost (.ite hu1.performWrite hu1)
    · next he => exact hk.translate.left he
  · exact hk

theorem Keeps.endAccesses {f} : Keeps s₀ (s.endAccesses f) := .rest (hk.foldl fun _ _ hu => hu.foldl fun _ _ hu1 => hu1.endAccess)

theorem Keeps.poisonUpd {x} : Keeps s₀ (s.poisonUpd x) := by
  unfold State.poisonUpd
  refine .ite hk (.ite hk.setPoison ?_)
  split
  · next he => exact (hk.reach.left he).setPoison.markDirty
  · next he => exact hk.reach.left he

theorem Keeps.dropMessages {f} : Keeps s₀ (s.dropMessages f) := by
  dsimp only [State.dropMessages]
  exact hk.ofMaps (fun h => by simp_all [mapsSorted_iff, sorted_mapVals]) rfl

theorem Keeps.freeItem {f x} : Keeps s₀ (s.freeItem f x) := .ite hk.setChan hk

theorem Keeps.unbindAll {f} : Keeps s₀ (s.unbindAll f) := by
  dsimp only [State.unbindAll]
  exact .updFrame (hk.foldl fun _ _ hu => hu.freeItem)

theorem Keeps.clearFrame {f} : Keeps s₀ (s.clearFrame f) := by
  dsimp only [State.clearFrame]
  exact hk.ofMaps (fun h => by simp_all [mapsSorted_iff, sorted_drop, sorted_mapVals]) rfl

theorem Keeps.leaveDomain {f} : Keeps s₀ (s.leaveDomain f) := .ite hk hk.rest
theorem Keeps.endThread {f} : Keeps s₀ (s.endThread f) := hk.leaveDomain.dropMessages.endAccesses.unbindAll.clearFrame
theorem Keeps.clearUrgentAccs {core} : Keeps s₀ (s.clearUrgentAccs core) := hk.setAccum.setAccum
theorem Keeps.freeUrgent {core} : Keeps s₀ (s.freeUrgent core) :=
  .ite hk.endThread.updCore.clearUrgentAccs.updTile hk.endThread.updCore.clearUrgentAccs

theorem Keeps.resumeSlots {core} : Keeps s₀ (s.resumeSlots core) := by
  dsimp only [State.resumeSlots]
  exact .updCore (.rest (hk.foldl fun _ _ hu => hu.updFrame))

theorem Keeps.purgePraline {e} : Keeps s₀ (s.purgePraline e) := by
  have hu : Keeps s₀ ((s.updsOf e).foldl (fun s u => s.poisonUpd u) s) := hk.foldl fun _ _ hu => hu.poisonUpd
  dsimp only [State.purgePraline]
  exact hu.ofMaps (fun h => by simp_all [mapsSorted_iff, sorted_mapVals, sorted_filter]) rfl

theorem Keeps.poisonBatch {sub b} : Keeps s₀ (s.poisonBatch sub b) := hk.foldl fun _ _ hu => hu.setPoison
theorem Keeps.purgeEntry {g} : Keeps s₀ (s.purgeEntry g) := hk.foldl fun _ _ hu => hu.poisonBatch
theorem Keeps.purgeGlaze {e} : Keeps s₀ (s.purgeGlaze e) := .tiles (hk.foldl fun _ _ hu => hu.purgeEntry) .mapVals
theorem Keeps.clearLinks {cores} : Keeps s₀ (s.clearLinks cores) := hk.clusters .mapVals
theorem Keeps.clearAccums {cores urg} : Keeps s₀ (s.clearAccums cores urg) := hk.accums .filter

theorem Keeps.dropLaunchState {e} : Keeps s₀ (s.dropLaunchState e) := by
  dsimp only [State.dropLaunchState]
  exact hk.ofMaps (fun h => by simp_all [mapsSorted_iff, sorted_filter]) rfl

theorem Keeps.releaseFreeze {e} : Keeps s₀ (s.releaseFreeze e) := hk.foldl fun _ _ hu => hu.resumeSlots
theorem Keeps.freeEntry {e} : Keeps s₀ (s.freeEntry e) := hk.setEntry
theorem Keeps.disarm {e} : Keeps s₀ (s.disarm e) := (hk.tags .mapVals).freeEntry
theorem Keeps.notify {cluster kind n} : Keeps s₀ (s.notify cluster kind n) := hk.rest
theorem Keeps.setRing {die r} : Keeps s₀ (s.setRing die r) := hk.ring .put
theorem Keeps.portSend {east m} : Keeps s₀ (s.portSend east m) := hk.setRing
theorem Keeps.sendRound {kind j} : Keeps s₀ (s.sendRound kind j) := hk.foldl fun _ _ hu => hu.portSend
theorem Keeps.sendAbort {j} : Keeps s₀ (s.sendAbort j) := hk.sendRound

theorem Keeps.ringKill {e} : Keeps s₀ (s.ringKill e) :=
  .foldl (.ite (.ite hk (hk.setRing.foldl fun _ _ hu => hu.sendAbort)) (.foldl (.setRing (.ite hk (hk.setRing.foldl fun _ _ hu =>
      hu.sendAbort))) fun _ _ hu => hu.sendAbort)) fun _ _ hu => .ite hu.setTag hu

theorem Keeps.killLaunch {e status cause} : Keeps s₀ (s.killLaunch e status cause) := by
  have hended {fs : List Nat} : Keeps s₀ (fs.foldl (fun s f => if slotOf f = 4 then s.freeUrgent (coreOf f) else s.endThread f)
      ((s.purgePraline e).ringKill e)) := hk.purgePraline.ringKill.foldl fun _ _ hu => .ite hu.freeUrgent hu.endThread
  have hpurged {t : State} {g g'} (hu : Keeps s₀ t) :
      Keeps s₀ { t with cores := mapVals g t.cores, tiles := mapVals g' t.tiles } := (hu.cores .mapVals).tiles .mapVals
  unfold State.killLaunch
  dsimp only
  exact .ite hk.disarm (.ite hk (.updEntry (.releaseFreeze (.dropLaunchState (.clearAccums (.clearLinks (.purgeGlaze (hpurged
      hended))))))))

/-! ### Traps, flags and operands -/

theorem Keeps.advance {n} : Keeps s₀ (s.advance n) := hk.updMe
theorem Keeps.jumpTo {t} : Keeps s₀ (s.jumpTo t) := hk.updMe

theorem Keeps.dropWaits {f} : Keeps s₀ (s.dropWaits f) := by
  dsimp only [State.dropWaits]
  exact hk.ofMaps (fun h => by simp_all [mapsSorted_iff, sorted_mapVals]) rfl

theorem Keeps.recordTrap {f t gsplit} : Keeps s₀ (s.recordTrap f t gsplit) := hk.updFrame.unreserve.dropWaits
theorem Keeps.splitGang {f odd} : Keeps s₀ (s.splitGang f odd) := hk.updFrame.updFrame
theorem Keeps.joinGang {f} : Keeps s₀ (s.joinGang f) := hk.updFrame.updFrame
theorem Keeps.dropHeader {f} : Keeps s₀ (s.dropHeader f) := hk.updCore
theorem Keeps.enterHandler {f} : Keeps s₀ (s.enterHandler f) := hk.updFrame.setFrame.dropHeader.clearUrgentAccs

theorem Keeps.trapThread {f t} : Keeps s₀ (s.trapThread f t) :=
  .ite (.enterHandler (.ite hk.recordTrap.splitGang hk.recordTrap)) (.updCore (.updFrame (.ite hk.recordTrap.splitGang
      hk.recordTrap)))

theorem Keeps.endMgmtServed {f} : Keeps s₀ (s.endMgmtServed f) := hk.endThread.setRegBits

theorem Keeps.handlerFault {hf served cause} : Keeps s₀ (s.handlerFault hf served cause) := by
  dsimp only [State.handlerFault]
  split
  · exact hk.freeUrgent.killLaunch
  · exact hk.freeUrgent.endMgmtServed

theorem Keeps.takeTrap {f t} : Keeps s₀ (s.takeTrap f t) := by
  dsimp only [State.takeTrap]
  split
  · split
    · exact hk.killLaunch
    · exact hk.freeUrgent
  · exact .ite hk.recordTrap.updFrame hk.handlerFault
  · exact .ite hk.recordTrap.updFrame hk.trapThread

theorem Keeps.trap {cause detail addr} : Keeps s₀ (s.trap cause detail addr) := hk.takeTrap
theorem Keeps.trapAfter {cause detail addr} : Keeps s₀ (s.trapAfter cause detail addr) := hk.takeTrap
theorem Keeps.trapIllegal {hs kind} : Keeps s₀ (s.trapIllegal hs kind) := hk.trap
theorem Keeps.illegalValue {i} : Keeps s₀ (s.illegalValue i) := hk.trapIllegal
theorem Keeps.illegalAddr {i addr} : Keeps s₀ (s.illegalAddr i addr) := hk.trap
theorem Keeps.privTrap {i} : Keeps s₀ (s.privTrap i) := hk.trap
theorem Keeps.eret {hf t} : Keeps s₀ (s.eret hf t) :=
  .ite (.ite hk.freeUrgent.updFrame.joinGang hk.freeUrgent.updFrame.updFrame) hk.freeUrgent.updFrame

theorem Keeps.mergeFlags {f l eng} : Keeps s₀ (s.mergeFlags f l eng) := by
  dsimp only [State.mergeFlags]
  split
  · exact hk
  · exact hk.updFrame

theorem Keeps.retire {n l write} (hw : ∀ u, Keeps s₀ u → Keeps s₀ (write u)) : Keeps s₀ (s.retire n l write) := by
  dsimp only [State.retire]
  split
  · exact hk.mergeFlags.trap
  · exact (hw _ hk.mergeFlags).advance

theorem Keeps.observe {l eng} : Keeps s₀ (s.observe l eng) := by
  dsimp only [State.observe]
  split
  · exact hk.mergeFlags.trapAfter
  · exact hk.mergeFlags

theorem Keeps.takeAmo {f} : Keeps s₀ (s.takeAmo f).1 := by
  dsimp only [State.takeAmo]
  split
  · exact hk
  · exact hk.updFrame.mergeFlags

theorem Keeps.mergeAmo {f} : Keeps s₀ (s.mergeAmo f) := by
  unfold State.mergeAmo
  split
  · next he => exact (hk.takeAmo.left he).takeTrap
  · next he => exact hk.takeAmo.left he

theorem Keeps.drawRng {f k} : Keeps s₀ (s.drawRng f k).1 := .pair (.ite hk hk.updFrame)
theorem Keeps.drawStoch {k} : Keeps s₀ (s.drawStoch k).1 := .ite_fst hk.drawRng hk
theorem Keeps.setA {o w} : Keeps s₀ (s.setA o w) := hk.setG.advance

end

end Sys2Proof.Machine
end

section
/-!
PROOFS. What every step keeps: the memory system, the fetch unit and the instructions of a thread (O58).
-/
namespace Sys2Proof.Machine

section
variable {s₀ s : State} (hk : Keeps s₀ s)
include hk

/-! ### Events of the memory system -/

theorem Keeps.makePost {tag part words entry} : Keeps s₀ (s.makePost tag part words entry) := .ite hk.rest hk
theorem Keeps.tryUnpark {f} : Keeps s₀ (s.tryUnpark f) := .ite hk.updFrame hk

theorem Keeps.recordFault {x va crumb wr fetch e} : Keeps s₀ (s.recordFault x va crumb wr fetch e).1 := by
  dsimp only [State.recordFault]
  split
  · exact hk
  · exact .ite_fst hk (.pair hk.rest.makePost)

theorem Keeps.faultRecord {f va crumb wr fetch e} : Keeps s₀ (s.faultRecord f va crumb wr fetch e).1 := hk.recordFault
theorem Keeps.waitRecord {f fid} : Keeps s₀ (s.waitRecord f fid) := hk.updFrame

theorem Keeps.execBankGrant {cluster bank} : Leads s₀ (execBankGrant cluster bank s) := by
  dsimp only [Machine.execBankGrant]
  refine .act ?_
  split
  · exact hk
  · split
    · exact .ite hk.failPart hk.updCluster.performAt
    · exact hk

theorem Keeps.performGlob {a i p va key} : Keeps s₀ (s.performGlob a i p va key) :=
  .tryUnpark (.ite hk.performAt.markDirty hk.performAt)

theorem Keeps.execSliceGrant {frame seq part} : Leads s₀ (execSliceGrant frame seq part s) := by
  dsimp only [Machine.execSliceGrant]
  refine .act ?_
  split
  · exact hk
  · split
    · refine .ite hk ?_
      split
      · exact hk.touchLine.performGlob
      · split
        · exact hk.stagePart
        · exact .ite hk.stagePart (.ite (.ite hk.stagePart hk.performGlob) (.ite hk.stagePart (.ite hk.countPinByp.stagePart
            hk.countPinByp.performGlob)))
    · exact hk

theorem Keeps.execL2MissFill {slice line} : Leads s₀ (execL2MissFill slice line s) := by
  dsimp only [Machine.execL2MissFill]
  refine .act (.ite hk ?_)
  split
  · exact hk
  · split
    · exact hk
    · exact .ite hk hk.fillLine

theorem Keeps.execHbmWriteAccept {frame seq part} : Leads s₀ (execHbmWriteAccept frame seq part s) := by
  unfold Machine.execHbmWriteAccept
  refine .act ?_
  split
  · exact hk
  · split
    · refine .ite hk.performGlob ?_
      split
      · exact .ite hk hk.performGlob
      · exact hk.stagePart
    · exact hk

theorem Keeps.execHostStoreComplete {frame seq part ok} : Leads s₀ (execHostStoreComplete frame seq part ok s) := by
  unfold Machine.execHostStoreComplete
  refine .act ?_
  split
  · exact hk
  · split
    · exact hk
    · exact .ite hk (.ite hk.hostOuts.noteHost.setPart.settle.tryUnpark hk.failPart.tryUnpark)

theorem Keeps.execHostReadComplete {frame seq part ok data} : Leads s₀ (execHostReadComplete frame seq part ok data s) := by
  dsimp only [Machine.execHostReadComplete]
  refine .act ?_
  split
  · exact hk
  · split
    · exact hk
    · refine .ite hk (.ite hk.failPart.tryUnpark ?_)
      split
      · refine .tryUnpark (.setPart ?_)
        split
        · exact hk.hostOuts.noteHost
        · exact hk
      · exact hk.reserve.setPart.tryUnpark
      · exact .ite hk.unreserve.hostOuts.noteHost.setPart.tryUnpark hk.unreserve.setPart.tryUnpark
      · exact hk.setPart.tryUnpark
      · exact hk.setPart.tryUnpark

theorem Keeps.execLoadDataReturn {frame seq} : Leads s₀ (execLoadDataReturn frame seq s) := by
  dsimp only [Machine.execLoadDataReturn]
  refine .act ?_
  split
  · exact hk
  · refine .ite hk ?_
    split
    · exact .ite hk.readIo.returnAcc hk.readIo
    · exact hk.readIo

theorem Keeps.takeLate {f} : Keeps s₀ (s.takeLate f) := by
  dsimp only [State.takeLate]
  split
  · exact hk
  · exact hk.updFrame.takeTrap.tryUnpark

theorem Keeps.execLateOutcomeTrap {frame} : Leads s₀ (execLateOutcomeTrap frame s) := .act (.ite hk hk.takeLate)

theorem Keeps.execWaitrsWatchReport {frame seq} : Leads s₀ (execWaitrsWatchReport frame seq s) := by
  unfold Machine.execWaitrsWatchReport
  refine .act ?_
  split
  · exact .ite hk.stagePart hk
  · exact hk

theorem Keeps.execWaitrsReread {frame seq} : Leads s₀ (execWaitrsReread frame seq s) := by
  unfold Machine.execWaitrsReread
  refine .act ?_
  split
  · exact .ite hk.stagePart hk
  · exact hk

theorem Keeps.holdPart {crumb e w} : Keeps s₀ (s.holdPart crumb e w) := by
  dsimp only [State.holdPart]
  split
  · exact hk
  · split
    · next he => exact hk.faultRecord.left he
    · next he =>
        have hu1 := hk.faultRecord.left he
        exact .ite hu1.stagePart hu1.stagePart.waitRecord.report

theorem Keeps.execPageWalk {slice page crumb} : Leads s₀ (execPageWalk slice page crumb s) := by
  unfold Machine.execPageWalk
  refine .act (.ite hk ?_)
  split
  · exact hk.installLeaf
  · exact hk.foldl fun _ _ hu1 => hu1.holdPart

theorem Keeps.fresumeErr {die} : Keeps s₀ (s.fresumeErr die) := hk.setRegBits

theorem Keeps.execFresumeRetry {w die fid} : Leads s₀ (execFresumeRetry w die fid s) := by
  dsimp only [Machine.execFresumeRetry]
  refine .act ?_
  split
  · exact hk.fresumeErr
  · exact hk.rest.foldl fun _ _ hu1 => hu1.updFrame.tryUnpark

theorem Keeps.execFresumeAbandon {w die fid} : Leads s₀ (execFresumeAbandon w die fid s) := by
  dsimp only [Machine.execFresumeAbandon]
  refine .act ?_
  split
  · exact hk.fresumeErr
  · refine hk.rest.foldl fun _ _ hu1 => ?_
    split
    · exact hu1.killLaunch
    · exact hu1.endThread

theorem Keeps.poisonSpan {lo n} : Keeps s₀ (s.poisonSpan lo n) := hk.foldl fun _ _ hu => hu.setPoison
theorem Keeps.countError {k} : Keeps s₀ (s.countError k) := hk.integrity .put

theorem Keeps.softError {key} : Keeps s₀ (s.softError key) := by
  dsimp only [State.softError]
  refine .ite hk.setPoison (.ite ?_ (.ite hk.poisonSpan hk.setPoison))
  split
  · exact hk
  · exact .ite hk.poisonSpan hk.copyLine

theorem Keeps.badLine {die key} : Keeps s₀ (s.badLine die key) := hk.poisonSpan.countError

theorem Keeps.badReturn {f seq line} : Keeps s₀ (s.badReturn f seq line) := by
  dsimp only [State.badReturn]
  split
  · exact hk
  · exact .ite hk hk.rest.countError

theorem Keeps.badHostStore {f seq i} : Keeps s₀ (s.badHostStore f seq i) := by
  dsimp only [State.badHostStore]
  split
  · exact hk
  · split
    · exact hk
    · exact .ite hk.draw.setPart.countError hk

theorem Keeps.execL2Scrub {slice line bad} : Leads s₀ (execL2Scrub slice line bad s) := by
  dsimp only [Machine.execL2Scrub]
  refine .act (.ite hk ?_)
  split
  · exact hk
  · exact .ite (hk.foldl fun _ _ hu1 => hu1.setPoison) hk.copyLine

theorem Keeps.overLines {sp g} (hg : ∀ u, Keeps s₀ u → ∀ k l, Keeps s₀ (g u k l)) : Keeps s₀ (s.overLines sp g) :=
  hk.foldl fun _ _ hu => hu.foldl fun _ _ hu1 => hg _ hu1 _ _
theorem Keeps.l2opStart {w die part g} (hg : ∀ u, Keeps s₀ u → Keeps s₀ (g u)) : Keeps s₀ (s.l2opStart w die part g) :=
  .ite hk (.ite hk.setRegBits (hg _ hk.setRegBits))
theorem Keeps.execL2opClean {w die part} : Leads s₀ (execL2opClean w die part s) :=
  .act (hk.l2opStart (fun _ hu => hu.overLines fun _ hu1 _ _ => hu1.writeBack))
theorem Keeps.execL2opFlush {w die part} : Leads s₀ (execL2opFlush w die part s) :=
  .act (hk.l2opStart (fun _ hu => .slices (hu.overLines (fun _ hu1 _ _ => hu1.evict)) .mapVals))
theorem Keeps.execL2opUnpin {w die part} : Leads s₀ (execL2opUnpin w die part s) :=
  .act (hk.l2opStart fun _ hu => hu.slices .mapVals)
theorem Keeps.execL2opXinv {w die part} : Leads s₀ (execL2opXinv w die part s) :=
  .act (hk.l2opStart fun _ hu => hu.slices .mapVals)
theorem Keeps.execL2opEnd {die part} : Leads s₀ (execL2opEnd die part s) := .act hk.clearRegBits
theorem Keeps.installLine {tiles line bs} : Keeps s₀ (s.installLine tiles line bs) := hk.foldl fun _ _ hu => hu.updTile

theorem Keeps.execIcacheFillInstall {cluster line} : Leads s₀ (execIcacheFillInstall cluster line s) := by
  dsimp only [Machine.execIcacheFillInstall]
  refine .act ?_
  split
  · exact hk
  · refine .ite hk (.ite hk.updCluster.installLine ?_)
    split
    · next he => exact (hk.updCluster.reach.left he).installLine
    · next he => exact (hk.updCluster.reach.left he).rest.installLine
    · next he => exact hk.updCluster.reach.left he

/-! ### The fetch unit -/

theorem Keeps.icacheTouch {tile a} : Keeps s₀ (s.icacheTouch tile a) := hk.updTile

theorem Keeps.requestFill {f a crumb} : Keeps s₀ (s.requestFill f a crumb) := by
  dsimp only [State.requestFill]
  exact hk.updCluster

theorem Keeps.fetchBlock {f a} : Keeps s₀ (s.fetchBlock f a).1 := by
  dsimp only [State.fetchBlock]
  refine .ite_fst ?_ ?_
  · split
    · exact hk.icacheTouch
    · exact hk.requestFill
  · refine .ite_fst hk ?_
    split
    · next he => exact hk.globRights.left he
    · next he =>
        have hu := hk.globRights.left he
        refine .ite_fst hu ?_
        split
        · exact hu.icacheTouch
        · refine .ite_fst hu ?_
          split
          · next he =>
              have hu2 := hu.pageHand.left he
              split
              · next he => exact (hu2.faultRecord.left he).waitRecord
              · next he => exact hu2.faultRecord.left he
          · next he => exact (hu.pageHand.left he).requestFill

theorem Keeps.fetchHalf {f a} : Keeps s₀ (s.fetchHalf f a).1 := by
  unfold State.fetchHalf
  split
  · exact hk
  · split
    · next he => exact .pair (hk.fetchBlock.left he).updFrame
    · next he => exact hk.fetchBlock.left he
    · next he => exact hk.fetchBlock.left he

theorem Keeps.prefetch {f} : Keeps s₀ (s.prefetch f) := by
  unfold State.prefetch
  dsimp only
  split
  · exact hk
  · refine .ite hk ?_
    generalize hp : (if coreOf f = mgmtCore then (s, true) else _ : State × Bool) = p
    have hu : Keeps s₀ p.1 := by
      subst hp
      refine .ite_fst hk (.ite_fst hk ?_)
      split <;> next he => exact hk.globRights.left he
    refine .ite hu ?_
    split
    · exact hu.icacheTouch.updFrame
    · exact .ite hu hu.requestFill

theorem Keeps.fetchChain {f a n} : Keeps s₀ (s.fetchChain f a n).1 := by
  induction n generalizing s a with
  | zero => exact hk
  | succ n ih =>
    unfold State.fetchChain
    split
    · next he => exact hk.fetchHalf.left he
    · next he => exact hk.fetchHalf.left he
    · next he =>
        have hu := hk.fetchHalf.left he
        refine .ite_fst ?_ hu
        split <;> next he => exact (ih hu).left he

theorem Keeps.execIllegalInstruction {frame chain} : Leads s₀ (execIllegalInstruction frame chain s) := by
  dsimp only [Machine.execIllegalInstruction]
  refine .act ?_
  split
  · exact hk.takeTrap
  · exact hk.takeTrap
  · exact hk

theorem Keeps.execInstructionFetchFault {frame addr cause} : Leads s₀ (execInstructionFetchFault frame addr cause s) :=
  .act hk.takeTrap

/-! ### Scalar instructions, branches, loads and atomics -/

theorem Keeps.division {o signed rem} : Keeps s₀ (s.division o signed rem) := hk.retire fun _ hu => hu.setG
theorem Keeps.condBranch {n disp take} : Keeps s₀ (s.condBranch n disp take) := .ite hk.jumpTo hk.advance

theorem Keeps.fetchTarget {t} : Keeps s₀ (s.fetchTarget t).1 := by
  unfold State.fetchTarget
  split
  · next he => exact hk.fetchBlock.left he
  · next he => exact hk.fetchBlock.left he
  · next he => exact hk.fetchBlock.left he

theorem Keeps.indirect {t pad kind go} (hg : ∀ u, Keeps s₀ u → Keeps s₀ (go u)) : Keeps s₀ (s.indirect t pad kind go) := by
  unfold State.indirect
  refine .ite hk.trap (.ite hk.trap ?_)
  split
  · next he => exact (hk.fetchTarget.left he).trap
  · next he => exact hk.fetchTarget.left he
  · next he =>
      have hu := hk.fetchTarget.left he
      exact .ite hu.trap (hg _ hu).jumpTo

theorem Keeps.issueAcc {op m commit rnd areg fl0 ret parts} : Keeps s₀ (s.issueAcc op m commit rnd areg fl0 ret parts) := hk.rest

theorem Keeps.scalarCheck {ea size need k guard} : Keeps s₀ (s.scalarCheck ea size need k guard).1 := by
  unfold State.scalarCheck
  refine .ite_fst hk ?_
  split
  · next he => exact hk.checkAddr.left he
  · next he =>
      have hu := hk.checkAddr.left he
      refine .ite_fst ?_ hu
      split
      · exact hu
      · exact hu

theorem Keeps.load {o m ea size signed} : Keeps s₀ (s.load o m ea size signed) := by
  unfold State.load
  split
  · next he => exact (hk.scalarCheck.left he).trap
  · next he => exact (hk.scalarCheck.left he).issueAcc.advance

theorem Keeps.store {o m ea size} : Keeps s₀ (s.store o m ea size) := by
  unfold State.store
  split
  · next he => exact (hk.scalarCheck.left he).trap
  · next he => exact (hk.scalarCheck.left he).issueAcc.advance

theorem Keeps.execAmo {o} : Leads s₀ (execAmo o s) := by
  dsimp only [Machine.execAmo]
  refine .act (.ite hk.illegalValue ?_)
  split
  · next he => exact (hk.scalarCheck.left he).trap
  · next he =>
      have hu := hk.scalarCheck.left he
      exact .advance (.issueAcc (.ite_fst hu.drawStoch hu))

theorem Keeps.execLr {o} : Leads s₀ (execLr o s) := by
  dsimp only [Machine.execLr]
  refine .act ?_
  split
  · next he => exact (hk.scalarCheck.left he).trap
  · next he => exact (hk.scalarCheck.left he).issueAcc.advance

theorem Keeps.execSc {o} : Leads s₀ (execSc o s) := by
  dsimp only [Machine.execSc]
  refine .act ?_
  split
  · next he => exact (hk.scalarCheck.left he).trap
  · next he => exact (hk.scalarCheck.left he).issueAcc.advance

theorem Keeps.execWaitrs {o} : Leads s₀ (execWaitrs o s) := by
  dsimp only [Machine.execWaitrs]
  refine .act ?_
  split
  · split
    · exact hk.dropAcc.setG.advance
    · exact hk.dropAcc.report
    · exact hk
  · split
    · next he => exact (hk.scalarCheck.left he).trap
    · next he => exact (hk.scalarCheck.left he).issueAcc

/-! ### Vector instructions -/

theorem Keeps.withStreams {reads writes go} (hg : Keeps s₀ go) : Keeps s₀ (s.withStreams reads writes go) := by
  unfold State.withStreams
  split
  · exact hk
  · exact hk.trap
  · exact hg

theorem Keeps.commitV {reads r v} : Keeps s₀ (s.commitV reads r v) := hk.takeUnits.dstV
theorem Keeps.vmap {o reads n w gw parts op} : Keeps s₀ (s.vmap o reads n w gw parts op) :=
  hk.withStreams (hk.drawStoch.retire fun _ hu => hu.commitV)

theorem Keeps.vbin {o parts op} : Keeps s₀ (s.vbin o parts op) := by
  dsimp only [State.vbin]
  exact hk.vmap

theorem Keeps.vacc {o parts op} : Keeps s₀ (s.vacc o parts op) := by
  dsimp only [State.vacc]
  exact hk.vmap

theorem Keeps.vun {o parts op} : Keeps s₀ (s.vun o parts op) := by
  dsimp only [State.vun]
  exact hk.vmap

theorem Keeps.vmove {o pick} : Keeps s₀ (s.vmove o pick) := by
  dsimp only [State.vmove]
  exact hk.vmap

theorem Keeps.vred {o parts op} : Keeps s₀ (s.vred o parts op) := hk.withStreams (hk.drawStoch.retire fun _ hu => hu.commitV)

theorem Keeps.execVtunp {o} : Leads s₀ (execVtunp o s) := by
  dsimp only [Machine.execVtunp]
  refine .act (hk.withStreams ?_)
  split
  · exact hk.mergeFlags.commitV.trap
  · exact hk.mergeFlags.commitV.advance

theorem Keeps.formGang {even odd n} : Keeps s₀ (s.formGang even odd n) := by
  dsimp only [State.formGang]
  exact hk.updFrame.updFrame

theorem Keeps.vecCheck {need align l} : Keeps s₀ (s.vecCheck need align l).1 := by
  induction l generalizing s with
  | nil => exact hk
  | cons p t ih =>
    unfold State.vecCheck
    refine .ite_fst hk ?_
    split
    · next he => exact hk.checkSpan.left he
    · next he =>
        have hu := hk.checkSpan.left he
        split
        · exact hu
        · exact ih hu

omit hk in
theorem Keeps.orTrap {p : State × Option (Nat × Nat × Nat)} {go} (hp : Keeps s₀ p.1) (hg : ∀ u, Keeps s₀ u → Keeps s₀ (go u)) :
    Keeps s₀ (State.orTrap p go) := by
  unfold State.orTrap
  split
  · next u c d a => exact Keeps.trap (s := u) hp
  · next u => exact hg u hp

theorem Keeps.issueVload {o ret parts} : Keeps s₀ (s.issueVload o ret parts) := hk.reserveV.issueAcc.advance
theorem Keeps.issueVstore {o parts} : Keeps s₀ (s.issueVstore o parts) := .advance (.ite hk hk.issueAcc)

theorem Keeps.burst {i o need go} (hg : ∀ u, Keeps s₀ u → Keeps s₀ (go u)) : Keeps s₀ (s.burst i o need go) := by
  unfold State.burst
  refine .ite hk.illegalValue ?_
  split
  · exact hk.trap
  · exact .orTrap hk.vecCheck hg

theorem Keeps.postCheck {f tag} : Keeps s₀ (s.postCheck f tag).1 := by
  dsimp only [State.postCheck]
  split
  · next he => exact hk.hdrRights.rightsOutcome.left he
  · next he => exact hk.hdrRights.rightsOutcome.left he

theorem Keeps.post {o tag} : Keeps s₀ (s.post o tag) := by
  unfold State.post
  refine .ite hk.illegalValue ?_
  split
  · exact hk.trap
  · split
    · next he => exact (hk.postCheck.left he).trap
    · next he =>
        have hu1 := hk.postCheck.left he
        split
        · exact hu1.trap
        · exact hu1.issueVstore

theorem Keeps.execVst {o} : Leads s₀ (execVst o s) := by
  dsimp only [Machine.execVst]
  refine .act (.ite ?_ (hk.withStreams (hk.vecCheck.orTrap fun _ hu => hu.takeUnits.issueVstore)))
  split
  · exact hk.post
  · exact hk.burst fun _ hu1 => hu1.issueVstore

theorem Keeps.gather {o reads addr} : Keeps s₀ (s.gather o reads addr) :=
  hk.withStreams (hk.vecCheck.orTrap fun _ hu => hu.takeUnits.issueVload)

/-! ### Stream instructions -/

theorem Keeps.tileOnly {i go} (hg : Keeps s₀ go) : Keeps s₀ (s.tileOnly i go) := .ite hg hk.illegalValue
theorem Keeps.streamTrap {n reason} : Keeps s₀ (s.streamTrap n reason) := hk.trap

theorem Keeps.unbind {f n} : Keeps s₀ (s.unbind f n) := by
  unfold State.unbind
  split
  · exact .ite hk hk.freeItem.setUnit.setVreg
  · exact hk

theorem Keeps.rebind {n halves x} : Keeps s₀ (s.rebind n halves x) := .ite hk.unbind.setVreg.setUnit.advance hk
theorem Keeps.orderStores {f copy mat} : Keeps s₀ (s.orderStores f copy mat) := hk.updFrame
theorem Keeps.fencex {i o copy mat} : Keeps s₀ (s.fencex i o copy mat) := hk.tileOnly (.ite hk.orderStores.advance hk)
theorem Keeps.updCmd {f serial x} : Keeps s₀ (s.updCmd f serial x) := hk.updFrame

theorem Keeps.popOutcome {e} : Keeps s₀ (s.popOutcome e) := by
  dsimp only [State.popOutcome]
  refine .ite hk ?_
  refine .ite ?_ ?_
  · refine .trapAfter ?_
    split
    · exact hk.mergeFlags.updCmd
    · exact hk.mergeFlags
  · refine .ite ?_ ?_
    · refine .trapAfter ?_
      split
      · exact hk.mergeFlags.updCmd
      · exact hk.mergeFlags
    · split
      · refine .trapAfter ?_
        split
        · exact hk.mergeFlags.updCmd
        · exact hk.mergeFlags
      · split
        · exact hk.mergeFlags.updCmd
        · exact hk.mergeFlags

theorem Keeps.execInpop {o} : Leads s₀ (execInpop o s) := by
  dsimp only [Machine.execInpop]
  refine .act (hk.tileOnly ?_)
  split
  · exact hk
  · exact hk.updCore.setG.advance.popOutcome

theorem Keeps.streamTook {f offs} : Keeps s₀ (s.streamTook f offs) := hk.foldl fun _ _ hu => hu.bankTook

theorem Keeps.execStreamGeneratorRead {frame unit} : Leads s₀ (execStreamGeneratorRead frame unit s) := by
  dsimp only [Machine.execStreamGeneratorRead]
  refine .act ?_
  split
  · exact hk
  · refine .ite hk ?_
    split
    · next he => exact (hk.checkSpan.left he).setUnit
    · next he =>
        have hu1 := hk.checkSpan.left he
        refine .ite hk ?_
        split
        · exact hu1.streamTook.setUnit
        · exact hu1.streamTook.setUnit

theorem Keeps.runCheck {f x ph l} : Keeps s₀ (s.runCheck f x ph l).1 := by
  induction l generalizing s with
  | nil => exact hk
  | cons st t ih =>
    unfold State.runCheck
    dsimp only
    split
    · next he => exact hk.checkSpan.left he
    · next he => exact .ite_fst (hk.checkSpan.left he) (ih (hk.checkSpan.left he))

theorem Keeps.performRun {f l} : Keeps s₀ (s.performRun f l) := by
  dsimp only [State.performRun]
  split
  · exact hk
  · exact hk.performWrite.streamTook

theorem Keeps.execStreamStorePerform {frame unit} : Leads s₀ (execStreamStorePerform frame unit s) := by
  dsimp only [Machine.execStreamStorePerform]
  refine .act ?_
  split
  · exact hk
  · split
    · refine .ite hk (.ite hk ?_)
      split
      · exact hk.runCheck.performRun.setUnit.report
      · exact hk.runCheck.performRun.setUnit
    · exact hk

end

end Sys2Proof.Machine
end

section
/-!
PROOFS. What every step keeps: the engines of a tile, barriers, tickets, Glaze and posts (O58).
-/
namespace Sys2Proof.Machine

section
variable {s₀ s : State} (hk : Keeps s₀ s)
include hk

/-! ### Descriptors and the tables of a tile -/

theorem Keeps.updDesc {tile n x} : Keeps s₀ (s.updDesc tile n x) := hk.updTile
theorem Keeps.withDesc {i n go} (hg : Keeps s₀ go) : Keeps s₀ (s.withDesc i n go) := .ite hg hk.illegalAddr

theorem Keeps.spanDenied {f base len} : Keeps s₀ (s.spanDenied f base len).1 := by
  dsimp only [State.spanDenied]
  split
  · split
    · next he => exact hk.checkAddr.left he
    · next he => exact hk.checkAddr.left he
  · exact hk

theorem Keeps.updChannel {tile mat urg x} : Keeps s₀ (s.updChannel tile mat urg x) := hk.updTile
theorem Keeps.withQueue {i urg go} (hg : Keeps s₀ go) : Keeps s₀ (s.withQueue i urg go) := .ite hg (.ite hk.trap hk.illegalValue)
theorem Keeps.enqueue {mat c} : Keeps s₀ (s.enqueue mat c) := hk.rest.updCore

theorem Keeps.asCmd {α c} {go : State → State × α} (hg : ∀ u, Keeps s₀ u → Keeps s₀ (go u).1) : Keeps s₀ (s.asCmd c go).1 := by
  unfold State.asCmd
  have hu {x} := hg _ (hk.setFrame (f := c.frame) (x := x))
  dsimp only
  split
  · exact (Keeps.ite hu.settleOlds hu).setFrame
  · exact (Keeps.ite hu.settleOlds hu).frames .drop

theorem Keeps.engHold {f ea wr e} : Keeps s₀ (s.engHold f ea wr e) := hk.faultRecord

theorem Keeps.agedWord {mark q loc} : Keeps s₀ (s.agedWord mark q loc).1 := by
  dsimp only [State.agedWord]
  split
  · exact hk
  · exact hk.draw

theorem Keeps.engTake {f ea loc k n} : Keeps s₀ (s.engTake f ea loc k n).1 := by
  unfold State.engTake
  split
  · next he => exact hk.agedWord.left he
  · next he => exact hk.agedWord.left he

theorem Keeps.engRead {f cp ea n} : Keeps s₀ (s.engRead f cp ea n).1 := by
  dsimp only [State.engRead]
  split
  · next he => exact hk.checkAddr.left he
  · next he =>
      have hu := hk.checkAddr.left he
      split
      · refine .ite_fst hu ?_
        split
        · next he => exact (hu.reach.left he).engHold
        · next he => exact (hu.reach.left he).draw
        · next he => exact (hu.reach.left he).engTake
      · exact hu
      · split
        · exact .ite_fst hu (.ite_fst hu hu.bankTook.engTake)
        · exact hu

theorem Keeps.engMay {f ea n guard} : Keeps s₀ (s.engMay f ea n guard).1 := by
  unfold State.engMay
  split
  · next he => exact hk.checkAddr.left he
  · next he =>
      have hu := hk.checkAddr.left he
      refine .ite_fst hu ?_
      split
      · refine .ite_fst hu (.ite_fst hu ?_)
        split
        · next he => exact (hu.translate.left he).engHold
        · next he => exact hu.translate.left he
      · split
        · exact hu
        · exact hu

theorem Keeps.hostFails {f ea} : Keeps s₀ (s.hostFails f ea).1 := by
  dsimp only [State.hostFails]
  split
  · exact .ite_fst hk.draw hk
  · exact hk

theorem Keeps.poisonGlob {f ea} : Keeps s₀ (s.poisonGlob f ea) := by
  dsimp only [State.poisonGlob]
  split
  · exact hk.setPoison
  · split
    · exact .ite hk hk.setPoison
    · exact hk

theorem Keeps.engWrite {f cp ea n data bad} : Keeps s₀ (s.engWrite f cp ea n data bad).1 := by
  dsimp only [State.engWrite]
  split
  · refine .ite_fst hk.hostFails ?_
    split
    · next he => exact (hk.hostFails.globWrite.left he).engHold
    · next he => exact hk.hostFails.globWrite.left he
    · next he =>
        have hu1 := hk.hostFails.globWrite.left he
        exact .pair (.ite hu1.ownOlds.poisonGlob hu1.ownOlds)
  · split
    · exact .ite_fst hk (.pair (.ite hk.l1Write.ownOlds.poisonL1 hk.l1Write.ownOlds))
    · exact hk

theorem Keeps.readRun {f cp l} : Keeps s₀ (s.readRun f cp l).1 := by
  induction l generalizing s with
  | nil => exact hk
  | cons p t ih =>
    unfold State.readRun
    split
    · next he => exact hk.engRead.left he
    · next he => exact ih (hk.engRead.left he)

theorem Keeps.flushKept {f cp l} : Keeps s₀ (s.flushKept f cp l).1 := by
  induction l generalizing s with
  | nil => exact hk
  | cons p t ih =>
    unfold State.flushKept
    split
    · next he => exact ih (hk.engWrite.left he)
    · next he => exact hk.engWrite.left he

theorem Keeps.orderedWrite {f cp strong kept pos a n d bad} : Keeps s₀ (s.orderedWrite f cp strong kept pos a n d bad).1 := by
  dsimp only [State.orderedWrite]
  refine .ite_fst hk.engWrite ?_
  split
  · exact hk
  · refine .ite_fst hk (.ite_fst ?_ hk.engWrite)
    split
    · next he => exact hk.flushKept.left he
    · next he => exact hk.flushKept.left he

theorem Keeps.writeRun {f cp strong guard kept pos bs l} : Keeps s₀ (s.writeRun f cp strong guard kept pos bs l).1 := by
  induction l generalizing s kept pos bs with
  | nil => exact hk
  | cons p t ih =>
    unfold State.writeRun
    refine .ite_fst hk ?_
    split
    · next he => exact hk.engMay.left he
    · next he =>
        have hu := hk.engMay.left he
        dsimp only
        split
        · next he => exact hu.orderedWrite.left he
        · next he => exact ih (hu.orderedWrite.left he)

theorem Keeps.postEntry {j kind t} (he : s.postEntry j kind = some t) : Keeps s₀ t := by
  dsimp only [State.postEntry] at he
  split at he
  · cases he; exact hk
  · split at he
    · cases he
    · cases he; exact hk.updCore

theorem Keeps.setCur {tile mat urg j} : Keeps s₀ (s.setCur tile mat urg j) := hk.updChannel
theorem Keeps.parkJob {tile mat urg j} : Keeps s₀ (s.parkJob tile mat urg j) := hk.updChannel

theorem Keeps.takeCmd {tile mat urg c x} : Keeps s₀ (s.takeCmd tile mat urg c x) := by
  dsimp only [State.takeCmd]
  exact hk.updCore.updChannel

theorem Keeps.takeNext {tile mat urg ready goes start} (hg : ∀ u, Keeps s₀ u → ∀ j, Keeps s₀ (start u j)) :
    Keeps s₀ (s.takeNext tile mat urg ready goes start) := by
  dsimp only [State.takeNext]
  split
  · exact .ite hk (.ite (hg _ hk _) (.ite hk.parkJob hk))
  · split
    · exact hg _ hk.updChannel.updChannel _
    · refine .ite hk ?_
      split
      · exact hg _ hk.updChannel.takeCmd _
      · exact hk

theorem Keeps.dropJob {tile mat urg j} : Keeps s₀ (s.dropJob tile mat urg j) := hk.updChannel
theorem Keeps.updJob {tile mat urg serial x} : Keeps s₀ (s.updJob tile mat urg serial x) := hk.updChannel

theorem Keeps.completeJob {tile mat urg effect} (hg : ∀ u, Keeps s₀ u → ∀ j, Keeps s₀ (effect u j)) :
    Keeps s₀ (s.completeJob tile mat urg effect) := by
  dsimp only [State.completeJob]
  split
  · next j _ =>
    split
    · next he => exact ((hg s hk j).postEntry he).dropJob
    · exact (hg s hk j).updJob
  · split
    · next he =>
        obtain ⟨j, -, hj⟩ := List.exists_of_findSome?_eq_some he
        split at hj
        · obtain ⟨u, hu, rfl⟩ := Option.map_eq_some_iff.1 hj
          exact (hk.postEntry hu).dropJob
        · cases hj
    · exact hk

theorem Keeps.execTdef {o} : Leads s₀ (execTdef o s) := by
  dsimp only [Machine.execTdef]
  refine .act (hk.tileOnly (hk.withDesc (.ite hk.illegalAddr (.ite hk.illegalAddr ?_))))
  split
  · next he => exact (hk.spanDenied.left he).trap
  · next he =>
      have hu := hk.spanDenied.left he
      exact .ite hu hu.updDesc.advance

/-! ### Copies -/

theorem Keeps.copyIssue {i op o} : Keeps s₀ (s.copyIssue i op o) := by
  dsimp only [State.copyIssue]
  refine hk.tileOnly (hk.withQueue (.ite hk.illegalAddr (.ite hk.illegalAddr (.ite hk.illegalAddr ?_))))
  split
  · exact hk.trap
  · split
    · exact hk.trap
    · exact .ite hk hk.enqueue.advance

theorem Keeps.readBursts {c src left need buf n} : Keeps s₀ (s.readBursts c src left need buf n).1 := by
  induction n generalizing s buf with
  | zero => exact hk
  | succ n ih =>
    unfold State.readBursts
    refine .ite_fst hk ?_
    dsimp only
    split
    · next he => exact ih (hk.readRun.left he)
    · next he => exact hk.readRun.left he

theorem Keeps.moveBytes {c kept buf pos dst n er} : Keeps s₀ (s.moveBytes c kept buf pos dst n er).1 := .ite_fst hk hk.writeRun

theorem Keeps.burstStep {j g} : Keeps s₀ (s.burstStep j g).1 := by
  dsimp only [State.burstStep]
  exact hk.readBursts.moveBytes

theorem Keeps.elemIndex {j} : Keeps s₀ (s.elemIndex j).1 := by
  dsimp only [State.elemIndex]
  refine .ite_fst hk ?_
  split
  · split
    · next he => exact hk.engRead.left he
    · next he =>
        have hu1 := hk.engRead.left he
        exact .ite_fst hu1.draw hu1
  · exact hk

theorem Keeps.elemStep {j} : Keeps s₀ (s.elemStep j).1 := by
  dsimp only [State.elemStep]
  split
  · next he => exact hk.elemIndex.left he
  · next he =>
      have hu := hk.elemIndex.left he
      split
      · next he => exact hu.readRun.left he
      · next he =>
          have hu1 := hu.readRun.left he
          exact .ite_fst hu1.moveBytes hu1.moveBytes

theorem Keeps.copyEnd {tile urg j status aux} : Keeps s₀ (s.copyEnd tile urg j status aux) := by
  dsimp only [State.copyEnd]
  split
  · exact .setCur (hk.asCmd fun _ hu1 => hu1.flushKept)
  · exact .ite (.setCur (hk.asCmd (fun _ hu1 => hu1.flushKept))) (.setCur (hk.asCmd fun _ hu1 => hu1.flushKept))
  · exact .setCur (hk.asCmd fun _ hu1 => hu1.flushKept)

theorem Keeps.copyDone {tile urg j total} : Keeps s₀ (s.copyDone tile urg j total) := .ite hk.copyEnd hk.copyEnd

theorem Keeps.copyStep {tile urg j} : Keeps s₀ (s.copyStep tile urg j) := by
  dsimp only [State.copyStep]
  refine .ite hk.copyEnd (.ite hk.copyDone ?_)
  split
  · exact .setCur (hk.asCmd fun _ hu1 => .ite_fst hu1.elemStep hu1.burstStep)
  · exact .copyEnd (hk.asCmd fun _ hu1 => .ite_fst hu1.elemStep hu1.burstStep)
  · exact .ite (.setCur (hk.asCmd (fun _ hu1 => .ite_fst hu1.elemStep hu1.burstStep))) (.copyDone (hk.asCmd fun _ hu1 => .ite_fst
      hu1.elemStep hu1.burstStep))

theorem Keeps.copyBegin {tile urg j} : Keeps s₀ (s.copyBegin tile urg j) := by
  dsimp only [State.copyBegin]
  exact .setCur (hk.asCmd fun _ hu => hu)

theorem Keeps.copyStart {tile urg j} : Keeps s₀ (s.copyStart tile urg j) := by
  dsimp only [State.copyStart]
  refine .ite hk.setCur (.ite hk.copyBegin ?_)
  split
  · exact hk.setCur
  · exact hk.parkJob
  · exact .ite hk.updDesc.copyBegin hk.updDesc.copyBegin

theorem Keeps.execCopyTake {tile urg} : Leads s₀ (execCopyTake tile urg s) :=
  .act (hk.takeNext fun _ hu _ => .ite hu hu.copyStart)

theorem Keeps.execCopyBurstCheck {tile urg ok} : Leads s₀ (execCopyBurstCheck tile urg ok s) := by
  unfold Machine.execCopyBurstCheck
  refine .act ?_
  split
  · exact hk
  · exact .ite hk (.ite hk.parkJob (.ite hk.copyStep (.ite hk.setCur hk.copyEnd.updTile.notify)))

theorem Keeps.execCopyCompletion {tile urg} : Leads s₀ (execCopyCompletion tile urg s) := .act (hk.completeJob fun _ hu _ => hu)

/-! ### Matrix commands -/

theorem Keeps.withMatrix {i go} (hg : Keeps s₀ go) : Keeps s₀ (s.withMatrix i go) := hk.tileOnly (.ite hk.illegalValue hg)
theorem Keeps.withAcc {i n urg go} (hg : Keeps s₀ go) : Keeps s₀ (s.withAcc i n urg go) := .ite hk.trap (.ite hk.illegalValue hg)
theorem Keeps.drawBlock {n} : Keeps s₀ (s.drawBlock n).1 := .pair hk.updMe
theorem Keeps.matrixIssue {op o b c words} : Keeps s₀ (s.matrixIssue op o b c words) :=
  .ite hk (hk.drawBlock.retire fun _ hu => hu.enqueue.updMe)

theorem Keeps.mmaIssue {i op o} : Keeps s₀ (s.mmaIssue i op o) :=
  hk.withMatrix (hk.withAcc (.ite hk.illegalValue (.ite hk.illegalAddr (.ite hk.illegalAddr (.ite hk.illegalAddr (.ite
      hk.illegalAddr hk.matrixIssue))))))

theorem Keeps.mldaIssue {i op o} : Keeps s₀ (s.mldaIssue i op o) :=
  hk.withMatrix (hk.withAcc (.ite hk.illegalValue (.ite hk.illegalAddr hk.matrixIssue)))

theorem Keeps.execMwait {o} : Leads s₀ (execMwait o s) := by
  dsimp only [Machine.execMwait]
  refine .act (hk.withMatrix (.ite hk.trap (.ite hk.illegalValue (.ite hk ?_))))
  split
  · exact .trapAfter (.advance (.updMe (hk.foldl fun _ _ hu1 => hu1.mergeFlags)))
  · split
    · exact .trapAfter (.advance (.updMe (hk.foldl fun _ _ hu2 => hu2.mergeFlags)))
    · exact .advance (.updMe (hk.foldl fun _ _ hu2 => hu2.mergeFlags))

theorem Keeps.matrixTook {tile offs} : Keeps s₀ (s.matrixTook tile offs) := hk.foldl fun _ _ hu => hu.bankTook

theorem Keeps.mldaMay {f a n wr} : Keeps s₀ (s.mldaMay f a n wr).1 := by
  unfold State.mldaMay
  split
  · split
    · next he => exact hk.checkSpan.left he
    · next he => exact hk.checkSpan.left he
  · exact hk

theorem Keeps.mldaScan {f g wr i n} : Keeps s₀ (s.mldaScan f g wr i n).1 := by
  induction n generalizing s i with
  | zero => exact hk
  | succ n ih =>
    unfold State.mldaScan
    split
    · next he => exact hk.mldaMay.left he
    · next he => exact ih (hk.mldaMay.left he)

theorem Keeps.mstaRuns {f i v l} : Keeps s₀ (s.mstaRuns f i v l).1 := by
  induction l generalizing s v with
  | nil => exact hk
  | cons p t ih =>
    unfold State.mstaRuns
    split
    · next he => exact hk.mldaMay.left he
    · next he => exact ih (hk.mldaMay.left he)

theorem Keeps.mstaPieces {c g acc i n} : Keeps s₀ (s.mstaPieces c g acc i n).1 := by
  induction n generalizing s i with
  | zero => exact hk
  | succ n ih =>
    unfold State.mstaPieces
    dsimp only
    split
    · next he => exact hk.mstaRuns.left he
    · next he => exact ih (hk.mstaRuns.left he)

theorem Keeps.storePieces {c ps bad} : Keeps s₀ (s.storePieces c ps bad) :=
  hk.foldl fun _ _ hu => .ite hu.l1Write.ownOlds.poisonL1 hu.l1Write.ownOlds

/-! ### Events of the engines -/

theorem Keeps.operandsMay {c} : Keeps s₀ (s.operandsMay c).1 := hk.foldl_fst fun _ _ hu => hu.checkAddr

theorem Keeps.productStart {tile urg j} : Keeps s₀ (s.productStart tile urg j) := by
  dsimp only [State.productStart]
  refine .ite hk.setCur (.ite hk.parkJob ?_)
  split
  · exact hk.setCur
  · exact .ite (.setCur (hk.asCmd (fun _ hu1 => hu1.operandsMay))) (.setCur (.foldl (hk.asCmd (fun _ hu1 => hu1.operandsMay)) fun
      _ _ hu1 => hu1.updDesc))

theorem Keeps.mldaStart {tile urg j} : Keeps s₀ (s.mldaStart tile urg j) := by
  dsimp only [State.mldaStart]
  split
  · exact hk.setCur
  · refine .ite hk.setCur (.ite hk.parkJob ?_)
    split
    · refine .ite hk.setCur ?_
      split
      · next he => exact (Keeps.left he (.ite_fst (.pair hk) (hk.asCmd (fun _ hu2 => hu2.mldaScan)))).setCur
      · next he => exact (Keeps.left he (.ite_fst (.pair hk) (hk.asCmd (fun _ hu2 => hu2.mldaScan)))).setCur
    · split
      · next he => exact (Keeps.left he (.ite_fst (.pair hk) (hk.asCmd (fun _ hu2 => hu2.mldaScan)))).setCur
      · next he =>
          have hu2 := Keeps.left he (.ite_fst (.pair hk) (hk.asCmd fun _ hu2 => hu2.mldaScan))
          exact .ite hu2.setCur (.ite hu2.updDesc.setCur hu2.updDesc.setCur)

theorem Keeps.matrixStart {tile urg j} : Keeps s₀ (s.matrixStart tile urg j) := by
  unfold State.matrixStart
  refine .ite hk.setCur ?_
  split
  · exact hk.setCur
  · exact hk.mldaStart
  · exact hk.mldaStart
  · exact hk.productStart

theorem Keeps.execMatrixTake {tile urg} : Leads s₀ (execMatrixTake tile urg s) :=
  .act (hk.takeNext fun _ hu _ => hu.matrixStart)

theorem Keeps.mstaRun {j upTo} : Keeps s₀ (s.mstaRun j upTo).1 := by
  dsimp only [State.mstaRun]
  refine .ite_fst hk ?_
  split
  · exact .pair (.ite (.settleOlds (.storePieces (hk.asCmd fun _ hu => hu.mstaPieces)))
      (.storePieces (hk.asCmd fun _ hu => hu.mstaPieces)))
  · exact .pair (.ite (.settleOlds (.storePieces (hk.asCmd fun _ hu => hu.mstaPieces)))
      (.storePieces (hk.asCmd fun _ hu => hu.mstaPieces)))

theorem Keeps.matrixRun {tile urg j} : Keeps s₀ (s.matrixRun tile urg j) := by
  dsimp only [State.matrixRun]
  split
  · exact hk.mstaRun.setCur
  · exact .ite hk hk.rest.matrixTook.setCur

theorem Keeps.matrixEffect {j} : Keeps s₀ (s.matrixEffect j) := by
  dsimp only [State.matrixEffect]
  refine .updCmd (.ite hk (.ite hk.setAccum ?_))
  split
  · exact hk.setAccum
  · exact .ite hk.setAccum (.ite hk.setAccum hk)
  · exact hk
  · exact .ite hk.setAccum hk

theorem Keeps.execMatrixCompletion {tile urg} : Leads s₀ (execMatrixCompletion tile urg s) := by
  dsimp only [Machine.execMatrixCompletion]
  refine .act (.completeJob ?_ fun _ hu _ => hu.matrixEffect)
  split
  · exact .ite hk.matrixRun hk
  · exact hk

theorem Keeps.execMatrixStepCheckFail {tile urg again block} : Leads s₀ (execMatrixStepCheckFail tile urg again block s) := by
  unfold Machine.execMatrixStepCheckFail
  refine .act ?_
  split
  · exact hk
  · refine .ite hk (.ite hk.updTile ?_)
    split
    next he =>
      have hu := Keeps.left he (by split <;> first | exact hk.mstaRun | exact .pair hk)
      exact .ite hk hu.setCur.updTile.notify

theorem Keeps.execFillLastWrite {tile matrix urg} : Leads s₀ (execFillLastWrite tile matrix urg s) := by
  unfold Machine.execFillLastWrite
  refine .act ?_
  split
  · split
    · exact hk.updDesc.setCur
    · exact hk
  · exact hk

theorem Keeps.endReads {tile matrix urg j} : Keeps s₀ (s.endReads tile matrix urg j) :=
  .setCur (hk.foldl fun _ _ hu => hu.updDesc)

theorem Keeps.execReaderEnd {tile matrix urg} : Leads s₀ (execReaderEnd tile matrix urg s) := by
  dsimp only [Machine.execReaderEnd]
  refine .act ?_
  split
  · exact hk
  · refine .ite hk (.ite hk.endReads (.ite ?_ hk))
    split
    · exact .ite hk hk.matrixRun.updTile.endReads
    · exact hk.matrixRun

theorem Keeps.execCommandStallTimeout {tile matrix urg place} : Leads s₀ (execCommandStallTimeout tile matrix urg place s) := by
  dsimp only [Machine.execCommandStallTimeout]
  refine .act ?_
  split
  · exact .ite hk.updJob hk
  · exact hk

theorem Keeps.badBurst {tile urg} : Keeps s₀ (s.badBurst tile urg) := .ite hk hk.updTile.countError

/-! ### Barriers -/

theorem Keeps.setInst {b} : Keeps s₀ (s.setInst b) := .ite hk.rest hk.rest
theorem Keeps.arriveOne {f slot release t} : Keeps s₀ (s.arriveOne f slot release t) := hk.setInst.rest
theorem Keeps.barOnly {i go} (hg : Keeps s₀ go) : Keeps s₀ (s.barOnly i go) := .ite hk.illegalValue hg
theorem Keeps.arrive {i slot release fin} (hg : ∀ u, Keeps s₀ u → Keeps s₀ (fin u)) : Keeps s₀ (s.arrive i slot release fin) :=
  hk.barOnly (.ite hk.illegalValue (.ite hk (hg _ (hk.foldl fun _ _ hu => hu.arriveOne))))
theorem Keeps.joinAll {f slot} : Keeps s₀ (s.joinAll f slot) := hk.foldl fun _ _ hu => hu.setInst
theorem Keeps.leaveOne {f slot t} : Keeps s₀ (s.leaveOne f slot t) := .ite hk (.setInst (.ite hk.arriveOne hk))
theorem Keeps.leaveAll {f slot} : Keeps s₀ (s.leaveAll f slot) := hk.foldl fun _ _ hu => hu.leaveOne
theorem Keeps.sendLaunch {e} : Keeps s₀ (s.sendLaunch e) := hk.tiles .mapVals
theorem Keeps.markLeft {core} : Keeps s₀ (s.markLeft core) := hk.rest

theorem Keeps.countArr {a} : Keeps s₀ (s.countArr a) := by
  dsimp only [State.countArr]
  split
  · exact hk.setInst.sendLaunch
  · exact hk.setInst

theorem Keeps.execBarrierArrival {place} : Leads s₀ (execBarrierArrival place s) := by
  dsimp only [Machine.execBarrierArrival]
  refine .act ?_
  split
  · exact hk
  · exact .ite hk.countArr.rest hk

theorem Keeps.execPhaseCompletion {place} : Leads s₀ (execPhaseCompletion place s) := by
  dsimp only [Machine.execPhaseCompletion]
  refine .act ?_
  split
  · exact hk
  · exact .ite hk.rest hk

theorem Keeps.execWakeDelivery {place} : Leads s₀ (execWakeDelivery place s) := by
  dsimp only [Machine.execWakeDelivery]
  refine .act ?_
  split
  · exact hk
  · refine .ite hk ?_
    split
    · exact hk.rest.updFrame
    · exact hk.rest

/-! ### Tickets -/

theorem Keeps.setPend {x l} : Keeps s₀ (s.setPend x l) := .ite hk.updTile hk.setSlice
theorem Keeps.setWindow {n w} : Keeps s₀ (s.setWindow n w) := hk.windows .put

theorem Keeps.withLaunch {i go} (hg : ∀ e, Keeps s₀ (go e)) : Keeps s₀ (s.withLaunch i go) := by
  unfold State.withLaunch
  refine .ite hk.illegalValue ?_
  split
  · exact hg _
  · exact hk.illegalValue

theorem Keeps.setTicket {f n x} : Keeps s₀ (s.setTicket f n x) := hk.updFrame

theorem Keeps.execTadd {o} : Leads s₀ (execTadd o s) := by
  dsimp only [Machine.execTadd]
  refine .act (hk.withLaunch fun _ => ?_)
  refine .ite hk.illegalAddr ?_
  split
  · next he => exact (hk.scalarCheck.left he).trap
  · next he =>
      have hu := hk.scalarCheck.left he
      split
      · exact hu
      · exact hu.drawStoch.retire fun _ hu2 => hu2.setTicket

theorem Keeps.skipOne {e ea ticket n} : Keeps s₀ (s.skipOne e ea ticket n) := hk.setTicket

theorem Keeps.globSpanDenied {f need a fin n} : Keeps s₀ (s.globSpanDenied f need a fin n).1 := by
  induction n generalizing s a with
  | zero => exact hk
  | succ n ih =>
    unfold State.globSpanDenied
    refine .ite_fst hk ?_
    split
    · next he => exact hk.checkAddr.left he
    · next he => exact ih (hk.checkAddr.left he)

theorem Keeps.skipDenied {f ea len} : Keeps s₀ (s.skipDenied f ea len).1 := by
  unfold State.skipDenied
  split
  · exact hk.globSpanDenied
  · split
    · next he => exact hk.checkAddr.left he
    · next he => exact hk.checkAddr.left he

theorem Keeps.skipNext {o e ea t step total} : Keeps s₀ (s.skipNext o e ea t step total) := by
  dsimp only [State.skipNext]
  split
  · exact hk
  · exact .ite hk.skipOne.advance hk.skipOne.updMe

theorem Keeps.execTskip {o} : Leads s₀ (execTskip o s) := by
  dsimp only [Machine.execTskip]
  refine .act (hk.withLaunch fun _ => ?_)
  refine .ite hk.illegalAddr (.ite hk.illegalAddr (.ite hk.trap (.ite hk.skipNext ?_)))
  split
  · next he => exact (hk.skipDenied.left he).trap
  · next he => exact (hk.skipDenied.left he).skipNext

theorem Keeps.windowDenied {f base len} : Keeps s₀ (s.windowDenied f base len).1 := by
  dsimp only [State.windowDenied]
  split
  · split
    · next he => exact hk.checkAddr.left he
    · next he =>
        have hu1 := hk.checkAddr.left he
        split
        · exact hu1
        · exact hu1
  · split
    · next he => exact hk.checkAddr.left he
    · next he =>
        have hu1 := hk.checkAddr.left he
        split
        · exact hu1
        · exact hu1
  · split
    · next he => exact hk.globSpanDenied.left he
    · next he => exact hk.globSpanDenied.left he
  · exact hk

theorem Keeps.openWindow {e base c} : Keeps s₀ (s.openWindow e base c).1 := by
  fun_cases State.openWindow s e base c with
  | case5 => exact .pair hk.setWindow
  | _ => exact hk

theorem Keeps.execTopen {o} : Leads s₀ (execTopen o s) := by
  dsimp only [Machine.execTopen]
  refine .act (hk.withLaunch fun _ => ?_)
  refine .ite hk.illegalAddr (.ite hk.trap ?_)
  split
  · next he => exact (hk.windowDenied.left he).trap
  · next he => exact (hk.windowDenied.left he).openWindow.setG.advance

theorem Keeps.execTclose {o} : Leads s₀ (execTclose o s) := by
  dsimp only [Machine.execTclose]
  refine .act (hk.withLaunch fun _ => ?_)
  split
  · exact hk.illegalAddr
  · exact .ite hk.setG.advance (hk.windows .drop).setG.advance

theorem Keeps.execTdrain {o} : Leads s₀ (execTdrain o s) := by
  dsimp only [Machine.execTdrain]
  refine .act (hk.withLaunch fun _ => ?_)
  split
  · exact hk.illegalAddr
  · exact .ite hk.illegalAddr (.ite hk.illegalAddr (.ite hk (.ite hk.advance.observe hk.advance)))

theorem Keeps.ticketFails {f n x cause detail} : Keeps s₀ (s.ticketFails f n x cause detail) := hk.setTicket.report
theorem Keeps.acceptUpd {f n x wn e w} : Keeps s₀ (s.acceptUpd f n x wn e w) :=
  .tryUnpark (.ite hk.setTicket.setPend.setWindow hk.setTicket.setPend)

theorem Keeps.updPage {f n x} : Keeps s₀ (s.updPage f n x).1 := by
  dsimp only [State.updPage]
  refine .ite_fst hk ?_
  split
  · next he => exact hk.pageHand.left he
  · next he =>
      have hu := hk.pageHand.left he
      split
      · next he => exact hu.faultRecord.left he
      · next he =>
          have hu1 := hu.faultRecord.left he
          exact .pair (.ite hu1.setTicket hu1.setTicket.waitRecord.report)

theorem Keeps.admitUpd {f n x wn e w} : Keeps s₀ (s.admitUpd f n x wn e w) := by
  unfold State.admitUpd
  split
  · next he => exact (hk.updPage.left he).acceptUpd
  · next he => exact hk.updPage.left he

theorem Keeps.judgeUpd {f n x} : Keeps s₀ (s.judgeUpd f n x) := by
  dsimp only [State.judgeUpd]
  split
  · exact hk.ticketFails
  · split
    · exact hk.ticketFails
    · exact .ite hk.ticketFails (.ite hk.ticketFails (.ite hk.ticketFails (.ite hk.admitUpd hk.setTicket)))

theorem Keeps.presentUpd {f n x} : Keeps s₀ (s.presentUpd f n x) := .ite hk (.ite hk.ticketFails (.ite hk hk.judgeUpd))

theorem Keeps.execTicketArrival {frame slot} : Leads s₀ (execTicketArrival frame slot s) := by
  unfold Machine.execTicketArrival
  refine .act ?_
  split
  · exact .ite hk hk.presentUpd
  · exact hk

theorem Keeps.execTicketRepresent {frame slot} : Leads s₀ (execTicketRepresent frame slot s) := by
  unfold Machine.execTicketRepresent
  refine .act ?_
  split
  · exact .ite hk.presentUpd hk
  · exact hk

theorem Keeps.applyAt {x key n} : Keeps s₀ (s.applyAt x key n).1 := .pair (.performWrite (.ite hk.noteOld hk))

theorem Keeps.applyUpd {x n} : Keeps s₀ (s.applyUpd x n).1 := by
  dsimp only [State.applyUpd]
  refine .ite_fst hk (.ite_fst hk.applyAt.bankTook ?_)
  split
  · next he => exact (hk.reach.left he).applyAt.markDirty
  · next he =>
      have hu := hk.reach.left he
      split
      · next he => exact (hu.draw.toHost.left he).noteHost
      · next he =>
          have hu1 := hu.draw.toHost.left he
          refine .pair ?_
          split
          · exact hu1.report
          · exact hu1
  · next he => exact hk.reach.left he

theorem Keeps.holdPending {unit x e} : Keeps s₀ (s.holdPending unit x e) := by
  dsimp only [State.holdPending]
  split
  · next he => exact hk.recordFault.left he
  · next he =>
      have hu := hk.recordFault.left he
      split
      · exact hu.setPend
      · exact .ite hu.setPend hu.setPend.waitRecord.report

theorem Keeps.applyPending {window elem w x} : Keeps s₀ (s.applyPending window elem w x) := by
  dsimp only [State.applyPending]
  split
  · next he => exact (hk.applyUpd.left he).holdPending
  · next he => exact (hk.applyUpd.left he).setPend.setWindow.tryUnpark

theorem Keeps.execTicketApplication {window elem} : Leads s₀ (execTicketApplication window elem s) := by
  dsimp only [Machine.execTicketApplication]
  refine .act ?_
  split
  · exact hk
  · split
    · exact hk
    · exact .ite hk (.ite hk hk.applyPending)

theorem Keeps.presentAll {core} : Keeps s₀ (s.presentAll core) := by
  unfold State.presentAll
  refine hk.foldl fun _ _ hu => ?_
  split
  · exact hu.presentUpd
  · exact hu

theorem Keeps.applyDue {core n} : Keeps s₀ (s.applyDue core n) := by
  induction n generalizing s with
  | zero => exact hk
  | succ n ih =>
    refine ih (hk.foldl fun u x hu => ?_)
    split
    · exact .ite hu.applyPending hu
    · exact hu

theorem Keeps.settleUpds {core} : Keeps s₀ (s.settleUpds core) := hk.presentAll.applyDue

theorem Keeps.execTicketGapTimeout {window} : Leads s₀ (execTicketGapTimeout window s) := by
  unfold Machine.execTicketGapTimeout
  refine .act ?_
  split
  · exact hk
  · split
    · exact hk
    · exact .ite hk.setWindow.report hk.killLaunch

theorem Keeps.pauseGaps {ck} : Keeps s₀ (s.pauseGaps ck) := hk.windows .mapVals

/-! ### Glaze -/

theorem Keeps.setGlaze {tile n g} : Keeps s₀ (s.setGlaze tile n g) := hk.updTile

theorem Keeps.subscribe {f sub pub len init} : Keeps s₀ (s.subscribe f sub pub len init).1 := by
  dsimp only [State.subscribe]
  split
  · exact hk
  · split
    · exact .ite_fst hk (.pair hk.setGlaze)
    · exact hk

theorem Keeps.execGsub {o} : Leads s₀ (execGsub o s) := by
  dsimp only [Machine.execGsub]
  refine .act (hk.withLaunch fun _ => ?_)
  refine .ite hk.illegalAddr ?_
  split
  · exact hk.trap
  · split
    · next he => exact (hk.checkAddr.left he).trap
    · next he =>
        have hu1 := hk.checkAddr.left he
        split
        · next he => exact (hu1.checkAddr.left he).trap
        · next he => exact (hu1.checkAddr.left he).subscribe.setG.advance

theorem Keeps.applyWord {tile g b w} : Keeps s₀ (s.applyWord tile g b w) := .ite hk (.ite hk.l1Write.setPoison hk.l1Write)
theorem Keeps.applyBatch {tile g b} : Keeps s₀ (s.applyBatch tile g b) := hk.foldl fun _ _ hu => hu.applyWord
theorem Keeps.applyDead {tile g} : Keeps s₀ (s.applyDead tile g) := .ite (hk.foldl fun _ _ hu => hu.applyBatch) hk
theorem Keeps.withEntry {i n go} (hg : ∀ g, Keeps s₀ (go g)) : Keeps s₀ (s.withEntry i n go) :=
  hk.withLaunch fun _ => .ite (hg _) hk.illegalAddr
theorem Keeps.sendAll : Keeps s₀ s.sendAll := hk.tiles .mapVals
theorem Keeps.execGlazeInitialCopy {tile entry} : Leads s₀ (execGlazeInitialCopy tile entry s) :=
  .act (.ite hk (.setGlaze (hk.foldl fun _ _ hu => hu.bankTook)))

theorem Keeps.execGlazeBatchTimeout {tile entry} : Leads s₀ (execGlazeBatchTimeout tile entry s) := by
  dsimp only [Machine.execGlazeBatchTimeout]
  refine .act ?_
  split
  · exact .ite hk.setGlaze hk
  · exact hk

theorem Keeps.execGlazeBatchApply {tile entry} : Leads s₀ (execGlazeBatchApply tile entry s) := by
  dsimp only [Machine.execGlazeBatchApply]
  refine .act ?_
  split
  · exact hk
  · refine .ite ?_ (.ite hk hk.applyBatch.setGlaze)
    split
    · exact hk.setGlaze.report
    · exact hk.setGlaze

/-! ### Posts -/

theorem Keeps.asSup {α p} {go : State → State × α} (hg : ∀ u, Keeps s₀ u → Keeps s₀ (go u).1) : Keeps s₀ (s.asSup p go).1 :=
  ((hg _ hk.setFrame).frames .drop).cores .drop

theorem Keeps.writeLine {f a ws clears} : Keeps s₀ (s.writeLine f a ws clears).1 := by
  dsimp only [State.writeLine]
  split
  · next he => exact hk.checkAddr.left he
  · next he =>
      have hu := hk.checkAddr.left he
      split
      · refine .ite_fst hu ?_
        split
        · next he => exact hu.reach.left he
        · next he =>
            have hu2 := hu.reach.left he
            split
            · next he => exact hu2.toHost.left he
            · next he => exact hu2.toHost.left he
        · next he =>
            have hu2 := hu.reach.left he
            exact .ite_fst hu2 (.pair (.markDirty (hu2.foldl fun _ _ hu3 => hu3.performWrite)))
      · split
        · exact .ite_fst hu (.ite_fst hu (.ite_fst hu (.pair (hu.foldl fun _ _ hu3 => hu3.l1Write))))
        · exact hu

theorem Keeps.dropPost {t} : Keeps s₀ (s.dropPost t) := hk.setTag
theorem Keeps.fireMsi {p t} : Keeps s₀ (s.fireMsi p t) := hk.msis
theorem Keeps.numberPost {t ws who} : Keeps s₀ (s.numberPost t ws who).1 := .ite_fst (.pair hk.setRing) hk

theorem Keeps.acceptPost {t ws who} : Keeps s₀ (s.acceptPost t ws who).1 := by
  dsimp only [State.acceptPost]
  split
  · exact hk
  · split
    · next he => exact .pair (((Keeps.left he (hk.asSup (fun _ hu1 => hu1.writeLine))).setTag.numberPost.posters .put).foldl fun
        _ _ hu2 => hu2.fireMsi)
    · next he => exact (Keeps.left he (hk.asSup (fun _ hu1 => hu1.writeLine))).dropPost
    · next he => exact Keeps.left he (hk.asSup fun _ hu1 => hu1.writeLine)

theorem Keeps.devicePost {a tag} : Keeps s₀ (s.devicePost a tag) := by
  dsimp only [State.devicePost]
  refine .ite hk.rest.settle ?_
  split
  · next he => exact (hk.acceptPost.left he).rest.settle
  · next he => exact hk.acceptPost.left he
  · next he => exact (hk.acceptPost.left he).rest.settle
  · next he => exact (hk.acceptPost.left he).rest.settle

theorem Keeps.hostNak : Keeps s₀ s.hostNak := hk.setReg

theorem Keeps.poisonWords {f a ws} : Keeps s₀ (s.poisonWords f a ws) := by
  dsimp only [State.poisonWords]
  split
  · split
    · next he => exact (hk.reach.left he).foldl fun _ _ hu2 => hu2.setPoison
    · next he => exact hk.reach.left he
  · split
    · exact hk.foldl fun _ _ hu2 => hu2.setPoison
    · exact hk

theorem Keeps.poisonPost {t ws} : Keeps s₀ (s.poisonPost t ws) := by
  unfold State.poisonPost
  split
  · exact hk.asSup fun _ hu1 => hu1.poisonWords
  · exact hk

theorem Keeps.execHostPost {fn offset data damaged} : Leads s₀ (execHostPost fn offset data damaged s) := by
  dsimp only [Machine.execHostPost]
  refine .act (.ite hk (.ite hk.hostNak (.ite hk.hostNak (.ite hk ?_))))
  split
  · next he =>
      have hu := hk.acceptPost.left he
      exact .ite hu.countError.poisonPost hu
  · next he =>
      have hu := hk.acceptPost.left he
      exact .ite hu.dropPost hu
  · next he => exact (hk.acceptPost.left he).hostNak.fireMsi
  · next he => exact hk.acceptPost.left he

/-! ### Synchronisation engines -/

theorem Keeps.notHandler {i go} (hg : Keeps s₀ go) : Keeps s₀ (s.notHandler i go) := .ite hk.illegalValue hg

theorem Keeps.setSvar {n v} : Keeps s₀ (s.setSvar n v) := by
  refine hk.svars ?_
  split
  · exact .put
  · exact .drop

theorem Keeps.execSalloc {o} : Leads s₀ (execSalloc o s) := by
  dsimp only [Machine.execSalloc]
  refine .act (hk.notHandler ?_)
  split
  · exact hk.setSvar.setG.advance
  · exact hk.setG.advance

theorem Keeps.withSvar {i b fn go} (hg : ∀ n v, Keeps s₀ (go n v)) : Keeps s₀ (s.withSvar i b fn go) := .ite hk.illegalAddr (hg _
    _)

theorem Keeps.itemCheck {ea need} : Keeps s₀ (s.itemCheck ea need).1 := by
  unfold State.itemCheck
  refine .ite_fst hk ?_
  split
  · exact hk.checkAddr
  · exact hk

theorem Keeps.execSend {o} : Leads s₀ (execSend o s) := by
  dsimp only [Machine.execSend]
  refine .act (hk.notHandler (.ite hk.illegalValue ?_))
  split
  · next he => exact (hk.itemCheck.left he).trap
  · next he =>
      have hu := hk.itemCheck.left he
      split
      · exact hu.trap
      · refine .ite hu.trap (.ite hu.trap (.ite hu ?_))
        split
        · exact hu.report.advance
        · exact hu.rest.advance

theorem Keeps.itemFails {place it cause detail} : Keeps s₀ (s.itemFails place it cause detail) := hk.rest.report

theorem Keeps.execChannelItemArrival {place} : Leads s₀ (execChannelItemArrival place s) := by
  dsimp only [Machine.execChannelItemArrival]
  refine .act ?_
  split
  · exact hk
  · exact .ite hk.itemFails (.ite hk.rest (.ite hk.itemFails (.ite hk.itemFails (.ite hk.setChan.rest hk))))

theorem Keeps.putItem {f ea bs} : Keeps s₀ (s.putItem f ea bs) := by
  unfold State.putItem
  split
  · exact hk.foldl fun _ _ hu1 => hu1.l1Write
  · exact hk

theorem Keeps.execRecv {o} : Leads s₀ (execRecv o s) := by
  dsimp only [Machine.execRecv]
  refine .act (hk.notHandler (.ite hk.illegalValue ?_))
  split
  · next he => exact (hk.itemCheck.left he).trap
  · next he =>
      have hu := hk.itemCheck.left he
      refine .ite hu.trap ?_
      split
      · exact hu.streamTrap
      · split
        · exact hu
        · exact .ite hu hu.setChan.putItem.setG.advance

end

end Sys2Proof.Machine
end

section
/-!
PROOFS. What every step keeps: system instructions, launches, cores, the package and the ring (O58; spec/16 R368, R370).
-/
namespace Sys2Proof.Machine

section
variable {s₀ s : State} (hk : Keeps s₀ s)
include hk

/-! ### System instructions -/

theorem Keeps.cregDenied {num detail} : Keeps s₀ (s.cregDenied num detail) := hk.trap

theorem Keeps.execCrd {o} : Leads s₀ (execCrd o s) := by
  unfold Machine.execCrd
  refine .act ?_
  split
  · exact hk.illegalValue
  · exact .ite hk.setG.advance hk.cregDenied

theorem Keeps.execCwr {o} : Leads s₀ (execCwr o s) := by
  dsimp only [Machine.execCwr]
  refine .act ?_
  split
  · exact hk.illegalValue
  · exact .ite hk.cregDenied (.ite hk.illegalAddr hk.updFrame.advance)

theorem Keeps.setPhase {cur} : Keeps s₀ (s.setPhase cur) := hk.updFrame

theorem Keeps.execEret {o} : Leads s₀ (execEret o s) := by
  unfold Machine.execEret
  refine .act (.ite hk.privTrap ?_)
  split
  · exact .ite hk.eret hk
  · exact hk.illegalValue

theorem Keeps.execRng {o} : Leads s₀ (execRng o s) := by
  dsimp only [Machine.execRng]
  exact .act (hk.drawRng.retire fun _ hu => hu.setG)

theorem Keeps.dropPlb {table} : Keeps s₀ (s.dropPlb table) := hk.cores .mapVals

/-! ### Launches -/

theorem Keeps.nextArrival {die} : Keeps s₀ (s.nextArrival die).1 := hk.arrivals .put
theorem Keeps.allocate {die e x} : Keeps s₀ (s.allocate die e x).1 := .pair hk.nextArrival.setEntry

theorem Keeps.readLine {f a} : Keeps s₀ (s.readLine f a).1 := by
  dsimp only [State.readLine]
  split
  · refine .ite_fst hk ?_
    split
    · next he => exact hk.reach.left he
    · next he => exact (hk.reach.left he).rest
    · next he => exact hk.reach.left he
  · exact hk
  · split
    · exact .ite_fst hk hk
    · exact hk

theorem Keeps.parkAt {va detail wr e} : Keeps s₀ (s.parkAt va detail wr e) := by
  unfold State.parkAt
  split
  · next he => exact (hk.faultRecord.left he).waitRecord.trap
  · next he => exact hk.faultRecord.left he

theorem Keeps.withPacket {i n ea go} (hg : ∀ u, Keeps s₀ u → ∀ p, Keeps s₀ (go u p)) : Keeps s₀ (s.withPacket i n ea go) := by
  refine hk.notHandler (.ite hk.trap ?_)
  split
  · next he => exact (hk.checkAddr.left he).trap
  · next he =>
      have hu := hk.checkAddr.left he
      refine .ite hu ?_
      split
      · next he => exact hg _ (hu.readLine.left he) _
      · next he => exact hu.readLine.left he
      · next he => exact (hu.readLine.left he).report.advance
      · next he => exact (hu.readLine.left he).report.advance
      · next he => exact (hu.readLine.left he).parkAt

theorem Keeps.answer {o status handle} : Keeps s₀ (s.answer o status handle) := hk.setG.advance

theorem Keeps.execLaunch {o} : Leads s₀ (execLaunch o s) := by
  dsimp only [Machine.execLaunch]
  refine .act (hk.withPacket fun _ hu _ => ?_)
  refine .ite hu.answer ?_
  split
  · exact hu.answer
  · exact hu.allocate.answer

theorem Keeps.execLaunchW {o} : Leads s₀ (execLaunchW o s) := by
  dsimp only [Machine.execLaunchW]
  refine .act (hk.withPacket fun _ hu _ => ?_)
  refine .ite hu.answer ?_
  split
  · exact .ite hu hu.updMe
  · exact .ite (.ite hu hu.updMe) hu.allocate.answer

theorem Keeps.withTag {i w go} (hg : ∀ t, Keeps s₀ (go t)) : Keeps s₀ (s.withTag i w go) := .ite hk.illegalAddr (hg _)

theorem Keeps.execLarm {o} : Leads s₀ (execLarm o s) := by
  dsimp only [Machine.execLarm]
  refine .act (hk.notHandler (hk.withTag fun _ => ?_))
  refine hk.withPacket fun _ hu _ => ?_
  refine .ite hu.answer (.ite hu.answer ?_)
  split
  · exact hu.answer
  · exact hu.allocate.setTag.answer

theorem Keeps.execLdisarm {o} : Leads s₀ (execLdisarm o s) := by
  unfold Machine.execLdisarm
  refine .act (hk.notHandler (hk.withTag fun _ => ?_))
  split
  · exact hk.disarm.answer
  · exact hk.answer

theorem Keeps.execLwait {o} : Leads s₀ (execLwait o s) := by
  dsimp only [Machine.execLwait]
  refine .act (hk.notHandler (.ite hk.trap ?_))
  split
  · next he => exact (Keeps.left he (.ite_fst (.pair hk) hk.checkAddr)).trap
  · next he =>
      have hu := Keeps.left he (.ite_fst (.pair hk) hk.checkAddr)
      split
      · exact hu.setG.advance
      · refine .ite hu.setG.advance (.ite hu (.ite hu.freeEntry.setG.advance ?_))
        split
        · next he => exact (hu.writeLine.left he).freeEntry.setG.advance
        · next he => exact (hu.writeLine.left he).report.freeEntry.setG.advance
        · next he => exact (hu.writeLine.left he).report.freeEntry.setG.advance
        · next he => exact hu.writeLine.left he
        · next he =>
            have hu2 := hu.writeLine.left he
            split
            · next he => exact (hu2.reach.left he).parkAt
            · next he => exact (hu2.reach.left he).freeEntry.setG.advance

theorem Keeps.leaveBarriers {f} : Keeps s₀ (s.leaveBarriers f) :=
  .foldl (.rest (hk.foldl fun _ _ hu => hu.leaveAll)) fun _ _ hu => hu.countArr
theorem Keeps.closeGlaze {e} : Keeps s₀ (s.closeGlaze e) := .tiles (hk.foldl fun _ _ hu => hu.applyDead) .mapVals
theorem Keeps.countOverrun {n} : Keeps s₀ (s.countOverrun n) := .ite hk hk.setReg
theorem Keeps.missDeadline {entry} : Keeps s₀ (s.missDeadline entry) :=
  .ite (.ite hk.setEntry.makePost.countOverrun.killLaunch hk.setEntry.makePost.countOverrun) hk
theorem Keeps.checkClosing {e} : Keeps s₀ (s.checkClosing e) := .ite (.ite hk.missDeadline.closeGlaze.setEntry hk.missDeadline) hk

theorem Keeps.finishThread {f} : Keeps s₀ (s.finishThread f) := by
  dsimp only [State.finishThread]
  split
  · exact .checkClosing (.updEntry (.ite hk.unbindAll.dropMessages.clearFrame.freeUrgent hk.unbindAll.dropMessages.clearFrame))
  · exact .ite hk.unbindAll.dropMessages.clearFrame.freeUrgent hk.unbindAll.dropMessages.clearFrame

theorem Keeps.haltThread {f both} : Keeps s₀ (s.haltThread f both) :=
  .ite hk.leaveBarriers.leaveBarriers.finishThread.finishThread hk.leaveBarriers.finishThread

theorem Keeps.handOver {f} : Keeps s₀ (s.handOver f) := by
  dsimp only [State.handOver]
  exact hk.updFrame.updFrame

theorem Keeps.haltOwes {hf t} : Keeps s₀ (s.haltOwes hf t) := by
  dsimp only [State.haltOwes]
  split
  · exact .ite hk.updFrame.recordTrap (.ite hk.eret hk.eret.takeLate)
  · split
    · next he => exact hk.takeAmo.left he
    · next he => exact .ite hk.eret (hk.takeAmo.left he).eret.takeTrap

theorem Keeps.execHalt {o} : Leads s₀ (execHalt o s) := by
  dsimp only [Machine.execHalt]
  refine .act ?_
  split
  · exact .ite hk (.ite hk.handOver (.ite hk.haltOwes hk.freeUrgent.haltThread))
  · exact .ite hk (.ite hk.handOver hk.haltThread)

/-! ### The scheduler -/

theorem Keeps.useShare {die p} : Keeps s₀ (s.useShare die p) := hk.share .put
theorem Keeps.renewShare {die} : Keeps s₀ (s.renewShare die) := .ite (hk.share .filter) hk

theorem Keeps.choose {resv parts l} : Keeps s₀ (s.choose resv parts l) := by
  induction l generalizing s resv parts with
  | nil => exact hk
  | cons p t ih => exact .ite (ih (.ite hk.rest.useShare hk.rest)) (ih hk)

theorem Keeps.execScheduleDecision {die} : Leads s₀ (execScheduleDecision die s) := .act hk.choose.renewShare
theorem Keeps.copyRecord {key len bs} : Keeps s₀ (s.copyRecord key len bs) := hk.zeroBytes.clearPoison.writeBytes.noteSpan

theorem Keeps.copyRecords {x} : Keeps s₀ (s.copyRecords x) := by
  dsimp only [State.copyRecords]
  split
  · exact hk
  · exact hk.foldl fun _ _ hu1 => .ite (hu1.foldl fun _ _ hu2 => hu2.copyRecord) (hu1.foldl fun _ _ hu2 => hu2.copyRecord)

theorem Keeps.setChannels {e x} : Keeps s₀ (s.setChannels e x) := hk.foldl fun _ _ hu => hu.foldl fun _ _ hu1 => hu1.setChan
theorem Keeps.startThread {e f ltile} : Keeps s₀ (s.startThread e f ltile) :=
  .ite hk.setFrame.dropHeader.clearUrgentAccs hk.setFrame.dropHeader
theorem Keeps.enterDomain {f} : Keeps s₀ (s.enterDomain f) := hk.foldl fun _ _ hu => hu.setInst

theorem Keeps.execLaunchPlacement {entry} : Leads s₀ (execLaunchPlacement entry s) := by
  dsimp only [Machine.execLaunchPlacement]
  refine .act (.ite hk (.ite hk.rest (.ite ?_ (.ite (hk.rest.copyRecords.setChannels.setEntry.foldl fun _ _ hu => hu.updCore)
      (hk.rest.copyRecords.setChannels.setEntry.foldl fun _ _ hu => hu.startThread)))))
  split
  · exact hk.rest.setEntry.startThread.enterDomain
  · exact hk.rest

theorem Keeps.execFreezeRequest {core} : Leads s₀ (execFreezeRequest core s) := by
  dsimp only [Machine.execFreezeRequest]
  refine .act ?_
  split
  · exact hk
  · refine .ite hk (hk.markLeft.updCore.foldl fun _ _ hu1 => ?_)
    split
    · exact hu1.setFrame.unreserve
    · exact hu1

theorem Keeps.execHandlerFrameGrant {core} : Leads s₀ (execHandlerFrameGrant core s) := by
  dsimp only [Machine.execHandlerFrameGrant]
  refine .act (.ite hk ?_)
  split
  · exact .ite hk hk.updCore.startThread
  · split
    · exact .ite hk.updCore (.ite hk hk.updCore.enterHandler)
    · exact hk

theorem Keeps.execDeadlineMiss {entry} : Leads s₀ (execDeadlineMiss entry s) := .act hk.missDeadline
theorem Keeps.releaseFired {e} : Keeps s₀ (s.releaseFired e) := hk.tags .mapVals

theorem Keeps.endLaunch {e x} : Keeps s₀ (s.endLaunch e x) := by
  have hpurged {t : State} {g g'} (hu : Keeps s₀ t) :
      Keeps s₀ { t with cores := mapVals g t.cores, tiles := mapVals g' t.tiles } := (hu.cores .mapVals).tiles .mapVals
  have hdead {l : List (Nat × GEntry)} : Keeps s₀ (l.foldl (fun s g => s.applyDead g.1 g.2) (s.purgePraline e)) :=
    hk.purgePraline.foldl fun _ _ hu => hu.applyDead
  exact .releaseFreeze (.dropLaunchState (.clearAccums (.clearLinks (hpurged hdead))))

theorem Keeps.execLaunchCompletion {entry} : Leads s₀ (execLaunchCompletion entry s) :=
  .act (.ite hk (.ite hk.missDeadline.endLaunch.releaseFired.setEntry (.ite
      hk.missDeadline.endLaunch.releaseFired.setEntry.makePost hk.missDeadline.endLaunch.releaseFired.freeEntry)))

theorem Keeps.execUnitPost {place} : Leads s₀ (execUnitPost place s) := by
  unfold Machine.execUnitPost
  refine .act ?_
  split
  · exact hk
  · next x _ =>
    refine .ite hk ?_
    have hfree {u} (hu : Keeps s₀ u) : Keeps s₀ (match x.entry with | some e => u.freeEntry e | none => u) := by
      split
      · exact hu.freeEntry
      · exact hu
    have hmiss : Keeps s₀ (match x.entry with | some e => s.missDeadline e | none => s) := by
      split
      · exact hk.missDeadline
      · exact hk
    refine .ite (hfree hmiss.rest) ?_
    split
    · exact hk
    · next he => exact hfree (hmiss.rest.acceptPost.left he)

theorem Keeps.messageWord {t k} : Keeps s₀ (s.messageWord t k).1 := by
  unfold State.messageWord
  split
  · next he => exact Keeps.left he (hk.asSup fun _ hu => hu.readLine)
  · next he => exact Keeps.left he (hk.asSup fun _ hu => hu.readLine)

theorem Keeps.execTemplateFire {tag} : Leads s₀ (execTemplateFire tag s) := by
  dsimp only [Machine.execTemplateFire]
  refine .act ?_
  split
  · split
    · exact hk
    · exact .setTag (.allocate (.ite_fst hk.messageWord hk))
  · exact hk

/-! ### Events of cores -/

theorem Keeps.keepCommands {old core} : Keeps s₀ (s.keepCommands old core) := by
  have hput {t : State} {l : List (Nat × Accum)} {as} (hu : Keeps s₀ t) :
      Keeps s₀ { t with accums := l.foldl (fun m a => put m a.1 a.2) t.accums, accs := as } :=
    (hu.accums (.foldl fun _ _ => .put)).rest
  exact hput hk.updCore.updTile

theorem Keeps.retireCore {core frame} : Keeps s₀ (s.retireCore core frame) := by
  have hended {es fs : List Nat} : Keeps s₀ (fs.foldl (fun t f => t.endThread f)
      (es.foldl (fun t e => t.killLaunch e 0x05 0) (s.settleUpds core))) :=
    .foldl (hk.settleUpds.foldl fun _ _ hu => hu.killLaunch) fun _ _ hu => hu.endThread
  have hput {t : State} {l : List (Nat × Frame)} {n} (hu : Keeps s₀ t) :
      Keeps s₀ { t with frames := l.foldl (fun m p => put m p.1 p.2) t.frames, fresh := n } :=
    (hu.frames (.foldl fun _ _ => .put)).rest
  unfold State.retireCore
  dsimp only
  exact .ite (hput hended).updCore.keepCommands.updTile.notify
    (.ite (hput hended).updCore.rest (hput hended).updCore.setRegBits)

theorem Keeps.execL1mapWrite {w cluster v} : Leads s₀ (execL1mapWrite w cluster v s) :=
  .act (.ite hk (.ite (.updCluster (.ite hk.updCluster hk)) (.updCluster (.ite hk.updCluster hk))))
theorem Keeps.zeroL1 {c} : Keeps s₀ (s.zeroL1 c) := hk.zeroBytes.clearPoison

theorem Keeps.execL1mapChange {cluster} : Leads s₀ (execL1mapChange cluster s) := by
  unfold Machine.execL1mapChange
  refine .act ?_
  split
  · exact hk
  · exact .ite hk hk.zeroL1.updCluster

theorem Keeps.killPublisher {tile n g} : Keeps s₀ (s.killPublisher tile n g) := by
  unfold State.killPublisher
  extract_lets s1 s2 live s3
  have h2 : Keeps s₀ s2 := .setGlaze (hk.foldl fun _ _ hu => hu.poisonBatch)
  have h3 : Keeps s₀ s3 := .ite h2 h2.applyDead.setGlaze
  split
  · exact h3.report
  · split
    · exact h3.updEntry
    · exact h3

theorem Keeps.killPublishers {cs} : Keeps s₀ (s.killPublishers cs) :=
  hk.foldl fun _ _ hu => hu.foldl fun _ _ hu1 => .ite hu1.killPublisher hu1

theorem Keeps.purgeWindowsIn {cs} : Keeps s₀ (s.purgeWindowsIn cs) := by
  have hgone {t : State} {n g g'} (hu : Keeps s₀ t) :
      Keeps s₀ { t with tiles := mapVals g t.tiles, frames := mapVals g' t.frames, windows := drop t.windows n } :=
    ((hu.tiles .mapVals).frames .mapVals).windows .drop
  dsimp only [State.purgeWindowsIn]
  exact hk.foldl fun _ _ hu => .ite (hgone hu).report (hgone hu)

theorem Keeps.clearClusters {cs} : Keeps s₀ (s.clearClusters cs) := by
  have hreset {t : State} {m pf pa pc rs us gt gc gp} (hu : Keeps s₀ t) (hcores : KeepsOrder t.cores m) :
      Keeps s₀ { t with
        tiles := mapVals gt t.tiles, cores := m, frames := t.frames.filter pf, accums := t.accums.filter pa,
        chans := t.chans.filter pc, resvs := rs, unfenced := us, clusters := mapVals gc t.clusters,
        power := mapVals gp t.power } :=
    hu.ofMaps (fun h => by simp_all [mapsSorted_iff, hcores.imp, sorted_mapVals, sorted_filter]) rfl
  exact hreset (hk.foldl fun _ _ hu => hu.zeroL1) (.foldl fun _ _ => .foldl fun _ _ => .put)

theorem Keeps.disarmCtx {ctxs} : Keeps s₀ (s.disarmCtx ctxs) := hk.foldl fun _ _ hu => hu.disarm
theorem Keeps.rectStart {r} : Keeps s₀ (s.rectStart r) :=
  .ite hk (.clearClusters (.purgeWindowsIn (.killPublishers (.disarmCtx (hk.setRegBits.foldl fun _ _ hu => hu.killLaunch)))))
theorem Keeps.execRectReset {w rect} : Leads s₀ (execRectReset w rect s) := .act (.ite hk.rectStart hk)

theorem Keeps.execUncorrectableStateError {cluster} : Leads s₀ (execUncorrectableStateError cluster s) := by
  unfold Machine.execUncorrectableStateError
  refine .act ?_
  split
  · exact hk.rectStart
  · exact hk

theorem Keeps.tileTested {t ok} : Keeps s₀ (s.tileTested t ok) := .ite hk.updTile (hk.updTile.cores .mapVals)

/-! ### Events of clusters -/

theorem Keeps.plainWrite {w r v} : Keeps s₀ (s.plainWrite w r v) := hk.setReg
theorem Keeps.emptyTag {t} : Keeps s₀ (s.emptyTag t) := hk.setTag

theorem Keeps.releaseOldest {t} : Keeps s₀ (s.releaseOldest t) := by
  dsimp only [State.releaseOldest]
  split
  · exact hk.setTag
  · exact hk

theorem Keeps.writeReg {w r v} : Keeps s₀ (s.writeReg w r v) := by
  dsimp only [State.writeReg]
  split
  · exact .ite hk.setReg.setRegBits hk.setReg.plainWrite
  · exact .ite (hk.slotErr .putFlag) hk.plainWrite
  · exact .ite hk.plainWrite.setRegBits hk.plainWrite
  · exact hk.updCore
  · exact .ite (.emptyTag (.ite hk.plainWrite.releaseOldest hk.plainWrite)) (.ite hk.plainWrite.releaseOldest hk.plainWrite)
  · exact hk.setReg
  · exact .ite hk.updCluster hk
  · exact hk.plainWrite

theorem Keeps.execRegisterWrite {w addr v} : Leads s₀ (execRegisterWrite w addr v s) := by
  unfold Machine.execRegisterWrite
  refine .act ?_
  split
  · exact hk
  · exact .ite hk.writeReg hk

theorem Keeps.execLkill {w v} : Leads s₀ (execLkill w v s) := by
  dsimp only [Machine.execLkill]
  refine .act (.ite hk.plainWrite ?_)
  split
  · exact .ite hk.plainWrite.killLaunch hk.plainWrite.setRegBits
  · exact hk.plainWrite.setRegBits

theorem Keeps.execTctlInvalidate {w tag v} : Leads s₀ (execTctlInvalidate w tag v s) := .act (.ite hk.writeReg hk)

/-! ### Events of the package -/

theorem Keeps.dismiss {e} : Keeps s₀ (s.dismiss e) := by
  dsimp only [State.dismiss]
  refine .freeEntry (.rest ?_)
  split
  · exact hk.disarm
  · exact hk.killLaunch.endLaunch
  · exact hk.killLaunch.endLaunch
  · exact hk

theorem Keeps.dropTags {p} : Keeps s₀ (s.dropTags p) := hk.foldl fun _ _ hu => hu.clearRegBits.emptyTag
theorem Keeps.prstEnd {p} : Keeps s₀ (s.prstEnd p) := .ite hk.clearRegBits hk

theorem Keeps.execPrstGo {w part} : Leads s₀ (execPrstGo w part s) :=
  .act (.ite hk (.prstEnd (.dropTags (.svars (.foldl (hk.setRegBits.foldl fun _ _ hu => hu.dismiss) fun _ _ hu => hu.rectStart)
      .filter))))

theorem Keeps.countReset {r} : Keeps s₀ (s.countReset r) := .ite hk hk.setReg
theorem Keeps.execRectResetRelease {rect failed} : Leads s₀ (execRectResetRelease rect failed s) :=
  .act (.ite hk (.prstEnd (.countReset (.clearRegBits (hk.foldl fun _ _ hu => hu.tileTested)))))

theorem Keeps.wipeAll : Keeps s₀ s.wipeAll := by
  have hwiped := (hk.memory (wf_filter · fun c => isHbmKey c.1)).wiping
  exact hwiped.ofMaps (fun h => by simp_all [State.wipeAll, mapsSorted_iff, sorted_mapVals, sorted_filter, sorted]) rfl

theorem Keeps.boot : Keeps s₀ s.boot := .ite hk.rest.writeBytes.setFrame.enterDomain hk.rest

theorem Keeps.execPackageReset : Leads s₀ (execPackageReset s) := by
  have hreset : Keeps s₀ { State.reset with
      tape := s.tape, turn := s.turn, fresh := s.fresh, ckRate := s.ckRate, fkRate := s.fkRate,
      mem := s.mem.filter (fun c => isHbmKey c.1), poison := s.poison.filter (fun c => isHbmKey (c.1 * 8)),
      life := s.life, idKey := s.idKey, keys := s.keys, msi := s.msi, ringOut := s.ringOut, hostOut := s.hostOut,
      reports := s.reports } := by
    refine ⟨⟨fun h => wf_filter (hk.mem h) _, fun h => ?_, hk.hostOut, hk.msi, hk.reports, hk.ringOut⟩, hk.life, fun _ => rfl⟩
    have hpoison : sorted s.poison = true := by have := hk.maps h; simp_all [mapsSorted_iff]
    simp [mapsSorted_iff, State.reset, sorted, sorted_filter hpoison]
  unfold Machine.execPackageReset
  split
  · exact .fault
  · exact .next hreset.boot

theorem Keeps.execHbmScrubEnd : Leads s₀ (execHbmScrubEnd s) := by
  refine .act_goes ?_
  split
  · have hu := (hk.zeroBytes (lo := 2 ^ 49) (hi := 2 ^ 53)).clearPoison (lo := 2 ^ 49) (hi := 2 ^ 53)
    exact ⟨⟨hu.mem, hu.maps, hu.hostOut, hu.msi, hu.reports, hu.ringOut⟩, .inl hu.life⟩
  · exact hk.goes

theorem Keeps.asM {α p region} {go : State → State × α} (hg : ∀ u, Keeps s₀ u → Keeps s₀ (go u).1) :
    Keeps s₀ (s.asM p region go).1 := by
  unfold State.asM
  dsimp only
  split
  · exact (hg _ hk.setFrame).setFrame
  · exact (hg _ hk.setFrame).frames .drop

theorem Keeps.fwRead {p a n} : Keeps s₀ (s.fwRead p a n).1 := by
  dsimp only [State.fwRead]
  exact hk.asM fun _ hu => hu.readRun

theorem Keeps.fwWrite {p a region bs} : Keeps s₀ (s.fwWrite p a region bs).1 := hk.asM fun _ hu => hu.writeRun

omit hk in
/-- A token names the state after the present one (spec/16 R369). -/
theorem tokenOk_next {life to_ : Nat} {bs : List Byte} (h : tokenOk life to_ bs = true) : to_ = life + 1 := by
  simp only [tokenOk, Bool.and_eq_true, beq_iff_eq] at h
  exact h.1.2

/-- A change of the life cycle to the next state, with the scrub that follows. -/
theorem Keeps.moved_wipeAll {l b} (hlife : l = s₀.life + 1) (hle : l ≤ 3) :
    Goes s₀ ({ s with life := l, idKey := b } : State).wipeAll := by
  obtain ⟨hmem, hmaps, hhost, hmsi, hreports, hring⟩ := hk.wipeAll.toKeepsForm
  exact ⟨⟨hmem, hmaps, hhost, hmsi, hreports, hring⟩, .inr ⟨hlife, hle, rfl⟩⟩

theorem Keeps.execLcreq {w v} : Leads s₀ (execLcreq w v s) := by
  refine .act_goes ?_
  split
  · exact hk.goes
  · split
    · exact hk.plainWrite.goes
    · split
      next u bs he =>
      have hu := hk.plainWrite.fwRead.left he
      split
      · next htoken =>
        have hnext : v.toNat % 4 = s₀.life + 1 := (tokenOk_next htoken).trans (congrArg (· + 1) hk.life)
        exact (hu.moved_wipeAll hnext (by omega)).keeps (Keeps.refl _).boot
      · exact hu.setRegBits.goes

theorem Keeps.fwWrites {p l} : Keeps s₀ (s.fwWrites p l).1 := by
  induction l generalizing s with
  | nil => exact hk
  | cons x t ih =>
    unfold State.fwWrites
    split
    · next he => exact ih (hk.fwWrite.left he)
    · next he => exact hk.fwWrite.left he

theorem Keeps.loadImage {addr len part p} : Keeps s₀ (s.loadImage addr len part p).1 := by
  dsimp only [State.loadImage]
  refine .ite_fst hk.fwRead (.ite_fst hk.fwRead (.ite_fst hk.fwRead (.ite_fst hk.fwRead ?_)))
  split
  · next he => exact (hk.fwRead.fwWrites.left he).rest
  · exact hk.fwRead

theorem Keeps.execImageLoadRequest {slot places} : Leads s₀ (execImageLoadRequest slot places s) := by
  dsimp only [Machine.execImageLoadRequest]
  refine .act (.ite hk ?_)
  split
  · next he =>
      have hu := Keeps.left he (hk.asSup fun _ hu => hu.readLine)
      exact .makePost (.setTag (.ite_fst hu hu.loadImage))
  · next he => exact Keeps.left he (hk.asSup fun _ hu => hu.readLine)

theorem Keeps.setPow {c p} : Keeps s₀ (s.setPow c p) := hk.power .put

theorem Keeps.writeCpwr {c v} : Keeps s₀ (s.writeCpwr c v) :=
  .ite hk.setRegBits (.ite hk.setReg.setPow (.ite hk.setReg.setPow (.ite hk.setReg.setPow (.ite hk.setReg.setPow (.ite
      hk.setReg.setPow hk.setReg)))))

theorem Keeps.cpwrBy {w c v bit to1} : Keeps s₀ (s.cpwrBy w c v bit to1) := .ite hk.writeCpwr hk
theorem Keeps.execQreqSet {w cluster v} : Leads s₀ (execQreqSet w cluster v s) := .act hk.cpwrBy
theorem Keeps.execQreqClear {w cluster v} : Leads s₀ (execQreqClear w cluster v s) := .act hk.cpwrBy
theorem Keeps.execSave {w cluster v} : Leads s₀ (execSave w cluster v s) := .act hk.cpwrBy
theorem Keeps.execCkg {w cluster v} : Leads s₀ (execCkg w cluster v s) := .act hk.cpwrBy
theorem Keeps.execRailg {w cluster v} : Leads s₀ (execRailg w cluster v s) := .act hk.cpwrBy
theorem Keeps.execQuiesceComplete {cluster} : Leads s₀ (execQuiesceComplete cluster s) := .act (.ite hk.setPow hk)
theorem Keeps.execCwake {w cluster} : Leads s₀ (execCwake w cluster s) := .act (.ite hk.setPow hk)

theorem Keeps.wakeTests {c} : Keeps s₀ (s.wakeTests c) := by
  dsimp only [State.wakeTests]
  refine .ite (hk.draw.foldl fun _ _ hu => hu.tileTested) ?_
  split
  · exact .rectStart (hk.draw.foldl fun _ _ hu1 => hu1.tileTested)
  · exact hk.draw.foldl fun _ _ hu1 => hu1.tileTested

theorem Keeps.execWakeRestoreComplete {cluster} : Leads s₀ (execWakeRestoreComplete cluster s) :=
  .act (.ite hk (.ite (.wakeTests (.setPow (.clearRegBits (.tiles (.ite hk.zeroL1 hk) .mapVals)))) (.setPow (.clearRegBits
      (.tiles (.ite hk.zeroL1 hk) .mapVals)))))

/-! ### The ring -/

theorem Keeps.ringSend {k urg kind head ws t} (he : s.ringSend k urg kind head ws = some t) : Keeps s₀ t := by
  obtain ⟨e, -, rfl⟩ := Option.map_eq_some_iff.1 he
  exact hk.portSend

theorem Keeps.asPoster {α w part} {go : State → State × α} (hg : ∀ u, Keeps s₀ u → Keeps s₀ (go u).1) :
    Keeps s₀ (s.asPoster w part go).1 := by
  unfold State.asPoster
  refine .ite_fst ?_ ((((hg _ hk.setEntry.setFrame).frames .drop).cores .drop).launches .drop).rest
  dsimp only
  split
  · exact (hg _ hk.setFrame).setFrame
  · exact (hg _ hk.setFrame).frames .drop

theorem Keeps.ringServed {die tag} : Keeps s₀ (s.ringServed die tag) := hk.setRing
theorem Keeps.ringAdd {die j} : Keeps s₀ (s.ringAdd die j) := hk.setRing
theorem Keeps.setRJob {die n j} : Keeps s₀ (s.setRJob die n j) := hk.setRing

theorem Keeps.ringTake {die tag serves go} (hg : ∀ u, Keeps s₀ u → ∀ j, Keeps s₀ (go u j)) :
    Keeps s₀ (s.ringTake die tag serves go) := by
  unfold State.ringTake
  refine .ite hk ?_
  split
  · exact hk
  · exact .ite hk (.ite hk.ringAdd (.ite hk.ringAdd (hg _ hk _)))

theorem Keeps.execRingConfig {die tag} : Leads s₀ (execRingConfig die tag s) :=
  .act (hk.ringTake fun _ hu _ => hu.rest.portSend.ringAdd)
theorem Keeps.execRingQuery {die tag} : Leads s₀ (execRingQuery die tag s) := .act (hk.ringTake fun _ hu _ => hu.ringAdd)

theorem Keeps.ringPost {tag ws bad w} : Keeps s₀ (s.ringPost tag ws bad w).1 := by
  unfold State.ringPost
  refine .ite_fst hk ?_
  split
  · exact hk
  · next he =>
      have hu := hk.acceptPost.left he
      exact .pair (.ite hu hu.poisonPost)
  · next he => exact hk.acceptPost.left he

theorem Keeps.execRingPostReceive {die tag data damaged} : Leads s₀ (execRingPostReceive die tag data damaged s) := by
  unfold Machine.execRingPostReceive
  refine .act (.ite hk ?_)
  dsimp only
  split
  · next u ok he =>
      have hu := hk.ringPost.left he
      have hcounted : Keeps s₀ (if damaged = true then u.countError die else u) := .ite hu.countError hu
      cases hsent : State.ringSend _ data.pos data.urg 2 [data.die, data.num, if ok then 0 else 9] [] with
      | none => exact hcounted.setRing
      | some t => exact hcounted.setRing.ringSend hsent
  · next he => exact hk.ringPost.left he

theorem Keeps.execRingSend {die tag} : Leads s₀ (execRingSend die tag s) := by
  refine .act (hk.ringTake fun u hu j => ?_)
  dsimp only
  generalize hp : u.asPoster j.who j.part _ = p
  have hv : Keeps s₀ p.1 := by
    rw [← hp]
    refine hu.asPoster fun u hu => ?_
    split
    · next he _ => exact (hu.checkAddr.left he).readRun
    · next he _ => exact hu.checkAddr.left he
  refine .ite hv.ringAdd (.ite hv.ringAdd ?_)
  split
  · exact hv.ringServed
  · exact hv.ringAdd
  · refine .ite ?_ ?_
    · split
      · next he => exact (hv.ringPost.left he).ringAdd
      · next he => exact (hv.ringPost.left he).ringAdd
      · exact hv.ringServed
    · split
      · next he => exact (hv.ringSend he).ringAdd
      · exact hv.ringAdd

theorem Keeps.sendChunk {j c final x t} (he : s.sendChunk j c final x = some t) : Keeps s₀ t := hk.ringSend he
theorem Keeps.readChunk {j c} : Keeps s₀ (s.readChunk j c).1 := hk.asPoster fun _ hu => hu.readRun
theorem Keeps.writeChunk {j c bs} : Keeps s₀ (s.writeChunk j c bs).1 := hk.asPoster fun _ hu => hu.writeRun
theorem Keeps.ringFail {die n j st} : Keeps s₀ (s.ringFail die n j st) := hk.setRJob.sendRound

theorem Keeps.finalChunk {die n j c d x} : Keeps s₀ (s.finalChunk die n j c d x) := by
  dsimp only [State.finalChunk]
  split
  · next he => exact hk.writeChunk.left he
  · next he => exact (hk.writeChunk.left he).ringFail
  · next he =>
      have hu := hk.writeChunk.left he
      refine .ite hu.setRJob ?_
      split
      · next he => exact hu.setRJob.sendChunk he
      · exact hu.setRJob.ringFail

theorem Keeps.partialChunk {die n j c x} : Keeps s₀ (s.partialChunk die n j c x) := by
  dsimp only [State.partialChunk]
  split
  · next he => exact hk.readChunk.left he
  · next he => exact (hk.readChunk.left he).ringFail
  · next he =>
      have hu := hk.readChunk.left he
      refine .ite hu.finalChunk ?_
      split
      · next he => exact (hu.sendChunk he).setRJob
      · exact hu.ringFail

theorem Keeps.startChunk {die n c} : Keeps s₀ (s.startChunk die n c) := by
  unfold State.startChunk
  split
  · exact .ite hk.partialChunk hk
  · exact hk

theorem Keeps.ringDenied {j} : Keeps s₀ (s.ringDenied j).1 := by
  have hone {v : State × Bool} {a need} (hv : Keeps s₀ v.1) :
      Keeps s₀ (if v.2 = true then v else ((v.1.checkAddr j.who.frame a 1 need .other).1,
        (v.1.checkAddr j.who.frame a 1 need .other).2.isSome)).1 := .ite_fst hv (.pair hv.checkAddr)
  exact hk.asPoster fun _ hu => hu.foldl_fst fun _ _ hv => hone (hone (hone (hone hv)))

theorem Keeps.execAllred {die tag} : Leads s₀ (execAllred die tag s) := by
  unfold Machine.execAllred
  refine .act (hk.ringTake fun _ hu _ => ?_)
  refine .ite hu.ringAdd ?_
  split
  · next he => exact (hu.ringDenied.left he).ringAdd
  · next he =>
      have hu1 := hu.ringDenied.left he
      exact .ite hu1.ringAdd.sendAbort (hu1.ringAdd.foldl fun _ _ hu2 => hu2.startChunk)

theorem Keeps.execReduceChunkArrival {die job chunk final data poison flags flel engfail} : Leads s₀ (execReduceChunkArrival die
    job chunk final data poison flags flel engfail s) := by
  dsimp only [Machine.execReduceChunkArrival]
  refine .act ?_
  split
  · exact hk
  · exact .ite hk (.ite (.ite hk.ringFail hk) (.ite hk (.ite hk.ringFail (.ite (.ite hk hk.finalChunk) (.ite hk
      hk.partialChunk)))))

theorem Keeps.ringEnd {die n j} : Keeps s₀ (s.ringEnd die n j) := .setTag (.ite hk.setRing.rest hk.setRing)

theorem Keeps.execRingCommandComplete {die job answer} : Leads s₀ (execRingCommandComplete die job answer s) := by
  unfold Machine.execRingCommandComplete
  refine .act ?_
  split
  · exact hk
  · refine .ite hk.ringEnd ?_
    split
    · exact hk.ringEnd
    · exact hk

theorem Keeps.execAllredTimeout {die job} : Leads s₀ (execAllredTimeout die job s) := by
  unfold Machine.execAllredTimeout
  refine .act ?_
  split
  · exact hk
  · exact .ite hk.ringFail hk

theorem Keeps.execAllredAbort {die job} : Leads s₀ (execAllredAbort die job s) := by
  unfold Machine.execAllredAbort
  refine .act ?_
  split
  · exact hk
  · exact .ite hk.setRJob hk

theorem Keeps.flitsOut {l} : Keeps s₀ (s.flitsOut l) := hk.foldl fun _ _ hu => hu.draw.ringOuts

theorem Keeps.flit {die} : Keeps s₀ (s.flit die) := by
  dsimp only [State.flit]
  refine .ite hk ?_
  split
  · exact hk
  · exact hk.setRing.flitsOut

theorem Keeps.flitAck {die n} : Keeps s₀ (s.flitAck die n) := .ite hk hk.setRing
theorem Keeps.flitIn {die seq room} : Keeps s₀ (s.flitIn die seq room) := .ite hk hk.setRing
theorem Keeps.resendFlits {die} : Keeps s₀ (s.resendFlits die) := hk.flitsOut

theorem Keeps.badRingLine {die place} : Keeps s₀ (s.badRingLine die place) := by
  dsimp only [State.badRingLine]
  split
  · exact hk
  · exact .ite hk hk.setRing.countError

theorem Keeps.unreached {m} : Keeps s₀ (s.unreached m) := by
  dsimp only [State.unreached]
  split
  · split
    · exact hk.setRJob
    · exact hk
  · split
    · exact hk.ringFail
    · exact hk
  · split
    · exact hk.ringFail
    · exact hk
  · exact hk

theorem Keeps.resend {m} : Keeps s₀ (s.resend m) := by
  dsimp only [State.resend]
  split
  · exact hk.portSend
  · exact hk.unreached

theorem Keeps.linkLost {die} : Keeps s₀ (s.linkLost die) := hk.setRing.foldl fun _ _ hu => hu.resend
theorem Keeps.reroute : Keeps s₀ s.reroute := hk.setRing.setRing.foldl fun _ _ hu => hu.resend
theorem Keeps.farLink {link up} : Keeps s₀ (s.farLink link up) := hk.rest.reroute

/-! ### Turns and register stores -/

theorem Keeps.committedBy {r f} : Keeps s₀ (State.committedBy r s f) := .ite hk hk.setCore

theorem Keeps.writeEvent {w r v} : Leads s₀ (s.writeEvent w r v) := by
  dsimp only [State.writeEvent]
  split
  · exact hk.execLcreq
  · exact hk.execLkill
  · exact hk.execL1mapWrite
  · exact .ite hk.execRegisterWrite (.ite hk.execFresumeAbandon hk.execFresumeRetry)
  · split
    · exact hk.execL2opClean
    · exact hk.execL2opFlush
    · exact hk.execL2opUnpin
    · exact hk.execL2opXinv
    · exact hk.execRegisterWrite
  · exact .ite hk.execRectReset hk.execRegisterWrite
  · exact .ite hk.execPrstGo hk.execRegisterWrite
  · exact .ite hk.execRegisterWrite hk.execTctlInvalidate
  · exact .ite hk.execCwake hk.execRegisterWrite
  · split
    · exact .ite hk.execQreqSet hk.execQreqClear
    · exact hk.execSave
    · exact hk.execCkg
    · exact hk.execRailg
    · exact hk.execRegisterWrite
  · exact hk.execRegisterWrite

theorem Keeps.pass {ck fk} : Keeps s₀ (s.pass ck fk) := hk.pauseGaps.rest

end

end Sys2Proof.Machine
end

section
/-!
PROOFS. What every step keeps: every instruction and event, the moves of the device, and a step of the machine (O58).
-/
namespace Sys2Proof.Machine

section
variable {s₀ s : State} (hk : Keeps s₀ s)
include hk

/-! ### Every instruction and event -/

theorem Keeps.exec {i} : Leads s₀ (exec i s) := by
  cases i with
  | plbMissWalk => exact .act (.ite hk.globRights hk.tableHeader)
  | meshLoadWindow => exact .act (hk.twoPhase .putFlag)
  | add | sub | mul | mulh | and | or | xor | shl | shr | sar | min | max | slt | sltn | mov | addI | andI | orI | xorI
    | shlI | shrI | sarI | sltI | sltnI | li | bfx | bfi | clz | popc | sextB | sextH | sextW | zextB | zextH | zextW
    | lea => exact .act hk.setA
  | div | divn | rem | remn => exact .act hk.division
  | beq | bne | blt | bge | bltn | bgen | bp => exact .act hk.condBranch
  | jmp => exact .act hk.jumpTo
  | call => exact .act hk.setG.jumpTo
  | jr => exact .act (hk.indirect fun _ hu => hu)
  | callr => exact .act (hk.indirect fun _ hu => hu.setG)
  | ret => exact .act (.ite hk.trap (.ite hk.trap hk.jumpTo))
  | padJ | padC | padH | padL => exact .act hk.advance
  | lrec | ldb | ldbn | ldh | ldhn | ldw | ldwn | ldd => exact .act hk.load
  | stb | sth | stw | std => exact .act hk.store
  | vadd | vsub | vmul | vmin | vmax | vand | vor | vxor | vshl | vshr | vcmul => exact .act hk.vbin
  | vshlI | vshrI | vabs | vneg | vsat | vrcp | vrsq | vexp2 | vlog2 | vsincos => exact .act hk.vun
  | vcmac | vmac | vfma => exact .act hk.vacc
  | vdot | vbcast | vcvt => exact .act hk.vmap
  | vsel => exact .act (hk.withStreams (hk.retire fun _ hu => hu.commitV))
  | vcmp => exact .act (hk.withStreams (hk.retire fun _ hu => hu.takeUnits.setPreg))
  | vwhile => exact .act hk.setPreg.advance
  | vwidth | time => exact .act hk.setG.advance
  | vshuf | vzip | vunzip => exact .act hk.vmove
  | vredAdd | vredMin | vredMax => exact .act hk.vred
  | vmovsToG => exact .act (.ite hk.illegalValue (hk.withStreams hk.takeUnits.setG.advance))
  | vmovsToV => exact .act (.ite hk.illegalValue (hk.withStreams (hk.retire fun _ hu => hu.commitV)))
  | gang => exact .act (.ite hk.illegalValue (.ite hk.trap (.ite (.ite hk.formGang hk.formGang) hk.updMe)))
  | ungang => exact .act (.ite hk.illegalValue hk.advance.splitGang)
  | vld =>
    exact .act (.ite (hk.burst (fun _ hu => hu.issueVload)) (hk.withStreams (hk.vecCheck.orTrap fun _ hu => hu.issueVload)))
  | vlds | vldx => exact .act hk.gather
  | vsts => exact .act (hk.withStreams (hk.vecCheck.orTrap fun _ hu => hu.takeUnits.issueVstore))
  | stbind => exact .act (hk.tileOnly (.ite hk.streamTrap (.ite hk.streamTrap hk.rebind)))
  | stbindc => exact .act (hk.tileOnly (.ite hk.rebind hk.streamTrap))
  | stbindn => exact .act (hk.tileOnly (.ite hk.streamTrap hk.rebind))
  | stunbind => exact .act (hk.tileOnly (.ite hk.unbind.advance hk))
  | ststat | inpeek => exact .act (hk.tileOnly hk.setG.advance)
  | fencex | fencexCopy | fencexMatrix => exact .act hk.fencex
  | tstate => exact .act (hk.tileOnly (hk.withDesc hk.setG.advance))
  | trel => exact .act (hk.tileOnly (hk.withDesc (.ite hk hk.updDesc.advance)))
  | cpy | cpy2 | cpyg | cpys | cpyt => exact .act hk.copyIssue
  | mma | mmac | mtern => exact .act hk.mmaIssue
  | mlda | msta => exact .act hk.mldaIssue
  | mzero => exact .act (hk.withMatrix (hk.withAcc hk.matrixIssue))
  | mstat => exact .act (hk.withMatrix hk.setG.advance)
  | arrive | arriveRlx => exact .act (hk.arrive fun _ hu => hu.advance)
  | bar => exact .act (hk.arrive fun _ hu => hu.updMe.advance)
  | bwait => exact .act (hk.barOnly (.ite hk hk.advance))
  | bjoin => exact .act (hk.barOnly hk.joinAll.advance)
  | bleave => exact .act (hk.barOnly hk.leaveAll.advance)
  | bstat => exact .act (hk.barOnly hk.setG.advance)
  | wake => exact .act (.ite hk.illegalAddr (.ite hk.illegalAddr hk.rest.advance))
  | sleep => exact .act (.ite hk.illegalValue (.ite hk.illegalAddr (.ite hk.setG.advance (.ite hk hk.updMe.setG.advance))))
  | fence => exact .act (.ite hk.advance hk)
  | gunsub => exact .act (hk.withEntry fun _ => hk.applyDead.setGlaze.setG.advance)
  | gstat => exact .act (hk.withEntry fun _ => hk.setG.advance)
  | gflush => exact .act (hk.withLaunch (fun _ => .ite (.ite hk.sendAll.updMe hk) (.ite hk hk.advance)))
  | sfree => exact .act (hk.notHandler (hk.withSvar fun _ _ => .ite hk.setG.advance hk.setSvar.setG.advance))
  | sop => exact .act (hk.notHandler (hk.withSvar fun _ _ => .ite hk hk.setSvar.setG.advance))
  | swait => exact .act (hk.notHandler (hk.withSvar (fun _ _ => .ite hk.setSvar.setG.advance (.ite hk hk.setSvar))))
  | phasec | phasex => exact .act hk.setPhase.advance
  | trap => exact .act hk.trap
  | wfi => exact .act (hk.notHandler (.ite hk.advance hk))
  | yield => exact .act (hk.notHandler hk.advance)
  | ifence => exact .act (.ite hk (.advance (.updMe (.ite hk.updTile.updFrame hk.updTile))))
  | plbinv => exact .act (.ite hk.privTrap (.ite hk.illegalAddr (.ite hk.dropPlb.updMe (.ite hk.advance hk))))
  | checkerRetry => exact .act (.ite hk hk.setCore)
  | coreRetire => exact .act (.ite hk.retireCore hk)
  | packageFatal | ringConfirm => exact .act (.ite hk.rest hk)
  | tctlRel => exact .act (.ite hk.releaseOldest hk)
  | attestationRequest => exact .act (.ite hk hk.reportss)
  | thermalStep => exact .act (.ite hk hk.setReg.setRegBits)
  | thermalShutdown => exact .act hk.rest
  | d2dModuleFail => exact .act (.ite hk (.ite hk.rest.setRegBits.rest hk.rest.setRegBits))
  | d2dFlitReplay => exact .act hk
  | hostMailboxWrite => exact .act (.ite hk hk.writeBytes)
  | flitNakReplay => exact .act (.ite hk.setRing.resendFlits hk)
  | laneFailure => exact .act (.ite hk (.makePost (.ite hk.setRing.linkLost (.ite hk.setRing.resendFlits hk.setRing))))
  | ringLinkUp => exact .act (.ite hk.setRing hk)
  | bankGrant => exact hk.execBankGrant
  | sliceGrant => exact hk.execSliceGrant
  | l2MissFill => exact hk.execL2MissFill
  | hbmWriteAccept => exact hk.execHbmWriteAccept
  | hostStoreComplete => exact hk.execHostStoreComplete
  | hostReadComplete => exact hk.execHostReadComplete
  | loadDataReturn => exact hk.execLoadDataReturn
  | lateOutcomeTrap => exact hk.execLateOutcomeTrap
  | waitrsWatchReport => exact hk.execWaitrsWatchReport
  | waitrsReread => exact hk.execWaitrsReread
  | pageWalk => exact hk.execPageWalk
  | fresumeRetry w => exact hk.execFresumeRetry (w := w)
  | fresumeAbandon w => exact hk.execFresumeAbandon (w := w)
  | l2Scrub => exact hk.execL2Scrub
  | l2opClean => exact hk.execL2opClean
  | l2opFlush => exact hk.execL2opFlush
  | l2opUnpin => exact hk.execL2opUnpin
  | l2opXinv => exact hk.execL2opXinv
  | l2opEnd => exact hk.execL2opEnd
  | icacheFillInstall => exact hk.execIcacheFillInstall
  | illegalInstruction => exact hk.execIllegalInstruction
  | instructionFetchFault => exact hk.execInstructionFetchFault
  | amo => exact hk.execAmo
  | lr => exact hk.execLr
  | sc => exact hk.execSc
  | waitrs => exact hk.execWaitrs
  | vtunp => exact hk.execVtunp
  | vst => exact hk.execVst
  | inpop => exact hk.execInpop
  | streamGeneratorRead => exact hk.execStreamGeneratorRead
  | streamStorePerform => exact hk.execStreamStorePerform
  | tdef => exact hk.execTdef
  | copyTake => exact hk.execCopyTake
  | copyBurstCheck => exact hk.execCopyBurstCheck
  | copyCompletion => exact hk.execCopyCompletion
  | mwait => exact hk.execMwait
  | matrixTake => exact hk.execMatrixTake
  | matrixCompletion => exact hk.execMatrixCompletion
  | matrixStepCheckFail => exact hk.execMatrixStepCheckFail
  | fillLastWrite => exact hk.execFillLastWrite
  | readerEnd => exact hk.execReaderEnd
  | commandStallTimeout => exact hk.execCommandStallTimeout
  | barrierArrival => exact hk.execBarrierArrival
  | phaseCompletion => exact hk.execPhaseCompletion
  | wakeDelivery => exact hk.execWakeDelivery
  | tadd => exact hk.execTadd
  | tskip => exact hk.execTskip
  | topen => exact hk.execTopen
  | tclose => exact hk.execTclose
  | tdrain => exact hk.execTdrain
  | ticketArrival => exact hk.execTicketArrival
  | ticketRepresent => exact hk.execTicketRepresent
  | ticketApplication => exact hk.execTicketApplication
  | ticketGapTimeout => exact hk.execTicketGapTimeout
  | gsub => exact hk.execGsub
  | glazeInitialCopy => exact hk.execGlazeInitialCopy
  | glazeBatchTimeout => exact hk.execGlazeBatchTimeout
  | glazeBatchApply => exact hk.execGlazeBatchApply
  | hostPost => exact hk.execHostPost
  | salloc => dsimp only [Machine.exec]; exact hk.execSalloc
  | send => exact hk.execSend
  | channelItemArrival => exact hk.execChannelItemArrival
  | recv => exact hk.execRecv
  | crd => exact hk.execCrd
  | cwr => exact hk.execCwr
  | eret => exact hk.execEret
  | rng => exact hk.execRng
  | launch => exact hk.execLaunch
  | launchW => exact hk.execLaunchW
  | larm => exact hk.execLarm
  | ldisarm => exact hk.execLdisarm
  | lwait => exact hk.execLwait
  | halt o => exact hk.execHalt (o := o)
  | scheduleDecision => exact hk.execScheduleDecision
  | launchPlacement => exact hk.execLaunchPlacement
  | freezeRequest => exact hk.execFreezeRequest
  | handlerFrameGrant => exact hk.execHandlerFrameGrant
  | deadlineMiss => exact hk.execDeadlineMiss
  | launchCompletion => exact hk.execLaunchCompletion
  | unitPost => exact hk.execUnitPost
  | templateFire => exact hk.execTemplateFire
  | l1mapWrite => exact hk.execL1mapWrite
  | l1mapChange => exact hk.execL1mapChange
  | rectReset => exact hk.execRectReset
  | uncorrectableStateError => exact hk.execUncorrectableStateError
  | registerWrite => exact hk.execRegisterWrite
  | lkill => exact hk.execLkill
  | tctlInvalidate => exact hk.execTctlInvalidate
  | prstGo => exact hk.execPrstGo
  | rectResetRelease => exact hk.execRectResetRelease
  | packageReset => exact hk.execPackageReset
  | hbmScrubEnd => exact hk.execHbmScrubEnd
  | lcreq => exact hk.execLcreq
  | imageLoadRequest => exact hk.execImageLoadRequest
  | qreqSet => exact hk.execQreqSet
  | qreqClear => exact hk.execQreqClear
  | save => exact hk.execSave
  | ckg => exact hk.execCkg
  | railg => exact hk.execRailg
  | quiesceComplete => exact hk.execQuiesceComplete
  | cwake => exact hk.execCwake
  | wakeRestoreComplete => exact hk.execWakeRestoreComplete
  | ringConfig => exact hk.execRingConfig
  | ringQuery => exact hk.execRingQuery
  | ringPostReceive => exact hk.execRingPostReceive
  | ringSend => exact hk.execRingSend
  | allred => exact hk.execAllred
  | reduceChunkArrival => exact hk.execReduceChunkArrival
  | ringCommandComplete => exact hk.execRingCommandComplete
  | allredTimeout => exact hk.execAllredTimeout
  | allredAbort => exact hk.execAllredAbort

/-! ### What a frame does at its turn -/

/-- The state of a hold or of an instruction that issues keeps, and an outcome leads. -/
def Issue.Kept (s₀ : State) : Issue → Prop
  | .hold t => Keeps s₀ t
  | .out o => Leads s₀ o
  | .run _ t => Keeps s₀ t

omit hk in
theorem Issue.Kept.ite {c : Prop} [Decidable c] {x y : Issue} (hx : x.Kept s₀) (hy : y.Kept s₀) :
    (if c then x else y).Kept s₀ := by
  split
  · exact hx
  · exact hy

theorem Keeps.hold : (Issue.hold s).Kept s₀ := hk

theorem Keeps.run {i} : (Issue.run i s).Kept s₀ := hk

omit hk in
theorem Leads.out {o} (ho : Leads s₀ o) : (Issue.out o).Kept s₀ := ho

theorem Keeps.ready {f i} : (s.ready f i).Kept s₀ := by
  unfold State.ready
  refine .ite (.out (.act hk.takeTrap)) ?_
  split
  · exact .ite (.out (.act hk.takeTrap)) (.ite hk.hold (.run hk.updFrame.rest))
  · exact .ite hk.hold (.run hk.rest)

theorem Keeps.fetchNext {f} : (s.fetchNext f).Kept s₀ := by
  have hu : Keeps s₀ (if s.headerDue f then (s.tableHeader f).1 else s) := .ite hk.tableHeader hk
  unfold State.fetchNext
  dsimp only
  split
  · next he => exact (hu.fetchChain.left he).hold
  · next he => exact .out (hu.fetchChain.left he).execInstructionFetchFault
  · next he =>
      have hv := hu.fetchChain.left he
      split
      · exact .out hv.execIllegalInstruction
      · exact hv.ready

theorem Keeps.issue {f} : (s.issue f).Kept s₀ :=
  .ite hk.hold (.ite hk.fetchNext (.ite (.out hk.execLateOutcomeTrap) (.ite (.out (.act hk.mergeAmo)) (.ite hk.hold
    (.ite hk.updFrame.fetchNext hk.fetchNext)))))

theorem Keeps.issueTurn {f} : Leads s₀ (s.issueTurn f) := by
  have hissue := hk.issue (f := f)
  unfold State.issueTurn
  split
  · next he => rw [he] at hissue; exact .act hissue
  · next he => rw [he] at hissue; exact .onNext hissue fun u => (Keeps.refl u).committedBy
  · next he => rw [he] at hissue; exact .onNext hissue.exec fun u => (Keeps.refl u).committedBy

theorem Keeps.ioTurn {f seq o} (ho : s.ioTurn f seq = some o) : Leads s₀ o := by
  unfold State.ioTurn at ho
  split at ho
  · cases ho
  · dsimp only at ho
    split at ho
    · cases ho; exact .act hk.devicePost
    · split at ho
      · cases ho
      · split at ho
        · cases ho
        · cases ho
          exact (Keeps.ite hk.stagePart.settle.plainWrite hk.stagePart.settle).writeEvent
    · cases ho

theorem Keeps.ioTurn_getD {f seq o} (ho : Leads s₀ o) : Leads s₀ ((s.ioTurn f seq).getD o) := by
  cases he : s.ioTurn f seq with
  | none => exact ho
  | some o' => exact hk.ioTurn he

/-! ### The device's own moves -/

/-- Each of the moves leads from `s`. -/
def MovesLead (s₀ s : State) (l : List Move) : Prop := ∀ m ∈ l, Leads s₀ (m s)

end

section
variable {s₀ s : State} {α : Type} {l k : List Move}

theorem MovesLead.nil : MovesLead s₀ s [] := nofun

theorem MovesLead.cons {m : Move} (hm : Leads s₀ (m s)) (hl : MovesLead s₀ s l) : MovesLead s₀ s (m :: l) :=
  List.forall_mem_cons.2 ⟨hm, hl⟩

theorem MovesLead.append (hl : MovesLead s₀ s l) (hr : MovesLead s₀ s k) : MovesLead s₀ s (l ++ k) :=
  List.forall_mem_append.2 ⟨hl, hr⟩

theorem MovesLead.flatMap {xs : List α} {g : α → List Move} (hg : ∀ x, MovesLead s₀ s (g x)) : MovesLead s₀ s (xs.flatMap g) := by
  intro m hm
  obtain ⟨x, -, hx⟩ := List.mem_flatMap.1 hm
  exact hg x m hx

theorem MovesLead.map {xs : List α} {g : α → Move} (hg : ∀ x, Leads s₀ (g x s)) : MovesLead s₀ s (xs.map g) :=
  List.forall_mem_map.2 fun x _ => hg x

theorem MovesLead.filterMap {xs : List α} {g : α → Option Move} (hg : ∀ x m, g x = some m → Leads s₀ (m s)) :
    MovesLead s₀ s (xs.filterMap g) := by
  intro m hm
  obtain ⟨x, -, hx⟩ := List.mem_filterMap.1 hm
  exact hg x m hx

theorem MovesLead.rotate {n} (hl : MovesLead s₀ s l) : MovesLead s₀ s (rotate l n) :=
  .append (fun m hm => hl m (List.mem_of_mem_drop hm)) fun m hm => hl m (List.mem_of_mem_take hm)

theorem MovesLead.first {o} (hl : MovesLead s₀ s l) (ho : firstMove s l = some o) : Leads s₀ o := by
  induction l with
  | nil => cases ho
  | cons m t ih =>
    obtain ⟨hm, ht⟩ := List.forall_mem_cons.1 hl
    unfold firstMove at ho
    split at ho
    · cases ho; exact hm
    · exact ih ht ho

end

section
variable {s₀ s : State} (hk : Keeps s₀ s)
include hk

theorem Keeps.partMoves {r f seq i p} : MovesLead s₀ s (State.partMoves r f seq i p) := by
  unfold State.partMoves
  split
  · exact .cons hk.execBankGrant .nil
  · exact .cons hk.execSliceGrant (.cons hk.execPageWalk (.cons hk.execL2MissFill (.cons hk.execHbmWriteAccept
      (.cons hk.execHostStoreComplete .nil))))
  · exact .nil

theorem Keeps.accMoves {r} : MovesLead s₀ s (State.accMoves r) :=
  .flatMap fun _ => .append (.cons hk.execLoadDataReturn (.cons hk.execWaitrsWatchReport (.cons hk.execWaitrsReread
    (.cons (hk.ioTurn_getD (.next hk)) .nil)))) (.flatMap fun _ => hk.partMoves)

theorem Keeps.frameMoves {r} : MovesLead s₀ s (State.frameMoves r) :=
  .flatMap fun _ => .cons (.act hk.prefetch) (.flatMap fun _ => .cons hk.execStreamGeneratorRead
    (.cons hk.execStreamStorePerform (.cons hk.execTicketArrival (.cons hk.execTicketRepresent .nil))))

theorem Keeps.tileMoves {r} : MovesLead s₀ s (State.tileMoves r) :=
  .flatMap fun _ => .append
    (.flatMap fun _ => .append
      (.cons hk.execCopyTake (.cons hk.execCopyBurstCheck (.cons hk.execCopyCompletion (.cons hk.execMatrixTake
        (.cons hk.execMatrixCompletion .nil)))))
      (.flatMap fun _ => .append (.cons hk.execFillLastWrite (.cons hk.execReaderEnd .nil))
        (.map fun _ => hk.execCommandStallTimeout)))
    (.flatMap fun _ => .cons hk.execGlazeInitialCopy (.cons hk.execGlazeBatchTimeout (.cons hk.execGlazeBatchApply .nil)))

theorem Keeps.syncMoves {r} : MovesLead s₀ s (State.syncMoves r) :=
  .append (.append (.append (.append (.map fun _ => hk.execBarrierArrival) (.map fun _ => hk.execPhaseCompletion))
    (.map fun _ => hk.execWakeDelivery)) (.map fun _ => hk.execChannelItemArrival))
    (.flatMap fun _ => .cons hk.execTicketGapTimeout (.map fun _ => hk.execTicketApplication))

theorem Keeps.launchMoves {r} : MovesLead s₀ s (State.launchMoves r) :=
  .append (.append (.append (.append (.cons hk.execScheduleDecision (.cons hk.execScheduleDecision .nil))
    (.flatMap fun _ => .cons hk.execLaunchPlacement (.cons hk.execDeadlineMiss (.cons hk.execLaunchCompletion .nil))))
    (.map fun _ => hk.execUnitPost)) (.map fun _ => hk.execTemplateFire))
    (.flatMap fun _ => .cons hk.execFreezeRequest (.cons hk.execHandlerFrameGrant .nil))

theorem Keeps.deviceMoves {r} : MovesLead s₀ s (State.deviceMoves r) := by
  refine .append (.append (.append (.append
    (.flatMap fun _ => .cons hk.execL1mapChange (.map fun _ => hk.execIcacheFillInstall))
    (.flatMap fun _ => .cons hk.execQuiesceComplete (.cons hk.execWakeRestoreComplete .nil)))
    (.map fun _ => hk.execRectResetRelease)) (.flatMap fun _ => .filterMap fun _ _ hm => ?_)) (.cons hk.execHbmScrubEnd .nil)
  split at hm
  · cases hm; exact hk.execL2opEnd
  · cases hm

theorem Keeps.ringMoves {r} : MovesLead s₀ s (State.ringMoves r) :=
  .flatMap fun _ => .append (.append
    (.flatMap fun _ => .cons hk.execRingSend (.cons hk.execAllred (.cons hk.execRingQuery (.cons hk.execRingConfig .nil))))
    (.flatMap fun _ => .append (.cons hk.execRingCommandComplete (.cons hk.execAllredTimeout .nil))
      (.map fun _ => .act hk.startChunk)))
    (.cons (.act hk.flit) .nil)

theorem Keeps.moves {r} : MovesLead s₀ s (State.moves r) :=
  .append (.append (.append (.append (.append (.append hk.accMoves hk.frameMoves) hk.tileMoves) hk.syncMoves) hk.launchMoves)
    hk.deviceMoves) hk.ringMoves

theorem Keeps.nextEvent {n o} (ho : s.nextEvent n = some o) : Leads s₀ o := hk.moves.rotate.first ho

/-! ### A turn, and a step -/

theorem Keeps.eventFirst {n} : Leads s₀ (s.eventFirst n) := by
  unfold State.eventFirst
  split
  · next he => exact hk.nextEvent he
  · split
    · exact hk.issueTurn
    · exact .act hk

theorem Keeps.frameFirst {n} : Leads s₀ (s.frameFirst n) := by
  unfold State.frameFirst
  split
  · exact hk.issueTurn
  · cases he : s.nextEvent n with
    | none => exact .act hk
    | some o => exact hk.nextEvent he

theorem Keeps.ownTurn : Leads s₀ s.ownTurn := .onNext (.ite hk.eventFirst hk.frameFirst) fun u => (Keeps.refl u).rest

theorem Keeps.turnOf {x} : Leads s₀ (s.turnOf x) := by
  cases x with
  | issue f => exact hk.issueTurn
  | prefetch f => exact .act hk.prefetch
  | event i => exact .ite (.act hk) hk.exec
  | regStore f seq => exact hk.ioTurn_getD (.act hk)
  | time ck fk => exact .act hk.pass
  | softError k => exact .act hk.softError
  | corrected die => exact .act hk.countError
  | badLine die k => exact .act hk.badLine
  | flit die => exact .act hk.flit
  | flitAck die n => exact .act hk.flitAck
  | flitIn die seq room => exact .act hk.flitIn
  | badReturn f seq line => exact .act hk.badReturn
  | badBurst tile urg => exact .act hk.badBurst
  | badHostStore f seq i => exact .act hk.badHostStore
  | badRingLine die i => exact .act hk.badRingLine
  | farLink link up => exact .act hk.farLink
  | startChunk die job chunk => exact .act hk.startChunk

end

theorem step_leads (s : State) : Leads s (step s) := by
  refine .onNext ?_ fun u => (Keeps.refl u).pass
  split
  · exact (Keeps.refl s).rest.turnOf
  · exact (Keeps.refl s).ownTurn

/-- Settles O58: every operation of the machine keeps the form (`Keeps`), but LCREQ, which moves the life cycle on, and the end
of the scrub (`Goes`); a step is a run of them. -/
theorem memoryFormKept : Obligations.MemoryFormKept :=
  ⟨fun s t hmem hs => (step_leads s t hs).mem hmem, fun s t hmaps hs => (step_leads s t hs).maps hmaps,
    fun s t hs => ⟨(step_leads s t hs).life, (step_leads s t hs).hostOut, (step_leads s t hs).msi,
      (step_leads s t hs).reports, (step_leads s t hs).ringOut⟩⟩

end Sys2Proof.Machine
end

section
/-!
PROOFS. PHASE, the time base and the thread's generator (spec/09 R221, spec/01 R30, spec/02 R54).
-/
namespace Sys2Proof.Machine

section
variable {s : State} {o : Opnd}

/-! ### PHASEC and PHASEX -/

theorem next_setPhase (b : Bool) (i : Instr) : (s.setPhase b).next i = s.next i := by
  rw [State.setPhase, next_updFrame]
  exact fun _ => rfl

theorem setPhase_goesTo (b : Bool) {w : Word} {i : Instr} {n : Nat} (hn : (encode i).length = n)
    (hw : (s.frame (s.named s.cur)).phase &&& ~~~1#64 ||| (if b then 1#64 else 0#64) = w) :
    Within s (s.setPhase b) [s.named s.cur] ∧
    (s.setPhase b).frame (s.named s.cur) = { s.frame (s.named s.cur) with phase := w } ∧
    GoesTo (s.setPhase b) ((s.setPhase b).advance n) (s.next i) := by
  refine ⟨updFrame_within .., ?_, ?_⟩
  · rw [State.setPhase, frame_updFrame_same, hw]
  · rw [← next_setPhase b]
    exact advance_goesTo _ hn

theorem clear_set_low (w : Word) : w &&& ~~~1#64 ||| 1#64 = w ||| 1#64 := by
  ext i hi
  by_cases h0 : i = 0 <;> simp [-BitVec.reduceNot, BitVec.getElem_one, h0]

/-! ### RNG -/

/-- One flag of element 0 raises its trap when ARITH.TE has its bit (spec/01 R23, R24). -/
theorem arithTrap_flag (s : State) {b : Nat} (hb : b < 8) : s.arithTrap s.cur [(0, 2 ^ b)] false =
    if s.me.arith.getLsbD (8 + b) then some (if b = 6 then 0x09 else 0x08, 2 ^ b, 0) else none := by
  have hbit : (trapEnables s.me.arith).testBit b = s.me.arith.getLsbD (8 + b) := by
    rw [trapEnables, BitVec.getLsbD, Nat.testBit_mod_two_pow (j := 8), Nat.testBit_div_two_pow (n := 8)]
    simp [hb, Nat.add_comm]
  have hen : orFlags [(0, 2 ^ b)] &&& trapEnables (s.frame s.cur).arith = (s.me.arith.getLsbD (8 + b)).toNat * 2 ^ b := by
    rw [← hbit, Nat.and_comm, orFlags, List.foldl_cons, List.foldl_nil, Nat.zero_or]
    exact Nat.and_two_pow _ b
  rw [State.arithTrap, arithTrapOf, hen]
  interval_cases b <;> cases s.me.arith.getLsbD _ <;> rfl

/-- The counter of the thread's generator stands at `c`. -/
def State.setRngc (s : State) (c : BitVec 48) : State := s.updMe fun x => { x with rngc := c }

theorem next_setRngc (c : BitVec 48) (i : Instr) : (s.setRngc c).next i = s.next i := by
  rw [State.setRngc, State.updMe, next_updFrame]
  exact fun _ => rfl

theorem named_setRngc (c : BitVec 48) : (s.setRngc c).named s.cur = s.named s.cur := by
  have hme : (s.setRngc c).frame s.cur = { s.me with rngc := c } := me_updMe s _
  exact named_congr (by rw [hme]; rfl)

theorem drawRng_one (s : State) : s.drawRng s.cur 1 = (s.setRngc (BitVec.ofNat 48 (s.me.rngc.toNat + 1)),
    [zrng s.me.seed (s.frame (s.named s.cur)).ltid s.me.rngc.toNat], if s.me.rngc.toNat + 1 < 2 ^ 48 then none else some 0) := by
  have hword : (s.me.rngc.toNat + 0) % 2 ^ 48 = s.me.rngc.toNat := Nat.mod_eq_of_lt s.me.rngc.isLt
  simp only [State.drawRng, List.range_one, List.map_cons, List.map_nil, Nat.one_ne_zero, if_false, false_or, Nat.sub_self,
    Nat.min_zero]
  rw [← State.me, hword]
  rfl

/-- RNG is an instruction of the one flag RNGW, or of none. -/
theorem exec_rng (hs : s.halt = none) : exec (.rng o) s = .next
    ((s.setRngc (BitVec.ofNat 48 (s.me.rngc.toNat + 1))).retire (o.halves 3)
      (if s.me.rngc.toNat + 1 < 2 ^ 48 then [] else [(0, 2 ^ 7)])
      (·.setG o.ra (zrng s.me.seed (s.frame (s.named s.cur)).ltid s.me.rngc.toNat))) := by
  refine (act_running hs _).trans ?_
  rw [drawRng_one]
  by_cases hc : s.me.rngc.toNat + 1 < 2 ^ 48 <;> simp only [hc, if_true, if_false] <;> rfl

theorem rng_writes (hs : s.halt = none) (hc : s.me.rngc.toNat + 1 < 2 ^ 48) : ∃ t, exec (.rng o) s = .next t ∧
    WritesG (s.updMe fun x => { x with rngc := x.rngc + 1 }) t o.ra
      (zrng s.me.seed (s.frame (s.named s.cur)).ltid s.me.rngc.toNat) (s.next (.rng o)) := by
  have hcount : BitVec.ofNat 48 (s.me.rngc.toNat + 1) = s.me.rngc + 1 := by
    rw [BitVec.ofNat_add, BitVec.ofNat_toNat, BitVec.setWidth_eq]; rfl
  refine ⟨_, exec_rng hs, ?_⟩
  rw [if_pos hc, retire_nil, hcount, ← next_setRngc (s.me.rngc + 1)]
  exact setG_advance_writesG _ _ _ (encode_length_page rfl rfl rfl)

/-- When the counter wraps, RNGW is set first; it traps under ARITH.TE bit 15, and else the word is written. -/
theorem rng_wraps (hs : s.halt = none) (hc : s.me.rngc.toNat + 1 = 2 ^ 48) :
    ∃ u, Within (s.setRngc 0) u [s.named s.cur] ∧ FlagsOnly (s.setRngc 0) u ∧ TakesFlags (s.setRngc 0) u s.cur [(0, 128)] ∧
      (s.me.arith.getLsbD 15 = false → ∃ t, exec (.rng o) s = .next t ∧
        WritesG u t o.ra (zrng s.me.seed (s.frame (s.named s.cur)).ltid s.me.rngc.toNat) (s.next (.rng o))) ∧
      (s.me.arith.getLsbD 15 = true → exec (.rng o) s = .next (u.trap 0x08 128 0)) := by
  have hrng := exec_rng (o := o) hs
  have harith : (s.setRngc 0).me.arith = s.me.arith := by rw [State.setRngc, me_updMe]
  have htrap := arithTrap_flag (s.setRngc 0) (b := 7) (by decide)
  rw [if_neg (by omega), hc, show BitVec.ofNat 48 (2 ^ 48) = 0 from rfl] at hrng
  rw [harith] at htrap
  refine ⟨(s.setRngc 0).mergeFlags s.cur [(0, 2 ^ 7)] false, named_setRngc (s := s) 0 ▸ mergeFlags_within ..,
    mergeFlags_flagsOnly .., mergeFlags_takesFlags .., fun hte => ?_, fun hte => ?_⟩
  · rw [hte] at htrap
    refine ⟨_, hrng.trans (congrArg _ (retire_done htrap ..)), ?_⟩
    rw [← next_setRngc 0, ← next_mergeFlags _ s.cur [(0, 2 ^ 7)] false]
    exact setG_advance_writesG _ _ _ (encode_length_page rfl rfl rfl)
  · rw [hte] at htrap
    exact hrng.trans (congrArg _ (retire_trap htrap ..))

end
end Sys2Proof.Machine

namespace Sys2Proof.SystemForms
open Sys2Proof.Machine

/-- Settles O29: PHASE of the named thread alone changes, and RNG ends as an instruction of the one flag RNGW, or of none. -/
theorem phaseTimeAndRandom : Obligations.PhaseTimeAndRandom := by
  intro o s hs
  exact ⟨⟨_, _, act_running hs _, setPhase_goesTo true (encode_length_page rfl rfl rfl) (clear_set_low _)⟩,
    ⟨_, _, act_running hs _, setPhase_goesTo false (encode_length_page rfl rfl rfl) (BitVec.or_zero ..)⟩,
    ⟨_, act_running hs _, setG_advance_writesG s o.ra _ (encode_length_page rfl rfl rfl)⟩, rng_writes hs, rng_wraps hs⟩

end Sys2Proof.SystemForms
end

section
/-!
PROOFS. Atomics on their way, and the return of WAITRS (spec/09 R210–R214, spec/02 R55).
-/
namespace Sys2Proof.Machine

/-! ### The words that an AMO draws (spec/02 R55) -/

/-- The draw of an AMO: the state after it, the words, and where the counter wraps. -/
def State.amoDraw (u : State) (o : Opnd) : State × List (BitVec 64) × Option Nat :=
  if amoFltAdd o then u.drawStoch (if o.et = .cf16 then 2 else 1) else (u, [], none)

theorem amoDraw_eq (u : State) (o : Opnd) :
    u.amoDraw o = if amoWords u o = 0 then (u, [], none) else u.drawRng u.cur (amoWords u o) := by
  have hpos : (if o.et = .cf16 then 2 else 1) ≠ 0 := by split <;> decide
  unfold State.amoDraw State.drawStoch amoWords
  cases amoFltAdd o <;> cases (AR.ofWord u.me.arith).stoch <;> simp [hpos]

theorem amoDraw_within (u : State) (o : Opnd) : Within u (u.amoDraw o).1 [u.cur] := by
  unfold State.amoDraw
  split
  · exact drawStoch_within ..
  · exact .refl ..

theorem amoDraw_cur (u : State) (o : Opnd) : (u.amoDraw o).1.cur = u.cur := by rw [(amoDraw_within u o).rest]

theorem amoDraw_me (u : State) (o : Opnd) :
    (u.amoDraw o).1.me = { u.me with rngc := u.me.rngc + BitVec.ofNat 48 (amoWords u o) } := by
  rw [amoDraw_eq]
  split
  · next h0 => rw [h0, BitVec.add_zero]
  · next h0 =>
    simp only [State.drawRng, h0, if_false, State.me, cur_updFrame, frame_updFrame_same, BitVec.ofNat_add, BitVec.ofNat_toNat,
      BitVec.setWidth_eq]

/-- The counter wraps when the words do not fit below its end. -/
theorem amoDraw_wraps (u : State) (o : Opnd) :
    (if (u.amoDraw o).2.2.isSome then fRNGW else 0) = if u.me.rngc.toNat + amoWords u o < 2 ^ 48 then 0 else 128 := by
  rw [amoDraw_eq]
  split
  · next h0 => rw [h0, if_pos (show u.me.rngc.toNat + 0 < 2 ^ 48 from u.me.rngc.isLt)]; rfl
  · next h0 =>
    change (if (if amoWords u o = 0 ∨ u.me.rngc.toNat + amoWords u o < 2 ^ 48 then none else some _ : Option Nat).isSome
      then fRNGW else 0) = _
    simp only [h0, false_or]
    split <;> rfl

theorem amoWords_congr {s u : State} (hme : u.me = s.me) (o : Opnd) : amoWords u o = amoWords s o := by
  rw [amoWords, amoWords, hme]

/-! ### LR, SC and AMO by what their checks answer -/

section
variable {s u : State} {o : Opnd} (hs : s.halt = none)
include hs

theorem exec_lr_issues (h : s.scalarCheck (s.g o.rb).toNat 8 .r .atomic false = (u, none)) : exec (.lr o) s =
    .next ((u.issueAcc .lr (modsOf o) false [] o.ra 0 (.g o.ra 8 false)
      [u.newPart s.cur 0 (s.g o.rb).toNat (s.g o.rb).toNat 8 0 0 0]).advance (o.halves 3)) := by
  refine (act_running hs _).trans ?_
  rw [h]

theorem exec_lr_traps {c d x : Nat} (h : s.scalarCheck (s.g o.rb).toNat 8 .r .atomic false = (u, some (c, d, x))) :
    exec (.lr o) s = .next (u.trap c d (BitVec.ofNat 64 x)) := by
  refine (act_running hs _).trans ?_
  rw [h]

theorem exec_sc_issues (h : s.scalarCheck (s.g o.rb).toNat 8 .rw .atomic true = (u, none)) : exec (.sc o) s =
    .next ((u.issueAcc .sc (modsOf o) true [] o.ra 0 (.sc o.ra)
      [u.newPart s.cur 0 (s.g o.rb).toNat (s.g o.rb).toNat 8 255 (s.g o.ra) 0]).advance (o.halves 3)) := by
  refine (act_running hs _).trans ?_
  rw [h]

theorem exec_sc_traps {c d x : Nat} (h : s.scalarCheck (s.g o.rb).toNat 8 .rw .atomic true = (u, some (c, d, x))) :
    exec (.sc o) s = .next (u.trap c d (BitVec.ofNat 64 x)) := by
  refine (act_running hs _).trans ?_
  rw [h]

/-- The operands and the rounding mode of an AMO are legal (spec/09 R211, R212). -/
def AmoLegal (o : Opnd) (s : State) : Prop :=
  ¬ (amoCas o = true ∧ o.ra = 31) ∧ ¬ ((AR.ofWord s.me.arith).exact = true ∧ amoFltAdd o = true)

omit hs in
theorem amoLegal_iff : ((amoCas o && o.ra == 31) || ((AR.ofWord s.me.arith).exact && amoFltAdd o)) = true ↔ ¬ AmoLegal o s := by
  simp only [AmoLegal, Bool.or_eq_true, Bool.and_eq_true, beq_iff_eq]
  tauto

theorem exec_amo_illegal (hl : ¬ AmoLegal o s) : exec (.amo o) s = .next (s.illegalValue (.amo o)) := by
  refine (act_running hs _).trans ?_
  rw [if_pos (amoLegal_iff.2 hl)]

theorem exec_amo_traps (hl : AmoLegal o s) {c d x : Nat}
    (h : s.scalarCheck (s.g o.rc).toNat (amoSize o) .rw .atomic true = (u, some (c, d, x))) :
    exec (.amo o) s = .next (u.trap c d (BitVec.ofNat 64 x)) := by
  refine (act_running hs _).trans ?_
  rw [if_neg (amoLegal_iff.not_left.2 hl), h]

theorem exec_amo_issues (hl : AmoLegal o s) (h : s.scalarCheck (s.g o.rc).toNat (amoSize o) .rw .atomic true = (u, none)) :
    exec (.amo o) s = .next (((u.amoDraw o).1.issueAcc (.amo o.rb o.et.code) (modsOf o) true (u.amoDraw o).2.1 o.ra
      (if (u.amoDraw o).2.2.isSome then fRNGW else 0) (.amo o.ra (amoSize o) (amoSigned o))
      [(u.amoDraw o).1.newPart s.cur 0 (s.g o.rc).toNat (s.g o.rc).toNat (amoSize o) 0 (s.g o.ra) (s.g (o.ra + 1))]).advance
        (o.halves 3)) := by
  refine (act_running hs _).trans ?_
  rw [if_neg (amoLegal_iff.not_left.2 hl), h]
  rfl

/-- An AMO that passes draws its words and issues one access. -/
theorem amo_issues (hcur : u.cur = s.cur) (hf : u.frames = s.frames) (hl : AmoLegal o s)
    (h : s.scalarCheck (s.g o.rc).toNat (amoSize o) .rw .atomic true = (u, none)) :
    ∃ v t a, exec (.amo o) s = .next t ∧ Within u v [u.cur] ∧
      v.me = { u.me with rngc := u.me.rngc + BitVec.ofNat 48 (amoWords s o) } ∧
      Issues v t a (v.next (.amo o)) ∧
      OneAccess v a (s.g o.rc).toNat (amoSize o) (.amo o.rb o.et.code) (.amo o.ra (amoSize o) (amoSigned o)) (s.g o.ra)
        (modsOf o) ∧ a.areg = o.ra ∧ a.arith = s.me.arith ∧
      a.fl0 = if s.me.rngc.toNat + amoWords s o < 2 ^ 48 then 0 else 128 := by
  have hme := me_of_frames hcur hf
  have hdrawn := amoDraw_me u o
  have harith : (u.amoDraw o).1.me.arith = s.me.arith := by rw [hdrawn, hme]
  have hwrap := amoDraw_wraps u o
  rw [amoWords_congr hme] at hdrawn hwrap
  rw [hme] at hwrap
  exact ⟨(u.amoDraw o).1, _, _, exec_amo_issues hs hl h, amoDraw_within u o, hdrawn,
    issueAcc_issues _ _ _ _ _ _ _ _ _ (encode_length_page rfl rfl rfl), accRecord_oneAccess .., rfl, harith, hwrap⟩

end

/-! ### WAITRS -/

section
variable {s u : State} {o : Opnd} (hs : s.halt = none)
include hs

theorem exec_waitrs_issues (hw : s.myWait = none) (h : s.scalarCheck (s.g o.rb).toNat 8 .r .atomic false = (u, none)) :
    exec (.waitrs o) s = .next (u.issueAcc .waitrs (modsOf o) false [] o.ra 0 .none
      [u.newPart s.cur 0 (s.g o.rb).toNat (s.g o.rb).toNat 8 0 (s.g o.ra) 0]) := by
  refine (act_running hs _).trans ?_
  rw [hw, h]

theorem exec_waitrs_traps {c d x : Nat} (hw : s.myWait = none)
    (h : s.scalarCheck (s.g o.rb).toNat 8 .r .atomic false = (u, some (c, d, x))) :
    exec (.waitrs o) s = .next (u.trap c d (BitVec.ofNat 64 x)) := by
  refine (act_running hs _).trans ?_
  rw [hw, h]

theorem exec_waitrs_failed {a : Acc} {p : Part} {c : Nat} (hw : s.myWait = some (a, p)) (hp : p.stage = .failed c) :
    exec (.waitrs o) s = .next ((s.dropAcc a.frame a.seq).report s.cur ⟨a.seq, 0, c, p.va, a.lateDetail⟩) := by
  refine (act_running hs _).trans ?_
  rw [hw]
  simp only [hp]

theorem exec_waitrs_performed {a : Acc} {p : Part} (hw : s.myWait = some (a, p)) (hp : p.stage = .performed) :
    exec (.waitrs o) s = .next (((s.dropAcc a.frame a.seq).setG o.ra p.val).advance (o.halves 3)) := by
  refine (act_running hs _).trans ?_
  rw [hw]
  simp only [hp]

theorem exec_waitrs_holds {a : Acc} {p : Part} (hw : s.myWait = some (a, p))
    (hp : p.stage = .waiting ∨ p.stage = .watching ∨ p.stage = .polling) : exec (.waitrs o) s = .next s := by
  refine (act_running hs _).trans ?_
  rw [hw]
  rcases hp with hp | hp | hp <;> simp only [hp]

end
end Sys2Proof.Machine

namespace Sys2Proof.Atomics
open Sys2Proof.Machine

theorem atomicsIssue : AtomicsIssue := by
  intro o s u hs hcur hf
  have hlen {i : Instr} {f : Form} (h1 : form i = some f) (h2 : opnd i = some o) (h3 : f.page = 3) :
      (encode i).length = o.halves 3 := encode_length_page h1 h2 h3
  exact ⟨fun h => ⟨_, _, exec_lr_issues hs h, issueAcc_issues u _ _ _ _ _ _ _ _ (hlen rfl rfl rfl), accRecord_oneAccess .., rfl⟩,
    fun _ _ _ h => exec_lr_traps hs h,
    fun h => ⟨_, _, exec_sc_issues hs h, issueAcc_issues u _ _ _ _ _ _ _ _ (hlen rfl rfl rfl), accRecord_oneAccess .., rfl⟩,
    fun _ _ _ h => exec_sc_traps hs h,
    fun h hcas hexact => amo_issues hs hcur hf ⟨hcas, hexact⟩ h,
    fun _ _ _ h hcas hexact => exec_amo_traps hs ⟨hcas, hexact⟩ h,
    fun h => exec_amo_illegal hs fun ⟨hcas, hexact⟩ => h.elim hcas hexact⟩

theorem waitrsReadsThenReturns : WaitrsReadsThenReturns := by
  intro o s u hs
  refine ⟨fun hw h _ _ => ?issue, fun _ _ _ hw h => exec_waitrs_traps hs hw h, fun a p c hw hp _ => ?failed,
    fun a p hw hp _ => ?performed, fun _ _ hw hp => exec_waitrs_holds hs hw hp⟩
  case issue => exact ⟨_, _, exec_waitrs_issues hs hw h, rfl, fun _ => rfl, accRecord_oneAccess .., rfl⟩
  case failed =>
    exact ⟨s.dropAcc a.frame a.seq, _, exec_waitrs_failed hs hw hp, rfl, rfl, updFrame_within .., me_updMe ..⟩
  case performed =>
    exact ⟨s.dropAcc a.frame a.seq, _, exec_waitrs_performed hs hw hp, rfl, rfl,
      setG_advance_writesG (s.dropAcc a.frame a.seq) _ _ (encode_length_page rfl rfl rfl)⟩

/-- Settles O7: LR, SC and AMO issue one record or trap as their checks say; WAITRS issues once, and then answers as its one
access stands. -/
theorem atomics : Obligations.Atomics := ⟨atomicsIssue, waitrsReadsThenReturns⟩

end Sys2Proof.Atomics
end

section
/-!
PROOFS. Grants (spec/09 R207, R213): an SC writes the eight bytes of its word, whatever size its record holds.
-/
namespace Sys2Proof.NarrowStoreConditional
open Sys2Proof.Machine

/-- An access of one byte, at offset 8 of the L1 of cluster 0, whose data has a second byte. -/
def narrowPart : Part :=
  { elem := 0, va := 8, base := 8, lag := 0, tgt := .l1 0 8, crumb := false, size := 1, mask := 255, data := 0x200, data2 := 0,
    stage := .waiting, val := 0 }

/-- An SC of slot 0 of core 0 with that access, where an SC that issues has one of eight bytes. -/
def narrowSc : Acc :=
  { frame := 0, seq := 0, op := .sc, strong := false, scope := 0, cp := 0, urg := false, stamp := 0, arith := 0, rnd := [],
    gang := false, areg := 4, fl0 := 0, ret := .sc 4, parts := [narrowPart] }

/-- Its frame holds the reservation of the word; memory is zero. -/
def reserved : State :=
  { State.reset with frames := [(0, { Frame.empty .slot with stat := .ready })], accs := [narrowSc], resvs := [⟨0, l1Key 0 8, 1⟩] }

/-- The bank that holds the word takes it. -/
def narrowReq : BankReq := ⟨narrowSc, 0, narrowPart, 0, 0⟩

theorem pickBank_reserved : pickBank (reserved.bankPtr 0 1) (reserved.bankWaiters 0 1) = some narrowReq := by decide

/-- The byte at an address of the next state. -/
def byteAfter (k : Nat) : Out → Option Byte
  | .next t => some (t.byte k)
  | _ => none

/-- The grant writes the byte after the access. -/
theorem byteAfter_grant : byteAfter (l1Key 0 9) (exec (.bankGrant 0 1) reserved) = some 2 := by decide

/-- Refutes O8: a grant is said to write no byte beyond the size of its access; but an SC writes the eight bytes of its word
(spec/09 R213), and the statement also speaks of a state whose SC holds another size, which no instruction issues. -/
theorem not_grantsPerformAccesses : ¬ Obligations.GrantsPerformAccesses := by
  rintro ⟨hperforms, -⟩
  obtain ⟨hbank, -⟩ := hperforms reserved rfl rfl
  obtain ⟨t, ht, hgranted⟩ := hbank 0 1 narrowReq 0 8 pickBank_reserved rfl (by decide) rfl
  have hwrites : grantWrites reserved narrowSc narrowPart (l1Key 0 8) = some (0x200, 255) := by decide
  have hbyte := hgranted.bytes (l1Key 0 9)
  have hafter : some (t.byte (l1Key 0 9)) = some 2 := by rw [← byteAfter_grant, ht, byteAfter]
  rw [show grantWrites reserved narrowReq.acc narrowReq.p (l1Key 0 8) = _ from hwrites] at hbyte
  rw [hbyte] at hafter
  exact absurd hafter (by decide)

end Sys2Proof.NarrowStoreConditional
end

section
/-!
PROOFS. The instructions of the tile table (spec/10 R223–R228): the descriptor that TDEF and TREL change, the word of TSTATE, and
the checks of each in their order.
-/
namespace Sys2Proof.Machine

/-! ### One descriptor changes -/

/-- A change of a descriptor of the executing core's tile leaves every other descriptor and part of the machine alone. -/
theorem updDesc_takes (s : State) (n : Nat) (x : Desc → Desc) :
    DescTakes s (s.updDesc (tileOf s.myCore) n x) n (x ((s.tile (tileOf s.myCore)).desc n)) := by
  have htile (k : Nat) : (s.updDesc (tileOf s.myCore) n x).tile k = if k = tileOf s.myCore
      then { s.tile (tileOf s.myCore) with
        descs := put (s.tile (tileOf s.myCore)).descs n (x ((s.tile (tileOf s.myCore)).desc n)) }
      else s.tile k := tile_updTile ..
  refine ⟨rfl, fun k => ?_, ?_, fun k hk => ?_⟩
  · rw [htile, if_pos rfl]
    exact lookD_put ..
  · rw [htile, if_pos rfl]
  · rw [htile, if_neg hk]

/-- The TREL row of R226: a READY descriptor is EMPTY once no reader is left, and DRAINING before. -/
theorem release_eq (d : Desc) :
    d.release = if d.st = .ready then { d with st := if d.readers = 0 then .empty else .draining } else d := by
  unfold Desc.release
  cases d.st <;> rfl

/-- What TDEF makes of a descriptor: a new shape, base and owner, no error, and the state and readers that it had. -/
def State.defined (s : State) (o : Opnd) (d : Desc) : Desc :=
  { d with shape := s.g o.rc, base := (s.g o.rb).toNat, defd := true, err := false,
           owner := if s.inHandler then some s.cur else none }

/-! ### The word of TSTATE (spec/10 R225) -/

/-- STATE of a descriptor's word. -/
def DState.code (d : DState) : Nat := match d with | .empty => 0 | .filling => 1 | .ready => 2 | .draining => 3

theorem code_lt (d : DState) : d.code < 4 := by cases d <;> decide

/-- The fields of the word lie apart, and below bit 52. -/
theorem toNat_descWord (n : Nat) (d : Desc) : (descWord n d).toNat =
    d.st.code + 4 * d.defd.toNat + 8 * d.err.toNat + 16 * (decide (56 ≤ n)).toNat + 256 * (d.readers % 2 ^ 8) +
      65536 * (d.shape.toNat % 2 ^ 36) := by
  have hcode := code_lt d.st
  have hdefd : (if d.defd then 4 else 0) = 4 * d.defd.toNat := by cases d.defd <;> rfl
  have herr : (if d.err then 8 else 0) = 8 * d.err.toNat := by cases d.err <;> rfl
  have hurg : (if n ≥ 56 then 16 else 0) = 16 * (decide (56 ≤ n)).toNat := by
    by_cases h : 56 ≤ n <;> simp [h]
  have hdefdLt := d.defd.toNat_lt
  have herrLt := d.err.toNat_lt
  have hurgLt := (decide (56 ≤ n)).toNat_lt
  rw [show descWord n d = BitVec.ofNat 64 (d.st.code + (if d.defd then 4 else 0) + (if d.err then 8 else 0) +
    (if n ≥ 56 then 16 else 0) + d.readers % 256 * 256 + d.shape.toNat % 2 ^ 36 * 65536) from rfl,
    BitVec.toNat_ofNat, hdefd, herr, hurg]
  omega

theorem getLsbD_of_mod {w : Word} {k : Nat} {b : Bool} (h : w.toNat / 2 ^ k % 2 = b.toNat) : w.getLsbD k = b := by
  rw [BitVec.getLsbD, Nat.testBit_eq_decide_div_mod_eq, h]
  cases b <;> rfl

/-- Each field of the word (spec/10 R225). -/
theorem descWord_fields (n : Nat) (d : Desc) :
    (descWord n d).toNat % 4 = d.st.code ∧ (descWord n d).getLsbD 2 = d.defd ∧ (descWord n d).getLsbD 3 = d.err ∧
    (descWord n d).getLsbD 4 = decide (56 ≤ n) ∧ (descWord n d).toNat / 2 ^ 5 % 2 ^ 3 = 0 ∧
    (descWord n d).toNat / 2 ^ 8 % 2 ^ 8 = d.readers % 2 ^ 8 ∧
    (descWord n d).toNat / 2 ^ 16 = d.shape.toNat % 2 ^ 36 := by
  have hword := toNat_descWord n d
  have hcode := code_lt d.st
  have hdefd := d.defd.toNat_lt
  have herr := d.err.toNat_lt
  have hurg := (decide (56 ≤ n)).toNat_lt
  exact ⟨by omega, getLsbD_of_mod (by omega), getLsbD_of_mod (by omega), getLsbD_of_mod (by omega), by omega, by omega,
    by omega⟩

/-! ### The checks of each instruction, in their order -/

theorem withDesc_named {s : State} {n : Word} (h : s.descAllowed s.cur n.toNat = true) (i : Instr) (go : State) :
    s.withDesc i n go = go := if_pos h

theorem withDesc_unnamed {s : State} {n : Word} (h : ¬ s.descAllowed s.cur n.toNat = true) (i : Instr) (go : State) :
    s.withDesc i n go = s.illegalAddr i n := if_neg h

/-- TDEF past the checks of its operands: the rights to the span, and then the wait for the descriptor. -/
def State.tdefPlaced (s : State) (o : Opnd) : State :=
  match s.spanDenied s.cur (s.g o.rb).toNat (shapeSpan (s.g o.rc)) with
  | (u, some (d, a)) => u.trap 0x05 d (BitVec.ofNat 64 a)
  | (u, none) =>
    if ((u.tile (tileOf s.myCore)).desc (s.g o.ra).toNat).st ≠ .empty ∨
        u.descWanted [false, true] (tileOf s.myCore) (s.g o.ra).toNat then u
    else (u.updDesc (tileOf s.myCore) (s.g o.ra).toNat (s.defined o)).advance (o.halves 2)

section
variable {s : State} {o : Opnd} (hs : s.halt = none) (ht : s.onTile = true)
include hs ht

theorem exec_tstate : exec (.tstate o) s = .next (s.withDesc (.tstate o) (s.g o.rb)
    ((s.setG o.ra (descWord (s.g o.rb).toNat ((s.tile (tileOf s.myCore)).desc (s.g o.rb).toNat))).advance (o.halves 2))) :=
  (act_running hs _).trans (congrArg _ (tileOnly_inside ht _ _))

theorem exec_trel : exec (.trel o) s = .next (s.withDesc (.trel o) (s.g o.rb)
    (if ((s.tile (tileOf s.myCore)).desc (s.g o.rb).toNat).st = .filling ∨
        s.descWanted [false, true] (tileOf s.myCore) (s.g o.rb).toNat then s
      else (s.updDesc (tileOf s.myCore) (s.g o.rb).toNat Desc.release).advance (o.halves 2))) :=
  (act_running hs _).trans (congrArg _ (tileOnly_inside ht _ _))

theorem exec_tdef : exec (.tdef o) s = .next (s.withDesc (.tdef o) (s.g o.ra) <|
    if !shapeOk (s.g o.rc) then s.illegalAddr (.tdef o) (s.g o.rc)
    else if (s.g o.rb).toNat % 8 ≠ 0 then s.illegalAddr (.tdef o) (s.g o.rb)
    else s.tdefPlaced o) :=
  (act_running hs _).trans (congrArg _ (tileOnly_inside ht _ _))

variable (hn : s.descAllowed s.cur (s.g o.ra).toNat = true)
include hn

theorem exec_tdef_badShape (hc : shapeOk (s.g o.rc) = false) :
    exec (.tdef o) s = .next (s.illegalAddr (.tdef o) (s.g o.rc)) := by
  rw [exec_tdef hs ht, withDesc_named hn, if_pos (by rw [hc]; rfl)]

variable (hc : shapeOk (s.g o.rc) = true)
include hc

theorem exec_tdef_badBase (hb : (s.g o.rb).toNat % 8 ≠ 0) :
    exec (.tdef o) s = .next (s.illegalAddr (.tdef o) (s.g o.rb)) := by
  rw [exec_tdef hs ht, withDesc_named hn, if_neg (by rw [hc]; decide), if_pos hb]

variable (hb : (s.g o.rb).toNat % 8 = 0)
include hb

theorem exec_tdef_placed : exec (.tdef o) s = .next (s.tdefPlaced o) := by
  rw [exec_tdef hs ht, withDesc_named hn, if_neg (by rw [hc]; decide), if_neg (not_not.2 hb)]

end

end Sys2Proof.Machine

/-! ### O20: TDEF, TSTATE and TREL -/

namespace Sys2Proof.TileTable
open Sys2Proof.Machine

section
variable {s : State} {o : Opnd} (hs : s.halt = none) (ht : s.onTile = true)
include hs ht

/-- A TDEF whose span may be stored to defines the descriptor once it is EMPTY and wanted by no engine, and waits before. -/
theorem tdef_defines {u : State} (hn : s.descAllowed s.cur (s.g o.ra).toNat = true) (hc : shapeOk (s.g o.rc) = true)
    (hb : (s.g o.rb).toNat % 8 = 0) (hspan : s.spanDenied s.cur (s.g o.rb).toNat (shapeSpan (s.g o.rc)) = (u, none))
    (hcur : u.cur = s.cur) (hframes : u.frames = s.frames) :
    let d := (u.tile (tileOf s.myCore)).desc (s.g o.ra).toNat
    let wanted := u.descWanted [false, true] (tileOf s.myCore) (s.g o.ra).toNat = true
    (d.st = .empty → ¬ wanted → ∃ v t, exec (.tdef o) s = .next t ∧ DescTakes u v (s.g o.ra).toNat (s.defined o d) ∧
      GoesTo v t (s.next (.tdef o))) ∧
    (d.st ≠ .empty ∨ wanted → exec (.tdef o) s = .next u) := by
  intro d wanted
  have hexec := exec_tdef_placed hs ht hn hc hb
  simp only [State.tdefPlaced, hspan] at hexec
  have hcore : u.myCore = s.myCore := congrArg coreOf hcur
  refine ⟨fun hempty hfree => ?_, fun hwait => by rw [hexec, if_pos hwait]⟩
  rw [if_neg fun hwait => hwait.elim (· hempty) hfree] at hexec
  have htakes := updDesc_takes u (s.g o.ra).toNat (s.defined o)
  rw [hcore] at htakes
  have hnext : u.next (.tdef o) = s.next (.tdef o) := by rw [State.next, State.next, me_of_frames hcur hframes]
  refine ⟨_, _, hexec, htakes, ?_⟩
  rw [← hnext]
  exact advance_goesTo _ (encode_length_page rfl rfl rfl)

theorem tdef_denied {u : State} {x a : Nat} (hn : s.descAllowed s.cur (s.g o.ra).toNat = true)
    (hc : shapeOk (s.g o.rc) = true) (hb : (s.g o.rb).toNat % 8 = 0)
    (hspan : s.spanDenied s.cur (s.g o.rb).toNat (shapeSpan (s.g o.rc)) = (u, some (x, a))) :
    exec (.tdef o) s = .next (u.trap 0x05 x (BitVec.ofNat 64 a)) := by
  rw [exec_tdef_placed hs ht hn hc hb, State.tdefPlaced, hspan]

/-- A TREL that does not wait applies its row of R226. -/
theorem trel_releases (hn : s.descAllowed s.cur (s.g o.rb).toNat = true)
    (hready : ¬ (((s.tile (tileOf s.myCore)).desc (s.g o.rb).toNat).st = .filling ∨
      s.descWanted [false, true] (tileOf s.myCore) (s.g o.rb).toNat = true)) :
    ∃ v t, exec (.trel o) s = .next t ∧
      DescTakes s v (s.g o.rb).toNat ((s.tile (tileOf s.myCore)).desc (s.g o.rb).toNat).release ∧
      GoesTo v t (s.next (.trel o)) := by
  have hexec := exec_trel (o := o) hs ht
  rw [withDesc_named hn, if_neg hready] at hexec
  exact ⟨_, _, hexec, updDesc_takes .., advance_goesTo _ (encode_length_page rfl rfl rfl)⟩

end

/-- Settles O20: each instruction passes its checks in their order; TDEF and TREL then change one descriptor, or wait, and the
fields of TSTATE's word lie apart. -/
theorem tileTableInstructions : Obligations.TileTableInstructions := by
  intro o s hs ht n b d names wanted
  refine ⟨fun _ hn hc hb => tdef_defines hs ht hn hc hb, fun _ _ _ hn hc hb => tdef_denied hs ht hn hc hb,
    exec_tdef_badShape hs ht, exec_tdef_badBase hs ht, fun hn => ?_, fun hn => ⟨?_, ?_⟩, fun hn => ?state,
    fun hn hwait => ?_, fun hn hfill hfree => ?release⟩
  · rw [exec_tdef hs ht, withDesc_unnamed hn]
  · rw [exec_tstate hs ht, withDesc_unnamed hn]
  · rw [exec_trel hs ht, withDesc_unnamed hn]
  case state =>
    have hexec := exec_tstate (o := o) hs ht
    rw [withDesc_named hn] at hexec
    exact ⟨_, _, hexec, setG_advance_writesG s _ _ (encode_length_page rfl rfl rfl), descWord_fields ..⟩
  · rw [exec_trel hs ht, withDesc_named hn, if_pos hwait]
  case release =>
    have hrel := trel_releases hs ht hn fun hwait => hwait.elim hfill hfree
    rw [release_eq] at hrel
    exact hrel

end Sys2Proof.TileTable
end

section
/-!
PROOFS. Issue of the matrix commands (spec/11 R242, R256–R261): the checks in their order, the queue entry, the counter values that a
command draws and the record that its thread keeps of it.
-/
namespace Sys2Proof.Machine

/-! ### The kernel's declaration and the accumulator (spec/11 R242, R256) -/

section
variable {s : State} {i : Instr} (go : State)

theorem withMatrix_declared (ht : s.onTile = true)
    (hm : ∀ e, s.me.launch = some e → (s.entry e).hdr.nomatrix = false) : s.withMatrix i go = go := by
  rw [State.withMatrix, tileOnly_inside ht]
  refine if_neg ?_
  split
  · next e he => simp [hm e he]
  · simp

theorem withMatrix_banned (ht : s.onTile = true) {e : Nat} (he : s.me.launch = some e)
    (hm : (s.entry e).hdr.nomatrix = true) : s.withMatrix i go = s.illegalValue i := by
  rw [State.withMatrix, tileOnly_inside ht, he]
  exact if_pos hm

variable {n : Nat} {urg : Bool}

theorem withAcc_own (hq : s.inUrgent = urg) (hn : n < 4 ↔ s.inUrgent = false) : s.withAcc i n urg go = go := by
  subst hq
  cases hu : s.inUrgent <;> simp_all [State.withAcc]

theorem withAcc_otherQueue (hu : s.inUrgent = true) (hq : urg = false) :
    s.withAcc i n urg go = s.trap 0x13 0 (chainWord (encode i)) := if_pos ⟨hu, by rw [hq]; rfl⟩

/-- A slot that names the urgent queue, or an accumulator of it. -/
theorem withAcc_slot (hu : s.inUrgent = false) (h : urg = true ∨ 4 ≤ n) : s.withAcc i n urg go = s.illegalValue i := by
  rw [State.withAcc, if_neg (by simp [hu])]
  refine if_pos ?_
  cases urg with
  | true => exact .inr (by simp [hu])
  | false => exact .inl (decide_eq_false (Nat.not_lt.2 (h.resolve_left nofun)))

/-- The urgent frame that names its own queue and an accumulator of a slot's. -/
theorem withAcc_slotNumber (hq : urg = true) (hn : n < 4) : s.withAcc i n urg go = s.illegalValue i := by
  subst hq
  exact (if_neg (by simp)).trans (if_pos (.inl (decide_eq_true hn)))

end

/-! ### Flags and counter values together (spec/01 R24, spec/02 R54) -/

/-- FLAGS and FAULTEL of a frame once it takes the flags `l` (spec/01 R24). -/
def Frame.tookFlags (x : Frame) (l : ElemFlags) (eng : Bool) : Frame :=
  match lowestWith l 255 with
  | none => x
  | some (e, _) => { x with
      flags := x.flags ||| BitVec.ofNat 64 (orFlags l)
      faultel := if x.faultel.toNat.testBit 40 then x.faultel else faultelWord e (flagsAt l e) eng }

/-- The frame that `f` names takes the flags, and no other. -/
theorem frame_mergeFlags_named (s : State) (f k : Nat) (l : ElemFlags) (eng : Bool) :
    (s.mergeFlags f l eng).frame k = if k = s.named f then (s.frame k).tookFlags l eng else s.frame k := by
  cases hl : lowestWith l 255 with
  | none => simp only [State.mergeFlags, Frame.tookFlags, hl, ite_self]
  | some p =>
    simp only [State.mergeFlags, Frame.tookFlags, hl, frame_updFrame]
    split
    · next hk => rw [hk]
    · rfl

/-- What a frame takes of flags does not read its counter. -/
theorem tookFlags_rngc (x : Frame) (l : ElemFlags) (eng : Bool) (r : BitVec 48) :
    ({ x with rngc := r } : Frame).tookFlags l eng = { x.tookFlags l eng with rngc := r } := by
  unfold Frame.tookFlags
  split <;> rfl

theorem frame_drawBlock (s : State) (n k : Nat) : (s.drawBlock n).1.frame k =
    if k = s.cur then { s.me with rngc := BitVec.ofNat 48 (s.me.rngc.toNat + n) } else s.frame k :=
  frame_updFrame ..

theorem named_drawBlock (s : State) (n : Nat) : (s.drawBlock n).1.named s.cur = s.named s.cur :=
  named_congr (by rw [frame_drawBlock, if_pos rfl]; rfl)

/-- The words of a command change the counter alone, whatever flags the thread takes. -/
theorem me_mergeFlags_drawBlock (s : State) (n : Nat) (l : ElemFlags) : ((s.drawBlock n).1.mergeFlags s.cur l false).me =
    { (s.mergeFlags s.cur l false).me with rngc := BitVec.ofNat 48 (s.me.rngc.toNat + n) } := by
  rw [State.me, State.me, mergeFlags_cur, mergeFlags_cur, frame_mergeFlags_named, frame_mergeFlags_named, named_drawBlock]
  change (if s.cur = s.named s.cur then ((s.drawBlock n).1.frame s.cur).tookFlags l false
    else (s.drawBlock n).1.frame s.cur) = _
  rw [frame_drawBlock, if_pos rfl, tookFlags_rngc]
  split <;> rfl

theorem mergeFlags_drawBlock_other (s : State) (n : Nat) (l : ElemFlags) {k : Nat} (hk : k ≠ s.cur) :
    ((s.drawBlock n).1.mergeFlags s.cur l false).frame k = (s.mergeFlags s.cur l false).frame k := by
  rw [frame_mergeFlags_named, frame_mergeFlags_named, named_drawBlock, frame_drawBlock, if_neg hk]

/-- What the issue of a matrix command leaves, once it has its queue entry and when its flags do not trap. -/
def State.recorded (s : State) (r : CmdRec) (words n : Nat) (l : ElemFlags) : State :=
  (((s.drawBlock words).1.mergeFlags s.cur l false).updMe fun x => { x with cmds := x.cmds ++ [r] }).advance n

theorem recorded_within (s : State) (r : CmdRec) (words n : Nat) (l : ElemFlags) :
    Within (s.mergeFlags s.cur l false) (s.recorded r words n l) [s.cur] := by
  refine ⟨?rest, fun k hk => ?_, ?bytes⟩
  case rest =>
    have hrest := (mergeFlags_within (s.drawBlock words).1 s.cur l false).rest
    have hkept := (mergeFlags_within s s.cur l false).rest
    rw [hkept, State.recorded, hrest]
    rfl
  case bytes =>
    exact fun a => ((mergeFlags_within (s.drawBlock words).1 s.cur l false).bytes a).trans
      ((mergeFlags_within s s.cur l false).bytes a).symm
  have hk : k ≠ s.cur := by simpa using hk
  have hcur := mergeFlags_cur (s.drawBlock words).1 s.cur l false
  rw [State.recorded, advance_other _ _ (by rwa [cur_updMe, hcur]), frame_updMe_other _ _ (by rwa [hcur]),
    mergeFlags_drawBlock_other s words l hk]

theorem me_recorded (s : State) (r : CmdRec) (words n : Nat) (l : ElemFlags) : (s.recorded r words n l).me =
    { (s.mergeFlags s.cur l false).me with
      pc := pcAfter s.me.pc n, seq := s.me.seq + 1, since := 0, prog := 0,
      rngc := BitVec.ofNat 48 (s.me.rngc.toNat + words), cmds := s.me.cmds ++ [r] } := by
  have hme : (s.mergeFlags s.cur l false).me = { s.me with
      flags := (s.mergeFlags s.cur l false).me.flags, faultel := (s.mergeFlags s.cur l false).me.faultel } := by
    rw [State.me, mergeFlags_cur]
    exact frame_mergeFlags ..
  rw [State.recorded, advance_me, me_updMe, me_mergeFlags_drawBlock, hme]

/-! ### The entry, the words and the record of a command (spec/11 R256, R262; spec/02 R54) -/

/-- The flag of a matrix command's block of `n` counter values: RNGW where the counter wraps. -/
def State.blockFlags (s : State) (n : Nat) : ElemFlags := if s.me.rngc.toNat + n < 2 ^ 48 then [] else [(0, 128)]

/-- The record that a thread keeps of a matrix command that it issues. -/
def Cmd.record (c : Cmd) : CmdRec := ⟨c.serial, c.acc, false, [], false, c.tag, false, false⟩

theorem mergeFlags_enqueue (s : State) (f : Nat) (l : ElemFlags) (mat : Bool) (c : Cmd) :
    (s.mergeFlags f l false).enqueue mat c = (s.enqueue mat c).mergeFlags f l false := by
  unfold State.mergeFlags
  split <;> rfl

theorem matrixIssue_full {s : State} (h : 2 ≤ ((s.core s.myCore).queue true s.inUrgent).length) (op : COp) (o : Opnd) (b c : Word)
    (words : Nat) : s.matrixIssue op o b c words = s := if_pos ((queueFull_iff s true).2 h)

theorem matrixIssue_room {s : State} {words : Nat} (h : ((s.core s.myCore).queue true s.inUrgent).length < 2)
    (hoff : enabledOf s (s.blockFlags words) = 0) (op : COp) (o : Opnd) (b c : Word) :
    s.matrixIssue op o b c words = (s.enqueue true (s.command op o 0 b c 0)).recorded (s.command op o 0 b c 0).record words
      (o.halves 2) (s.blockFlags words) := by
  have hwrap : (if (s.drawBlock words).2 then [(0, fRNGW)] else []) = s.blockFlags words := by
    unfold State.blockFlags State.drawBlock
    simp only [decide_eq_true_eq, ge_iff_le, ← Nat.not_lt, ite_not]
    rfl
  have hnone : (s.drawBlock words).1.arithTrap (s.drawBlock words).1.cur (s.blockFlags words) false = none := by
    refine arithTrap_of_disabled ?_
    rw [enabledOf, State.drawBlock, me_updMe]
    exact hoff
  have hroom : ¬ s.queueFull true = true := fun hf => absurd ((queueFull_iff s true).1 hf) (by omega)
  refine (if_neg hroom).trans ?_
  change (s.drawBlock words).1.retire (o.halves 2) (if (s.drawBlock words).2 then [(0, fRNGW)] else []) _ = _
  rw [hwrap, retire_done hnone, mergeFlags_enqueue]
  rfl

/-- The command captures the thread's state before its words are drawn, and its entry and its thread's record name it. -/
theorem issuesMatrix_of_exec {s : State} {o : Opnd} {i : Instr} {op : COp} {b c : Word} {words : Nat}
    (hn : (encode i).length = o.halves 2) (he : exec i s = .next (s.matrixIssue op o b c words)) :
    IssuesMatrix s o i op b c words := by
  refine ⟨fun hroom hoff => ?_, fun hfull => by rw [he, matrixIssue_full hfull]⟩
  have hme := me_recorded (s.enqueue true (s.command op o 0 b c 0)) (s.command op o 0 b c 0).record words (o.halves 2)
    (s.blockFlags words)
  rw [← hn] at hme
  rw [matrixIssue_room hroom hoff, ← hn] at he
  exact ⟨s.command op o 0 b c 0, _, _, _, he, command_captured s op o 0 b c 0, rfl, rfl, rfl, rfl, enqueue_enqueued s true _,
    mergeFlags_within .., mergeFlags_flagsOnly .., mergeFlags_takesFlags .., recorded_within .., hme⟩

/-! ### The matrix commands by their operands (spec/11 R244, R257, R260) -/

/-- The instructions that issue a matrix command. -/
def matrixForms (o : Opnd) : List Instr := [.mma o, .mmac o, .mtern o, .mlda o, .msta o, .mzero o]

/-- The products and their commands. -/
def productForms (o : Opnd) : List (Instr × COp) := [(.mma o, .mma), (.mmac o, .mmac), (.mtern o, .mtern)]

/-- The load and the store of an accumulator and their commands. -/
def accMoveForms (o : Opnd) : List (Instr × COp) := [(.mlda o, .mlda), (.msta o, .msta)]

theorem matrixForms_length {o : Opnd} {i : Instr} (h : i ∈ matrixForms o) : (encode i).length = o.halves 2 := by
  unfold matrixForms at h
  fin_cases h <;> exact encode_length_page rfl rfl rfl

/-- The operand pairs of R244 are those that the model permits. -/
theorem pairOk_product (a b : Nat) : pairOk false a b = true ↔ mmaPair a b := by
  have happart : a ∈ [0, 0xB, 0xC, 7, 0xD] → a ∉ [0xE, 0xF] := by simp; omega
  unfold mmaPair
  by_cases hsame : a ∈ [0, 0xB, 0xC, 7, 0xD]
  · have hother := happart hsame
    simp_all [pairOk, or_assoc]
  · simp_all [pairOk, or_assoc]

theorem pairOk_ternary (a b : Nat) : pairOk true a b = true ↔ a = 0 ∧ b = 0 := by simp [pairOk]

/-- The descriptor numbers, reserved bits and shape of a product that R257 permits. -/
structure ProductOk (s : State) (o : Opnd) : Prop where
  descA : s.descAllowed s.cur ((s.g o.rb).toNat % 64) = true
  descB : s.descAllowed s.cur ((s.g o.rb).toNat / 256 % 64) = true
  gapA  : (s.g o.rb).toNat / 64 % 4 = 0
  gapB  : (s.g o.rb).toNat / 2 ^ 14 % 4 = 0
  high  : (s.g o.rb).toNat < 2 ^ 33
  shape : (s.g o.rc).toNat < 2 ^ 18
  cols  : (pairFmt o.et).1.complex = true → (s.g o.rc).toNat / 32 % 32 < 16

/-- The counter values that a product takes. -/
def State.productWords (s : State) (op : COp) (o : Opnd) : Nat :=
  if op = .mtern then 0 else mmaWords s.me.arith (pairFmt o.et).1 (s.g o.rc)

/-- A matrix command that names an accumulator of its frame's queue goes on past both checks. -/
theorem withMatrix_withAcc {s : State} {o : Opnd} (ht : s.onTile = true)
    (hm : ∀ e, s.me.launch = some e → (s.entry e).hdr.nomatrix = false) (hq : s.inUrgent = o.urg)
    (hn : o.ra < 4 ↔ s.inUrgent = false) (i : Instr) (go : State) : s.withMatrix i (s.withAcc i o.ra o.urg go) = go := by
  rw [withMatrix_declared _ ht hm, withAcc_own _ hq hn]

section
variable {s : State} {o : Opnd} (hs : s.halt = none)
include hs

/-- Every matrix command asks first for the kernel's declaration and then for the accumulator. -/
theorem exec_matrixForms {i : Instr} (h : i ∈ matrixForms o) :
    ∃ go, exec i s = .next (s.withMatrix i (s.withAcc i o.ra o.urg go)) := by
  unfold matrixForms at h
  fin_cases h <;> exact ⟨_, act_running hs _⟩

variable (ht : s.onTile = true)
include ht

theorem exec_matrix_banned {i : Instr} (h : i ∈ .mwait o :: .mstat o :: matrixForms o) {e : Nat} (he : s.me.launch = some e)
    (hb : (s.entry e).hdr.nomatrix = true) : exec i s = .next (s.illegalValue i) := by
  have hban (go : State) : s.withMatrix i go = s.illegalValue i := withMatrix_banned go ht he hb
  rcases List.mem_cons.1 h with rfl | h
  · exact (act_running hs _).trans (congrArg _ (hban _))
  rcases List.mem_cons.1 h with rfl | h
  · exact (act_running hs _).trans (congrArg _ (hban _))
  · obtain ⟨go, hexec⟩ := exec_matrixForms hs h
    rw [hexec, hban]

variable (hm : ∀ e, s.me.launch = some e → (s.entry e).hdr.nomatrix = false)
include hm

/-- A matrix command of a kernel that may give one asks for its accumulator. -/
theorem exec_matrix {i : Instr} (h : i ∈ matrixForms o) : ∃ go, exec i s = .next (s.withAcc i o.ra o.urg go) := by
  obtain ⟨go, hexec⟩ := exec_matrixForms hs h
  exact ⟨go, hexec.trans (congrArg _ (withMatrix_declared _ ht hm))⟩

variable (hq : s.inUrgent = o.urg) (hn : o.ra < 4 ↔ s.inUrgent = false)
include hq hn

theorem exec_product {i : Instr} {op : COp} (h : (i, op) ∈ productForms o) : exec i s = .next (
    if !pairOk (op == .mtern) o.et.code o.et2 then s.illegalValue i
    else if !s.descAllowed s.cur ((s.g o.rb).toNat % 64) then s.illegalAddr i (BitVec.ofNat 64 ((s.g o.rb).toNat % 64))
    else if !s.descAllowed s.cur ((s.g o.rb).toNat / 256 % 64) then
      s.illegalAddr i (BitVec.ofNat 64 ((s.g o.rb).toNat / 256 % 64))
    else if (s.g o.rb).toNat / 64 % 4 ≠ 0 ∨ (s.g o.rb).toNat / 2 ^ 14 % 4 ≠ 0 ∨ (s.g o.rb).toNat / 2 ^ 33 ≠ 0 then
      s.illegalAddr i (s.g o.rb)
    else if (s.g o.rc).toNat / 2 ^ 18 ≠ 0 ∨ ((pairFmt o.et).1.complex ∧ mmaN (s.g o.rc) > 16) then s.illegalAddr i (s.g o.rc)
    else s.matrixIssue op o (s.g o.rb) (s.g o.rc) (s.productWords op o)) := by
  unfold productForms at h
  fin_cases h <;> exact (act_running hs _).trans (congrArg _ (withMatrix_withAcc ht hm hq hn _ _))

theorem exec_product_badPair {i : Instr} {op : COp} (h : (i, op) ∈ productForms o)
    (hp : ¬ pairOk (op == .mtern) o.et.code o.et2 = true) : exec i s = .next (s.illegalValue i) := by
  rw [exec_product hs ht hm hq hn h, if_pos (by simpa using hp)]

theorem product_issues {i : Instr} {op : COp} (h : (i, op) ∈ productForms o)
    (hp : pairOk (op == .mtern) o.et.code o.et2 = true) (hok : ProductOk s o) :
    IssuesMatrix s o i op (s.g o.rb) (s.g o.rc) (s.productWords op o) := by
  have hi : i ∈ matrixForms o := by
    unfold productForms at h
    fin_cases h <;> simp [matrixForms]
  refine issuesMatrix_of_exec (matrixForms_length hi) ?_
  obtain ⟨hdescA, hdescB, hgapA, hgapB, hhigh, hshape, hcols⟩ := hok
  have hbase : ¬ ((s.g o.rb).toNat / 64 % 4 ≠ 0 ∨ (s.g o.rb).toNat / 2 ^ 14 % 4 ≠ 0 ∨ (s.g o.rb).toNat / 2 ^ 33 ≠ 0) := by omega
  have hsize : ¬ ((s.g o.rc).toNat / 2 ^ 18 ≠ 0 ∨ ((pairFmt o.et).1.complex = true ∧ mmaN (s.g o.rc) > 16)) := by
    rintro (hhi | ⟨hcomplex, hcol⟩)
    · omega
    · have := hcols hcomplex
      unfold mmaN at hcol
      omega
  rw [exec_product hs ht hm hq hn h, hp, hdescA, hdescB, if_neg hbase, if_neg hsize]
  rfl

theorem accMove_issues {i : Instr} {op : COp} (h : (i, op) ∈ accMoveForms o)
    (hok : mctlOk (op == .mlda) s.me.arith (s.g o.rb) (s.g o.rc) = true)
    (hdesc : (MCtl.ofWord (s.g o.rc)).desc = true → s.descAllowed s.cur ((s.g o.rb).toNat % 64) = true) :
    IssuesMatrix s o i op (s.g o.rb) (s.g o.rc) (if op = .msta ∧ (MCtl.ofWord (s.g o.rc)).draws s.me.arith = true then
      (MCtl.ofWord (s.g o.rc)).m * (MCtl.ofWord (s.g o.rc)).n * (if (MCtl.ofWord (s.g o.rc)).oet = .cf16 then 2 else 1)
      else 0) := by
  have hi : i ∈ matrixForms o := by
    unfold accMoveForms at h
    fin_cases h <;> simp [matrixForms]
  have hexec : exec i s = .next (s.mldaIssue i op o) := by
    unfold accMoveForms at h
    fin_cases h <;> exact act_running hs _
  have hnamed : ¬ ((MCtl.ofWord (s.g o.rc)).desc = true ∧ (!s.descAllowed s.cur ((s.g o.rb).toNat % 64)) = true) := by
    rintro ⟨hd, hno⟩
    rw [hdesc hd] at hno
    exact absurd hno (by decide)
  refine issuesMatrix_of_exec (matrixForms_length hi) (hexec.trans (congrArg _ ?_))
  refine (withMatrix_withAcc ht hm hq hn _ _).trans ?_
  rw [if_neg (by rw [hok]; decide), if_neg hnamed]

theorem zero_issues : IssuesMatrix s o (.mzero o) .mzero 0 0 0 :=
  issuesMatrix_of_exec (matrixForms_length (o := o) (by simp [matrixForms]))
    ((act_running hs _).trans (congrArg _ (withMatrix_withAcc ht hm hq hn _ _)))

end

end Sys2Proof.Machine

/-! ### O22: matrix commands -/

namespace Sys2Proof.MatrixIssue
open Sys2Proof.Machine

theorem matrixCommandsEnqueue : MatrixCommandsEnqueue := by
  intro o s hs ht hm hq hn b c n f stoch words ok m okm
  have hproduct (hok : ok) : ProductOk s o := by
    obtain ⟨hdescA, hdescB, hgapA, hgapB, hhigh, hshape, hcols⟩ := hok
    exact ⟨hdescA, hdescB, hgapA, hgapB, hhigh, hshape, hcols⟩
  have hwords : mmaWords s.me.arith f c = words := by
    simp only [mmaWords, Bool.not_eq_true']
    rfl
  refine ⟨fun hp hok => ⟨?_, ?_⟩, fun het het2 hok => ?_, fun ⟨hctl, hdesc⟩ => ?_, fun ⟨hctl, hdesc⟩ => ?_,
    zero_issues hs ht hm hq hn⟩
  · rw [← hwords]
    exact product_issues hs ht hm hq hn (by simp [productForms]) ((pairOk_product ..).2 hp) (hproduct hok)
  · rw [← hwords]
    exact product_issues hs ht hm hq hn (by simp [productForms]) ((pairOk_product ..).2 hp) (hproduct hok)
  · exact product_issues hs ht hm hq hn (by simp [productForms]) ((pairOk_ternary ..).2 ⟨het, het2⟩) (hproduct hok)
  · exact accMove_issues hs ht hm hq hn (op := .mlda) (by simp [accMoveForms]) hctl hdesc
  · have hmove := accMove_issues hs ht hm hq hn (i := .msta o) (op := .msta) (by simp [accMoveForms]) hctl hdesc
    simp only [true_and] at hmove
    exact hmove

theorem matrixInstructionChecks : MatrixInstructionChecks := by
  intro o s i hs ht six
  refine ⟨fun e he hb hi => exec_matrix_banned hs ht hi he hb, fun hm hi => ?_⟩
  obtain ⟨go, hexec⟩ := exec_matrix hs ht hm hi
  refine ⟨fun hu hq => ?_, fun hu hbad => ?_, fun _ hq hn => ?_, fun hq hn => ⟨fun hp hform => ?_, fun hp hform => ?_⟩⟩
  · rw [hexec, withAcc_otherQueue _ hu hq]
  · rw [hexec, withAcc_slot _ hu hbad]
  · rw [hexec, withAcc_slotNumber _ hq hn]
  · rcases hform with rfl | rfl
    · exact exec_product_badPair hs ht hm hq hn (op := .mma) (by simp [productForms]) (mt (pairOk_product ..).1 hp)
    · exact exec_product_badPair hs ht hm hq hn (op := .mmac) (by simp [productForms]) (mt (pairOk_product ..).1 hp)
  · subst hform
    exact exec_product_badPair hs ht hm hq hn (op := .mtern) (by simp [productForms]) (mt (pairOk_ternary ..).1 hp)

/-- Settles O22: a matrix command passes its checks in the order of R256, R242, R244 and R257, and then takes the last place of its
queue, its counter values and a record of its thread. -/
theorem matrixCommands : Obligations.MatrixCommands := ⟨matrixCommandsEnqueue, matrixInstructionChecks⟩

end Sys2Proof.MatrixIssue
end

section
/-!
PROOFS. MWAIT and MSTAT (spec/11 R262, R263): the commands that a wait observes, the flags that it merges and the trap that it raises,
and the fields of the status word.
-/
namespace Sys2Proof.Machine

/-! ### The flags of several commands (spec/01 R24, spec/11 R262) -/

/-- The flags of the commands `l`, merged in order. -/
def State.mergedAll (s : State) (l : List CmdRec) : State := l.foldl (fun t c => t.mergeFlags t.cur c.flags true) s

@[simp] theorem mergedAll_cons (s : State) (c : CmdRec) (l : List CmdRec) :
    s.mergedAll (c :: l) = (s.mergeFlags s.cur c.flags true).mergedAll l := rfl

theorem named_mergeFlags (s : State) (f k : Nat) (l : ElemFlags) (eng : Bool) : (s.mergeFlags f l eng).named k = s.named k :=
  named_congr (by rw [frame_mergeFlags])

@[simp] theorem cur_mergedAll (s : State) (l : List CmdRec) : (s.mergedAll l).cur = s.cur := by
  induction l generalizing s with
  | nil => rfl
  | cons c l ih => rw [mergedAll_cons, ih, mergeFlags_cur]

theorem mergedAll_within (s : State) (l : List CmdRec) : Within s (s.mergedAll l) [s.named s.cur] := by
  induction l generalizing s with
  | nil => exact Within.refl ..
  | cons c l ih =>
    have hrest := ih (s.mergeFlags s.cur c.flags true)
    rw [mergeFlags_cur, named_mergeFlags] at hrest
    exact (mergeFlags_within s s.cur c.flags true).trans hrest

/-- A frame keeps all but its flag records. -/
theorem frame_mergedAll (s : State) (l : List CmdRec) (k : Nat) : (s.mergedAll l).frame k =
    { s.frame k with flags := ((s.mergedAll l).frame k).flags, faultel := ((s.mergedAll l).frame k).faultel } := by
  induction l generalizing s with
  | nil => rfl
  | cons c l ih =>
    have hrest := ih (s.mergeFlags s.cur c.flags true)
    rw [frame_mergeFlags] at hrest
    exact hrest

theorem me_mergedAll (s : State) (l : List CmdRec) : (s.mergedAll l).me =
    { s.me with flags := (s.mergedAll l).me.flags, faultel := (s.mergedAll l).me.faultel } := by
  rw [State.me, cur_mergedAll]
  exact frame_mergedAll ..

/-- FLAGS of a thread that takes the flags `l`. -/
def orInto (w : Word) (l : ElemFlags) : Word := w ||| (if lowestWith l 255 = none then 0 else BitVec.ofNat 64 (orFlags l))

theorem flags_tookFlags (x : Frame) (l : ElemFlags) (eng : Bool) : (x.tookFlags l eng).flags = orInto x.flags l := by
  cases hl : lowestWith l 255 with
  | none => simp [Frame.tookFlags, orInto, hl]
  | some p => simp [Frame.tookFlags, orInto, hl]

theorem flags_mergedAll (s : State) (l : List CmdRec) : ((s.mergedAll l).frame (s.named s.cur)).flags =
    l.foldl (fun w c => orInto w c.flags) (s.frame (s.named s.cur)).flags := by
  induction l generalizing s with
  | nil => rfl
  | cons c l ih =>
    have hrest := ih (s.mergeFlags s.cur c.flags true)
    rw [mergeFlags_cur, named_mergeFlags, frame_mergeFlags_named, if_pos rfl, flags_tookFlags] at hrest
    exact hrest

/-- An update of the executing frame that keeps FLAGS keeps those of every frame. -/
theorem flags_updMe (s : State) {u : Frame → Frame} (h : ∀ x, (u x).flags = x.flags) (k : Nat) :
    ((s.updMe u).frame k).flags = (s.frame k).flags := by
  rw [State.updMe, frame_updFrame]
  split
  · next hk => rw [h, hk]
  · rfl

theorem flags_advance (s : State) (n k : Nat) : ((s.advance n).frame k).flags = (s.frame k).flags := by
  refine flags_updMe s ?_ k
  exact fun _ => rfl

/-! ### MWAIT (spec/11 R262) -/

/-- The command ended with ERR and no INPOP has observed it. -/
def CmdRec.failed (c : CmdRec) : Bool := c.err && !c.popped

/-- The records of a frame once an MWAIT has observed those of the accumulator: they are merged, and of them those that failed
stay. -/
def waitedCmds (a : Nat) (l : List CmdRec) : List CmdRec :=
  (updWhere (waitsFor a) (fun c => { c with merged := true }) l).filter fun c => !waitsFor a c || c.failed

/-- The commands on the accumulator whose flags are still to be merged. -/
def freshCmds (a : Nat) (l : List CmdRec) : List CmdRec := (l.filter (waitsFor a)).filter fun c => !c.merged

/-- A frame whose MWAIT on the accumulator has observed its commands. -/
def Frame.waited (a : Nat) (x : Frame) : Frame := { x with cmds := waitedCmds a x.cmds }

/-- The state past an MWAIT, before the trap that it may raise. -/
def State.waited (s : State) (o : Opnd) : State :=
  ((s.mergedAll (freshCmds o.ra s.me.cmds)).updMe (Frame.waited o.ra)).advance (o.halves 2)

theorem waitsFor_iff (a : Nat) (c : CmdRec) : waitsFor a c = true ↔ a = 31 ∨ c.acc = a := by simp [waitsFor]

theorem waitsFor_eq (a : Nat) : waitsFor a = fun c : CmdRec => decide (a = 31 ∨ c.acc = a) := by
  funext c
  rw [Bool.decide_or]
  rfl

/-- A command on the accumulator that is still recorded has been merged, and failed. -/
theorem waitedCmds_own {a : Nat} {l : List CmdRec} {c : CmdRec} (h : c ∈ waitedCmds a l) (ha : waitsFor a c = true) :
    c.merged = true ∧ c.failed = true := by
  obtain ⟨hmem, hkept⟩ := List.mem_filter.1 h
  obtain ⟨d, -, rfl⟩ := List.mem_map.1 hmem
  have hd : waitsFor a d = true := by
    split at ha
    · assumption
    · exact ha
  rw [if_pos hd] at hkept ha ⊢
  rw [ha] at hkept
  exact ⟨rfl, hkept⟩

/-- The records of other accumulators stand. -/
theorem waitedCmds_other (a : Nat) (l : List CmdRec) :
    (waitedCmds a l).filter (fun c => !waitsFor a c) = l.filter fun c => !waitsFor a c := by
  rw [waitedCmds, List.filter_filter]
  induction l with
  | nil => rfl
  | cons c l ih =>
    rw [updWhere, List.map_cons, ← updWhere]
    cases hc : waitsFor a c with
    | true =>
      have hmerged : waitsFor a { c with merged := true } = true := hc
      simp [hc, hmerged, ih]
    | false => simp [hc, ih]

theorem me_waited (s : State) (o : Opnd) : (s.waited o).me = { s.me with
    flags := (s.mergedAll (freshCmds o.ra s.me.cmds)).me.flags,
    faultel := (s.mergedAll (freshCmds o.ra s.me.cmds)).me.faultel,
    cmds := waitedCmds o.ra s.me.cmds, pc := pcAfter s.me.pc (o.halves 2), seq := s.me.seq + 1, since := 0, prog := 0 } := by
  rw [State.waited, advance_me, me_updMe, me_mergedAll]
  rfl

theorem waited_within (s : State) (o : Opnd) : Within s (s.waited o) [s.cur, s.named s.cur] := by
  have hmerge := (mergedAll_within s (freshCmds o.ra s.me.cmds)).mono (gs := [s.cur, s.named s.cur]) (by simp)
  have hcur : (s.mergedAll (freshCmds o.ra s.me.cmds)).cur = s.cur := cur_mergedAll ..
  rw [State.waited, State.advance, updMe_updMe]
  refine hmerge.trans (Within.mono (updFrame_within _ _ _) ?_)
  rw [hcur]
  simp

theorem flags_waited (s : State) (o : Opnd) : ((s.waited o).frame (s.named s.cur)).flags =
    (freshCmds o.ra s.me.cmds).foldl (fun w c => orInto w c.flags) (s.frame (s.named s.cur)).flags := by
  rw [State.waited, flags_advance, flags_updMe (u := Frame.waited o.ra) _ fun _ => rfl, flags_mergedAll]

/-- The end of an MWAIT: the error of the earliest command that failed, else the trap of the flags that it merged. -/
def State.waitTrap (s : State) (err : Option CmdRec) (l : ElemFlags) : State :=
  match err with
  | some c => s.trap 0x0D 1 (BitVec.ofNat 64 c.tag)
  | none => match s.arithTrap s.cur l true with
    | some (c, d, a) => s.trap c d a
    | none => s

theorem enabledOf_waited (s : State) (o : Opnd) (l : ElemFlags) : enabledOf (s.waited o) l = enabledOf s l := by
  rw [enabledOf, enabledOf, me_waited]

theorem waitTrap_disabled {s : State} {l : ElemFlags} (h : enabledOf s l = 0) : s.waitTrap none l = s := by
  simp only [State.waitTrap, engineTrap_of_disabled h]

theorem waitTrap_enabled {s : State} {l : ElemFlags} (h : enabledOf s l ≠ 0) :
    ∃ c a, s.waitTrap none l = s.trap c (enabledOf s l + 256) a ∧ (c = 0x08 ∨ c = 0x09) := by
  obtain ⟨c, a, htrap, hc⟩ := engineTrap_of_enabled h
  exact ⟨c, a, by simp only [State.waitTrap, htrap], hc⟩

section
variable {s : State} {o : Opnd} (hs : s.halt = none) (ht : s.onTile = true)
  (hm : ∀ e, s.me.launch = some e → (s.entry e).hdr.nomatrix = false)
include hs ht hm

theorem exec_mwait : exec (.mwait o) s = .next (
    if o.ra ≠ 31 ∧ s.inUrgent ∧ o.ra < 4 then s.trap 0x13 0 (chainWord (encode (.mwait o)))
    else if o.ra ≠ 31 ∧ decide (o.ra < 4) = s.inUrgent then s.illegalValue (.mwait o)
    else if (s.me.cmds.filter (waitsFor o.ra)).any (fun c => !c.done) then s
    else (s.waited o).waitTrap ((s.me.cmds.filter (waitsFor o.ra)).find? CmdRec.failed)
      ((freshCmds o.ra s.me.cmds).flatMap (·.flags))) :=
  (act_running hs _).trans (congrArg _ (withMatrix_declared _ ht hm))

theorem exec_mwait_otherQueue (hu : s.inUrgent = true) (ha : o.ra < 4) :
    exec (.mwait o) s = .next (s.trap 0x13 0 (chainWord (encode (.mwait o)))) := by
  rw [exec_mwait hs ht hm, if_pos ⟨by omega, hu, ha⟩]

theorem exec_mwait_slot (h31 : o.ra ≠ 31) (hu : s.inUrgent = false) (ha : 4 ≤ o.ra) :
    exec (.mwait o) s = .next (s.illegalValue (.mwait o)) := by
  rw [exec_mwait hs ht hm, if_neg (by simp [hu]), if_pos ⟨h31, by rw [hu]; exact decide_eq_false (by omega)⟩]

variable (hown : o.ra = 31 ∨ (o.ra < 4 ↔ s.inUrgent = false))
include hown

/-- An MWAIT of an accumulator of the frame's own, or of all, waits for its commands. -/
theorem exec_mwait_own : exec (.mwait o) s = .next (
    if (s.me.cmds.filter (waitsFor o.ra)).any (fun c => !c.done) then s
    else (s.waited o).waitTrap ((s.me.cmds.filter (waitsFor o.ra)).find? CmdRec.failed)
      ((freshCmds o.ra s.me.cmds).flatMap (·.flags))) := by
  have hurgent : ¬ (o.ra ≠ 31 ∧ s.inUrgent = true ∧ o.ra < 4) := by
    rintro ⟨h31, hu, ha⟩
    rw [(hown.resolve_left h31).1 ha] at hu
    exact absurd hu (by decide)
  have hnumber : ¬ (o.ra ≠ 31 ∧ decide (o.ra < 4) = s.inUrgent) := by
    rintro ⟨h31, hd⟩
    have hiff := hown.resolve_left h31
    rw [← hd] at hiff
    rw [decide_eq_false_iff_not] at hiff
    tauto
  rw [exec_mwait hs ht hm, if_neg hurgent, if_neg hnumber]

theorem exec_mwait_waits (h : ∃ c ∈ s.me.cmds.filter (waitsFor o.ra), c.done = false) : exec (.mwait o) s = .next s := by
  rw [exec_mwait_own hs ht hm hown, if_pos (List.any_eq_true.2 (by simpa using h))]

theorem exec_mwait_done (h : ∀ c ∈ s.me.cmds.filter (waitsFor o.ra), c.done = true) : exec (.mwait o) s = .next
    ((s.waited o).waitTrap ((s.me.cmds.filter (waitsFor o.ra)).find? CmdRec.failed)
      ((freshCmds o.ra s.me.cmds).flatMap (·.flags))) := by
  rw [exec_mwait_own hs ht hm hown, if_neg (by simpa using h)]

end

/-! ### MSTAT (spec/11 R263) -/

/-- The work of a core that an engine has taken and that does not merely post its end. -/
def worksOn (core : Nat) (j : Job) : Bool := coreOf j.cmd.frame == core && j.stage != .posting

/-- A channel has a command that does not merely post its end. -/
def Channel.busy (c : Channel) : Bool := c.cur.any fun j => j.stage != .posting

/-- A command on the accumulator is in the frame's queue or in the engine. -/
def State.accWorked (s : State) (f n : Nat) : Bool :=
  ((s.core (coreOf f)).queue true (slotOf f == 4)).any (fun c => c.acc == n) ||
    ((((s.tile (tileOf (coreOf f))).channel true (slotOf f == 4)).jobs.filter (worksOn (coreOf f))).any fun j => j.cmd.acc == n)

theorem accWorked_iff (s : State) (f n : Nat) : s.accWorked f n = true ↔
    (∃ c ∈ (s.core (coreOf f)).queue true (slotOf f == 4), c.acc = n) ∨
    ∃ j ∈ ((s.tile (tileOf (coreOf f))).channel true (slotOf f == 4)).jobs, worksOn (coreOf f) j = true ∧ j.cmd.acc = n := by
  simp [State.accWorked]

/-- ACCST of an accumulator of a frame: 2 while a command on it is in the queue or in the engine, and else its state. -/
def State.accCode (s : State) (f n : Nat) : Nat :=
  if s.accWorked f n then 2 else match (s.accum (coreOf f) n).st with | .clear => 0 | .held => 1 | .poisoned => 3

/-- The ACCST field `i` of a frame's word. -/
def State.accField (s : State) (f i : Nat) : Nat :=
  if slotOf f == 4 then (if i < 2 then s.accCode f (8 + i) else 0) else s.accCode f i

theorem accCode_lt (s : State) (f n : Nat) : s.accCode f n < 4 := by
  unfold State.accCode
  split
  · decide
  · split <;> decide

theorem accField_lt (s : State) (f i : Nat) : s.accField f i < 4 := by
  unfold State.accField
  split
  · split
    · exact accCode_lt ..
    · decide
  · exact accCode_lt ..

/-- The commands of a frame's core that wait in its channel. -/
def State.matWaits (s : State) (f : Nat) : Nat :=
  (((s.tile (tileOf (coreOf f))).channel true (slotOf f == 4)).wait.filter (worksOn (coreOf f))).length

theorem accst_eq (s : State) (f : Nat) :
    (accNumbers (slotOf f == 4)).zipIdx.foldl (fun w (n, i) => w + s.accCode f n * 2 ^ (8 + 2 * i)) 0 =
      2 ^ 8 * s.accField f 0 + 2 ^ 10 * s.accField f 1 + 2 ^ 12 * s.accField f 2 + 2 ^ 14 * s.accField f 3 := by
  unfold State.accField accNumbers
  cases slotOf f == 4 <;> simp <;> omega

/-- The fields of the word lie apart, and below bit 32. -/
theorem toNat_mstatWord {s : State} {f : Nat} (h : s.matWaits f < 8) : (s.mstatWord f).toNat =
    (s.tile (tileOf (coreOf f))).matFailed.toNat + 2 * (s.tile (tileOf (coreOf f))).matN.busy.toNat +
      4 * (s.tile (tileOf (coreOf f))).matU.busy.toNat +
      2 ^ 4 * (((s.core (coreOf f)).queue true (slotOf f == 4)).length % 4) +
      (2 ^ 8 * s.accField f 0 + 2 ^ 10 * s.accField f 1 + 2 ^ 12 * s.accField f 2 + 2 ^ 14 * s.accField f 3) +
      2 ^ 16 * s.matWaits f + 2 ^ 24 * ((s.tile (tileOf (coreOf f))).chk % 256) := by
  have hbit (b : Bool) (n : Nat) : (if b then n else 0) = n * b.toNat := by cases b <;> simp
  have hfailed := (s.tile (tileOf (coreOf f))).matFailed.toNat_lt
  have hnormal := (s.tile (tileOf (coreOf f))).matN.busy.toNat_lt
  have hurgent := (s.tile (tileOf (coreOf f))).matU.busy.toNat_lt
  have h0 := accField_lt s f 0
  have h1 := accField_lt s f 1
  have h2 := accField_lt s f 2
  have h3 := accField_lt s f 3
  rw [show s.mstatWord f = BitVec.ofNat 64 ((if (s.tile (tileOf (coreOf f))).matFailed then 1 else 0) +
      (if (s.tile (tileOf (coreOf f))).matN.busy then 2 else 0) + (if (s.tile (tileOf (coreOf f))).matU.busy then 4 else 0) +
      ((s.core (coreOf f)).queue true (slotOf f == 4)).length % 4 * 16 +
      (accNumbers (slotOf f == 4)).zipIdx.foldl (fun w (n, i) => w + s.accCode f n * 2 ^ (8 + 2 * i)) 0 +
      s.matWaits f * 65536 + (s.tile (tileOf (coreOf f))).chk % 256 * 2 ^ 24) from rfl,
    accst_eq, BitVec.toNat_ofNat, hbit, hbit, hbit]
  omega

/-- Each field of the word, and 0 in its reserved bit 3. -/
theorem mstatWord_fields {s : State} {f : Nat} (h : s.matWaits f < 8) :
    (s.mstatWord f).getLsbD 0 = (s.tile (tileOf (coreOf f))).matFailed ∧
    (s.mstatWord f).getLsbD 1 = (s.tile (tileOf (coreOf f))).matN.busy ∧
    (s.mstatWord f).getLsbD 2 = (s.tile (tileOf (coreOf f))).matU.busy ∧ (s.mstatWord f).getLsbD 3 = false ∧
    (s.mstatWord f).toNat / 2 ^ 4 % 2 ^ 4 = ((s.core (coreOf f)).queue true (slotOf f == 4)).length % 4 ∧
    (∀ i < 4, (s.mstatWord f).toNat / 2 ^ (8 + 2 * i) % 4 = s.accField f i) ∧
    (s.mstatWord f).toNat / 2 ^ 16 % 2 ^ 8 = s.matWaits f ∧
    (s.mstatWord f).toNat / 2 ^ 24 = (s.tile (tileOf (coreOf f))).chk % 256 := by
  have hword := toNat_mstatWord h
  have hfailed := (s.tile (tileOf (coreOf f))).matFailed.toNat_lt
  have hnormal := (s.tile (tileOf (coreOf f))).matN.busy.toNat_lt
  have hurgent := (s.tile (tileOf (coreOf f))).matU.busy.toNat_lt
  have h0 := accField_lt s f 0
  have h1 := accField_lt s f 1
  have h2 := accField_lt s f 2
  have h3 := accField_lt s f 3
  refine ⟨getLsbD_of_mod (by omega), getLsbD_of_mod (by omega), getLsbD_of_mod (by omega),
    getLsbD_of_mod (by rw [Bool.toNat_false]; omega), by omega, fun i hi => ?_, by omega, by omega⟩
  interval_cases i <;> omega

theorem exec_mstat {s : State} {o : Opnd} (hs : s.halt = none) (ht : s.onTile = true)
    (hm : ∀ e, s.me.launch = some e → (s.entry e).hdr.nomatrix = false) :
    exec (.mstat o) s = .next ((s.setG o.ra (s.mstatWord s.cur)).advance (o.halves 2)) :=
  (act_running hs _).trans (congrArg _ (withMatrix_declared _ ht hm))

end Sys2Proof.Machine

/-! ### O23: MWAIT and MSTAT -/

namespace Sys2Proof.MatrixStatus
open Sys2Proof.Machine

/-- Settles O23: past its wait an MWAIT leaves the flags merged and, of the commands that it observes, those that failed, before the
one trap that it may raise; the fields of MSTAT's word lie in disjoint bits. -/
theorem matrixWaitAndStatus : Obligations.MatrixWaitAndStatus := by
  intro o s hs ht hm a mine tile fresh fl err queue ch works accst waits
  have hmine : mine = s.me.cmds.filter (waitsFor o.ra) := by rw [waitsFor_eq]
  have hfresh : fresh = freshCmds o.ra s.me.cmds := by rw [freshCmds, ← hmine]
  have hfl : fl = (freshCmds o.ra s.me.cmds).flatMap (·.flags) := by rw [← hfresh]
  refine ⟨fun hown => ⟨fun hopen => ?_, fun hdone => ⟨s.waited o, waited_within s o, ?pc, by rw [me_waited], by rw [me_waited],
    fun c hc ha => ?own, ?other, ?flags, fun hnone hoff => ?quiet, fun hnone hon => ?trap, fun c hfail => ?error⟩⟩,
    exec_mwait_slot hs ht hm, exec_mwait_otherQueue hs ht hm, fun hwaits => ?status⟩
  · exact exec_mwait_waits hs ht hm hown (hmine ▸ hopen)
  case pc => rw [me_waited, State.next, encode_length_page (i := .mwait o) rfl rfl rfl]
  case own =>
    rw [me_waited] at hc
    exact waitedCmds_own hc ((waitsFor_iff o.ra c).2 ha)
  case other =>
    have hnot : (fun c : CmdRec => decide ¬ (a = 31 ∨ c.acc = a)) = fun c => !waitsFor o.ra c := by
      funext c
      rw [decide_not, waitsFor_eq]
    rw [me_waited, hnot]
    exact waitedCmds_other o.ra s.me.cmds
  case flags =>
    rw [hfresh]
    exact flags_waited s o
  case quiet =>
    rw [hmine] at hnone
    rw [exec_mwait_done hs ht hm hown (hmine ▸ hdone), show List.find? CmdRec.failed _ = none from hnone,
      waitTrap_disabled ((enabledOf_waited ..).trans (hfl ▸ hoff))]
  case trap =>
    rw [hmine] at hnone
    obtain ⟨c, el, htrap, hc⟩ := waitTrap_enabled (s := s.waited o) (l := fl) (by rwa [enabledOf_waited])
    refine ⟨c, el, ?_, hc⟩
    rw [exec_mwait_done hs ht hm hown (hmine ▸ hdone), show List.find? CmdRec.failed _ = none from hnone, ← hfl, htrap,
      enabledOf_waited]
  case error =>
    rw [hmine] at hfail
    rw [exec_mwait_done hs ht hm hown (hmine ▸ hdone), show List.find? CmdRec.failed _ = some c from hfail]
    rfl
  case status =>
    have haccst (n : Nat) : s.accCode s.cur n = accst n := if_congr (accWorked_iff ..) rfl rfl
    obtain ⟨hfailed, hnormal, hurgent, hzero, hcount, hacc, hwait, hchk⟩ := mstatWord_fields (s := s) (f := s.cur) hwaits
    refine ⟨_, _, exec_mstat hs ht hm, setG_advance_writesG s _ _ (encode_length_page rfl rfl rfl), hfailed, hnormal, hurgent, hzero,
      hcount, fun i hi => ?_, hwait, hchk⟩
    rw [← haccst, ← haccst]
    exact hacc i hi

end Sys2Proof.MatrixStatus
end
